-- ==== Sys2Proof/Word.lean ====
section
/-!
DEFINITION. The word types of the Karuno 7420 (R8, R9, R32, R86): 32-bit register words, bytes,
96-bit instruction words, 64-bit generic addresses.
-/

namespace Sys2Proof

/-- A 32-bit register word (R10, R86). -/
abbrev Word := BitVec 32

/-- One byte of memory (R8). -/
abbrev Byte := BitVec 8

/-- A 64-bit generic address or register pair (R38, R201). -/
abbrev Addr := BitVec 64

/-- A 96-bit instruction word (R32). -/
abbrev IWord := BitVec 96

end Sys2Proof
end

