-- ==== Sys2Proof/Config.lean ====
section
/-!
DEFINITION. What the manual leaves open (free values: constants with no body) and what one
implementation fixes. No proof can see the value of an opaque constant below.
-/

namespace Sys2Proof.Config

/-- The byte that an on-chip array returns where this context has written nothing (R63, R216):
array number and offset. Free value, log entry 5. -/
opaque noise : Nat → Nat → BitVec 8

/-- What a hold latch that holds nothing reads as (R52): latch number. Free value, log entry 4. -/
opaque lost : Nat → BitVec 32

/-- A fresh 64-bit free value, by counter (log entry 4). -/
opaque free : Nat → BitVec 64

/-- A free choice among several allowed outcomes, by counter (R262 shape versions, R234 orders). -/
opaque choice : Nat → Nat

/-- The raw results of the transcendental units of this stepping (R193); the meanings clamp them
to the manual's bounds (log entry 20). -/
opaque frcpRaw : BitVec 32 → BitVec 32
opaque frsqRaw : BitVec 32 → BitVec 32
opaque fexp2Raw : BitVec 32 → BitVec 32
opaque flog2Raw : BitVec 32 → BitVec 32
opaque fsinRaw : BitVec 32 → BitVec 32
opaque fcosRaw : BitVec 32 → BitVec 32

/-- Ck by which refresh holds, rationing and the unit itself stretch the occupancy of a piece of matrix work beyond its
nominal one, by counter (R51, R112, R208, R250; log entry 4). -/
opaque stretch : Nat → Nat

/-- The translator understands a vocabulary version of a portable level (R19): which it accepts is the device's (log
entry 26). -/
opaque understood : Nat → Nat → Bool

/-- The native lines that the translator makes of an item of a level, or none where it does not understand the item (R19):
the level, the bytes of its section and the item (log entry 26). -/
opaque translated : Nat → List (BitVec 8) → Nat → Option (List (BitVec 8))

/-- The Horgal key held in the ROM (R396): root and seed of an XMSS-SHAKE_20_512 public key. -/
opaque horgalRoot : List (BitVec 8)
opaque horgalSeed : List (BitVec 8)

/-- The device's own XMSS signature over an attestation body, with its index (R397). -/
opaque xmssSign : List (BitVec 8) → Nat → List (BitVec 8)

/-- A device-register page's answer to a read (R214): the device is outside the manual. -/
opaque deviceRead : Nat → Nat → BitVec 32

/-- Whether the peer of a slot exports a frame to the accessing context (R393): the peer is outside
this device. -/
opaque peerExports : Nat → Nat → Bool

/-- The byte that a peer's memory holds at an address of the link aperture (R393), by free-value counter, stamp and time: the
peer is outside this device (log entry 83). -/
opaque peerByte : Nat → Nat → Nat → Nat → BitVec 8

/-- A byte of a checkpoint's image (R394), by free-value counter and offset: no rule gives its layout (log entry 84). -/
opaque imageByte : Nat → Nat → BitVec 8

/-- The device number of this device (R393, R397). -/
opaque deviceNumber : BitVec 32

/-- Clusters per die, cores per cluster side (R2). -/
def dies : Nat := 4
def scratchpadBytes : Nat := 262144
def stackCarveMax : Nat := 131072
def tileBytes : Nat := 4096

end Sys2Proof.Config
end

