-- ==== Sys2Proof/Syntax.lean ====
section
/-!
DEFINITION. The abstract syntax: one constructor of `Instr` for each row of spec/opcode_table.json.
Compute instructions carry their control fields (R32) and named operands (R38); the pq. forms and the
Pail's RISC-V instructions carry their fields (R222, R223); the event rows carry what the manual
leaves to the party that brings the event about.
-/

namespace Sys2Proof

/-- Operand numbers of DST, SRCA, SRCB and SRCC (R38). -/
inductive Opnd where
  | v (n : Fin 64)
  | s (n : Fin 56)
  | bc (n : Fin 8)
  | dq (n : Fin 16)
  | p (n : Fin 8)
  | shp (n : Fin 8)
  | acc (n : Fin 16)
  | c (n : Fin 8)
  | reserved (n : Fin 68)
  | hl (n : Fin 3)
  | zr
  deriving DecidableEq, Repr

/-- Type codes of MOD[3:0] (R9, R42). -/
inductive Ty where
  | i32 | n32 | i64 | n64 | b32 | b64 | i8 | f32 | f16 | bf16 | e4m3 | e5m2 | e3m2 | e2m3 | kq4
  deriving DecidableEq, Repr

/-- The control fields of a word, bits [95:68] (R32). `rsv` is bit 72. -/
structure Ctl where
  dist : BitVec 4
  wait : BitVec 12
  sig : BitVec 4
  hold : BitVec 2
  nwb : Bool
  rsv : Bool
  guard : BitVec 4
  deriving DecidableEq, Repr

/-- Rounding modes, codes 0 to 4 (R167). -/
inductive Rm where
  | rne | rz | ru | rd | sr
  deriving DecidableEq, Repr

/-- Conditions of `cmp`, MOD[5:4] (R133). -/
inductive Cc where
  | eq | ne | lt | ge
  deriving DecidableEq, Repr

/-- Conditions of `fcmp`, codes 0 to 6 (R192). -/
inductive Fcc where
  | eq | lt | le | un | ne | ge | gt
  deriving DecidableEq, Repr

/-- Operations of `gred` and `gscan` (R156). -/
inductive RedOp where
  | add | min | max | and | or | xor
  deriving DecidableEq, Repr

/-- Modes of `vote` with the ballot's type (R154). -/
inductive VoteMode where
  | ballot32 | ballot64 | any | all
  deriving DecidableEq, Repr

/-- Operations of `atoms` and `gatom` (R232). -/
inductive AtomOp where
  | add | min | max | and | or | xor | exch | cas | fadd | fmin | fmax
  deriving DecidableEq, Repr

/-- The memory modifiers an access may carry in IMM (R36): offset, CQ register and QORD. -/
structure Mem where
  off : BitVec 12
  cq : BitVec 3
  qord : Bool
  deriving DecidableEq, Repr

/-- Operand fields of a hint word, kept raw because a broken hint never traps (R58). -/
structure HintFields where
  dst : BitVec 8
  a : BitVec 8
  b : BitVec 8
  c : BitVec 8
  md : BitVec 6
  imm : BitVec 20
  deriving DecidableEq, Repr

/-- Why a Pail stops (R224). -/
inductive StopWhy where
  | ecall | ebreak | exception
  deriving DecidableEq, Repr

/-- RISC-V branch conditions. -/
inductive RvBr where
  | eq | ne | lt | ge | ltu | geu
  deriving DecidableEq, Repr

/-- RISC-V integer operations (RV32I and M). -/
inductive RvOp where
  | add | sub | sll | slt | sltu | xor | srl | sra | or | and
  | mul | mulh | mulhsu | mulhu | div | divu | rem | remu
  deriving DecidableEq, Repr

/-- RISC-V load and store widths. -/
inductive RvMem where
  | b | h | w | bu | hu
  deriving DecidableEq, Repr

/-- Zicsr operations. -/
inductive RvCsr where
  | rw | rs | rc
  deriving DecidableEq, Repr

/-- The RV32IM and Zicsr instructions a Pail executes (R22, R222); compressed forms decode to these. -/
inductive RvInstr where
  | lui (rd : BitVec 5) (imm : BitVec 20)
  | auipc (rd : BitVec 5) (imm : BitVec 20)
  | jal (rd : BitVec 5) (off : BitVec 32)
  | jalr (rd rs1 : BitVec 5) (imm : BitVec 12)
  | branch (op : RvBr) (rs1 rs2 : BitVec 5) (off : BitVec 32)
  | load (wd : RvMem) (rd rs1 : BitVec 5) (imm : BitVec 12)
  | store (wd : RvMem) (rs1 rs2 : BitVec 5) (imm : BitVec 12)
  | opImm (op : RvOp) (rd rs1 : BitVec 5) (imm : BitVec 32)
  | op (op : RvOp) (rd rs1 rs2 : BitVec 5)
  | fence
  | csr (op : RvCsr) (immediate : Bool) (rd src : BitVec 5) (num : BitVec 12)
  deriving DecidableEq, Repr

/-- What a debug act does (R357, R392). -/
inductive DebugAct where
  | traprd (item : BitVec 32)
  | trapwr (item value : BitVec 32)
  | tret (action : BitVec 2)
  deriving DecidableEq, Repr

/-- Access kinds of translation (R211, R370). -/
inductive Acc where
  | read | write | atomic | exec | operand
  deriving DecidableEq, Repr

/-- An entry of the tables as the resident kernel writes it: its level and its word (R210, R212). -/
structure TableEntry where
  level : Nat
  word : BitVec 64
  /-- the CXL frame to which the resident kernel first moves the page's contents, if it does (R379) -/
  hold : Option Nat
  deriving DecidableEq, Repr

/-- A host write of 1 to 8 bytes in the message window (R391). -/
structure WinWrite where
  size : Nat
  value : BitVec 64
  deriving DecidableEq, Repr

/-- What a host access through a host window does (R390). -/
inductive HostAcc where
  | read (n : Nat)
  | write (bs : List Byte)
  deriving DecidableEq, Repr

/-- The width of an access of another device, and the type of an atomic (R232, R393). -/
structure PeerWidth where
  bytes : Nat
  ty : Ty
  deriving DecidableEq, Repr

/-- One constructor per row of spec/opcode_table.json. -/
inductive Instr where
  /-- add (R130). -/
  | add (k : Ctl) (ty : Ty) (d a b : Opnd)
  /-- I form of add (R57). -/
  | addI (k : Ctl) (ty : Ty) (d a : Opnd) (imm : BitVec 36)
  /-- sub (R130). -/
  | sub (k : Ctl) (ty : Ty) (d a b : Opnd)
  /-- I form of sub (R57). -/
  | subI (k : Ctl) (ty : Ty) (d a : Opnd) (imm : BitVec 36)
  /-- mul (R130). -/
  | mul (k : Ctl) (ty : Ty) (d a b : Opnd)
  /-- I form of mul (R57). -/
  | mulI (k : Ctl) (ty : Ty) (d a : Opnd) (imm : BitVec 36)
  /-- mulhi (R130). -/
  | mulhi (k : Ctl) (ty : Ty) (d a b : Opnd)
  /-- I form of mulhi (R57). -/
  | mulhiI (k : Ctl) (ty : Ty) (d a : Opnd) (imm : BitVec 36)
  /-- div (R130). -/
  | div (k : Ctl) (ty : Ty) (d a b : Opnd)
  /-- I form of div (R57). -/
  | divI (k : Ctl) (ty : Ty) (d a : Opnd) (imm : BitVec 36)
  /-- rem (R130). -/
  | rem (k : Ctl) (ty : Ty) (d a b : Opnd)
  /-- I form of rem (R57). -/
  | remI (k : Ctl) (ty : Ty) (d a : Opnd) (imm : BitVec 36)
  /-- min (R130). -/
  | min (k : Ctl) (ty : Ty) (d a b : Opnd)
  /-- I form of min (R57). -/
  | minI (k : Ctl) (ty : Ty) (d a : Opnd) (imm : BitVec 36)
  /-- max (R130). -/
  | max (k : Ctl) (ty : Ty) (d a b : Opnd)
  /-- I form of max (R57). -/
  | maxI (k : Ctl) (ty : Ty) (d a : Opnd) (imm : BitVec 36)
  /-- mad (R129). -/
  | mad (k : Ctl) (ty : Ty) (d a b c : Opnd)
  /-- neg (R130). -/
  | neg (k : Ctl) (ty : Ty) (d a : Opnd)
  /-- abs (R130). -/
  | abs (k : Ctl) (ty : Ty) (d a : Opnd)
  /-- not (R130). -/
  | notb (k : Ctl) (ty : Ty) (d a : Opnd)
  /-- clz (R130). -/
  | clz (k : Ctl) (ty : Ty) (d a : Opnd)
  /-- popc (R130). -/
  | popc (k : Ctl) (ty : Ty) (d a : Opnd)
  /-- brev (R130). -/
  | brev (k : Ctl) (ty : Ty) (d a : Opnd)
  /-- mov (R130). -/
  | mov (k : Ctl) (ty : Ty) (d a : Opnd)
  /-- shl (R130). -/
  | shl (k : Ctl) (ty : Ty) (d a b : Opnd)
  /-- I form of shl (R57). -/
  | shlI (k : Ctl) (ty : Ty) (d a : Opnd) (imm : BitVec 36)
  /-- shr (R130). -/
  | shr (k : Ctl) (ty : Ty) (d a b : Opnd)
  /-- I form of shr (R57). -/
  | shrI (k : Ctl) (ty : Ty) (d a : Opnd) (imm : BitVec 36)
  /-- sar (R130). -/
  | sar (k : Ctl) (ty : Ty) (d a b : Opnd)
  /-- I form of sar (R57). -/
  | sarI (k : Ctl) (ty : Ty) (d a : Opnd) (imm : BitVec 36)
  /-- and (R130). -/
  | andb (k : Ctl) (ty : Ty) (d a b : Opnd)
  /-- I form of and (R57). -/
  | andbI (k : Ctl) (ty : Ty) (d a : Opnd) (imm : BitVec 36)
  /-- or (R130). -/
  | orb (k : Ctl) (ty : Ty) (d a b : Opnd)
  /-- I form of or (R57). -/
  | orbI (k : Ctl) (ty : Ty) (d a : Opnd) (imm : BitVec 36)
  /-- xor (R130). -/
  | xorb (k : Ctl) (ty : Ty) (d a b : Opnd)
  /-- I form of xor (R57). -/
  | xorbI (k : Ctl) (ty : Ty) (d a : Opnd) (imm : BitVec 36)
  /-- andn (R130). -/
  | andn (k : Ctl) (ty : Ty) (d a b : Opnd)
  /-- I form of andn (R57). -/
  | andnI (k : Ctl) (ty : Ty) (d a : Opnd) (imm : BitVec 36)
  /-- bfx (R132). -/
  | bfx (k : Ctl) (ty : Ty) (d a : Opnd) (pos : BitVec 6) (len : BitVec 7)
  /-- bfi (R132). -/
  | bfi (k : Ctl) (ty : Ty) (d a b : Opnd) (pos : BitVec 6) (len : BitVec 7)
  /-- sel (R129). -/
  | sel (k : Ctl) (ty : Ty) (d a b c : Opnd)
  /-- cmp (R133). -/
  | cmp (k : Ctl) (cc : Cc) (ty : Ty) (d a b : Opnd)
  /-- I form of cmp (R57). -/
  | cmpI (k : Ctl) (cc : Cc) (ty : Ty) (d a : Opnd) (imm : BitVec 36)
  /-- movi (R134). -/
  | movi (k : Ctl) (ty : Ty) (d : Opnd) (imm : BitVec 36)
  /-- addpc (R135). -/
  | addpc (k : Ctl) (d : Opnd) (disp : BitVec 20)
  /-- idx (R137). -/
  | idx (k : Ctl) (d : Opnd) (dim : BitVec 2)
  /-- rngget (R138). -/
  | rngget (k : Ctl) (d : Opnd) (item : BitVec 2)
  /-- formget (R139). -/
  | formget (k : Ctl) (d a : Opnd) (item : BitVec 2)
  /-- expand (R140). -/
  | expand (k : Ctl)
  /-- rerange (R104, R140). -/
  | rerange (k : Ctl)
  /-- dead (R141): count − 1 in MOD. -/
  | dead (k : Ctl) (a : Opnd) (cnt : BitVec 6)
  /-- bra (R145). -/
  | bra (k : Ctl) (disp : BitVec 20)
  /-- brx (R146). -/
  | brx (k : Ctl) (a b : Opnd) (n : BitVec 6)
  /-- call (R147). -/
  | call (k : Ctl) (d : Opnd) (disp : BitVec 20)
  /-- callx (R148). -/
  | callx (k : Ctl) (d a : Opnd)
  /-- ret (R149). -/
  | ret (k : Ctl) (a : Opnd)
  /-- exit (R105, R150). -/
  | exit (k : Ctl)
  /-- nop (R151). -/
  | nop (k : Ctl)
  /-- pand (R142). -/
  | pand (k : Ctl) (d a b : Opnd) (na nb : Bool)
  /-- por (R142). -/
  | por (k : Ctl) (d a b : Opnd) (na nb : Bool)
  /-- pxor (R142). -/
  | pxor (k : Ctl) (d a b : Opnd) (na nb : Bool)
  /-- pnot (R142). -/
  | pnot (k : Ctl) (d a : Opnd)
  /-- pmov (R142). -/
  | pmov (k : Ctl) (d a : Opnd)
  /-- shfl (R153). -/
  | shfl (k : Ctl) (ty : Ty) (d a b : Opnd) (mode : BitVec 2)
  /-- vote (R154). -/
  | vote (k : Ctl) (m : VoteMode) (d a : Opnd)
  /-- elect (R155). -/
  | elect (k : Ctl) (d : Opnd)
  /-- gred (R156). -/
  | gred (k : Ctl) (op : RedOp) (ty : Ty) (d a : Opnd)
  /-- gscan (R157). -/
  | gscan (k : Ctl) (op : RedOp) (ty : Ty) (excl : Bool) (d a : Opnd)
  /-- fadd (R189). -/
  | fadd (k : Ctl) (ty : Ty) (rm : Rm) (sat : Bool) (d a b : Opnd)
  /-- fsub (R189). -/
  | fsub (k : Ctl) (ty : Ty) (rm : Rm) (sat : Bool) (d a b : Opnd)
  /-- fmul (R189). -/
  | fmul (k : Ctl) (ty : Ty) (rm : Rm) (sat : Bool) (d a b : Opnd)
  /-- ffma (R189). -/
  | ffma (k : Ctl) (ty : Ty) (rm : Rm) (sat : Bool) (d a b c : Opnd)
  /-- fmin (R191). -/
  | fmin (k : Ctl) (ty : Ty) (d a b : Opnd)
  /-- fmax (R191). -/
  | fmax (k : Ctl) (ty : Ty) (d a b : Opnd)
  /-- fcmp (R192). -/
  | fcmp (k : Ctl) (cc : Fcc) (ty : Ty) (d a b : Opnd)
  /-- frcp (R193, R194). -/
  | frcp (k : Ctl) (d a : Opnd)
  /-- frsq (R193, R194). -/
  | frsq (k : Ctl) (d a : Opnd)
  /-- fsqrt (R193, R194). -/
  | fsqrt (k : Ctl) (d a : Opnd)
  /-- fexp2 (R193, R194). -/
  | fexp2 (k : Ctl) (d a : Opnd)
  /-- flog2 (R193, R194). -/
  | flog2 (k : Ctl) (d a : Opnd)
  /-- fsin (R193, R194). -/
  | fsin (k : Ctl) (d a : Opnd)
  /-- fcos (R193, R194). -/
  | fcos (k : Ctl) (d a : Opnd)
  /-- fcvt (R195). -/
  | fcvt (k : Ctl) (dt sty : Ty) (rm : Rm) (sat : Bool) (d a : Opnd)
  /-- f2i (R196). -/
  | f2i (k : Ctl) (it ft : Ty) (rm : Rm) (d a : Opnd)
  /-- i2f (R197). -/
  | i2f (k : Ctl) (ft it : Ty) (rm : Rm) (sat : Bool) (d a : Opnd)
  /-- frnd (R198). -/
  | frnd (k : Ctl) (ty : Ty) (rm : Rm) (d a : Opnd)
  /-- fclass (R199). -/
  | fclass (k : Ctl) (ty : Ty) (d a : Opnd)
  /-- hadd2 (R189). -/
  | hadd2 (k : Ctl) (ty : Ty) (rm : Rm) (sat : Bool) (d a b : Opnd)
  /-- hmul2 (R189). -/
  | hmul2 (k : Ctl) (ty : Ty) (rm : Rm) (sat : Bool) (d a b : Opnd)
  /-- hfma2 (R189). -/
  | hfma2 (k : Ctl) (ty : Ty) (rm : Rm) (sat : Bool) (d a b c : Opnd)
  /-- plsplit (R200). -/
  | plsplit (k : Ctl) (ty : Ty) (d a : Opnd)
  /-- pljoin (R200). -/
  | pljoin (k : Ctl) (ty : Ty) (d a b : Opnd)
  /-- ld (R229, R230). -/
  | ld (k : Ctl) (ty : Ty) (d a : Opnd) (m : Mem)
  /-- st (R229, R230). -/
  | st (k : Ctl) (ty : Ty) (a b : Opnd) (m : Mem)
  /-- ldp (R229). -/
  | ldp (k : Ctl) (d a : Opnd) (m : Mem)
  /-- stp (R229). -/
  | stp (k : Ctl) (a b : Opnd) (m : Mem)
  /-- atoms (R233). -/
  | atoms (k : Ctl) (op : AtomOp) (ty : Ty) (d a b c : Opnd) (scope : BitVec 3) (off : BitVec 12)
  /-- gather (R236). -/
  | gather (k : Ctl) (ty : Ty) (d a b : Opnd) (sh : BitVec 5) (m : Mem)
  /-- scatter (R236): DST names the data. -/
  | scatter (k : Ctl) (ty : Ty) (d a b : Opnd) (sh : BitVec 5) (m : Mem)
  /-- gatom (R234). -/
  | gatom (k : Ctl) (op : AtomOp) (ty : Ty) (d a b c : Opnd) (scope : BitVec 3) (m : Mem)
  /-- amaxrd (R235). -/
  | amaxrd (k : Ctl) (ty : Ty) (d a : Opnd) (scope : BitVec 3) (m : Mem)
  /-- copy (R237–R241). -/
  | copy (k : Ctl) (a b c : Opnd) (tag : BitVec 6) (qord : Bool) (off : BitVec 12)
  /-- copyw (R237–R241). -/
  | copyw (k : Ctl) (a b c : Opnd) (tag : BitVec 6) (qord : Bool) (off : BitVec 12)
  /-- rload (R237–R241). -/
  | rload (k : Ctl) (a b c : Opnd) (tag : BitVec 6) (qord : Bool) (off : BitVec 12)
  /-- remld (R242). -/
  | remld (k : Ctl) (ty : Ty) (d a : Opnd) (coord : BitVec 11) (cq : BitVec 3)
  /-- qpeek (R243). -/
  | qpeek (k : Ctl) (d a : Opnd) (pop : Bool)
  /-- qstat (R244). -/
  | qstat (k : Ctl) (d a : Opnd)
  /-- qbind (R245). -/
  | qbind (k : Ctl) (a : Opnd) (mode : BitVec 2)
  /-- pref (R246), a hint. -/
  | pref (k : Ctl) (f : HintFields)
  /-- bar (R326). -/
  | bar (k : Ctl) (n : BitVec 3) (scope : BitVec 3)
  /-- bararr (R327). -/
  | bararr (k : Ctl) (d : Opnd) (n : BitVec 3) (scope : BitVec 3)
  /-- barwait (R328). -/
  | barwait (k : Ctl) (a : Opnd) (n : BitVec 3)
  /-- fence (R329): kind 0 full, 1 acq, 2 rel. -/
  | fence (k : Ctl) (kind : BitVec 2) (scope : BitVec 3)
  /-- aliasfence (R330). -/
  | aliasfence (k : Ctl) (scope : BitVec 3)
  /-- qfence (R331). -/
  | qfence (k : Ctl) (scope : BitVec 3)
  /-- twait (R332). -/
  | twait (k : Ctl) (tag : BitVec 6)
  /-- tfirst (R333). -/
  | tfirst (k : Ctl) (d a : Opnd)
  /-- bcwait (R334). -/
  | bcwait (k : Ctl) (a b : Opnd)
  /-- yield (R335). -/
  | yield (k : Ctl)
  /-- task (R64). -/
  | task (k : Ctl) (d a : Opnd)
  /-- taskwait (R74). -/
  | taskwait (k : Ctl) (d a : Opnd) (all : Bool)
  /-- tinfo (R75). -/
  | tinfo (k : Ctl) (d : Opnd) (item : BitVec 5)
  /-- stepwait (R351). -/
  | stepwait (k : Ctl) (d : Opnd)
  /-- mma (R273–R276). -/
  | mma (k : Ctl) (aty : Ty) (bty : BitVec 2) (d a b c : Opnd) (role : BitVec 2) (acc remb : Bool) (off : BitVec 12)
  /-- mmasp (R277). -/
  | mmasp (k : Ctl) (ty : Ty) (d a b c : Opnd) (role : BitVec 2) (acc : Bool) (off : BitVec 12)
  /-- scacc (R279). -/
  | scacc (k : Ctl) (set : Bool) (d a b : Opnd)
  /-- bscale (R280). -/
  | bscale (k : Ctl) (hi : Bool) (d a : Opnd)
  /-- accz (R281). -/
  | accz (k : Ctl) (d : Opnd)
  /-- accld (R281). -/
  | accld (k : Ctl) (ty : Ty) (d a c : Opnd) (off : BitVec 12)
  /-- accst (R281). -/
  | accst (k : Ctl) (ty : Ty) (a b c : Opnd) (off : BitVec 12)
  /-- accmov (R282). -/
  | accmov (k : Ctl) (tr : Bool) (d a : Opnd)
  /-- accpeek (R283). -/
  | accpeek (k : Ctl) (d a b : Opnd)
  /-- accpatch (R284). -/
  | accpatch (k : Ctl) (op : BitVec 2) (d a b : Opnd)
  /-- accnorm (R285). -/
  | accnorm (k : Ctl) (mode size : BitVec 2) (d a b : Opnd)
  /-- mcoef (R286). -/
  | mcoef (k : Ctl) (rd : Bool) (d a : Opnd)
  /-- mpoly (R287). -/
  | mpoly (k : Ctl) (size : BitVec 2) (deg : BitVec 3) (d a b : Opnd)
  /-- miter (R288). -/
  | miter (k : Ctl) (size : BitVec 2) (cap : BitVec 8) (d a b c : Opnd)
  /-- mloopget (R289). -/
  | mloopget (k : Ctl) (d : Opnd)
  /-- mloopset (R289). -/
  | mloopset (k : Ctl) (a : Opnd)
  /-- shpset (R290). -/
  | shpset (k : Ctl) (d a : Opnd)
  /-- shpget (R291). -/
  | shpget (k : Ctl) (a b : Opnd)
  /-- shpfence (R292). -/
  | shpfence (k : Ctl)
  /-- rred (R293). -/
  | rred (k : Ctl) (op : BitVec 3) (win : Bool) (d a b c : Opnd)
  /-- rnorm (R294). -/
  | rnorm (k : Ctl) (mode : BitVec 3) (fs : BitVec 11) (a b c : Opnd)
  /-- qenc (R295). -/
  | qenc (k : Ctl) (ty : Ty) (rm : Rm) (sat : Bool) (d a b : Opnd)
  /-- qdec (R296). -/
  | qdec (k : Ctl) (ty : Ty) (d a b : Opnd)
  /-- kqsc (R297). -/
  | kqsc (k : Ctl) (d a : Opnd) (blk : BitVec 2)
  /-- trap (R362). -/
  | trap (k : Ctl) (n : BitVec 16) (bind : Bool)
  /-- bkpt (R362). -/
  | bkpt (k : Ctl) (n : BitVec 16)
  /-- tret (R366). -/
  | tret (k : Ctl) (d : Opnd) (action : BitVec 2)
  /-- wpset (R368). -/
  | wpset (k : Ctl) (n : BitVec 3) (a : Opnd)
  /-- wpclr (R368). -/
  | wpclr (k : Ctl) (n : BitVec 3)
  /-- sysrd (R367). -/
  | sysrd (k : Ctl) (d : Opnd) (num : BitVec 12)
  /-- syswr (R367). -/
  | syswr (k : Ctl) (a : Opnd) (num : BitVec 12)
  /-- traprd (R363). -/
  | traprd (k : Ctl) (d a : Opnd)
  /-- trapwr (R363). -/
  | trapwr (k : Ctl) (a b : Opnd)
  /-- phase (R341), a hint. -/
  | phase (k : Ctl) (f : HintFields)
  /-- phend (R344), a hint. -/
  | phend (k : Ctl) (f : HintFields)
  /-- pq.push (R223). -/
  | pqPush (q rs : BitVec 5)
  /-- pq.pop (R223). -/
  | pqPop (q rd : BitVec 5)
  /-- pq.rowin (R223). -/
  | pqRowin (q rs : BitVec 5)
  /-- pq.rowout (R223). -/
  | pqRowout (q rs : BitVec 5)
  /-- pq.stat (R223). -/
  | pqStat (q rd : BitVec 5)
  /-- A Pail stops (R224). -/
  | pailStop (why : StopWhy)
  /-- R392: request KIND 0x01, with the resident kernel's die map and page-table root. -/
  | createContext (seq : Word) (priority quota : Nat) (dieMap : List Nat) (bounded : Bool) (root : Nat)
  /-- R17: request KIND 0x02, device address and length of the image. -/
  | loadObject (seq : Word) (ctx addr len : Nat)
  /-- R392: request KIND 0x03, generic address of the task record. -/
  | startGroup (seq : Word) (ctx : Nat) (addr : Addr)
  /-- R378: request KIND 0x04. -/
  | killContext (seq : Word) (ctx : Nat)
  /-- R397: request KIND 0x05, the nonce, and where the device puts the report. -/
  | attest (seq : Word) (nonce : BitVec 256) (dst : Nat)
  /-- R396: request KIND 0x06, device address and length. -/
  | pushFirmware (seq : Word) (addr len : Nat)
  /-- R394: request KIND 0x07, addresses of the own and the neighbour copy. -/
  | checkpoint (seq : Word) (ctx own neighbour : Nat)
  /-- R357: request KIND 0x08 on a group of a context. -/
  | debugAct (seq : Word) (ctx group : Nat) (act : DebugAct)
  /-- R391: a host write in the message window. -/
  | registerWrite (off : Nat) (value : WinWrite)
  /-- R112: the oldest due fixed-latency result of a group is written. -/
  | resultWriteback (g : Nat)
  /-- R416, R228: element e of operand-log slot l of a group lands or is performed. -/
  | globalBytesLand (g l e : Nat)
  /-- R302: the store at the head of a group's store queue is performed. -/
  | storePerformed (g : Nat)
  /-- R238: the engine command of slot l moves its bytes and its tag sets. -/
  | engineCommandComplete (g l : Nat)
  /-- R257: the n-th piece of matrix or tile work of a group writes and completes. -/
  | matrixPassComplete (g n : Nat)
  /-- R267: the loop of a group runs an iteration and reaches its boundary. -/
  | iterationBoundary (g : Nat)
  /-- R321: a blocked record (age index r) whose condition is met becomes ready. -/
  | recordWake (g r : Nat)
  /-- R93: a hold at issue of a group ends. -/
  | issueHoldRelease (g : Nat)
  /-- R94: the next issue of a group takes the forced run. -/
  | stragglerForcedRun (g : Nat)
  /-- R64: the Churn accepts or refuses the oldest submitted task of a group. -/
  | churnAccept (g : Nat)
  /-- R76: the Parlour places a ready team on a core. -/
  | placeTeam (t core : Nat)
  /-- R386: a team whose last group ended retires. -/
  | teamRetirement (t : Nat)
  /-- R69: a version of a retired team commits. -/
  | versionCommit (t tile : Nat)
  /-- R373. -/
  | preemptionRequest (t : Nat)
  /-- R373. -/
  | eviction (t : Nat)
  /-- R373: on the given core. -/
  | resumption (t core : Nat)
  /-- R80: to the given core. -/
  | migration (t core : Nat)
  /-- R81: the n-th forwarding entry of a core passes a message on. -/
  | forwardedMessage (core n : Nat)
  /-- R211: of a context for an access kind at a generic address, from a cluster. -/
  | pageWalk (ctx cluster : Nat) (va : Addr) (kind : Acc)
  /-- R371: the resident kernel resolves the oldest record, with the page's frame if it makes one resident. -/
  | faultResolution (ctx : Nat) (frame : Option Nat)
  /-- R371: on the oldest record of a context. -/
  | faultBudgetExpiry (ctx : Nat)
  /-- R72. -/
  | abortCutTimeout (t : Nat)
  /-- R378. -/
  | killCutTimeout (ctx : Nat)
  /-- R376: the detector traps a group of a wait cycle. -/
  | waitCycleTrap (g : Nat)
  /-- R358: a handler starts for a frozen group. -/
  | handlerStart (g : Nat)
  /-- R368: a pending watchpoint change of a context is applied by every core. -/
  | watchpointApply (ctx : Nat)
  /-- R108: for the head run of a group. -/
  | demandFetch (g : Nat)
  /-- R110: of one line for a group. -/
  | speculativeFetch (g : Nat) (line : Addr)
  /-- R111: of the line a group needs, in range class R or L. -/
  | traceCacheFill (g : Nat) (lane : Bool)
  /-- R212: the resident kernel writes the entry of an address at a level of the tables and invalidates the TLBs. -/
  | tlbInvalidation (ctx : Nat) (va : Addr) (entry : TableEntry)
  /-- R343. -/
  | phaseStart (g : Nat)
  /-- R345. -/
  | phaseExpiry (g : Nat)
  /-- R351. -/
  | stepRelease (g : Nat)
  /-- R208: the calendar of a cluster reaches the next window edge. -/
  | refreshWindow (cluster : Nat)
  /-- R78. -/
  | coreAvoidance (core : Nat) (temp : Nat)
  /-- R78. -/
  | avoidanceEnd (core : Nat)
  /-- R348: on the island of a core. -/
  | droopEvent (core : Nat)
  /-- R348: the target frequency of an island, in MHz. -/
  | islandFrequencyChange (island mhz : Nat)
  /-- R348. -/
  | clockHop (island : Nat)
  /-- R390: a host access of one byte through a host window. -/
  | hostMemoryAccess (win : Nat) (off : Addr) (wr : HostAcc)
  /-- R393: an access of another device to a frame here that a context exports. -/
  | peerAccess (ctx pa : Nat) (size : PeerWidth) (op : Option AtomOp) (wr : Option (BitVec 128)) (repl : BitVec 64)
  /-- R393: the peer of a slot is lost. -/
  | peerLost (slot : Nat)
  /-- R395: of the device bound to a peer slot, and the spare that takes its place. -/
  | heartbeatMiss (slot spare : Nat)
  /-- R394: of the oldest pending checkpoint. -/
  | checkpointTimeout
  /-- R396: with what NVMe drives 0 and 1 hold, the step configuration and the frames of the Skimmer's pool that
  the resident kernel sets up. -/
  | boot (drive0 drive1 : List Byte) (cfg : Word) (pool : Nat)
  /-- R222: one RV32IMC or Zicsr instruction; `short` marks a 16-bit encoding. -/
  | pailInstruction (i : RvInstr) (short : Bool)
  /-- R373. -/
  | preemptionWithdrawal (t : Nat)
  /-- R350. -/
  | deviceTimeLock (lock : Option Nat)
  /-- R56, R58: a word whose opcode no mnemonic names. -/
  | unassignedOpcode (w : IWord)
  /-- R392: a request of a KIND the device does not know. -/
  | unknownKindRequest (kind : BitVec 16) (seq : Word) (ctx : Nat)
  deriving DecidableEq, Repr

end Sys2Proof
end

