-- ==== Sys2Proof/WellFormed.lean ====
section
/-!
DEFINITION. Which instructions are well formed: control fields (R32), type codes (R42), reserved
field values and the limits that the entries give (R54 checks 4 and 5). Operand kinds are judged at
issue (R54 check 6), so an ill-kinded operand is well formed here.
-/

namespace Sys2Proof

/-- 64-bit types take register pairs (R9, R119). -/
def Ty.wide : Ty → Bool
  | .i64 | .n64 | .b64 => true
  | _ => false

/-- Control fields: bit 72 zero, SIG at most 12, GUARD not 0b1111 (R32, R54 check 4). -/
def ctlOk (k : Ctl) : Bool :=
  !k.rsv && decide (k.sig.toNat ≤ 12) && k.guard != 15#4

/-- HOLD and NWB are zero where an instruction has no result to hold or to write (R32, R52, R54
check 4). -/
def noResult (k : Ctl) : Bool := k.hold == 0#2 && !k.nwb

/-- A row whose DST is a predicate has no use for HOLD: a predicate is no value of a class that a latch could take (R32,
R52; DEDUCED, log entry 80). -/
def noHold (k : Ctl) : Bool := k.hold == 0#2

/-- A .b type admits only eq and ne in `cmp` (R133). -/
def cmpOk (cc : Cc) (ty : Ty) : Bool :=
  match cc with
  | .eq | .ne => true
  | .lt | .ge => ty != .b32 && ty != .b64

/-- imm36[35:32] is zero for a 32-bit type (R35). -/
def immOk (ty : Ty) (imm : BitVec 36) : Bool :=
  ty.wide || imm.extractLsb' 32 4 == 0#4

/-- The types of a reduction (R156). -/
def redTys : RedOp → List Ty
  | .add | .min | .max => [.i32, .n32]
  | .and | .or | .xor => [.b32]

/-- The pairs of operation and type of `atoms` and `gatom` (R232). -/
def atomOk (op : AtomOp) (ty : Ty) : Bool :=
  match op with
  | .add | .min | .max => [Ty.i32, .n32, .i64, .n64].contains ty
  | .and | .or | .xor | .exch => ty == .b32 || ty == .b64
  | .cas => ty == .n32 || ty == .n64
  | .fadd | .fmin | .fmax => ty == .f32

/-- The B type code of `mma`: zero except for .kq4, where 0 to 2 name .e4m3, .e5m2 and .i8 (R274). -/
def mmaTypeOk (aty : Ty) (bty : BitVec 2) : Bool :=
  if aty == .kq4 then bty != 3#2 else bty == 0#2

/-- An accumulator name in an operand field. -/
def Opnd.isAcc : Opnd → Bool
  | .acc _ => true
  | _ => false

/-- SRCC of `mma` is unused without a shape and without planes; OFF is zero when A is fed back (R273, R274). -/
def mmaFieldsOk (aty : Ty) (a c : Opnd) (role : BitVec 2) (off : BitVec 12) : Bool :=
  (role != 0#2 || aty == .e3m2 || aty == .e2m3 || c == .v 0) && (!a.isAcc || off == 0#12)

/-- SRCC of `mmasp` is unused without a shape (R273, R277). -/
def mmaspFieldsOk (a c : Opnd) (role : BitVec 2) (off : BitVec 12) : Bool :=
  (role != 0#2 || c == .v 0) && (!a.isAcc || off == 0#12)

/-- rm and sat of `qenc` (R295). -/
def qencFieldsOk (ty : Ty) (rm : Rm) (sat : Bool) : Bool :=
  match ty with
  | .i8 => !sat
  | .kq4 => rm == .rne && !sat
  | _ => true

/-- The system register numbers (R367). -/
def sysNumOk (n : BitVec 12) : Bool :=
  [0x000, 0x001, 0x002, 0x003, 0x004, 0x005, 0x006, 0x010, 0x011, 0x012, 0x020, 0x021, 0x022,
    0x023].contains n.toNat

/-- The opcode numbers that R57 names. -/
def namedOpcodes : List Nat :=
  [0x001, 0x002, 0x003, 0x004, 0x005, 0x006, 0x007, 0x008, 0x009, 0x00A, 0x00B, 0x00C, 0x00D, 0x00E, 0x00F, 0x010] ++
  [0x011, 0x012, 0x013, 0x014, 0x015, 0x016, 0x017, 0x018, 0x019, 0x01A, 0x01B, 0x021, 0x022, 0x023, 0x024, 0x026] ++
  [0x027, 0x02A, 0x02B, 0x02C, 0x02D, 0x02E, 0x02F, 0x030, 0x031, 0x033, 0x03B, 0x040, 0x041, 0x050, 0x051, 0x052] ++
  [0x053, 0x054, 0x055, 0x080, 0x081, 0x082, 0x083, 0x084, 0x085, 0x086, 0x090, 0x091, 0x092, 0x093, 0x094, 0x0A0] ++
  [0x0A1, 0x0A2, 0x0A3, 0x0A4, 0x0C0, 0x0C1, 0x0C2, 0x0C3, 0x0C4, 0x0C5, 0x0C6, 0x0C7, 0x0C8, 0x0C9, 0x0CA, 0x0CB] ++
  [0x0CC, 0x0CD, 0x0E0, 0x0E1, 0x0E2, 0x0E3, 0x0E4, 0x0F0, 0x0F1, 0x0F2, 0x100, 0x101, 0x140, 0x141, 0x142, 0x143] ++
  [0x144, 0x150, 0x151, 0x152, 0x153, 0x160, 0x161, 0x162, 0x163, 0x170, 0x171, 0x172, 0x1C0, 0x1C1, 0x1C2, 0x1C8] ++
  [0x1C9, 0x1CA, 0x1D0, 0x1D1, 0x1D2, 0x1D3, 0x1E0, 0x1E1, 0x1E2, 0x1F0, 0x200, 0x201, 0x208, 0x209, 0x210, 0x211] ++
  [0x212, 0x213, 0x214, 0x215, 0x216, 0x220, 0x221, 0x222, 0x223, 0x224, 0x230, 0x231, 0x232, 0x238, 0x239, 0x240] ++
  [0x241, 0x242, 0x280, 0x281, 0x282, 0x288, 0x289, 0x290, 0x291, 0x298, 0x299, 0x3C0, 0x3C8, 0x3C9]

/-- R57 names this opcode. -/
def opcodeNamed (op : BitVec 10) : Bool := namedOpcodes.contains op.toNat

/-- A RISC-V instruction that has a 32-bit encoding. -/
def rvOk : RvInstr → Bool
  | .jal _ off => off.extractLsb' 0 1 == 0#1 && (off.extractLsb' 0 21).signExtend 32 == off
  | .branch _ _ _ off => off.extractLsb' 0 1 == 0#1 && (off.extractLsb' 0 13).signExtend 32 == off
  | .store wd _ _ _ => wd == .b || wd == .h || wd == .w
  | .opImm op _ _ imm =>
    match op with
    | .sll | .srl | .sra => decide (imm.toNat < 32)
    | .add | .slt | .sltu | .xor | .or | .and => (imm.extractLsb' 0 12).signExtend 32 == imm
    | _ => false
  | _ => true

/-- A register that the three-bit fields of a compressed form name. -/
def rvcNamed (r : BitVec 5) : Bool := r.extractLsb' 3 2 == 1#2

/-- Does v fit n signed bits? -/
def fitsSigned (n : Nat) (v : BitVec 32) : Bool := (v.setWidth n).signExtend 32 == v

/-- A RISC-V instruction that has a compressed word (R222). -/
def rvShort : RvInstr → Bool
  | .opImm .add rd rs1 imm =>
    ((rs1 == rd || rs1 == 0#5) && fitsSigned 6 imm) ||
      (rd == 2#5 && rs1 == 2#5 && fitsSigned 10 imm && imm.extractLsb' 0 4 == 0#4) ||
      (rvcNamed rd && rs1 == 2#5 && imm.extractLsb' 10 22 == 0#22 && imm.extractLsb' 0 2 == 0#2 && imm != 0#32)
  | .opImm .sll rd rs1 _ => rs1 == rd
  | .opImm .srl rd rs1 _ | .opImm .sra rd rs1 _ => rs1 == rd && rvcNamed rd
  | .opImm .and rd rs1 imm => rs1 == rd && rvcNamed rd && fitsSigned 6 imm
  | .op .add rd rs1 rs2 => (rs1 == rd || rs1 == 0#5) && rs2 != 0#5
  | .op .sub rd rs1 rs2 | .op .xor rd rs1 rs2 | .op .or rd rs1 rs2 | .op .and rd rs1 rs2 =>
    rs1 == rd && rvcNamed rd && rvcNamed rs2
  | .lui rd imm => rd != 2#5 && imm != 0#20 && (imm.setWidth 6).signExtend 20 == imm
  | .jal rd off => (rd == 0#5 || rd == 1#5) && fitsSigned 12 off
  | .jalr rd rs1 imm => (rd == 0#5 || rd == 1#5) && rs1 != 0#5 && imm == 0#12
  | .branch .eq rs1 rs2 off | .branch .ne rs1 rs2 off => rs2 == 0#5 && rvcNamed rs1 && fitsSigned 9 off
  | .load .w rd rs1 off =>
    off.extractLsb' 0 2 == 0#2 && ((rs1 == 2#5 && rd != 0#5 && off.extractLsb' 8 4 == 0#4) ||
      (rvcNamed rs1 && rvcNamed rd && off.extractLsb' 7 5 == 0#5))
  | .store .w rs1 rs2 off =>
    off.extractLsb' 0 2 == 0#2 && ((rs1 == 2#5 && off.extractLsb' 8 4 == 0#4) ||
      (rvcNamed rs1 && rvcNamed rs2 && off.extractLsb' 7 5 == 0#5))
  | _ => false

/-- The instruction is well formed: it decodes from the words its encoding gives. -/
def Instr.wf : Instr → Bool
  | .add k ty _ _ _ => ctlOk k && ([.i32, .n32, .i64, .n64] : List Ty).contains ty
  | .addI k ty _ _ imm => ctlOk k && ([.i32, .n32, .i64, .n64] : List Ty).contains ty && immOk ty imm
  | .sub k ty _ _ _ => ctlOk k && ([.i32, .n32, .i64, .n64] : List Ty).contains ty
  | .subI k ty _ _ imm => ctlOk k && ([.i32, .n32, .i64, .n64] : List Ty).contains ty && immOk ty imm
  | .mul k ty _ _ _ => ctlOk k && ([.i32, .n32, .i64, .n64] : List Ty).contains ty
  | .mulI k ty _ _ imm => ctlOk k && ([.i32, .n32, .i64, .n64] : List Ty).contains ty && immOk ty imm
  | .mulhi k ty _ _ _ => ctlOk k && ([.i32, .n32, .i64, .n64] : List Ty).contains ty
  | .mulhiI k ty _ _ imm => ctlOk k && ([.i32, .n32, .i64, .n64] : List Ty).contains ty && immOk ty imm
  | .div k ty _ _ _ => ctlOk k && ([.i32, .n32, .i64, .n64] : List Ty).contains ty
  | .divI k ty _ _ imm => ctlOk k && ([.i32, .n32, .i64, .n64] : List Ty).contains ty && immOk ty imm
  | .rem k ty _ _ _ => ctlOk k && ([.i32, .n32, .i64, .n64] : List Ty).contains ty
  | .remI k ty _ _ imm => ctlOk k && ([.i32, .n32, .i64, .n64] : List Ty).contains ty && immOk ty imm
  | .min k ty _ _ _ => ctlOk k && ([.i32, .n32, .i64, .n64] : List Ty).contains ty
  | .minI k ty _ _ imm => ctlOk k && ([.i32, .n32, .i64, .n64] : List Ty).contains ty && immOk ty imm
  | .max k ty _ _ _ => ctlOk k && ([.i32, .n32, .i64, .n64] : List Ty).contains ty
  | .maxI k ty _ _ imm => ctlOk k && ([.i32, .n32, .i64, .n64] : List Ty).contains ty && immOk ty imm
  | .shl k ty _ _ _ => ctlOk k && ([.b32, .b64] : List Ty).contains ty
  | .shlI k ty _ _ imm => ctlOk k && ([.b32, .b64] : List Ty).contains ty && immOk ty imm
  | .shr k ty _ _ _ => ctlOk k && ([.b32, .b64] : List Ty).contains ty
  | .shrI k ty _ _ imm => ctlOk k && ([.b32, .b64] : List Ty).contains ty && immOk ty imm
  | .sar k ty _ _ _ => ctlOk k && ([.i32, .i64] : List Ty).contains ty
  | .sarI k ty _ _ imm => ctlOk k && ([.i32, .i64] : List Ty).contains ty && immOk ty imm
  | .andb k ty _ _ _ => ctlOk k && ([.b32, .b64] : List Ty).contains ty
  | .andbI k ty _ _ imm => ctlOk k && ([.b32, .b64] : List Ty).contains ty && immOk ty imm
  | .orb k ty _ _ _ => ctlOk k && ([.b32, .b64] : List Ty).contains ty
  | .orbI k ty _ _ imm => ctlOk k && ([.b32, .b64] : List Ty).contains ty && immOk ty imm
  | .xorb k ty _ _ _ => ctlOk k && ([.b32, .b64] : List Ty).contains ty
  | .xorbI k ty _ _ imm => ctlOk k && ([.b32, .b64] : List Ty).contains ty && immOk ty imm
  | .andn k ty _ _ _ => ctlOk k && ([.b32, .b64] : List Ty).contains ty
  | .andnI k ty _ _ imm => ctlOk k && ([.b32, .b64] : List Ty).contains ty && immOk ty imm
  | .mad k ty _ _ _ _ => ctlOk k && ([.i32, .n32, .i64, .n64] : List Ty).contains ty
  | .neg k ty _ _ => ctlOk k && ([.i32, .i64] : List Ty).contains ty
  | .abs k ty _ _ => ctlOk k && ([.i32, .i64] : List Ty).contains ty
  | .notb k ty _ _ => ctlOk k && ([.b32, .b64] : List Ty).contains ty
  | .clz k ty _ _ => ctlOk k && ([.b32, .b64] : List Ty).contains ty
  | .popc k ty _ _ => ctlOk k && ([.b32, .b64] : List Ty).contains ty
  | .brev k ty _ _ => ctlOk k && ([.b32, .b64] : List Ty).contains ty
  | .mov k ty _ _ => ctlOk k && ([.b32, .b64] : List Ty).contains ty
  | .bfx k ty _ _ _ len => ctlOk k && ([.n32, .i32, .n64, .i64] : List Ty).contains ty && decide (len.toNat ≤ 64)
  | .bfi k ty _ _ _ _ len => ctlOk k && ([.b32, .b64] : List Ty).contains ty && decide (len.toNat ≤ 64)
  | .sel k ty _ _ _ _ => ctlOk k && ([.b32, .b64] : List Ty).contains ty
  | .cmp k cc ty _ _ _ => ctlOk k && noHold k && ([.i32, .n32, .i64, .n64, .b32, .b64] : List Ty).contains ty && cmpOk cc ty
  | .cmpI k cc ty _ _ imm => ctlOk k && noHold k && ([.i32, .n32, .i64, .n64, .b32, .b64] : List Ty).contains ty && cmpOk cc ty && immOk ty imm
  | .movi k ty _ imm => ctlOk k && ([.b32, .b64] : List Ty).contains ty && immOk ty imm
  | .addpc k _ _ => ctlOk k
  | .idx k _ _ => ctlOk k
  | .rngget k _ _ => ctlOk k
  | .formget k _ _ item => ctlOk k && item != 3#2
  | .expand k => ctlOk k && noResult k && k.guard == 7#4
  | .rerange k => ctlOk k && noResult k && k.guard == 7#4
  | .dead k _ _ => ctlOk k && noResult k && k.guard == 7#4
  | .bra k _ => ctlOk k && noResult k
  | .brx k _ _ _ => ctlOk k && noResult k
  | .call k _ _ => ctlOk k && k.hold == 0#2
  | .callx k _ _ => ctlOk k && k.hold == 0#2
  | .ret k _ => ctlOk k && noResult k
  | .exit k => ctlOk k && noResult k
  | .nop k => ctlOk k && noResult k
  | .pand k _ _ _ _ _ => ctlOk k && noHold k
  | .por k _ _ _ _ _ => ctlOk k && noHold k
  | .pxor k _ _ _ _ _ => ctlOk k && noHold k
  | .pnot k _ _ => ctlOk k && noHold k
  | .pmov k _ _ => ctlOk k && noHold k
  | .shfl k ty _ _ _ _ => ctlOk k && ([.b32, .b64] : List Ty).contains ty
  | .vote k _ _ _ => ctlOk k
  | .elect k _ => ctlOk k
  | .gred k op ty _ _ => ctlOk k && (redTys op : List Ty).contains ty
  | .gscan k op ty _ _ _ => ctlOk k && (redTys op : List Ty).contains ty
  | .fadd k ty _ _ _ _ _ => ctlOk k && ([.f32, .f16, .bf16] : List Ty).contains ty
  | .fsub k ty _ _ _ _ _ => ctlOk k && ([.f32, .f16, .bf16] : List Ty).contains ty
  | .fmul k ty _ _ _ _ _ => ctlOk k && ([.f32, .f16, .bf16] : List Ty).contains ty
  | .ffma k ty _ _ _ _ _ _ => ctlOk k && ([.f32, .f16, .bf16] : List Ty).contains ty
  | .fmin k ty _ _ _ => ctlOk k && ([.f32, .f16, .bf16] : List Ty).contains ty
  | .fmax k ty _ _ _ => ctlOk k && ([.f32, .f16, .bf16] : List Ty).contains ty
  | .fcmp k _ ty _ _ _ => ctlOk k && noHold k && ([.f32, .f16, .bf16, .e4m3, .e5m2] : List Ty).contains ty
  | .frcp k _ _ => ctlOk k
  | .frsq k _ _ => ctlOk k
  | .fsqrt k _ _ => ctlOk k
  | .fexp2 k _ _ => ctlOk k
  | .flog2 k _ _ => ctlOk k
  | .fsin k _ _ => ctlOk k
  | .fcos k _ _ => ctlOk k
  | .fcvt k dt sty _ _ _ _ => ctlOk k && ([.f32, .f16, .bf16, .e4m3, .e5m2, .e3m2, .e2m3] : List Ty).contains dt && ([.f32, .f16, .bf16, .e4m3, .e5m2, .e3m2, .e2m3, .kq4] : List Ty).contains sty
  | .f2i k it ft _ _ _ => ctlOk k && ([.i32, .n32, .i64, .n64, .i8] : List Ty).contains it && ([.f32, .f16, .bf16, .e4m3, .e5m2] : List Ty).contains ft
  | .i2f k ft it _ _ _ _ => ctlOk k && ([.f32, .f16, .bf16] : List Ty).contains ft && ([.i32, .n32, .i64, .n64, .i8] : List Ty).contains it
  | .frnd k ty _ _ _ => ctlOk k && ([.f32, .f16, .bf16] : List Ty).contains ty
  | .fclass k ty _ _ => ctlOk k && ([.f32, .f16, .bf16, .e4m3, .e5m2, .e3m2, .e2m3] : List Ty).contains ty
  | .hadd2 k ty _ _ _ _ _ => ctlOk k && ([.f16, .bf16] : List Ty).contains ty
  | .hmul2 k ty _ _ _ _ _ => ctlOk k && ([.f16, .bf16] : List Ty).contains ty
  | .hfma2 k ty _ _ _ _ _ _ => ctlOk k && ([.f16, .bf16] : List Ty).contains ty
  | .plsplit k ty _ _ => ctlOk k && ([.e3m2, .e2m3] : List Ty).contains ty
  | .pljoin k ty _ _ _ => ctlOk k && ([.e3m2, .e2m3] : List Ty).contains ty
  | .ld k ty _ _ _ => ctlOk k && ([.i8, .e4m3, .e5m2, .f16, .bf16, .b32, .i32, .n32, .f32, .b64, .i64, .n64] : List Ty).contains ty
  | .st k ty _ _ _ => ctlOk k && noResult k && ([.i8, .e4m3, .e5m2, .f16, .bf16, .b32, .i32, .n32, .f32, .b64, .i64, .n64] : List Ty).contains ty
  | .ldp k _ _ _ => ctlOk k
  | .stp k _ _ _ => ctlOk k && noResult k
  | .atoms k op ty _ _ _ c scope _ => ctlOk k && atomOk op ty && decide (scope.toNat ≤ 5) && (op == .cas || c == .v 0)
  | .gather k ty _ _ _ _ _ => ctlOk k && ([.i8, .e4m3, .e5m2, .f16, .bf16, .b32, .i32, .n32, .f32, .b64, .i64, .n64] : List Ty).contains ty
  | .scatter k ty _ _ _ _ _ => ctlOk k && noResult k && ([.i8, .e4m3, .e5m2, .f16, .bf16, .b32, .i32, .n32, .f32, .b64, .i64, .n64] : List Ty).contains ty
  | .gatom k op ty _ _ _ c scope _ => ctlOk k && atomOk op ty && decide (scope.toNat ≤ 5) && (op == .cas || c == .v 0)
  | .amaxrd k ty _ _ scope _ => ctlOk k && ([.f32, .b32, .b64] : List Ty).contains ty && decide (scope.toNat ≤ 5)
  | .copy k _ _ _ _ _ _ => ctlOk k && noResult k
  | .copyw k _ _ _ _ _ _ => ctlOk k && noResult k
  | .rload k _ _ _ _ _ _ => ctlOk k && noResult k
  | .remld k ty _ _ _ _ => ctlOk k && ([.b32, .b64] : List Ty).contains ty
  | .qpeek k _ _ _ => ctlOk k
  | .qstat k _ _ => ctlOk k
  | .qbind k _ _ => ctlOk k && noResult k
  | .bar k _ scope => ctlOk k && noResult k && decide (1 ≤ scope.toNat ∧ scope.toNat ≤ 5)
  | .bararr k _ _ scope => ctlOk k && decide (1 ≤ scope.toNat ∧ scope.toNat ≤ 5)
  | .barwait k _ _ => ctlOk k && noResult k
  | .fence k kind scope => ctlOk k && noResult k && kind != 3#2 && decide (scope.toNat ≤ 5)
  | .aliasfence k scope => ctlOk k && noResult k && decide (scope.toNat ≤ 5)
  | .qfence k scope => ctlOk k && noResult k && decide (scope.toNat ≤ 5)
  | .twait k _ => ctlOk k && noResult k
  | .tfirst k _ _ => ctlOk k
  | .bcwait k _ _ => ctlOk k && noResult k
  | .yield k => ctlOk k && noResult k
  | .task k _ _ => ctlOk k
  | .taskwait k _ a all => ctlOk k && (!all || a == .zr)
  | .tinfo k _ item => ctlOk k && decide (item.toNat < 15)
  | .stepwait k _ => ctlOk k
  | .mma k aty bty _ a _ c role _ _ off => ctlOk k && noResult k && ([.e4m3, .e5m2, .i8, .f16, .bf16, .e3m2, .e2m3, .kq4] : List Ty).contains aty && mmaFieldsOk aty a c role off && mmaTypeOk aty bty
  | .mmasp k ty _ a _ c role _ off => ctlOk k && noResult k && ([.e4m3, .e5m2, .i8] : List Ty).contains ty && mmaspFieldsOk a c role off
  | .scacc k _ _ _ _ => ctlOk k && noResult k
  | .bscale k _ _ _ => ctlOk k && noResult k
  | .accz k _ => ctlOk k && noResult k
  | .accld k ty _ _ _ _ => ctlOk k && noResult k && ([.f32, .f16, .bf16] : List Ty).contains ty
  | .accst k ty _ _ _ _ => ctlOk k && noResult k && ([.f32, .f16, .bf16] : List Ty).contains ty
  | .accmov k _ _ _ => ctlOk k && noResult k
  | .accpeek k _ _ _ => ctlOk k
  | .accpatch k op _ _ _ => ctlOk k && noResult k && op != 3#2
  | .accnorm k mode size _ _ _ => ctlOk k && noResult k && mode != 3#2 && size != 3#2
  | .mcoef k _ _ _ => ctlOk k
  | .mpoly k size _ _ _ _ => ctlOk k && noResult k && size != 3#2
  | .miter k size _ _ _ _ _ => ctlOk k && noHold k && size != 3#2
  | .mloopget k _ => ctlOk k
  | .mloopset k _ => ctlOk k && noResult k
  | .shpset k _ _ => ctlOk k && noResult k
  | .shpget k _ _ => ctlOk k && noResult k
  | .shpfence k => ctlOk k && noResult k
  | .rred k op win _ _ _ c => ctlOk k && noResult k && decide (op.toNat ≤ 4) && (win || c == .v 0)
  | .rnorm k mode _ _ _ _ => ctlOk k && noResult k && decide (mode.toNat ≤ 2)
  | .qenc k ty rm sat _ _ _ => ctlOk k && ([.e4m3, .e5m2, .e3m2, .e2m3, .i8, .kq4] : List Ty).contains ty && qencFieldsOk ty rm sat
  | .qdec k ty _ _ _ => ctlOk k && ([.e4m3, .e5m2, .e3m2, .e2m3, .i8, .kq4] : List Ty).contains ty
  | .kqsc k _ _ _ => ctlOk k
  | .trap k _ _ => ctlOk k && noResult k
  | .bkpt k _ => ctlOk k && noResult k
  | .tret k _ _ => ctlOk k
  | .wpset k _ _ => ctlOk k && noResult k
  | .wpclr k _ => ctlOk k && noResult k
  | .sysrd k _ num => ctlOk k && sysNumOk num
  | .syswr k _ num => ctlOk k && noResult k && sysNumOk num
  | .traprd k _ _ => ctlOk k
  | .trapwr k _ _ => ctlOk k && noResult k
  | .pref _ _ => true
  | .phase _ _ => true
  | .phend _ _ => true
  | .pqPush q _ => decide (q.toNat < 16)
  | .pqPop q _ => decide (q.toNat < 16)
  | .pqRowin q _ => decide (q.toNat < 16)
  | .pqRowout q _ => decide (q.toNat < 16)
  | .pqStat q _ => decide (q.toNat < 16)
  | .pailStop _ => true
  | .createContext _ p _ m _ _ => decide (p ≤ 7) && decide (m.length ≤ 4)
  | .loadObject _ _ _ _ => true
  | .startGroup _ _ _ => true
  | .killContext _ _ => true
  | .attest _ _ _ => true
  | .pushFirmware _ _ _ => true
  | .checkpoint _ _ _ _ => true
  | .debugAct _ _ _ _ => true
  | .registerWrite _ _ => true
  | .resultWriteback _ => true
  | .globalBytesLand _ _ _ => true
  | .storePerformed _ => true
  | .engineCommandComplete _ _ => true
  | .matrixPassComplete _ _ => true
  | .iterationBoundary _ => true
  | .recordWake _ _ => true
  | .issueHoldRelease _ => true
  | .stragglerForcedRun _ => true
  | .churnAccept _ => true
  | .placeTeam _ c => decide (c < 2048)
  | .teamRetirement _ => true
  | .versionCommit _ _ => true
  | .preemptionRequest _ => true
  | .eviction _ => true
  | .resumption _ c => decide (c < 2048)
  | .migration _ c => decide (c < 2048)
  | .forwardedMessage _ _ => true
  | .pageWalk _ _ _ _ => true
  | .faultResolution _ _ => true
  | .faultBudgetExpiry _ => true
  | .abortCutTimeout _ => true
  | .killCutTimeout _ => true
  | .waitCycleTrap _ => true
  | .handlerStart _ => true
  | .watchpointApply _ => true
  | .demandFetch _ => true
  | .speculativeFetch _ _ => true
  | .traceCacheFill _ _ => true
  | .tlbInvalidation _ _ entry => decide (entry.level < 5)
  | .phaseStart _ => true
  | .phaseExpiry _ => true
  | .stepRelease _ => true
  | .refreshWindow c => decide (c < 128)
  | .coreAvoidance c _ => decide (c < 2048)
  | .avoidanceEnd c => decide (c < 2048)
  | .droopEvent c => decide (c < 2048)
  | .islandFrequencyChange i m => decide (i < 128) && decide (400 ≤ m ∧ m ≤ 1000 ∧ m % 25 = 0)
  | .clockHop i => decide (i < 128)
  | .hostMemoryAccess _ _ _ => true
  | .peerAccess _ _ _ _ _ _ => true
  | .peerLost i => decide (i < 256)
  | .heartbeatMiss i _ => decide (i < 256)
  | .checkpointTimeout => true
  | .boot _ _ _ _ => true
  | .pailInstruction i short => rvOk i && (!short || rvShort i)
  | .preemptionWithdrawal _ => true
  | .deviceTimeLock _ => true
  | .unassignedOpcode w => !(opcodeNamed (w.extractLsb' 58 10))
  | .unknownKindRequest _ _ _ => true

end Sys2Proof
end

