-- ==== Sys2Proof/Decode.lean ====
section
/-!
DEFINITION. Decoding of compute words (R32-R58), Pail words (R22, R222, R223) and their encoder,
written from the same tables. Decoding is total: a word is an instruction, or is refused by the name
of the check of R54 that it fails.
-/

namespace Sys2Proof

/-- Why a compute word is refused: check 4 or 5 of R54. -/
inductive DecErr where
  | reserved
  | type
  deriving DecidableEq, Repr

/-! Codes of operands, types and modifiers -/

/-- The operand number (R38). -/
def Opnd.code : Opnd → BitVec 8
  | .v n => BitVec.ofNat 8 n.val
  | .s n => BitVec.ofNat 8 (0x40 + n.val)
  | .bc n => BitVec.ofNat 8 (0x78 + n.val)
  | .dq n => BitVec.ofNat 8 (0x80 + n.val)
  | .p n => BitVec.ofNat 8 (0x90 + n.val)
  | .shp n => BitVec.ofNat 8 (0x98 + n.val)
  | .acc n => BitVec.ofNat 8 (0xA0 + n.val)
  | .c n => BitVec.ofNat 8 (0xB0 + n.val)
  | .reserved n => BitVec.ofNat 8 (0xB8 + n.val)
  | .hl n => BitVec.ofNat 8 (0xFC + n.val)
  | .zr => 0xFF#8

/-- The operand that a number names (R38). -/
def Opnd.ofCode (b : BitVec 8) : Opnd :=
  let n := b.toNat
  if h : n < 0x40 then .v ⟨n, h⟩
  else if h : n < 0x78 then .s ⟨n - 0x40, by omega⟩
  else if h : n < 0x80 then .bc ⟨n - 0x78, by omega⟩
  else if h : n < 0x90 then .dq ⟨n - 0x80, by omega⟩
  else if h : n < 0x98 then .p ⟨n - 0x90, by omega⟩
  else if h : n < 0xA0 then .shp ⟨n - 0x98, by omega⟩
  else if h : n < 0xB0 then .acc ⟨n - 0xA0, by omega⟩
  else if h : n < 0xB8 then .c ⟨n - 0xB0, by omega⟩
  else if h : n < 0xFC then .reserved ⟨n - 0xB8, by omega⟩
  else if h : n < 0xFF then .hl ⟨n - 0xFC, by omega⟩
  else .zr

/-- Type codes (R42). -/
def Ty.code : Ty → BitVec 4
  | .i32 => 0x0#4 | .n32 => 0x1#4 | .i64 => 0x2#4 | .n64 => 0x3#4
  | .b32 => 0x4#4 | .b64 => 0x5#4 | .i8 => 0x6#4 | .f32 => 0x7#4
  | .f16 => 0x8#4 | .bf16 => 0x9#4 | .e4m3 => 0xA#4 | .e5m2 => 0xB#4
  | .e3m2 => 0xC#4 | .e2m3 => 0xD#4 | .kq4 => 0xE#4

/-- The type that a code names (R42). -/
def Ty.ofCode (b : BitVec 4) : Option Ty :=
  match b.toNat with
  | 0x0 => some .i32 | 0x1 => some .n32 | 0x2 => some .i64 | 0x3 => some .n64
  | 0x4 => some .b32 | 0x5 => some .b64 | 0x6 => some .i8 | 0x7 => some .f32
  | 0x8 => some .f16 | 0x9 => some .bf16 | 0xA => some .e4m3 | 0xB => some .e5m2
  | 0xC => some .e3m2 | 0xD => some .e2m3 | 0xE => some .kq4
  | _ => none

/-- Rounding-mode codes (R167). -/
def Rm.code : Rm → BitVec 3
  | .rne => 0#3 | .rz => 1#3 | .ru => 2#3 | .rd => 3#3 | .sr => 4#3

/-- Rounding-mode codes (R167). -/
def Rm.ofCode (b : BitVec 3) : Option Rm :=
  match b.toNat with
  | 0 => some .rne | 1 => some .rz | 2 => some .ru | 3 => some .rd | 4 => some .sr
  | _ => none

/-- Condition codes of `cmp` (R133). -/
def Cc.code : Cc → BitVec 2
  | .eq => 0#2 | .ne => 1#2 | .lt => 2#2 | .ge => 3#2

/-- Condition codes of `cmp` (R133). -/
def Cc.ofCode (b : BitVec 2) : Cc :=
  match b.toNat with
  | 0 => .eq | 1 => .ne | 2 => .lt | _ => .ge

/-- Condition codes of `fcmp` (R192). -/
def Fcc.code : Fcc → BitVec 3
  | .eq => 0#3 | .lt => 1#3 | .le => 2#3 | .un => 3#3 | .ne => 4#3 | .ge => 5#3 | .gt => 6#3

/-- Condition codes of `fcmp` (R192). -/
def Fcc.ofCode (b : BitVec 3) : Option Fcc :=
  match b.toNat with
  | 0 => some .eq | 1 => some .lt | 2 => some .le | 3 => some .un
  | 4 => some .ne | 5 => some .ge | 6 => some .gt
  | _ => none

/-- Operation codes of `gred` and `gscan` (R156). -/
def RedOp.code : RedOp → BitVec 3
  | .add => 0#3 | .min => 1#3 | .max => 2#3 | .and => 3#3 | .or => 4#3 | .xor => 5#3

/-- Operation codes of `gred` and `gscan` (R156). -/
def RedOp.ofCode (b : BitVec 3) : Option RedOp :=
  match b.toNat with
  | 0 => some .add | 1 => some .min | 2 => some .max | 3 => some .and | 4 => some .or
  | 5 => some .xor
  | _ => none

/-- MOD of `vote` (R154). -/
def VoteMode.code : VoteMode → BitVec 6
  | .ballot32 => 0x04#6 | .ballot64 => 0x05#6 | .any => 0x10#6 | .all => 0x20#6

/-- MOD of `vote` (R154). -/
def VoteMode.ofCode (b : BitVec 6) : Except DecErr VoteMode :=
  match b.toNat with
  | 0x04 => .ok .ballot32 | 0x05 => .ok .ballot64 | 0x10 => .ok .any | 0x20 => .ok .all
  | n => if n < 0x10 then .error .type else .error .reserved

/-- CQ, QORD, the reserved bit and the offset of a memory access, IMM[16:0] (R36). -/
def Mem.code (m : Mem) : BitVec 17 := m.cq ++ BitVec.ofBool m.qord ++ 0#1 ++ m.off

/-- CQ, QORD and the offset of a memory access (R36). -/
def Mem.ofCode (b : BitVec 17) : Mem :=
  ⟨b.extractLsb' 0 12, b.extractLsb' 14 3, b.extractLsb' 13 1 == 1#1⟩

/-- MOD[5:4] of an atomic operation (R232). -/
def AtomOp.code : AtomOp → BitVec 2
  | .add => 0#2 | .min => 1#2 | .max => 2#2 | .and => 0#2 | .or => 1#2 | .xor => 2#2
  | .exch => 3#2 | .cas => 3#2 | .fadd => 0#2 | .fmin => 1#2 | .fmax => 2#2

/-- MOD of `atoms` and `gatom` (R232). -/
def atomCode (op : AtomOp) (ty : Ty) : BitVec 6 := op.code ++ ty.code

/-- The operation and type of MOD (R232): 0b11 with an .i or .f32 type is reserved, any other
unpaired type fails check 5. -/
def atomOfCode (b : BitVec 6) : Except DecErr (AtomOp × Ty) :=
  let o := b.extractLsb' 4 2
  match Ty.ofCode (b.extractLsb' 0 4) with
  | none => .error .type
  | some ty =>
    match ty with
    | .i32 | .i64 =>
      match o.toNat with
      | 0 => .ok (.add, ty) | 1 => .ok (.min, ty) | 2 => .ok (.max, ty) | _ => .error .reserved
    | .n32 | .n64 =>
      match o.toNat with
      | 0 => .ok (.add, ty) | 1 => .ok (.min, ty) | 2 => .ok (.max, ty) | _ => .ok (.cas, ty)
    | .b32 | .b64 =>
      match o.toNat with
      | 0 => .ok (.and, ty) | 1 => .ok (.or, ty) | 2 => .ok (.xor, ty) | _ => .ok (.exch, ty)
    | .f32 =>
      match o.toNat with
      | 0 => .ok (.fadd, ty) | 1 => .ok (.fmin, ty) | 2 => .ok (.fmax, ty) | _ => .error .reserved
    | _ => .error .type

/-- imm36[35:32] is zero for a 32-bit type (R35), judged on the type code before the type itself. -/
def immRaw (t : BitVec 4) (imm : BitVec 36) : Bool :=
  match Ty.ofCode t with
  | some ty => immOk ty imm
  | none => true

/-- Fields of `mma` that its type code leaves unused (R273, R274). -/
def mmaRaw (t : BitVec 4) (a c : Opnd) (role : BitVec 2) (off : BitVec 12) : Bool :=
  match Ty.ofCode t with
  | some ty => mmaFieldsOk ty a c role off
  | none => true

/-- Fields of `qenc` that its type code leaves unused (R295). -/
def qencRaw (t : BitVec 4) (rm : Rm) (sat : Bool) : Bool :=
  match Ty.ofCode t with
  | some ty => qencFieldsOk ty rm sat
  | none => true

/-! The word and its fields -/

/-- The fields of a compute word (R32). -/
structure Fields where
  k : Ctl
  op : BitVec 10
  dst : BitVec 8
  a : BitVec 8
  b : BitVec 8
  c : BitVec 8
  md : BitVec 6
  imm : BitVec 20
  deriving DecidableEq, Repr

/-- Bits [95:68] of a word (R32). -/
def Ctl.code (k : Ctl) : BitVec 28 :=
  k.dist ++ k.wait ++ k.sig ++ k.hold ++ BitVec.ofBool k.nwb ++ BitVec.ofBool k.rsv ++ k.guard

/-- Bits [95:68] of a word (R32). -/
def Ctl.ofCode (b : BitVec 28) : Ctl :=
  ⟨b.extractLsb' 24 4, b.extractLsb' 12 12, b.extractLsb' 8 4, b.extractLsb' 6 2,
    b.extractLsb' 5 1 == 1#1, b.extractLsb' 4 1 == 1#1, b.extractLsb' 0 4⟩

/-- The fields of a word (R32). -/
def Fields.unpack (w : IWord) : Fields :=
  ⟨Ctl.ofCode (w.extractLsb' 68 28), w.extractLsb' 58 10, w.extractLsb' 50 8, w.extractLsb' 42 8,
    w.extractLsb' 34 8, w.extractLsb' 26 8, w.extractLsb' 20 6, w.extractLsb' 0 20⟩

/-- The word of some fields (R32). -/
def Fields.pack (f : Fields) : IWord :=
  f.k.code ++ f.op ++ f.dst ++ f.a ++ f.b ++ f.c ++ f.md ++ f.imm

/-! One decoder per row of the opcode map (R57) -/

/-- A hint row: its fields are never checked (R58). -/
def decHint (mk : Ctl → HintFields → Instr) (f : Fields) : Except DecErr Instr :=
  .ok (mk f.k ⟨f.dst, f.a, f.b, f.c, f.md, f.imm⟩)

/-- Row 0x001. -/
def decAdd (f : Fields) : Except DecErr Instr :=
  let d := Opnd.ofCode f.dst
  let a := Opnd.ofCode f.a
  let b := Opnd.ofCode f.b
  let k := f.k
  if f.c == 0#8 && f.md.extractLsb' 4 2 == 0#2 && f.imm.extractLsb' 0 20 == 0#20 then
    Ty.ofCode (f.md.extractLsb' 0 4) |>.elim (.error .type) fun ty => if ([.i32, .n32, .i64, .n64] : List Ty).contains ty then .ok (.add k ty d a b) else .error .type
  else .error .reserved

/-- Row 0x021. -/
def decAddI (f : Fields) : Except DecErr Instr :=
  let d := Opnd.ofCode f.dst
  let a := Opnd.ofCode f.a
  let imm := f.b ++ f.c ++ f.imm
  let k := f.k
  if f.md.extractLsb' 4 2 == 0#2 && immRaw (f.md.extractLsb' 0 4) imm then
    Ty.ofCode (f.md.extractLsb' 0 4) |>.elim (.error .type) fun ty => if ([.i32, .n32, .i64, .n64] : List Ty).contains ty then .ok (.addI k ty d a imm) else .error .type
  else .error .reserved

/-- Row 0x002. -/
def decSub (f : Fields) : Except DecErr Instr :=
  let d := Opnd.ofCode f.dst
  let a := Opnd.ofCode f.a
  let b := Opnd.ofCode f.b
  let k := f.k
  if f.c == 0#8 && f.md.extractLsb' 4 2 == 0#2 && f.imm.extractLsb' 0 20 == 0#20 then
    Ty.ofCode (f.md.extractLsb' 0 4) |>.elim (.error .type) fun ty => if ([.i32, .n32, .i64, .n64] : List Ty).contains ty then .ok (.sub k ty d a b) else .error .type
  else .error .reserved

/-- Row 0x022. -/
def decSubI (f : Fields) : Except DecErr Instr :=
  let d := Opnd.ofCode f.dst
  let a := Opnd.ofCode f.a
  let imm := f.b ++ f.c ++ f.imm
  let k := f.k
  if f.md.extractLsb' 4 2 == 0#2 && immRaw (f.md.extractLsb' 0 4) imm then
    Ty.ofCode (f.md.extractLsb' 0 4) |>.elim (.error .type) fun ty => if ([.i32, .n32, .i64, .n64] : List Ty).contains ty then .ok (.subI k ty d a imm) else .error .type
  else .error .reserved

/-- Row 0x003. -/
def decMul (f : Fields) : Except DecErr Instr :=
  let d := Opnd.ofCode f.dst
  let a := Opnd.ofCode f.a
  let b := Opnd.ofCode f.b
  let k := f.k
  if f.c == 0#8 && f.md.extractLsb' 4 2 == 0#2 && f.imm.extractLsb' 0 20 == 0#20 then
    Ty.ofCode (f.md.extractLsb' 0 4) |>.elim (.error .type) fun ty => if ([.i32, .n32, .i64, .n64] : List Ty).contains ty then .ok (.mul k ty d a b) else .error .type
  else .error .reserved

/-- Row 0x023. -/
def decMulI (f : Fields) : Except DecErr Instr :=
  let d := Opnd.ofCode f.dst
  let a := Opnd.ofCode f.a
  let imm := f.b ++ f.c ++ f.imm
  let k := f.k
  if f.md.extractLsb' 4 2 == 0#2 && immRaw (f.md.extractLsb' 0 4) imm then
    Ty.ofCode (f.md.extractLsb' 0 4) |>.elim (.error .type) fun ty => if ([.i32, .n32, .i64, .n64] : List Ty).contains ty then .ok (.mulI k ty d a imm) else .error .type
  else .error .reserved

/-- Row 0x004. -/
def decMulhi (f : Fields) : Except DecErr Instr :=
  let d := Opnd.ofCode f.dst
  let a := Opnd.ofCode f.a
  let b := Opnd.ofCode f.b
  let k := f.k
  if f.c == 0#8 && f.md.extractLsb' 4 2 == 0#2 && f.imm.extractLsb' 0 20 == 0#20 then
    Ty.ofCode (f.md.extractLsb' 0 4) |>.elim (.error .type) fun ty => if ([.i32, .n32, .i64, .n64] : List Ty).contains ty then .ok (.mulhi k ty d a b) else .error .type
  else .error .reserved

/-- Row 0x024. -/
def decMulhiI (f : Fields) : Except DecErr Instr :=
  let d := Opnd.ofCode f.dst
  let a := Opnd.ofCode f.a
  let imm := f.b ++ f.c ++ f.imm
  let k := f.k
  if f.md.extractLsb' 4 2 == 0#2 && immRaw (f.md.extractLsb' 0 4) imm then
    Ty.ofCode (f.md.extractLsb' 0 4) |>.elim (.error .type) fun ty => if ([.i32, .n32, .i64, .n64] : List Ty).contains ty then .ok (.mulhiI k ty d a imm) else .error .type
  else .error .reserved

/-- Row 0x006. -/
def decDiv (f : Fields) : Except DecErr Instr :=
  let d := Opnd.ofCode f.dst
  let a := Opnd.ofCode f.a
  let b := Opnd.ofCode f.b
  let k := f.k
  if f.c == 0#8 && f.md.extractLsb' 4 2 == 0#2 && f.imm.extractLsb' 0 20 == 0#20 then
    Ty.ofCode (f.md.extractLsb' 0 4) |>.elim (.error .type) fun ty => if ([.i32, .n32, .i64, .n64] : List Ty).contains ty then .ok (.div k ty d a b) else .error .type
  else .error .reserved

/-- Row 0x026. -/
def decDivI (f : Fields) : Except DecErr Instr :=
  let d := Opnd.ofCode f.dst
  let a := Opnd.ofCode f.a
  let imm := f.b ++ f.c ++ f.imm
  let k := f.k
  if f.md.extractLsb' 4 2 == 0#2 && immRaw (f.md.extractLsb' 0 4) imm then
    Ty.ofCode (f.md.extractLsb' 0 4) |>.elim (.error .type) fun ty => if ([.i32, .n32, .i64, .n64] : List Ty).contains ty then .ok (.divI k ty d a imm) else .error .type
  else .error .reserved

/-- Row 0x007. -/
def decRem (f : Fields) : Except DecErr Instr :=
  let d := Opnd.ofCode f.dst
  let a := Opnd.ofCode f.a
  let b := Opnd.ofCode f.b
  let k := f.k
  if f.c == 0#8 && f.md.extractLsb' 4 2 == 0#2 && f.imm.extractLsb' 0 20 == 0#20 then
    Ty.ofCode (f.md.extractLsb' 0 4) |>.elim (.error .type) fun ty => if ([.i32, .n32, .i64, .n64] : List Ty).contains ty then .ok (.rem k ty d a b) else .error .type
  else .error .reserved

/-- Row 0x027. -/
def decRemI (f : Fields) : Except DecErr Instr :=
  let d := Opnd.ofCode f.dst
  let a := Opnd.ofCode f.a
  let imm := f.b ++ f.c ++ f.imm
  let k := f.k
  if f.md.extractLsb' 4 2 == 0#2 && immRaw (f.md.extractLsb' 0 4) imm then
    Ty.ofCode (f.md.extractLsb' 0 4) |>.elim (.error .type) fun ty => if ([.i32, .n32, .i64, .n64] : List Ty).contains ty then .ok (.remI k ty d a imm) else .error .type
  else .error .reserved

/-- Row 0x00A. -/
def decMin (f : Fields) : Except DecErr Instr :=
  let d := Opnd.ofCode f.dst
  let a := Opnd.ofCode f.a
  let b := Opnd.ofCode f.b
  let k := f.k
  if f.c == 0#8 && f.md.extractLsb' 4 2 == 0#2 && f.imm.extractLsb' 0 20 == 0#20 then
    Ty.ofCode (f.md.extractLsb' 0 4) |>.elim (.error .type) fun ty => if ([.i32, .n32, .i64, .n64] : List Ty).contains ty then .ok (.min k ty d a b) else .error .type
  else .error .reserved

/-- Row 0x02A. -/
def decMinI (f : Fields) : Except DecErr Instr :=
  let d := Opnd.ofCode f.dst
  let a := Opnd.ofCode f.a
  let imm := f.b ++ f.c ++ f.imm
  let k := f.k
  if f.md.extractLsb' 4 2 == 0#2 && immRaw (f.md.extractLsb' 0 4) imm then
    Ty.ofCode (f.md.extractLsb' 0 4) |>.elim (.error .type) fun ty => if ([.i32, .n32, .i64, .n64] : List Ty).contains ty then .ok (.minI k ty d a imm) else .error .type
  else .error .reserved

/-- Row 0x00B. -/
def decMax (f : Fields) : Except DecErr Instr :=
  let d := Opnd.ofCode f.dst
  let a := Opnd.ofCode f.a
  let b := Opnd.ofCode f.b
  let k := f.k
  if f.c == 0#8 && f.md.extractLsb' 4 2 == 0#2 && f.imm.extractLsb' 0 20 == 0#20 then
    Ty.ofCode (f.md.extractLsb' 0 4) |>.elim (.error .type) fun ty => if ([.i32, .n32, .i64, .n64] : List Ty).contains ty then .ok (.max k ty d a b) else .error .type
  else .error .reserved

/-- Row 0x02B. -/
def decMaxI (f : Fields) : Except DecErr Instr :=
  let d := Opnd.ofCode f.dst
  let a := Opnd.ofCode f.a
  let imm := f.b ++ f.c ++ f.imm
  let k := f.k
  if f.md.extractLsb' 4 2 == 0#2 && immRaw (f.md.extractLsb' 0 4) imm then
    Ty.ofCode (f.md.extractLsb' 0 4) |>.elim (.error .type) fun ty => if ([.i32, .n32, .i64, .n64] : List Ty).contains ty then .ok (.maxI k ty d a imm) else .error .type
  else .error .reserved

/-- Row 0x00C. -/
def decShl (f : Fields) : Except DecErr Instr :=
  let d := Opnd.ofCode f.dst
  let a := Opnd.ofCode f.a
  let b := Opnd.ofCode f.b
  let k := f.k
  if f.c == 0#8 && f.md.extractLsb' 4 2 == 0#2 && f.imm.extractLsb' 0 20 == 0#20 then
    Ty.ofCode (f.md.extractLsb' 0 4) |>.elim (.error .type) fun ty => if ([.b32, .b64] : List Ty).contains ty then .ok (.shl k ty d a b) else .error .type
  else .error .reserved

/-- Row 0x02C. -/
def decShlI (f : Fields) : Except DecErr Instr :=
  let d := Opnd.ofCode f.dst
  let a := Opnd.ofCode f.a
  let imm := f.b ++ f.c ++ f.imm
  let k := f.k
  if f.md.extractLsb' 4 2 == 0#2 && immRaw (f.md.extractLsb' 0 4) imm then
    Ty.ofCode (f.md.extractLsb' 0 4) |>.elim (.error .type) fun ty => if ([.b32, .b64] : List Ty).contains ty then .ok (.shlI k ty d a imm) else .error .type
  else .error .reserved

/-- Row 0x00D. -/
def decShr (f : Fields) : Except DecErr Instr :=
  let d := Opnd.ofCode f.dst
  let a := Opnd.ofCode f.a
  let b := Opnd.ofCode f.b
  let k := f.k
  if f.c == 0#8 && f.md.extractLsb' 4 2 == 0#2 && f.imm.extractLsb' 0 20 == 0#20 then
    Ty.ofCode (f.md.extractLsb' 0 4) |>.elim (.error .type) fun ty => if ([.b32, .b64] : List Ty).contains ty then .ok (.shr k ty d a b) else .error .type
  else .error .reserved

/-- Row 0x02D. -/
def decShrI (f : Fields) : Except DecErr Instr :=
  let d := Opnd.ofCode f.dst
  let a := Opnd.ofCode f.a
  let imm := f.b ++ f.c ++ f.imm
  let k := f.k
  if f.md.extractLsb' 4 2 == 0#2 && immRaw (f.md.extractLsb' 0 4) imm then
    Ty.ofCode (f.md.extractLsb' 0 4) |>.elim (.error .type) fun ty => if ([.b32, .b64] : List Ty).contains ty then .ok (.shrI k ty d a imm) else .error .type
  else .error .reserved

/-- Row 0x00E. -/
def decSar (f : Fields) : Except DecErr Instr :=
  let d := Opnd.ofCode f.dst
  let a := Opnd.ofCode f.a
  let b := Opnd.ofCode f.b
  let k := f.k
  if f.c == 0#8 && f.md.extractLsb' 4 2 == 0#2 && f.imm.extractLsb' 0 20 == 0#20 then
    Ty.ofCode (f.md.extractLsb' 0 4) |>.elim (.error .type) fun ty => if ([.i32, .i64] : List Ty).contains ty then .ok (.sar k ty d a b) else .error .type
  else .error .reserved

/-- Row 0x02E. -/
def decSarI (f : Fields) : Except DecErr Instr :=
  let d := Opnd.ofCode f.dst
  let a := Opnd.ofCode f.a
  let imm := f.b ++ f.c ++ f.imm
  let k := f.k
  if f.md.extractLsb' 4 2 == 0#2 && immRaw (f.md.extractLsb' 0 4) imm then
    Ty.ofCode (f.md.extractLsb' 0 4) |>.elim (.error .type) fun ty => if ([.i32, .i64] : List Ty).contains ty then .ok (.sarI k ty d a imm) else .error .type
  else .error .reserved

/-- Row 0x00F. -/
def decAndb (f : Fields) : Except DecErr Instr :=
  let d := Opnd.ofCode f.dst
  let a := Opnd.ofCode f.a
  let b := Opnd.ofCode f.b
  let k := f.k
  if f.c == 0#8 && f.md.extractLsb' 4 2 == 0#2 && f.imm.extractLsb' 0 20 == 0#20 then
    Ty.ofCode (f.md.extractLsb' 0 4) |>.elim (.error .type) fun ty => if ([.b32, .b64] : List Ty).contains ty then .ok (.andb k ty d a b) else .error .type
  else .error .reserved

/-- Row 0x02F. -/
def decAndbI (f : Fields) : Except DecErr Instr :=
  let d := Opnd.ofCode f.dst
  let a := Opnd.ofCode f.a
  let imm := f.b ++ f.c ++ f.imm
  let k := f.k
  if f.md.extractLsb' 4 2 == 0#2 && immRaw (f.md.extractLsb' 0 4) imm then
    Ty.ofCode (f.md.extractLsb' 0 4) |>.elim (.error .type) fun ty => if ([.b32, .b64] : List Ty).contains ty then .ok (.andbI k ty d a imm) else .error .type
  else .error .reserved

/-- Row 0x010. -/
def decOrb (f : Fields) : Except DecErr Instr :=
  let d := Opnd.ofCode f.dst
  let a := Opnd.ofCode f.a
  let b := Opnd.ofCode f.b
  let k := f.k
  if f.c == 0#8 && f.md.extractLsb' 4 2 == 0#2 && f.imm.extractLsb' 0 20 == 0#20 then
    Ty.ofCode (f.md.extractLsb' 0 4) |>.elim (.error .type) fun ty => if ([.b32, .b64] : List Ty).contains ty then .ok (.orb k ty d a b) else .error .type
  else .error .reserved

/-- Row 0x030. -/
def decOrbI (f : Fields) : Except DecErr Instr :=
  let d := Opnd.ofCode f.dst
  let a := Opnd.ofCode f.a
  let imm := f.b ++ f.c ++ f.imm
  let k := f.k
  if f.md.extractLsb' 4 2 == 0#2 && immRaw (f.md.extractLsb' 0 4) imm then
    Ty.ofCode (f.md.extractLsb' 0 4) |>.elim (.error .type) fun ty => if ([.b32, .b64] : List Ty).contains ty then .ok (.orbI k ty d a imm) else .error .type
  else .error .reserved

/-- Row 0x011. -/
def decXorb (f : Fields) : Except DecErr Instr :=
  let d := Opnd.ofCode f.dst
  let a := Opnd.ofCode f.a
  let b := Opnd.ofCode f.b
  let k := f.k
  if f.c == 0#8 && f.md.extractLsb' 4 2 == 0#2 && f.imm.extractLsb' 0 20 == 0#20 then
    Ty.ofCode (f.md.extractLsb' 0 4) |>.elim (.error .type) fun ty => if ([.b32, .b64] : List Ty).contains ty then .ok (.xorb k ty d a b) else .error .type
  else .error .reserved

/-- Row 0x031. -/
def decXorbI (f : Fields) : Except DecErr Instr :=
  let d := Opnd.ofCode f.dst
  let a := Opnd.ofCode f.a
  let imm := f.b ++ f.c ++ f.imm
  let k := f.k
  if f.md.extractLsb' 4 2 == 0#2 && immRaw (f.md.extractLsb' 0 4) imm then
    Ty.ofCode (f.md.extractLsb' 0 4) |>.elim (.error .type) fun ty => if ([.b32, .b64] : List Ty).contains ty then .ok (.xorbI k ty d a imm) else .error .type
  else .error .reserved

/-- Row 0x013. -/
def decAndn (f : Fields) : Except DecErr Instr :=
  let d := Opnd.ofCode f.dst
  let a := Opnd.ofCode f.a
  let b := Opnd.ofCode f.b
  let k := f.k
  if f.c == 0#8 && f.md.extractLsb' 4 2 == 0#2 && f.imm.extractLsb' 0 20 == 0#20 then
    Ty.ofCode (f.md.extractLsb' 0 4) |>.elim (.error .type) fun ty => if ([.b32, .b64] : List Ty).contains ty then .ok (.andn k ty d a b) else .error .type
  else .error .reserved

/-- Row 0x033. -/
def decAndnI (f : Fields) : Except DecErr Instr :=
  let d := Opnd.ofCode f.dst
  let a := Opnd.ofCode f.a
  let imm := f.b ++ f.c ++ f.imm
  let k := f.k
  if f.md.extractLsb' 4 2 == 0#2 && immRaw (f.md.extractLsb' 0 4) imm then
    Ty.ofCode (f.md.extractLsb' 0 4) |>.elim (.error .type) fun ty => if ([.b32, .b64] : List Ty).contains ty then .ok (.andnI k ty d a imm) else .error .type
  else .error .reserved

/-- Row 0x005. -/
def decMad (f : Fields) : Except DecErr Instr :=
  let d := Opnd.ofCode f.dst
  let a := Opnd.ofCode f.a
  let b := Opnd.ofCode f.b
  let c := Opnd.ofCode f.c
  let k := f.k
  if f.md.extractLsb' 4 2 == 0#2 && f.imm.extractLsb' 0 20 == 0#20 then
    Ty.ofCode (f.md.extractLsb' 0 4) |>.elim (.error .type) fun ty => if ([.i32, .n32, .i64, .n64] : List Ty).contains ty then .ok (.mad k ty d a b c) else .error .type
  else .error .reserved

/-- Row 0x008. -/
def decNeg (f : Fields) : Except DecErr Instr :=
  let d := Opnd.ofCode f.dst
  let a := Opnd.ofCode f.a
  let k := f.k
  if f.b == 0#8 && f.c == 0#8 && f.md.extractLsb' 4 2 == 0#2 && f.imm.extractLsb' 0 20 == 0#20 then
    Ty.ofCode (f.md.extractLsb' 0 4) |>.elim (.error .type) fun ty => if ([.i32, .i64] : List Ty).contains ty then .ok (.neg k ty d a) else .error .type
  else .error .reserved

/-- Row 0x009. -/
def decAbs (f : Fields) : Except DecErr Instr :=
  let d := Opnd.ofCode f.dst
  let a := Opnd.ofCode f.a
  let k := f.k
  if f.b == 0#8 && f.c == 0#8 && f.md.extractLsb' 4 2 == 0#2 && f.imm.extractLsb' 0 20 == 0#20 then
    Ty.ofCode (f.md.extractLsb' 0 4) |>.elim (.error .type) fun ty => if ([.i32, .i64] : List Ty).contains ty then .ok (.abs k ty d a) else .error .type
  else .error .reserved

/-- Row 0x012. -/
def decNotb (f : Fields) : Except DecErr Instr :=
  let d := Opnd.ofCode f.dst
  let a := Opnd.ofCode f.a
  let k := f.k
  if f.b == 0#8 && f.c == 0#8 && f.md.extractLsb' 4 2 == 0#2 && f.imm.extractLsb' 0 20 == 0#20 then
    Ty.ofCode (f.md.extractLsb' 0 4) |>.elim (.error .type) fun ty => if ([.b32, .b64] : List Ty).contains ty then .ok (.notb k ty d a) else .error .type
  else .error .reserved

/-- Row 0x014. -/
def decClz (f : Fields) : Except DecErr Instr :=
  let d := Opnd.ofCode f.dst
  let a := Opnd.ofCode f.a
  let k := f.k
  if f.b == 0#8 && f.c == 0#8 && f.md.extractLsb' 4 2 == 0#2 && f.imm.extractLsb' 0 20 == 0#20 then
    Ty.ofCode (f.md.extractLsb' 0 4) |>.elim (.error .type) fun ty => if ([.b32, .b64] : List Ty).contains ty then .ok (.clz k ty d a) else .error .type
  else .error .reserved

/-- Row 0x015. -/
def decPopc (f : Fields) : Except DecErr Instr :=
  let d := Opnd.ofCode f.dst
  let a := Opnd.ofCode f.a
  let k := f.k
  if f.b == 0#8 && f.c == 0#8 && f.md.extractLsb' 4 2 == 0#2 && f.imm.extractLsb' 0 20 == 0#20 then
    Ty.ofCode (f.md.extractLsb' 0 4) |>.elim (.error .type) fun ty => if ([.b32, .b64] : List Ty).contains ty then .ok (.popc k ty d a) else .error .type
  else .error .reserved

/-- Row 0x016. -/
def decBrev (f : Fields) : Except DecErr Instr :=
  let d := Opnd.ofCode f.dst
  let a := Opnd.ofCode f.a
  let k := f.k
  if f.b == 0#8 && f.c == 0#8 && f.md.extractLsb' 4 2 == 0#2 && f.imm.extractLsb' 0 20 == 0#20 then
    Ty.ofCode (f.md.extractLsb' 0 4) |>.elim (.error .type) fun ty => if ([.b32, .b64] : List Ty).contains ty then .ok (.brev k ty d a) else .error .type
  else .error .reserved

/-- Row 0x01A. -/
def decMov (f : Fields) : Except DecErr Instr :=
  let d := Opnd.ofCode f.dst
  let a := Opnd.ofCode f.a
  let k := f.k
  if f.b == 0#8 && f.c == 0#8 && f.md.extractLsb' 4 2 == 0#2 && f.imm.extractLsb' 0 20 == 0#20 then
    Ty.ofCode (f.md.extractLsb' 0 4) |>.elim (.error .type) fun ty => if ([.b32, .b64] : List Ty).contains ty then .ok (.mov k ty d a) else .error .type
  else .error .reserved

/-- Row 0x017. -/
def decBfx (f : Fields) : Except DecErr Instr :=
  let d := Opnd.ofCode f.dst
  let a := Opnd.ofCode f.a
  let len := f.imm.extractLsb' 6 7
  let pos := f.imm.extractLsb' 0 6
  let k := f.k
  if f.b == 0#8 && f.c == 0#8 && f.md.extractLsb' 4 2 == 0#2 && f.imm.extractLsb' 13 7 == 0#7 && decide (len.toNat ≤ 64) then
    Ty.ofCode (f.md.extractLsb' 0 4) |>.elim (.error .type) fun ty => if ([.n32, .i32, .n64, .i64] : List Ty).contains ty then .ok (.bfx k ty d a pos len) else .error .type
  else .error .reserved

/-- Row 0x018. -/
def decBfi (f : Fields) : Except DecErr Instr :=
  let d := Opnd.ofCode f.dst
  let a := Opnd.ofCode f.a
  let b := Opnd.ofCode f.b
  let len := f.imm.extractLsb' 6 7
  let pos := f.imm.extractLsb' 0 6
  let k := f.k
  if f.c == 0#8 && f.md.extractLsb' 4 2 == 0#2 && f.imm.extractLsb' 13 7 == 0#7 && decide (len.toNat ≤ 64) then
    Ty.ofCode (f.md.extractLsb' 0 4) |>.elim (.error .type) fun ty => if ([.b32, .b64] : List Ty).contains ty then .ok (.bfi k ty d a b pos len) else .error .type
  else .error .reserved

/-- Row 0x019. -/
def decSel (f : Fields) : Except DecErr Instr :=
  let d := Opnd.ofCode f.dst
  let a := Opnd.ofCode f.a
  let b := Opnd.ofCode f.b
  let c := Opnd.ofCode f.c
  let k := f.k
  if f.md.extractLsb' 4 2 == 0#2 && f.imm.extractLsb' 0 20 == 0#20 then
    Ty.ofCode (f.md.extractLsb' 0 4) |>.elim (.error .type) fun ty => if ([.b32, .b64] : List Ty).contains ty then .ok (.sel k ty d a b c) else .error .type
  else .error .reserved

/-- Row 0x01B. -/
def decCmp (f : Fields) : Except DecErr Instr :=
  let d := Opnd.ofCode f.dst
  let a := Opnd.ofCode f.a
  let b := Opnd.ofCode f.b
  let k := f.k
  if noHold k && f.c == 0#8 && f.imm.extractLsb' 0 20 == 0#20 then
    let cc := Cc.ofCode (f.md.extractLsb' 4 2)
    Ty.ofCode (f.md.extractLsb' 0 4) |>.elim (.error .type) fun ty => if ([.i32, .n32, .i64, .n64, .b32, .b64] : List Ty).contains ty then if cmpOk cc ty then .ok (.cmp k cc ty d a b) else .error .type else .error .type
  else .error .reserved

/-- Row 0x03B. -/
def decCmpI (f : Fields) : Except DecErr Instr :=
  let d := Opnd.ofCode f.dst
  let a := Opnd.ofCode f.a
  let imm := f.b ++ f.c ++ f.imm
  let k := f.k
  if noHold k && immRaw (f.md.extractLsb' 0 4) imm then
    let cc := Cc.ofCode (f.md.extractLsb' 4 2)
    Ty.ofCode (f.md.extractLsb' 0 4) |>.elim (.error .type) fun ty => if ([.i32, .n32, .i64, .n64, .b32, .b64] : List Ty).contains ty then if cmpOk cc ty then .ok (.cmpI k cc ty d a imm) else .error .type else .error .type
  else .error .reserved

/-- Row 0x040. -/
def decMovi (f : Fields) : Except DecErr Instr :=
  let d := Opnd.ofCode f.dst
  let imm := f.b ++ f.c ++ f.imm
  let k := f.k
  if f.a == 0#8 && f.md.extractLsb' 4 2 == 0#2 && immRaw (f.md.extractLsb' 0 4) imm then
    Ty.ofCode (f.md.extractLsb' 0 4) |>.elim (.error .type) fun ty => if ([.b32, .b64] : List Ty).contains ty then .ok (.movi k ty d imm) else .error .type
  else .error .reserved

/-- Row 0x041. -/
def decAddpc (f : Fields) : Except DecErr Instr :=
  let d := Opnd.ofCode f.dst
  let disp := f.imm.extractLsb' 0 20
  let k := f.k
  if f.a == 0#8 && f.b == 0#8 && f.c == 0#8 && f.md.extractLsb' 0 6 == 0#6 then
    .ok (.addpc k d disp)
  else .error .reserved

/-- Row 0x050. -/
def decIdx (f : Fields) : Except DecErr Instr :=
  let d := Opnd.ofCode f.dst
  let dim := f.md.extractLsb' 4 2
  let k := f.k
  if f.a == 0#8 && f.b == 0#8 && f.c == 0#8 && f.md.extractLsb' 0 4 == 0#4 && f.imm.extractLsb' 0 20 == 0#20 then
    .ok (.idx k d dim)
  else .error .reserved

/-- Row 0x051. -/
def decRngget (f : Fields) : Except DecErr Instr :=
  let d := Opnd.ofCode f.dst
  let item := f.imm.extractLsb' 0 2
  let k := f.k
  if f.a == 0#8 && f.b == 0#8 && f.c == 0#8 && f.md.extractLsb' 0 6 == 0#6 && f.imm.extractLsb' 2 18 == 0#18 then
    .ok (.rngget k d item)
  else .error .reserved

/-- Row 0x052. -/
def decFormget (f : Fields) : Except DecErr Instr :=
  let d := Opnd.ofCode f.dst
  let a := Opnd.ofCode f.a
  let item := f.imm.extractLsb' 0 2
  let k := f.k
  if f.b == 0#8 && f.c == 0#8 && f.md.extractLsb' 0 6 == 0#6 && f.imm.extractLsb' 2 18 == 0#18 && item != 3#2 then
    .ok (.formget k d a item)
  else .error .reserved

/-- Row 0x053. -/
def decExpand (f : Fields) : Except DecErr Instr :=
  let k := f.k
  if noResult k && f.dst == 0#8 && f.a == 0#8 && f.b == 0#8 && f.c == 0#8 && f.md.extractLsb' 0 6 == 0#6 && f.imm.extractLsb' 0 20 == 0#20 && k.guard == 7#4 then
    .ok (.expand k)
  else .error .reserved

/-- Row 0x054. -/
def decRerange (f : Fields) : Except DecErr Instr :=
  let k := f.k
  if noResult k && f.dst == 0#8 && f.a == 0#8 && f.b == 0#8 && f.c == 0#8 && f.md.extractLsb' 0 6 == 0#6 && f.imm.extractLsb' 0 20 == 0#20 && k.guard == 7#4 then
    .ok (.rerange k)
  else .error .reserved

/-- Row 0x055. -/
def decDead (f : Fields) : Except DecErr Instr :=
  let a := Opnd.ofCode f.a
  let cnt := f.md.extractLsb' 0 6
  let k := f.k
  if noResult k && f.dst == 0#8 && f.b == 0#8 && f.c == 0#8 && f.imm.extractLsb' 0 20 == 0#20 && k.guard == 7#4 then
    .ok (.dead k a cnt)
  else .error .reserved

/-- Row 0x080. -/
def decBra (f : Fields) : Except DecErr Instr :=
  let disp := f.imm.extractLsb' 0 20
  let k := f.k
  if f.dst == 0#8 && f.a == 0#8 && f.b == 0#8 && f.c == 0#8 && f.md.extractLsb' 0 6 == 0#6 && noResult k then
    .ok (.bra k disp)
  else .error .reserved

/-- Row 0x081. -/
def decBrx (f : Fields) : Except DecErr Instr :=
  let a := Opnd.ofCode f.a
  let b := Opnd.ofCode f.b
  let n := f.imm.extractLsb' 0 6
  let k := f.k
  if f.dst == 0#8 && f.c == 0#8 && f.md.extractLsb' 0 6 == 0#6 && f.imm.extractLsb' 6 14 == 0#14 && noResult k then
    .ok (.brx k a b n)
  else .error .reserved

/-- Row 0x082. -/
def decCall (f : Fields) : Except DecErr Instr :=
  let d := Opnd.ofCode f.dst
  let disp := f.imm.extractLsb' 0 20
  let k := f.k
  if f.a == 0#8 && f.b == 0#8 && f.c == 0#8 && f.md.extractLsb' 0 6 == 0#6 && k.hold == 0#2 then
    .ok (.call k d disp)
  else .error .reserved

/-- Row 0x083. -/
def decCallx (f : Fields) : Except DecErr Instr :=
  let d := Opnd.ofCode f.dst
  let a := Opnd.ofCode f.a
  let k := f.k
  if f.b == 0#8 && f.c == 0#8 && f.md.extractLsb' 0 6 == 0#6 && f.imm.extractLsb' 0 20 == 0#20 && k.hold == 0#2 then
    .ok (.callx k d a)
  else .error .reserved

/-- Row 0x084. -/
def decRet (f : Fields) : Except DecErr Instr :=
  let a := Opnd.ofCode f.a
  let k := f.k
  if f.dst == 0#8 && f.b == 0#8 && f.c == 0#8 && f.md.extractLsb' 0 6 == 0#6 && f.imm.extractLsb' 0 20 == 0#20 && noResult k then
    .ok (.ret k a)
  else .error .reserved

/-- Row 0x085. -/
def decExit (f : Fields) : Except DecErr Instr :=
  let k := f.k
  if f.dst == 0#8 && f.a == 0#8 && f.b == 0#8 && f.c == 0#8 && f.md.extractLsb' 0 6 == 0#6 && f.imm.extractLsb' 0 20 == 0#20 && noResult k then
    .ok (.exit k)
  else .error .reserved

/-- Row 0x086. -/
def decNop (f : Fields) : Except DecErr Instr :=
  let k := f.k
  if f.dst == 0#8 && f.a == 0#8 && f.b == 0#8 && f.c == 0#8 && f.md.extractLsb' 0 6 == 0#6 && f.imm.extractLsb' 0 20 == 0#20 && noResult k then
    .ok (.nop k)
  else .error .reserved

/-- Row 0x090. -/
def decPand (f : Fields) : Except DecErr Instr :=
  let d := Opnd.ofCode f.dst
  let a := Opnd.ofCode f.a
  let b := Opnd.ofCode f.b
  let nb := f.md.extractLsb' 5 1 == 1#1
  let na := f.md.extractLsb' 4 1 == 1#1
  let k := f.k
  if noHold k && f.c == 0#8 && f.md.extractLsb' 0 4 == 0#4 && f.imm.extractLsb' 0 20 == 0#20 then
    .ok (.pand k d a b na nb)
  else .error .reserved

/-- Row 0x091. -/
def decPor (f : Fields) : Except DecErr Instr :=
  let d := Opnd.ofCode f.dst
  let a := Opnd.ofCode f.a
  let b := Opnd.ofCode f.b
  let nb := f.md.extractLsb' 5 1 == 1#1
  let na := f.md.extractLsb' 4 1 == 1#1
  let k := f.k
  if noHold k && f.c == 0#8 && f.md.extractLsb' 0 4 == 0#4 && f.imm.extractLsb' 0 20 == 0#20 then
    .ok (.por k d a b na nb)
  else .error .reserved

/-- Row 0x092. -/
def decPxor (f : Fields) : Except DecErr Instr :=
  let d := Opnd.ofCode f.dst
  let a := Opnd.ofCode f.a
  let b := Opnd.ofCode f.b
  let nb := f.md.extractLsb' 5 1 == 1#1
  let na := f.md.extractLsb' 4 1 == 1#1
  let k := f.k
  if noHold k && f.c == 0#8 && f.md.extractLsb' 0 4 == 0#4 && f.imm.extractLsb' 0 20 == 0#20 then
    .ok (.pxor k d a b na nb)
  else .error .reserved

/-- Row 0x093. -/
def decPnot (f : Fields) : Except DecErr Instr :=
  let d := Opnd.ofCode f.dst
  let a := Opnd.ofCode f.a
  let k := f.k
  if noHold k && f.b == 0#8 && f.c == 0#8 && f.md.extractLsb' 0 6 == 0#6 && f.imm.extractLsb' 0 20 == 0#20 then
    .ok (.pnot k d a)
  else .error .reserved

/-- Row 0x094. -/
def decPmov (f : Fields) : Except DecErr Instr :=
  let d := Opnd.ofCode f.dst
  let a := Opnd.ofCode f.a
  let k := f.k
  if noHold k && f.b == 0#8 && f.c == 0#8 && f.md.extractLsb' 0 6 == 0#6 && f.imm.extractLsb' 0 20 == 0#20 then
    .ok (.pmov k d a)
  else .error .reserved

/-- Row 0x0A0. -/
def decShfl (f : Fields) : Except DecErr Instr :=
  let d := Opnd.ofCode f.dst
  let a := Opnd.ofCode f.a
  let b := Opnd.ofCode f.b
  let mode := f.md.extractLsb' 4 2
  let k := f.k
  if f.c == 0#8 && f.imm.extractLsb' 0 20 == 0#20 then
    Ty.ofCode (f.md.extractLsb' 0 4) |>.elim (.error .type) fun ty => if ([.b32, .b64] : List Ty).contains ty then .ok (.shfl k ty d a b mode) else .error .type
  else .error .reserved

/-- Row 0x0A1. -/
def decVote (f : Fields) : Except DecErr Instr :=
  let d := Opnd.ofCode f.dst
  let a := Opnd.ofCode f.a
  let k := f.k
  if f.b == 0#8 && f.c == 0#8 && f.imm.extractLsb' 0 20 == 0#20 then
    VoteMode.ofCode (f.md.extractLsb' 0 6) |>.bind fun m => .ok (.vote k m d a)
  else .error .reserved

/-- Row 0x0A2. -/
def decElect (f : Fields) : Except DecErr Instr :=
  let d := Opnd.ofCode f.dst
  let k := f.k
  if f.a == 0#8 && f.b == 0#8 && f.c == 0#8 && f.md.extractLsb' 0 6 == 0#6 && f.imm.extractLsb' 0 20 == 0#20 then
    .ok (.elect k d)
  else .error .reserved

/-- Row 0x0A3. -/
def decGred (f : Fields) : Except DecErr Instr :=
  let d := Opnd.ofCode f.dst
  let a := Opnd.ofCode f.a
  let k := f.k
  RedOp.ofCode (f.imm.extractLsb' 0 3) |>.elim (.error .reserved) fun op =>
  if f.b == 0#8 && f.c == 0#8 && f.md.extractLsb' 4 2 == 0#2 && f.imm.extractLsb' 3 17 == 0#17 then
    Ty.ofCode (f.md.extractLsb' 0 4) |>.elim (.error .type) fun ty => if (redTys op : List Ty).contains ty then .ok (.gred k op ty d a) else .error .type
  else .error .reserved

/-- Row 0x0A4. -/
def decGscan (f : Fields) : Except DecErr Instr :=
  let d := Opnd.ofCode f.dst
  let a := Opnd.ofCode f.a
  let excl := f.md.extractLsb' 4 1 == 1#1
  let k := f.k
  RedOp.ofCode (f.imm.extractLsb' 0 3) |>.elim (.error .reserved) fun op =>
  if f.b == 0#8 && f.c == 0#8 && f.md.extractLsb' 5 1 == 0#1 && f.imm.extractLsb' 3 17 == 0#17 then
    Ty.ofCode (f.md.extractLsb' 0 4) |>.elim (.error .type) fun ty => if (redTys op : List Ty).contains ty then .ok (.gscan k op ty excl d a) else .error .type
  else .error .reserved

/-- Row 0x0C0. -/
def decFadd (f : Fields) : Except DecErr Instr :=
  let d := Opnd.ofCode f.dst
  let a := Opnd.ofCode f.a
  let b := Opnd.ofCode f.b
  let sat := f.imm.extractLsb' 3 1 == 1#1
  let k := f.k
  Rm.ofCode (f.imm.extractLsb' 0 3) |>.elim (.error .reserved) fun rm =>
  if f.c == 0#8 && f.md.extractLsb' 4 2 == 0#2 && f.imm.extractLsb' 4 16 == 0#16 then
    Ty.ofCode (f.md.extractLsb' 0 4) |>.elim (.error .type) fun ty => if ([.f32, .f16, .bf16] : List Ty).contains ty then .ok (.fadd k ty rm sat d a b) else .error .type
  else .error .reserved

/-- Row 0x0C1. -/
def decFsub (f : Fields) : Except DecErr Instr :=
  let d := Opnd.ofCode f.dst
  let a := Opnd.ofCode f.a
  let b := Opnd.ofCode f.b
  let sat := f.imm.extractLsb' 3 1 == 1#1
  let k := f.k
  Rm.ofCode (f.imm.extractLsb' 0 3) |>.elim (.error .reserved) fun rm =>
  if f.c == 0#8 && f.md.extractLsb' 4 2 == 0#2 && f.imm.extractLsb' 4 16 == 0#16 then
    Ty.ofCode (f.md.extractLsb' 0 4) |>.elim (.error .type) fun ty => if ([.f32, .f16, .bf16] : List Ty).contains ty then .ok (.fsub k ty rm sat d a b) else .error .type
  else .error .reserved

/-- Row 0x0C2. -/
def decFmul (f : Fields) : Except DecErr Instr :=
  let d := Opnd.ofCode f.dst
  let a := Opnd.ofCode f.a
  let b := Opnd.ofCode f.b
  let sat := f.imm.extractLsb' 3 1 == 1#1
  let k := f.k
  Rm.ofCode (f.imm.extractLsb' 0 3) |>.elim (.error .reserved) fun rm =>
  if f.c == 0#8 && f.md.extractLsb' 4 2 == 0#2 && f.imm.extractLsb' 4 16 == 0#16 then
    Ty.ofCode (f.md.extractLsb' 0 4) |>.elim (.error .type) fun ty => if ([.f32, .f16, .bf16] : List Ty).contains ty then .ok (.fmul k ty rm sat d a b) else .error .type
  else .error .reserved

/-- Row 0x0C3. -/
def decFfma (f : Fields) : Except DecErr Instr :=
  let d := Opnd.ofCode f.dst
  let a := Opnd.ofCode f.a
  let b := Opnd.ofCode f.b
  let c := Opnd.ofCode f.c
  let sat := f.imm.extractLsb' 3 1 == 1#1
  let k := f.k
  Rm.ofCode (f.imm.extractLsb' 0 3) |>.elim (.error .reserved) fun rm =>
  if f.md.extractLsb' 4 2 == 0#2 && f.imm.extractLsb' 4 16 == 0#16 then
    Ty.ofCode (f.md.extractLsb' 0 4) |>.elim (.error .type) fun ty => if ([.f32, .f16, .bf16] : List Ty).contains ty then .ok (.ffma k ty rm sat d a b c) else .error .type
  else .error .reserved

/-- Row 0x0C4. -/
def decFmin (f : Fields) : Except DecErr Instr :=
  let d := Opnd.ofCode f.dst
  let a := Opnd.ofCode f.a
  let b := Opnd.ofCode f.b
  let k := f.k
  if f.c == 0#8 && f.md.extractLsb' 4 2 == 0#2 && f.imm.extractLsb' 0 20 == 0#20 then
    Ty.ofCode (f.md.extractLsb' 0 4) |>.elim (.error .type) fun ty => if ([.f32, .f16, .bf16] : List Ty).contains ty then .ok (.fmin k ty d a b) else .error .type
  else .error .reserved

/-- Row 0x0C5. -/
def decFmax (f : Fields) : Except DecErr Instr :=
  let d := Opnd.ofCode f.dst
  let a := Opnd.ofCode f.a
  let b := Opnd.ofCode f.b
  let k := f.k
  if f.c == 0#8 && f.md.extractLsb' 4 2 == 0#2 && f.imm.extractLsb' 0 20 == 0#20 then
    Ty.ofCode (f.md.extractLsb' 0 4) |>.elim (.error .type) fun ty => if ([.f32, .f16, .bf16] : List Ty).contains ty then .ok (.fmax k ty d a b) else .error .type
  else .error .reserved

/-- Row 0x0C6. -/
def decFcmp (f : Fields) : Except DecErr Instr :=
  let d := Opnd.ofCode f.dst
  let a := Opnd.ofCode f.a
  let b := Opnd.ofCode f.b
  let k := f.k
  Fcc.ofCode (f.imm.extractLsb' 0 3) |>.elim (.error .reserved) fun cc =>
  if noHold k && f.c == 0#8 && f.md.extractLsb' 4 2 == 0#2 && f.imm.extractLsb' 3 17 == 0#17 then
    Ty.ofCode (f.md.extractLsb' 0 4) |>.elim (.error .type) fun ty => if ([.f32, .f16, .bf16, .e4m3, .e5m2] : List Ty).contains ty then .ok (.fcmp k cc ty d a b) else .error .type
  else .error .reserved

/-- Row 0x0C7. -/
def decFrcp (f : Fields) : Except DecErr Instr :=
  let d := Opnd.ofCode f.dst
  let a := Opnd.ofCode f.a
  let k := f.k
  if f.b == 0#8 && f.c == 0#8 && f.md.extractLsb' 4 2 == 0#2 && f.imm.extractLsb' 0 20 == 0#20 then
    if f.md.extractLsb' 0 4 == Ty.f32.code then .ok (.frcp k d a) else .error .type
  else .error .reserved

/-- Row 0x0C8. -/
def decFrsq (f : Fields) : Except DecErr Instr :=
  let d := Opnd.ofCode f.dst
  let a := Opnd.ofCode f.a
  let k := f.k
  if f.b == 0#8 && f.c == 0#8 && f.md.extractLsb' 4 2 == 0#2 && f.imm.extractLsb' 0 20 == 0#20 then
    if f.md.extractLsb' 0 4 == Ty.f32.code then .ok (.frsq k d a) else .error .type
  else .error .reserved

/-- Row 0x0C9. -/
def decFsqrt (f : Fields) : Except DecErr Instr :=
  let d := Opnd.ofCode f.dst
  let a := Opnd.ofCode f.a
  let k := f.k
  if f.b == 0#8 && f.c == 0#8 && f.md.extractLsb' 4 2 == 0#2 && f.imm.extractLsb' 0 20 == 0#20 then
    if f.md.extractLsb' 0 4 == Ty.f32.code then .ok (.fsqrt k d a) else .error .type
  else .error .reserved

/-- Row 0x0CA. -/
def decFexp2 (f : Fields) : Except DecErr Instr :=
  let d := Opnd.ofCode f.dst
  let a := Opnd.ofCode f.a
  let k := f.k
  if f.b == 0#8 && f.c == 0#8 && f.md.extractLsb' 4 2 == 0#2 && f.imm.extractLsb' 0 20 == 0#20 then
    if f.md.extractLsb' 0 4 == Ty.f32.code then .ok (.fexp2 k d a) else .error .type
  else .error .reserved

/-- Row 0x0CB. -/
def decFlog2 (f : Fields) : Except DecErr Instr :=
  let d := Opnd.ofCode f.dst
  let a := Opnd.ofCode f.a
  let k := f.k
  if f.b == 0#8 && f.c == 0#8 && f.md.extractLsb' 4 2 == 0#2 && f.imm.extractLsb' 0 20 == 0#20 then
    if f.md.extractLsb' 0 4 == Ty.f32.code then .ok (.flog2 k d a) else .error .type
  else .error .reserved

/-- Row 0x0CC. -/
def decFsin (f : Fields) : Except DecErr Instr :=
  let d := Opnd.ofCode f.dst
  let a := Opnd.ofCode f.a
  let k := f.k
  if f.b == 0#8 && f.c == 0#8 && f.md.extractLsb' 4 2 == 0#2 && f.imm.extractLsb' 0 20 == 0#20 then
    if f.md.extractLsb' 0 4 == Ty.f32.code then .ok (.fsin k d a) else .error .type
  else .error .reserved

/-- Row 0x0CD. -/
def decFcos (f : Fields) : Except DecErr Instr :=
  let d := Opnd.ofCode f.dst
  let a := Opnd.ofCode f.a
  let k := f.k
  if f.b == 0#8 && f.c == 0#8 && f.md.extractLsb' 4 2 == 0#2 && f.imm.extractLsb' 0 20 == 0#20 then
    if f.md.extractLsb' 0 4 == Ty.f32.code then .ok (.fcos k d a) else .error .type
  else .error .reserved

/-- Row 0x0E0. -/
def decFcvt (f : Fields) : Except DecErr Instr :=
  let d := Opnd.ofCode f.dst
  let a := Opnd.ofCode f.a
  let sat := f.imm.extractLsb' 3 1 == 1#1
  let k := f.k
  Rm.ofCode (f.imm.extractLsb' 0 3) |>.elim (.error .reserved) fun rm =>
  if f.b == 0#8 && f.c == 0#8 && f.md.extractLsb' 4 2 == 0#2 && f.imm.extractLsb' 8 12 == 0#12 then
    Ty.ofCode (f.md.extractLsb' 0 4) |>.elim (.error .type) fun dt => if ([.f32, .f16, .bf16, .e4m3, .e5m2, .e3m2, .e2m3] : List Ty).contains dt then Ty.ofCode (f.imm.extractLsb' 4 4) |>.elim (.error .type) fun sty => if ([.f32, .f16, .bf16, .e4m3, .e5m2, .e3m2, .e2m3, .kq4] : List Ty).contains sty then .ok (.fcvt k dt sty rm sat d a) else .error .type else .error .type
  else .error .reserved

/-- Row 0x0E1. -/
def decF2i (f : Fields) : Except DecErr Instr :=
  let d := Opnd.ofCode f.dst
  let a := Opnd.ofCode f.a
  let k := f.k
  Rm.ofCode (f.imm.extractLsb' 0 3) |>.elim (.error .reserved) fun rm =>
  if f.b == 0#8 && f.c == 0#8 && f.md.extractLsb' 4 2 == 0#2 && f.imm.extractLsb' 8 12 == 0#12 && f.imm.extractLsb' 3 1 == 0#1 then
    Ty.ofCode (f.md.extractLsb' 0 4) |>.elim (.error .type) fun it => if ([.i32, .n32, .i64, .n64, .i8] : List Ty).contains it then Ty.ofCode (f.imm.extractLsb' 4 4) |>.elim (.error .type) fun ft => if ([.f32, .f16, .bf16, .e4m3, .e5m2] : List Ty).contains ft then .ok (.f2i k it ft rm d a) else .error .type else .error .type
  else .error .reserved

/-- Row 0x0E2. -/
def decI2f (f : Fields) : Except DecErr Instr :=
  let d := Opnd.ofCode f.dst
  let a := Opnd.ofCode f.a
  let sat := f.imm.extractLsb' 3 1 == 1#1
  let k := f.k
  Rm.ofCode (f.imm.extractLsb' 0 3) |>.elim (.error .reserved) fun rm =>
  if f.b == 0#8 && f.c == 0#8 && f.md.extractLsb' 4 2 == 0#2 && f.imm.extractLsb' 8 12 == 0#12 then
    Ty.ofCode (f.md.extractLsb' 0 4) |>.elim (.error .type) fun ft => if ([.f32, .f16, .bf16] : List Ty).contains ft then Ty.ofCode (f.imm.extractLsb' 4 4) |>.elim (.error .type) fun it => if ([.i32, .n32, .i64, .n64, .i8] : List Ty).contains it then .ok (.i2f k ft it rm sat d a) else .error .type else .error .type
  else .error .reserved

/-- Row 0x0E3. -/
def decFrnd (f : Fields) : Except DecErr Instr :=
  let d := Opnd.ofCode f.dst
  let a := Opnd.ofCode f.a
  let k := f.k
  Rm.ofCode (f.imm.extractLsb' 0 3) |>.elim (.error .reserved) fun rm =>
  if f.b == 0#8 && f.c == 0#8 && f.md.extractLsb' 4 2 == 0#2 && f.imm.extractLsb' 3 17 == 0#17 then
    Ty.ofCode (f.md.extractLsb' 0 4) |>.elim (.error .type) fun ty => if ([.f32, .f16, .bf16] : List Ty).contains ty then .ok (.frnd k ty rm d a) else .error .type
  else .error .reserved

/-- Row 0x0E4. -/
def decFclass (f : Fields) : Except DecErr Instr :=
  let d := Opnd.ofCode f.dst
  let a := Opnd.ofCode f.a
  let k := f.k
  if f.b == 0#8 && f.c == 0#8 && f.md.extractLsb' 4 2 == 0#2 && f.imm.extractLsb' 0 20 == 0#20 then
    Ty.ofCode (f.md.extractLsb' 0 4) |>.elim (.error .type) fun ty => if ([.f32, .f16, .bf16, .e4m3, .e5m2, .e3m2, .e2m3] : List Ty).contains ty then .ok (.fclass k ty d a) else .error .type
  else .error .reserved

/-- Row 0x0F0. -/
def decHadd2 (f : Fields) : Except DecErr Instr :=
  let d := Opnd.ofCode f.dst
  let a := Opnd.ofCode f.a
  let b := Opnd.ofCode f.b
  let sat := f.imm.extractLsb' 3 1 == 1#1
  let k := f.k
  Rm.ofCode (f.imm.extractLsb' 0 3) |>.elim (.error .reserved) fun rm =>
  if f.c == 0#8 && f.md.extractLsb' 4 2 == 0#2 && f.imm.extractLsb' 4 16 == 0#16 then
    Ty.ofCode (f.md.extractLsb' 0 4) |>.elim (.error .type) fun ty => if ([.f16, .bf16] : List Ty).contains ty then .ok (.hadd2 k ty rm sat d a b) else .error .type
  else .error .reserved

/-- Row 0x0F1. -/
def decHmul2 (f : Fields) : Except DecErr Instr :=
  let d := Opnd.ofCode f.dst
  let a := Opnd.ofCode f.a
  let b := Opnd.ofCode f.b
  let sat := f.imm.extractLsb' 3 1 == 1#1
  let k := f.k
  Rm.ofCode (f.imm.extractLsb' 0 3) |>.elim (.error .reserved) fun rm =>
  if f.c == 0#8 && f.md.extractLsb' 4 2 == 0#2 && f.imm.extractLsb' 4 16 == 0#16 then
    Ty.ofCode (f.md.extractLsb' 0 4) |>.elim (.error .type) fun ty => if ([.f16, .bf16] : List Ty).contains ty then .ok (.hmul2 k ty rm sat d a b) else .error .type
  else .error .reserved

/-- Row 0x0F2. -/
def decHfma2 (f : Fields) : Except DecErr Instr :=
  let d := Opnd.ofCode f.dst
  let a := Opnd.ofCode f.a
  let b := Opnd.ofCode f.b
  let c := Opnd.ofCode f.c
  let sat := f.imm.extractLsb' 3 1 == 1#1
  let k := f.k
  Rm.ofCode (f.imm.extractLsb' 0 3) |>.elim (.error .reserved) fun rm =>
  if f.md.extractLsb' 4 2 == 0#2 && f.imm.extractLsb' 4 16 == 0#16 then
    Ty.ofCode (f.md.extractLsb' 0 4) |>.elim (.error .type) fun ty => if ([.f16, .bf16] : List Ty).contains ty then .ok (.hfma2 k ty rm sat d a b c) else .error .type
  else .error .reserved

/-- Row 0x100. -/
def decPlsplit (f : Fields) : Except DecErr Instr :=
  let d := Opnd.ofCode f.dst
  let a := Opnd.ofCode f.a
  let k := f.k
  if f.b == 0#8 && f.c == 0#8 && f.md.extractLsb' 4 2 == 0#2 && f.imm.extractLsb' 0 20 == 0#20 then
    Ty.ofCode (f.md.extractLsb' 0 4) |>.elim (.error .type) fun ty => if ([.e3m2, .e2m3] : List Ty).contains ty then .ok (.plsplit k ty d a) else .error .type
  else .error .reserved

/-- Row 0x101. -/
def decPljoin (f : Fields) : Except DecErr Instr :=
  let d := Opnd.ofCode f.dst
  let a := Opnd.ofCode f.a
  let b := Opnd.ofCode f.b
  let k := f.k
  if f.c == 0#8 && f.md.extractLsb' 4 2 == 0#2 && f.imm.extractLsb' 0 20 == 0#20 then
    Ty.ofCode (f.md.extractLsb' 0 4) |>.elim (.error .type) fun ty => if ([.e3m2, .e2m3] : List Ty).contains ty then .ok (.pljoin k ty d a b) else .error .type
  else .error .reserved

/-- Row 0x140. -/
def decLd (f : Fields) : Except DecErr Instr :=
  let d := Opnd.ofCode f.dst
  let a := Opnd.ofCode f.a
  let m := Mem.ofCode (f.imm.extractLsb' 0 17)
  let k := f.k
  if f.b == 0#8 && f.c == 0#8 && f.md.extractLsb' 4 2 == 0#2 && f.imm.extractLsb' 17 3 == 0#3 && f.imm.extractLsb' 12 1 == 0#1 then
    Ty.ofCode (f.md.extractLsb' 0 4) |>.elim (.error .type) fun ty => if ([.i8, .e4m3, .e5m2, .f16, .bf16, .b32, .i32, .n32, .f32, .b64, .i64, .n64] : List Ty).contains ty then .ok (.ld k ty d a m) else .error .type
  else .error .reserved

/-- Row 0x141. -/
def decSt (f : Fields) : Except DecErr Instr :=
  let a := Opnd.ofCode f.a
  let b := Opnd.ofCode f.b
  let m := Mem.ofCode (f.imm.extractLsb' 0 17)
  let k := f.k
  if noResult k && f.dst == 0#8 && f.c == 0#8 && f.md.extractLsb' 4 2 == 0#2 && f.imm.extractLsb' 17 3 == 0#3 && f.imm.extractLsb' 12 1 == 0#1 then
    Ty.ofCode (f.md.extractLsb' 0 4) |>.elim (.error .type) fun ty => if ([.i8, .e4m3, .e5m2, .f16, .bf16, .b32, .i32, .n32, .f32, .b64, .i64, .n64] : List Ty).contains ty then .ok (.st k ty a b m) else .error .type
  else .error .reserved

/-- Row 0x142. -/
def decLdp (f : Fields) : Except DecErr Instr :=
  let d := Opnd.ofCode f.dst
  let a := Opnd.ofCode f.a
  let m := Mem.ofCode (f.imm.extractLsb' 0 17)
  let k := f.k
  if f.b == 0#8 && f.c == 0#8 && f.md.extractLsb' 4 2 == 0#2 && f.imm.extractLsb' 17 3 == 0#3 && f.imm.extractLsb' 12 1 == 0#1 then
    if f.md.extractLsb' 0 4 == Ty.b32.code then .ok (.ldp k d a m) else .error .type
  else .error .reserved

/-- Row 0x143. -/
def decStp (f : Fields) : Except DecErr Instr :=
  let a := Opnd.ofCode f.a
  let b := Opnd.ofCode f.b
  let m := Mem.ofCode (f.imm.extractLsb' 0 17)
  let k := f.k
  if noResult k && f.dst == 0#8 && f.c == 0#8 && f.md.extractLsb' 4 2 == 0#2 && f.imm.extractLsb' 17 3 == 0#3 && f.imm.extractLsb' 12 1 == 0#1 then
    if f.md.extractLsb' 0 4 == Ty.b32.code then .ok (.stp k a b m) else .error .type
  else .error .reserved

/-- SRCC of an atomic holds zero but in `cas`, whose operation and type codes these are: judged with the other unused
fields, before the type (R54, R232). -/
def casField (md : BitVec 6) (c : Opnd) : Bool :=
  c == .v 0 || (md.extractLsb' 4 2 == 3#2 && (md.extractLsb' 0 4 == Ty.n32.code || md.extractLsb' 0 4 == Ty.n64.code))

/-- Row 0x144. -/
def decAtoms (f : Fields) : Except DecErr Instr :=
  let d := Opnd.ofCode f.dst
  let a := Opnd.ofCode f.a
  let b := Opnd.ofCode f.b
  let c := Opnd.ofCode f.c
  let scope := f.imm.extractLsb' 17 3
  let off := f.imm.extractLsb' 0 12
  let k := f.k
  if f.imm.extractLsb' 12 5 == 0#5 && decide (scope.toNat ≤ 5) && casField (f.md.extractLsb' 0 6) c then
    atomOfCode (f.md.extractLsb' 0 6) |>.bind fun (op, ty) => if (op == .cas || c == .v 0) then .ok (.atoms k op ty d a b c scope off) else .error .reserved
  else .error .reserved

/-- Row 0x150. -/
def decGather (f : Fields) : Except DecErr Instr :=
  let d := Opnd.ofCode f.dst
  let a := Opnd.ofCode f.a
  let b := Opnd.ofCode f.b
  let sh := f.c.extractLsb' 0 5
  let m := Mem.ofCode (f.imm.extractLsb' 0 17)
  let k := f.k
  if f.c.extractLsb' 5 3 == 0#3 && f.md.extractLsb' 4 2 == 0#2 && f.imm.extractLsb' 17 3 == 0#3 && f.imm.extractLsb' 12 1 == 0#1 then
    Ty.ofCode (f.md.extractLsb' 0 4) |>.elim (.error .type) fun ty => if ([.i8, .e4m3, .e5m2, .f16, .bf16, .b32, .i32, .n32, .f32, .b64, .i64, .n64] : List Ty).contains ty then .ok (.gather k ty d a b sh m) else .error .type
  else .error .reserved

/-- Row 0x151. -/
def decScatter (f : Fields) : Except DecErr Instr :=
  let d := Opnd.ofCode f.dst
  let a := Opnd.ofCode f.a
  let b := Opnd.ofCode f.b
  let sh := f.c.extractLsb' 0 5
  let m := Mem.ofCode (f.imm.extractLsb' 0 17)
  let k := f.k
  if noResult k && f.c.extractLsb' 5 3 == 0#3 && f.md.extractLsb' 4 2 == 0#2 && f.imm.extractLsb' 17 3 == 0#3 && f.imm.extractLsb' 12 1 == 0#1 then
    Ty.ofCode (f.md.extractLsb' 0 4) |>.elim (.error .type) fun ty => if ([.i8, .e4m3, .e5m2, .f16, .bf16, .b32, .i32, .n32, .f32, .b64, .i64, .n64] : List Ty).contains ty then .ok (.scatter k ty d a b sh m) else .error .type
  else .error .reserved

/-- Row 0x152. -/
def decGatom (f : Fields) : Except DecErr Instr :=
  let d := Opnd.ofCode f.dst
  let a := Opnd.ofCode f.a
  let b := Opnd.ofCode f.b
  let c := Opnd.ofCode f.c
  let scope := f.imm.extractLsb' 17 3
  let m := Mem.ofCode (f.imm.extractLsb' 0 17)
  let k := f.k
  if f.imm.extractLsb' 12 1 == 0#1 && decide (scope.toNat ≤ 5) && casField (f.md.extractLsb' 0 6) c then
    atomOfCode (f.md.extractLsb' 0 6) |>.bind fun (op, ty) => if (op == .cas || c == .v 0) then .ok (.gatom k op ty d a b c scope m) else .error .reserved
  else .error .reserved

/-- Row 0x153. -/
def decAmaxrd (f : Fields) : Except DecErr Instr :=
  let d := Opnd.ofCode f.dst
  let a := Opnd.ofCode f.a
  let scope := f.imm.extractLsb' 17 3
  let m := Mem.ofCode (f.imm.extractLsb' 0 17)
  let k := f.k
  if f.b == 0#8 && f.c == 0#8 && f.md.extractLsb' 4 2 == 0#2 && f.imm.extractLsb' 12 1 == 0#1 && decide (scope.toNat ≤ 5) then
    Ty.ofCode (f.md.extractLsb' 0 4) |>.elim (.error .type) fun ty => if ([.f32, .b32, .b64] : List Ty).contains ty then .ok (.amaxrd k ty d a scope m) else .error .type
  else .error .reserved

/-- Row 0x160. -/
def decCopy (f : Fields) : Except DecErr Instr :=
  let a := Opnd.ofCode f.a
  let b := Opnd.ofCode f.b
  let c := Opnd.ofCode f.c
  let tag := f.md.extractLsb' 0 6
  let qord := f.imm.extractLsb' 13 1 == 1#1
  let off := f.imm.extractLsb' 0 12
  let k := f.k
  if noResult k && f.dst == 0#8 && f.imm.extractLsb' 14 6 == 0#6 && f.imm.extractLsb' 12 1 == 0#1 then
    .ok (.copy k a b c tag qord off)
  else .error .reserved

/-- Row 0x161. -/
def decCopyw (f : Fields) : Except DecErr Instr :=
  let a := Opnd.ofCode f.a
  let b := Opnd.ofCode f.b
  let c := Opnd.ofCode f.c
  let tag := f.md.extractLsb' 0 6
  let qord := f.imm.extractLsb' 13 1 == 1#1
  let off := f.imm.extractLsb' 0 12
  let k := f.k
  if noResult k && f.dst == 0#8 && f.imm.extractLsb' 14 6 == 0#6 && f.imm.extractLsb' 12 1 == 0#1 then
    .ok (.copyw k a b c tag qord off)
  else .error .reserved

/-- Row 0x162. -/
def decRload (f : Fields) : Except DecErr Instr :=
  let a := Opnd.ofCode f.a
  let b := Opnd.ofCode f.b
  let c := Opnd.ofCode f.c
  let tag := f.md.extractLsb' 0 6
  let qord := f.imm.extractLsb' 13 1 == 1#1
  let off := f.imm.extractLsb' 0 12
  let k := f.k
  if noResult k && f.dst == 0#8 && f.imm.extractLsb' 14 6 == 0#6 && f.imm.extractLsb' 12 1 == 0#1 then
    .ok (.rload k a b c tag qord off)
  else .error .reserved

/-- Row 0x163. -/
def decRemld (f : Fields) : Except DecErr Instr :=
  let d := Opnd.ofCode f.dst
  let a := Opnd.ofCode f.a
  let cq := f.imm.extractLsb' 11 3
  let coord := f.imm.extractLsb' 0 11
  let k := f.k
  if f.b == 0#8 && f.c == 0#8 && f.md.extractLsb' 4 2 == 0#2 && f.imm.extractLsb' 14 6 == 0#6 then
    Ty.ofCode (f.md.extractLsb' 0 4) |>.elim (.error .type) fun ty => if ([.b32, .b64] : List Ty).contains ty then .ok (.remld k ty d a coord cq) else .error .type
  else .error .reserved

/-- Row 0x170. -/
def decQpeek (f : Fields) : Except DecErr Instr :=
  let d := Opnd.ofCode f.dst
  let a := Opnd.ofCode f.a
  let pop := f.md.extractLsb' 4 1 == 1#1
  let k := f.k
  if f.b == 0#8 && f.c == 0#8 && f.md.extractLsb' 5 1 == 0#1 && f.md.extractLsb' 0 4 == 0#4 && f.imm.extractLsb' 0 20 == 0#20 then
    .ok (.qpeek k d a pop)
  else .error .reserved

/-- Row 0x171. -/
def decQstat (f : Fields) : Except DecErr Instr :=
  let d := Opnd.ofCode f.dst
  let a := Opnd.ofCode f.a
  let k := f.k
  if f.b == 0#8 && f.c == 0#8 && f.md.extractLsb' 0 6 == 0#6 && f.imm.extractLsb' 0 20 == 0#20 then
    .ok (.qstat k d a)
  else .error .reserved

/-- Row 0x172. -/
def decQbind (f : Fields) : Except DecErr Instr :=
  let a := Opnd.ofCode f.a
  let mode := f.md.extractLsb' 4 2
  let k := f.k
  if noResult k && f.dst == 0xFF#8 && f.b == 0#8 && f.c == 0#8 && f.md.extractLsb' 0 4 == 0#4 && f.imm.extractLsb' 0 20 == 0#20 then
    .ok (.qbind k a mode)
  else .error .reserved

/-- Row 0x1C0. -/
def decBar (f : Fields) : Except DecErr Instr :=
  let scope := f.imm.extractLsb' 3 3
  let n := f.imm.extractLsb' 0 3
  let k := f.k
  if noResult k && f.dst == 0#8 && f.a == 0#8 && f.b == 0#8 && f.c == 0#8 && f.md.extractLsb' 0 6 == 0#6 && f.imm.extractLsb' 6 14 == 0#14 && decide (1 ≤ scope.toNat ∧ scope.toNat ≤ 5) then
    .ok (.bar k n scope)
  else .error .reserved

/-- Row 0x1C1. -/
def decBararr (f : Fields) : Except DecErr Instr :=
  let d := Opnd.ofCode f.dst
  let scope := f.imm.extractLsb' 3 3
  let n := f.imm.extractLsb' 0 3
  let k := f.k
  if f.a == 0#8 && f.b == 0#8 && f.c == 0#8 && f.md.extractLsb' 0 6 == 0#6 && f.imm.extractLsb' 6 14 == 0#14 && decide (1 ≤ scope.toNat ∧ scope.toNat ≤ 5) then
    .ok (.bararr k d n scope)
  else .error .reserved

/-- Row 0x1C2. -/
def decBarwait (f : Fields) : Except DecErr Instr :=
  let a := Opnd.ofCode f.a
  let n := f.imm.extractLsb' 0 3
  let k := f.k
  if noResult k && f.dst == 0#8 && f.b == 0#8 && f.c == 0#8 && f.md.extractLsb' 0 6 == 0#6 && f.imm.extractLsb' 3 17 == 0#17 then
    .ok (.barwait k a n)
  else .error .reserved

/-- Row 0x1C8. -/
def decFence (f : Fields) : Except DecErr Instr :=
  let kind := f.md.extractLsb' 4 2
  let scope := f.imm.extractLsb' 17 3
  let k := f.k
  if noResult k && f.dst == 0#8 && f.a == 0#8 && f.b == 0#8 && f.c == 0#8 && f.md.extractLsb' 0 4 == 0#4 && f.imm.extractLsb' 0 17 == 0#17 && kind != 3#2 && decide (scope.toNat ≤ 5) then
    .ok (.fence k kind scope)
  else .error .reserved

/-- Row 0x1C9. -/
def decAliasfence (f : Fields) : Except DecErr Instr :=
  let scope := f.imm.extractLsb' 17 3
  let k := f.k
  if noResult k && f.dst == 0#8 && f.a == 0#8 && f.b == 0#8 && f.c == 0#8 && f.md.extractLsb' 0 6 == 0#6 && f.imm.extractLsb' 0 17 == 0#17 && decide (scope.toNat ≤ 5) then
    .ok (.aliasfence k scope)
  else .error .reserved

/-- Row 0x1CA. -/
def decQfence (f : Fields) : Except DecErr Instr :=
  let scope := f.imm.extractLsb' 17 3
  let k := f.k
  if noResult k && f.dst == 0#8 && f.a == 0#8 && f.b == 0#8 && f.c == 0#8 && f.md.extractLsb' 0 6 == 0#6 && f.imm.extractLsb' 0 17 == 0#17 && decide (scope.toNat ≤ 5) then
    .ok (.qfence k scope)
  else .error .reserved

/-- Row 0x1D0. -/
def decTwait (f : Fields) : Except DecErr Instr :=
  let tag := f.imm.extractLsb' 0 6
  let k := f.k
  if noResult k && f.dst == 0#8 && f.a == 0#8 && f.b == 0#8 && f.c == 0#8 && f.md.extractLsb' 0 6 == 0#6 && f.imm.extractLsb' 6 14 == 0#14 then
    .ok (.twait k tag)
  else .error .reserved

/-- Row 0x1D1. -/
def decTfirst (f : Fields) : Except DecErr Instr :=
  let d := Opnd.ofCode f.dst
  let a := Opnd.ofCode f.a
  let k := f.k
  if f.b == 0#8 && f.c == 0#8 && f.md.extractLsb' 0 6 == 0#6 && f.imm.extractLsb' 0 20 == 0#20 then
    .ok (.tfirst k d a)
  else .error .reserved

/-- Row 0x1D2. -/
def decBcwait (f : Fields) : Except DecErr Instr :=
  let a := Opnd.ofCode f.a
  let b := Opnd.ofCode f.b
  let k := f.k
  if noResult k && f.dst == 0#8 && f.c == 0#8 && f.md.extractLsb' 0 6 == 0#6 && f.imm.extractLsb' 0 20 == 0#20 then
    .ok (.bcwait k a b)
  else .error .reserved

/-- Row 0x1D3. -/
def decYield (f : Fields) : Except DecErr Instr :=
  let k := f.k
  if noResult k && f.dst == 0#8 && f.a == 0#8 && f.b == 0#8 && f.c == 0#8 && f.md.extractLsb' 0 6 == 0#6 && f.imm.extractLsb' 0 20 == 0#20 then
    .ok (.yield k)
  else .error .reserved

/-- Row 0x1E0. -/
def decTask (f : Fields) : Except DecErr Instr :=
  let d := Opnd.ofCode f.dst
  let a := Opnd.ofCode f.a
  let k := f.k
  if f.b == 0#8 && f.c == 0#8 && f.md.extractLsb' 0 6 == 0#6 && f.imm.extractLsb' 0 20 == 0#20 then
    .ok (.task k d a)
  else .error .reserved

/-- Row 0x1E1. -/
def decTaskwait (f : Fields) : Except DecErr Instr :=
  let d := Opnd.ofCode f.dst
  let a := Opnd.ofCode f.a
  let all := f.md.extractLsb' 0 1 == 1#1
  let k := f.k
  if f.b == 0#8 && f.c == 0#8 && f.md.extractLsb' 1 5 == 0#5 && f.imm.extractLsb' 0 20 == 0#20 && (!all || f.a == 0xFF#8) then
    .ok (.taskwait k d a all)
  else .error .reserved

/-- Row 0x1E2. -/
def decTinfo (f : Fields) : Except DecErr Instr :=
  let d := Opnd.ofCode f.dst
  let item := f.imm.extractLsb' 0 5
  let k := f.k
  if f.a == 0#8 && f.b == 0#8 && f.c == 0#8 && f.md.extractLsb' 0 6 == 0#6 && f.imm.extractLsb' 5 15 == 0#15 && decide (item.toNat < 15) then
    .ok (.tinfo k d item)
  else .error .reserved

/-- Row 0x1F0. -/
def decStepwait (f : Fields) : Except DecErr Instr :=
  let d := Opnd.ofCode f.dst
  let k := f.k
  if f.a == 0#8 && f.b == 0#8 && f.c == 0#8 && f.md.extractLsb' 0 6 == 0#6 && f.imm.extractLsb' 0 20 == 0#20 then
    .ok (.stepwait k d)
  else .error .reserved

/-- Row 0x200. -/
def decMma (f : Fields) : Except DecErr Instr :=
  let d := Opnd.ofCode f.dst
  let a := Opnd.ofCode f.a
  let b := Opnd.ofCode f.b
  let c := Opnd.ofCode f.c
  let bty := f.md.extractLsb' 4 2
  let role := f.imm.extractLsb' 18 2
  let acc := f.imm.extractLsb' 17 1 == 1#1
  let remb := f.imm.extractLsb' 16 1 == 1#1
  let off := f.imm.extractLsb' 0 12
  let k := f.k
  if noResult k && f.imm.extractLsb' 12 4 == 0#4 && mmaRaw (f.md.extractLsb' 0 4) a c role off then
    Ty.ofCode (f.md.extractLsb' 0 4) |>.elim (.error .type) fun aty => if ([.e4m3, .e5m2, .i8, .f16, .bf16, .e3m2, .e2m3, .kq4] : List Ty).contains aty then if mmaTypeOk aty bty then .ok (.mma k aty bty d a b c role acc remb off) else .error .type else .error .type
  else .error .reserved

/-- Row 0x201. -/
def decMmasp (f : Fields) : Except DecErr Instr :=
  let d := Opnd.ofCode f.dst
  let a := Opnd.ofCode f.a
  let b := Opnd.ofCode f.b
  let c := Opnd.ofCode f.c
  let role := f.imm.extractLsb' 18 2
  let acc := f.imm.extractLsb' 17 1 == 1#1
  let off := f.imm.extractLsb' 0 12
  let k := f.k
  if noResult k && f.md.extractLsb' 4 2 == 0#2 && f.imm.extractLsb' 16 1 == 0#1 && f.imm.extractLsb' 12 4 == 0#4 && mmaspFieldsOk a c role off then
    Ty.ofCode (f.md.extractLsb' 0 4) |>.elim (.error .type) fun ty => if ([.e4m3, .e5m2, .i8] : List Ty).contains ty then .ok (.mmasp k ty d a b c role acc off) else .error .type
  else .error .reserved

/-- Row 0x208. -/
def decScacc (f : Fields) : Except DecErr Instr :=
  let d := Opnd.ofCode f.dst
  let a := Opnd.ofCode f.a
  let b := Opnd.ofCode f.b
  let set := f.md.extractLsb' 4 1 == 1#1
  let k := f.k
  if noResult k && f.c == 0#8 && f.md.extractLsb' 5 1 == 0#1 && f.md.extractLsb' 0 4 == 0#4 && f.imm.extractLsb' 0 20 == 0#20 then
    .ok (.scacc k set d a b)
  else .error .reserved

/-- Row 0x209. -/
def decBscale (f : Fields) : Except DecErr Instr :=
  let d := Opnd.ofCode f.dst
  let a := Opnd.ofCode f.a
  let hi := f.md.extractLsb' 4 1 == 1#1
  let k := f.k
  if noResult k && f.b == 0#8 && f.c == 0#8 && f.md.extractLsb' 5 1 == 0#1 && f.md.extractLsb' 0 4 == 0#4 && f.imm.extractLsb' 0 20 == 0#20 then
    .ok (.bscale k hi d a)
  else .error .reserved

/-- Row 0x210. -/
def decAccz (f : Fields) : Except DecErr Instr :=
  let d := Opnd.ofCode f.dst
  let k := f.k
  if noResult k && f.a == 0#8 && f.b == 0#8 && f.c == 0#8 && f.md.extractLsb' 0 6 == 0#6 && f.imm.extractLsb' 0 20 == 0#20 then
    .ok (.accz k d)
  else .error .reserved

/-- Row 0x211. -/
def decAccld (f : Fields) : Except DecErr Instr :=
  let d := Opnd.ofCode f.dst
  let a := Opnd.ofCode f.a
  let c := Opnd.ofCode f.c
  let off := f.imm.extractLsb' 0 12
  let k := f.k
  if noResult k && f.b == 0#8 && f.md.extractLsb' 4 2 == 0#2 && f.imm.extractLsb' 12 8 == 0#8 then
    Ty.ofCode (f.md.extractLsb' 0 4) |>.elim (.error .type) fun ty => if ([.f32, .f16, .bf16] : List Ty).contains ty then .ok (.accld k ty d a c off) else .error .type
  else .error .reserved

/-- Row 0x212. -/
def decAccst (f : Fields) : Except DecErr Instr :=
  let a := Opnd.ofCode f.a
  let b := Opnd.ofCode f.b
  let c := Opnd.ofCode f.c
  let off := f.imm.extractLsb' 0 12
  let k := f.k
  if noResult k && f.dst == 0#8 && f.md.extractLsb' 4 2 == 0#2 && f.imm.extractLsb' 12 8 == 0#8 then
    Ty.ofCode (f.md.extractLsb' 0 4) |>.elim (.error .type) fun ty => if ([.f32, .f16, .bf16] : List Ty).contains ty then .ok (.accst k ty a b c off) else .error .type
  else .error .reserved

/-- Row 0x213. -/
def decAccmov (f : Fields) : Except DecErr Instr :=
  let d := Opnd.ofCode f.dst
  let a := Opnd.ofCode f.a
  let tr := f.md.extractLsb' 4 1 == 1#1
  let k := f.k
  if noResult k && f.b == 0#8 && f.c == 0#8 && f.md.extractLsb' 5 1 == 0#1 && f.md.extractLsb' 0 4 == 0#4 && f.imm.extractLsb' 0 20 == 0#20 then
    .ok (.accmov k tr d a)
  else .error .reserved

/-- Row 0x214. -/
def decAccpeek (f : Fields) : Except DecErr Instr :=
  let d := Opnd.ofCode f.dst
  let a := Opnd.ofCode f.a
  let b := Opnd.ofCode f.b
  let k := f.k
  if f.c == 0#8 && f.md.extractLsb' 0 6 == 0#6 && f.imm.extractLsb' 0 20 == 0#20 then
    .ok (.accpeek k d a b)
  else .error .reserved

/-- Row 0x215. -/
def decAccpatch (f : Fields) : Except DecErr Instr :=
  let d := Opnd.ofCode f.dst
  let a := Opnd.ofCode f.a
  let b := Opnd.ofCode f.b
  let op := f.md.extractLsb' 4 2
  let k := f.k
  if noResult k && f.c == 0#8 && f.md.extractLsb' 0 4 == 0#4 && f.imm.extractLsb' 0 20 == 0#20 && op != 3#2 then
    .ok (.accpatch k op d a b)
  else .error .reserved

/-- Row 0x216. -/
def decAccnorm (f : Fields) : Except DecErr Instr :=
  let d := Opnd.ofCode f.dst
  let a := Opnd.ofCode f.a
  let b := Opnd.ofCode f.b
  let size := f.imm.extractLsb' 2 2
  let mode := f.imm.extractLsb' 0 2
  let k := f.k
  if noResult k && f.c == 0#8 && f.md.extractLsb' 0 6 == 0#6 && f.imm.extractLsb' 4 16 == 0#16 && mode != 3#2 && size != 3#2 then
    .ok (.accnorm k mode size d a b)
  else .error .reserved

/-- Row 0x220. -/
def decMcoef (f : Fields) : Except DecErr Instr :=
  let d := Opnd.ofCode f.dst
  let a := Opnd.ofCode f.a
  let rd := f.md.extractLsb' 4 1 == 1#1
  let k := f.k
  if f.b == 0#8 && f.c == 0#8 && f.md.extractLsb' 5 1 == 0#1 && f.md.extractLsb' 0 4 == 0#4 && f.imm.extractLsb' 0 20 == 0#20 then
    .ok (.mcoef k rd d a)
  else .error .reserved

/-- Row 0x221. -/
def decMpoly (f : Fields) : Except DecErr Instr :=
  let d := Opnd.ofCode f.dst
  let a := Opnd.ofCode f.a
  let b := Opnd.ofCode f.b
  let deg := f.imm.extractLsb' 2 3
  let size := f.imm.extractLsb' 0 2
  let k := f.k
  if noResult k && f.c == 0#8 && f.md.extractLsb' 0 6 == 0#6 && f.imm.extractLsb' 5 15 == 0#15 && size != 3#2 then
    .ok (.mpoly k size deg d a b)
  else .error .reserved

/-- Row 0x222. -/
def decMiter (f : Fields) : Except DecErr Instr :=
  let d := Opnd.ofCode f.dst
  let a := Opnd.ofCode f.a
  let b := Opnd.ofCode f.b
  let c := Opnd.ofCode f.c
  let cap := f.imm.extractLsb' 2 8
  let size := f.imm.extractLsb' 0 2
  let k := f.k
  if noHold k && f.md.extractLsb' 0 6 == 0#6 && f.imm.extractLsb' 10 10 == 0#10 && size != 3#2 then
    .ok (.miter k size cap d a b c)
  else .error .reserved

/-- Row 0x223. -/
def decMloopget (f : Fields) : Except DecErr Instr :=
  let d := Opnd.ofCode f.dst
  let k := f.k
  if f.a == 0#8 && f.b == 0#8 && f.c == 0#8 && f.md.extractLsb' 0 6 == 0#6 && f.imm.extractLsb' 0 20 == 0#20 then
    .ok (.mloopget k d)
  else .error .reserved

/-- Row 0x224. -/
def decMloopset (f : Fields) : Except DecErr Instr :=
  let a := Opnd.ofCode f.a
  let k := f.k
  if noResult k && f.dst == 0#8 && f.b == 0#8 && f.c == 0#8 && f.md.extractLsb' 0 6 == 0#6 && f.imm.extractLsb' 0 20 == 0#20 then
    .ok (.mloopset k a)
  else .error .reserved

/-- Row 0x230. -/
def decShpset (f : Fields) : Except DecErr Instr :=
  let d := Opnd.ofCode f.dst
  let a := Opnd.ofCode f.a
  let k := f.k
  if noResult k && f.b == 0#8 && f.c == 0#8 && f.md.extractLsb' 0 6 == 0#6 && f.imm.extractLsb' 0 20 == 0#20 then
    .ok (.shpset k d a)
  else .error .reserved

/-- Row 0x231. -/
def decShpget (f : Fields) : Except DecErr Instr :=
  let a := Opnd.ofCode f.a
  let b := Opnd.ofCode f.b
  let k := f.k
  if noResult k && f.dst == 0#8 && f.c == 0#8 && f.md.extractLsb' 0 6 == 0#6 && f.imm.extractLsb' 0 20 == 0#20 then
    .ok (.shpget k a b)
  else .error .reserved

/-- Row 0x232. -/
def decShpfence (f : Fields) : Except DecErr Instr :=
  let k := f.k
  if noResult k && f.dst == 0#8 && f.a == 0#8 && f.b == 0#8 && f.c == 0#8 && f.md.extractLsb' 0 6 == 0#6 && f.imm.extractLsb' 0 20 == 0#20 then
    .ok (.shpfence k)
  else .error .reserved

/-- Row 0x238. -/
def decRred (f : Fields) : Except DecErr Instr :=
  let d := Opnd.ofCode f.dst
  let a := Opnd.ofCode f.a
  let b := Opnd.ofCode f.b
  let c := Opnd.ofCode f.c
  let win := f.imm.extractLsb' 3 1 == 1#1
  let op := f.imm.extractLsb' 0 3
  let k := f.k
  if noResult k && f.md.extractLsb' 0 6 == 0#6 && f.imm.extractLsb' 4 16 == 0#16 && decide (op.toNat ≤ 4) && (win || c == .v 0) then
    .ok (.rred k op win d a b c)
  else .error .reserved

/-- Row 0x239. -/
def decRnorm (f : Fields) : Except DecErr Instr :=
  let a := Opnd.ofCode f.a
  let b := Opnd.ofCode f.b
  let c := Opnd.ofCode f.c
  let mode := f.imm.extractLsb' 11 3
  let fs := f.imm.extractLsb' 0 11
  let k := f.k
  if noResult k && f.dst == 0#8 && f.md.extractLsb' 0 6 == 0#6 && f.imm.extractLsb' 14 6 == 0#6 && decide (mode.toNat ≤ 2) then
    .ok (.rnorm k mode fs a b c)
  else .error .reserved

/-- Row 0x240. -/
def decQenc (f : Fields) : Except DecErr Instr :=
  let d := Opnd.ofCode f.dst
  let a := Opnd.ofCode f.a
  let b := Opnd.ofCode f.b
  let sat := f.imm.extractLsb' 3 1 == 1#1
  let k := f.k
  Rm.ofCode (f.imm.extractLsb' 0 3) |>.elim (.error .reserved) fun rm =>
  if f.c == 0#8 && f.md.extractLsb' 4 2 == 0#2 && f.imm.extractLsb' 4 16 == 0#16 && qencRaw (f.md.extractLsb' 0 4) rm sat then
    Ty.ofCode (f.md.extractLsb' 0 4) |>.elim (.error .type) fun ty => if ([.e4m3, .e5m2, .e3m2, .e2m3, .i8, .kq4] : List Ty).contains ty then .ok (.qenc k ty rm sat d a b) else .error .type
  else .error .reserved

/-- Row 0x241. -/
def decQdec (f : Fields) : Except DecErr Instr :=
  let d := Opnd.ofCode f.dst
  let a := Opnd.ofCode f.a
  let b := Opnd.ofCode f.b
  let k := f.k
  if f.c == 0#8 && f.md.extractLsb' 4 2 == 0#2 && f.imm.extractLsb' 0 20 == 0#20 then
    Ty.ofCode (f.md.extractLsb' 0 4) |>.elim (.error .type) fun ty => if ([.e4m3, .e5m2, .e3m2, .e2m3, .i8, .kq4] : List Ty).contains ty then .ok (.qdec k ty d a b) else .error .type
  else .error .reserved

/-- Row 0x242. -/
def decKqsc (f : Fields) : Except DecErr Instr :=
  let d := Opnd.ofCode f.dst
  let a := Opnd.ofCode f.a
  let blk := f.imm.extractLsb' 0 2
  let k := f.k
  if f.b == 0#8 && f.c == 0#8 && f.md.extractLsb' 4 2 == 0#2 && f.imm.extractLsb' 2 18 == 0#18 then
    if f.md.extractLsb' 0 4 == Ty.f32.code then .ok (.kqsc k d a blk) else .error .type
  else .error .reserved

/-- Row 0x280. -/
def decTrap (f : Fields) : Except DecErr Instr :=
  let bind := f.imm.extractLsb' 19 1 == 1#1
  let n := f.imm.extractLsb' 0 16
  let k := f.k
  if noResult k && f.dst == 0#8 && f.a == 0#8 && f.b == 0#8 && f.c == 0#8 && f.md.extractLsb' 0 6 == 0#6 && f.imm.extractLsb' 16 3 == 0#3 then
    .ok (.trap k n bind)
  else .error .reserved

/-- Row 0x281. -/
def decBkpt (f : Fields) : Except DecErr Instr :=
  let n := f.imm.extractLsb' 0 16
  let k := f.k
  if noResult k && f.dst == 0#8 && f.a == 0#8 && f.b == 0#8 && f.c == 0#8 && f.md.extractLsb' 0 6 == 0#6 && f.imm.extractLsb' 16 4 == 0#4 then
    .ok (.bkpt k n)
  else .error .reserved

/-- Row 0x282. -/
def decTret (f : Fields) : Except DecErr Instr :=
  let d := Opnd.ofCode f.dst
  let action := f.md.extractLsb' 4 2
  let k := f.k
  if f.a == 0#8 && f.b == 0#8 && f.c == 0#8 && f.md.extractLsb' 0 4 == 0#4 && f.imm.extractLsb' 0 20 == 0#20 then
    .ok (.tret k d action)
  else .error .reserved

/-- Row 0x288. -/
def decWpset (f : Fields) : Except DecErr Instr :=
  let a := Opnd.ofCode f.a
  let n := f.imm.extractLsb' 0 3
  let k := f.k
  if noResult k && f.dst == 0#8 && f.b == 0#8 && f.c == 0#8 && f.md.extractLsb' 0 6 == 0#6 && f.imm.extractLsb' 3 17 == 0#17 then
    .ok (.wpset k n a)
  else .error .reserved

/-- Row 0x289. -/
def decWpclr (f : Fields) : Except DecErr Instr :=
  let n := f.imm.extractLsb' 0 3
  let k := f.k
  if noResult k && f.dst == 0#8 && f.a == 0#8 && f.b == 0#8 && f.c == 0#8 && f.md.extractLsb' 0 6 == 0#6 && f.imm.extractLsb' 3 17 == 0#17 then
    .ok (.wpclr k n)
  else .error .reserved

/-- Row 0x290. -/
def decSysrd (f : Fields) : Except DecErr Instr :=
  let d := Opnd.ofCode f.dst
  let num := f.imm.extractLsb' 0 12
  let k := f.k
  if f.a == 0#8 && f.b == 0#8 && f.c == 0#8 && f.md.extractLsb' 0 6 == 0#6 && f.imm.extractLsb' 12 8 == 0#8 && sysNumOk num then
    .ok (.sysrd k d num)
  else .error .reserved

/-- Row 0x291. -/
def decSyswr (f : Fields) : Except DecErr Instr :=
  let a := Opnd.ofCode f.a
  let num := f.imm.extractLsb' 0 12
  let k := f.k
  if noResult k && f.dst == 0#8 && f.b == 0#8 && f.c == 0#8 && f.md.extractLsb' 0 6 == 0#6 && f.imm.extractLsb' 12 8 == 0#8 && sysNumOk num then
    .ok (.syswr k a num)
  else .error .reserved

/-- Row 0x298. -/
def decTraprd (f : Fields) : Except DecErr Instr :=
  let d := Opnd.ofCode f.dst
  let a := Opnd.ofCode f.a
  let k := f.k
  if f.b == 0#8 && f.c == 0#8 && f.md.extractLsb' 0 6 == 0#6 && f.imm.extractLsb' 0 20 == 0#20 then
    .ok (.traprd k d a)
  else .error .reserved

/-- Row 0x299. -/
def decTrapwr (f : Fields) : Except DecErr Instr :=
  let a := Opnd.ofCode f.a
  let b := Opnd.ofCode f.b
  let k := f.k
  if noResult k && f.dst == 0#8 && f.c == 0#8 && f.md.extractLsb' 0 6 == 0#6 && f.imm.extractLsb' 0 20 == 0#20 then
    .ok (.trapwr k a b)
  else .error .reserved

/-! The opcode map -/

/-- Rows 0 to 19 of the opcode map (R57). -/
def rows0 : List (Nat × (Fields → Except DecErr Instr)) :=
  [(0x001, decAdd),
   (0x002, decSub),
   (0x003, decMul),
   (0x004, decMulhi),
   (0x005, decMad),
   (0x006, decDiv),
   (0x007, decRem),
   (0x008, decNeg),
   (0x009, decAbs),
   (0x00A, decMin),
   (0x00B, decMax),
   (0x00C, decShl),
   (0x00D, decShr),
   (0x00E, decSar),
   (0x00F, decAndb),
   (0x010, decOrb),
   (0x011, decXorb),
   (0x012, decNotb),
   (0x013, decAndn),
   (0x014, decClz)]

/-- Rows 20 to 39 of the opcode map (R57). -/
def rows1 : List (Nat × (Fields → Except DecErr Instr)) :=
  [(0x015, decPopc),
   (0x016, decBrev),
   (0x017, decBfx),
   (0x018, decBfi),
   (0x019, decSel),
   (0x01A, decMov),
   (0x01B, decCmp),
   (0x021, decAddI),
   (0x022, decSubI),
   (0x023, decMulI),
   (0x024, decMulhiI),
   (0x026, decDivI),
   (0x027, decRemI),
   (0x02A, decMinI),
   (0x02B, decMaxI),
   (0x02C, decShlI),
   (0x02D, decShrI),
   (0x02E, decSarI),
   (0x02F, decAndbI),
   (0x030, decOrbI)]

/-- Rows 40 to 59 of the opcode map (R57). -/
def rows2 : List (Nat × (Fields → Except DecErr Instr)) :=
  [(0x031, decXorbI),
   (0x033, decAndnI),
   (0x03B, decCmpI),
   (0x040, decMovi),
   (0x041, decAddpc),
   (0x050, decIdx),
   (0x051, decRngget),
   (0x052, decFormget),
   (0x053, decExpand),
   (0x054, decRerange),
   (0x055, decDead),
   (0x080, decBra),
   (0x081, decBrx),
   (0x082, decCall),
   (0x083, decCallx),
   (0x084, decRet),
   (0x085, decExit),
   (0x086, decNop),
   (0x090, decPand),
   (0x091, decPor)]

/-- Rows 60 to 79 of the opcode map (R57). -/
def rows3 : List (Nat × (Fields → Except DecErr Instr)) :=
  [(0x092, decPxor),
   (0x093, decPnot),
   (0x094, decPmov),
   (0x0A0, decShfl),
   (0x0A1, decVote),
   (0x0A2, decElect),
   (0x0A3, decGred),
   (0x0A4, decGscan),
   (0x0C0, decFadd),
   (0x0C1, decFsub),
   (0x0C2, decFmul),
   (0x0C3, decFfma),
   (0x0C4, decFmin),
   (0x0C5, decFmax),
   (0x0C6, decFcmp),
   (0x0C7, decFrcp),
   (0x0C8, decFrsq),
   (0x0C9, decFsqrt),
   (0x0CA, decFexp2),
   (0x0CB, decFlog2)]

/-- Rows 80 to 99 of the opcode map (R57). -/
def rows4 : List (Nat × (Fields → Except DecErr Instr)) :=
  [(0x0CC, decFsin),
   (0x0CD, decFcos),
   (0x0E0, decFcvt),
   (0x0E1, decF2i),
   (0x0E2, decI2f),
   (0x0E3, decFrnd),
   (0x0E4, decFclass),
   (0x0F0, decHadd2),
   (0x0F1, decHmul2),
   (0x0F2, decHfma2),
   (0x100, decPlsplit),
   (0x101, decPljoin),
   (0x140, decLd),
   (0x141, decSt),
   (0x142, decLdp),
   (0x143, decStp),
   (0x144, decAtoms),
   (0x150, decGather),
   (0x151, decScatter),
   (0x152, decGatom)]

/-- Rows 100 to 119 of the opcode map (R57). -/
def rows5 : List (Nat × (Fields → Except DecErr Instr)) :=
  [(0x153, decAmaxrd),
   (0x160, decCopy),
   (0x161, decCopyw),
   (0x162, decRload),
   (0x163, decRemld),
   (0x170, decQpeek),
   (0x171, decQstat),
   (0x172, decQbind),
   (0x1C0, decBar),
   (0x1C1, decBararr),
   (0x1C2, decBarwait),
   (0x1C8, decFence),
   (0x1C9, decAliasfence),
   (0x1CA, decQfence),
   (0x1D0, decTwait),
   (0x1D1, decTfirst),
   (0x1D2, decBcwait),
   (0x1D3, decYield),
   (0x1E0, decTask),
   (0x1E1, decTaskwait)]

/-- Rows 120 to 139 of the opcode map (R57). -/
def rows6 : List (Nat × (Fields → Except DecErr Instr)) :=
  [(0x1E2, decTinfo),
   (0x1F0, decStepwait),
   (0x200, decMma),
   (0x201, decMmasp),
   (0x208, decScacc),
   (0x209, decBscale),
   (0x210, decAccz),
   (0x211, decAccld),
   (0x212, decAccst),
   (0x213, decAccmov),
   (0x214, decAccpeek),
   (0x215, decAccpatch),
   (0x216, decAccnorm),
   (0x220, decMcoef),
   (0x221, decMpoly),
   (0x222, decMiter),
   (0x223, decMloopget),
   (0x224, decMloopset),
   (0x230, decShpset),
   (0x231, decShpget)]

/-- Rows 140 to 157 of the opcode map (R57). -/
def rows7 : List (Nat × (Fields → Except DecErr Instr)) :=
  [(0x232, decShpfence),
   (0x238, decRred),
   (0x239, decRnorm),
   (0x240, decQenc),
   (0x241, decQdec),
   (0x242, decKqsc),
   (0x280, decTrap),
   (0x281, decBkpt),
   (0x282, decTret),
   (0x288, decWpset),
   (0x289, decWpclr),
   (0x290, decSysrd),
   (0x291, decSyswr),
   (0x298, decTraprd),
   (0x299, decTrapwr),
   (0x3C0, (decHint .pref)),
   (0x3C8, (decHint .phase)),
   (0x3C9, (decHint .phend))]

/-- The opcode map: opcode number and the row's decoder (R57). -/
def rows : List (Nat × (Fields → Except DecErr Instr)) :=
  rows0 ++ rows1 ++ rows2 ++ rows3 ++ rows4 ++ rows5 ++ rows6 ++ rows7

/-- The row of an opcode. -/
def rowOf (op : BitVec 10) : List (Nat × (Fields → Except DecErr Instr)) → Option (Fields → Except DecErr Instr)
  | [] => none
  | (n, d) :: rest => if n == op.toNat then some d else rowOf op rest

/-- The hint space (R55). -/
def isHintOp (op : BitVec 10) : Bool := decide (0x3C0 ≤ op.toNat)

/-- Decode a compute word: checks 3 to 5 of R54. A word whose opcode R57 does not name is the
`unassignedOpcode` of the table. -/
def decode (w : IWord) : Except DecErr Instr :=
  let f := Fields.unpack w
  match rowOf f.op rows with
  | none => .ok (.unassignedOpcode w)
  | some d => if isHintOp f.op || ctlOk f.k then d f else .error .reserved

/-- The fields that encode an instruction of the compute table. -/
def encodeFields : Instr → Option Fields
  | .add k ty d a b => some ⟨k, 0x001#10, d.code, a.code, b.code, 0#8, 0#2 ++ ty.code, (0#20)⟩
  | .addI k ty d a imm => some ⟨k, 0x021#10, d.code, a.code, (imm.extractLsb' 28 8), (imm.extractLsb' 20 8), 0#2 ++ ty.code, (imm.extractLsb' 0 20)⟩
  | .sub k ty d a b => some ⟨k, 0x002#10, d.code, a.code, b.code, 0#8, 0#2 ++ ty.code, (0#20)⟩
  | .subI k ty d a imm => some ⟨k, 0x022#10, d.code, a.code, (imm.extractLsb' 28 8), (imm.extractLsb' 20 8), 0#2 ++ ty.code, (imm.extractLsb' 0 20)⟩
  | .mul k ty d a b => some ⟨k, 0x003#10, d.code, a.code, b.code, 0#8, 0#2 ++ ty.code, (0#20)⟩
  | .mulI k ty d a imm => some ⟨k, 0x023#10, d.code, a.code, (imm.extractLsb' 28 8), (imm.extractLsb' 20 8), 0#2 ++ ty.code, (imm.extractLsb' 0 20)⟩
  | .mulhi k ty d a b => some ⟨k, 0x004#10, d.code, a.code, b.code, 0#8, 0#2 ++ ty.code, (0#20)⟩
  | .mulhiI k ty d a imm => some ⟨k, 0x024#10, d.code, a.code, (imm.extractLsb' 28 8), (imm.extractLsb' 20 8), 0#2 ++ ty.code, (imm.extractLsb' 0 20)⟩
  | .div k ty d a b => some ⟨k, 0x006#10, d.code, a.code, b.code, 0#8, 0#2 ++ ty.code, (0#20)⟩
  | .divI k ty d a imm => some ⟨k, 0x026#10, d.code, a.code, (imm.extractLsb' 28 8), (imm.extractLsb' 20 8), 0#2 ++ ty.code, (imm.extractLsb' 0 20)⟩
  | .rem k ty d a b => some ⟨k, 0x007#10, d.code, a.code, b.code, 0#8, 0#2 ++ ty.code, (0#20)⟩
  | .remI k ty d a imm => some ⟨k, 0x027#10, d.code, a.code, (imm.extractLsb' 28 8), (imm.extractLsb' 20 8), 0#2 ++ ty.code, (imm.extractLsb' 0 20)⟩
  | .min k ty d a b => some ⟨k, 0x00A#10, d.code, a.code, b.code, 0#8, 0#2 ++ ty.code, (0#20)⟩
  | .minI k ty d a imm => some ⟨k, 0x02A#10, d.code, a.code, (imm.extractLsb' 28 8), (imm.extractLsb' 20 8), 0#2 ++ ty.code, (imm.extractLsb' 0 20)⟩
  | .max k ty d a b => some ⟨k, 0x00B#10, d.code, a.code, b.code, 0#8, 0#2 ++ ty.code, (0#20)⟩
  | .maxI k ty d a imm => some ⟨k, 0x02B#10, d.code, a.code, (imm.extractLsb' 28 8), (imm.extractLsb' 20 8), 0#2 ++ ty.code, (imm.extractLsb' 0 20)⟩
  | .shl k ty d a b => some ⟨k, 0x00C#10, d.code, a.code, b.code, 0#8, 0#2 ++ ty.code, (0#20)⟩
  | .shlI k ty d a imm => some ⟨k, 0x02C#10, d.code, a.code, (imm.extractLsb' 28 8), (imm.extractLsb' 20 8), 0#2 ++ ty.code, (imm.extractLsb' 0 20)⟩
  | .shr k ty d a b => some ⟨k, 0x00D#10, d.code, a.code, b.code, 0#8, 0#2 ++ ty.code, (0#20)⟩
  | .shrI k ty d a imm => some ⟨k, 0x02D#10, d.code, a.code, (imm.extractLsb' 28 8), (imm.extractLsb' 20 8), 0#2 ++ ty.code, (imm.extractLsb' 0 20)⟩
  | .sar k ty d a b => some ⟨k, 0x00E#10, d.code, a.code, b.code, 0#8, 0#2 ++ ty.code, (0#20)⟩
  | .sarI k ty d a imm => some ⟨k, 0x02E#10, d.code, a.code, (imm.extractLsb' 28 8), (imm.extractLsb' 20 8), 0#2 ++ ty.code, (imm.extractLsb' 0 20)⟩
  | .andb k ty d a b => some ⟨k, 0x00F#10, d.code, a.code, b.code, 0#8, 0#2 ++ ty.code, (0#20)⟩
  | .andbI k ty d a imm => some ⟨k, 0x02F#10, d.code, a.code, (imm.extractLsb' 28 8), (imm.extractLsb' 20 8), 0#2 ++ ty.code, (imm.extractLsb' 0 20)⟩
  | .orb k ty d a b => some ⟨k, 0x010#10, d.code, a.code, b.code, 0#8, 0#2 ++ ty.code, (0#20)⟩
  | .orbI k ty d a imm => some ⟨k, 0x030#10, d.code, a.code, (imm.extractLsb' 28 8), (imm.extractLsb' 20 8), 0#2 ++ ty.code, (imm.extractLsb' 0 20)⟩
  | .xorb k ty d a b => some ⟨k, 0x011#10, d.code, a.code, b.code, 0#8, 0#2 ++ ty.code, (0#20)⟩
  | .xorbI k ty d a imm => some ⟨k, 0x031#10, d.code, a.code, (imm.extractLsb' 28 8), (imm.extractLsb' 20 8), 0#2 ++ ty.code, (imm.extractLsb' 0 20)⟩
  | .andn k ty d a b => some ⟨k, 0x013#10, d.code, a.code, b.code, 0#8, 0#2 ++ ty.code, (0#20)⟩
  | .andnI k ty d a imm => some ⟨k, 0x033#10, d.code, a.code, (imm.extractLsb' 28 8), (imm.extractLsb' 20 8), 0#2 ++ ty.code, (imm.extractLsb' 0 20)⟩
  | .mad k ty d a b c => some ⟨k, 0x005#10, d.code, a.code, b.code, c.code, 0#2 ++ ty.code, (0#20)⟩
  | .neg k ty d a => some ⟨k, 0x008#10, d.code, a.code, 0#8, 0#8, 0#2 ++ ty.code, (0#20)⟩
  | .abs k ty d a => some ⟨k, 0x009#10, d.code, a.code, 0#8, 0#8, 0#2 ++ ty.code, (0#20)⟩
  | .notb k ty d a => some ⟨k, 0x012#10, d.code, a.code, 0#8, 0#8, 0#2 ++ ty.code, (0#20)⟩
  | .clz k ty d a => some ⟨k, 0x014#10, d.code, a.code, 0#8, 0#8, 0#2 ++ ty.code, (0#20)⟩
  | .popc k ty d a => some ⟨k, 0x015#10, d.code, a.code, 0#8, 0#8, 0#2 ++ ty.code, (0#20)⟩
  | .brev k ty d a => some ⟨k, 0x016#10, d.code, a.code, 0#8, 0#8, 0#2 ++ ty.code, (0#20)⟩
  | .mov k ty d a => some ⟨k, 0x01A#10, d.code, a.code, 0#8, 0#8, 0#2 ++ ty.code, (0#20)⟩
  | .bfx k ty d a pos len => some ⟨k, 0x017#10, d.code, a.code, 0#8, 0#8, 0#2 ++ ty.code, (0#7 ++ len ++ pos)⟩
  | .bfi k ty d a b pos len => some ⟨k, 0x018#10, d.code, a.code, b.code, 0#8, 0#2 ++ ty.code, (0#7 ++ len ++ pos)⟩
  | .sel k ty d a b c => some ⟨k, 0x019#10, d.code, a.code, b.code, c.code, 0#2 ++ ty.code, (0#20)⟩
  | .cmp k cc ty d a b => some ⟨k, 0x01B#10, d.code, a.code, b.code, 0#8, cc.code ++ ty.code, (0#20)⟩
  | .cmpI k cc ty d a imm => some ⟨k, 0x03B#10, d.code, a.code, (imm.extractLsb' 28 8), (imm.extractLsb' 20 8), cc.code ++ ty.code, (imm.extractLsb' 0 20)⟩
  | .movi k ty d imm => some ⟨k, 0x040#10, d.code, 0#8, (imm.extractLsb' 28 8), (imm.extractLsb' 20 8), 0#2 ++ ty.code, (imm.extractLsb' 0 20)⟩
  | .addpc k d disp => some ⟨k, 0x041#10, d.code, 0#8, 0#8, 0#8, 0#6, (disp)⟩
  | .idx k d dim => some ⟨k, 0x050#10, d.code, 0#8, 0#8, 0#8, dim ++ 0#4, (0#20)⟩
  | .rngget k d item => some ⟨k, 0x051#10, d.code, 0#8, 0#8, 0#8, 0#6, (0#18 ++ item)⟩
  | .formget k d a item => some ⟨k, 0x052#10, d.code, a.code, 0#8, 0#8, 0#6, (0#18 ++ item)⟩
  | .expand k => some ⟨k, 0x053#10, 0#8, 0#8, 0#8, 0#8, 0#6, (0#20)⟩
  | .rerange k => some ⟨k, 0x054#10, 0#8, 0#8, 0#8, 0#8, 0#6, (0#20)⟩
  | .dead k a cnt => some ⟨k, 0x055#10, 0#8, a.code, 0#8, 0#8, cnt, (0#20)⟩
  | .bra k disp => some ⟨k, 0x080#10, 0#8, 0#8, 0#8, 0#8, 0#6, (disp)⟩
  | .brx k a b n => some ⟨k, 0x081#10, 0#8, a.code, b.code, 0#8, 0#6, (0#14 ++ n)⟩
  | .call k d disp => some ⟨k, 0x082#10, d.code, 0#8, 0#8, 0#8, 0#6, (disp)⟩
  | .callx k d a => some ⟨k, 0x083#10, d.code, a.code, 0#8, 0#8, 0#6, (0#20)⟩
  | .ret k a => some ⟨k, 0x084#10, 0#8, a.code, 0#8, 0#8, 0#6, (0#20)⟩
  | .exit k => some ⟨k, 0x085#10, 0#8, 0#8, 0#8, 0#8, 0#6, (0#20)⟩
  | .nop k => some ⟨k, 0x086#10, 0#8, 0#8, 0#8, 0#8, 0#6, (0#20)⟩
  | .pand k d a b na nb => some ⟨k, 0x090#10, d.code, a.code, b.code, 0#8, (BitVec.ofBool nb) ++ (BitVec.ofBool na) ++ 0#4, (0#20)⟩
  | .por k d a b na nb => some ⟨k, 0x091#10, d.code, a.code, b.code, 0#8, (BitVec.ofBool nb) ++ (BitVec.ofBool na) ++ 0#4, (0#20)⟩
  | .pxor k d a b na nb => some ⟨k, 0x092#10, d.code, a.code, b.code, 0#8, (BitVec.ofBool nb) ++ (BitVec.ofBool na) ++ 0#4, (0#20)⟩
  | .pnot k d a => some ⟨k, 0x093#10, d.code, a.code, 0#8, 0#8, 0#6, (0#20)⟩
  | .pmov k d a => some ⟨k, 0x094#10, d.code, a.code, 0#8, 0#8, 0#6, (0#20)⟩
  | .shfl k ty d a b mode => some ⟨k, 0x0A0#10, d.code, a.code, b.code, 0#8, mode ++ ty.code, (0#20)⟩
  | .vote k m d a => some ⟨k, 0x0A1#10, d.code, a.code, 0#8, 0#8, m.code, (0#20)⟩
  | .elect k d => some ⟨k, 0x0A2#10, d.code, 0#8, 0#8, 0#8, 0#6, (0#20)⟩
  | .gred k op ty d a => some ⟨k, 0x0A3#10, d.code, a.code, 0#8, 0#8, 0#2 ++ ty.code, (0#17 ++ op.code)⟩
  | .gscan k op ty excl d a => some ⟨k, 0x0A4#10, d.code, a.code, 0#8, 0#8, 0#1 ++ (BitVec.ofBool excl) ++ ty.code, (0#17 ++ op.code)⟩
  | .fadd k ty rm sat d a b => some ⟨k, 0x0C0#10, d.code, a.code, b.code, 0#8, 0#2 ++ ty.code, (0#16 ++ (BitVec.ofBool sat) ++ rm.code)⟩
  | .fsub k ty rm sat d a b => some ⟨k, 0x0C1#10, d.code, a.code, b.code, 0#8, 0#2 ++ ty.code, (0#16 ++ (BitVec.ofBool sat) ++ rm.code)⟩
  | .fmul k ty rm sat d a b => some ⟨k, 0x0C2#10, d.code, a.code, b.code, 0#8, 0#2 ++ ty.code, (0#16 ++ (BitVec.ofBool sat) ++ rm.code)⟩
  | .ffma k ty rm sat d a b c => some ⟨k, 0x0C3#10, d.code, a.code, b.code, c.code, 0#2 ++ ty.code, (0#16 ++ (BitVec.ofBool sat) ++ rm.code)⟩
  | .fmin k ty d a b => some ⟨k, 0x0C4#10, d.code, a.code, b.code, 0#8, 0#2 ++ ty.code, (0#20)⟩
  | .fmax k ty d a b => some ⟨k, 0x0C5#10, d.code, a.code, b.code, 0#8, 0#2 ++ ty.code, (0#20)⟩
  | .fcmp k cc ty d a b => some ⟨k, 0x0C6#10, d.code, a.code, b.code, 0#8, 0#2 ++ ty.code, (0#17 ++ cc.code)⟩
  | .frcp k d a => some ⟨k, 0x0C7#10, d.code, a.code, 0#8, 0#8, 0#2 ++ Ty.f32.code, (0#20)⟩
  | .frsq k d a => some ⟨k, 0x0C8#10, d.code, a.code, 0#8, 0#8, 0#2 ++ Ty.f32.code, (0#20)⟩
  | .fsqrt k d a => some ⟨k, 0x0C9#10, d.code, a.code, 0#8, 0#8, 0#2 ++ Ty.f32.code, (0#20)⟩
  | .fexp2 k d a => some ⟨k, 0x0CA#10, d.code, a.code, 0#8, 0#8, 0#2 ++ Ty.f32.code, (0#20)⟩
  | .flog2 k d a => some ⟨k, 0x0CB#10, d.code, a.code, 0#8, 0#8, 0#2 ++ Ty.f32.code, (0#20)⟩
  | .fsin k d a => some ⟨k, 0x0CC#10, d.code, a.code, 0#8, 0#8, 0#2 ++ Ty.f32.code, (0#20)⟩
  | .fcos k d a => some ⟨k, 0x0CD#10, d.code, a.code, 0#8, 0#8, 0#2 ++ Ty.f32.code, (0#20)⟩
  | .fcvt k dt sty rm sat d a => some ⟨k, 0x0E0#10, d.code, a.code, 0#8, 0#8, 0#2 ++ dt.code, (0#12 ++ sty.code ++ (BitVec.ofBool sat) ++ rm.code)⟩
  | .f2i k it ft rm d a => some ⟨k, 0x0E1#10, d.code, a.code, 0#8, 0#8, 0#2 ++ it.code, (0#12 ++ ft.code ++ 0#1 ++ rm.code)⟩
  | .i2f k ft it rm sat d a => some ⟨k, 0x0E2#10, d.code, a.code, 0#8, 0#8, 0#2 ++ ft.code, (0#12 ++ it.code ++ (BitVec.ofBool sat) ++ rm.code)⟩
  | .frnd k ty rm d a => some ⟨k, 0x0E3#10, d.code, a.code, 0#8, 0#8, 0#2 ++ ty.code, (0#17 ++ rm.code)⟩
  | .fclass k ty d a => some ⟨k, 0x0E4#10, d.code, a.code, 0#8, 0#8, 0#2 ++ ty.code, (0#20)⟩
  | .hadd2 k ty rm sat d a b => some ⟨k, 0x0F0#10, d.code, a.code, b.code, 0#8, 0#2 ++ ty.code, (0#16 ++ (BitVec.ofBool sat) ++ rm.code)⟩
  | .hmul2 k ty rm sat d a b => some ⟨k, 0x0F1#10, d.code, a.code, b.code, 0#8, 0#2 ++ ty.code, (0#16 ++ (BitVec.ofBool sat) ++ rm.code)⟩
  | .hfma2 k ty rm sat d a b c => some ⟨k, 0x0F2#10, d.code, a.code, b.code, c.code, 0#2 ++ ty.code, (0#16 ++ (BitVec.ofBool sat) ++ rm.code)⟩
  | .plsplit k ty d a => some ⟨k, 0x100#10, d.code, a.code, 0#8, 0#8, 0#2 ++ ty.code, (0#20)⟩
  | .pljoin k ty d a b => some ⟨k, 0x101#10, d.code, a.code, b.code, 0#8, 0#2 ++ ty.code, (0#20)⟩
  | .ld k ty d a m => some ⟨k, 0x140#10, d.code, a.code, 0#8, 0#8, 0#2 ++ ty.code, (0#3 ++ m.code)⟩
  | .st k ty a b m => some ⟨k, 0x141#10, 0#8, a.code, b.code, 0#8, 0#2 ++ ty.code, (0#3 ++ m.code)⟩
  | .ldp k d a m => some ⟨k, 0x142#10, d.code, a.code, 0#8, 0#8, 0#2 ++ Ty.b32.code, (0#3 ++ m.code)⟩
  | .stp k a b m => some ⟨k, 0x143#10, 0#8, a.code, b.code, 0#8, 0#2 ++ Ty.b32.code, (0#3 ++ m.code)⟩
  | .atoms k op ty d a b c scope off => some ⟨k, 0x144#10, d.code, a.code, b.code, c.code, (atomCode op ty), (scope ++ 0#5 ++ off)⟩
  | .gather k ty d a b sh m => some ⟨k, 0x150#10, d.code, a.code, b.code, (0#3 ++ sh), 0#2 ++ ty.code, (0#3 ++ m.code)⟩
  | .scatter k ty d a b sh m => some ⟨k, 0x151#10, d.code, a.code, b.code, (0#3 ++ sh), 0#2 ++ ty.code, (0#3 ++ m.code)⟩
  | .gatom k op ty d a b c scope m => some ⟨k, 0x152#10, d.code, a.code, b.code, c.code, (atomCode op ty), (scope ++ m.code)⟩
  | .amaxrd k ty d a scope m => some ⟨k, 0x153#10, d.code, a.code, 0#8, 0#8, 0#2 ++ ty.code, (scope ++ m.code)⟩
  | .copy k a b c tag qord off => some ⟨k, 0x160#10, 0#8, a.code, b.code, c.code, tag, (0#6 ++ (BitVec.ofBool qord) ++ 0#1 ++ off)⟩
  | .copyw k a b c tag qord off => some ⟨k, 0x161#10, 0#8, a.code, b.code, c.code, tag, (0#6 ++ (BitVec.ofBool qord) ++ 0#1 ++ off)⟩
  | .rload k a b c tag qord off => some ⟨k, 0x162#10, 0#8, a.code, b.code, c.code, tag, (0#6 ++ (BitVec.ofBool qord) ++ 0#1 ++ off)⟩
  | .remld k ty d a coord cq => some ⟨k, 0x163#10, d.code, a.code, 0#8, 0#8, 0#2 ++ ty.code, (0#6 ++ cq ++ coord)⟩
  | .qpeek k d a pop => some ⟨k, 0x170#10, d.code, a.code, 0#8, 0#8, 0#1 ++ (BitVec.ofBool pop) ++ 0#4, (0#20)⟩
  | .qstat k d a => some ⟨k, 0x171#10, d.code, a.code, 0#8, 0#8, 0#6, (0#20)⟩
  | .qbind k a mode => some ⟨k, 0x172#10, 0xFF#8, a.code, 0#8, 0#8, mode ++ 0#4, (0#20)⟩
  | .bar k n scope => some ⟨k, 0x1C0#10, 0#8, 0#8, 0#8, 0#8, 0#6, (0#14 ++ scope ++ n)⟩
  | .bararr k d n scope => some ⟨k, 0x1C1#10, d.code, 0#8, 0#8, 0#8, 0#6, (0#14 ++ scope ++ n)⟩
  | .barwait k a n => some ⟨k, 0x1C2#10, 0#8, a.code, 0#8, 0#8, 0#6, (0#17 ++ n)⟩
  | .fence k kind scope => some ⟨k, 0x1C8#10, 0#8, 0#8, 0#8, 0#8, kind ++ 0#4, (scope ++ 0#17)⟩
  | .aliasfence k scope => some ⟨k, 0x1C9#10, 0#8, 0#8, 0#8, 0#8, 0#6, (scope ++ 0#17)⟩
  | .qfence k scope => some ⟨k, 0x1CA#10, 0#8, 0#8, 0#8, 0#8, 0#6, (scope ++ 0#17)⟩
  | .twait k tag => some ⟨k, 0x1D0#10, 0#8, 0#8, 0#8, 0#8, 0#6, (0#14 ++ tag)⟩
  | .tfirst k d a => some ⟨k, 0x1D1#10, d.code, a.code, 0#8, 0#8, 0#6, (0#20)⟩
  | .bcwait k a b => some ⟨k, 0x1D2#10, 0#8, a.code, b.code, 0#8, 0#6, (0#20)⟩
  | .yield k => some ⟨k, 0x1D3#10, 0#8, 0#8, 0#8, 0#8, 0#6, (0#20)⟩
  | .task k d a => some ⟨k, 0x1E0#10, d.code, a.code, 0#8, 0#8, 0#6, (0#20)⟩
  | .taskwait k d a all => some ⟨k, 0x1E1#10, d.code, a.code, 0#8, 0#8, 0#5 ++ (BitVec.ofBool all), (0#20)⟩
  | .tinfo k d item => some ⟨k, 0x1E2#10, d.code, 0#8, 0#8, 0#8, 0#6, (0#15 ++ item)⟩
  | .stepwait k d => some ⟨k, 0x1F0#10, d.code, 0#8, 0#8, 0#8, 0#6, (0#20)⟩
  | .mma k aty bty d a b c role acc remb off => some ⟨k, 0x200#10, d.code, a.code, b.code, c.code, bty ++ aty.code, (role ++ (BitVec.ofBool acc) ++ (BitVec.ofBool remb) ++ 0#4 ++ off)⟩
  | .mmasp k ty d a b c role acc off => some ⟨k, 0x201#10, d.code, a.code, b.code, c.code, 0#2 ++ ty.code, (role ++ (BitVec.ofBool acc) ++ 0#1 ++ 0#4 ++ off)⟩
  | .scacc k set d a b => some ⟨k, 0x208#10, d.code, a.code, b.code, 0#8, 0#1 ++ (BitVec.ofBool set) ++ 0#4, (0#20)⟩
  | .bscale k hi d a => some ⟨k, 0x209#10, d.code, a.code, 0#8, 0#8, 0#1 ++ (BitVec.ofBool hi) ++ 0#4, (0#20)⟩
  | .accz k d => some ⟨k, 0x210#10, d.code, 0#8, 0#8, 0#8, 0#6, (0#20)⟩
  | .accld k ty d a c off => some ⟨k, 0x211#10, d.code, a.code, 0#8, c.code, 0#2 ++ ty.code, (0#8 ++ off)⟩
  | .accst k ty a b c off => some ⟨k, 0x212#10, 0#8, a.code, b.code, c.code, 0#2 ++ ty.code, (0#8 ++ off)⟩
  | .accmov k tr d a => some ⟨k, 0x213#10, d.code, a.code, 0#8, 0#8, 0#1 ++ (BitVec.ofBool tr) ++ 0#4, (0#20)⟩
  | .accpeek k d a b => some ⟨k, 0x214#10, d.code, a.code, b.code, 0#8, 0#6, (0#20)⟩
  | .accpatch k op d a b => some ⟨k, 0x215#10, d.code, a.code, b.code, 0#8, op ++ 0#4, (0#20)⟩
  | .accnorm k mode size d a b => some ⟨k, 0x216#10, d.code, a.code, b.code, 0#8, 0#6, (0#16 ++ size ++ mode)⟩
  | .mcoef k rd d a => some ⟨k, 0x220#10, d.code, a.code, 0#8, 0#8, 0#1 ++ (BitVec.ofBool rd) ++ 0#4, (0#20)⟩
  | .mpoly k size deg d a b => some ⟨k, 0x221#10, d.code, a.code, b.code, 0#8, 0#6, (0#15 ++ deg ++ size)⟩
  | .miter k size cap d a b c => some ⟨k, 0x222#10, d.code, a.code, b.code, c.code, 0#6, (0#10 ++ cap ++ size)⟩
  | .mloopget k d => some ⟨k, 0x223#10, d.code, 0#8, 0#8, 0#8, 0#6, (0#20)⟩
  | .mloopset k a => some ⟨k, 0x224#10, 0#8, a.code, 0#8, 0#8, 0#6, (0#20)⟩
  | .shpset k d a => some ⟨k, 0x230#10, d.code, a.code, 0#8, 0#8, 0#6, (0#20)⟩
  | .shpget k a b => some ⟨k, 0x231#10, 0#8, a.code, b.code, 0#8, 0#6, (0#20)⟩
  | .shpfence k => some ⟨k, 0x232#10, 0#8, 0#8, 0#8, 0#8, 0#6, (0#20)⟩
  | .rred k op win d a b c => some ⟨k, 0x238#10, d.code, a.code, b.code, c.code, 0#6, (0#16 ++ (BitVec.ofBool win) ++ op)⟩
  | .rnorm k mode fs a b c => some ⟨k, 0x239#10, 0#8, a.code, b.code, c.code, 0#6, (0#6 ++ mode ++ fs)⟩
  | .qenc k ty rm sat d a b => some ⟨k, 0x240#10, d.code, a.code, b.code, 0#8, 0#2 ++ ty.code, (0#16 ++ (BitVec.ofBool sat) ++ rm.code)⟩
  | .qdec k ty d a b => some ⟨k, 0x241#10, d.code, a.code, b.code, 0#8, 0#2 ++ ty.code, (0#20)⟩
  | .kqsc k d a blk => some ⟨k, 0x242#10, d.code, a.code, 0#8, 0#8, 0#2 ++ Ty.f32.code, (0#18 ++ blk)⟩
  | .trap k n bind => some ⟨k, 0x280#10, 0#8, 0#8, 0#8, 0#8, 0#6, ((BitVec.ofBool bind) ++ 0#3 ++ n)⟩
  | .bkpt k n => some ⟨k, 0x281#10, 0#8, 0#8, 0#8, 0#8, 0#6, (0#4 ++ n)⟩
  | .tret k d action => some ⟨k, 0x282#10, d.code, 0#8, 0#8, 0#8, action ++ 0#4, (0#20)⟩
  | .wpset k n a => some ⟨k, 0x288#10, 0#8, a.code, 0#8, 0#8, 0#6, (0#17 ++ n)⟩
  | .wpclr k n => some ⟨k, 0x289#10, 0#8, 0#8, 0#8, 0#8, 0#6, (0#17 ++ n)⟩
  | .sysrd k d num => some ⟨k, 0x290#10, d.code, 0#8, 0#8, 0#8, 0#6, (0#8 ++ num)⟩
  | .syswr k a num => some ⟨k, 0x291#10, 0#8, a.code, 0#8, 0#8, 0#6, (0#8 ++ num)⟩
  | .traprd k d a => some ⟨k, 0x298#10, d.code, a.code, 0#8, 0#8, 0#6, (0#20)⟩
  | .trapwr k a b => some ⟨k, 0x299#10, 0#8, a.code, b.code, 0#8, 0#6, (0#20)⟩
  | .pref k f => some ⟨k, 0x3C0#10, f.dst, f.a, f.b, f.c, f.md, f.imm⟩
  | .phase k f => some ⟨k, 0x3C8#10, f.dst, f.a, f.b, f.c, f.md, f.imm⟩
  | .phend k f => some ⟨k, 0x3C9#10, f.dst, f.a, f.b, f.c, f.md, f.imm⟩
  | _ => none

/-! Pail words: RV32IM with Zicsr, the `pq.` extension and the compressed forms (R22, R222, R223) -/

/-- Immediate of an I-type word. -/
def rvImmI (w : BitVec 32) : BitVec 12 := w.extractLsb' 20 12

/-- Immediate of an S-type word. -/
def rvImmS (w : BitVec 32) : BitVec 12 := w.extractLsb' 25 7 ++ w.extractLsb' 7 5

/-- Offset of a B-type word. -/
def rvImmB (w : BitVec 32) : BitVec 32 :=
  (w.extractLsb' 31 1 ++ w.extractLsb' 7 1 ++ w.extractLsb' 25 6 ++ w.extractLsb' 8 4 ++ 0#1 : BitVec 13).signExtend 32

/-- Offset of a J-type word. -/
def rvImmJ (w : BitVec 32) : BitVec 32 :=
  (w.extractLsb' 31 1 ++ w.extractLsb' 12 8 ++ w.extractLsb' 20 1 ++ w.extractLsb' 21 10 ++ 0#1 : BitVec 21).signExtend 32

/-- The custom-0 words (R223); none takes the illegal-instruction exception. -/
def decodePq (w : BitVec 32) : Option Instr :=
  let q := w.extractLsb' 20 5
  let rs := w.extractLsb' 15 5
  let rd := w.extractLsb' 7 5
  if w.extractLsb' 25 7 == 0#7 && decide (q.toNat < 16) then
    match (w.extractLsb' 12 3).toNat with
    | 0 => if rd == 0#5 then some (.pqPush q rs) else none
    | 1 => if rs == 0#5 then some (.pqPop q rd) else none
    | 2 => if rd == 0#5 then some (.pqRowin q rs) else none
    | 3 => if rd == 0#5 then some (.pqRowout q rs) else none
    | 4 => if rs == 0#5 then some (.pqStat q rd) else none
    | _ => none
  else none

/-- Register-register operations of RV32I and M. -/
def decodeRvOp (f7 : BitVec 7) (f3 : BitVec 3) : Option RvOp :=
  match f7.toNat, f3.toNat with
  | 0, 0 => some .add | 0, 1 => some .sll | 0, 2 => some .slt | 0, 3 => some .sltu
  | 0, 4 => some .xor | 0, 5 => some .srl | 0, 6 => some .or | 0, 7 => some .and
  | 32, 0 => some .sub | 32, 5 => some .sra
  | 1, 0 => some .mul | 1, 1 => some .mulh | 1, 2 => some .mulhsu | 1, 3 => some .mulhu
  | 1, 4 => some .div | 1, 5 => some .divu | 1, 6 => some .rem | 1, 7 => some .remu
  | _, _ => none

/-- Register-immediate operations of RV32I. -/
def decodeRvOpImm (w : BitVec 32) : Option RvInstr :=
  let rd := w.extractLsb' 7 5
  let rs := w.extractLsb' 15 5
  let i := (rvImmI w).signExtend 32
  let sh := (w.extractLsb' 20 5).setWidth 32
  let f7 := w.extractLsb' 25 7
  match (w.extractLsb' 12 3).toNat with
  | 0 => some (.opImm .add rd rs i)
  | 1 => if f7 == 0#7 then some (.opImm .sll rd rs sh) else none
  | 2 => some (.opImm .slt rd rs i)
  | 3 => some (.opImm .sltu rd rs i)
  | 4 => some (.opImm .xor rd rs i)
  | 5 =>
    if f7 == 0#7 then some (.opImm .srl rd rs sh)
    else if f7 == 32#7 then some (.opImm .sra rd rs sh) else none
  | 6 => some (.opImm .or rd rs i)
  | _ => some (.opImm .and rd rs i)

/-- SYSTEM words: ecall, ebreak and Zicsr. -/
def decodeRvSystem (w : BitVec 32) : Option Instr :=
  let rd := w.extractLsb' 7 5
  let rs := w.extractLsb' 15 5
  let n := w.extractLsb' 20 12
  let csr (op : RvCsr) (i : Bool) : Option Instr := some (.pailInstruction (.csr op i rd rs n) false)
  match (w.extractLsb' 12 3).toNat with
  | 0 =>
    if w == 0x00000073#32 then some (.pailStop .ecall)
    else if w == 0x00100073#32 then some (.pailStop .ebreak) else none
  | 1 => csr .rw false | 2 => csr .rs false | 3 => csr .rc false
  | 5 => csr .rw true | 6 => csr .rs true | 7 => csr .rc true
  | _ => none

/-- Decode a 32-bit Pail word; none takes the illegal-instruction exception. -/
def decodePail (w : BitVec 32) : Option Instr :=
  let rd := w.extractLsb' 7 5
  let rs1 := w.extractLsb' 15 5
  let rs2 := w.extractLsb' 20 5
  let f3 := (w.extractLsb' 12 3).toNat
  let p (i : RvInstr) : Option Instr := some (.pailInstruction i false)
  match (w.extractLsb' 0 7).toNat with
  | 0x0B => decodePq w
  | 0x37 => p (.lui rd (w.extractLsb' 12 20))
  | 0x17 => p (.auipc rd (w.extractLsb' 12 20))
  | 0x6F => p (.jal rd (rvImmJ w))
  | 0x67 => if f3 = 0 then p (.jalr rd rs1 (rvImmI w)) else none
  | 0x63 =>
    match f3 with
    | 0 => p (.branch .eq rs1 rs2 (rvImmB w)) | 1 => p (.branch .ne rs1 rs2 (rvImmB w))
    | 4 => p (.branch .lt rs1 rs2 (rvImmB w)) | 5 => p (.branch .ge rs1 rs2 (rvImmB w))
    | 6 => p (.branch .ltu rs1 rs2 (rvImmB w)) | 7 => p (.branch .geu rs1 rs2 (rvImmB w))
    | _ => none
  | 0x03 =>
    match f3 with
    | 0 => p (.load .b rd rs1 (rvImmI w)) | 1 => p (.load .h rd rs1 (rvImmI w))
    | 2 => p (.load .w rd rs1 (rvImmI w)) | 4 => p (.load .bu rd rs1 (rvImmI w))
    | 5 => p (.load .hu rd rs1 (rvImmI w))
    | _ => none
  | 0x23 =>
    match f3 with
    | 0 => p (.store .b rs1 rs2 (rvImmS w)) | 1 => p (.store .h rs1 rs2 (rvImmS w))
    | 2 => p (.store .w rs1 rs2 (rvImmS w))
    | _ => none
  | 0x13 => (decodeRvOpImm w).bind p
  | 0x33 => (decodeRvOp (w.extractLsb' 25 7) (w.extractLsb' 12 3)).bind fun op => p (.op op rd rs1 rs2)
  | 0x0F => if f3 = 0 then p .fence else none
  | 0x73 => decodeRvSystem w
  | _ => none

/-- A compressed register field. -/
def rvc3 (b : BitVec 3) : BitVec 5 := 1#2 ++ b

/-- Quadrant 0 of the compressed forms. -/
def decodeC0 (w : BitVec 16) : Option RvInstr :=
  let rdp := rvc3 (w.extractLsb' 2 3)
  let rsp := rvc3 (w.extractLsb' 7 3)
  let off : BitVec 12 := 0#5 ++ w.extractLsb' 5 1 ++ w.extractLsb' 10 3 ++ w.extractLsb' 6 1 ++ 0#2
  match (w.extractLsb' 13 3).toNat with
  | 0 =>
    let n : BitVec 10 := w.extractLsb' 7 4 ++ w.extractLsb' 11 2 ++ w.extractLsb' 5 1 ++ w.extractLsb' 6 1 ++ 0#2
    if n == 0#10 then none else some (.opImm .add rdp 2#5 (n.setWidth 32))
  | 2 => some (.load .w rdp rsp off)
  | 6 => some (.store .w rsp rdp off)
  | _ => none

/-- Jump offset of c.j and c.jal. -/
def rvcJ (w : BitVec 16) : BitVec 32 :=
  (w.extractLsb' 12 1 ++ w.extractLsb' 8 1 ++ w.extractLsb' 9 2 ++ w.extractLsb' 6 1 ++ w.extractLsb' 7 1 ++
    w.extractLsb' 2 1 ++ w.extractLsb' 11 1 ++ w.extractLsb' 3 3 ++ 0#1 : BitVec 12).signExtend 32

/-- Branch offset of c.beqz and c.bnez. -/
def rvcB (w : BitVec 16) : BitVec 32 :=
  (w.extractLsb' 12 1 ++ w.extractLsb' 5 2 ++ w.extractLsb' 2 1 ++ w.extractLsb' 10 2 ++ w.extractLsb' 3 2 ++ 0#1 :
    BitVec 9).signExtend 32

/-- Six-bit immediate of a compressed form. -/
def rvcImm6 (w : BitVec 16) : BitVec 6 := w.extractLsb' 12 1 ++ w.extractLsb' 2 5

/-- Quadrant 1, funct3 100: register arithmetic. -/
def decodeC1Arith (w : BitVec 16) : Option RvInstr :=
  let r := rvc3 (w.extractLsb' 7 3)
  let r2 := rvc3 (w.extractLsb' 2 3)
  let hi := w.extractLsb' 12 1 == 1#1
  let sh := (w.extractLsb' 2 5).setWidth 32
  match (w.extractLsb' 10 2).toNat with
  | 0 => if hi then none else some (.opImm .srl r r sh)
  | 1 => if hi then none else some (.opImm .sra r r sh)
  | 2 => some (.opImm .and r r ((rvcImm6 w).signExtend 32))
  | _ =>
    if hi then none
    else
      match (w.extractLsb' 5 2).toNat with
      | 0 => some (.op .sub r r r2) | 1 => some (.op .xor r r r2)
      | 2 => some (.op .or r r r2) | _ => some (.op .and r r r2)

/-- Quadrant 1 of the compressed forms. -/
def decodeC1 (w : BitVec 16) : Option RvInstr :=
  let rd := w.extractLsb' 7 5
  let i := rvcImm6 w
  match (w.extractLsb' 13 3).toNat with
  | 0 => some (.opImm .add rd rd (i.signExtend 32))
  | 1 => some (.jal 1#5 (rvcJ w))
  | 2 => some (.opImm .add rd 0#5 (i.signExtend 32))
  | 3 =>
    if i == 0#6 then none
    else if rd == 2#5 then
      let n : BitVec 10 := w.extractLsb' 12 1 ++ w.extractLsb' 3 2 ++ w.extractLsb' 5 1 ++ w.extractLsb' 2 1 ++ w.extractLsb' 6 1 ++ 0#4
      some (.opImm .add 2#5 2#5 (n.signExtend 32))
    else some (.lui rd (i.signExtend 20))
  | 4 => decodeC1Arith w
  | 5 => some (.jal 0#5 (rvcJ w))
  | 6 => some (.branch .eq (rvc3 (w.extractLsb' 7 3)) 0#5 (rvcB w))
  | _ => some (.branch .ne (rvc3 (w.extractLsb' 7 3)) 0#5 (rvcB w))

/-- Quadrant 2 of the compressed forms; c.ebreak is the `pailStop` of the table. -/
def decodeC2 (w : BitVec 16) : Option Instr :=
  let rd := w.extractLsb' 7 5
  let rs2 := w.extractLsb' 2 5
  let hi := w.extractLsb' 12 1 == 1#1
  let p (i : RvInstr) : Option Instr := some (.pailInstruction i true)
  match (w.extractLsb' 13 3).toNat with
  | 0 => if hi then none else p (.opImm .sll rd rd (rs2.setWidth 32))
  | 2 =>
    if rd == 0#5 then none
    else p (.load .w rd 2#5 (0#4 ++ w.extractLsb' 2 2 ++ w.extractLsb' 12 1 ++ w.extractLsb' 4 3 ++ 0#2))
  | 4 =>
    if hi then
      if rs2 == 0#5 then (if rd == 0#5 then some (.pailStop .ebreak) else p (.jalr 1#5 rd 0#12))
      else p (.op .add rd rd rs2)
    else if rs2 == 0#5 then (if rd == 0#5 then none else p (.jalr 0#5 rd 0#12))
    else p (.op .add rd 0#5 rs2)
  | 6 => p (.store .w 2#5 rs2 (0#4 ++ w.extractLsb' 7 2 ++ w.extractLsb' 9 4 ++ 0#2))
  | _ => none

/-- Decode a 16-bit Pail word. -/
def decodeC (w : BitVec 16) : Option Instr :=
  match (w.extractLsb' 0 2).toNat with
  | 0 => (decodeC0 w).bind fun i => some (.pailInstruction i true)
  | 1 => (decodeC1 w).bind fun i => some (.pailInstruction i true)
  | 2 => decodeC2 w
  | _ => none

/-- R-type word. -/
def rvR (f7 : BitVec 7) (rs2 rs1 : BitVec 5) (f3 : BitVec 3) (rd : BitVec 5) (op : BitVec 7) : BitVec 32 :=
  f7 ++ rs2 ++ rs1 ++ f3 ++ rd ++ op

/-- I-type word. -/
def rvI (imm : BitVec 12) (rs1 : BitVec 5) (f3 : BitVec 3) (rd : BitVec 5) (op : BitVec 7) : BitVec 32 :=
  imm ++ rs1 ++ f3 ++ rd ++ op

/-- funct7 and funct3 of an operation. -/
def RvOp.code : RvOp → BitVec 7 × BitVec 3
  | .add => (0, 0) | .sub => (32, 0) | .sll => (0, 1) | .slt => (0, 2) | .sltu => (0, 3)
  | .xor => (0, 4) | .srl => (0, 5) | .sra => (32, 5) | .or => (0, 6) | .and => (0, 7)
  | .mul => (1, 0) | .mulh => (1, 1) | .mulhsu => (1, 2) | .mulhu => (1, 3)
  | .div => (1, 4) | .divu => (1, 5) | .rem => (1, 6) | .remu => (1, 7)

/-- funct3 of a branch. -/
def RvBr.code : RvBr → BitVec 3
  | .eq => 0 | .ne => 1 | .lt => 4 | .ge => 5 | .ltu => 6 | .geu => 7

/-- funct3 of a load or store. -/
def RvMem.code : RvMem → BitVec 3
  | .b => 0 | .h => 1 | .w => 2 | .bu => 4 | .hu => 5

/-- funct3 of a Zicsr form. -/
def RvCsr.code (op : RvCsr) (i : Bool) : BitVec 3 :=
  match op, i with
  | .rw, false => 1 | .rs, false => 2 | .rc, false => 3
  | .rw, true => 5 | .rs, true => 6 | .rc, true => 7

/-- The 32-bit word of a RISC-V instruction. -/
def RvInstr.encode : RvInstr → BitVec 32
  | .lui rd imm => imm ++ rd ++ 0x37#7
  | .auipc rd imm => imm ++ rd ++ 0x17#7
  | .jal rd o => o.extractLsb' 20 1 ++ o.extractLsb' 1 10 ++ o.extractLsb' 11 1 ++ o.extractLsb' 12 8 ++ rd ++ 0x6F#7
  | .jalr rd rs1 imm => rvI imm rs1 0 rd 0x67
  | .branch c rs1 rs2 o =>
    o.extractLsb' 12 1 ++ o.extractLsb' 5 6 ++ rs2 ++ rs1 ++ c.code ++ o.extractLsb' 1 4 ++ o.extractLsb' 11 1 ++ 0x63#7
  | .load wd rd rs1 imm => rvI imm rs1 wd.code rd 0x03
  | .store wd rs1 rs2 imm => imm.extractLsb' 5 7 ++ rs2 ++ rs1 ++ wd.code ++ imm.extractLsb' 0 5 ++ 0x23#7
  | .opImm f rd rs1 imm =>
    match f with
    | .sll | .srl | .sra => rvR f.code.1 (imm.extractLsb' 0 5) rs1 f.code.2 rd 0x13
    | _ => rvI (imm.extractLsb' 0 12) rs1 f.code.2 rd 0x13
  | .op f rd rs1 rs2 => rvR f.code.1 rs2 rs1 f.code.2 rd 0x33
  | .fence => 0x0FF0000F#32
  | .csr f i rd src num => rvI num src (f.code i) rd 0x73

/-- The 32-bit word of a Pail instruction (R222, R223). -/
def encodePail : Instr → Option (BitVec 32)
  | .pqPush q rs => some (rvR 0 q rs 0 0 0x0B)
  | .pqPop q rd => some (rvR 0 q 0 1 rd 0x0B)
  | .pqRowin q rs => some (rvR 0 q rs 2 0 0x0B)
  | .pqRowout q rs => some (rvR 0 q rs 3 0 0x0B)
  | .pqStat q rd => some (rvR 0 q 0 4 rd 0x0B)
  | .pailStop .ecall => some 0x00000073#32
  | .pailStop .ebreak => some 0x00100073#32
  | .pailInstruction i false => some i.encode
  | _ => none

/-- Low three bits of a register that the three-bit fields of a compressed form can name. -/
def rvcReg (r : BitVec 5) : Option (BitVec 3) := if rvcNamed r then some (r.extractLsb' 0 3) else none

/-- A compressed form with a 6-bit immediate and a register in bits 11 to 7. -/
def rvcI (f3 : BitVec 3) (imm : BitVec 6) (rd : BitVec 5) (quad : BitVec 2) : BitVec 16 :=
  f3 ++ imm.extractLsb' 5 1 ++ rd ++ imm.extractLsb' 0 5 ++ quad

/-- A compressed register form of quadrant 1. -/
def rvcA (hi : BitVec 1) (f2 : BitVec 2) (r : BitVec 3) (low : BitVec 5) : BitVec 16 := 4#3 ++ hi ++ f2 ++ r ++ low ++ 1#2

/-- The compressed word of an addition of an immediate: c.addi, c.li, c.addi16sp or c.addi4spn. -/
def encodeCAddi (rd rs1 : BitVec 5) (imm : BitVec 32) : Option (BitVec 16) :=
  if rs1 == rd && fitsSigned 6 imm then some (rvcI 0#3 (imm.setWidth 6) rd 1#2)
  else if rs1 == 0#5 && fitsSigned 6 imm then some (rvcI 2#3 (imm.setWidth 6) rd 1#2)
  else if rd == 2#5 && rs1 == 2#5 && fitsSigned 10 imm && imm.extractLsb' 0 4 == 0#4 then
    some (3#3 ++ imm.extractLsb' 9 1 ++ 2#5 ++ imm.extractLsb' 4 1 ++ imm.extractLsb' 6 1 ++ imm.extractLsb' 7 2 ++
      imm.extractLsb' 5 1 ++ 1#2)
  else if rs1 == 2#5 && imm.extractLsb' 10 22 == 0#22 && imm.extractLsb' 0 2 == 0#2 && imm != 0#32 then
    (rvcReg rd).map fun r => 0#3 ++ imm.extractLsb' 4 2 ++ imm.extractLsb' 6 4 ++ imm.extractLsb' 2 1 ++
      imm.extractLsb' 3 1 ++ r ++ 0#2
  else none

/-- Offset bits of c.lw and c.sw around their two registers. -/
def rvcMem (f3 : BitVec 3) (off : BitVec 12) (base data : BitVec 3) : BitVec 16 :=
  f3 ++ off.extractLsb' 3 3 ++ base ++ off.extractLsb' 2 1 ++ off.extractLsb' 6 1 ++ data ++ 0#2

/-- The compressed word of a jump. -/
def encodeCJ (f3 : BitVec 3) (o : BitVec 32) : Option (BitVec 16) :=
  if fitsSigned 12 o && o.extractLsb' 0 1 == 0#1 then
    some (f3 ++ o.extractLsb' 11 1 ++ o.extractLsb' 4 1 ++ o.extractLsb' 8 2 ++ o.extractLsb' 10 1 ++ o.extractLsb' 6 1 ++
      o.extractLsb' 7 1 ++ o.extractLsb' 1 3 ++ o.extractLsb' 5 1 ++ 1#2)
  else none

/-- The compressed word of a register operation. -/
def encodeCOp (f : RvOp) (rd rs1 rs2 : BitVec 5) : Option (BitVec 16) :=
  let arith (n : BitVec 2) : Option (BitVec 16) :=
    if rs1 == rd then (rvcReg rd).bind fun r => (rvcReg rs2).map fun r2 => rvcA 0#1 3#2 r (n ++ r2) else none
  match f with
  | .add =>
    if rs2 == 0#5 then none
    else if rs1 == rd then some (4#3 ++ 1#1 ++ rd ++ rs2 ++ 2#2)
    else if rs1 == 0#5 then some (4#3 ++ 0#1 ++ rd ++ rs2 ++ 2#2)
    else none
  | .sub => arith 0#2
  | .xor => arith 1#2
  | .or => arith 2#2
  | .and => arith 3#2
  | _ => none

/-- The compressed word of a Pail instruction that has one, the first of the forms that name it (R222). -/
def RvInstr.encodeC : RvInstr → Option (BitVec 16)
  | .opImm .add rd rs1 imm => encodeCAddi rd rs1 imm
  | .opImm .sll rd rs1 imm =>
    if rs1 == rd && imm.extractLsb' 5 27 == 0#27 then some (0#3 ++ 0#1 ++ rd ++ imm.extractLsb' 0 5 ++ 2#2) else none
  | .opImm .srl rd rs1 imm =>
    if rs1 == rd && imm.extractLsb' 5 27 == 0#27 then (rvcReg rd).map fun r => rvcA 0#1 0#2 r (imm.extractLsb' 0 5) else none
  | .opImm .sra rd rs1 imm =>
    if rs1 == rd && imm.extractLsb' 5 27 == 0#27 then (rvcReg rd).map fun r => rvcA 0#1 1#2 r (imm.extractLsb' 0 5) else none
  | .opImm .and rd rs1 imm =>
    if rs1 == rd && fitsSigned 6 imm then
      (rvcReg rd).map fun r => rvcA (imm.extractLsb' 5 1) 2#2 r (imm.extractLsb' 0 5) else none
  | .op f rd rs1 rs2 => encodeCOp f rd rs1 rs2
  | .lui rd imm =>
    if rd != 2#5 && imm != 0#20 && (imm.setWidth 6).signExtend 20 == imm then some (rvcI 3#3 (imm.setWidth 6) rd 1#2) else none
  | .jal rd o => if rd == 0#5 then encodeCJ 5#3 o else if rd == 1#5 then encodeCJ 1#3 o else none
  | .jalr rd rs1 imm =>
    if imm == 0#12 && rs1 != 0#5 then
      (if rd == 0#5 then some (4#3 ++ 0#1 ++ rs1 ++ 0#5 ++ 2#2)
       else if rd == 1#5 then some (4#3 ++ 1#1 ++ rs1 ++ 0#5 ++ 2#2) else none)
    else none
  | .branch c rs1 rs2 o =>
    if rs2 == 0#5 && fitsSigned 9 o && o.extractLsb' 0 1 == 0#1 then
      match c with
      | .eq | .ne =>
        (rvcReg rs1).map fun r => (if c == .eq then 6#3 else 7#3) ++ o.extractLsb' 8 1 ++ o.extractLsb' 3 2 ++ r ++
          o.extractLsb' 6 2 ++ o.extractLsb' 1 2 ++ o.extractLsb' 5 1 ++ 1#2
      | _ => none
    else none
  | .load .w rd rs1 off =>
    if rs1 == 2#5 && rd != 0#5 && off.extractLsb' 8 4 == 0#4 && off.extractLsb' 0 2 == 0#2 then
      some (2#3 ++ off.extractLsb' 5 1 ++ rd ++ off.extractLsb' 2 3 ++ off.extractLsb' 6 2 ++ 2#2)
    else if off.extractLsb' 7 5 == 0#5 && off.extractLsb' 0 2 == 0#2 then
      (rvcReg rs1).bind fun b => (rvcReg rd).map fun r => rvcMem 2#3 off b r
    else none
  | .store .w rs1 rs2 off =>
    if rs1 == 2#5 && off.extractLsb' 8 4 == 0#4 && off.extractLsb' 0 2 == 0#2 then
      some (6#3 ++ off.extractLsb' 2 4 ++ off.extractLsb' 6 2 ++ rs2 ++ 2#2)
    else if off.extractLsb' 7 5 == 0#5 && off.extractLsb' 0 2 == 0#2 then
      (rvcReg rs1).bind fun b => (rvcReg rs2).map fun r => rvcMem 6#3 off b r
    else none
  | _ => none

/-- The 16-bit word of a Pail instruction that has a compressed form (R222). -/
def encodeC : Instr → Option (BitVec 16)
  | .pailInstruction i true => i.encodeC
  | .pailStop .ebreak => some 0x9002#16
  | _ => none

/-! The one encoder, and the host's table words -/

/-- The words of an instruction: a compute word of 96 bits, or a Pail word of 32 or of 16 bits. -/
inductive Code where
  | compute (w : IWord)
  | pail (w : BitVec 32)
  | half (w : BitVec 16)
  deriving DecidableEq, Repr

/-- The words of a well-formed instruction; an event row has none. -/
def encode (i : Instr) : Option Code :=
  match i with
  | .unassignedOpcode w => some (.compute w)
  | _ =>
    match encodeFields i with
    | some f => some (.compute f.pack)
    | none =>
      match i with
      | .pailInstruction _ true => (encodeC i).map .half
      | _ => (encodePail i).map .pail

/-- Decode the words of an encoder's answer. -/
def decodeCode : Code → Option Instr
  | .compute w => (decode w).toOption
  | .pail w => decodePail w
  | .half w => decodeC w

/-- The instruction that the decoder reads from nbits bits w: 16 and 32 bits are Pail words, more is
a compute word. Bits above nbits are zero. -/
def decodeTableWord (nbits w : Nat) : Option Instr :=
  if nbits ≤ 16 then decodeC (BitVec.ofNat 16 (w % 2 ^ nbits))
  else if nbits ≤ 32 then decodePail (BitVec.ofNat 32 (w % 2 ^ nbits))
  else (decode (BitVec.ofNat 96 (w % 2 ^ nbits))).toOption

end Sys2Proof
end

