-- ==== Sys2Proof/Machine/State.lean ====
section
/-!
DEFINITION. The state of the Karuno 7420 as plain data: everything that the manual gives the device,
its contexts (R377), tasks and teams (R60-R73), groups (R82-R95), Pails (R222-R224), memories
(R201-R221), message window (R391) and identity (R396, R397); and the state right after reset.
Fields marked MODEL'S OWN are not the manual's: they hold the environment's interleaving and the
free-value counter (log entries 2, 3 and 4).
-/

namespace Sys2Proof.Machine

/-- A list of numbered entries, keys rising, no entry equal to the default of its kind. -/
abbrev Sparse (α : Type) := List (Nat × α)

/-- Bytes by address. An unlisted address reads zero: the zero bit of its 64-byte unit (R215). -/
abbrev Memory := List Host.Cell

/-- Keys strictly rising from `lo`, no entry equal to the default. -/
def sparseWf {α : Type} [DecidableEq α] (d : α) : Nat → Sparse α → Bool
  | _, [] => true
  | lo, (k, v) :: rest => decide (lo ≤ k) && decide (v ≠ d) && sparseWf d (k + 1) rest

/-- The canonical form of memory: addresses strictly rising, no entry equal to what an unlisted
address reads as. -/
def Memory.wf (m : Memory) : Bool := sparseWf (0#8) 0 m

/-- How a step can stop with a fault. -/
inductive Fault where
  /-- Raised by a meaning that is called with no issuing group or Pail. `step` never calls one so:
  safe, since the hardware has no such moment. -/
  | noIssuer
  deriving DecidableEq, Repr

/-- Why a step is refused. -/
inductive Refusal where
  /-- Raised by an arm of `exec` that has no meaning: safe, the model stops. -/
  | notModelled (mnemonic : String)
  deriving DecidableEq, Repr

/-! Records and forms -/

/-- Classes of a form (R86). -/
inductive Cls where
  | u | a | l | d
  deriving DecidableEq, Repr

/-- A form: class and coefficients (R86). -/
structure Form where
  cls : Cls
  c0 : Word
  c1 : Word
  deriving DecidableEq, Repr

/-- A dead register (R86). -/
def Form.dead : Form := ⟨.d, 0#32, 0#32⟩

/-- Wake conditions (R372); the last two are waits that are not blocking points. -/
inductive Cond where
  | bar (n : Nat) (phase : Word) (scope : Nat)
  | barwait (n : Nat) (phase : Word)
  | qEntry (q : Nat)
  | qFree (q : Nat)
  | tag (n : Nat)
  | tagMask (m : BitVec 64)
  | count (n : Nat) (limit : Word)
  | task (serial : Nat)
  | tasks (serials : List Nat)
  | yield
  | miterAgain
  | got (addr : Addr) (entry : Nat)
  | loopEnd
  | release (time : Nat)
  deriving DecidableEq, Repr

/-- The wait condition of a blocked record (R85, R321): the condition, whether the instruction issues
again or the record goes on at the next slot when it is met, the flag and the issues that complete
with it, the s register and the value written there, the stamp that the records of one run share, and the latch that HOLD
names with the positions of the run (R52). -/
structure Wait where
  cond : Cond
  again : Bool
  sig : Nat
  cnt : Nat
  dst : Option Nat
  value : Word
  ord : Nat
  hold : Nat
  ps : List Nat
  deriving DecidableEq, Repr

/-- A record of a group (R85). `noWatch` is the mark of `tret.pass` (R366). -/
structure Rec where
  lane : Bool
  b : Nat
  s : Nat
  n : Nat
  pc : Addr
  wait : Option Wait
  noWatch : Bool
  forms : Sparse Form
  deriving DecidableEq, Repr

/-- A register write that has not landed yet (R112, R113, R416). -/
inductive RegWrite where
  /-- values of a v register at positions; the form, where one was computed -/
  | v (reg : Nat) (vals : List (Nat × Word)) (form : Option Form)
  | s (reg : Nat) (value : Word)
  /-- positions written and their bits -/
  | p (n : Nat) (mask bits : BitVec 64)
  /-- one queue entry (R220) -/
  | push (q : Nat) (words : List Word)
  /-- a hold latch, per position, and the form of the result, where it is one (R52) -/
  | hl (n : Nat) (vals : List (Nat × Word)) (form : Option Form)
  | c (n : Nat) (value : Word)
  /-- bytes that count out of a byte-count register (R218) -/
  | count (n bytes : Nat)
  deriving DecidableEq, Repr

/-- A fixed-latency result in flight: the ck in which it lands, the ck of the contract (R114), program-order stamp,
flag, count and writes (R49, R112). -/
structure Inflight where
  due : Nat
  contract : Nat
  ord : Nat
  sig : Nat
  cnt : Nat
  ws : List RegWrite
  deriving DecidableEq, Repr

/-- A hold latch (R12, R52): by position its value, and the form of the result where it was one. -/
structure Latch where
  vals : List (Nat × Word × Option Form)
  deriving DecidableEq, Repr

/-- An open hold window: latch, issues left, the producer's PC and its run's positions (R12, R52). -/
structure Window where
  latch : Nat
  left : Nat
  pc : Addr
  run : List Nat
  deriving DecidableEq, Repr

/-! Memory accesses in flight -/

/-- The arrays of a core that a store reaches (R201). -/
inductive Arr where
  | spad | stack | acc
  deriving DecidableEq, Repr

/-- A place in the arrays of a core: byte offset within the array. -/
structure Place where
  core : Nat
  arr : Arr
  off : Nat
  deriving DecidableEq, Repr

/-- What an operand-log slot does (R228). -/
inductive SlotOp where
  | load
  | store
  | gather
  | scatter
  | atom (op : AtomOp) (ty : Ty)
  | amax
  | remld (core : Nat)
  | copy
  | copyw
  | rload
  deriving DecidableEq, Repr

/-- How far an element of a slot has come: not performed, faulted, its value read but not yet written
to its register (R416), done. -/
inductive ElemSt where
  | pending | faulted | got | done
  deriving DecidableEq, Repr

/-- One element of a slot: the positions it serves, its address, its length in bytes, the data of a
store or atomic, a copy's source address, the comparand's replacement of `cas`, its value read; whether its access has
faulted at some time (R228, R329); whether its result is of class U (R226). -/
structure Elem where
  ps : List Nat
  va : Addr
  len : Nat
  data : BitVec 128
  src : Addr
  repl : BitVec 64
  st : ElemSt
  val : BitVec 128
  hit : Bool
  uni : Bool
  deriving DecidableEq, Repr

/-- A destination of a slot's result. -/
inductive Dst where
  | none
  | v (reg : Nat)
  | s (reg : Nat)
  deriving DecidableEq, Repr

/-- An entry of a group's FIFO store queue (R302): an on-chip store or the on-chip elements of a `scatter`, its
completion and the bytes it counts out of a byte-count register, a global store
that the gather engine takes from its operand-log slot, or the write part of `atoms`: elements with
their places, destination, the latch it goes to, and the destinations that a younger
write has overtaken. -/
inductive StoreEnt where
  | chip (due ord : Nat) (ws : List (Place × Byte)) (cq bytes : Nat)
  | glob (ord : Nat)
  | atom (ord sig cnt : Nat) (op : AtomOp) (ty : Ty) (els : List (Elem × Place)) (dst : Dst)
      (hold : Nat) (skip : List (Nat × Nat))
  deriving DecidableEq, Repr

/-- What a later pass of an on-chip load reads in its own ck (R301): the ck, the stamp of the load, the positions, the place
and its bytes, and where the result goes. -/
structure Reread where
  ck : Nat
  ord : Nat
  ps : List Nat
  place : Place
  size : Nat
  dst : Dst
  hold : Nat
  deriving DecidableEq, Repr

/-- A slot of the operand log (R228): `core` is the core whose gather engine holds its accesses, `landed` the ck in which
the last byte of an engine command landed (R217). -/
structure Slot where
  num : Nat
  ord : Nat
  pc : Addr
  instr : Instr
  op : SlotOp
  elems : List Elem
  size : Nat
  cq : Option Nat
  sig : Nat
  cnt : Nat
  dst : Dst
  hold : Nat
  words : Nat
  tag : Nat
  qord : Bool
  /-- when the gather engine took a store, as a stamp (R302) -/
  taken : Option Nat
  core : Nat
  landed : Option Nat
  /-- destinations that a younger write has overtaken (R113): register and position -/
  skip : List (Nat × Nat)
  deriving DecidableEq, Repr

/-- Matrix or tile work in flight (R257, R271): tile elements by absolute tile and element, bytes
written to the arrays, register writes, flag; the slices it occupies, a bit per slice (R250, R338), whether it
has begun to occupy them (R343), and the half ck of occupancy that it still needs (R346). -/
structure Work where
  ord : Nat
  sig : Nat
  cnt : Nat
  tiles : List (Nat × Nat × Word)
  bytes : List (Place × Byte)
  ws : List RegWrite
  slices : BitVec 4
  begun : Bool
  left : Nat
  deriving DecidableEq, Repr

/-- A loop of `miter` that runs (R269): stamp of its issue, tile names, size, cap, coefficients, predicate, guarded
positions; whether it has begun to occupy the slices and the half ck that its iteration still needs (R343, R346). -/
structure Loop where
  ord : Nat
  t : Nat
  s1 : Nat
  s2 : Nat
  n : Nat
  cap : Nat
  coef : List Word
  p : Nat
  mask : BitVec 64
  begun : Bool
  left : Nat
  deriving DecidableEq, Repr

/-- An open phase (R339): start in ck of the group's island, length, intensity, granted offset, the time of its grant
(R342); `started` once its start has been reached (R343). -/
structure Phase where
  start : Nat
  len : Nat
  intensity : Nat
  offset : Nat
  granted : Nat
  started : Bool
  deriving DecidableEq, Repr

/-- Where a trap went (R357). -/
inductive Route where
  | handler
  | kernel
  deriving DecidableEq, Repr

/-- The trap state of a frozen group (R356, R363); `phase` is what R345 requests again, `vec` the value of `sys.trap_vec`
that governs the trap (R382). -/
structure TrapState where
  word : Word
  pc : Addr
  aux : Word
  step : Word
  route : Route
  seq : Nat
  phase : Option (Nat × Nat)
  vec : BitVec 64
  deriving DecidableEq, Repr

/-- The life of a group. -/
inductive GStat where
  | live | frozen | ended
  deriving DecidableEq, Repr

/-- A submitted task that the Churn has not yet accepted or refused (R64), with the latch that its handle goes to and
the positions of its run (R52). -/
structure Submit where
  addr : Addr
  sig : Nat
  cnt : Nat
  dst : Option Nat
  hold : Nat
  ps : List Nat
  ord : Nat
  deriving DecidableEq, Repr

/-- The hold of a fence, or of an event that acts as one (R314, R325, R329): kind, scope, stamp, flag. -/
structure FenceHold where
  kind : Nat
  scope : Nat
  ord : Nat
  sig : Nat
  cnt : Nat
  deriving DecidableEq, Repr

/-- A mark of `qfence` (R316, R331). -/
structure QMark where
  ord : Nat
  scope : Nat
  deriving DecidableEq, Repr

/-- A group (R377). A handler group has `serves`, the group whose trap it serves (R358). `again` is the
phase that an eviction closed, as R345 requests it again: length and intensity. -/
structure Group where
  ctx : Nat
  team : Nat
  g : Nat
  serves : Option Nat
  core : Nat
  slot : Nat
  width : Nat
  stat : GStat
  recs : List Rec
  lanes : Sparse Word
  p : Sparse (BitVec 64)
  s : Sparse Word
  bc : Sparse Word
  /-- bytes subtracted from the bc registers in this ck, which a source read does not see yet (R218) -/
  bcDrop : Sparse Word
  cf : Sparse Nat
  c : Sparse Word
  mls : BitVec 64
  sr : Word
  strag : Nat
  mark : Addr
  forced : Bool
  step : Option Nat
  latches : Sparse (Option Latch)
  windows : List Window
  nextAt : Nat
  /-- the core's lost collection ck when `nextAt` was set (R116) -/
  lostAt : Nat
  lastIssue : Nat
  retryAt : Nat
  wb : List Inflight
  rereads : List Reread
  storeq : List StoreEnt
  oplog : List Slot
  fences : List FenceHold
  marks : List QMark
  aliasOrd : Nat
  work : List Work
  loop : Option Loop
  phase : Option Phase
  again : Option (Nat × Nat)
  trap : Option TrapState
  submit : List Submit
  shpSeen : Sparse Nat
  deriving DecidableEq, Repr

/-! Teams, tasks, Pails and cores -/

/-- A Pail feeder image (R22). -/
structure PailImage where
  code : List Byte
  data : List Byte
  entry : Nat
  deriving DecidableEq, Repr

/-- What the device keeps of a kernel record (R20); `lpail` and `spail` index the object's images. -/
structure Kernel where
  name : List Byte
  entry : Addr
  width : Nat
  team : Nat
  acc : Nat
  tags : Nat
  queues : Nat
  shapes : Nat
  coef : Nat
  paired : Bool
  handler : Bool
  stack : Nat
  spad : Nat
  lpail : Option PailImage
  spail : Option PailImage
  deriving DecidableEq, Repr

/-- An end of a queue (R219). -/
inductive QEnd where
  | unbound
  | group (g : Nat)
  | pail
  deriving DecidableEq, Repr

/-- A decoupling queue of a team (R219-R221, R245). `flight` counts pushes in flight. -/
structure Queue where
  entries : List (List Word)
  flight : Nat
  prod : QEnd
  cons : QEnd
  gone : Bool
  cgone : Bool
  pois : Bool
  lastPush : Nat
  /-- entries that entered in ck `lastPush` -/
  pushed : Nat
  lastPop : Nat
  /-- entries that left in ck `lastPop` -/
  popped : Nat
  deriving DecidableEq, Repr

/-- A barrier of a team (R323-R325): phase, the groups that have arrived, and those whose arrival is
held: group, scope and stamp. -/
structure Barrier where
  phase : Word
  marks : List Nat
  held : List (Nat × Nat × Nat)
  deriving DecidableEq, Repr

/-- A range entry of a task (R61). -/
structure RangeEnt where
  write : Bool
  base : Nat
  count : Nat
  part : Bool
  atomicT : Bool
  step : Int
  deriving DecidableEq, Repr

/-- A version of a tile that a team writes (R68): tile, frame, committed. -/
structure Version where
  tile : Nat
  frame : Nat
  committed : Bool
  deriving DecidableEq, Repr

/-- The life of a team. -/
inductive TStat where
  | ready | running | evicted | retired
  deriving DecidableEq, Repr

/-- What a team holds on one core (R21, R76): its footprint, its stack carve, its accumulator tiles and the core tags of
its kernel tags. -/
structure Seat where
  foot : Nat
  footLen : Nat
  stackAt : Nat
  accs : List Nat
  tags : List Nat
  deriving DecidableEq, Repr

/-- No seat. -/
def Seat.none : Seat := { foot := 0, footLen := 0, stackAt := 0, accs := [], tags := [] }

/-- A team (R62, R63, R377). A pair's team has a seat on each core. Each core of a pair has its own
queues and tag bits (R21, R217, R219): those of side 1 stand after side 0's, tag bits from 64 on.
`groups` and `pails` index the groups and Pails of its present start. -/
structure Team where
  ctx : Nat
  task : Nat
  t : Nat
  stat : TStat
  core : Nat
  requeues : Nat
  seats : List Seat
  tagBits : BitVec 128
  groups : List Nat
  pails : List Nat
  shps : List (List (Nat × BitVec 640))
  barriers : List Barrier
  queues : List Queue
  versions : List Version
  readVers : List (Nat × Option Nat)
  preempt : Bool
  cut : Option Nat
  atomic : Bool
  waitedOn : List Nat
  deriving DecidableEq, Repr

/-- A task in the Churn (R60, R64-R66). -/
structure Task where
  ctx : Nat
  serial : Nat
  kern : Kernel
  gx : Nat
  gy : Nat
  gz : Nat
  tx : Nat
  ty : Nat
  tz : Nat
  ranges : List RangeEnt
  args : List Word
  committed : Bool
  deriving DecidableEq, Repr

/-- Why a Pail does not run. -/
inductive PStat where
  | running | stopped | faulted
  deriving DecidableEq, Repr

/-- A loader or storer Pail of a team (R22, R222-R224). `stall` is the global address of an access
that faulted; `again` says that it was resolved and is to be replayed; `row` holds the words that a
`pq.rowin` has read, or that a `pq.rowout` has still to write; it may run from ck `ran` on. -/
structure Pail where
  ctx : Nat
  team : Nat
  core : Nat
  storer : Bool
  stat : PStat
  x : Sparse Word
  pc : Word
  istore : Sparse Byte
  dstore : Sparse Byte
  pqhi : BitVec 25
  pqbnd : BitVec 8
  stall : Option Addr
  again : Bool
  row : List Word
  ran : Nat
  deriving DecidableEq, Repr

/-- A byte of an array and the context that wrote it (R216). -/
structure Owned where
  ctx : Nat
  byte : Byte
  deriving DecidableEq, Repr

/-- A line in a trace cache (R111): context, physical line and whether it is of class L; a bit of the copy may have
been upset, which its parity shows at the next use (R44). -/
structure TraceEnt where
  ctx : Nat
  line : Nat
  lane : Bool
  upset : Bool
  deriving DecidableEq, Repr

/-- A forwarding entry (R81): the team, its old core, its new one, the footprint it had there, and the
stamps of the commands whose messages pass. -/
structure Forward where
  team : Nat
  from_ : Nat
  core : Nat
  foot : Nat
  len : Nat
  msgs : List Nat
  deriving DecidableEq, Repr

/-- A translation that a TLB holds (R212, R246): the 64 KiB page at which its page begins, and the shift of the
page's size. -/
structure TlbEnt where
  ctx : Nat
  page : Nat
  shift : Nat
  deriving DecidableEq, Repr

/-- A core (R2, R10, R203-R206, R78); its tagmap (R217) is computed from its teams' tag bits. Numbers from
4096 on are the save areas of evicted teams (R373). -/
structure Core where
  spad : Sparse (Option Owned)
  stack : Sparse (Option Owned)
  acc : Sparse (Option Owned)
  freeAt : Nat
  avoided : Bool
  droops : List Nat
  /-- the last time at which the sensor stood above 88 °C, and whether it still does -/
  lastHot : Nat
  hot : Bool
  handlers : List (Option Nat)
  /-- trace cache, most recently used first (R111) -/
  trace : List TraceEnt
  fwd : List Forward
  /-- the L1 TLB, most recently used first (R5, R212) -/
  tlb : List TlbEnt
  /-- collection ck that the core has lost so far (R116) -/
  lost : Nat
  deriving DecidableEq, Repr

/-- A core right after reset. -/
def Core.reset : Core :=
  { spad := [], stack := [], acc := [], freeAt := 0, avoided := false,
    droops := [], lastHot := 0, hot := false, handlers := [none, none], trace := [], fwd := [], tlb := [], lost := 0 }

/-! Contexts and objects -/

/-- The symbol of a GOT entry (R23, R29): its name, and its value where the object itself defines it. -/
structure GotSym where
  name : List Byte
  own : Option Nat
  deriving DecidableEq, Repr

/-- An entry of XREF (R18): one item of a level is carried out by a run of items of a lower level, or of native
slots. -/
structure Xref where
  level : Nat
  lower : Nat
  item : Nat
  first : Nat
  count : Nat
  deriving DecidableEq, Repr

/-- A loaded object (R14-R31): base, GOT base, stub base, symbols it exports and its GOT symbols; the address of its
native code and its XREF entries, which debuggers follow (R19). -/
structure Obj where
  base : Nat
  size : Nat
  got : Nat
  gotSyms : List GotSym
  stub : Nat
  kernels : List Kernel
  exports : List (List Byte × Nat)
  code : Nat
  xrefs : List Xref
  deriving DecidableEq, Repr

/-- A bound-table entry (R31). -/
structure Bound where
  base : Nat
  limit : Nat
  perms : BitVec 6
  deriving DecidableEq, Repr

/-- Who a fault record names (R370). -/
inductive FSrc where
  | group (gi : Nat)
  | pail (pi : Nat)
  | engine (gi : Nat)
  deriving DecidableEq, Repr

/-- A fault record (R370), its source and the operand-log slot to replay. -/
structure FaultRec where
  addr : Addr
  pc : Addr
  index : Word
  team : Word
  kind : Nat
  access : Nat
  slot : Nat
  group : Nat
  serial : Word
  src : FSrc
  since : Nat
  /-- a resolution of its page has served it (R371) -/
  served : Bool
  deriving DecidableEq, Repr

/-- A watchpoint descriptor (R368). -/
structure Watch where
  base : Addr
  rowBytes : Nat
  pitch : Nat
  row0 : Nat
  nRows : Nat
  kinds : BitVec 8
  shape : BitVec 8
  curd : Nat
  deriving DecidableEq, Repr

/-- A change of a watchpoint that the cores have not yet applied (R368). -/
structure WatchChange where
  n : Nat
  watch : Option Watch
  group : Nat
  sig : Nat
  cnt : Nat
  deriving DecidableEq, Repr

/-- The life of a context (R357, R378, R389); one that is being killed is dying until its groups are cut. -/
inductive CStat where
  | live | stopped | dying | killed
  deriving DecidableEq, Repr

/-- A context (R377). -/
structure Context where
  stat : CStat
  why : String
  /-- a kill under way: the SEQ of its request and when it was carried out (R378) -/
  kill : Option (Word × Nat)
  priority : Nat
  quota : Nat
  dieMap : List Nat
  bounded : Bool
  root : Nat
  debugger : Bool
  held : Bool
  serial : Nat
  /-- tasks that the host has started (R392) -/
  hostTasks : Nat
  bounds : Sparse Bound
  objs : List Obj
  /-- tiles whose translation a committed version replaced (R69) -/
  commits : Sparse (Option Nat)
  /-- pages whose contents the resident kernel holds in CXL memory, and the frames that hold them (R379) -/
  heldPages : Sparse (Option Nat)
  faults : List FaultRec
  faultHead : Nat
  faultTail : Nat
  overflow : Bool
  faultSerial : Word
  faultBudget : Nat
  fetchDrop : BitVec 64
  pairRefused : BitVec 64
  shortfall : BitVec 64
  bankConflict : BitVec 64
  spadConflict : BitVec 64
  undeclared : BitVec 64
  srSeed : Word
  trapVec : BitVec 64
  trapMask : Word
  /-- `sys.trap_vec` and `sys.trap_mask` before each late `syswr`, newest first, which other groups' traps of its ck
  still see (R382): the group that wrote, the time, the two values -/
  sysWas : List (Nat × Nat × BitVec 64 × Word)
  watches : List (Option Watch)
  watchQ : List WatchChange
  deriving DecidableEq, Repr

/-! The device -/

/-- How a 64-byte unit is enciphered (R215): the key, and the bytes that are noise under it. -/
structure Unit64 where
  key : Nat
  noise : BitVec 64
  deriving DecidableEq, Repr

/-- A peer slot (R393, R395): the bound device and whether it is lost; heartbeats missed in a row and the time of the
last miss. -/
structure Peer where
  device : Nat
  lost : Bool
  missed : Nat
  since : Nat
  deriving DecidableEq, Repr

/-- An island's clock (R7, R348): target and present MHz, the frequency up to which its voltage is safe, the frequency
of a hop under way, a latched droop; and its ck, in thousandths, at a time since which it has run at the present
frequency. -/
structure Island where
  target : Nat
  mhz : Nat
  safe : Nat
  hop : Option Nat
  droop : Bool
  acc : Nat
  since : Nat
  deriving DecidableEq, Repr

/-- An island at the nominal clock (R5, R7). -/
def Island.reset : Island :=
  { target := 800, mhz := 800, safe := 800, hop := none, droop := false, acc := 0, since := 0 }

/-- The frame of a version that a commit has replaced (R69), and the teams that had started on it. -/
structure OldFrame where
  ctx : Nat
  frame : Nat
  teams : List Nat
  deriving DecidableEq, Repr

/-- A lazy binding under way (R29): the group and the positions that trapped, the GOT entry's address, number and
symbol value; whether TARGET has been written. -/
structure Binding where
  ctx : Nat
  gi : Nat
  ps : List Nat
  entry : Nat
  n : Nat
  value : Option Nat
  wrote : Bool
  deriving DecidableEq, Repr

/-- A firmware image (R396): version, digest and whether it passed. -/
structure Firmware where
  version : Word
  digest : List Byte
  deriving DecidableEq, Repr

/-- An RV64 core of the management cluster (R1) with the registers of the RVA23 profile: pc, x, f, v and CSRs by number
(PRESUMED: the profile's registers, v of 128 bits, log entry 73). What it executes is the resident kernel, whose acts are
events. -/
structure Hart where
  pc : BitVec 64
  x : Sparse (BitVec 64)
  f : Sparse (BitVec 64)
  v : Sparse (BitVec 128)
  csr : Sparse (BitVec 64)
  deriving DecidableEq, Repr

/-- A hart right after reset. -/
def Hart.reset : Hart := { pc := 0#64, x := [], f := [], v := [], csr := [] }

/-- A host window (R390): a range of a context's addresses, or, of no context, of physical addresses under the resident
kernel's key (log entry 78). -/
structure HostWindow where
  ctx : Option Nat
  base : Nat
  len : Nat
  deriving DecidableEq, Repr

/-- A checkpoint under way (R394); `wrote` once its copies are written and its teams are being resumed. -/
structure Ckpt where
  seq : Word
  ctx : Nat
  own : Nat
  neighbour : Nat
  since : Nat
  wrote : Bool
  deriving DecidableEq, Repr

/-- What a checkpoint of a context holds (R394): its own and its neighbour's address; the context, and its tasks,
teams, groups and Pails by number; its save areas; the bytes under its key, with the state of their units; and its
bytes of the Creamery. -/
structure Snapshot where
  ctx : Nat
  own : Nat
  neighbour : Nat
  cx : Context
  tasks : List (Nat × Task)
  teams : List (Nat × Team)
  groups : List (Nat × Group)
  pails : List (Nat × Pail)
  areas : Sparse Core
  mem : Memory
  units : Sparse Unit64
  creamery : Sparse (Option Owned)
  deriving DecidableEq, Repr

/-- Who issues the instruction of this step (MODEL'S OWN). -/
inductive Issuer where
  | group (gi : Nat)
  /-- a group whose instruction is only tried, up to check 7 of R54 -/
  | trial (gi : Nat)
  | pail (pi : Nat)
  deriving DecidableEq, Repr

/-- What the environment makes happen next (MODEL'S OWN): an event, the issue of one that may issue, or whatever the
machine does by itself; or a disturbance of a cached line, the next write of the lazy binder, an act of the management
cluster, or an access of the host. -/
inductive Turn where
  | event (i : Instr)
  | issue (who : Issuer)
  /-- a bit of the n-th line of a core's trace cache is upset (R44) -/
  | upset (core n : Nat)
  /-- the binder writes TARGET, or STATE, of the n-th binding under way (R29) -/
  | bind (n : Nat)
  /-- the n-th hart has computed: its registers stand so (R1) -/
  | hart (n : Nat) (h : Hart)
  /-- a hart has written a byte of the management cluster's SRAM (R1) -/
  | sram (a : Nat) (b : Byte)
  /-- the resident kernel maps a host window, or takes the n-th away (R390) -/
  | window (w : HostWindow)
  | unwindow (n : Nat)
  /-- the host reads n bytes of the message window (R391) -/
  | windowRead (off n : Nat)
  /-- the resident kernel places `bkpt` n at a PC of a context for a debugger (R362) -/
  | bkpt (ci : Nat) (pc : Addr) (n : BitVec 16)
  /-- a debugger of the host attaches to a context, or leaves it (R357) -/
  | debugger (ci : Nat) (on : Bool)
  /-- this device, a booted spare, takes over the lost device's copy of a context (R395) -/
  | adopt (n : Snapshot)
  | own
  deriving DecidableEq, Repr

/-- The state of the device. -/
structure State where
  /-- time since reset, in ns, from which the ck of each island are counted (R7) -/
  now : Nat
  /-- MODEL'S OWN: what the environment makes happen next (log entry 3) -/
  agenda : List Turn
  /-- MODEL'S OWN: the issuer of this step -/
  issuer : Option Issuer
  /-- MODEL'S OWN: free-value counter (log entry 4) -/
  freeCtr : Nat
  /-- MODEL'S OWN: program-order stamp -/
  ord : Nat
  /-- MODEL'S OWN: ck by which the units of this stepping are slower than a latency of the contract (R114, log entry 13) -/
  delays : Sparse Nat
  /-- physical memory: LPDDR 6, CXL memory and the link aperture (R210, R215, R393) -/
  mem : Memory
  units : Sparse Unit64
  /-- the Creamery, by die·2^30 + offset (R207, R216) -/
  creamery : Sparse (Option Owned)
  /-- the calendar's origin per cluster (R208) -/
  calendar : Sparse Nat
  /-- the L2 TLB of a cluster, most recently used first (R212) -/
  tlb : Sparse (List TlbEnt)
  /-- 64 KiB frames left in the pre-zeroed pool (R68, R213) -/
  pool : Nat
  /-- the next 64 KiB frame that the pool or the resident kernel gives out -/
  nextFrame : Nat
  /-- frames that have come back to the pool (R69) -/
  freeFrames : List Nat
  /-- replaced versions that may still be read (R69) -/
  oldFrames : List OldFrame
  /-- lazy bindings under way, oldest first (R29) -/
  bindings : List Binding
  cores : Sparse Core
  contexts : List Context
  tasks : List Task
  teams : List Team
  groups : List Group
  pails : List Pail
  /-- round-robin of the Parlour, per priority (R77) -/
  turn : Sparse Nat
  trapSeq : Nat
  /-- message window (R391) -/
  reqTail : BitVec 64
  reqHead : BitVec 64
  rspTail : BitVec 64
  rspHead : BitVec 64
  winState : BitVec 64
  reqRing : Sparse Byte
  rspRing : Sparse Byte
  outbox : List (List Byte)
  /-- host windows (R390) and what the host's last read gave it (R390, R391) -/
  hostWins : List HostWindow
  hostData : List Byte
  /-- sys.step_cfg (R350) and device time in ns -/
  stepCfg : Word
  devTime : Nat
  islands : Sparse Island
  peers : Sparse (Option Peer)
  /-- writes sent to device-register pages, newest first (R214) -/
  devWrites : List (Nat × BitVec 32)
  ckpts : List Ckpt
  snaps : List Snapshot
  /-- firmware (R396, R397) -/
  running : Option Firmware
  minVersion : Word
  keyIndex : Nat
  /-- NVMe drives 0 and 1 -/
  drives : List (List Byte)
  booted : Bool
  /-- the management cluster (R1): its eight cores and its 8 MiB of SRAM -/
  harts : List Hart
  sram : Sparse Byte
  deriving DecidableEq, Repr

/-- The device right after reset: no context, no work, every index zero; the first event is BOOT. -/
def State.reset : State :=
  { now := 0, agenda := [], issuer := none, freeCtr := 0, ord := 0, delays := [],
    mem := [], units := [], creamery := [], calendar := [], tlb := [], pool := 0,
    nextFrame := 0x10000, freeFrames := [], oldFrames := [], bindings := [], cores := [], contexts := [], tasks := [], teams := [], groups := [],
    pails := [], turn := [], trapSeq := 0,
    reqTail := 0#64, reqHead := 0#64, rspTail := 0#64, rspHead := 0#64, winState := 0#64,
    reqRing := [], rspRing := [], outbox := [], hostWins := [], hostData := [],
    stepCfg := 0#32, devTime := 0, islands := [], peers := [], devWrites := [],
    ckpts := [], snaps := [], running := none, minVersion := 0#32, keyIndex := 0, drives := [[], []],
    booted := false, harts := List.replicate 8 Hart.reset, sram := [] }

end Sys2Proof.Machine
end

