-- ==== Sys2Proof/Machine/Ops.lean ====
section
/-!
DEFINITION. Named operations over the state: sparse lists, groups, teams and cores, physical memory
(R215), page walks (R210, R211), on-chip arrays (R216), messages (R391, R392), stopping a context
(R357), taking a trap (R354-R359) and returning from one (R366).
-/

namespace Sys2Proof.Machine

/-! Sparse lists -/

/-- The entry at a key, or the default. -/
def spGet {α : Type} (d : α) : Sparse α → Nat → α
  | [], _ => d
  | (k, v) :: rest, i => if i < k then d else if i = k then v else spGet d rest i

/-- Write an entry, keeping the canonical form: the default is never listed. -/
def spSet {α : Type} [DecidableEq α] (d : α) : Sparse α → Nat → α → Sparse α
  | [], i, x => if x = d then [] else [(i, x)]
  | (k, v) :: rest, i, x =>
    if i < k then (if x = d then (k, v) :: rest else (i, x) :: (k, v) :: rest)
    else if i = k then (if x = d then rest else (i, x) :: rest)
    else (k, v) :: spSet d rest i x

/-- Write several entries in order. -/
def spSetAll {α : Type} [DecidableEq α] (d : α) (m : Sparse α) (ws : List (Nat × α)) : Sparse α :=
  ws.foldl (fun m w => spSet d m w.1 w.2) m

/-- The value that little-endian bytes make (R8). -/
def leNat : List Byte → Nat
  | [] => 0
  | b :: rest => b.toNat + 256 * leNat rest

/-- n little-endian bytes of a value (R8). -/
def leBytes : Nat → Nat → List Byte
  | 0, _ => []
  | n + 1, x => BitVec.ofNat 8 (x % 256) :: leBytes n (x / 256)

/-- Numbers lo to lo + n − 1. -/
def upto (lo n : Nat) : List Nat := (List.range n).map (lo + ·)

/-- The least element by a measure, the first of equals. -/
def leastBy {α : Type} (f : α → Nat) : List α → Option α
  | [] => none
  | a :: rest =>
    match leastBy f rest with
    | none => some a
    | some b => if f a ≤ f b then some a else some b

/-- Replace entry i of a list by a function of it. -/
def modAt {α : Type} (l : List α) (i : Nat) (f : α → α) : List α :=
  match l[i]? with
  | some a => l.set i (f a)
  | none => l

/-! Parts of the state -/

/-- Change a group. -/
def State.modGroup (s : State) (gi : Nat) (f : Group → Group) : State := { s with groups := modAt s.groups gi f }

/-- Change a team. -/
def State.modTeam (s : State) (ti : Nat) (f : Team → Team) : State := { s with teams := modAt s.teams ti f }

/-- Change a context. -/
def State.modCtx (s : State) (ci : Nat) (f : Context → Context) : State := { s with contexts := modAt s.contexts ci f }

/-- Change a Pail. -/
def State.modPail (s : State) (pi : Nat) (f : Pail → Pail) : State := { s with pails := modAt s.pails pi f }

/-- A core by its 11-bit coordinate (R28). -/
def State.core (s : State) (c : Nat) : Core := spGet Core.reset s.cores c

/-- Change a core. -/
def State.modCore (s : State) (c : Nat) (f : Core → Core) : State :=
  { s with cores := spSet Core.reset s.cores c (f (s.core c)) }

/-- A fresh program-order stamp. -/
def State.tickOrd (s : State) : State := { s with ord := s.ord + 1 }

/-- A fresh 64-bit free value (log entry 4). -/
def State.freeVal (s : State) : BitVec 64 × State := (Config.free s.freeCtr, { s with freeCtr := s.freeCtr + 1 })

/-! Coordinates (R2-R4, R28) -/

/-- Die of a core coordinate. -/
def coreDie (c : Nat) : Nat := c / 512

/-- Cluster of a core, 0 to 127: die·32 + ⌊y/4⌋·8 + ⌊x/4⌋ (R2). -/
def coreCluster (c : Nat) : Nat := c / 512 * 32 + (c / 32 % 16) / 4 * 8 + c % 32 / 4

/-- The other core of a core pair (R3). -/
def corePartner (c : Nat) : Nat := if c % 2 = 0 then c + 1 else c - 1

/-- The stacked pair of a cluster, 0 to 63 (R4). -/
def clusterPair (k : Nat) : Nat := k / 32 * 16 + k % 16

/-- Upper layer of a stacked pair (R4). -/
def clusterUpper (k : Nat) : Bool := decide (k % 32 < 16)

/-! The management cluster (R1) -/

/-- Its SRAM holds 8 MiB. -/
def sramBytes : Nat := 2 ^ 23

/-- A hart writes a byte of the SRAM; an address beyond it is none of the SRAM's. -/
def State.sramWrite (s : State) (a : Nat) (b : Byte) : State :=
  if a < sramBytes then { s with sram := spSet 0#8 s.sram a b } else s

/-- A hart's registers as its program leaves them; x0 reads zero. -/
def State.setHart (s : State) (n : Nat) (h : Hart) : State :=
  { s with harts := modAt s.harts n fun _ => { h with x := spSet 0#64 h.x 0 0#64 } }

/-! Clocks (R5, R7, R348) -/

/-- The island of a cluster. -/
def State.island (s : State) (n : Nat) : Island := spGet Island.reset s.islands n

/-- The ck that an island has counted at a time (R7). -/
def Island.ckAt (x : Island) (now : Nat) : Nat := (x.acc + x.mhz * (now - x.since)) / 1000

/-- The ck of a core: that of its cluster's island. A save area counts at the nominal clock. -/
def State.ckAt (s : State) (core : Nat) : Nat := (s.island (coreCluster core)).ckAt s.now

/-- The ck of a group. -/
def State.groupCk (s : State) (g : Group) : Nat := s.ckAt g.core

/-- The ck of a team's cores. -/
def State.teamCk (s : State) (ti : Nat) : Nat := s.ckAt (((s.teams[ti]?).map Team.core).getD 0)

/-- What a team holds on a core. -/
def Team.seat (t : Team) (core : Nat) : Seat := t.seats.getD (core - t.core) Seat.none

/-! Physical memory under a key (R215) -/

/-- The resident kernel's key. -/
def kernelKey : Nat := 1

/-- A context's off-chip key. -/
def ctxKey (ci : Nat) : Nat := ci + 2

/-- The link aperture (R393). -/
def linkBase : Nat := 2 ^ 51

/-- The memory of the device ends here: 576 GiB of LPDDR 6 from address 0 on and up to 4 TiB of CXL memory after it
(R5; log entry 63). -/
def memTop : Nat := 576 * 2 ^ 30 + 4 * 2 ^ 40

/-- How a 64-byte unit stands; key 0 is the zero bit. -/
def State.unit (s : State) (a : Nat) : Unit64 := spGet ⟨0, 0#64⟩ s.units (a / 64)

/-- Read one byte of physical memory under a key (R215); what a peer's memory holds is the peer's (R393). -/
def State.pmRead (s : State) (key a : Nat) : Byte :=
  if linkBase ≤ a then Config.peerByte s.freeCtr s.ord s.now a
  else
    let u := s.unit a
    if u.key = 0 then 0#8
    else if u.key = key then
      (if u.noise.getLsbD (a % 64) then Config.noise key a else spGet 0#8 s.mem a)
    else Config.noise key a

/-- Memory without the bytes from lo up to hi. -/
def Memory.without (m : Memory) (lo hi : Nat) : Memory := m.filter fun e => decide (e.1 < lo) || decide (hi ≤ e.1)

/-- Write one byte of physical memory under a key; of what this device wrote to a peer the latest is kept (R393); a unit whose zero bit is set is zeros before (R215). -/
def State.pmWrite (s : State) (key a : Nat) (b : Byte) : State :=
  if linkBase ≤ a then { s with mem := spSet 0#8 s.mem a b }
  else
    let u := s.unit a
    let mem := spSet 0#8 (if u.key = 0 then Memory.without s.mem (a / 64 * 64) (a / 64 * 64 + 64) else s.mem) a b
    let bit := BitVec.twoPow 64 (a % 64)
    let u' : Unit64 :=
      if u.key = 0 then ⟨key, 0#64⟩
      else if u.key = key then ⟨key, u.noise &&& ~~~bit⟩
      else ⟨key, ~~~bit⟩
    { s with mem := mem, units := spSet ⟨0, 0#64⟩ s.units (a / 64) u' }

/-- Read n bytes under a key. -/
def State.pmReadN (s : State) (key a n : Nat) : List Byte := (upto a n).map (s.pmRead key)

/-- Write bytes from an address on under a key. -/
def State.pmWriteN (s : State) (key a : Nat) (bs : List Byte) : State :=
  (bs.zip (upto a bs.length)).foldl (fun s w => s.pmWrite key w.2 w.1) s

/-- Set the zero bits of a 64 KiB frame: it enters the pre-zeroed pool (R215). -/
def State.zeroFrame (s : State) (f : Nat) : State :=
  { s with mem := Memory.without s.mem (f * 65536) (f * 65536 + 65536),
           units := s.units.filter fun e => !(decide (f * 1024 ≤ e.1) && decide (e.1 < (f + 1) * 1024)) }

/-- The contents of a 64 KiB frame move to another; the frame that they leave reads zero (R379). -/
def State.moveFrame (s : State) (a b : Nat) : State :=
  if a = b then s
  else
    let shift (base n k : Nat) : Nat := b * n + (k - base)
    let s1 := (s.zeroFrame a).zeroFrame b
    { s1 with
      mem := (s.mem.filter fun e => e.1 / 65536 == a).foldl (fun m e => spSet 0#8 m (shift (a * 65536) 65536 e.1) e.2) s1.mem
      units := (s.units.filter fun e => e.1 / 1024 == a).foldl (fun m e => spSet ⟨0, 0#64⟩ m (shift (a * 1024) 1024 e.1) e.2) s1.units }

/-- A zeroed frame of the pool, for the caller to map: one that has come back, else a fresh one (R68, R69). -/
def State.takeFrame (s : State) : Nat × State :=
  match s.freeFrames with
  | f :: rest => (f, { s with pool := s.pool - 1, freeFrames := rest }.zeroFrame f)
  | [] => (s.nextFrame, { s with pool := s.pool - 1, nextFrame := s.nextFrame + 1 }.zeroFrame s.nextFrame)

/-! Page tables (R210, R211) -/

/-- Fault kinds of a translation (R370). -/
inductive TKind where
  | notPresent | permission | format | atomicTile | device | remote
  deriving DecidableEq, Repr

/-- KIND of a fault record (R370). -/
def TKind.code : TKind → Nat
  | .notPresent => 1 | .permission => 2 | .format => 3 | .atomicTile => 4 | .device => 5 | .remote => 6

/-- How a walk ends. -/
inductive Walk where
  | leaf (pteAt pte shift : Nat)
  | anon (pteAt : Nat)
  | fail (k : TKind)
  deriving DecidableEq, Repr

/-- Levels of the tables: the shift of the index and its entries; whether a leaf may stand there (R210). -/
def walkLevels : List (Nat × Nat × Bool) :=
  [(48, 256, false), (39, 512, false), (30, 512, true), (21, 512, true), (16, 32, true)]

/-- One entry of a table, held under the resident kernel's key. -/
def State.pte (s : State) (a : Nat) : Nat := leNat (s.pmReadN kernelKey a 8)

/-- Bit i of an entry. -/
def nbit (x i : Nat) : Bool := x / 2 ^ i % 2 == 1

/-- FRAME of an entry as a physical address. -/
def pteFrame (e : Nat) : Nat := e / 4096 % 2 ^ 40 * 4096

/-- An address that is neither in the device's own memory nor in the link aperture (R5, R393; log entry 63). -/
def noMemory (pa : Nat) : Bool := decide (memTop ≤ pa) && decide (pa < linkBase)

/-- Walk the levels from a table (R211). A pointer's frame lies in the device's own memory, a leaf's there or in the link
aperture. -/
def State.walkFrom (s : State) (va : Nat) : List (Nat × Nat × Bool) → Nat → Walk
  | [], _ => .fail .format
  | (sh, n, leafOk) :: rest, tbl =>
    let at_ := tbl + 8 * (va / 2 ^ sh % n)
    let e := s.pte at_
    let last := rest.isEmpty
    if !nbit e 0 then (if last && nbit e 8 then .anon at_ else .fail .notPresent)
    else if e / 2 ^ 52 != 0 || e / 1024 % 4 != 0 then .fail .format
    else if e / 2 % 32 = 0 then
      if last || e / 64 % 16 != 0 || decide (memTop ≤ pteFrame e) then .fail .format
      else s.walkFrom va rest (pteFrame e)
    else if !leafOk || pteFrame e % 2 ^ sh != 0 || noMemory (pteFrame e) then .fail .format
    else .leaf at_ e sh

/-- Walk a context's tables for a generic address (R210). -/
def State.walk (s : State) (root va : Nat) : Walk := s.walkFrom (va % 2 ^ 56) walkLevels root

/-- Permission bits of R211 in an entry. -/
def pteR (e : Nat) : Bool := nbit e 1
def pteW (e : Nat) : Bool := nbit e 2
def pteX (e : Nat) : Bool := nbit e 3
def pteA (e : Nat) : Bool := nbit e 4
def pteM (e : Nat) : Bool := nbit e 5
def pteDev (e : Nat) : Bool := nbit e 9

/-- Write a table entry. -/
def State.setPte (s : State) (a e : Nat) : State := s.pmWriteN kernelKey a (leBytes 8 e)

/-- The tables down to the last of some levels for an address, made where they are missing (the resident kernel's
work); the address of the entry there, or of the leaf that stands above it. -/
def State.tablesFor (s : State) (va : Nat) : List (Nat × Nat × Bool) → Nat → State × Nat
  | [], tbl => (s, tbl)
  | [(sh, n, _)], tbl => (s, tbl + 8 * (va / 2 ^ sh % n))
  | (sh, n, _) :: rest, tbl =>
    let at_ := tbl + 8 * (va / 2 ^ sh % n)
    let e := s.pte at_
    if nbit e 0 then (if e / 2 % 32 != 0 then (s, at_) else s.tablesFor va rest (pteFrame e))
    else
      let f := s.nextFrame * 65536
      ({ s with nextFrame := s.nextFrame + 1 }.setPte at_ (f + 1)).tablesFor va rest f

/-- Write the entry of an address at a level of a context's tables, or the leaf that stands above it (R210, R212). -/
def State.mapAt (s : State) (root va level e : Nat) : State :=
  let r := s.tablesFor (va % 2 ^ 56) (walkLevels.take (level + 1)) root
  r.1.setPte r.2 e

/-- Map a 64 KiB page (R210). -/
def State.mapPage (s : State) (root va e : Nat) : State := s.mapAt root va 4 e

/-! On-chip arrays (R201-R205, R216) -/

/-- A number for the noise of an array. -/
def noiseKey (core : Nat) (a : Arr) : Nat :=
  4 * core + (match a with | .spad => 0 | .stack => 1 | .acc => 2) + 2 ^ 16

/-- An array of a core. -/
def Core.arr (c : Core) : Arr → Sparse (Option Owned)
  | .spad => c.spad
  | .stack => c.stack
  | .acc => c.acc

/-- Replace an array of a core. -/
def Core.setArr (c : Core) (a : Arr) (m : Sparse (Option Owned)) : Core :=
  match a with
  | .spad => { c with spad := m }
  | .stack => { c with stack := m }
  | .acc => { c with acc := m }

/-- Read a byte of an array as a context sees it: noise where another context, or none, wrote (R63, R216). -/
def State.arrRead (s : State) (ci : Nat) (p : Place) : Byte :=
  match spGet none ((s.core p.core).arr p.arr) p.off with
  | some o => if o.ctx = ci then o.byte else Config.noise (noiseKey p.core p.arr) p.off
  | none => Config.noise (noiseKey p.core p.arr) p.off

/-- Write a byte of an array. -/
def State.arrWrite (s : State) (ci : Nat) (p : Place) (b : Byte) : State :=
  s.modCore p.core fun c => c.setArr p.arr (spSet none (c.arr p.arr) p.off (some ⟨ci, b⟩))

/-- Write bytes of arrays in order. -/
def State.arrWriteAll (s : State) (ci : Nat) (ws : List (Place × Byte)) : State :=
  ws.foldl (fun s w => s.arrWrite ci w.1 w.2) s

/-- Element e of tile t of a core, as a word (R205). -/
def State.tileRead (s : State) (ci core t e : Nat) : Word :=
  BitVec.ofNat 32 (leNat ((upto (4096 * t + 4 * e) 4).map fun o => s.arrRead ci ⟨core, .acc, o⟩))

/-- Write an element of a tile (R205). -/
def State.tileWrite (s : State) (ci core t e : Nat) (w : Word) : State :=
  s.arrWriteAll ci (((upto (4096 * t + 4 * e) 4).map fun o => (⟨core, .acc, o⟩ : Place)).zip (leBytes 4 w.toNat))

/-- Read a byte of the Creamery of a die (R207). -/
def State.creamRead (s : State) (ci die off : Nat) : Byte :=
  match spGet none s.creamery (die * 2 ^ 30 + off) with
  | some o => if o.ctx = ci then o.byte else Config.noise 1 (die * 2 ^ 30 + off)
  | none => Config.noise 1 (die * 2 ^ 30 + off)

/-- Write a byte of the Creamery of a die (R207). -/
def State.creamWrite (s : State) (ci die off : Nat) (b : Byte) : State :=
  { s with creamery := spSet none s.creamery (die * 2 ^ 30 + off) (some ⟨ci, b⟩) }

/-! Messages of the window (R391, R392) -/

/-- Pad a list of bytes with zeros to a length. -/
def padTo (n : Nat) (l : List Byte) : List Byte := (l ++ List.replicate n 0#8).take n

/-- A message of 128 bytes (R392). -/
def message (kind status : Nat) (seq : Word) (ctx : Nat) (payload : List Byte) : List Byte :=
  padTo 128 (leBytes 2 kind ++ leBytes 2 status ++ leBytes 4 seq.toNat ++ leBytes 4 ctx ++ leBytes 4 0 ++ payload)

/-- Move waiting messages into the response ring while a slot is free (R391). -/
def State.flushBox (s : State) : List (List Byte) → State
  | [] => { s with outbox := [] }
  | m :: rest =>
    let t := s.rspTail.toNat % 128
    if t = (s.rspHead.toNat + 127) % 128 then { s with outbox := m :: rest }
    else
      { s with rspRing := spSetAll 0#8 s.rspRing ((upto (128 * t) 128).zip m),
               rspTail := BitVec.ofNat 64 ((t + 1) % 128) }.flushBox rest

/-- Send a message to the host; it waits while the ring is full (R391). -/
def State.send (s : State) (m : List Byte) : State := s.flushBox (s.outbox ++ [m])

/-- The response to a request (R392). -/
def State.respond (s : State) (kind status : Nat) (seq : Word) (ctx : Nat) (payload : List Byte) : State :=
  s.send (message kind status seq ctx payload)

/-- ASCII bytes of a status name. -/
def asciiBytes (t : String) : List Byte := t.toList.map fun c => BitVec.ofNat 8 c.toNat

/-- A context that is being killed or is killed (R378). -/
def Context.ending (c : Context) : Bool := c.stat == .dying || c.stat == .killed

/-- A context stops (R357): its groups issue no more, no team of it starts, the host is told. A
context that is not live keeps its status. -/
def State.stopContext (s : State) (ci : Nat) (why : String) : State :=
  match s.contexts[ci]? with
  | some c =>
    if c.stat = .live then
      (s.modCtx ci fun c => { c with stat := .stopped, why := why }).send
        (message 0x82 0 0#32 ci (padTo 32 (asciiBytes why)))
    else s
  | none => s

/-! Taking a trap (R353-R359) and returning from one (R366) -/

/-- A precise trap: class, cause, AUX, age index of the trapping record, whether it is `trap.bind`. -/
structure Trap where
  cls : Nat
  cause : Nat
  aux : Word
  record : Nat
  bind : Bool
  deriving DecidableEq, Repr

/-- The handler kernel that a value of `sys.trap_vec` names (R357, R358). -/
def Context.handlerAt (c : Context) (vec : BitVec 64) : Option Kernel :=
  (c.objs.flatMap Obj.kernels).find? fun k =>
    k.handler && decide (k.entry = vec) && decide (k.width = 32) && decide (k.team = 32) &&
      decide (k.stack = 0 ∧ k.tags = 0 ∧ k.queues = 0 ∧ k.acc = 0 ∧ k.shapes = 0) &&
      k.lpail.isNone && k.spail.isNone

/-- `sys.trap_vec` and `sys.trap_mask` as they govern a trap of a group: a `syswr` governs the traps of its own group
that follow it, and those of other groups from the ck after its issue (R382). -/
def State.trapRegs (s : State) (c : Context) (gi : Nat) (g : Group) : BitVec 64 × Word :=
  let here := c.sysWas.takeWhile fun w => w.1 != gi && (s.island (coreCluster g.core)).ckAt w.2.1 == s.groupCk g
  (here.getLast?.map fun w => w.2.2).getD (c.trapVec, c.trapMask)

/-- The route of a trap of a group that is no handler, under values of `sys.trap_vec` and `sys.trap_mask` (R357, steps 1
to 3). -/
def Context.route (c : Context) (regs : BitVec 64 × Word) (t : Trap) : Route :=
  if t.cls = 0x0F || t.bind then .kernel
  else if regs.2.getLsbD t.cls && (c.handlerAt regs.1).isSome then .handler
  else .kernel

/-- A bit as a number. -/
def bitNat (b : Bool) (n : Nat) : Nat := if b then 2 ^ n else 0

/-- The trap word (R356). -/
def trapWord (t : Trap) : Word :=
  BitVec.ofNat 32 (t.cls % 256 * 2 ^ 24 + t.cause % 256 * 2 ^ 16 + t.record % 128 * 2 ^ 8)

/-- The end of a phase (R339). -/
def Phase.fin (p : Phase) : Nat := p.start + p.len + 256

/-- The phase that a group holds open in a ck (R339): it closes at its end. -/
def Group.openAt (g : Group) (ck : Nat) : Option Phase := g.phase.filter fun p => decide (ck < p.fin)

/-- An open phase as R345 requests it again: length and intensity. -/
def Group.phaseAgain (g : Group) (now : Nat) : Option (Nat × Nat) :=
  (g.openAt now).map fun p => (Nat.max (Nat.min 0xFFFF (p.start + p.len - now)) 1, p.intensity)

/-- Positions of a record (R85). -/
def Rec.positions (r : Rec) : List Nat := (List.range r.n).map fun j => r.b + r.s * j

/-- A trap inside an open hold window leaves the window's run at its producer (R12, R354). DESIGN CHOICE (log entry
64): inside two overlapping windows it is the outermost producer, the one with the fewest issues left. -/
def Group.rewind (g : Group) : List Rec :=
  match leastBy Window.left g.windows with
  | none => g.recs
  | some w =>
    match g.windows.find? (fun x => x.left == w.left) with
    | none => g.recs
    | some w =>
      g.recs.map fun r =>
        if r.wait.isNone && r.positions.all w.run.contains then { r with pc := w.pc } else r

/-- Freeze a group with a trap state (R106, R354, R356): its records stand, its windows and its
phase close. -/
def Group.freeze (g : Group) (t : Trap) (pc : Addr) (rt : Route) (seq now : Nat) (vec : BitVec 64) : Group :=
  { g with stat := .frozen, recs := g.rewind, windows := [], latches := [], phase := none,
           step := if t.cls = 0x0F then g.step else none,
           trap := some { word := trapWord t, pc := pc, aux := t.aux, step := 0#32, route := rt,
                          seq := seq, phase := g.phaseAgain now, vec := vec } }

/-- The trap event of R392: trap word, PC, AUX, group and team number. -/
def trapMessage (ci : Nat) (t : Trap) (pc : Addr) (g team : Nat) : List Byte :=
  message 0x81 0 0#32 ci (leBytes 4 (trapWord t).toNat ++ leBytes 8 pc.toNat ++ leBytes 4 t.aux.toNat ++
    leBytes 4 t.record ++ leBytes 4 g ++ leBytes 8 team)

/-- Taking a trap: the one entry of every precise trap (R354-R359). The group freezes with its trap
state; the class decides the route; a trap for the resident kernel is reported, and without a
debugger it stops the context. Fetch traps and `trap.bind` are the kernel's own and are not reported; a trap
of a context that is being killed is not delivered (R378). -/
def State.takeTrap (s : State) (gi : Nat) (t : Trap) (pc : Addr) : State :=
  match s.groups[gi]? with
  | none => s
  | some g =>
    match s.contexts[g.ctx]? with
    | none => s
    | some c =>
      let regs := s.trapRegs c gi g
      let rt := if g.serves.isSome then Route.kernel else c.route regs t
      let s1 := { s with trapSeq := s.trapSeq + 1 }.modGroup gi fun g => g.freeze t pc rt s.trapSeq (s.groupCk g) regs.1
      if c.ending || (g.serves.isNone && (t.cls = 0x0F || t.bind)) then s1
      else
        match rt with
        | .handler => s1
        | .kernel =>
          let tn := (s.teams[g.team]?.map Team.t).getD 0
          let s2 := s1.send (trapMessage g.ctx t pc g.g tn)
          if c.debugger then s2
          else s2.stopContext g.ctx (if g.serves.isSome then "double trap" else "unhandled trap")

/-- The positions that the records of a list cover. -/
def allPositions (rs : List Rec) : List Nat := rs.flatMap Rec.positions

/-- A PC is legal (R33). -/
def pcLegal (pc : Addr) : Bool := [0, 12, 24, 36, 48].contains (pc.toNat % 64)

/-- No number stands twice. -/
def distinct : List Nat → Bool
  | [] => true
  | a :: rest => !rest.contains a && distinct rest

/-- Guarantee of range records of a group (R84); a handler has 4 of its own (R358). -/
def Group.guarantee (g : Group) : Nat :=
  if g.serves.isSome then 4 else if g.width = 16 then 2 else if g.width = 64 then 8 else 4

/-- Range records that a group holds. -/
def Group.rangeCount (g : Group) : Nat := (g.recs.filter fun r => !r.lane).length

/-- Entries of the core's shared pool in use (R84). -/
def State.poolUsed (s : State) (core : Nat) : Nat :=
  ((s.groups.filter fun g => g.core = core && g.stat ≠ .ended && g.serves.isNone &&
      ((s.teams[g.team]?.map fun t => decide (t.stat = .running)).getD false)).map
    fun g => g.rangeCount - g.guarantee).sum

/-- Range records that a group can still draw (R84). -/
def State.drawable (s : State) (g : Group) : Nat :=
  if g.serves.isSome then 4 - g.rangeCount
  else (g.guarantee - g.rangeCount) + (64 - s.poolUsed g.core)

/-- The limits of R85 on a range record of a group of W positions. DEDUCED (log entry 77): of a record with n = 1, whose s
reads as 1, they do not judge the s. -/
def Rec.rangeOk (r : Rec) (w : Nat) : Bool :=
  r.n != 0 && (r.n == 1 || (r.s != 0 && decide (r.s < w) && decide (r.b + r.s * (r.n - 1) < w)))

/-- Two records share a position. -/
def sharePositions : List Rec → Bool
  | [] => false
  | r :: rest => rest.any (fun q => q.positions.any r.positions.contains) || sharePositions rest

/-- The refusal code of `tret` for an edited group, or none (R366). -/
def State.tretCheck (s : State) (g : Group) : Option Nat :=
  let ps := allPositions g.recs
  let ranges := g.recs.filter fun r => !r.lane
  if sharePositions g.recs then some 1
  else if ps.any fun k => decide (g.width ≤ k) then some 2
  else if ranges.any fun r => !r.rangeOk g.width then some 3
  else if g.recs.any fun r => !pcLegal r.pc then some 4
  else if decide (g.guarantee + (64 - (s.poolUsed g.core - (g.rangeCount - g.guarantee))) < ranges.length) &&
      g.serves.isNone then some 5
  else if g.recs.any fun r => r.forms.any fun e => if r.lane then e.2.cls = .a else e.2.cls = .l then some 6
  else none

/-- An A form whose c1 is zero is recorded as U, whose c1 is zero (R86, R364). -/
def Form.norm (f : Form) : Form :=
  match f.cls with
  | .u => ⟨.u, f.c0, 0#32⟩
  | .a => if f.c1 = 0#32 then ⟨.u, f.c0, 0#32⟩ else ⟨.a, f.c0, f.c1⟩
  | .l => f
  | .d => Form.dead

/-- A record as it goes on from a frozen state: an n of 1 has s = 1 (R85), and its forms are canonical (R86, R364). -/
def Rec.norm (r : Rec) : Rec :=
  { r with s := if r.n = 1 then 1 else r.s, forms := r.forms.foldl (fun m e => spSet Form.dead m e.1 e.2.norm) [] }

/-- The resident kernel lets a frozen group go on without a `tret`, after a fetch trap or a lazy binding: its records, its
straggler count and its mark stand as they were frozen (R29, R106). -/
def Group.thaw (g : Group) : Group := { g with stat := .live, trap := none, recs := g.recs.map Rec.norm }

/-- Returning from a trap: the group goes on from its frozen state (R107, R366, actions 0 and 1):
the straggler count is reset and the mark goes to the head PC (R94), A forms with c1 = 0 become U, STEP selects a single
step (R365). -/
def Group.resume (g : Group) (pass : Bool) : Group :=
  let st := (g.trap.map TrapState.step).getD 0#32
  let recs := g.recs.map fun r => { r.norm with noWatch := pass || r.noWatch }
  { g with stat := .live, recs := recs, strag := 0,
           mark := ((leastBy (fun r : Rec => r.pc.toNat) (recs.filter fun r => r.wait.isNone)).map Rec.pc).getD g.mark,
           forced := false, trap := none,
           step := if st.getLsbD 7 && decide (st.toNat % 128 < recs.length) then some (st.toNat % 128) else none }

/-- Let a frozen group go on as it stood. -/
def State.thawGroup (s : State) (gi : Nat) : State := s.modGroup gi Group.thaw

/-- Resume a frozen group; its phase is requested again by the caller (R345). -/
def State.resumeGroup (s : State) (gi : Nat) (pass : Bool) : State := s.modGroup gi fun g => g.resume pass

end Sys2Proof.Machine
end

