-- ==== Sys2Proof/Machine/Ranges.lean ====
section
/-!
DEFINITION. Range records (R82-R107): values at positions, the fit rule (R123), expansion (R99),
merging (R100-R103), splitting (R96-R98), `rerange` (R104), and the landing of register writes
(R113, R416).
-/

namespace Sys2Proof.Machine

/-! Forms and values -/

/-- The form of register v`n` in a record. -/
def Rec.form (r : Rec) (n : Nat) : Form := spGet Form.dead r.forms n

/-- Write a form into a record. -/
def Rec.setForm (r : Rec) (n : Nat) (f : Form) : Rec := { r with forms := spSet Form.dead r.forms n f }

/-- A number of 32 bits. -/
def w32 (n : Nat) : Word := BitVec.ofNat 32 n

/-- The lane register v`n` of position k (R83). -/
def Group.lane (g : Group) (k n : Nat) : Word := spGet 0#32 g.lanes (64 * k + n)

/-- The value that a record's register holds at position k (R86, R87, R364). -/
def Group.valueIn (g : Group) (r : Rec) (n k : Nat) : Word :=
  let f := r.form n
  match f.cls with
  | .u => f.c0
  | .a => f.c0 + f.c1 * w32 k
  | .l => g.lane k n
  | .d => 0#32

/-- A record covers a position (R85). -/
def Rec.covers (r : Rec) (k : Nat) : Bool := r.positions.contains k

/-- The record that covers a position. -/
def Group.recAt (g : Group) (k : Nat) : Option Rec := g.recs.find? fun r => r.covers k

/-- The value of v`n` at a position of the group. -/
def Group.vAt (g : Group) (n k : Nat) : Word :=
  match g.recAt k with
  | some r => g.valueIn r n k
  | none => 0#32

/-- A form with the class that c1 fixes (R86). -/
def mkForm (c0 c1 : Word) : Form := if c1 = 0#32 then ⟨.u, c0, 0#32⟩ else ⟨.a, c0, c1⟩

/-- The value of a form at a position (R86). -/
def Form.at (f : Form) (k : Nat) : Word := f.c0 + f.c1 * w32 k

/-! The fit rule (R123) -/

/-- Factors of two of a number below 64, and its odd part. -/
def splitTwos : Nat → Nat → Nat × Nat
  | 0, d => (0, d)
  | n + 1, d => if d % 2 = 0 && d != 0 then ((splitTwos n (d / 2)).1 + 1, (splitTwos n (d / 2)).2) else (0, d)

/-- Inverse of an odd number modulo 2^32, by Newton's step. -/
def oddInverse (a : Word) : Word :=
  let step (x : Word) : Word := x * (2#32 - a * x)
  step (step (step (step (step a))))

/-- Every position has the value that (c0, c1) gives. -/
def fits (c0 c1 : Word) (vs : List (Nat × Word)) : Bool := vs.all fun p => c0 + c1 * w32 p.1 == p.2

/-- The form that values at ascending positions fit: of several, the one with the least c1 (R123). -/
def fitForm (vs : List (Nat × Word)) : Option Form :=
  match vs with
  | [] => some ⟨.u, 0#32, 0#32⟩
  | [(_, v)] => some ⟨.u, v, 0#32⟩
  | (k1, v1) :: (k2, v2) :: _ =>
    let (t, odd) := splitTwos 6 (k2 - k1)
    let delta := (v2 - v1).toNat
    if delta % 2 ^ t != 0 then none
    else
      let base := ((w32 (delta / 2 ^ t)) * oddInverse (w32 odd)).toNat % 2 ^ (32 - t)
      (((List.range (2 ^ t)).map fun j => w32 (base + j * 2 ^ (32 - t))).find? fun c1 =>
        fits (v1 - c1 * w32 k1) c1 vs).map fun c1 => mkForm (v1 - c1 * w32 k1) c1

/-! Expansion (R99) -/

/-- The lane record of position k of a range record: A becomes L, U and D stay. -/
def Rec.laneOf (r : Rec) (k : Nat) : Rec :=
  { r with lane := true, b := k, s := 1, n := 1,
           forms := r.forms.map fun e => if e.2.cls = .a then (e.1, ⟨.l, 0#32, 0#32⟩) else e }

/-- The lane registers that the expansion of a record writes. -/
def Rec.laneWrites (r : Rec) : List (Nat × Word) :=
  r.positions.flatMap fun k => (r.forms.filter fun e => e.2.cls = .a).map fun e => (64 * k + e.1, e.2.at k)

/-- Expand the range records that a test selects; each is replaced in its age place (R88, R99). -/
def Group.expand (g : Group) (sel : Rec → Bool) : Group :=
  let xs := g.recs.filter fun r => !r.lane && sel r
  { g with lanes := spSetAll 0#32 g.lanes (xs.flatMap Rec.laneWrites),
           recs := g.recs.flatMap fun r => if !r.lane && sel r then r.positions.map r.laneOf else [r] }

/-! Merging (R100-R103) -/

/-- Insert into a sorted list. -/
def insertNat (x : Nat) : List Nat → List Nat
  | [] => [x]
  | y :: rest => if x ≤ y then x :: y :: rest else y :: insertNat x rest

/-- Ascending order. -/
def sortNat (l : List Nat) : List Nat := l.foldr insertNat []

/-- Equally spaced ascending numbers: the step. -/
def spacing : List Nat → Option Nat
  | a :: b :: rest =>
    if ((b :: rest).zip rest).all fun p => p.2 - p.1 == b - a then some (b - a) else none
  | _ => none

/-- Registers that occur in either record. -/
def formKeys (x y : Rec) : List Nat := (x.forms.map fun e => e.1) ++ (y.forms.map fun e => e.1)

/-- The forms of two records agree wherever both are live (R100). -/
def formsAgree (x y : Rec) : Bool :=
  (formKeys x y).all fun n => (x.form n).cls == .d || (y.form n).cls == .d || x.form n == y.form n

/-- The merged record of two range records, x the elder, when they are mergeable (R100, R101). -/
def mergeRecs (x y : Rec) : Option Rec :=
  let ps := sortNat (x.positions ++ y.positions)
  match spacing ps, ps with
  | some d, b :: _ =>
    if formsAgree x y then
      some { x with b := b, s := d, n := ps.length, noWatch := x.noWatch && y.noWatch,
                    forms := x.forms.filter fun e => (y.form e.1).cls != .d }
    else none
  | _, _ => none

/-- Merge x with the first later record of the run that it can join: the record and the others. -/
def mergeWith (sel : Rec → Bool) (x : Rec) : List Rec → Option (Rec × List Rec)
  | [] => none
  | y :: rest =>
    match (if !y.lane && sel y then mergeRecs x y else none) with
    | some m => some (m, rest)
    | none => (mergeWith sel x rest).map fun p => (p.1, y :: p.2)

/-- One merge, the first pair in ascending age. -/
def mergeOnce (sel : Rec → Bool) : List Rec → Option (List Rec)
  | [] => none
  | x :: rest =>
    match (if !x.lane && sel x then mergeWith sel x rest else none) with
    | some (m, rest') => some (m :: rest')
    | none => (mergeOnce sel rest).map (x :: ·)

/-- Merges until none is left (R103). -/
def mergeAll (sel : Rec → Bool) : Nat → List Rec → List Rec
  | 0, rs => rs
  | n + 1, rs =>
    match mergeOnce sel rs with
    | some rs' => mergeAll sel n rs'
    | none => rs

/-! Splitting (R96-R98) -/

/-- Where a position goes at a transfer: out of the group, or to a PC. -/
abbrev Dest := Option Addr

/-- Maximal runs of equal outcome: length and outcome (R96). -/
def outcomeRuns : List Dest → List (Nat × Dest)
  | [] => []
  | d :: rest =>
    match outcomeRuns rest with
    | (n, e) :: more => if d = e then (n + 1, e) :: more else (1, d) :: (n, e) :: more
    | [] => [(1, d)]

/-- Pieces of the interval case: start index and length per run. -/
def intervalPieces (r : Rec) : Nat → List (Nat × Dest) → List (Rec × Dest)
  | _, [] => []
  | j, (n, d) :: rest =>
    ({ r with b := r.b + r.s * j, n := n, s := if n = 1 then 1 else r.s }, d) :: intervalPieces r (j + n) rest

/-- The outcome depends only on j mod p. -/
def periodicIn (p : Nat) (ds : List Dest) : Bool :=
  (List.range ds.length).all fun j => ds[j]? == ds[j % p]?

/-- Pieces of the periodic case: one per nonempty residue class (R96). -/
def periodicPieces (r : Rec) (p : Nat) (ds : List Dest) : List (Rec × Dest) :=
  (List.range p).filterMap fun q =>
    if q < r.n then
      let n := (r.n - q + p - 1) / p
      (ds[q]?).map fun d => ({ r with b := r.b + r.s * q, s := if n = 1 then 1 else r.s * p, n := n }, d)
    else none

/-- The pieces of a divergent range record, or none in the "Other" case (R96). -/
def splitPieces (r : Rec) (ds : List Dest) : Option (List (Rec × Dest)) :=
  let runs := outcomeRuns ds
  if runs.length ≤ 3 then some (intervalPieces r 0 runs)
  else ([2, 4, 8].find? fun p => periodicIn p ds).map fun p => periodicPieces r p ds

/-- Insert a piece by its lowest position (R88). -/
def insertPiece (x : Rec × Dest) : List (Rec × Dest) → List (Rec × Dest)
  | [] => [x]
  | y :: rest => if x.1.b ≤ y.1.b then x :: y :: rest else y :: insertPiece x rest

/-- A record with its outcome's PC, or nothing when it leaves the group. -/
def moveRec (p : Rec × Dest) : Option Rec := p.2.map fun pc => { p.1 with pc := pc }

/-- The records that replace one record at a transfer, and whether it expands (R96-R98). `avail` is what the group can
draw beyond the record's own entry. -/
def transferRec (r : Rec) (dest : Nat → Dest) (avail : Nat) : List Rec × Bool :=
  let ds := r.positions.map dest
  let lanes := (r.positions.filterMap fun k => moveRec (r.laneOf k, dest k), true)
  match ds with
  | [] => ([], false)
  | d :: rest =>
    if r.lane || rest.all (· == d) then ((moveRec (r, d)).toList, false)
    else
      match splitPieces r ds with
      | none => lanes
      | some ps =>
        let kept := (ps.foldr insertPiece []).filterMap moveRec
        if kept.length - 1 ≤ avail then (kept, false) else lanes

/-- What the group can draw after a record's transfer: a range record gives up its own entry and takes one for each
range record that replaces it. -/
def drawAfter (r : Rec) (out : List Rec) (avail : Nat) : Nat :=
  if r.lane then avail else avail + 1 - (out.filter fun x => !x.lane).length

/-- A transfer over the run's records in age order; each draws what the earlier ones left, the entries that they freed
among it (R84, R97). Expanded records write their lane registers. -/
def transferAll (sel : Rec → Bool) (dest : Nat → Dest) : Nat → List Rec → List Rec × List (Nat × Word)
  | _, [] => ([], [])
  | avail, r :: rest =>
    if sel r then
      let t := transferRec r dest avail
      let more := transferAll sel dest (drawAfter r t.1 avail) rest
      (t.1 ++ more.1, (if t.2 then r.laneWrites else []) ++ more.2)
    else
      let more := transferAll sel dest avail rest
      (r :: more.1, more.2)

/-- The outcomes of a run differ at some record (R96). -/
def diverges (rs : List Rec) (dest : Nat → Dest) : Bool :=
  rs.any fun r =>
    match r.positions.map dest with
    | [] => false
    | d :: rest => !rest.all (· == d)

/-! `rerange` (R104) -/

/-- c1 of a register from two values at distance d, when d divides their signed difference. -/
def rerangeC1 (v1 v2 : Word) (d : Nat) : Option Word :=
  let delta := (v2 - v1).toInt
  if delta % (d : Int) = 0 then some (BitVec.ofInt 32 (delta / (d : Int))) else none

/-- The forms of a piece opened by two lane records, or none when it closes with one (step 3). -/
def pieceForms (g : Group) (x y : Rec) : Option (Sparse Form) :=
  let keys := (List.range 64).filter fun n => (x.form n).cls != .d || (y.form n).cls != .d
  keys.foldr (fun n acc =>
    match acc with
    | none => none
    | some fs =>
      if (x.form n).cls == .d || (y.form n).cls == .d then none
      else
        let v1 := g.valueIn x n x.b
        (rerangeC1 v1 (g.valueIn y n y.b) (y.b - x.b)).map fun c1 =>
          (n, mkForm (v1 - c1 * w32 x.b) c1) :: fs) (some [])

/-- A lane record belongs to a piece: same dead registers, every live value on its form (step 4). -/
def onPiece (g : Group) (fs : Sparse Form) (r : Rec) : Bool :=
  (List.range 64).all fun n =>
    let f := spGet Form.dead fs n
    if f.cls == .d then (r.form n).cls == .d
    else (r.form n).cls != .d && g.valueIn r n r.b == f.at r.b

/-- Extend a piece from position k by step d: the positions it takes (step 4). -/
def extendPiece (g : Group) (fs : Sparse Form) (d : Nat) (free : List Rec) : Nat → Nat → List Nat
  | 0, _ => []
  | n + 1, k =>
    match free.find? (fun r => r.b == k + d) with
    | some r => if onPiece g fs r then (k + d) :: extendPiece g fs d free n (k + d) else []
    | none => []

/-- Greedy pieces over the unplaced lane records, ascending: positions and forms (steps 1 to 5). -/
def rerangePieces (g : Group) : Nat → List Rec → List (List Nat × Sparse Form)
  | 0, _ => []
  | fuel + 1, free =>
    match free with
    | [] => []
    | [x] => [([x.b], [])]
    | x :: y :: rest =>
      match pieceForms g x y with
      | none => ([x.b], []) :: rerangePieces g fuel (y :: rest)
      | some fs =>
        let ps := x.b :: y.b :: extendPiece g fs (y.b - x.b) rest 64 y.b
        (ps, fs) :: rerangePieces g fuel (rest.filter fun r => !ps.contains r.b)

/-- The pieces that become range records, as far as entries can be drawn (step 5). -/
def servePieces : Nat → List (List Nat × Sparse Form) → List (List Nat × Sparse Form)
  | _, [] => []
  | avail, (ps, fs) :: rest =>
    if decide (2 ≤ ps.length) && decide (0 < avail) then (ps, fs) :: servePieces (avail - 1) rest
    else servePieces avail rest

/-- The range record of a piece, from the lane record at its first position (R104). -/
def pieceRec (r : Rec) (ps : List Nat) (fs : Sparse Form) : Rec :=
  { r with lane := false, b := ps.headD 0, s := (ps.getD 1 0) - ps.headD 0, n := ps.length, forms := fs }

/-- Replace lane records by the pieces: a piece stands at the place of its eldest record (R88). -/
def placePieces (pieces : List (List Nat × Sparse Form)) : List Nat → List Rec → List Rec
  | _, [] => []
  | done, r :: rest =>
    if !r.lane then r :: placePieces pieces done rest
    else
      match pieces.find? (fun p => p.1.contains r.b) with
      | none => r :: placePieces pieces done rest
      | some p =>
        if done.contains (p.1.headD 0) then placePieces pieces done rest
        else pieceRec r p.1 p.2 :: placePieces pieces (p.1.headD 0 :: done) rest

/-- Sort lane records by position. -/
def insertRec (x : Rec) : List Rec → List Rec
  | [] => [x]
  | y :: rest => if x.b ≤ y.b then x :: y :: rest else y :: insertRec x rest

/-- `rerange` on the run's lane records (R104). -/
def Group.rerange (g : Group) (sel : Rec → Bool) (avail : Nat) : Group :=
  let lanes := (g.recs.filter fun r => r.lane && sel r).foldr insertRec []
  let pieces := servePieces avail (rerangePieces g 65 lanes)
  { g with recs := placePieces pieces [] g.recs }

/-! Landing of register writes (R113, R416) -/

/-- Write values of a v register at positions into one record (R416): the record or the lane records
that replace it, and lane registers. A range record that the write reaches in part expands, unless it holds the form
that was computed for it (R121). -/
def landRec (reg : Nat) (vals : List (Nat × Word)) (form : Option Form) (r : Rec) :
    List Rec × List (Nat × Word) :=
  let hits := vals.filter fun p => r.covers p.1
  match hits with
  | [] => ([r], [])
  | (k, v) :: _ =>
    if r.lane then
      if (form.map fun f => decide (f.cls = .u)).getD false then ([r.setForm reg ⟨.u, v, 0#32⟩], [])
      else ([r.setForm reg ⟨.l, 0#32, 0#32⟩], [(64 * k + reg, v)])
    else
      let f := match form with
        | some f => some f.norm
        | none => fitForm ((r.positions.filterMap fun k => hits.find? fun p => p.1 == k))
      match (if hits.length = r.n || (form.map fun x => r.form reg == x.norm).getD false then f else none) with
      | some f => ([r.setForm reg f], [])
      | none =>
        (r.positions.map fun k =>
            let l := r.laneOf k
            if hits.any fun p => p.1 == k then l.setForm reg ⟨.l, 0#32, 0#32⟩ else l,
          r.laneWrites ++ hits.map fun p => (64 * p.1 + reg, p.2))

/-- Write values of a v register at positions of a group (R416); there are 64 registers. -/
def Group.landV (g : Group) (reg : Nat) (vals : List (Nat × Word)) (form : Option Form) : Group :=
  if 64 ≤ reg then g else
  let out := g.recs.map (landRec reg vals form)
  { g with recs := out.flatMap fun o => o.1, lanes := spSetAll 0#32 g.lanes (out.flatMap fun o => o.2) }

/-- What is left of an older write after a younger one to the same places (R113). -/
def RegWrite.minus (old new : RegWrite) : Option RegWrite :=
  match old, new with
  | .v r vs f, .v r' vs' _ =>
    if r = r' then
      let left := vs.filter fun p => !(vs'.any fun q => q.1 == p.1)
      if left.isEmpty then none else some (.v r left f)
    else some old
  | .s r _, .s r' _ => if r = r' then none else some old
  | .p n m b, .p n' m' _ => if n = n' then some (.p n (m &&& ~~~m') b) else some old
  | .hl n vs f, .hl n' vs' _ =>
    if n = n' then
      let left := vs.filter fun p => !(vs'.any fun q => q.1 == p.1)
      if left.isEmpty then none else some (.hl n left f)
    else some old
  | .c n _, .c n' _ => if n = n' then none else some old
  | _, _ => some old

/-- Destinations that a write reaches, as a slot's skip list names them: v registers by position from 0, s registers
from 64 and latches by position from 128 (R113). -/
def RegWrite.places : RegWrite → List (Nat × Nat)
  | .v r vs _ => vs.map fun p => (r, p.1)
  | .s r _ => [(64 + r, 0)]
  | .hl n vs _ => vs.map fun p => (128 + n, p.1)
  | _ => []

/-- The positions at which a younger write of a latch has not overtaken the older one of HOLD (R113). -/
def keepHold (w : RegWrite) (hold : Nat) (ps : List Nat) : List Nat :=
  match w with
  | .hl n vs _ => if hold = n + 1 then ps.filter fun k => !(vs.any fun v => v.1 == k) else ps
  | _ => ps

/-- An s destination that a younger write to the same register has overtaken is written no more (R113). -/
def keepDst (w : RegWrite) (dst : Option Nat) : Option Nat :=
  match w with
  | .s r _ => if dst = some r then none else dst
  | _ => dst

/-- A queued `atoms` that has not been performed yet does not write the places that a younger write has taken. -/
def StoreEnt.skipping (ord : Nat) (w : RegWrite) (e : StoreEnt) : StoreEnt :=
  match e with
  | .atom o sig cnt op ty els dst hold skip =>
    .atom o sig cnt op ty els dst hold (if o < ord then skip ++ w.places else skip)
  | e => e

/-- A wait under way does not write an s register, or a latch, that a younger write has taken. -/
def Rec.dropDst (ord : Nat) (x : RegWrite) (r : Rec) : Rec :=
  { r with wait := r.wait.map fun (w : Wait) =>
      if w.ord < ord then { w with dst := keepDst x w.dst, ps := keepHold x w.hold w.ps } else w }

/-- Older writes still to come to the same places are discarded when a younger one lands (R113): results in flight,
tile work, the operand log, queued `atoms`, waits and submitted tasks. -/
def Group.dropOlder (g : Group) (ord : Nat) (w : RegWrite) : Group :=
  { g with
    wb := g.wb.map fun e => if decide (e.ord < ord) then { e with ws := e.ws.filterMap fun o => o.minus w } else e,
    work := g.work.map fun e => if decide (e.ord < ord) then { e with ws := e.ws.filterMap fun o => o.minus w } else e,
    oplog := g.oplog.map fun e => if decide (e.ord < ord) then { e with skip := e.skip ++ w.places } else e,
    storeq := g.storeq.map (StoreEnt.skipping ord w),
    recs := g.recs.map (Rec.dropDst ord w),
    submit := g.submit.map fun e => if e.ord < ord then { e with dst := keepDst w e.dst, ps := keepHold w e.hold e.ps } else e }

/-- The number that stands for operand 0xFF in a predicate position: it reads false and discards (R38, R40). -/
def noPred : Nat := 8

/-- A predicate register as a mask (R89); p7 reads true (R41). -/
def Group.pmask (g : Group) (n : Nat) : BitVec 64 :=
  if n = 7 then BitVec.allOnes 64 else if n = noPred then 0#64 else spGet 0#64 g.p n

/-- Write predicate bits; p7 ignores writes (R41). -/
def Group.setP (g : Group) (n : Nat) (mask bits : BitVec 64) : Group :=
  if n = 7 ∨ n = noPred then g else { g with p := spSet 0#64 g.p n ((g.pmask n &&& ~~~mask) ||| (bits &&& mask)) }

/-- Write an s register. -/
def Group.setS (g : Group) (n : Nat) (v : Word) : Group := { g with s := spSet 0#32 g.s n v }

/-- Count bytes that have landed or been performed (R218). -/
def Group.countDown (g : Group) (cq n : Nat) : Group :=
  { g with bc := spSet 0#32 g.bc cq (spGet 0#32 g.bc cq - w32 n),
           bcDrop := spSet 0#32 g.bcDrop cq (spGet 0#32 g.bcDrop cq + w32 n) }

/-- A bc register as a source reads it: the count before this ck's subtractions (R218). -/
def Group.bcRead (g : Group) (n : Nat) : Word := spGet 0#32 g.bc n + spGet 0#32 g.bcDrop n

/-- Apply one register write of a group; a push is the team's. -/
def Group.apply (g : Group) (w : RegWrite) : Group :=
  match w with
  | .v r vs f => g.landV r vs f
  | .s r v => g.setS r v
  | .p n m b => g.setP n m b
  | .c n v => { g with c := spSet 0#32 g.c n v }
  | .hl n vs f =>
    let old := (spGet none g.latches n).getD ⟨[]⟩
    let kept := old.vals.filter fun p => !(vs.any fun q => q.1 == p.1)
    { g with latches := spSet none g.latches n (some ⟨(vs.map fun p => (p.1, p.2, f)) ++ kept⟩) }
  | .count n b => g.countDown n b
  | .push _ _ => g

/-- An entry enters a queue (R220, R221). -/
def Queue.enter (q : Queue) (e : List Word) (now : Nat) : Queue :=
  { q with entries := q.entries ++ [e], lastPush := now, pushed := (if q.lastPush = now then q.pushed else 0) + 1 }

/-- The head entry leaves a queue (R221). -/
def Queue.leave (q : Queue) (now : Nat) : Queue :=
  { q with entries := q.entries.drop 1, lastPop := now, popped := (if q.lastPop = now then q.popped else 0) + 1 }

/-- Entries that a pop may take in a ck: those pushed in it are not yet there (R221). -/
def Queue.here (q : Queue) (now : Nat) : Nat := q.entries.length - (if q.lastPush = now then q.pushed else 0)

/-- Entries that count against a push in a ck: present, in flight, or freed in it (R220, R221). -/
def Queue.held (q : Queue) (now : Nat) : Nat :=
  q.entries.length + q.flight + (if q.lastPop = now then q.popped else 0)

/-- Append an entry that was in flight to a queue of a team (R220, R221). -/
def State.pushEntry (s : State) (ti q : Nat) (ws : List Word) : State :=
  s.modTeam ti fun t => { t with queues := modAt t.queues q fun q => { q.enter ws (s.teamCk ti) with flight := q.flight - 1 } }

/-- Land one register write of a group in program order (R112, R113, R220); a handler's coefficients are
the trapped group's (R359). -/
def State.land (s : State) (gi ord : Nat) (w : RegWrite) : State :=
  match w, s.groups[gi]? with
  | .push q ws, some g => s.pushEntry g.team q ws
  | .c _ _, some g => s.modGroup (g.serves.getD gi) fun g => (g.dropOlder ord w).apply w
  | _, _ => s.modGroup gi fun g => (g.dropOlder ord w).apply w

/-- Insert an in-flight result by its time and program order. -/
def insertDue (x : Inflight) : List Inflight → List Inflight
  | [] => [x]
  | y :: rest => if x.due < y.due ∨ x.due = y.due ∧ x.ord ≤ y.ord then x :: y :: rest else y :: insertDue x rest

/-- Results in flight in the order in which they land. -/
def Group.byDue (g : Group) : List Inflight := g.wb.foldr insertDue []

/-- A group once some results in flight are there. -/
def Group.withResults (g : Group) (es : List Inflight) : Group :=
  es.foldl (fun g e => e.ws.foldl (fun g w => (g.dropOlder e.ord w).apply w) g) g

/-- The group as its values stand at a ck later than the present one: results due by then are there (R112, R152), and
bytes that count out in that ck itself are not subtracted yet for a source read (R218). -/
def Group.viewAt (g : Group) (ck : Nat) : Group :=
  let early := g.withResults (g.byDue.filter fun e => decide (e.due < ck))
  ({ early with bcDrop := [] } : Group).withResults (g.byDue.filter fun e => decide (e.due = ck))

/-- Land several writes in order. -/
def State.landAll (s : State) (gi ord : Nat) (ws : List RegWrite) : State :=
  ws.foldl (fun s w => s.land gi ord w) s

end Sys2Proof.Machine
end

