-- ==== Sys2Proof/Machine/Flags.lean ====
section
/-!
DEFINITION. Flags: completion flags cf0-cf11 (R49, R50), guards (R32, R48) and the comparisons that
predicates take (R133, R192 by code).
-/

namespace Sys2Proof.Machine

/-- Completion flag cf`j` (R49). -/
def Group.flag (g : Group) (j : Nat) : Nat := spGet 0 g.cf j

/-- A completion flag as it reads, six bits (R10, R50): the issues of a run that no flag could hold wait for room beside it
(log entry 71). -/
def Group.flagRead (g : Group) (j : Nat) : Nat := Nat.min 63 (g.flag j)

/-- SIG = sig: n issues enter flight (R49). SIG 0 names none. -/
def Group.sigUp (g : Group) (sig n : Nat) : Group :=
  if sig = 0 then g else { g with cf := spSet 0 g.cf (sig - 1) (g.flag (sig - 1) + n) }

/-- SIG = sig: n issues complete (R49). -/
def Group.sigDown (g : Group) (sig n : Nat) : Group :=
  if sig = 0 then g else { g with cf := spSet 0 g.cf (sig - 1) (g.flag (sig - 1) - n) }

/-- Every flag that WAIT names reads zero (R32). -/
def Group.waitMet (g : Group) (wait : BitVec 12) : Bool :=
  (List.range 12).all fun j => !wait.getLsbD j || g.flag j == 0

/-- Flag room (R50): the flag stays at or below 63, or reads zero for a run that no flag could hold. -/
def Group.flagRoom (g : Group) (sig n : Nat) : Bool :=
  sig == 0 || g.flag (sig - 1) == 0 || decide (g.flag (sig - 1) + n ≤ 63)

/-- Positions at which a guard is true, as a mask (R32, R48). -/
def Group.guardMask (g : Group) (guard : BitVec 4) : BitVec 64 :=
  let m := g.pmask (guard.toNat % 8)
  if guard.getLsbD 3 then ~~~m else m

/-- A mask of positions. -/
def maskOf (ps : List Nat) : BitVec 64 := ps.foldl (fun m k => m ||| BitVec.twoPow 64 k) 0#64

/-- A mask of the positions whose bit is set. -/
def maskBits (ps : List (Nat × Bool)) : BitVec 64 := maskOf ((ps.filter fun p => p.2).map fun p => p.1)

/-- Width of a type's values in bits (R9). -/
def tyBits (ty : Ty) : Nat := if ty.wide then 64 else 32

/-- Signed types (R9). -/
def tySigned : Ty → Bool
  | .i32 | .i64 | .i8 => true
  | _ => false

/-- A w-bit value as an integer, signed or unsigned by type (R119). -/
def asInt (signed : Bool) (w : Nat) (x : BitVec 64) : Int :=
  let n := x.toNat % 2 ^ w
  if signed && decide (2 ^ (w - 1) ≤ n) then (n : Int) - 2 ^ w else n

/-- The result of `cmp` (R133). -/
def cmpBit (cc : Cc) (ty : Ty) (a b : BitVec 64) : Bool :=
  let x := asInt (tySigned ty) (tyBits ty) a
  let y := asInt (tySigned ty) (tyBits ty) b
  match cc with
  | .eq => decide (x = y)
  | .ne => decide (x ≠ y)
  | .lt => decide (x < y)
  | .ge => decide (y ≤ x)

end Sys2Proof.Machine
end

