-- ==== Sys2Proof/Machine/Operands.lean ====
section
/-!
DEFINITION. Operands: the run that a group issues next (R91-R95), operand kinds and allotments
(R38-R40, R118), dead reads and stale latches (R40, R12), and the class, form and value of every
source form (R59, R86, R119, R225).
-/

namespace Sys2Proof.Machine

/-! The run that issues next -/

/-- A record is ready (R91). -/
def Rec.ready (r : Rec) : Bool := r.wait.isNone

/-- The lowest PC of ready records (R91). -/
def Group.headPc (g : Group) : Option Addr :=
  (leastBy (fun r : Rec => r.pc.toNat) (g.recs.filter Rec.ready)).map Rec.pc

/-- PCs of ready records above a PC. -/
def Group.pcsAbove (g : Group) (pc : Addr) : List Addr :=
  ((g.recs.filter fun r => r.ready && decide (pc.toNat < r.pc.toNat)).map Rec.pc)

/-- The lowest of some PCs. -/
def lowestPc (ps : List Addr) : Option Addr := leastBy BitVec.toNat ps

/-- The positions of the ready records at a PC. -/
def Group.readyAt (g : Group) (pc : Addr) : List Nat :=
  allPositions (g.recs.filter fun r => r.ready && r.pc == pc)

/-- The forced run of R94: the lowest ready run above the head and the mark, else above the head. -/
def Group.forcedPc (g : Group) (head : Addr) : Option Addr :=
  let above := g.pcsAbove head
  match lowestPc (above.filter fun p => decide (g.mark.toNat < p.toNat)) with
  | some p => some p
  | none => lowestPc above

/-- The positions that open windows bind (R12, R52). -/
def Group.windowRun (g : Group) : List Nat := g.windows.flatMap Window.run

/-- The run that the group issues next: PC and positions (R52, R91, R94, R365). -/
def Group.pick (g : Group) : Option (Addr × List Nat) :=
  match g.step with
  | some j =>
    match g.recs[j]? with
    | some r => if r.ready then some (r.pc, r.positions) else none
    | none => none
  | none =>
    let bound := g.recs.filter fun r => r.ready && r.positions.all g.windowRun.contains
    match g.windows, bound with
    | _ :: _, r :: _ => some (r.pc, allPositions (bound.filter fun x => x.pc == r.pc))
    | _, _ =>
      match g.headPc with
      | none => none
      | some h =>
        match (if g.forced then g.forcedPc h else none) with
        | some p => some (p, g.readyAt p)
        | none => some (h, g.readyAt h)

/-- An instruction being issued: the group before and after the merges of R103, its run's positions,
its team, task, kernel and context, and the ck. -/
structure Iss where
  gi : Nat
  g0 : Group
  g : Group
  k : Ctl
  pc : Addr
  sel : List Nat
  ci : Nat
  ctx : Context
  ti : Nat
  t : Team
  task : Task
  kern : Kernel
  now : Nat
  /-- the issue is only tried, up to check 7 of R54 -/
  trial : Bool

/-- The side of a pair that the group runs on: 1 on the odd core of a paired team (R21). -/
def Iss.side (i : Iss) : Nat := if i.kern.paired then i.g.core % 2 else 0

/-- What the team holds on the group's core. -/
def Iss.seat (i : Iss) : Seat := i.t.seat i.g.core

/-- Where the team keeps queue n of the group's core (R219). -/
def Iss.queueIx (i : Iss) (n : Nat) : Nat := i.side * i.kern.queues + n

/-- The queue that a name reaches. -/
def Iss.queue (i : Iss) (n : Nat) : Option Queue := i.t.queues[i.queueIx n]?

/-- Where the team keeps tag n of the group's core (R217). -/
def Iss.tagIx (i : Iss) (n : Nat) : Nat := 64 * i.side + n

/-- A record belongs to the run. -/
def Iss.inRun (i : Iss) (r : Rec) : Bool := r.ready && r.positions.all i.sel.contains

/-- The records of the run. -/
def Iss.run (i : Iss) : List Rec := i.g.recs.filter i.inRun

/-- Positions of the run whose guard is true, ascending. The guard is read once, in the ck in which the run's issue starts
(DESIGN CHOICE, log entry 72). -/
def Iss.on (i : Iss) : List Nat :=
  let m := i.g0.guardMask i.k.guard
  (sortNat i.sel).filter fun k => m.getLsbD k

/-- Positions of a record whose guard is true. -/
def Iss.onIn (i : Iss) (r : Rec) : List Nat :=
  let m := i.g0.guardMask i.k.guard
  r.positions.filter fun k => m.getLsbD k

/-- The group that issues in this step, and whether its instruction is only tried. -/
def Issuer.groupOf : Issuer → Option (Nat × Bool)
  | .group gi => some (gi, false)
  | .trial gi => some (gi, true)
  | .pail _ => none

/-- The issue of the step's group: its next run, merged unless it is single-stepped (R103, R365). -/
def State.iss (s : State) (k : Ctl) : Option Iss :=
  match s.issuer.bind Issuer.groupOf with
  | some (gi, trial) =>
    (s.groups[gi]?).bind fun g => g.pick.bind fun p =>
      (s.contexts[g.ctx]?).bind fun c => (s.teams[g.team]?).bind fun t => (s.tasks[t.task]?).map fun task =>
        let sel (r : Rec) : Bool := r.ready && r.positions.all p.2.contains
        let coefs := match g.serves with
          | some sg => ((s.groups[sg]?).map Group.c).getD []
          | none => g.c
        let g1 := { g with c := coefs }
        let g' := if g.step.isSome then g1 else { g1 with recs := mergeAll sel g1.recs.length g1.recs }
        { gi := gi, g0 := g, g := g', k := k, pc := p.1, sel := p.2, ci := g.ctx, ctx := c, ti := g.team,
          t := t, task := task, kern := task.kern, now := s.groupCk g, trial := trial }
  | none => none

/-! Operand kinds (R38-R40) -/

/-- The kinds of R38. -/
inductive Kind where
  | v | s | bc | dq | p | shp | acc | c | hl | zr | reserved
  deriving DecidableEq, Repr

/-- The kind of an operand. -/
def opKind : Opnd → Kind
  | .v _ => .v | .s _ => .s | .bc _ => .bc | .dq _ => .dq | .p _ => .p | .shp _ => .shp
  | .acc _ => .acc | .c _ => .c | .hl _ => .hl | .zr => .zr | .reserved _ => .reserved

/-- The number of an operand within its kind. -/
def opNum : Opnd → Nat
  | .v n => n.val | .s n => n.val | .bc n => n.val | .dq n => n.val | .p n => n.val | .shp n => n.val
  | .acc n => n.val | .c n => n.val | .hl n => n.val | .zr => 0 | .reserved n => n.val

/-- What a position of an instruction admits: kinds, the multiple its v or s number must be, and how
many registers it reads there (0 for a destination). -/
structure Need where
  o : Opnd
  kinds : List Kind
  mult : Nat
  reads : Nat
  deriving DecidableEq, Repr

/-- A destination in v or s, or discarded (R118). -/
def dstVS (o : Opnd) (mult : Nat := 1) : Need := ⟨o, [.v, .s, .zr], mult, 0⟩

/-- A 32-bit source (R118). -/
def src1 (o : Opnd) : Need := ⟨o, [.v, .s, .bc, .hl, .zr], 1, 1⟩

/-- A source pair (R119). -/
def src2 (o : Opnd) : Need := ⟨o, [.v, .s, .bc, .hl, .zr], 2, 2⟩

/-- A source of a type's width. -/
def srcT (ty : Ty) (o : Opnd) : Need := if ty.wide then src2 o else src1 o

/-- A destination of a type's width. -/
def dstT (ty : Ty) (o : Opnd) : Need := dstVS o (if ty.wide then 2 else 1)

/-- A predicate destination, or discarded (R40, R118). -/
def predN (o : Opnd) : Need := ⟨o, [.p, .zr], 1, 0⟩

/-- A predicate source; 0xFF reads false (R40, R118). -/
def predS (o : Opnd) : Need := ⟨o, [.p, .zr], 1, 1⟩

/-- An address pair (R226). -/
def pairN (o : Opnd) : Need := ⟨o, [.v, .s, .zr], 2, 2⟩

/-- An accumulator tile (R270). -/
def accN (o : Opnd) : Need := ⟨o, [.acc], 1, 0⟩

/-- A register name lies within the kernel's allotment (R39). -/
def inAllot (k : Kernel) : Opnd → Bool
  | .acc n => decide (n.val < k.acc)
  | .dq n => decide (n.val < k.queues)
  | .shp n => decide (n.val < k.shapes)
  | _ => true

/-- An operand is of an admitted kind, even where a pair is named, and within the allotment (R40). Of the latches hl0 and
hl1 make a pair (R119; DEDUCED, log entry 79). -/
def Need.ok (k : Kernel) (n : Need) : Bool :=
  n.kinds.contains (opKind n.o) && inAllot k n.o &&
    (match n.o with
     | .v x => x.val % n.mult == 0 && decide (x.val + n.reads ≤ 64)
     | .s x => x.val % n.mult == 0 && decide (x.val + n.reads ≤ 56)
     | .bc x => x.val % n.mult == 0 && decide (x.val + n.reads ≤ 8)
     | .hl x => x.val % n.mult == 0 && decide (x.val + n.reads ≤ 3)
     | _ => true)

/-- Why an instruction does not complete at its issue. -/
inductive Stop where
  /-- a precise trap: class, cause, AUX and the failing position, if one is named -/
  | trap (cls cause : Nat) (aux : Word) (pos : Option Nat)
  /-- issue waits a ck and tries again: a hold at issue that is no blocking point (R228, R329) -/
  | hold
  /-- the run blocks at this instruction and issues it again (R221, R238) -/
  | block (c : Cond)
  deriving DecidableEq, Repr

/-- Illegal instruction (R353). -/
def illegal (cause : Nat) : Stop := .trap 0x01 cause 0#32 none

/-- Illegal operand with no failing position (R353). -/
def badOperand (cause : Nat) : Stop := .trap 0x02 cause 0xFF#32 none

/-- A trap at some failing positions, given in age order of their records: AUX is the lowest, the
trapped record the eldest of those that fail (R54, R353); no trap where there is none. -/
def failAt (cls cause : Nat) (bad : List Nat) : Except Stop Unit :=
  match bad, leastBy id bad with
  | k :: _, some m => .error (.trap cls cause (w32 m) (some k))
  | _, _ => .ok ()

/-- Bound-violation causes (R353). -/
def causeBound : Nat := 0
def causeAperture : Nat := 1
def causeAlign : Nat := 2
def causeLength : Nat := 3
def causePermission : Nat := 4

/-- A bound violation at some positions, given in age order of their records: a lane access names the
lowest failing position, a range access traps its whole record (R30, R202, R353). -/
def Iss.failAccess (i : Iss) (cause : Nat) (bad : List Nat) : Except Stop Unit :=
  match bad with
  | [] => .ok ()
  | k :: _ =>
    if i.run.any fun r => !r.lane && r.covers k then .error (.trap 0x04 cause 0xFF#32 (some k))
    else failAt 0x04 cause bad

/-- Bound violation with no failing position. -/
def badBound (cause : Nat) : Stop := .trap 0x04 cause 0xFF#32 none

/-- v registers that a source position reads. -/
def Need.vregs (n : Need) : List Nat :=
  match n.o with
  | .v x => upto x.val n.reads
  | _ => []

/-- The guarded positions, in age order, of records that read one of some registers dead (R40). -/
def Iss.deadAt (i : Iss) (regs : List Nat) : List Nat :=
  (i.run.filter fun r => regs.any fun n => (r.form n).cls == .d).flatMap i.onIn

/-- A destination is or holds register v n, of `words` registers. -/
def Dst.holds (d : Dst) (words n : Nat) : Bool :=
  match d with
  | .v r => decide (r ≤ n) && decide (n < r + words)
  | _ => false

/-- A write of register v n is under way. -/
def Group.awaits (g : Group) (n : Nat) : Bool :=
  let writes (ws : List RegWrite) : Bool := ws.any fun w => match w with | .v r _ _ => r == n | _ => false
  (g.wb.any fun e => writes e.ws) || (g.work.any fun w => writes w.ws) || (g.oplog.any fun l => l.dst.holds l.words n) ||
    g.storeq.any fun e => match e with | .atom _ _ _ _ _ _ d _ _ => d.holds 2 n | _ => false

/-- The first latch that a source names outside a window opened for it (R12). -/
def Iss.staleLatch (i : Iss) (ns : List Need) : Option Nat :=
  (ns.find? fun n =>
    match n.o with
    | .hl l => !(i.g.windows.any fun w => w.latch == l.val)
    | _ => false).map fun n => opNum n.o

/-- An operand position that nothing admits: it stands for a breach of R40 that concerns several fields. -/
def badNeed : Need := ⟨.zr, [], 1, 0⟩

/-- Checks 6 and 7 of R54: a handler names no queue (R359); kinds, pairs and allotments; what else an entry asks of its
operands; dead reads; stale latches. A record whose guard is false everywhere reads nothing (R48). An instruction that is
only tried ends here; a register that a write under way will make live is no dead read yet (log entry 70). -/
def Iss.checkWith (i : Iss) (ns : List Need) (more : Except Stop Unit) : Except Stop Unit :=
  if i.g.serves.isSome && ns.any (fun n => opKind n.o == .dq) then .error (illegal 8)
  else if ns.any fun n => !n.ok i.kern then .error (badOperand 0)
  else
    match more with
    | .error e => .error e
    | .ok _ =>
      match failAt 0x02 1 (i.deadAt ((ns.flatMap Need.vregs).filter fun n => !(i.trial && i.g.awaits n))) with
      | .error e => .error e
      | .ok _ =>
        match i.staleLatch ns with
        | some l => .error (.trap 0x03 0 (w32 l) none)
        | none => if i.trial then .error .hold else .ok ()

/-- The checks of an instruction whose entry asks nothing more of its operands. -/
def Iss.check (i : Iss) (ns : List Need) : Except Stop Unit := i.checkWith ns (.ok ())

/-- An instruction that a handler must not issue (R359). -/
def Iss.notInHandler (i : Iss) : Except Stop Unit :=
  if i.g.serves.isSome then .error (illegal 8) else .ok ()

/-- An instruction that only a handler issues (R361). -/
def Iss.onlyInHandler (i : Iss) : Except Stop Unit :=
  if i.g.serves.isSome then .ok () else .error (illegal 9)

/-! Source forms -/

/-- A source: an operand, or an immediate (R35). -/
inductive Src where
  | op (o : Opnd)
  | imm (x : BitVec 64)
  deriving DecidableEq, Repr

/-- Value of a latch at a position (R12, R52). -/
def Group.latchAt (g : Group) (n k : Nat) : Word :=
  match spGet none g.latches n with
  | some l => ((l.vals.find? fun p => p.1 == k).map fun p => p.2.1).getD (Config.lost n)
  | none => Config.lost n

/-- The 32-bit word of an operand at a position. -/
def Group.word (g : Group) (o : Opnd) (k : Nat) : Word :=
  match o with
  | .v n => g.vAt n.val k
  | .s n => spGet 0#32 g.s n.val
  | .bc n => g.bcRead n.val
  | .c n => spGet 0#32 g.c n.val
  | .hl n => g.latchAt n.val k
  | _ => 0#32

/-- Word j of an operand: of v, s, bc and hl the register j numbers on; other kinds extend with zeros. -/
def Group.word2 (g : Group) (o : Opnd) (k j : Nat) : Word :=
  match o with
  | .v n => g.vAt (n.val + j) k
  | .s n => spGet 0#32 g.s (n.val + j)
  | .bc n => g.bcRead (n.val + j)
  | .hl n => g.latchAt (n.val + j) k
  | _ => if j = 0 then g.word o k else 0#32

/-- A 64-bit pair at a position (R119). -/
def Group.pair (g : Group) (o : Opnd) (k : Nat) : BitVec 64 := g.word2 o k 1 ++ g.word2 o k 0

/-- A source at a position: 32 bits zero-extended, or a pair. -/
def Group.src (g : Group) (wide : Bool) (x : Src) (k : Nat) : BitVec 64 :=
  match x with
  | .imm v => v
  | .op o => if wide then g.pair o k else (g.word o k).setWidth 64

/-- The form that a latch gives a record (R52): the one that was written at all its positions, or, where they were
written apart, the one that their values fit; none for values of class L. -/
def Group.latchForm (g : Group) (n : Nat) (r : Rec) : Option Form :=
  match spGet none g.latches n with
  | none => some ⟨.u, Config.lost n, 0#32⟩
  | some l =>
    let at_ (k : Nat) : Option Form := (l.vals.find? fun p => p.1 == k).bind fun p => p.2.2
    match r.positions.map at_ with
    | some f :: rest =>
      if rest.all (· == some f) then (if r.lane && f.cls != .u then none else some f)
      else fitForm (r.positions.map fun k => (k, g.latchAt n k))
    | _ => if r.lane then none else fitForm (r.positions.map fun k => (k, g.latchAt n k))

/-- The class of a latch in a record (R52, R59). -/
def Group.latchClass (g : Group) (n : Nat) (r : Rec) : Cls := ((g.latchForm n r).map Form.cls).getD .l

/-- The class of a 32-bit operand in a record (R59): s, bc, c, immediates and zero are uniform. -/
def Group.clsOf (g : Group) (r : Rec) (o : Opnd) : Cls :=
  match o with
  | .v n => (r.form n.val).cls
  | .hl n => g.latchClass n.val r
  | _ => .u

/-- The worse of two classes, in the order D, L, A, U. -/
def Cls.worse : Cls → Cls → Cls
  | .d, _ => .d | _, .d => .d
  | .l, _ => .l | _, .l => .l
  | .a, _ => .a | _, .a => .a
  | .u, .u => .u

/-- The class of a source; a pair has the worse class of its halves (R122, R226). -/
def Group.srcCls (g : Group) (wide : Bool) (r : Rec) (x : Src) : Cls :=
  match x with
  | .imm _ => .u
  | .op o =>
    if wide then
      match o with
      | .v n => ((r.form n.val).cls).worse (r.form (n.val + 1)).cls
      | .hl n => (g.latchClass n.val r).worse (g.latchClass (n.val + 1) r)
      | _ => g.clsOf r o
    else g.clsOf r o

/-- The form of word j of a U or A source in a record. -/
def Group.srcForm (g : Group) (r : Rec) (x : Src) (j : Nat) : Form :=
  match x with
  | .imm v => ⟨.u, (v >>> (32 * j)).setWidth 32, 0#32⟩
  | .op o =>
    match o with
    | .v n => r.form (n.val + j)
    | .hl n => (g.latchForm (n.val + j) r).getD ⟨.u, 0#32, 0#32⟩
    | _ => ⟨.u, g.word2 o r.b j, 0#32⟩

/-- A source that must be uniform in every record of the run with a true guard (R235, R361). -/
def Iss.uniform (i : Iss) (wide : Bool) (o : Opnd) : Except Stop Unit :=
  failAt 0x02 2 ((i.run.filter fun r => i.g.srcCls wide r (.op o) != .u).flatMap i.onIn)

/-- The first position at which the run acts: the lowest guarded position of its eldest such record. -/
def Iss.actPos (i : Iss) : Nat := (i.run.flatMap i.onIn).headD 0

/-- The guard is true at one or more positions of the run. -/
def Iss.acts (i : Iss) : Bool := !i.on.isEmpty

/-- The immediate of an I form as a source (R35). -/
def immSrc (ty : Ty) (imm : BitVec 36) : Src :=
  .imm (if ty.wide then imm.signExtend 64 else (imm.setWidth 32).setWidth 64)

/-- The next slot: pc(N(PC) + 1) (R144). -/
def slotNum (pc : Addr) : Nat := 5 * (pc.toNat % 2 ^ 56 / 64) + pc.toNat % 64 / 12

/-- The PC of a slot number, with bits [63:56] kept; none outside [0, 2^56). -/
def slotPc (pc : Addr) (n : Int) : Option Addr :=
  if n < 0 then none
  else
    let m := n.toNat
    let a := m / 5 * 64 + 12 * (m % 5)
    if a < 2 ^ 56 then some (BitVec.ofNat 64 (pc.toNat / 2 ^ 56 * 2 ^ 56 + a)) else none

/-- The PC of the next slot. -/
def nextPc (pc : Addr) : Addr := (slotPc pc (slotNum pc + 1)).getD pc

end Sys2Proof.Machine
end

