-- ==== Sys2Proof/Machine/Fetch.lean ====
section
/-!
DEFINITION. Code lines as the core sees them (R33, R43-R47, R108): translation for execution, the line
word, parity, END and TARGET, and the checks of a line before an instruction issues (R54, checks 1 to 3).
-/

namespace Sys2Proof.Machine

/-! Bound checks (R30, R31) -/

/-- Permission bits of a bound-table entry. -/
def permR : Nat := 0
def permW : Nat := 1
def permX : Nat := 2
def permM : Nat := 3
def permA : Nat := 4

/-- The bound check of an access of `len` bytes: in bounded mode the entry named by bits [63:56]; in
lazy mode those bits must be zero (R30). -/
def Context.boundOk (c : Context) (perm : Nat) (va : Addr) (len : Nat) : Bool :=
  let idx := va.toNat / 2 ^ 56
  let a := va.toNat % 2 ^ 56
  if c.bounded then
    let e := spGet ⟨0, 0, 0#6⟩ c.bounds idx
    e.perms.getLsbD 5 && e.perms.getLsbD perm && decide (e.base ≤ a) && decide (a + len ≤ e.limit)
  else idx == 0

/-- `len` bytes at an address lie within the bound, whatever it grants (R246). -/
def Context.inBound (c : Context) (va : Addr) (len : Nat) : Bool :=
  let a := va.toNat % 2 ^ 56
  if c.bounded then
    let e := spGet ⟨0, 0, 0#6⟩ c.bounds (va.toNat / 2 ^ 56)
    e.perms.getLsbD 5 && decide (e.base ≤ a) && decide (a + len ≤ e.limit)
  else va.toNat / 2 ^ 56 == 0

/-! Lines -/

/-- The line of a PC. -/
def lineOf (pc : Addr) : Nat := pc.toNat % 2 ^ 56 / 64 * 64

/-- The slot number of a PC within its line. -/
def slotOf (pc : Addr) : Nat := pc.toNat % 64 / 12

/-- The entry and the physical address that a demand fetch of a line finds, if the page is a leaf with execute permission,
no device page (R108) and no remote one, which never admits X (R393). -/
def State.codeWalk (s : State) (c : Context) (line : Nat) : Option (Nat × Nat × Nat) :=
  match s.walk c.root line with
  | .leaf at_ e sh => if pteX e && !pteDev e && decide (pteFrame e < linkBase) then some (at_, e, pteFrame e + line % 2 ^ sh) else none
  | _ => none

/-- The 64 bytes of a line, as one number. -/
def State.lineBits (s : State) (ci pa : Nat) : Nat := leNat (s.pmReadN (ctxKey ci) pa 64)

/-- Instruction word of slot i (R33). -/
def slotWord (line i : Nat) : IWord := BitVec.ofNat 96 (line / 2 ^ (96 * i))

/-- The line word (R43). -/
def lineWord (line : Nat) : BitVec 32 := BitVec.ofNat 32 (line / 2 ^ 480)

/-- Parity of the low n bits. -/
def oddBits {w : Nat} (x : BitVec w) (n : Nat) : Bool := ((List.range n).filter fun j => x.getLsbD j).length % 2 == 1

/-- The ten parity bits of a line match (R44). -/
def parityOk (line : Nat) : Bool :=
  (List.range 5).all fun i =>
    let w := slotWord line i
    (oddBits w 48 == (lineWord line).getLsbD (22 + 2 * i)) &&
      (oddBits (w >>> 48) 48 == (lineWord line).getLsbD (23 + 2 * i))

/-- The line word of a line with its parity bits recomputed (R44). -/
def reparity (line : Nat) : Nat :=
  let bit (i : Nat) : Nat :=
    let w := slotWord line i
    bitNat (oddBits w 48) (22 + 2 * i) + bitNat (oddBits (w >>> 48) 48) (23 + 2 * i)
  line / 2 ^ 480 % 2 ^ 22 + ((List.range 5).map bit).sum

/-- A line with a word in a slot, its parity bits recomputed (R44, R362). -/
def patchLine (line slot : Nat) (w : IWord) : Nat :=
  let x := line / 2 ^ (96 * (slot + 1)) * 2 ^ (96 * (slot + 1)) + w.toNat * 2 ^ (96 * slot) + line % 2 ^ (96 * slot)
  x % 2 ^ 480 + reparity x * 2 ^ 480

/-- END of a line word (R43). -/
def lineEnd (lw : BitVec 32) : Bool := lw.getLsbD 8

/-- TARGET bit of slot i (R43). -/
def lineTarget (lw : BitVec 32) (i : Nat) : Bool := lw.getLsbD (9 + i)

/-- The reserved fields of a line word (R54, check 4): bits [7:0], CLASS 4-15, PAIR under class 0. -/
def lineReserved (lw : BitVec 32) : Bool :=
  lw.extractLsb' 0 8 != 0#8 || decide (4 ≤ (lw.extractLsb' 18 4).toNat) ||
    (lw.extractLsb' 18 4 == 0#4 && lw.extractLsb' 14 4 != 0#4)

/-- The line word that a PC's line holds, where the line can be fetched. -/
def State.lineWordAt (s : State) (ci : Nat) (c : Context) (pc : Addr) : Option (BitVec 32) :=
  (s.codeWalk c (lineOf pc)).map fun w => lineWord (s.lineBits ci w.2.2)

/-- A PC stands on a slot whose TARGET bit is set (R46). A line that cannot be fetched decides nothing
here: its demand fetch traps at the target (R109). -/
def State.targetOk (s : State) (ci : Nat) (c : Context) (pc : Addr) : Bool :=
  match s.lineWordAt ci c pc with
  | some lw => lineTarget lw (slotOf pc)
  | none => true

/-- The PC stands in slot 4 of a line with END set (R47). -/
def State.atEnd (s : State) (ci : Nat) (c : Context) (pc : Addr) : Bool :=
  match s.lineWordAt ci c pc with
  | some lw => lineEnd lw && slotOf pc == 4
  | none => false

end Sys2Proof.Machine
end

