-- ==== Sys2Proof/Machine/Units.lean ====
section
/-!
DEFINITION. Dual issue (R45): the units that an instruction of a run uses, and the registers and latches that it
reads and writes.
-/

namespace Sys2Proof.Machine

/-- The unit that issues an instruction (R45, R92). -/
inductive IssueUnit where
  | affine | lane | movement
  deriving DecidableEq, Repr

/-- What an instruction that may pair reads and writes: operands with the number of registers each stands for; `also` is
what it writes whatever NWB says. -/
structure Touches where
  movement : Bool
  srcs : List (Opnd × Nat)
  dsts : List (Opnd × Nat)
  also : List (Opnd × Nat)
  deriving DecidableEq, Repr

/-- Registers of a type's width. -/
def wideWords (ty : Ty) : Nat := if ty.wide then 2 else 1

/-- A result of n words from sources. -/
def resultOf (n : Nat) (d : Opnd) (srcs : List (Opnd × Nat)) : Option Touches := some ⟨false, srcs, [(d, n)], []⟩

/-- A data movement with its byte count. -/
def moveOf (m : Mem) (srcs dsts : List (Opnd × Nat)) : Option Touches :=
  some ⟨true, srcs, dsts, [(.bc ⟨m.cq.toNat % 8, by omega⟩, 1)]⟩

/-- What an instruction reads and writes where it belongs to a unit that a class of R45 names: those of the integer,
range, predicate, control and floating-point chapters, and data movement; the others pair with nothing. -/
def touches : Instr → Option Touches
  | .add _ ty d a b | .sub _ ty d a b | .mul _ ty d a b | .mulhi _ ty d a b | .div _ ty d a b | .rem _ ty d a b
  | .min _ ty d a b | .max _ ty d a b | .andb _ ty d a b | .orb _ ty d a b | .xorb _ ty d a b | .andn _ ty d a b
  | .shl _ ty d a b | .shr _ ty d a b | .sar _ ty d a b | .bfi _ ty d a b _ _ =>
    resultOf (wideWords ty) d [(a, wideWords ty), (b, wideWords ty)]
  | .addI _ ty d a _ | .subI _ ty d a _ | .mulI _ ty d a _ | .mulhiI _ ty d a _ | .divI _ ty d a _ | .remI _ ty d a _
  | .minI _ ty d a _ | .maxI _ ty d a _ | .shlI _ ty d a _ | .shrI _ ty d a _ | .sarI _ ty d a _ | .andbI _ ty d a _
  | .orbI _ ty d a _ | .xorbI _ ty d a _ | .andnI _ ty d a _ | .neg _ ty d a | .abs _ ty d a | .notb _ ty d a
  | .brev _ ty d a | .mov _ ty d a | .bfx _ ty d a _ _ => resultOf (wideWords ty) d [(a, wideWords ty)]
  | .clz _ ty d a | .popc _ ty d a => resultOf 1 d [(a, wideWords ty)]
  | .mad _ ty d a b c => resultOf (wideWords ty) d [(a, wideWords ty), (b, wideWords ty), (c, wideWords ty)]
  | .sel _ ty d a b c => resultOf (wideWords ty) d [(a, wideWords ty), (b, wideWords ty), (c, 1)]
  | .cmp _ _ ty d a b => resultOf 1 d [(a, wideWords ty), (b, wideWords ty)]
  | .cmpI _ _ ty d a _ => resultOf 1 d [(a, wideWords ty)]
  | .movi _ ty d _ => resultOf (wideWords ty) d []
  | .addpc _ d _ => resultOf 2 d []
  | .idx _ d _ | .rngget _ d _ | .elect _ d => resultOf 1 d []
  | .formget _ d a _ | .pnot _ d a | .pmov _ d a | .gred _ _ _ d a | .gscan _ _ _ _ d a | .frcp _ d a | .frsq _ d a
  | .fsqrt _ d a | .fexp2 _ d a | .flog2 _ d a | .fsin _ d a | .fcos _ d a | .fcvt _ _ _ _ _ d a
  | .frnd _ _ _ d a | .fclass _ _ d a => resultOf 1 d [(a, 1)]
  | .vote _ m d a => resultOf (if m = .ballot64 then 2 else 1) d [(a, 1)]
  | .i2f _ _ it _ _ d a => resultOf 1 d [(a, wideWords it)]
  | .f2i _ it _ _ d a => resultOf (wideWords it) d [(a, 1)]
  | .shfl _ ty d a b _ => resultOf (wideWords ty) d [(a, wideWords ty), (b, 1)]
  | .expand _ | .rerange _ | .bra _ _ | .exit _ | .nop _ => some ⟨false, [], [], []⟩
  | .dead _ a n => some ⟨false, [], [], [(a, n.toNat + 1)]⟩
  | .brx _ a b n => some ⟨false, [(a, 1), (b, n.toNat)], [], []⟩
  | .call _ d _ => resultOf 2 d []
  | .callx _ d a => resultOf 2 d [(a, 2)]
  | .ret _ a => some ⟨false, [(a, 2)], [], []⟩
  | .pand _ d a b _ _ | .por _ d a b _ _ | .pxor _ d a b _ _ | .fadd _ _ _ _ d a b | .fsub _ _ _ _ d a b
  | .fmul _ _ _ _ d a b | .fmin _ _ d a b | .fmax _ _ d a b | .fcmp _ _ _ d a b | .hadd2 _ _ _ _ d a b
  | .hmul2 _ _ _ _ d a b => resultOf 1 d [(a, 1), (b, 1)]
  | .ffma _ _ _ _ d a b c | .hfma2 _ _ _ _ d a b c => resultOf 1 d [(a, 1), (b, 1), (c, 1)]
  | .plsplit _ _ d a => resultOf 2 d [(a, 2)]
  | .pljoin _ _ d a b => resultOf 2 d [(a, 1), (b, 1)]
  | .ld _ ty d a m => moveOf m [(a, 2)] [(d, wideWords ty)]
  | .st _ ty a b m => moveOf m [(a, 2), (b, wideWords ty)] []
  | .ldp _ d a m => moveOf m [(a, 2)] [(d, 4)]
  | .stp _ a b m => moveOf m [(a, 2), (b, 4)] []
  | .atoms _ _ ty d a b c _ _ => some ⟨true, [(a, 2), (b, wideWords ty), (c, wideWords ty)], [(d, wideWords ty)], []⟩
  | .gather _ ty d a b _ m => moveOf m [(a, 2), (b, 1)] [(d, wideWords ty)]
  | .scatter _ ty d a b _ m => moveOf m [(a, 2), (b, 1), (d, wideWords ty)] []
  | .gatom _ _ ty d a b c _ m => moveOf m [(a, 2), (b, wideWords ty), (c, wideWords ty)] [(d, wideWords ty)]
  | .amaxrd _ ty d a _ m => moveOf m [(a, 2)] [(d, wideWords ty)]
  | .copy _ a b c _ _ _ | .copyw _ a b c _ _ _ => some ⟨true, [(a, 2), (b, 2), (c, 1)], [], []⟩
  | .rload _ a b c _ _ _ => some ⟨true, [(a, 2), (b, 2), (c, 1)], [], []⟩
  | .remld _ ty d a _ cq => some ⟨true, [(a, 1)], [(d, wideWords ty)], [(.bc ⟨cq.toNat % 8, by omega⟩, 1)]⟩
  | .qpeek _ d a _ | .qstat _ d a => some ⟨true, [(a, 1)], [(d, 1)], []⟩
  | .qbind _ a _ => some ⟨true, [], [], [(a, 1)]⟩
  | .pref _ _ => some ⟨true, [], [], []⟩
  | .bar _ _ _ | .bararr _ _ _ _ | .barwait _ _ _ | .fence _ _ _ | .aliasfence _ _ | .qfence _ _ | .twait _ _
  | .tfirst _ _ _ | .bcwait _ _ _ | .yield _ | .task _ _ _ | .taskwait _ _ _ _ | .tinfo _ _ _ | .stepwait _ _
  | .mma _ _ _ _ _ _ _ _ _ _ _ | .mmasp _ _ _ _ _ _ _ _ _ | .scacc _ _ _ _ _ | .bscale _ _ _ _ | .accz _ _
  | .accld _ _ _ _ _ _ | .accst _ _ _ _ _ _ | .accmov _ _ _ _ | .accpeek _ _ _ _ | .accpatch _ _ _ _ _
  | .accnorm _ _ _ _ _ _ | .mcoef _ _ _ _ | .mpoly _ _ _ _ _ _ | .miter _ _ _ _ _ _ _ | .mloopget _ _ | .mloopset _ _
  | .shpset _ _ _ | .shpget _ _ _ | .shpfence _ | .rred _ _ _ _ _ _ _ | .rnorm _ _ _ _ _ _ | .qenc _ _ _ _ _ _ _
  | .qdec _ _ _ _ _ | .kqsc _ _ _ _ | .trap _ _ _ | .bkpt _ _ | .tret _ _ _ | .wpset _ _ _ | .wpclr _ _ | .sysrd _ _ _
  | .syswr _ _ _ | .traprd _ _ _ | .trapwr _ _ _ | .phase _ _ | .phend _ _ | .pqPush _ _ | .pqPop _ _ | .pqRowin _ _
  | .pqRowout _ _ | .pqStat _ _ | .pailStop _ | .createContext _ _ _ _ _ _ | .loadObject _ _ _ _ | .startGroup _ _ _
  | .killContext _ _ | .attest _ _ _ | .pushFirmware _ _ _ | .checkpoint _ _ _ _ | .debugAct _ _ _ _ | .registerWrite _ _
  | .resultWriteback _ | .globalBytesLand _ _ _ | .storePerformed _ | .engineCommandComplete _ _ | .matrixPassComplete _ _
  | .iterationBoundary _ | .recordWake _ _ | .issueHoldRelease _ | .stragglerForcedRun _ | .churnAccept _ | .placeTeam _ _
  | .teamRetirement _ | .versionCommit _ _ | .preemptionRequest _ | .eviction _ | .resumption _ _ | .migration _ _
  | .forwardedMessage _ _ | .pageWalk _ _ _ _ | .faultResolution _ _ | .faultBudgetExpiry _ | .abortCutTimeout _
  | .killCutTimeout _ | .waitCycleTrap _ | .handlerStart _ | .watchpointApply _ | .demandFetch _ | .speculativeFetch _ _
  | .traceCacheFill _ _ | .tlbInvalidation _ _ _ | .phaseStart _ | .phaseExpiry _ | .stepRelease _ | .refreshWindow _
  | .coreAvoidance _ _ | .avoidanceEnd _ | .droopEvent _ | .islandFrequencyChange _ _ | .clockHop _
  | .hostMemoryAccess _ _ _ | .peerAccess _ _ _ _ _ _ | .peerLost _ | .heartbeatMiss _ _ | .checkpointTimeout
  | .boot _ _ _ _ | .pailInstruction _ _ | .preemptionWithdrawal _ | .deviceTimeLock _ | .unassignedOpcode _
  | .unknownKindRequest _ _ _ => none

/-- A register or latch by kind and number. -/
def regNames (x : Opnd × Nat) : List (Kind × Nat) :=
  match opKind x.1 with
  | .zr | .reserved => []
  | .hl => [(.hl, opNum x.1)]
  | k => (upto (opNum x.1) x.2).map fun n => (k, n)

/-- What an instruction under a control field reads, its guard included. -/
def readNames (k : Ctl) (t : Touches) : List (Kind × Nat) := (.p, k.guard.toNat % 8) :: t.srcs.flatMap regNames

/-- What an instruction under a control field writes: with NWB set no destination (R52). -/
def writeNames (k : Ctl) (t : Touches) : List (Kind × Nat) :=
  ((if k.nwb then [] else t.dsts.flatMap regNames) ++ t.also.flatMap regNames).filter (· != (.p, 7)) ++
    (if k.hold = 0#2 then [] else [(.hl, k.hold.toNat - 1)])

/-- The registers that an instruction that pairs with nothing reads (R114). -/
def otherSources : Instr → List (Opnd × Nat)
  | .barwait _ a _ | .taskwait _ _ a _ | .bscale _ _ _ a | .mcoef _ _ _ a | .traprd _ _ a => [(a, 1)]
  | .tfirst _ _ a | .task _ _ a | .mloopset _ a | .shpset _ _ a | .shpget _ a _ | .kqsc _ _ a _ | .wpset _ _ a
  | .syswr _ a _ => [(a, 2)]
  | .bcwait _ a b | .accpatch _ _ _ a b | .qenc _ _ _ _ _ a b | .qdec _ _ _ a b | .trapwr _ a b => [(a, 1), (b, 1)]
  | .mma _ _ _ _ a b c _ _ _ _ | .mmasp _ _ _ a b c _ _ _ => [(a, 2), (b, 2), (c, 2)]
  | .scacc _ _ _ _ b | .accpeek _ _ _ b | .accnorm _ _ _ _ _ b => [(b, 1)]
  | .accld _ _ _ a c _ | .accst _ _ a _ c _ | .rnorm _ _ _ a _ c => [(a, 2), (c, 1)]
  | .rred _ _ _ _ _ _ c => [(c, 1)]
  | .mpoly _ _ _ _ _ _ | .miter _ _ _ _ _ _ _ => [(.c 0, 8)]
  | _ => []

/-- The registers and latches that an instruction under a control field reads, its guard included (R114). -/
def sourceNames (k : Ctl) (x : Instr) : List (Kind × Nat) :=
  match touches x with
  | some t => readNames k t
  | none => (.p, k.guard.toNat % 8) :: (otherSources x).flatMap regNames

/-- The units that an instruction of a run of some records issues on (R45, R92). -/
def unitsOf (recs : List Rec) (t : Touches) : List IssueUnit :=
  if t.movement then [.movement]
  else (if recs.any fun r => !r.lane then [.affine] else []) ++ (if recs.any fun r => r.lane then [.lane] else [])

/-- The units of a class of R45. -/
def classUnits (cls : Nat) : Option (IssueUnit × IssueUnit) :=
  match cls with
  | 1 => some (.affine, .lane)
  | 2 => some (.affine, .movement)
  | 3 => some (.lane, .movement)
  | _ => none

/-- The units of two instructions match a class in either order (R45). -/
def unitsMatch (cls : Nat) (a b : List IssueUnit) : Bool :=
  match classUnits cls with
  | none => false
  | some (x, y) => (a.contains x && b.contains y) || (a.contains y && b.contains x)

end Sys2Proof.Machine
end

