-- ==== Sys2Proof/Machine/Issue.lean ====
section
/-!
DEFINITION. How an instruction issues for a run (R48-R54, R92-R94): the shared shape of every compute
instruction. `State.issue` runs a body and settles its traps and blocks; `Iss.valueOp` and
`Iss.predOp` compute results over range and lane records (R118-R124); `State.finish` spends the
passes, raises flags, lands or launches the results and moves the records.
-/

namespace Sys2Proof.Machine

/-! Finishing an issue -/

/-- Results of one latency: the issues that complete with them and the writes (R49, R112). -/
structure Res where
  lat : Nat
  cnt : Nat
  ws : List RegWrite
  deriving DecidableEq, Repr

/-- A queue push (R220). -/
def RegWrite.isPush : RegWrite → Bool
  | .push _ _ => true
  | _ => false

/-- Range and lane records of a run. -/
def Iss.ranges (i : Iss) (g : Group) : List Rec := g.recs.filter fun r => !r.lane && i.inRun r
def Iss.lanes (i : Iss) (g : Group) : List Rec := g.recs.filter fun r => r.lane && i.inRun r

/-- Chunks of 16 lane records, ascending position (R92). -/
def chunks {α : Type} (n : Nat) : Nat → List α → List (List α)
  | 0, _ => []
  | fuel + 1, l => if l.isEmpty then [] else l.take n :: chunks n fuel (l.drop n)

/-- Insert by a measure. -/
def insertBy {α : Type} (f : α → Nat) (x : α) : List α → List α
  | [] => [x]
  | y :: rest => if f x ≤ f y then x :: y :: rest else y :: insertBy f x rest

/-- Order by a measure. -/
def sortBy {α : Type} (f : α → Nat) (l : List α) : List α := l.foldr (insertBy f) []

/-- A group's records of the run in the order of R92: range records by age, lane records by position. -/
def Iss.orderIn (i : Iss) (g : Group) : List Rec := i.ranges g ++ (i.lanes g).foldr insertRec []

/-- The run's records in that order, before any expands. -/
def Iss.inOrder (i : Iss) : List Rec := i.orderIn i.g

/-- The lane passes of a run. -/
def Iss.passes (i : Iss) (g : Group) : List (List Rec) := chunks 16 4 ((i.lanes g).foldr insertRec [])

/-- Distinct entries, first occurrences. -/
def dedup {α : Type} [BEq α] : List α → List α
  | [] => []
  | a :: l => a :: (dedup l).filter fun b => !(b == a)

/-- The first of the entries that a measure does not tell apart. -/
def dedupBy {α : Type} (f : α → Nat) : List α → List α
  | [] => []
  | a :: l => a :: (dedupBy f l).filter fun b => f b != f a

/-- The largest of some numbers. -/
def maxNat (l : List Nat) : Nat := l.foldl Nat.max 0

/-- Collection ck of one lane pass beyond its first: reads of a lane pair that share a bank (R115, R116). -/
def passConflict (regs : List Nat) (pass : List Rec) : Nat :=
  let perPair := (chunks 2 8 pass).map fun pr =>
    let live := (dedup regs).filter fun n => pr.any fun r => (r.form n).cls == .l
    maxNat ((List.range 4).map fun b => (live.filter fun n => n % 4 == b).length)
  maxNat perPair - 1

/-- The collection ck that all passes of a run lose to bank conflicts (R116). -/
def Iss.conflicts (i : Iss) (g : Group) (regs : List Nat) : Nat :=
  ((i.passes g).map (passConflict regs)).sum

/-! When each record issues (R92, R112, R116) -/

/-- The units of an issue in the order of R92: each range record alone, then the lane passes. -/
def Iss.units (i : Iss) (g : Group) : List (List Rec) := (i.ranges g).map (fun r => [r]) ++ i.passes g

/-- What a write in flight writes, by kind and number. -/
def RegWrite.name : RegWrite → Option (Kind × Nat)
  | .v n _ _ => some (.v, n)
  | .s n _ => some (.s, n)
  | .p n _ _ => some (.p, n)
  | .hl n _ _ => some (.hl, n)
  | .c n _ => some (.c, n)
  | .push _ _ | .count _ _ => none

/-- A result that has passed its contract time in a ck and is not truly ready (R114). -/
def Inflight.lateIn (e : Inflight) (ck : Nat) : Bool := decide (e.contract ≤ ck) && decide (ck < e.due)

/-- A source or a flag that an instruction waits for has passed its contract time and is not truly ready (R114). -/
def Group.lateFor (g : Group) (ck : Nat) (k : Ctl) (x : Instr) : Bool :=
  let reads := sourceNames k x
  g.wb.any fun e => e.lateIn ck &&
    ((e.sig != 0 && k.wait.toNat.testBit (e.sig - 1)) || (e.ws.filterMap RegWrite.name).any reads.contains)

/-- The ck in which a pass that could issue in a ck issues: it stalls while a register that it reads is late (R114). -/
def lateTo (wb : List Inflight) (regs : List Nat) : Nat → Nat → Nat
  | 0, ck => ck
  | n + 1, ck =>
    match wb.find? fun e => e.lateIn ck && (e.ws.filterMap RegWrite.name).any fun x => x.1 == .v && regs.contains x.2 with
    | some e => lateTo wb regs n e.due
    | none => ck

/-- The ck in which a pass of an issue issues. On a stepping that meets the contract no pass stalls. -/
def Iss.ready (i : Iss) (regs : List Nat) (ck : Nat) : Nat :=
  if i.g.wb.all fun e => decide (e.due ≤ e.contract) then ck else lateTo i.g.wb regs i.g.wb.length ck

/-- Some units and the ck in which each issues: its collection ck come first (R116), its further rounds after it (R206). -/
def unitTimes (rounds : Nat → List Rec → Nat) (ready : Nat → Nat) (regs : List Nat) :
    Nat → List (List Rec) → List (List Rec × Nat)
  | _, [] => []
  | t, u :: rest =>
    let ck := ready (t + passConflict regs u)
    (u, ck) :: unitTimes rounds ready regs (ck + 1 + rounds ck u) rest

/-- The units of an issue in a group whose records spend the passes, with their ck. -/
def Iss.sched (i : Iss) (gc : Group) (regs : List Nat) (rounds : Nat → List Rec → Nat) : List (List Rec × Nat) :=
  unitTimes rounds (i.ready regs) regs i.now (i.units gc)

/-- Ck that the passes of an issue stall beyond its start for late sources (R114). -/
def Iss.stalls (i : Iss) (gc : Group) (regs : List Nat) : Nat :=
  if i.g.wb.all fun e => decide (e.due ≤ e.contract) then 0
  else
    maxNat ((i.sched gc regs fun _ _ => 0).map fun u => u.2) + 1 -
      (i.now + (i.ranges gc).length + (i.passes gc).length + i.conflicts gc regs)

/-- The ck in which a position's record issues. -/
def ckOf (sch : List (List Rec × Nat)) (now p : Nat) : Nat :=
  ((sch.find? fun u => u.1.any fun r => r.covers p).map fun u => u.2).getD now

/-- The ck in which a position's record issues, where no unit takes further rounds. -/
def Iss.passCk (i : Iss) (gc : Group) (regs : List Nat) (p : Nat) : Nat := ckOf (i.sched gc regs fun _ _ => 0) i.now p

/-- The ck of the last pass. -/
def Iss.lastCk (i : Iss) (gc : Group) (regs : List Nat) : Nat :=
  i.now + (i.ranges gc).length + (i.passes gc).length + i.conflicts gc regs + i.stalls gc regs - 1

/-- The issue with the values that stand at a ck (R112). -/
def Iss.at (i : Iss) (ck : Nat) : Iss := if ck ≤ i.now then i else { i with g := i.g.viewAt ck }

/-- The issue as each position's record finds it at its own pass (R112), or, for a collective, as all find it at the
last (R152). -/
def Iss.timed (i : Iss) (coll : Bool) (regs : List Nat) (gc : Group) (p : Nat) : Iss :=
  if i.g.wb.isEmpty then i else i.at (if coll then i.lastCk gc regs else i.passCk gc regs p)

/-- A uniform source's value for the run. DEDUCED (log entry 88): what acts once for its run issues in the ck of the last pass,
and finds its uniform sources as they stand then (R11, R112, R415). -/
def Iss.uword (i : Iss) (o : Opnd) : Word := (i.timed true [] i.g 0).g.word o i.actPos

/-- A uniform pair's value for the run, in the same ck. -/
def Iss.upair (i : Iss) (o : Opnd) : BitVec 64 := (i.timed true [] i.g 0).g.pair o i.actPos

/-- The issue as each position's record finds it at the ck of its unit (R112, R206). -/
def Iss.timedBy (i : Iss) (sch : List (List Rec × Nat)) (p : Nat) : Iss :=
  if i.g.wb.isEmpty then i else i.at (ckOf sch i.now p)

/-- The next windows after an issue that may open one (R12, R52). DESIGN CHOICE (log entry 64): an issue that opens a
window of a latch whose window is still open replaces that window, also for the resume point of R12. -/
def Iss.nextWindows (i : Iss) : List Window :=
  let old := (i.g.windows.map fun w => { w with left := w.left - 1 }).filter fun w => w.left != 0
  if i.k.hold = 0#2 then old
  else ⟨i.k.hold.toNat - 1, 2, i.pc, i.sel⟩ :: old.filter fun w => w.latch != i.k.hold.toNat - 1

/-- A ready record stands above the head (R94). -/
def Group.above (g : Group) : Bool :=
  match g.headPc with
  | some h => !(g.pcsAbove h).isEmpty
  | none => false

/-- Straggler count and mark return to rest when no ready record stands above the head (R94). -/
def Group.restStrag (g : Group) : Group :=
  if g.above then g else { g with strag := 0, mark := g.headPc.getD g.mark, forced := false }

/-- The straggler rules at an issue of the run at a PC (R94). -/
def Group.countStrag (g : Group) (pc : Addr) : Group :=
  if g.forced && g.windows.isEmpty then { g with strag := 0, mark := pc, forced := false }
  else if g.headPc == some pc && g.above then { g with strag := g.strag + 1 }
  else { g with strag := 0 }

/-- Move every record of the run to the next slot. -/
def Iss.advance (i : Iss) (g : Group) : Group :=
  { g with recs := g.recs.map fun r => if i.inRun r then { r with pc := nextPc r.pc } else r }

/-- The group at the end of its issue: time, the core's collection ck lost so far (R116), order, windows, straggler
state and moved records. -/
def Iss.close (i : Iss) (g : Group) (passes lost ck : Nat) (move : Group → Group) : Group :=
  let seen := { g with recs := g.recs.map fun r => if i.inRun r then { r with noWatch := false } else r }
  (move { seen.countStrag i.pc with nextAt := i.now + passes, lostAt := lost, lastIssue := ck, windows := i.nextWindows
          }).restStrag

/-- Other groups of the core lose their latches (R52). -/
def State.loseLatches (s : State) (gi core : Nat) : State :=
  { s with groups := s.groups.mapIdx fun j g => if j ≠ gi ∧ g.core = core then { g with latches := [] } else g }

/-- Ck by which the units of this stepping are slower than a latency of the contract (R114; log entry 13). -/
def State.delay (s : State) (lat : Nat) : Nat := spGet 0 s.delays lat

/-- Results of one latency leave the issue: at latency 1 they are there at the next slot, pushes and
longer latencies are in flight, and land at their contract time or, on a slower stepping, later (R112, R114, R220). A
SIG of 13 to 15, which only a hint can name (R58), counts in a flag that nothing reads (DESIGN CHOICE, log entry 64). -/
def State.launch (s : State) (gi ord sig last : Nat) (r : Res) : State :=
  let now := r.ws.filter fun w => !w.isPush
  let later := r.ws.filter RegWrite.isPush
  if r.lat ≤ 1 && s.delay 1 = 0 then
    let s := s.landAll gi ord now
    if later.isEmpty then s
    else s.modGroup gi fun g => { g.sigUp sig r.cnt with wb := g.wb ++ [⟨last + 1, last + 1, ord, sig, r.cnt, later⟩] }
  else if r.cnt = 0 && r.ws.isEmpty then s
  else s.modGroup gi fun g => { g.sigUp sig r.cnt with wb := g.wb ++ [⟨last + Nat.max r.lat 1 + s.delay (Nat.max r.lat 1), last + Nat.max r.lat 1, ord, sig, r.cnt, r.ws⟩] }

/-- A single-stepped group freezes again after its one instruction (R365). -/
def State.stepped (s : State) (i : Iss) : State :=
  match i.g0.step with
  | some j =>
    let pc := ((s.groups[i.gi]?.bind fun g => g.recs[j]?).map Rec.pc).getD (nextPc i.pc)
    s.takeTrap i.gi ⟨0x10, 0, w32 j, j, false⟩ pc
  | none => s

/-- The ck that a run's issue takes (R92, R114, R116, R206): one per range record, one per lane pass, and the
collection ck, stalls and rounds beyond them. -/
def Iss.cost (i : Iss) (gc : Group) (regs : List Nat) (extra : Nat) : Nat :=
  (i.ranges gc).length + (i.passes gc).length + i.conflicts gc regs + i.stalls gc regs + extra

/-- The pair that the line word offers with the run's slot, where it allows dual issue: the class, and the two slots'
fields (R43, R45). -/
def State.pairOf (s : State) (i : Iss) : Option (Nat × IWord × IWord) :=
  (s.codeWalk i.ctx (lineOf i.pc)).bind fun w =>
    let line := s.lineBits i.ci w.2.2
    let lw := lineWord line
    let j := slotOf i.pc
    let cls := (lw.extractLsb' 18 4).toNat
    if j < 4 && lw.getLsbD (14 + j) && decide (1 ≤ cls ∧ cls ≤ 3) then some (cls, slotWord line j, slotWord line (j + 1)) else none

/-- The conditions of R45 on two slots of a pair, issued by some records each: units that match the class, no register or
latch of the first read by the second, distance, flags, windows. -/
def Iss.slotsPair (i : Iss) (cls : Nat) (w1 w2 : IWord) (r1 r2 : List Rec) : Bool :=
  let k1 := (Fields.unpack w1).k
  let k2 := (Fields.unpack w2).k
  match decode w1, decode w2 with
  | .ok x1, .ok x2 =>
    match touches x1, touches x2 with
    | some t1, some t2 =>
      unitsMatch cls (unitsOf r1 t1) (unitsOf r2 t2) && !((readNames k2 t2).any (writeNames k1 t1).contains) &&
        k2.dist == 0#4 && !(k1.sig != 0#4 && k2.wait.getLsbD (k1.sig.toNat - 1)) && k1.hold == 0#2 && k2.hold == 0#2 &&
        i.g.windows.isEmpty
    | _, _ => false
  | _, _ => false

/-- After the first slot the same run stands at the second, and may issue there in the first's ck: its flags, the room of
its own beside what the first slot adds, no late source (R45, R50, R114). -/
def Iss.goesOn (i : Iss) (g : Group) (n1 n2 : Nat) (w2 : IWord) : Bool :=
  let k2 := (Fields.unpack w2).k
  let late : Bool :=
    match decode w2 with
    | .ok x => i.g0.lateFor i.now k2 x
    | .error _ => false
  ((g.pick.map fun p => p.1 == nextPc i.pc && p.2.all i.sel.contains && i.sel.all p.2.contains).getD false) &&
    i.g0.waitMet k2.wait && (if k2.sig = i.k.sig then i.g0.sigUp i.k.sig.toNat n1 else i.g0).flagRoom k2.sig.toNat n2 && !late

/-- The records of the run that stand at a slot of a group, in which each unit is judged (R45, R99). -/
def Iss.recsAt (i : Iss) (g : Group) (pc : Addr) : List Rec :=
  g.recs.filter fun r => r.ready && r.pc == pc && r.positions.all i.sel.contains

/-- The model issues both slots of a pair singly (log entry 29); `sys.pair_refused` counts a pair that the rules
refuse (R45): `gc` is the group whose records spend the first slot's passes, `after` the group once it has issued. -/
def State.countPair (s : State) (i : Iss) (gc after : Group) : State :=
  match s.pairOf i with
  | none => s
  | some (cls, w1, w2) =>
    let r1 := i.ranges gc ++ i.lanes gc
    let r2 := i.recsAt after (nextPc i.pc)
    if i.slotsPair cls w1 w2 r1 r2 && i.goesOn after r1.length r2.length w2 then s
    else s.modCtx i.ci fun c => { c with pairRefused := c.pairRefused + 1#64 }

/-- The end of an issue (R11, R49, R92, R112): `gc` is the group whose records spend the passes, `g` the
group with its expansions made, `regs` the lane registers read, `extra` further passes, `pend` the
issues that complete elsewhere. -/
def State.finish (s : State) (i : Iss) (gc g : Group) (regs : List Nat) (extra pend : Nat) (res : List Res)
    (move : Group → Group) : State :=
  let conf := i.conflicts gc regs
  let late := i.stalls gc regs
  let passes := i.cost gc regs extra
  let sig := i.k.sig.toNat
  let lost := (s.core g.core).lost + conf
  let s1 := { s with groups := s.groups.set i.gi ((i.close g passes lost (i.now + 1) move).sigUp sig pend),
                     ord := s.ord + 1 }
  let s2 := (s1.modCore g.core fun c => { c with freeAt := i.now + passes, lost := lost }).loseLatches i.gi g.core
  let s3 := if conf = 0 && late = 0 then s2 else
    s2.modCtx i.ci fun c => { c with bankConflict := c.bankConflict + BitVec.ofNat 64 conf,
                                     shortfall := c.shortfall + BitVec.ofNat 64 late }
  let s4 := s3.countPair i gc (i.close g passes lost (i.now + 1) move)
  (res.foldl (fun s r => s.launch i.gi s1.ord sig (i.now + passes - 1) r) s4).stepped i

/-! Traps and blocks at issue -/

/-- The age index of the record a trap names: the one at a position, or the eldest of the run (R54, R356). -/
def Iss.trapRecord (i : Iss) (pos : Option Nat) : Nat :=
  match pos with
  | some k => (i.g0.recs.findIdx? fun r => r.covers k).getD 0
  | none => (i.g0.recs.findIdx? i.inRun).getD 0

/-- Block the run at its instruction, which issues again when the condition is met (R85, R221, R238). -/
def Iss.block (i : Iss) (c : Cond) (ord : Nat) : Group :=
  ({ i.g0 with
      recs := i.g0.recs.map fun r => if i.inRun r then { r with wait := some ⟨c, true, 0, 0, none, 0#32, ord, 0, []⟩ } else r,
      windows := [] } : Group).restStrag

/-- Settle an instruction that does not issue: it traps, or blocks. A trap finds the group as it stood
before the merges. -/
def State.settle (s : State) (i : Iss) : Stop → State
  | .trap cls cause aux pos => s.takeTrap i.gi ⟨cls, cause, aux, i.trapRecord pos, false⟩ i.pc
  | .hold => if i.trial then s else s.modGroup i.gi fun g => { g with retryAt := i.now + 1 }
  | .block c => { s with groups := s.groups.set i.gi (i.block c (s.ord + 1)), ord := s.ord + 1 }

/-- Issue an instruction for the step's group: run its body on the issuing run, and settle. -/
def State.issue (s : State) (k : Ctl) (body : Iss → Except Stop State) : Host.Outcome State Fault Refusal :=
  match s.iss k with
  | none => .fault .noIssuer
  | some i =>
    match body i with
    | .ok s' => .next (if i.trial then s else s')
    | .error e => .next (s.settle i e)

/-! Case-table cells (R59, R121-R123) -/

/-- What a cell asks of a range record: forms, one per word; expansion; the fit rule with the form
that the entry states (none given: `[]`); nothing, for a record that reads a dead register under a
guard that is false everywhere; nothing yet, for one whose results land at a completion of their own. -/
inductive Cell where
  | form (fs : List Form)
  | x
  | fit (stated : List Form)
  | skip
  | later
  deriving DecidableEq, Repr

/-- What happens to a range record: nothing is written, forms are written, or it expands. -/
inductive Plan where
  | nothing
  | forms (fs : List Form)
  | expand
  deriving DecidableEq, Repr

/-- Word j of a value. -/
def word (x : BitVec 64) (j : Nat) : Word := (x >>> (32 * j)).setWidth 32

/-- Word j of values at positions. -/
def wordsAt (val : Nat → Nat → Word) (ps : List Nat) (j : Nat) : List (Nat × Word) :=
  ps.map fun k => (k, val k j)

/-- The fit rule over every position of a record (R123): the stated forms where they fit, else the
fitting pair of least c1, per word. -/
def fitWords (val : Nat → Nat → Word) (words : Nat) (r : Rec) (stated : List Form) : Option (List Form) :=
  let per (j : Nat) : Option Form :=
    let vs := wordsAt val r.positions j
    match stated[j]? with
    | some f => if fits f.c0 f.c1 vs then some f.norm else fitForm vs
    | none => fitForm vs
  let fs := (List.range words).filterMap per
  if fs.length = words then some fs else none

/-- The number of a v destination that is written. -/
def Iss.vDst (i : Iss) (d : Opnd) : Option Nat :=
  match d with
  | .v n => if i.k.nwb then none else some n.val
  | _ => none

/-- A record that would take these forms under a partial guard expands, unless it holds them (R121). -/
def Iss.partialPlan (i : Iss) (d : Opnd) (r : Rec) (fs : List Form) : Plan :=
  match i.vDst d with
  | some n =>
    if (i.onIn r).length ≠ r.positions.length && !((upto n fs.length).map r.form == fs) then .expand
    else .forms fs
  | none => .forms fs

/-- The plan of a range record. -/
def Iss.plan (i : Iss) (d : Opnd) (words : Nat) (val : Nat → Nat → Word) (r : Rec) : Cell → Plan
  | .skip => if (i.onIn r).isEmpty then .nothing else .expand
  | .later => .nothing
  | .x => .expand
  | .form fs => if (i.onIn r).isEmpty then .nothing else i.partialPlan d r (fs.map Form.norm)
  | .fit stated =>
    match fitWords val words r stated with
    | some fs => if (i.onIn r).isEmpty then .nothing else i.partialPlan d r fs
    | none => .expand

/-- Writes of a record's results to a destination: values at positions, the forms per word if they are
forms (R90, R124). -/
def Iss.dstWrites (i : Iss) (d : Opnd) (words : Nat) (val : Nat → Nat → Word) (ps : List Nat)
    (fs : List Form) : List RegWrite :=
  if i.k.nwb || ps.isEmpty then []
  else
    match d with
    | .v n => (List.range words).map fun j => .v (n.val + j) (wordsAt val ps j) fs[j]?
    | .s n => (List.range words).map fun j => .s (n.val + j) (val (ps.headD 0) j)
    | _ => []

/-- The latches that take a result of some words: the one that HOLD names, and hl1 the high words of a 64-bit result held
in hl0, with which it makes a pair (R52, R119; DEDUCED, log entry 79). -/
def heldLatches (hold words : Nat) : List Nat :=
  if hold = 0 then [] else if hold = 1 then upto 0 (Nat.min words 2) else [hold - 1]

/-- The write of a hold latch: words at the positions, and the form of the result where it is one (R52). -/
def Iss.latchWrites (i : Iss) (words : Nat) (val : Nat → Nat → Word) (ps : List Nat) (fs : List Form) : List RegWrite :=
  if ps.isEmpty then []
  else (heldLatches i.k.hold.toNat words).mapIdx fun j n => .hl n (wordsAt val ps j) fs[j]?

/-- The forms of a uniform value, as a lane record keeps it (R87). -/
def uniformForms (x : BitVec 64) (words : Nat) : List Form :=
  (List.range words).map fun j => ⟨.u, word x j, 0#32⟩

/-- U forms of a value given by words. -/
def wordForms (x : Nat → Word) (words : Nat) : List Form := (List.range words).map fun j => ⟨.u, x j, 0#32⟩

/-- The writes of one record's results at some of its positions: a lane record's are U or L, a range
record's are the forms of its plan or, once it has expanded, L (R87, R99). -/
def Iss.recWrites (i : Iss) (d : Opnd) (words : Nat) (val : Nat → Nat → Word) (uni : Bool) (p : Plan)
    (r : Rec) (ps : List Nat) : List RegWrite :=
  if r.lane then
    let fs := if uni then wordForms (val r.b) words else []
    i.dstWrites d words val ps fs ++ i.latchWrites words val ps fs
  else
    match p with
    | .forms fs => i.dstWrites d words val ps fs ++ i.latchWrites words val ps fs
    | .expand => i.dstWrites d words val ps [] ++ i.latchWrites words val ps []
    | .nothing => []

/-- Results of a value instruction before its finish: the group whose records spend the passes, the group with every
expansion made, and the writes and issues of its range records and of its lane records. -/
structure Values where
  gc : Group
  g : Group
  range : List RegWrite
  nRange : Nat
  lane : List RegWrite
  nLane : Nat

/-- The record of an s destination's failure: its result is not uniform (R90, R124). -/
def Iss.sFails (i : Iss) (words : Nat) (val : Nat → Nat → Word) (d : Opnd) (cell : Rec → Cell)
    (uni : Rec → Bool) (r : Rec) : Bool :=
  if (i.onIn r).isEmpty then false
  else if r.lane then !uni r
  else
    match i.plan d words val r (cell r) with
    | .forms fs => fs.any fun f => f.cls != .u
    | .expand => true
    | .nothing => false

/-- A destination in s. -/
def isSDst : Opnd → Bool
  | .s _ => true
  | _ => false

/-- Compute a value instruction over the run (R92, R120-R124): `val` gives the result at a position,
`cell` what the case table asks of a range record, `uni` whether a lane record's result is uniform. -/
def Iss.values (i : Iss) (d : Opnd) (words : Nat) (val : Nat → Nat → Word) (cell : Rec → Cell)
    (uni : Rec → Bool) : Except Stop Values :=
  let bad := if isSDst d then (i.run.filter (i.sFails words val d cell uni)).flatMap i.onIn else []
  match failAt 0x02 2 bad with
  | .error e => .error e
  | .ok _ =>
    let expands (r : Rec) : Bool := !r.lane && i.inRun r && i.plan d words val r (cell r) == .expand
    let ws (r : Rec) : List RegWrite := i.recWrites d words val (uni r) (i.plan d words val r (cell r)) r (i.onIn r)
    let rangeWs := (i.inOrder.filter fun r => !r.lane && !expands r).flatMap ws
    let laneWs := (i.inOrder.filter fun r => r.lane || expands r).flatMap ws
    let g := i.g.expand expands
    .ok ⟨g, g, rangeWs, (i.ranges g).length, laneWs, (i.lanes g).length⟩

/-- The record that covers a record's positions when it issues; none where a result has split it since (R416). -/
def Iss.recNow (j : Iss) (r : Rec) : Option Rec :=
  (j.g.recAt r.b).bind fun x => if x.lane == r.lane then some x else none

/-- What the case table asks of a range record at its own pass: one that has expanded by then issues as lane records. -/
def cellAt (cell : Rec → Cell) (j : Iss) (r : Rec) : Cell :=
  match j.recNow r with
  | some x => cell x
  | none => .x

/-- The class of a source in a record at its own pass: one that has expanded by then has none for all its positions. -/
def classAt (t : Nat → Iss) (wide : Bool) (x : Src) (r : Rec) : Cls :=
  match (t r.b).recNow r with
  | some y => (t r.b).g.srcCls wide y x
  | none => .l

/-- Issues that a group's records of the run make (R49). -/
def Iss.issues (i : Iss) (g : Group) : Nat := (i.ranges g).length + (i.lanes g).length

/-- A value instruction over the run, each record with the values that stand at its pass (R92, R112): the records whose
cells read X expand first, and the passes are those of the records that then stand. `val`, `cell` and `uni` are given
the issue as each position finds it; `cell` and `uni` a record of the run and what it is at its pass. -/
def Iss.timedValues (i : Iss) (coll : Bool) (regs : List Nat) (d : Opnd) (words : Nat)
    (val : (Nat → Iss) → Nat → Nat → Word) (cell : (Nat → Iss) → Rec → Rec → Cell) (uni : (Nat → Iss) → Rec → Rec → Bool) :
    Except Stop Values :=
  let cellIn (t : Nat → Iss) (r : Rec) : Cell := cellAt (cell t r) (t r.b) r
  let t0 := i.timed coll regs i.g
  let first (r : Rec) : Bool := !r.lane && i.inRun r && i.plan d words (val t0) r (cellIn t0 r) == .expand
  let gc := i.g.expand first
  let t := i.timed coll regs gc
  (i.values d words (val t) (fun r => if first r then .x else cellIn t r)
    (fun r => (((t r.b).recNow r).map (uni t r)).getD (uni t r r))).map fun v => { v with gc := gc }

/-- v registers that sources read. -/
def readRegs (ns : List Need) : List Nat := ns.flatMap Need.vregs

/-- Finish a value instruction: range results at one latency, lane results at another. -/
def State.finishValues (s : State) (i : Iss) (ns : List Need) (lr ll : Nat) (v : Values) : State :=
  s.finish i v.gc v.g (readRegs ns) 0 0 [⟨lr, v.nRange, v.range⟩, ⟨ll, v.nLane, v.lane⟩] i.advance

/-- A value instruction whole: checks, values, finish. -/
def State.valueWith (s : State) (coll : Bool) (k : Ctl) (ns : List Need) (d : Opnd) (words lr ll : Nat)
    (val : Iss → Nat → BitVec 64) (cell : Iss → Rec → Cell) (uni : Iss → Rec → Bool) :
    Host.Outcome State Fault Refusal :=
  s.issue k fun i =>
    match i.check ns with
    | .error e => .error e
    | .ok _ =>
      match i.timedValues coll (readRegs ns) d words (fun t p => word (val (t p) p)) (fun t r x => cell (t r.b) x)
          (fun t r x => uni (t r.b) x) with
      | .error e => .error e
      | .ok v => .ok (s.finishValues i ns lr ll v)

/-- A value instruction that reads each record's sources at its own pass (R112). -/
def State.valueOp (s : State) (k : Ctl) (ns : List Need) (d : Opnd) (words lr ll : Nat)
    (val : Iss → Nat → BitVec 64) (cell : Iss → Rec → Cell) (uni : Iss → Rec → Bool) :
    Host.Outcome State Fault Refusal :=
  s.valueWith false k ns d words lr ll val cell uni

/-! Predicate results -/

/-- Predicate bits at the run's guarded positions of some records. -/
def Iss.predWrites (i : Iss) (p : Nat) (bit : Nat → Bool) (rs : List Rec) : List RegWrite :=
  let ps := rs.flatMap i.onIn
  if ps.isEmpty || i.k.nwb then []
  else [.p p (maskOf ps) (maskBits (ps.map fun k => (k, bit k)))]

/-- A predicate instruction whole: it never expands a record (R121, R133, R142). -/
def State.predWith (s : State) (coll : Bool) (k : Ctl) (ns : List Need) (p lr ll : Nat) (bit : Iss → Nat → Bool) :
    Host.Outcome State Fault Refusal :=
  s.issue k fun i =>
    match i.check ns with
    | .error e => .error e
    | .ok _ =>
      let bitAt (q : Nat) : Bool := bit (i.timed coll (readRegs ns) i.g q) q
      .ok (s.finish i i.g i.g (readRegs ns) 0 0
        [⟨lr, (i.ranges i.g).length, i.predWrites p bitAt (i.ranges i.g)⟩,
         ⟨ll, (i.lanes i.g).length, i.predWrites p bitAt (i.lanes i.g)⟩] i.advance)

/-- A predicate instruction that reads each record's sources at its own pass (R112). -/
def State.predOp (s : State) (k : Ctl) (ns : List Need) (p lr ll : Nat) (bit : Iss → Nat → Bool) :
    Host.Outcome State Fault Refusal :=
  s.predWith false k ns p lr ll bit

/-- The number of a predicate operand; 0xFF names none. -/
def predNum (o : Opnd) : Nat :=
  match o with
  | .p n => n.val
  | _ => noPred

/-! Case tables of chapter 7 -/

/-- Values of several sources at a position, each 32 or 64 bits wide. -/
def Iss.vals (i : Iss) (wide : Bool) (xs : List Src) (k : Nat) : List (BitVec 64) :=
  xs.map fun x => i.g.src wide x k

/-- The worst class of some sources in a record. -/
def Iss.worst (i : Iss) (wide : Bool) (xs : List Src) (r : Rec) : Cls :=
  (xs.map fun x => i.g.srcCls wide r x).foldl Cls.worse .u

/-- All sources are uniform in a record. -/
def Iss.allU (i : Iss) (wide : Bool) (xs : List Src) (r : Rec) : Bool := i.worst wide xs r == .u

/-- U or X: the general table (R127) and every table on pairs (R122). -/
def Iss.generalCell (i : Iss) (wide : Bool) (xs : List Src) (f : List (BitVec 64) → BitVec 64) (words : Nat)
    (r : Rec) : Cell :=
  match i.worst wide xs r with
  | .u => .form (uniformForms (f (i.vals wide xs r.b)) words)
  | .a | .l => .x
  | .d => .skip

/-- Types at 32 bits whose table has A cells: `aff` computes the form from the sources' forms, or none
where the cell reads X. -/
def Iss.affineCell (i : Iss) (wide : Bool) (xs : List Src) (f : List (BitVec 64) → BitVec 64) (words : Nat)
    (aff : List Form → Option Form) (r : Rec) : Cell :=
  match i.worst wide xs r with
  | .a =>
    if wide then .x
    else
      match aff (xs.map fun x => i.g.srcForm r x 0) with
      | some fm => .form [fm]
      | none => .x
  | _ => i.generalCell wide xs f words r

/-- Immediate and register sources are uniform or not in a lane record. -/
def Iss.uniIn (i : Iss) (wide : Bool) (xs : List Src) (r : Rec) : Bool := i.allU wide xs r

end Sys2Proof.Machine
end

