-- ==== Sys2Proof/Machine/Order.lean ====
section
/-!
DEFINITION. When accesses are performed (R301, R302, R313, R316), barriers of a team (R323-R325), wake
conditions (R321, R372), the end of a group (R105, R245) and the waking of blocked records.
-/

namespace Sys2Proof.Machine

/-! Performed accesses -/

/-- A slot that stores (class GW of R305). -/
def Slot.isStore (l : Slot) : Bool :=
  match l.op with
  | .store | .scatter => true
  | _ => false

/-- A slot that holds an engine command (class EC). -/
def Slot.isCommand (l : Slot) : Bool :=
  match l.op with
  | .copy | .copyw | .rload => true
  | _ => false

/-- The stamp of a store-queue entry. -/
def StoreEnt.ord : StoreEnt → Nat
  | .chip _ o _ _ _ => o
  | .glob o => o
  | .atom o _ _ _ _ _ _ _ _ => o

/-- An on-chip store or `atoms`, not yet performed. -/
def StoreEnt.onChip : StoreEnt → Bool
  | .glob _ => false
  | _ => true

/-- A read-modify-write of `atoms`. -/
def StoreEnt.isAtom : StoreEnt → Bool
  | .atom _ _ _ _ _ _ _ _ _ => true
  | _ => false

/-- Kinds of waiting for earlier operations: full, acquire, release (R313), and a `qfence` mark. -/
def fenceFull : Nat := 0
def fenceAcq : Nat := 1
def fenceRel : Nat := 2
def fenceMark : Nat := 3

/-- A global write counts as performed at its home for this scope, not when it is taken: cluster and
wider, and any scope that spans both cores of a paired team (R300, R301). -/
def atHome (paired : Bool) (scope : Nat) : Bool := decide (3 ≤ scope) || (paired && decide (1 ≤ scope))

/-- A store counts as performed in its core: the engine has taken it, and no element that faulted is still to be
replayed and performed (R301, R329). -/
def Slot.inCore (l : Slot) : Bool := l.taken.isSome && l.elems.all fun x => !x.hit || x.st == .done

/-- A slot no longer holds up a fence of a kind and scope. -/
def Slot.passes (l : Slot) (kind scope : Nat) (paired : Bool) : Bool :=
  if l.isCommand then kind != fenceMark
  else if l.isStore then kind == fenceAcq || (l.inCore && !atHome paired scope)
  else false

/-- Every operation of the group before a stamp is performed at a scope, as a fence of this kind asks
(R313, R329); at group scope only a `qfence` mark waits (R307, R316). -/
def Group.earlierDone (g : Group) (kind scope : Nat) (paired : Bool) (ord : Nat) : Bool :=
  (kind != fenceMark && scope == 0) ||
    ((g.storeq.all fun e => decide (ord ≤ e.ord) || !e.onChip || (kind == fenceAcq && !e.isAtom)) &&
      (g.oplog.all fun l => decide (ord ≤ l.ord) || l.passes kind scope paired))

/-- An operation that carries QORD may begin its first access: earlier QORD operations and marks are
performed (R316). -/
def Group.qordReady (g : Group) (ord : Nat) (paired : Bool) : Bool :=
  (g.oplog.all fun l => decide (ord ≤ l.ord) || !l.qord) &&
    (g.marks.all fun m => decide (ord ≤ m.ord) || g.earlierDone fenceMark m.scope paired m.ord)

/-- Marks that are cleared leave the engine queue. -/
def Group.clearMarks (g : Group) (paired : Bool) : Group :=
  { g with marks := g.marks.filter fun m => !g.earlierDone fenceMark m.scope paired m.ord }

/-! Barriers -/

/-- The groups of a team that have not exited, as group numbers and groups (R324). -/
def State.liveGroups (s : State) (ti : Nat) : List Group :=
  s.groups.filter fun g => g.team == ti && g.serves.isNone && g.stat != .ended

/-- The kernel of a team's task. -/
def State.kernelOf (s : State) (t : Team) : Option Kernel := (s.tasks[t.task]?).map Task.kern

/-- A team is paired (R21). -/
def State.pairedTeam (s : State) (t : Team) : Bool := ((s.kernelOf t).map Kernel.paired).getD false

/-- A held arrival still waits for its group's earlier accesses (R325). -/
def State.arrivalHeld (s : State) (ti : Nat) (paired : Bool) (h : Nat × Nat × Nat) : Bool :=
  (s.liveGroups ti).any fun g => g.g == h.1 && !g.earlierDone fenceRel h.2.1 paired h.2.2

/-- Complete a barrier's phase if every group that has not exited has arrived (R324, R325). -/
def State.sweepBarrier (s : State) (ti : Nat) (paired : Bool) (b : Barrier) : Barrier :=
  let held := b.held.filter (s.arrivalHeld ti paired)
  let live := s.liveGroups ti
  if held.isEmpty && !live.isEmpty && live.all (fun g => b.marks.contains g.g) then ⟨b.phase + 1#32, [], []⟩
  else { b with held := held }

/-- Complete every phase of a team's barriers that can complete. -/
def State.sweepBarriers (s : State) (ti : Nat) : State :=
  match s.teams[ti]? with
  | none => s
  | some t =>
    if t.barriers.any (fun b => !b.marks.isEmpty) then
      s.modTeam ti fun t => { t with barriers := t.barriers.map (s.sweepBarrier ti (s.pairedTeam t)) }
    else s

/-- A group arrives at barrier n, once in a phase; the arrival is held as FR at its scope (R323, R325). -/
def State.arrive (s : State) (ti n g scope ord : Nat) : State :=
  let add (b : Barrier) : Barrier :=
    if b.marks.contains g then b else { b with marks := b.marks ++ [g], held := b.held ++ [(g, scope, ord)] }
  s.modTeam ti fun t => { t with barriers := modAt t.barriers n add }

/-- The barrier number and widest scope at which all records of a group stand blocked by `bar` (R323). -/
def Group.atBar (g : Group) : Option (Nat × Nat) :=
  let at_ (r : Rec) : Option (Nat × Nat) :=
    match r.wait with
    | some w => match w.cond with
      | .bar n _ sc => some (n, sc)
      | _ => none
    | none => none
  match g.recs with
  | [] => none
  | r :: rest =>
    (at_ r).bind fun a =>
      if rest.all (fun x => ((at_ x).map fun y => y.1) == some a.1) then
        some (a.1, maxNat ((g.recs.filterMap at_).map fun y => y.2))
      else none

/-- A group whose records all stand blocked at one `bar` arrives there (R323). -/
def State.autoArrive (s : State) (gi : Nat) : State :=
  match s.groups[gi]? with
  | none => s
  | some g =>
    match g.atBar with
    | some (n, sc) => if g.serves.isSome then s else s.arrive g.team n g.g sc s.ord
    | none => s

/-! The end of a group -/

/-- A queue as a group's exit leaves it: the ends it holds become unbound and are marked (R245). -/
def Queue.release (q : Queue) (g : Nat) : Queue :=
  { q with prod := if q.prod = .group g then .unbound else q.prod, gone := q.gone || q.prod = .group g,
           cons := if q.cons = .group g then .unbound else q.cons, cgone := q.cgone || q.cons = .group g }

/-- What follows records that left a group: a group with none has ended and releases its queue ends
(R105, R245); the rest may have arrived at a barrier (R323, R324). -/
def State.afterExit (s : State) (gi : Nat) : State :=
  match s.groups[gi]? with
  | none => s
  | some g =>
    if g.recs.isEmpty && g.stat != .ended then
      let s := s.modGroup gi fun g => { g with stat := .ended }
      if g.serves.isSome then
        s.modCore g.core fun c => { c with handlers := c.handlers.map fun h => if h == some gi then none else h }
      else (s.modTeam g.team fun t => { t with queues := t.queues.map fun q => q.release g.g }).sweepBarriers g.team
    else (s.autoArrive gi).sweepBarriers g.team

/-! Wake conditions -/

/-- A task of a context is committed, or older than any the Churn knows (R74). -/
def State.taskCommitted (s : State) (ci serial : Nat) : Bool :=
  match s.tasks.reverse.find? (fun t => t.ctx == ci && t.serial == serial) with
  | some t => t.committed
  | none => true

/-- Bit j of a team's own tags (R13, R39): kernel tags in their order, side 1 of a pair from 64 on. -/
def Team.tagBit (t : Team) (j : Nat) : Bool := t.tagBits.getLsbD j

/-- The tagmap of a core (R217): bit j is clear while a copy under core tag j is in flight. -/
def State.tagmap (s : State) (core : Nat) : BitVec 64 :=
  maskBits ((List.range 64).map fun j =>
    (j, !(s.teams.any fun t => t.stat == .running && (t.core == core || (s.pairedTeam t && t.core + 1 == core)) &&
      (List.range (t.seat core).tags.length).any fun n => (t.seat core).tags[n]? == some j && !t.tagBit (64 * (core - t.core) + n))))

/-- The lowest set tag of a mask (R333). -/
def Team.firstTag (t : Team) (side : Nat) (m : BitVec 64) : Option Nat :=
  (List.range 64).find? fun j => m.getLsbD j && t.tagBit (64 * side + j)

/-- The side of a pair that a group runs on (R21). -/
def State.sideOf (s : State) (g : Group) (t : Team) : Nat := if s.pairedTeam t then g.core % 2 else 0

/-- A wake condition holds (R321, R372). A condition of a loop or of an acceptance is met by its event. -/
def State.condMet (s : State) (g : Group) (t : Team) (c : Cond) : Bool :=
  match c with
  | .bar n p _ | .barwait n p => (t.barriers[n]?.map fun b => b.phase != p).getD false
  | .qEntry q =>
    (t.queues[q]?.map fun x => decide (0 < x.here (s.groupCk g)) || x.pois ||
      (x.gone && x.entries.isEmpty && x.flight == 0)).getD false
  | .qFree q =>
    (t.queues[q]?.map fun x => decide (x.held (s.groupCk g) < 16) ||
      x.cgone).getD false
  | .tag n => t.tagBit n
  | .tagMask m => (t.firstTag (s.sideOf g t) m).isSome
  | .count n lim => decide ((spGet 0#32 g.bc n).toNat ≤ lim.toNat)
  | .task n => s.taskCommitted g.ctx n
  | .tasks ns => ns.all (s.taskCommitted g.ctx)
  | .yield => true
  | .miterAgain => !t.preempt
  | .got _ _ | .loopEnd => false
  | .release t => decide (t ≤ s.devTime)

/-- The value that a met condition writes (R333); others write the value they were given. -/
def wakeValue (side : Nat) (t : Team) (w : Wait) : Word :=
  match w.cond with
  | .tagMask m => w32 ((t.firstTag side m).getD 0)
  | _ => w.value

/-- Departure from a barrier, and a task seen committed, act as `fence.acq` (R314, R325). -/
def Cond.acquires : Cond → Bool
  | .bar _ _ _ | .barwait _ _ | .task _ | .tasks _ => true
  | _ => false

/-- The hold of an acquire at a stamp, where earlier reads are not performed yet (R313, R329). -/
def Group.acquire (g : Group) (ord : Nat) : Group :=
  if g.earlierDone fenceAcq 4 false ord then g else { g with fences := g.fences ++ [⟨fenceAcq, 4, ord, 0, 0⟩] }

/-- The hold of a release at a scope and stamp, where earlier accesses are not performed yet (R313, R325, R329). -/
def Group.release (g : Group) (scope ord : Nat) (paired : Bool) : Group :=
  if g.earlierDone fenceRel scope paired ord then g else { g with fences := g.fences ++ [⟨fenceRel, scope, ord, 0, 0⟩] }

/-- A wait whose flag falls in the ck after its s register is written (R351). -/
def Cond.late : Cond → Bool
  | .release _ => true
  | _ => false

/-- The writes of a wait that is over: its s register, and the latch that HOLD names (R52). -/
def Wait.writes (w : Wait) (value : Word) : List RegWrite :=
  (match w.dst with
   | some n => [.s n value]
   | none => []) ++
  (if w.hold = 0 || w.ps.isEmpty then [] else [.hl (w.hold - 1) (w.ps.map fun k => (k, value)) (some ⟨.u, value, 0#32⟩)])

/-- Wake the records that share a wait's stamp in a ck: an instruction that issues again stays, another is done
and its records go on (R321); its writes are made in program order (R113). -/
def Group.wake (g : Group) (w : Wait) (value : Word) (ck : Nat) : Group :=
  let same (r : Rec) : Bool := (r.wait.map Wait.ord) == some w.ord
  let go (r : Rec) : Rec := if same r then { r with wait := none, pc := if w.again then r.pc else nextPc r.pc } else r
  let g1 := { g with recs := g.recs.map go }
  let g2 := if w.cond.late then { g1 with wb := g1.wb ++ [⟨ck + 1, ck + 1, w.ord, w.sig, w.cnt, []⟩] } else g1.sigDown w.sig w.cnt
  (w.writes value).foldl (fun g x => (g.dropOlder w.ord x).apply x) g2

/-- A wait that is a blocking point (R372). -/
def Cond.blocking : Cond → Bool
  | .loopEnd | .release _ => false
  | _ => true

/-- Every record of a group is blocked at a blocking point (R373). -/
def Group.allBlocked (g : Group) : Bool :=
  g.recs.all fun r =>
    match r.wait with
    | some w => w.cond.blocking
    | none => false

/-- A group can take a wake: it has not ended, its team holds a core (R322), and no abort cuts it there
(R72). -/
def State.canWake (s : State) (g : Group) : Bool :=
  g.stat != .ended && ((s.teams[g.team]?.map fun t =>
    t.stat == .running && !(t.cut.isSome && g.allBlocked)).getD false)

/-- Groups of a team's present start. -/
def State.groupsOf (s : State) (t : Team) : List Group := t.groups.filterMap fun gi => s.groups[gi]?

/-- Every group that has not ended stands wholly at blocking points, with no handler pending (R373), and the matrix work
in flight of each, one that has ended too, has run to completion (R257). -/
def State.atPoints (s : State) (t : Team) : Bool :=
  (s.groupsOf t).all fun g => g.work.isEmpty && (g.stat == .ended || (g.stat == .live && g.allBlocked && g.loop.isNone))

/-- A team with a group that has not ended (R387). -/
def State.evictable (s : State) (t : Team) : Bool := t.stat == .running && (s.groupsOf t).any fun g => g.stat != .ended

/-- Wake the record at an age index, if its condition is met (R321) and its team is not due to be evicted in this
ck (R335, R373). -/
def State.wakeRecord (s : State) (gi r : Nat) : State :=
  match s.groups[gi]? with
  | none => s
  | some g =>
    match s.teams[g.team]?, g.recs[r]?.bind Rec.wait with
    | some t, some w =>
      if s.canWake g && s.condMet g t w.cond && !(t.preempt && s.evictable t && s.atPoints t) then
        let v := wakeValue (s.sideOf g t) t w
        s.modGroup gi fun g => if w.cond.acquires then (g.wake w v (s.groupCk g)).acquire (s.ord + 1) else g.wake w v (s.groupCk g)
      else s
    | _, _ => s

/-! Blocking instructions -/

/-- Block the run at an issued instruction (R321): its records wait, its flag is raised, its windows
close. -/
def State.blockRun (s : State) (i : Iss) (c : Cond) (dst : Option Nat) (value : Word) : State :=
  let n := i.run.length
  s.finish i i.g i.g [] 0 n [] fun g =>
    { g with windows := [],
             recs := g.recs.map fun r =>
               if i.inRun r then { r with wait := some ⟨c, false, i.k.sig.toNat, n, dst, value, s.ord + 1, i.k.hold.toNat, i.on⟩ } else r }

/-- An instruction of this kind that completes at once, at latency 1, with an s result or none (R321). -/
def State.passRun (s : State) (i : Iss) (ws : List RegWrite) : State :=
  s.finish i i.g i.g [] 0 0 [⟨1, i.run.length, ws⟩] i.advance

/-- The s register of a destination, unless it is discarded. -/
def Iss.sDst (i : Iss) (d : Opnd) : Option Nat :=
  match d with
  | .s n => if i.k.nwb then none else some n.val
  | _ => none

/-- A write of an s destination, and of the latch that HOLD names (R52). -/
def Iss.sWrite (i : Iss) (d : Opnd) (v : Word) : List RegWrite :=
  (match i.sDst d with
   | some n => [.s n v]
   | none => []) ++ i.latchWrites 1 (fun _ _ => v) i.on [⟨.u, v, 0#32⟩]

/-- An instruction that passes at once although it waits: a barrier or a task that it finds complete acts as
`fence.acq` (R314, R325). -/
def State.passAt (s : State) (i : Iss) (c : Cond) (ws : List RegWrite) : State :=
  if c.acquires then (s.passRun i ws).modGroup i.gi fun g => g.acquire (s.ord + 1) else s.passRun i ws

/-- A wait whole (R321): checks, nothing under a false guard, then either it passes at once with its
value, or its records block. -/
def State.waitOp (s : State) (k : Ctl) (d : Opnd) (chk : Iss → Except Stop Unit)
    (now : Iss → Option Word) (c : Iss → Cond) : Host.Outcome State Fault Refusal :=
  s.issue k fun i =>
    match chk i with
    | .error e => .error e
    | .ok _ =>
      if !i.acts then .ok (s.passRun i [])
      else
        match now i with
        | some v => .ok (s.passAt i (c i) (i.sWrite d v))
        | none => .ok (s.blockRun i (c i) (i.sDst d) 0#32)

end Sys2Proof.Machine
end

