-- ==== Sys2Proof/Machine/Shapes.lean ====
section
/-!
DEFINITION. Shape records (R258-R262): fields, curds, validity, the versions that a group may see;
and tensor-address watchpoints (R368, R369).
-/

namespace Sys2Proof.Machine

/-! Fields (R258) -/

/-- Bits lo to lo + w - 1 of a record. -/
def shpField (x : BitVec 640) (lo w : Nat) : Nat := (x.extractLsb' lo w).toNat

def shpFmt (x : BitVec 640) : Nat := shpField x 0 4
def shpCols (x : BitVec 640) : Bool := x.getLsbD 8
def shpNc (x : BitVec 640) : Nat := shpField x 16 5
def shpPitch (x : BitVec 640) : Nat := shpField x 64 32
def shpExt (x : BitVec 640) : Nat := shpField x 112 16
/-- Boundary entry j. -/
def shpBd (x : BitVec 640) (j : Nat) : Nat := shpField x (16 * j + 128) 16

/-- The start of whey. -/
def shpWhey (x : BitVec 640) : Nat := shpBd x (shpNc x)

/-- The curd of a position, or none for whey (R259). -/
def shpCurd (x : BitVec 640) (p : Nat) : Option Nat :=
  if shpExt x ≤ p then none
  else (List.range (shpNc x)).find? fun j => decide (shpBd x j ≤ p) && decide (p < shpBd x (j + 1))

/-- A position is whey (R259). -/
def shpIsWhey (x : BitVec 640) (p : Nat) : Bool := (shpCurd x p).isNone

/-- A record is valid (R259). -/
def shpValid (x : BitVec 640) : Bool :=
  shpBd x 0 == 0 &&
    ((List.range (shpNc x)).all fun j => decide (shpBd x j ≤ shpBd x (j + 1))) &&
    decide (shpWhey x ≤ shpExt x) && decide (shpExt x ≤ 1024) &&
    shpPitch x % 4 == 0 && decide (shpPitch x ≤ 262144) && shpFmt x != 15 &&
    shpField x 4 4 == 0 && shpField x 9 7 == 0 && shpField x 21 43 == 0 && shpField x 96 16 == 0

/-! Versions (R262) -/

/-- The version of shape n that a group's snapshot takes: any one from the least it may still see on
(log entry 4: a free choice). -/
def State.shapeIdx (s : State) (g : Group) (t : Team) (n : Nat) : Nat :=
  let latest := (t.shps[n]?.getD []).length - 1
  let lo := spGet 0 g.shpSeen n
  if latest ≤ lo then latest else lo + Config.choice s.freeCtr % (latest - lo + 1)

/-- The record that a snapshot gives. -/
def State.shape (s : State) (g : Group) (t : Team) (n : Nat) : BitVec 640 :=
  (((t.shps[n]?.getD [])[s.shapeIdx g t n]?).map fun v => v.2).getD 0#640

/-- A group has seen a version: it never sees an older one (R262). -/
def State.sawShape (s : State) (gi n idx : Nat) : State :=
  { s.modGroup gi fun g => { g with shpSeen := spSet 0 g.shpSeen n idx } with freeCtr := s.freeCtr + 1 }

/-! Watchpoints (R368, R369) -/

/-- Kind bits of a watchpoint. -/
def watchRead : Nat := 0
def watchWrite : Nat := 1
def watchOperand : Nat := 2
def watchAcc : Nat := 3

/-- The rows of a watchpoint: first and number. With SHAPE they are the positions of one curd. -/
def Watch.rows (w : Watch) (shp : Nat → BitVec 640) : Nat × Nat :=
  if w.shape.getLsbD 7 then
    let x := shp (w.shape.toNat % 8)
    if w.curd < shpNc x then (shpBd x w.curd, shpBd x (w.curd + 1) - shpBd x w.curd) else (0, 0)
  else (w.row0, w.nRows)

/-- A watched row meets the bytes [a, a + len). -/
def Watch.meets (w : Watch) (shp : Nat → BitVec 640) (a len : Nat) : Bool :=
  let base := w.base.toNat % 2 ^ 56
  let (r0, n) := w.rows shp
  if n = 0 || len = 0 then false
  else if w.pitch = 0 then decide (base < a + len) && decide (a < base + w.rowBytes)
  else
    let lo := if a < base + w.rowBytes then 0 else (a - base - w.rowBytes) / w.pitch + 1
    let first := max lo r0
    decide (first < r0 + n) && decide (base + first * w.pitch < a + len)

/-- The lowest watchpoint that an access of a kind meets. -/
def Context.watchHit (c : Context) (shp : Nat → BitVec 640) (kind : Nat) (va : Addr) (len : Nat) : Option Nat :=
  (List.range 8).find? fun n =>
    match (c.watches[n]?).join with
    | some w => w.kinds.getLsbD kind && w.meets shp (va.toNat % 2 ^ 56) len
    | none => false

/-- The watchpoint check of accesses in position order: position, kind, address, length. A handler's
accesses, and the first ones of records marked by `tret.pass`, are not checked (R359, R366). -/
def State.watchCheck (s : State) (i : Iss) (as : List (Nat × Nat × Addr × Nat)) : Except Stop Unit :=
  if i.g.serves.isSome || i.ctx.watches.all Option.isNone then .ok ()
  else
    let open_ := as.filter fun a => !((i.g.recAt a.1).map Rec.noWatch).getD false
    let hit (a : Nat × Nat × Addr × Nat) : Option Nat := i.ctx.watchHit (s.shape i.g i.t) a.2.1 a.2.2.1 a.2.2.2
    match open_.filter fun a => (hit a).isSome with
    | [] => .ok ()
    | a :: _ => .error (.trap 0x0C 0 (w32 ((hit a).getD 0 + 2 ^ (4 + a.2.1))) (some a.1))

end Sys2Proof.Machine
end

