-- ==== Sys2Proof/Machine/Translate.lean ====
section
/-!
DEFINITION. The global window as an access finds it (R66-R71, R210-R214, R393): the translation that a
team sees over its versions, permissions, the Skimmer, peers; bytes at physical addresses; and fault
records (R370).
-/

namespace Sys2Proof.Machine

/-! Range sets of a team (R61) -/

/-- The tiles of a range entry for team t; the sum is signed. -/
def RangeEnt.first (e : RangeEnt) (t : Nat) : Int := (e.base : Int) + e.step * t

/-- Tile T lies in an entry's set for team t. -/
def RangeEnt.has (e : RangeEnt) (t tile : Nat) : Bool :=
  decide (e.first t ≤ tile) && decide ((tile : Int) < e.first t + e.count)

/-- The largest integer whose product with d is not above a, for d above 0. -/
def floorDiv (a : Int) (d : Nat) : Int := a / (d : Int)

/-- Some team of the task reaches a tile through an entry: t with BASE + STEP·t ≤ T < BASE + STEP·t + COUNT. -/
def RangeEnt.someTeam (e : RangeEnt) (teams tile : Nat) : Bool :=
  let x := (tile : Int) - e.base
  let d := e.step.natAbs
  if d = 0 then decide (0 < teams) && e.has 0 tile
  else
    let lo := if 0 < e.step then floorDiv (x - e.count + d) d else floorDiv (-x + d - 1) d
    let hi := if 0 < e.step then floorDiv x d else floorDiv (-x + e.count - 1) d
    decide (max lo 0 ≤ min hi ((teams : Int) - 1))

/-- A tile lies in the team's read set, its ordinary write set, or its atomic tiles. -/
def Task.reads (k : Task) (t tile : Nat) : Bool := k.ranges.any fun e => !e.write && e.has t tile
def Task.writes (k : Task) (t tile : Nat) : Bool := k.ranges.any fun e => e.write && !e.atomicT && e.has t tile
/-- A tile lies in the ordinary write set of some team of the task (R207). -/
def Task.writesSome (k : Task) (tile : Nat) : Bool :=
  k.ranges.any fun e => e.write && !e.atomicT && e.someTeam (k.gx * k.gy * k.gz) tile
def Task.atomics (k : Task) (t tile : Nat) : Bool := k.ranges.any fun e => e.write && e.atomicT && e.has t tile

/-- Teams of a task (R62). -/
def Task.teamCount (k : Task) : Nat := k.gx * k.gy * k.gz

/-- A tile is an atomic tile of the task, whichever of its teams reaches it (R70). -/
def Task.atomicTile (k : Task) (tile : Nat) : Bool := k.ranges.any fun e => e.write && e.atomicT && e.someTeam k.teamCount tile

/-- The first tile of the Creamery aperture (R201). -/
def creameryTile : Nat := 0x00FE000000000000 / 65536

/-! Translation -/

/-- What a translation finds: a physical address, or a fault with the status that stops the context
where the kind is not resolved. -/
inductive Tr where
  | ok (pa : Nat)
  | fault (k : TKind) (status : String)
  deriving DecidableEq, Repr

/-- A leaf grants an access kind (R211). -/
def pteGrants (e : Nat) : Acc → Bool
  | .read => pteR e
  | .write => pteW e
  | .atomic => pteA e
  | .exec => pteX e
  | .operand => pteM e

/-- The permission check of a frame in the link aperture (R393). -/
def State.peerCheck (s : State) (ci pa : Nat) (acc : Acc) : Option Tr :=
  if pa < linkBase then none
  else
    match spGet none s.peers (pa / 2 ^ 43 % 256) with
    | none => some (.fault .notPresent "peer")
    | some p =>
      if p.lost then some (.fault .notPresent "peer lost")
      else if acc = .exec ∨ acc = .operand then some (.fault .permission "permission fault")
      else if Config.peerExports ci (pa / 65536) then none
      else some (.fault .permission "link access")

/-- A permitted access of a leaf: the accessed and dirty bits that its walker sets (R211). -/
def State.touch (s : State) (at_ e : Nat) (acc : Acc) : State :=
  let w := acc = .write ∨ acc = .atomic
  let e1 := if nbit e 6 then e else e + 2 ^ 6
  let e2 := if w && !nbit e 7 then e1 + 2 ^ 7 else e1
  if e2 = e then s else s.setPte at_ e2

/-- The accessed and dirty bits of an address's own leaf, where an access finds its frame through a version (R68, R211). -/
def State.touchLeaf (s : State) (root va : Nat) (acc : Acc) : State :=
  match s.walk root va with
  | .leaf at_ e _ => s.touch at_ e acc
  | _ => s

/-- An entry with the frame number given, and V, R and W set; its other bits stay (R213). -/
def servedEntry (e frame : Nat) : Nat := (e / 2 ^ 52 * 2 ^ 52 + frame % 2 ^ 36 * 65536 + e % 4096) ||| 7

/-- The Skimmer's service of an anonymous page (R213): a frame from the pool, V, R and W set. -/
def State.skim (s : State) (at_ : Nat) : Option State :=
  if s.pool = 0 then none
  else
    let (f, s1) := s.takeFrame
    some (s1.setPte at_ (servedEntry (s.pte at_) f))

/-- A demand access through the context's tables. `dev` says that the access may reach a
device-register page (R214), `mapped` that the team's own mapping grants it whatever the leaf grants (R67, R70). -/
def State.tableAccess (s : State) (ci root va : Nat) (acc : Acc) (dev mapped : Bool) : Tr × State :=
  let leaf (s : State) (at_ e sh : Nat) : Tr × State :=
    let pa := pteFrame e + va % 2 ^ sh
    if pteDev e && !dev then (.fault .device "device access", s)
    else if !mapped && !pteGrants e acc then (.fault .permission "permission fault", s)
    else
      match s.peerCheck ci pa acc with
      | some f => (f, s)
      | none => (.ok pa, s.touch at_ e acc)
  match s.walk root va with
  | .leaf at_ e sh => leaf s at_ e sh
  | .fail k => (.fault k (if k = .format then "format fault" else "unmapped access"), s)
  | .anon at_ =>
    match s.skim at_ with
    | some s1 => leaf s1 at_ (s1.pte at_) 16
    | none => (.fault .notPresent "unmapped access", s)

/-- The permission of the tile's own leaf, where it has one (a version keeps it for atomics; log entry 7). -/
def State.leafGrants (s : State) (root va : Nat) (acc : Acc) : Bool :=
  match s.walk root va with
  | .leaf _ e _ => pteGrants e acc
  | _ => acc == .read || acc == .write

/-- The frame that stands for a tile as a team, or none, sees it (R67, R68): a version that it writes, its read version,
else what is committed; none where the context's tables give it. -/
def State.tileFrame (s : State) (c : Context) (ti : Option Nat) (tile : Nat) : Option Nat :=
  let done := spGet none c.commits tile
  match (ti.bind fun t => s.teams[t]?).bind fun t => (s.tasks[t.task]?).map fun k => (t, k) with
  | none => done
  | some (t, k) =>
    if creameryTile ≤ tile || k.atomicTile tile then done
    else if k.writes t.t tile then ((t.versions.find? fun v => v.tile == tile).map fun v => some v.frame).getD done
    else if k.reads t.t tile then ((t.readVers.find? fun v => v.1 == tile).map fun v => v.2).getD done
    else done

/-- How a team's sets map a tile (R67, R68, R70, R71). -/
inductive Mapping where
  | plain | atomic | version | readOnly
  deriving DecidableEq, Repr

/-- The mapping of a tile for a team, or for none. -/
def State.mappingOf (s : State) (ti : Option Nat) (tile : Nat) : Mapping :=
  match (ti.bind fun t => s.teams[t]?).bind fun t => (s.tasks[t.task]?).map fun k => (t, k) with
  | none => .plain
  | some (t, k) =>
    if k.atomicTile tile then .atomic
    else if creameryTile ≤ tile then .plain
    else if k.writes t.t tile && (t.versions.any fun v => v.tile == tile) then .version
    else if !k.writes t.t tile && k.reads t.t tile then .readOnly
    else .plain

/-- A demand access of a team, or of no team, at a global address (R67-R70, R213). -/
def State.access (s : State) (ci : Nat) (ti : Option Nat) (va : Nat) (acc : Acc) (dev : Bool) : Tr × State :=
  match s.contexts[ci]? with
  | none => (.fault .notPresent "unmapped access", s)
  | some c =>
    let tile := va / 65536
    /- an access that the mapping grants, or that the tile's own leaf must -/
    let reach (mapped : Bool) : Tr × State :=
      match s.tileFrame c ti tile with
      | some f =>
        if mapped || s.leafGrants c.root va acc then (.ok (f * 65536 + va % 65536), s.touchLeaf c.root va acc)
        else (.fault .permission "permission fault", s)
      | none => s.tableAccess ci c.root va acc dev mapped
    match s.mappingOf ti tile with
    | .plain => reach false
    | .atomic => if acc = .atomic then reach true else (.fault .atomicTile "atomic tile misuse", s)
    | .version => reach (acc == .read || acc == .write)
    | .readOnly =>
      if acc = .write ∨ acc = .atomic then (.fault .permission "read-set write", s) else reach (acc == .read)

/-! TLBs (R5, R212) -/

/-- Entries of a core's L1 TLB and of a cluster's L2 TLB. -/
def l1Size : Nat := 128
def l2Size : Nat := 4096

/-- An entry holds the translation of an address: it serves its whole page, whatever its size (R212). -/
def TlbEnt.covers (e : TlbEnt) (ci va : Nat) : Bool := e.ctx == ci && va % 2 ^ 56 / 2 ^ e.shift * 2 ^ e.shift / 65536 == e.page

/-- An entry becomes the most recently used of a TLB of n entries. -/
def tlbPut (n : Nat) (e : TlbEnt) (l : List TlbEnt) : List TlbEnt := (e :: l.filter fun x => x != e).take n

/-- A core's TLBs hold the translation of an address. -/
def State.tlbHolds (s : State) (core ci va : Nat) : Bool :=
  ((s.core core).tlb.any fun e => e.covers ci va) || ((spGet [] s.tlb (coreCluster core)).any fun e => e.covers ci va)

/-- Entries enter a cluster's L2 TLB. -/
def State.fillL2 (s : State) (cluster : Nat) (es : List TlbEnt) : State :=
  if es.isEmpty then s else { s with tlb := spSet [] s.tlb cluster (es.foldl (fun l e => tlbPut l2Size e l) (spGet [] s.tlb cluster)) }

/-- The entry of an address, where its walk ends in a leaf. -/
def State.tlbEnt (s : State) (ci root va : Nat) : Option TlbEnt :=
  match s.walk root va with
  | .leaf _ _ sh => some ⟨ci, va % 2 ^ 56 / 2 ^ sh * 2 ^ sh / 65536, sh⟩
  | _ => none

/-- A translation that a core has made stands in its L1 TLB and in its cluster's L2 TLB (R212). -/
def State.fillTlb (s : State) (core ci va : Nat) : State :=
  match (s.contexts[ci]?).bind fun c => s.tlbEnt ci c.root va with
  | none => s
  | some e => (s.modCore core fun c => { c with tlb := tlbPut l1Size e c.tlb }).fillL2 (coreCluster core) [e]

/-- Change every core. -/
def State.mapCores (s : State) (f : Core → Core) : State :=
  { s with cores := (s.cores.map fun c => (c.1, f c.2)).filter fun c => c.2 != Core.reset }

/-- The TLBs lose what they hold for a test. -/
def State.dropTlb (s : State) (out : TlbEnt → Bool) : State :=
  let l2 := (s.tlb.map fun c => (c.1, c.2.filter fun e => !out e)).filter fun c => !c.2.isEmpty
  { s with tlb := l2 }.mapCores fun c => { c with tlb := c.tlb.filter fun e => !out e }

/-! Bytes -/

/-- The number of a device-register page's word. -/
def State.isDevice (s : State) (root va : Nat) : Bool :=
  match s.walk root va with
  | .leaf _ e _ => pteDev e
  | _ => false

/-- Bytes at a physical address under a context's key. -/
def State.readPa (s : State) (ci pa n : Nat) : Nat := leNat (s.pmReadN (ctxKey ci) pa n)

/-- Write the low n bytes of a number at a physical address. -/
def State.writePa (s : State) (ci pa n x : Nat) : State := s.pmWriteN (ctxKey ci) pa (leBytes n x)

/-! Fault records (R370) -/

/-- Write a fault record. One that would leave 4,096 unconsumed sets OVF and stops the context. The faults of a
context that is being killed are not delivered (R378). -/
def State.pushFault (s : State) (ci : Nat) (r : FaultRec) : State :=
  match s.contexts[ci]? with
  | none => s
  | some c =>
    if c.ending then s
    else if (c.faultTail + 4096 - c.faultHead) % 4096 = 4095 then
      (s.modCtx ci fun c => { c with overflow := true }).stopContext ci "fault queue overflow"
    else
      s.modCtx ci fun c =>
        { c with faults := c.faults ++ [{ r with serial := c.faultSerial }],
                 faultTail := (c.faultTail + 1) % 4096, faultSerial := c.faultSerial + 1#32 }

/-- ACCESS of a fault record (R370). -/
def accCode : Acc → Nat
  | .read | .exec | .operand => 0
  | .write => 1
  | .atomic => 2

end Sys2Proof.Machine
end

