-- ==== Sys2Proof/Machine/Access.lean ====
section
/-!
DEFINITION. Accesses as they issue: the Separator and its checks (R30, R201, R202), banks and rounds
(R206), the group's own store queue (R302), operand-log slots (R228), byte counts (R218), and queue
ends (R219-R221, R374, R375).
-/

namespace Sys2Proof.Machine

/-! The Separator (R201) -/

/-- Apertures. -/
inductive Aper where
  | spad | partner | stack | acc | creamery | global | unassigned
  deriving DecidableEq, Repr

/-- The aperture and the offset in it of address bits [55:0]. -/
def aperOf (stack acc a : Nat) : Aper × Nat :=
  let base := 0x00FF000000000000
  if a < 0x00FE000000000000 then (.global, a)
  else if a < 0x00FE000040000000 then (.creamery, a - 0x00FE000000000000)
  else if base ≤ a ∧ a < base + 0x40000 then (.spad, a - base)
  else if base + 0x40000 ≤ a ∧ a < base + 0x80000 then (.partner, a - base - 0x40000)
  else if base + 0x100000000 ≤ a ∧ a < base + 0x100000000 + stack then (.stack, a - base - 0x100000000)
  else if base + 0x200000000 ≤ a ∧ a < base + 0x200000000 + 4096 * acc then (.acc, a - base - 0x200000000)
  else (.unassigned, 0)

/-- The result latency of an on-chip aperture (R112). -/
def aperLat : Aper → Nat
  | .partner => 10
  | .acc => 8
  | _ => 6

/-- Stack bytes per index; a handler has none (R358). -/
def Iss.stackBytes (i : Iss) : Nat := if i.g.serves.isSome then 0 else i.kern.stack

/-- The aperture of an address. -/
def Iss.aper (i : Iss) (va : Addr) : Aper × Nat := aperOf i.stackBytes i.kern.acc (va.toNat % 2 ^ 56)

/-- Groups of a team on the even core of a pair (R21). -/
def evenGroups (k : Kernel) : Nat := (k.team / k.width + 1) / 2

/-- The index of a position among those of its team on its core (R21, R204). -/
def Iss.coreIndex (i : Iss) (k : Nat) : Nat :=
  let g := if i.kern.paired && decide (evenGroups i.kern ≤ i.g.g) then i.g.g - evenGroups i.kern else i.g.g
  g * i.g.width + k

/-- The place of an on-chip offset (R203-R205). -/
def Iss.place (i : Iss) (ap : Aper) (o k : Nat) : Place :=
  match ap with
  | .partner => ⟨corePartner i.g.core, .spad, (i.t.seat (corePartner i.g.core)).foot + o⟩
  | .stack => ⟨i.g.core, .stack, i.seat.stackAt + i.coreIndex k * i.kern.stack + o⟩
  | .acc => ⟨i.g.core, .acc, 4096 * i.seat.accs.getD (o / 4096) 0 + o % 4096⟩
  | _ => ⟨i.g.core, .spad, i.seat.foot + o⟩

/-- The checks of one access in the order of R30, R201 and R202: the cause of a failure, or none.
`admits` lists the apertures the access may reach. -/
def Iss.accessFault (i : Iss) (perm : Nat) (admits : List Aper) (size : Nat) (va : Addr) : Option Nat :=
  let (ap, o) := i.aper va
  if !i.ctx.boundOk perm va size then some causeBound
  else if !admits.contains ap then some causeAperture
  else if va.toNat % size != 0 then some causeAlign
  else
    let room :=
      match ap with
      | .spad => decide (o + size ≤ i.seat.footLen)
      | .partner => i.kern.paired && decide (o + size ≤ (i.t.seat (corePartner i.g.core)).footLen)
      | .stack => decide (o + size ≤ i.stackBytes)
      | .acc => decide (o + size ≤ 4096 * i.kern.acc)
      | _ => true
    if room then none else some causeAperture

/-- The check of the accesses of some positions, in age order: the eldest failing record's cause, the
lowest failing position (R54, R353). -/
def Iss.checkAccess (i : Iss) (perm : Nat) (admits : List Aper) (size : Nat) (as : List (Nat × Addr)) :
    Except Stop Unit :=
  let bad := as.filter fun a => (i.accessFault perm admits size a.2).isSome
  match bad with
  | [] => .ok ()
  | a :: _ => i.failAccess ((i.accessFault perm admits size a.2).getD 0) (bad.map fun b => b.1)

/-! Banks and rounds (R206) -/

/-- The lane slot of a position (R83); `slot` counts half slots. -/
def Iss.laneSlot (i : Iss) (k : Nat) : Nat := 16 * i.g.slot + k

/-- The bank words of an access: unit (own array, partner, accumulator), bank, word. -/
def Iss.bankWords (i : Iss) (k : Nat) (va : Addr) (size : Nat) : List (Nat × Nat × Nat) :=
  let (ap, o) := i.aper va
  (List.range ((size + 3) / 4)).filterMap fun j =>
    let w := o / 4 + j
    match ap with
    | .spad => some (0, w % 64, w)
    | .partner => some (1, w % 64, w)
    | .stack => some (0, (w + i.laneSlot k) % 64, 2 ^ 32 + i.coreIndex k * 4096 + w)
    | .acc => some (2, w % 32, w)
    | _ => none

/-- Rounds that some bank words need: each bank serves one word a round. -/
def roundsOf (ws : List (Nat × Nat × Nat)) : Nat :=
  let ds := dedup ws
  maxNat (ds.map fun w => (ds.filter fun v => v.1 == w.1 && v.2.1 == w.2.1).length)

/-- The rounds beyond the first of a range record's positions, or of a lane pass, that issues in a ck: the words that
each position reaches with the values of that ck. -/
def Iss.rounds (i : Iss) (words : Iss → Nat → List (Nat × Nat × Nat)) (ck : Nat) (u : List Rec) : Nat :=
  roundsOf ((u.flatMap i.onIn).flatMap (words (i.at ck))) - 1

/-- The rounds beyond the first of a whole issue. -/
def extraOf (rounds : Nat → List Rec → Nat) (sch : List (List Rec × Nat)) : Nat := (sch.map fun u => rounds u.2 u.1).sum

/-- The counter of extra rounds (R206). -/
def State.countRounds (s : State) (ci n : Nat) : State :=
  if n = 0 then s else s.modCtx ci fun c => { c with spadConflict := c.spadConflict + BitVec.ofNat 64 n }

/-! The group's own stores (R302) -/

/-- The byte that the youngest unperformed on-chip store of a group before a stamp writes at a place. -/
def Group.queued (g : Group) (p : Place) (ord : Nat) : Option Byte :=
  (g.storeq.reverse.findSome? fun e =>
    match e with
    | .chip _ o ws _ _ => if o < ord then (ws.reverse.find? fun w => w.1 == p).map fun w => w.2 else none
    | _ => none)

/-- An `atoms` of the group before a stamp that is not yet performed covers a place: a read of it waits. -/
def Group.atomPending (g : Group) (p : Place) (n ord : Nat) : Bool :=
  g.storeq.any fun e =>
    match e with
    | .atom o _ _ _ _ els _ _ _ => decide (o < ord) && els.any fun x =>
      x.2.core == p.core && x.2.arr == p.arr && decide (x.2.off < p.off + n) && decide (p.off < x.2.off + x.1.len)
    | _ => false

/-- n bytes at a place as a group reads them at a stamp: its queue first, then the array (R216, R302). -/
def State.readPlace (s : State) (g : Group) (p : Place) (n ord : Nat) : Nat :=
  leNat ((upto p.off n).map fun o =>
    match g.queued { p with off := o } ord with
    | some b => b
    | none => s.arrRead g.ctx { p with off := o })

/-! Later passes of a load (R301) -/

/-- Word j of a number. -/
def numWord (x j : Nat) : Word := BitVec.ofNat 32 (x / 2 ^ (32 * j))

/-- Values at positions, those of a later pass replaced by what it has read. -/
def renewVals (x : Reread) (w : Word) (vs : List (Nat × Word)) : List (Nat × Word) :=
  vs.map fun p => if x.ps.contains p.1 then (p.1, w) else p

/-- The form of a value that a range record shares, once its pass has read it. -/
def renewForm (x : Reread) (w : Word) (vs : List (Nat × Word)) (f : Option Form) : Option Form :=
  if vs.any fun p => x.ps.contains p.1 then f.map fun _ => ⟨.u, w, 0#32⟩ else f

/-- Result number r of the words of a destination from b on, or none of them. -/
def wordOf (b size r : Nat) : Option Nat := if b ≤ r ∧ r < b + (size + 3) / 4 then some (r - b) else none

/-- A write in flight of a load, with the value that a later pass has read (R301). -/
def RegWrite.renew (x : Reread) (v : Nat) (w : RegWrite) : RegWrite :=
  match w, x.dst with
  | .v r vs f, .v b =>
    match wordOf b x.size r with
    | some j => .v r (renewVals x (numWord v j) vs) (renewForm x (numWord v j) vs f)
    | none => w
  | .s r _, .s b => ((wordOf b x.size r).map fun j => RegWrite.s r (numWord v j)).getD w
  | .hl n vs f, _ =>
    match (if x.hold = 0 then none else wordOf (x.hold - 1) x.size n) with
    | some j => .hl n (renewVals x (numWord v j) vs) (renewForm x (numWord v j) vs f)
    | none => w
  | .push q ws, _ => .push q (ws.mapIdx fun k y => if x.ps.contains k then numWord v 0 else y)
  | _, _ => w

/-- The passes of a group's loads whose ck is over have read what stood there in it (R301). -/
def State.reread (s : State) (gi : Nat) (g : Group) : State :=
  let now := s.groupCk g
  let due := g.rereads.filter fun x => decide (x.ck ≤ now)
  if due.isEmpty then s
  else
    s.modGroup gi fun h =>
      due.foldl (fun h x =>
        { h with wb := h.wb.map fun e =>
            if e.ord = x.ord then { e with ws := e.ws.map (RegWrite.renew x (s.readPlace g x.place x.size x.ord)) } else e })
        { h with rereads := h.rereads.filter fun x => !decide (x.ck ≤ now) }

/-! Operand-log slots and byte counts (R218, R228) -/

/-- The lowest free slot. -/
def Group.freeSlot (g : Group) : Option Nat := (List.range 8).find? fun n => !(g.oplog.any fun l => l.num == n)

/-- Room in a byte count. -/
def Group.countRoom (g : Group) (cq n : Nat) : Bool := decide ((spGet 0#32 g.bc cq).toNat + n ≤ 0x7FFFFFFF)

/-- Count bytes at issue. -/
def Group.countUp (g : Group) (cq n : Nat) : Group := { g with bc := spSet 0#32 g.bc cq (spGet 0#32 g.bc cq + w32 n) }

/-- The slot's destination for a register operand. -/
def Iss.slotDst (i : Iss) (d : Opnd) : Dst :=
  if i.k.nwb then .none
  else
    match d with
    | .v n => .v n.val
    | .s n => .s n.val
    | _ => .none

/-- A fresh slot of an issue. -/
def Iss.newSlot (i : Iss) (num ord : Nat) (ins : Instr) (op : SlotOp) (elems : List Elem) (size : Nat)
    (cq : Option Nat) (cnt : Nat) (dst : Dst) (words : Nat) (qord : Bool) : Slot :=
  { num := num, ord := ord, pc := i.pc, instr := ins, op := op, elems := elems, size := size, cq := cq,
    sig := i.k.sig.toNat, cnt := cnt, dst := dst, hold := i.k.hold.toNat, words := words,
    tag := 0, qord := qord, taken := none, core := i.g.core, landed := none, skip := [] }

/-- A slot enters the log; a store also enters the store queue (R302). -/
def Group.addSlot (g : Group) (l : Slot) : Group :=
  { g with oplog := g.oplog ++ [l], storeq := if l.isStore then g.storeq ++ [.glob l.ord] else g.storeq }

/-- An element that serves some positions. -/
def mkElem (ps : List Nat) (va : Addr) (len : Nat) (data : BitVec 128) (uni : Bool := false) : Elem :=
  ⟨ps, va, len, data, 0#64, 0#64, .pending, 0#128, false, uni⟩

/-! Queues -/

/-- A group may use a queue end: unbound, or its own (R219). -/
def endOk (e : QEnd) (g : Nat) : Bool := e == .unbound || e == .group g

/-- A queue's head entry that a pop may take now: an entry pushed this ck is not yet there (R221). -/
def Queue.head (q : Queue) (now : Nat) : Option (List Word) :=
  if q.here now = 0 then none else q.entries.head?

/-- The entry that a pop or peek takes, or why there is none: binding (R219), then R374. -/
def Iss.popCheck (i : Iss) (n : Nat) : Except Stop (List Word) :=
  match i.queue n with
  | none => .error (badOperand 0)
  | some q =>
    if !endOk q.cons i.g.g then .error (badOperand 4)
    else
      match q.head i.now with
      | some e => .ok e
      | none =>
        if !q.entries.isEmpty || q.flight != 0 then .error (.block (.qEntry (i.queueIx n)))
        else if q.pois then .error (.trap 0x0A 0 (w32 n) none)
        else if q.gone then .error (.trap 0x09 0 (w32 n) none)
        else .error (.block (.qEntry (i.queueIx n)))

/-- Room for a push: a full queue blocks, or traps where its consumer is gone (R220, R221, R375). -/
def Iss.pushCheck (i : Iss) (n : Nat) : Except Stop Unit :=
  match i.queue n with
  | none => .error (badOperand 0)
  | some q =>
    if !endOk q.prod i.g.g then .error (badOperand 4)
    else
      if q.held i.now < 16 then .ok ()
      else if q.cgone then .error (.trap 0x09 1 (w32 n) none)
      else .error (.block (.qFree (i.queueIx n)))

/-- Change a queue of a team. -/
def State.modQueue (s : State) (ti n : Nat) (f : Queue → Queue) : State :=
  s.modTeam ti fun t => { t with queues := modAt t.queues n f }

/-- Take the head entry of a queue. -/
def State.popQueue (s : State) (ti n : Nat) : State :=
  s.modQueue ti n fun q => q.leave (s.teamCk ti)

/-- Claim room for a push (R220). -/
def State.claim (s : State) (ti n : Nat) : State := s.modQueue ti n fun q => { q with flight := q.flight + 1 }

/-- The 64 words of an entry: values at positions, zero elsewhere (R220). -/
def entryWords (vs : List (Nat × Word)) : List Word :=
  (List.range 64).map fun k => ((vs.find? fun v => v.1 == k).map fun v => v.2).getD 0#32

end Sys2Proof.Machine
end

