-- ==== Sys2Proof/Machine/Integer.lean ====
section
/-!
DEFINITION. The integer and address instructions (R118-R135) and the predicate instructions (R142).
-/

namespace Sys2Proof.Machine

/-! Values (R131, R132): sources as 64-bit words, zero-extended on a 32-bit type; the low w bits of
the result count. -/

/-- A source as an integer, signed or unsigned by its type. -/
def intOf (ty : Ty) (x : BitVec 64) : Int := asInt (tySigned ty) (tyBits ty) x

/-- The integer's low 64 bits. -/
def b64 (x : Int) : BitVec 64 := BitVec.ofInt 64 x

/-- The shift count: b mod w (R131). -/
def shiftCount (ty : Ty) (b : BitVec 64) : Nat := b.toNat % tyBits ty

/-- The w-bit word of a source. -/
def natOf (ty : Ty) (x : BitVec 64) : Nat := x.toNat % 2 ^ tyBits ty

def valAdd (_ : Ty) (a b : BitVec 64) : BitVec 64 := a + b
def valSub (_ : Ty) (a b : BitVec 64) : BitVec 64 := a - b
def valMul (_ : Ty) (a b : BitVec 64) : BitVec 64 := a * b
/-- Bits [2w-1:w] of the product. -/
def valMulhi (ty : Ty) (a b : BitVec 64) : BitVec 64 := b64 (intOf ty a * intOf ty b / 2 ^ tyBits ty)
/-- The quotient rounded toward zero; all ones on a zero divisor (R132). -/
def valDiv (ty : Ty) (a b : BitVec 64) : BitVec 64 :=
  if natOf ty b = 0 then BitVec.allOnes 64 else b64 ((intOf ty a).tdiv (intOf ty b))
/-- The remainder of `div`; a on a zero divisor (R132). -/
def valRem (ty : Ty) (a b : BitVec 64) : BitVec 64 :=
  if natOf ty b = 0 then a else b64 (intOf ty a - intOf ty b * (intOf ty a).tdiv (intOf ty b))
def valMin (ty : Ty) (a b : BitVec 64) : BitVec 64 := if intOf ty a ≤ intOf ty b then a else b
def valMax (ty : Ty) (a b : BitVec 64) : BitVec 64 := if intOf ty a ≤ intOf ty b then b else a
def valShl (ty : Ty) (a b : BitVec 64) : BitVec 64 := a <<< shiftCount ty b
def valShr (ty : Ty) (a b : BitVec 64) : BitVec 64 := a >>> shiftCount ty b
/-- An arithmetic shift, whatever the type. -/
def valSar (ty : Ty) (a b : BitVec 64) : BitVec 64 := b64 (asInt true (tyBits ty) a / 2 ^ shiftCount ty b)
def valAndb (_ : Ty) (a b : BitVec 64) : BitVec 64 := a &&& b
def valOrb (_ : Ty) (a b : BitVec 64) : BitVec 64 := a ||| b
def valXorb (_ : Ty) (a b : BitVec 64) : BitVec 64 := a ^^^ b
def valAndn (_ : Ty) (a b : BitVec 64) : BitVec 64 := a &&& ~~~b
def valNeg (_ : Ty) (a : BitVec 64) : BitVec 64 := -a
def valAbs (ty : Ty) (a : BitVec 64) : BitVec 64 := if 0 ≤ intOf ty a then a else -a
def valNotb (_ : Ty) (a : BitVec 64) : BitVec 64 := ~~~a
/-- Set bits among the low n. -/
def popBits (x : BitVec 64) (n : Nat) : Nat := ((List.range n).filter fun j => x.getLsbD j).length
/-- Leading zero bits of the w-bit word. -/
def clzBits (x : BitVec 64) (w : Nat) : Nat :=
  ((List.range w).find? fun j => x.getLsbD (w - 1 - j)).getD w
def valClz (ty : Ty) (a : BitVec 64) : BitVec 64 := BitVec.ofNat 64 (clzBits a (tyBits ty))
def valPopc (ty : Ty) (a : BitVec 64) : BitVec 64 := BitVec.ofNat 64 (popBits a (tyBits ty))
/-- Bit j moves to bit w-1-j. -/
def valBrev (ty : Ty) (a : BitVec 64) : BitVec 64 :=
  BitVec.ofNat 64 (((List.range (tyBits ty)).map fun j => if a.getLsbD j then 2 ^ (tyBits ty - 1 - j) else 0).sum)

/-- The field width of `bfx` and `bfi` (R132). -/
def fieldLen (w pos len : Nat) : Nat := if pos < w then Nat.min len (w - pos) else 0
/-- `bfx` (R132): the field, extended by type; 0 when it is empty. -/
def valBfx (ty : Ty) (pos len : Nat) (a : BitVec 64) : BitVec 64 :=
  let l := fieldLen (tyBits ty) pos len
  if l = 0 then 0#64 else b64 (asInt (tySigned ty) l (a >>> pos))
/-- `bfi` (R132): the field replaced by the low bits of b. -/
def valBfi (ty : Ty) (pos len : Nat) (a b : BitVec 64) : BitVec 64 :=
  let m := BitVec.ofNat 64 ((2 ^ fieldLen (tyBits ty) pos len - 1) * 2 ^ pos)
  (a &&& ~~~m) ||| ((b <<< pos) &&& m)

/-! Forms (R59, R125, R126, R128) -/

def formAdd (f g : Form) : Form := mkForm (f.c0 + g.c0) (f.c1 + g.c1)
/-- The scaling table (R125). -/
def formMul (f g : Form) : Option Form :=
  match f.cls, g.cls with
  | _, .u => some (mkForm (f.c0 * g.c0) (f.c1 * g.c0))
  | .u, _ => some (mkForm (f.c0 * g.c0) (f.c0 * g.c1))
  | _, _ => none
def affAdd : List Form → Option Form
  | [f, g] => some (formAdd f g)
  | _ => none
def affSub : List Form → Option Form
  | [f, g] => some (mkForm (f.c0 - g.c0) (f.c1 - g.c1))
  | _ => none
def affMul : List Form → Option Form
  | [f, g] => formMul f g
  | _ => none
def affShl : List Form → Option Form
  | [f, g] =>
    let u := g.c0.toNat % 32
    if g.cls = .u then some (mkForm (f.c0 <<< u) (f.c1 <<< u)) else none
  | _ => none
def affMad : List Form → Option Form
  | [f, g, h] => (formMul f g).map fun p => formAdd p h
  | _ => none
def affNeg : List Form → Option Form
  | [f] => some (mkForm (-f.c0) (-f.c1))
  | _ => none
def affNot : List Form → Option Form
  | [f] => some (mkForm (-f.c0 - 1#32) (-f.c1))
  | _ => none
def noAff : List Form → Option Form := fun _ => none

/-! Shared shapes -/

/-- What a source asks of check 6. -/
def srcNeed (ty : Ty) : Src → List Need
  | .op o => [srcT ty o]
  | .imm _ => []

/-- Words of a type (R9). -/
def tyWords (ty : Ty) : Nat := if ty.wide then 2 else 1

/-- A function of two, of one or of three sources as a function of their list. -/
def on2 (f : BitVec 64 → BitVec 64 → BitVec 64) : List (BitVec 64) → BitVec 64
  | [a, b] => f a b
  | _ => 0#64
def on1 (f : BitVec 64 → BitVec 64) : List (BitVec 64) → BitVec 64
  | [a] => f a
  | _ => 0#64
def on3 (f : BitVec 64 → BitVec 64 → BitVec 64 → BitVec 64) : List (BitVec 64) → BitVec 64
  | [a, b, c] => f a b c
  | _ => 0#64

/-- An integer instruction of any number of sources of one type (R120-R122, R130). -/
def State.intOp (s : State) (k : Ctl) (ty : Ty) (d : Opnd) (xs : List Src)
    (f : List (BitVec 64) → BitVec 64) (aff : List Form → Option Form) : Host.Outcome State Fault Refusal :=
  s.valueOp k (dstT ty d :: xs.flatMap (srcNeed ty)) d (tyWords ty) 1 2
    (fun i p => f (i.vals ty.wide xs p))
    (fun i r => i.affineCell ty.wide xs f (tyWords ty) aff r)
    (fun i r => i.allU ty.wide xs r)

/-- Two sources. -/
def State.binOp (s : State) (k : Ctl) (ty : Ty) (d a : Opnd) (b : Src)
    (f : BitVec 64 → BitVec 64 → BitVec 64) (aff : List Form → Option Form) : Host.Outcome State Fault Refusal :=
  s.intOp k ty d [.op a, b] (on2 f) aff

/-- One source. -/
def State.unOp (s : State) (k : Ctl) (ty : Ty) (d a : Opnd) (f : BitVec 64 → BitVec 64)
    (aff : List Form → Option Form) : Host.Outcome State Fault Refusal :=
  s.intOp k ty d [.op a] (on1 f) aff

/-- A count of a source: a 32-bit result even on a 64-bit type (R130). -/
def State.countOp (s : State) (k : Ctl) (ty : Ty) (d a : Opnd) (f : BitVec 64 → BitVec 64) :
    Host.Outcome State Fault Refusal :=
  let xs : List Src := [.op a]
  s.valueOp k [dstVS d, srcT ty a] d 1 1 2
    (fun i p => f (i.g.src ty.wide (.op a) p))
    (fun i r => i.generalCell ty.wide xs (on1 f) 1 r)
    (fun i r => i.allU ty.wide xs r)

/-! The instructions -/

/-- `add` (R131). -/
def execAdd (k : Ctl) (ty : Ty) (d a b : Opnd) (s : State) : Host.Outcome State Fault Refusal :=
  s.binOp k ty d a (.op b) (valAdd ty) affAdd

/-- I form of `add` (R35, R130). -/
def execAddI (k : Ctl) (ty : Ty) (d a : Opnd) (imm : BitVec 36) (s : State) : Host.Outcome State Fault Refusal :=
  s.binOp k ty d a (immSrc ty imm) (valAdd ty) affAdd

/-- `sub` (R131). -/
def execSub (k : Ctl) (ty : Ty) (d a b : Opnd) (s : State) : Host.Outcome State Fault Refusal :=
  s.binOp k ty d a (.op b) (valSub ty) affSub

/-- I form of `sub` (R35, R130). -/
def execSubI (k : Ctl) (ty : Ty) (d a : Opnd) (imm : BitVec 36) (s : State) : Host.Outcome State Fault Refusal :=
  s.binOp k ty d a (immSrc ty imm) (valSub ty) affSub

/-- `mul` (R131). -/
def execMul (k : Ctl) (ty : Ty) (d a b : Opnd) (s : State) : Host.Outcome State Fault Refusal :=
  s.binOp k ty d a (.op b) (valMul ty) affMul

/-- I form of `mul` (R35, R130). -/
def execMulI (k : Ctl) (ty : Ty) (d a : Opnd) (imm : BitVec 36) (s : State) : Host.Outcome State Fault Refusal :=
  s.binOp k ty d a (immSrc ty imm) (valMul ty) affMul

/-- `mulhi` (R131). -/
def execMulhi (k : Ctl) (ty : Ty) (d a b : Opnd) (s : State) : Host.Outcome State Fault Refusal :=
  s.binOp k ty d a (.op b) (valMulhi ty) noAff

/-- I form of `mulhi` (R35, R130). -/
def execMulhiI (k : Ctl) (ty : Ty) (d a : Opnd) (imm : BitVec 36) (s : State) : Host.Outcome State Fault Refusal :=
  s.binOp k ty d a (immSrc ty imm) (valMulhi ty) noAff

/-- `div` (R131, R132). -/
def execDiv (k : Ctl) (ty : Ty) (d a b : Opnd) (s : State) : Host.Outcome State Fault Refusal :=
  s.binOp k ty d a (.op b) (valDiv ty) noAff

/-- I form of `div` (R35, R130). -/
def execDivI (k : Ctl) (ty : Ty) (d a : Opnd) (imm : BitVec 36) (s : State) : Host.Outcome State Fault Refusal :=
  s.binOp k ty d a (immSrc ty imm) (valDiv ty) noAff

/-- `rem` (R131, R132). -/
def execRem (k : Ctl) (ty : Ty) (d a b : Opnd) (s : State) : Host.Outcome State Fault Refusal :=
  s.binOp k ty d a (.op b) (valRem ty) noAff

/-- I form of `rem` (R35, R130). -/
def execRemI (k : Ctl) (ty : Ty) (d a : Opnd) (imm : BitVec 36) (s : State) : Host.Outcome State Fault Refusal :=
  s.binOp k ty d a (immSrc ty imm) (valRem ty) noAff

/-- `min` (R131). -/
def execMin (k : Ctl) (ty : Ty) (d a b : Opnd) (s : State) : Host.Outcome State Fault Refusal :=
  s.binOp k ty d a (.op b) (valMin ty) noAff

/-- I form of `min` (R35, R130). -/
def execMinI (k : Ctl) (ty : Ty) (d a : Opnd) (imm : BitVec 36) (s : State) : Host.Outcome State Fault Refusal :=
  s.binOp k ty d a (immSrc ty imm) (valMin ty) noAff

/-- `max` (R131). -/
def execMax (k : Ctl) (ty : Ty) (d a b : Opnd) (s : State) : Host.Outcome State Fault Refusal :=
  s.binOp k ty d a (.op b) (valMax ty) noAff

/-- I form of `max` (R35, R130). -/
def execMaxI (k : Ctl) (ty : Ty) (d a : Opnd) (imm : BitVec 36) (s : State) : Host.Outcome State Fault Refusal :=
  s.binOp k ty d a (immSrc ty imm) (valMax ty) noAff

/-- `shl` (R126, R131). -/
def execShl (k : Ctl) (ty : Ty) (d a b : Opnd) (s : State) : Host.Outcome State Fault Refusal :=
  s.binOp k ty d a (.op b) (valShl ty) affShl

/-- I form of `shl` (R35, R130). -/
def execShlI (k : Ctl) (ty : Ty) (d a : Opnd) (imm : BitVec 36) (s : State) : Host.Outcome State Fault Refusal :=
  s.binOp k ty d a (immSrc ty imm) (valShl ty) affShl

/-- `shr` (R131). -/
def execShr (k : Ctl) (ty : Ty) (d a b : Opnd) (s : State) : Host.Outcome State Fault Refusal :=
  s.binOp k ty d a (.op b) (valShr ty) noAff

/-- I form of `shr` (R35, R130). -/
def execShrI (k : Ctl) (ty : Ty) (d a : Opnd) (imm : BitVec 36) (s : State) : Host.Outcome State Fault Refusal :=
  s.binOp k ty d a (immSrc ty imm) (valShr ty) noAff

/-- `sar` (R131). -/
def execSar (k : Ctl) (ty : Ty) (d a b : Opnd) (s : State) : Host.Outcome State Fault Refusal :=
  s.binOp k ty d a (.op b) (valSar ty) noAff

/-- I form of `sar` (R35, R130). -/
def execSarI (k : Ctl) (ty : Ty) (d a : Opnd) (imm : BitVec 36) (s : State) : Host.Outcome State Fault Refusal :=
  s.binOp k ty d a (immSrc ty imm) (valSar ty) noAff

/-- `and` (R131). -/
def execAndb (k : Ctl) (ty : Ty) (d a b : Opnd) (s : State) : Host.Outcome State Fault Refusal :=
  s.binOp k ty d a (.op b) (valAndb ty) noAff

/-- I form of `and` (R35, R130). -/
def execAndbI (k : Ctl) (ty : Ty) (d a : Opnd) (imm : BitVec 36) (s : State) : Host.Outcome State Fault Refusal :=
  s.binOp k ty d a (immSrc ty imm) (valAndb ty) noAff

/-- `or` (R131). -/
def execOrb (k : Ctl) (ty : Ty) (d a b : Opnd) (s : State) : Host.Outcome State Fault Refusal :=
  s.binOp k ty d a (.op b) (valOrb ty) noAff

/-- I form of `or` (R35, R130). -/
def execOrbI (k : Ctl) (ty : Ty) (d a : Opnd) (imm : BitVec 36) (s : State) : Host.Outcome State Fault Refusal :=
  s.binOp k ty d a (immSrc ty imm) (valOrb ty) noAff

/-- `xor` (R131). -/
def execXorb (k : Ctl) (ty : Ty) (d a b : Opnd) (s : State) : Host.Outcome State Fault Refusal :=
  s.binOp k ty d a (.op b) (valXorb ty) noAff

/-- I form of `xor` (R35, R130). -/
def execXorbI (k : Ctl) (ty : Ty) (d a : Opnd) (imm : BitVec 36) (s : State) : Host.Outcome State Fault Refusal :=
  s.binOp k ty d a (immSrc ty imm) (valXorb ty) noAff

/-- `andn` (R131). -/
def execAndn (k : Ctl) (ty : Ty) (d a b : Opnd) (s : State) : Host.Outcome State Fault Refusal :=
  s.binOp k ty d a (.op b) (valAndn ty) noAff

/-- I form of `andn` (R35, R130). -/
def execAndnI (k : Ctl) (ty : Ty) (d a : Opnd) (imm : BitVec 36) (s : State) : Host.Outcome State Fault Refusal :=
  s.binOp k ty d a (immSrc ty imm) (valAndn ty) noAff

/-- `neg` (R128, R131). -/
def execNeg (k : Ctl) (ty : Ty) (d a : Opnd) (s : State) : Host.Outcome State Fault Refusal :=
  s.unOp k ty d a (valNeg ty) affNeg

/-- `abs` (R128, R131). -/
def execAbs (k : Ctl) (ty : Ty) (d a : Opnd) (s : State) : Host.Outcome State Fault Refusal :=
  s.unOp k ty d a (valAbs ty) noAff

/-- `not` (R128, R131). -/
def execNotb (k : Ctl) (ty : Ty) (d a : Opnd) (s : State) : Host.Outcome State Fault Refusal :=
  s.unOp k ty d a (valNotb ty) affNot

/-- `brev` (R128, R131). -/
def execBrev (k : Ctl) (ty : Ty) (d a : Opnd) (s : State) : Host.Outcome State Fault Refusal :=
  s.unOp k ty d a (valBrev ty) noAff

/-- `mov` (R128, R131): a copy; `mov.b64` copies both forms (R122). -/
def execMov (k : Ctl) (ty : Ty) (d a : Opnd) (s : State) : Host.Outcome State Fault Refusal :=
  let xs : List Src := [.op a]
  s.valueOp k [dstT ty d, srcT ty a] d (tyWords ty) 1 2
    (fun i p => i.g.src ty.wide (.op a) p)
    (fun i r =>
      match i.worst ty.wide xs r with
      | .d => .skip
      | .l => .x
      | _ => .form ((List.range (tyWords ty)).map (i.g.srcForm r (.op a))))
    (fun i r => i.allU ty.wide xs r)

/-- `clz` (R130, R131). -/
def execClz (k : Ctl) (ty : Ty) (d a : Opnd) (s : State) : Host.Outcome State Fault Refusal :=
  s.countOp k ty d a (valClz ty)

/-- `popc` (R130, R131). -/
def execPopc (k : Ctl) (ty : Ty) (d a : Opnd) (s : State) : Host.Outcome State Fault Refusal :=
  s.countOp k ty d a (valPopc ty)

/-- `mad` (R129, R131). -/
def execMad (k : Ctl) (ty : Ty) (d a b c : Opnd) (s : State) : Host.Outcome State Fault Refusal :=
  s.intOp k ty d [.op a, .op b, .op c] (on3 fun x y z => x * y + z) affMad

/-- `bfx` (R132). -/
def execBfx (k : Ctl) (ty : Ty) (d a : Opnd) (pos : BitVec 6) (len : BitVec 7) (s : State) :
    Host.Outcome State Fault Refusal :=
  s.unOp k ty d a (valBfx ty pos.toNat len.toNat) noAff

/-- `bfi` (R132). -/
def execBfi (k : Ctl) (ty : Ty) (d a b : Opnd) (pos : BitVec 6) (len : BitVec 7) (s : State) :
    Host.Outcome State Fault Refusal :=
  s.binOp k ty d a (.op b) (valBfi ty pos.toNat len.toNat) noAff

/-- `sel` (R129, R131): a where pC is true, else b; a range record copies the chosen source's form
when pC has one value at all its positions. -/
def execSel (k : Ctl) (ty : Ty) (d a b c : Opnd) (s : State) : Host.Outcome State Fault Refusal :=
  let chosen (i : Iss) (p : Nat) : Bool := (i.g.pmask (predNum c)).getLsbD p
  let pick (i : Iss) (p : Nat) : Src := if chosen i p then .op a else .op b
  s.valueOp k [dstT ty d, srcT ty a, srcT ty b, predS c] d (tyWords ty) 1 2
    (fun i p => i.g.src ty.wide (pick i p) p)
    (fun i r =>
      if i.worst ty.wide [.op a, .op b] r == .d then .skip
      else if (r.positions.all fun p => chosen i p == chosen i r.b) && i.g.srcCls ty.wide r (pick i r.b) != .l then
        .form ((List.range (tyWords ty)).map (i.g.srcForm r (pick i r.b)))
      else .x)
    (fun i r => i.allU ty.wide [pick i r.b] r)

/-- `cmp` (R133). -/
def execCmp (k : Ctl) (cc : Cc) (ty : Ty) (d a b : Opnd) (s : State) : Host.Outcome State Fault Refusal :=
  s.predOp k [predN d, srcT ty a, srcT ty b] (predNum d) 1 2
    (fun i p => cmpBit cc ty (i.g.src ty.wide (.op a) p) (i.g.src ty.wide (.op b) p))

/-- I form of `cmp` (R35, R133). -/
def execCmpI (k : Ctl) (cc : Cc) (ty : Ty) (d a : Opnd) (imm : BitVec 36) (s : State) :
    Host.Outcome State Fault Refusal :=
  s.predOp k [predN d, srcT ty a] (predNum d) 1 2
    (fun i p => cmpBit cc ty (i.g.src ty.wide (.op a) p) (i.g.src ty.wide (immSrc ty imm) p))

/-- `movi` (R134). -/
def execMovi (k : Ctl) (ty : Ty) (d : Opnd) (imm : BitVec 36) (s : State) : Host.Outcome State Fault Refusal :=
  s.intOp k ty d [immSrc ty imm] (on1 id) noAff

/-- The value of `addpc` (R135): in bounded mode bits [63:56] are those of the PC. -/
def addpcValue (i : Iss) (disp : BitVec 20) : BitVec 64 :=
  let x := i.pc + (disp.signExtend 64 <<< 12)
  if i.ctx.bounded then (i.pc.extractLsb' 56 8) ++ (x.extractLsb' 0 56) else x

/-- `addpc` (R135). -/
def execAddpc (k : Ctl) (d : Opnd) (disp : BitVec 20) (s : State) : Host.Outcome State Fault Refusal :=
  s.valueOp k [dstVS d 2] d 2 1 2 (fun i _ => addpcValue i disp)
    (fun i _ => .form (uniformForms (addpcValue i disp) 2)) (fun _ _ => true)

/-! Predicate instructions (R142) -/

/-- A predicate source at a position, negated or not. -/
def Iss.pbit (i : Iss) (o : Opnd) (neg : Bool) (p : Nat) : Bool := (i.g.pmask (predNum o)).getLsbD p != neg

/-- `pand` (R142). -/
def execPand (k : Ctl) (d a b : Opnd) (na nb : Bool) (s : State) : Host.Outcome State Fault Refusal :=
  s.predOp k [predN d, predS a, predS b] (predNum d) 1 2 (fun i p => i.pbit a na p && i.pbit b nb p)

/-- `por` (R142). -/
def execPor (k : Ctl) (d a b : Opnd) (na nb : Bool) (s : State) : Host.Outcome State Fault Refusal :=
  s.predOp k [predN d, predS a, predS b] (predNum d) 1 2 (fun i p => i.pbit a na p || i.pbit b nb p)

/-- `pxor` (R142). -/
def execPxor (k : Ctl) (d a b : Opnd) (na nb : Bool) (s : State) : Host.Outcome State Fault Refusal :=
  s.predOp k [predN d, predS a, predS b] (predNum d) 1 2 (fun i p => i.pbit a na p != i.pbit b nb p)

/-- `pnot` (R142). -/
def execPnot (k : Ctl) (d a : Opnd) (s : State) : Host.Outcome State Fault Refusal :=
  s.predOp k [predN d, predS a] (predNum d) 1 2 (fun i p => i.pbit a true p)

/-- A predicate name or 0xFF. -/
def isPred (o : Opnd) : Bool := opKind o == .p || opKind o == .zr

/-- `pmov` (R142): between predicates, from a register (true where nonzero), or to a register (1 or 0,
case F). A pair of registers is no form of it; 0xFF stands for a predicate where both forms would admit it. -/
def execPmov (k : Ctl) (d a : Opnd) (s : State) : Host.Outcome State Fault Refusal :=
  match isPred d, isPred a with
  | true, true => s.predOp k [predN d, predS a] (predNum d) 1 2 (fun i p => i.pbit a false p)
  | true, false => s.predOp k [predN d, src1 a] (predNum d) 1 2 (fun i p => i.g.word a p != 0#32)
  | false, _ =>
    s.valueOp k [dstVS d, predS a] d 1 1 2 (fun i p => if i.pbit a false p then 1#64 else 0#64)
      (fun _ _ => .fit []) (fun _ _ => false)

end Sys2Proof.Machine
end

