-- ==== Sys2Proof/Machine/DataMove.lean ====
section
/-!
DEFINITION. Loads and stores (R225-R231): `ld`, `st`, `ldp`, `stp`. On-chip positions complete at their
aperture's latency; global positions enter the operand log, and land or are performed by events.
-/

namespace Sys2Proof.Machine

/-! Addresses (R226) -/

/-- Bytes of a memory type (R229). -/
def memBytes : Ty → Nat
  | .i8 | .e4m3 | .e5m2 => 1
  | .f16 | .bf16 => 2
  | .i64 | .n64 | .b64 => 8
  | _ => 4

/-- The address of a position (R226). -/
def Iss.addr (i : Iss) (a : Opnd) (off : BitVec 12) (k : Nat) : Addr := i.g.pair a k + off.signExtend 64

/-- The guarded positions of the run in age order. -/
def Iss.onAge (i : Iss) : List Nat := i.run.flatMap i.onIn

/-- The guarded positions with their addresses, in age order. -/
def Iss.withAddr (i : Iss) (addr : Nat → Addr) : List (Nat × Addr) := i.onAge.map fun k => (k, addr k)

/-- An address lies in the global window. -/
def Iss.isGlobal (i : Iss) (va : Addr) : Bool := (i.aper va).1 == .global

/-- The latency at which an on-chip access completes; 0 for a global one (R112, R227). -/
def Iss.accLat (i : Iss) (va : Addr) : Nat := if i.isGlobal va then 0 else aperLat (i.aper va).1

/-- The place of an on-chip address at a position. -/
def Iss.placeOf (i : Iss) (va : Addr) (k : Nat) : Place := i.place (i.aper va).1 (i.aper va).2 k

/-- The latency at which one record's on-chip accesses are all complete; none where it reaches the
global window. A record whose guard is false everywhere takes 6. -/
def Iss.recLat (i : Iss) (addr : Nat → Addr) (r : Rec) : Option Nat :=
  let ls := (i.onIn r).map fun k => i.accLat (addr k)
  if ls.contains 0 then none else some (Nat.max 6 (maxNat ls))

/-- Records of the run that complete at a latency. -/
def Iss.countLat (i : Iss) (addr : Nat → Addr) (l : Nat) : Nat :=
  (i.run.filter fun r => i.recLat addr r == some l).length

/-- Records of the run that reach the global window: they complete with their operand-log slot. -/
def Iss.globalRecs (i : Iss) (addr : Nat → Addr) : Nat :=
  (i.run.filter fun r => i.recLat addr r == none).length

/-- The latencies of the on-chip apertures. -/
def chipLats : List Nat := [6, 8, 10]

/-- Watchpoint checks of some accesses: kinds by position, in position order (R369). -/
def watchList (kinds : Addr → List Nat) (size : Nat) (as : List (Nat × Addr)) : List (Nat × Nat × Addr × Nat) :=
  (sortBy (fun a : Nat × Addr => a.1) as).flatMap fun a => (kinds a.2).map fun kd => (a.1, kd, a.2, size)

/-- A slot and byte-count room for a global access; issue holds without them (R218, R228). -/
def Iss.slotRoom (i : Iss) (needs : Bool) (cq bytes : Nat) : Except Stop Nat :=
  if !needs then .ok 0
  else
    match i.g.freeSlot with
    | some n => if i.g.countRoom cq bytes then .ok n else .error .hold
    | none => .error .hold

/-! Loads (R229-R231) -/

/-- The elements of a load: a record with a U address is read once where it is a range record (R226, R230). -/
def Iss.loadElems (i : Iss) (addr : Nat → Addr) (cls : Rec → Cls) (size : Nat) : List Elem :=
  i.inOrder.flatMap fun r =>
    let ks := (i.onIn r).filter fun k => i.isGlobal (addr k)
    let u := cls r == .u
    match ks with
    | [] => []
    | k :: _ =>
      if !r.lane && u then [mkElem ks (addr k) size 0#128 true]
      else ks.map fun k => mkElem [k] (addr k) size 0#128 u

/-- Every guarded position of a record reaches the stack aperture. -/
def Iss.stackOnly (i : Iss) (addr : Nat → Addr) (r : Rec) : Bool := (i.onIn r).all fun k => (i.aper (addr k)).1 == .stack

/-- The cell of a load in a range record (R226). -/
def Iss.loadCell (i : Iss) (addr : Nat → Addr) (cls : Cls) (words : Nat) (hasRes : Bool) (val : Nat → Nat → Word)
    (r : Rec) : Cell :=
  if !hasRes || (i.onIn r).isEmpty then .later
  else if i.stackOnly addr r then .fit []
  else
    match cls with
    | .u =>
      let k := (i.onIn r).headD r.b
      if i.isGlobal (addr k) then .later else .form (wordForms (val k) words)
    | _ => .x

/-- A register takes the result: an instruction without one never expands a record, whatever its latch takes (R226). -/
def Iss.hasRes (i : Iss) (d : Opnd) : Bool := i.slotDst d != .none

/-- A queue that an operand names. -/
def queueOf : Opnd → Option Nat
  | .dq n => some n.val
  | _ => none

/-- The producer end of a queue admits the group (R219). -/
def Iss.prodCheck (i : Iss) (n : Nat) : Except Stop Unit :=
  if ((i.queue n).map fun q => endOk q.prod i.g.g).getD false then .ok () else .error (badOperand 4)

/-- The consumer end of a queue admits the group (R219). -/
def Iss.consCheck (i : Iss) (n : Nat) : Except Stop Unit :=
  if ((i.queue n).map fun q => endOk q.cons i.g.g).getD false then .ok () else .error (badOperand 4)

/-- A check that is made only where a queue is used by an acting run. -/
def Iss.onQueue {α : Type} (i : Iss) (q : Option Nat) (none_ : α) (f : Nat → Except Stop α) : Except Stop α :=
  match q with
  | some n => if i.acts then f n else .ok none_
  | none => .ok none_

/-- What a load reads on chip at a position (R184, R230, R301). -/
def State.chipLoad (s : State) (i : Iss) (addr : Nat → Addr) (size k j : Nat) : Word :=
  numWord (s.readPlace i.g (i.placeOf (addr k) k) size (s.ord + 1)) j

/-- What the passes of a load beyond those of the present ck read in their own (R301): each on-chip position of a lane
record, or the place that a range record shares. The stack is its positions' own, and no other agent writes it. -/
def Iss.laterReads (i : Iss) (addr : Nat → Addr) (sch : List (List Rec × Nat)) (d : Opnd) (size ord : Nat) : List Reread :=
  (sch.filter fun u => decide (i.now < u.2)).flatMap fun u => u.1.flatMap fun r =>
    let ks := (i.onIn r).filter fun k => !i.isGlobal (addr k)
    if i.stackOnly addr r then []
    else ks.head?.toList.map fun k =>
      { ck := u.2, ord := ord, ps := ks, place := i.placeOf (addr k) k, size := size, dst := i.slotDst d, hold := i.k.hold.toNat }

/-- Bits [55:0] of an address. -/
def va56 (a : Addr) : Nat := a.toNat % 2 ^ 56

/-- An element has still to be performed. -/
def Elem.open (x : Elem) : Bool := x.st == .pending || x.st == .faulted

/-- Slots of a group that are no engine commands and that were issued before a stamp. -/
def Group.before (g : Group) (ord : Nat) : List Slot := g.oplog.filter fun l => decide (l.ord < ord) && !l.isCommand

/-- The core of a remote load, whose elements are named by offsets in its array. -/
def Slot.remote (l : Slot) : Option Nat :=
  match l.op with
  | .remld c => some c
  | _ => none

/-- The place that an element of a `gather` or a `remld` reads on chip; none for a global one. -/
def Iss.readsAt (i : Iss) (l : Slot) (x : Elem) : Option Place :=
  match l.remote with
  | some c => some ⟨c, .spad, va56 x.va⟩
  | none => if i.isGlobal x.va then none else some (i.placeOf x.va (x.ps.headD 0))

/-- An earlier `gather` or `remld` of the group still reads some places on chip: a later access of the group to them waits
(R299, R307). -/
def Iss.gatherOpen (i : Iss) (ord : Nat) (ps : List Place) : Bool :=
  (i.g.before ord).any fun l => !l.isStore && l.elems.any fun x =>
    x.open && ((i.readsAt l x).map fun p => (upto p.off x.len).any fun o => ps.contains { p with off := o }).getD false

/-- The places of some on-chip accesses. -/
def Iss.placesOf (i : Iss) (as : List (Nat × Addr)) (size : Nat) : List Place :=
  (as.filter fun a => !i.isGlobal a.2).flatMap fun a =>
    let p := i.placeOf a.2 a.1
    (upto p.off size).map fun o => { p with off := o }

/-- An on-chip read waits for the read parts of earlier `atoms` (R305, R308), and for an earlier `gather` or `remld` that
reads its bytes (R299, R307). -/
def Iss.readHeld (i : Iss) (as : List (Nat × Addr)) (size : Nat) : Bool :=
  (as.any fun a => !i.isGlobal a.2) && (i.g.storeq.any StoreEnt.isAtom ||
    ((i.g.oplog.any fun l => !l.isStore && !l.isCommand) &&
      i.gatherOpen (maxNat (i.g.oplog.map Slot.ord) + 1) (i.placesOf as size)))

/-- The on-chip positions of records that also reach the global window: their bytes count as well (R218, R230). -/
def Iss.mixedChip (i : Iss) (addr : Nat → Addr) : List Nat :=
  i.run.flatMap fun r => if i.recLat addr r == none then (i.onIn r).filter fun k => !i.isGlobal (addr k) else []

/-- Byte-count falls of such positions at one latency. -/
def Iss.chipCount (i : Iss) (addr : Nat → Addr) (cq size l : Nat) : List RegWrite :=
  let n := ((i.mixedChip addr).filter fun k => i.accLat (addr k) == l).length
  if n = 0 then [] else [.count cq (n * size)]

/-- The on-chip latency at which a record's result is written, 0 for a global one. -/
def Iss.resLat (i : Iss) (addr : Nat → Addr) (r : Rec) : Nat := maxNat ((i.onIn r).map fun k => i.accLat (addr k))

/-- A record's write of an s destination at a latency is discarded: a younger record of the run has written the register
by then (R90, R113). -/
def Iss.overtaken (i : Iss) (d : Opnd) (addr : Nat → Addr) (l : Nat) (r : Rec) : Bool :=
  isSDst d && ((i.inOrder.dropWhile (· != r)).drop 1).any fun q =>
    !(i.onIn q).isEmpty && i.resLat addr q != 0 && decide (i.resLat addr q < l)

/-- Where the global part of a load's result goes: not to an s register that a younger on-chip record of the run has
written (R90, R113). -/
def Iss.loadDst (i : Iss) (d : Opnd) (addr : Nat → Addr) : Dst :=
  if isSDst d && ((i.inOrder.filter fun r => !(i.onIn r).isEmpty).getLast?.map fun r => i.resLat addr r != 0).getD false then .none
  else i.slotDst d

/-- Results of a load at one on-chip latency: a register's and a latch's, or the latch's alone where no register takes
the result or a younger record has written it. -/
def Iss.loadRes (i : Iss) (d : Opnd) (words : Nat) (val : Nat → Nat → Word) (addr : Nat → Addr)
    (uni : Rec → Bool) (plan : Rec → Plan) (l : Nat) : List RegWrite :=
  i.inOrder.flatMap fun r =>
    let ps := (i.onIn r).filter fun k => i.accLat (addr k) == l
    if i.hasRes d && !i.overtaken d addr l r then i.recWrites d words val (uni r) (plan r) r ps
    else i.latchWrites words val ps (if uni r then wordForms (val (ps.headD 0)) words else [])

/-- The bank words of a position's access on a pair and an offset. -/
def memWords (a : Opnd) (off : BitVec 12) (size : Nat) (j : Iss) (k : Nat) : List (Nat × Nat × Nat) :=
  j.bankWords k (j.addr a off k) size

/-- `ld` and `ldp` (R225-R231): `size` bytes into `words` registers; `queue` where DST may name a queue. -/
def State.loadOp (s : State) (k : Ctl) (ins : Instr) (d a : Opnd) (m : Mem) (size words : Nat) (queue : Bool) :
    Host.Outcome State Fault Refusal :=
  s.issue k fun i => do
    let dst : Need := ⟨d, if queue then [.v, .s, .dq, .zr] else [.v, .s, .zr], words, 0⟩
    i.check [dst, pairN a]
    let q := if k.nwb then none else queueOf d
    i.onQueue q () i.prodCheck
    let regs := readRegs [pairN a]
    let rounds := i.rounds (memWords a m.off size)
    let sch := i.sched i.g regs rounds
    let t := i.timedBy sch
    let addr (p : Nat) : Addr := (t p).addr a m.off p
    let as := i.withAddr addr
    i.checkAccess permR ([.spad, .partner, .stack, .acc] ++ (if (queueOf d).isSome then [] else [.global])) size as
    let val (p j : Nat) : Word := s.chipLoad i addr size p j
    let cls := classAt t true (.op a)
    let cellIn (r : Rec) : Cell := cellAt (fun _ => i.loadCell addr (cls r) words (i.hasRes d) val r) (t r.b) r
    let uni (r : Rec) : Bool := cls r == .u && !i.stackOnly addr r
    let v ← i.values d words val cellIn uni
    s.watchCheck i (watchList (fun _ => [watchRead]) size as)
    i.onQueue q () i.pushCheck
    let els := i.loadElems addr cls size
    let cq := m.cq.toNat
    let bytes := (els.length + (i.mixedChip addr).length) * size
    let num ← i.slotRoom (!els.isEmpty) cq bytes
    if i.readHeld as size then .error .hold
    else
      let slot := i.newSlot num (s.ord + 1) ins .load els size (some cq) (i.globalRecs addr) (i.loadDst d addr) words m.qord
      let g0 := { v.g with rereads := v.g.rereads ++ i.laterReads addr sch d size (s.ord + 1) }
      let g := if els.isEmpty then g0 else (g0.countUp cq bytes).addSlot slot
      let extra := extraOf rounds sch
      let top := maxNat (as.map fun x => i.accLat x.2)
      let push (l : Nat) : List RegWrite :=
        match q with
        | some n => if i.acts && l = top then [.push (i.queueIx n) (entryWords (as.map fun x => (x.1, val x.1 0)))] else []
        | none => []
      let plan (r : Rec) : Plan := i.plan d words val r (cellIn r)
      let res := chipLats.map fun l =>
        (⟨l, i.countLat addr l, i.loadRes d words val addr uni plan l ++ i.chipCount addr cq size l ++ push l⟩ : Res)
      let s1 := if q.isSome && i.acts then s.claim i.ti (i.queueIx (q.getD 0)) else s
      .ok ((s1.countRounds i.ci extra).finish i i.g g regs extra (i.globalRecs addr) res i.advance)

/-- `ld` (R229-R231). -/
def execLd (k : Ctl) (ty : Ty) (d a : Opnd) (m : Mem) (s : State) : Host.Outcome State Fault Refusal :=
  s.loadOp k (.ld k ty d a m) d a m (memBytes ty) (tyWords ty) (!ty.wide)

/-- `ldp` (R229): sixteen bytes into four registers. -/
def execLdp (k : Ctl) (d a : Opnd) (m : Mem) (s : State) : Host.Outcome State Fault Refusal :=
  s.loadOp k (.ldp k d a m) d a m 16 4 false

/-! Stores (R229-R231) -/

/-- One write of a store: position, address and data. -/
structure StoreW where
  k : Nat
  va : Addr
  data : Nat
  deriving DecidableEq, Repr

/-- The data of a store at a position: the low words of the source, or the queue entry's word. -/
def Iss.storeData (i : Iss) (b : Opnd) (words : Nat) (entry : List Word) (k : Nat) : Nat :=
  match b with
  | .dq _ => (entry.getD k 0#32).toNat
  | _ => ((List.range words).map fun j => (i.g.word2 b k j).toNat * 2 ^ (32 * j)).sum

/-- The writes of a store in the order in which they are performed (R230): on a U address that is no
stack address, the value of the highest guarded position alone. -/
def Iss.storeWrites (i : Iss) (addr : Nat → Addr) (cls : Rec → Cls) (data : Nat → Nat) : List StoreW :=
  i.inOrder.flatMap fun r =>
    let ks := i.onIn r
    let one (k : Nat) : StoreW := ⟨k, addr k, data k⟩
    if !r.lane && cls r == .u && !i.stackOnly addr r then (ks.getLast?.map one).toList
    else ks.map one

/-- The bytes that an on-chip write leaves (R8). -/
def Iss.writeBytes (i : Iss) (size : Nat) (w : StoreW) : List (Place × Byte) :=
  let p := i.placeOf w.va w.k
  (upto p.off size).map (fun o => { p with off := o }) |>.zip (leBytes size w.data)

/-- On-chip writes gathered into store-queue entries of equal latency: latency and writes. -/
def groupLat (lat : StoreW → Nat) : List StoreW → List (Nat × List StoreW)
  | [] => []
  | w :: rest =>
    match groupLat lat rest with
    | (l, ws) :: more => if lat w = l then (l, w :: ws) :: more else (lat w, [w]) :: (l, ws) :: more
    | [] => [(lat w, [w])]

/-- Aperture kinds that a store's watchpoint check has: an accumulator store is also an accumulator
write (R369). -/
def Iss.storeKinds (i : Iss) (va : Addr) : List Nat :=
  if (i.aper va).1 == .acc then [watchWrite, watchAcc] else [watchWrite]

/-- The data source of a store: `st` alone admits a bc register (R225), a narrow type a queue (R231). -/
def storeSrc (b : Opnd) (words : Nat) (queue : Bool) : Need :=
  ⟨b, [.v, .s, .hl, .zr] ++ (if words = 4 then [] else [.bc]) ++ (if queue then [.dq] else []), words, words⟩

/-- `st` and `stp` (R225-R231). -/
def State.storeOp (s : State) (k : Ctl) (ins : Instr) (a b : Opnd) (m : Mem) (size words : Nat) (queue : Bool) :
    Host.Outcome State Fault Refusal :=
  s.issue k fun i => do
    let ns := [pairN a, storeSrc b words queue]
    i.check ns
    let q := queueOf b
    i.onQueue q () i.consCheck
    let regs := readRegs ns
    let rounds := i.rounds (memWords a m.off size)
    let sch := i.sched i.g regs rounds
    let t := i.timedBy sch
    let addr (p : Nat) : Addr := (t p).addr a m.off p
    let as := i.withAddr addr
    i.checkAccess permW [.spad, .partner, .stack, .acc, .global] size as
    s.watchCheck i (watchList i.storeKinds size as)
    let entry ← i.onQueue q [] i.popCheck
    let ws := i.storeWrites addr (classAt t true (.op a)) fun p => (t p).storeData b words entry p
    let chip := ws.filter fun w => !i.isGlobal w.va
    let glob := ws.filter fun w => i.isGlobal w.va
    let mixed := i.mixedChip addr
    let cq := m.cq.toNat
    let bytes := (glob.length + mixed.length) * size
    let num ← i.slotRoom (!glob.isEmpty) cq bytes
    let extra := extraOf rounds sch
    let last := i.now + i.cost i.g regs extra - 1
    let ord := s.ord + 1
    let ents := (groupLat (fun w => i.accLat w.va) chip).map fun e =>
      StoreEnt.chip (last + e.1) ord (e.2.flatMap (i.writeBytes size)) cq
        ((e.2.filter fun w => mixed.contains w.k).length * size)
    let els := glob.map fun w => mkElem [w.k] w.va size (BitVec.ofNat 128 w.data)
    let slot := i.newSlot num ord ins .store els size (some cq) (i.globalRecs addr) .none words m.qord
    let g1 := { i.g with storeq := i.g.storeq ++ ents }
    let g := if els.isEmpty then g1 else (g1.countUp cq bytes).addSlot { slot with hold := 0 }
    let res := chipLats.map fun l => (⟨l, i.countLat addr l, []⟩ : Res)
    let s1 := match q with | some n => if i.acts then s.popQueue i.ti (i.queueIx n) else s | none => s
    .ok ((s1.countRounds i.ci extra).finish i i.g g regs extra (i.globalRecs addr) res i.advance)

/-- `st` (R229-R231). -/
def execSt (k : Ctl) (ty : Ty) (a b : Opnd) (m : Mem) (s : State) : Host.Outcome State Fault Refusal :=
  s.storeOp k (.st k ty a b m) a b m (memBytes ty) (tyWords ty) (!ty.wide)

/-- `stp` (R229): sixteen bytes from four registers. -/
def execStp (k : Ctl) (a b : Opnd) (m : Mem) (s : State) : Host.Outcome State Fault Refusal :=
  s.storeOp k (.stp k a b m) a b m 16 4 false

end Sys2Proof.Machine
end

