-- ==== Sys2Proof/Machine/NumFmt.lean ====
section
/-!
DEFINITION. Number formats (R158-R166), rounding (R167-R171), the stochastic generator (R172), exact
arithmetic on values (R178, R190) and correctly rounded square roots. A finite value is a sign and a
nonnegative rational, so nothing is rounded before `roundTo`.
-/

namespace Sys2Proof.Machine

/-! Formats -/

/-- How a format marks special values (R159). -/
inductive Special where
  | ieee | e4m3 | none
  deriving DecidableEq, Repr

/-- A floating-point format: mantissa and exponent bits, bias, special values. -/
structure Fmt where
  m : Nat
  e : Nat
  bias : Nat
  sp : Special
  deriving DecidableEq, Repr

def fmtF32 : Fmt := ⟨23, 8, 127, .ieee⟩
def fmtF16 : Fmt := ⟨10, 5, 15, .ieee⟩
def fmtBf16 : Fmt := ⟨7, 8, 127, .ieee⟩
def fmtE4m3 : Fmt := ⟨3, 4, 7, .e4m3⟩
def fmtE5m2 : Fmt := ⟨2, 5, 15, .ieee⟩
def fmtE3m2 : Fmt := ⟨2, 3, 3, .none⟩
def fmtE2m3 : Fmt := ⟨3, 2, 1, .none⟩

/-- The format of a floating type (R159). -/
def fmtOf : Ty → Fmt
  | .f16 => fmtF16
  | .bf16 => fmtBf16
  | .e4m3 => fmtE4m3
  | .e5m2 => fmtE5m2
  | .e3m2 => fmtE3m2
  | .e2m3 => fmtE2m3
  | _ => fmtF32

/-- A value: NaN, an infinity, or a signed rational n/d. -/
inductive FVal where
  | nan
  | inf (neg : Bool)
  | fin (neg : Bool) (n d : Nat)
  deriving DecidableEq, Repr

/-- m·2^k as a value. -/
def FVal.scaled (neg : Bool) (m : Nat) (k : Int) : FVal :=
  if 0 ≤ k then .fin neg (m * 2 ^ k.toNat) 1 else .fin neg m (2 ^ (-k).toNat)

/-- An integer as a value; zero is +0 (R197). -/
def FVal.ofInt (x : Int) : FVal := .fin (decide (x < 0)) x.natAbs 1

/-- The value of an encoding (R160). -/
def decodeF (f : Fmt) (x : Nat) : FVal :=
  let s := nbit x (f.m + f.e)
  let ex := x / 2 ^ f.m % 2 ^ f.e
  let mn := x % 2 ^ f.m
  let top := ex == 2 ^ f.e - 1
  if top && f.sp == .ieee then (if mn = 0 then .inf s else .nan)
  else if top && f.sp == .e4m3 && mn == 2 ^ f.m - 1 then .nan
  else if ex = 0 then .scaled s mn (1 - f.bias - f.m)
  else .scaled s (2 ^ f.m + mn) (ex - f.bias - f.m)

/-- The canonical NaN of a format; +0 where the format has none (R161, R170). -/
def nanOf (f : Fmt) : Nat :=
  match f.sp with
  | .ieee => (2 ^ f.e - 1) * 2 ^ f.m + 2 ^ (f.m - 1)
  | .e4m3 => 2 ^ (f.e + f.m) - 1
  | .none => 0

/-- The encoding of the largest finite magnitude (R159). -/
def maxOf (f : Fmt) : Nat :=
  match f.sp with
  | .ieee => (2 ^ f.e - 1) * 2 ^ f.m - 1
  | .e4m3 => 2 ^ (f.e + f.m) - 2
  | .none => 2 ^ (f.e + f.m) - 1

/-- A sign bit over a magnitude. -/
def signed (f : Fmt) (neg : Bool) (mag : Nat) : Nat := (if neg then 2 ^ (f.m + f.e) else 0) + mag

/-- Infinity, or the canonical NaN of .e4m3, in the table of R169. -/
def infOf (f : Fmt) (neg : Bool) : Nat :=
  match f.sp with
  | .ieee => signed f neg ((2 ^ f.e - 1) * 2 ^ f.m)
  | .e4m3 => nanOf f
  | .none => signed f neg (maxOf f)

/-- Overflow of a rounding (R169). -/
def overflowOf (f : Fmt) (neg : Bool) (rm : Rm) (sat : Bool) : Nat :=
  let mx := signed f neg (maxOf f)
  if sat then mx
  else
    match rm with
    | .rne | .sr => infOf f neg
    | .rz => mx
    | .ru => if neg then mx else infOf f neg
    | .rd => if neg then infOf f neg else mx

/-! The stochastic generator (R172) -/

/-- One step of the generator: the new state. -/
def srDraw (s : Word) : Word :=
  let t := s >>> 1
  if s.getLsbD 0 then t ^^^ 0x80200003#32 else t

/-! Rounding -/

/-- Whether to round a magnitude up: remainder r over den below one unit, oddness of the lower
neighbour, sign (R168). The generator draws only for a nonzero fraction in SR mode. -/
def roundUp (rm : Rm) (neg odd : Bool) (r den : Nat) (sr : Word) : Bool × Word :=
  match rm with
  | .rne => (decide (den < 2 * r) || (decide (2 * r = den) && odd), sr)
  | .rz => (false, sr)
  | .ru => (r != 0 && !neg, sr)
  | .rd => (r != 0 && neg, sr)
  | .sr =>
    if r = 0 then (false, sr)
    else
      let d := srDraw sr
      (decide (d.toNat < r * 2 ^ 32 / den), d)

/-- ⌊log2 (n/d)⌋ of a positive rational. -/
def floorLog2 (n d : Nat) : Int :=
  let k : Int := (Nat.log2 n : Int) - Nat.log2 d
  let ge : Bool := if 0 ≤ k then decide (d * 2 ^ k.toNat ≤ n) else decide (d ≤ n * 2 ^ (-k).toNat)
  if ge then k else k - 1

/-- The quotient and remainder of (n/d) / 2^k: integer part, remainder, denominator. -/
def divPow (n d : Nat) (k : Int) : Nat × Nat × Nat :=
  if 0 ≤ k then (n / (d * 2 ^ k.toNat), n % (d * 2 ^ k.toNat), d * 2 ^ k.toNat)
  else (n * 2 ^ (-k).toNat / d, n * 2 ^ (-k).toNat % d, d)

/-- `round(x, fmt, rm, sat)` of R168 with the generator's state: the encoding and the new state. -/
def roundTo (f : Fmt) (rm : Rm) (sat : Bool) (sr : Word) (x : FVal) : Nat × Word :=
  match x with
  | .nan => (nanOf f, sr)
  | .inf neg => (overflowOf f neg rm sat, sr)
  | .fin neg n d =>
    if n = 0 then (signed f neg 0, sr)
    else
      let q := max (floorLog2 n d) (1 - (f.bias : Int))
      let (lo, r, den) := divPow n d (q - f.m)
      let (up, sr') := roundUp rm neg (lo % 2 == 1) r den sr
      let code := (q + f.bias - 1).toNat * 2 ^ f.m + lo + (if up then 1 else 0)
      if maxOf f < code then (overflowOf f neg rm sat, sr') else (signed f neg code, sr')

/-- Round to nearest even. -/
def roundRne (f : Fmt) (x : FVal) : Nat := (roundTo f .rne false 0#32 x).1

/-- Round to an integer (R196, R198): sign and magnitude, and the generator's state. -/
def roundInt (rm : Rm) (sr : Word) (neg : Bool) (n d : Nat) : Nat × Word :=
  let (up, sr') := roundUp rm neg (n / d % 2 == 1) (n % d) d sr
  (n / d + (if up then 1 else 0), sr')

/-! Exact arithmetic (R178, R190) -/

/-- The signed numerator. -/
def sgn (neg : Bool) (n : Nat) : Int := if neg then -(n : Int) else n

/-- The exact sum; an exact zero of operands of different signs takes the sign given. -/
def FVal.add (zneg : Bool) (a b : FVal) : FVal :=
  match a, b with
  | .nan, _ | _, .nan => .nan
  | .inf s, .inf t => if s = t then .inf s else .nan
  | .inf s, _ => .inf s
  | _, .inf t => .inf t
  | .fin s n d, .fin t m e =>
    if d = e then
      let x := sgn s n + sgn t m
      if x = 0 then .fin (if s = t then s else zneg) 0 1 else .fin (decide (x < 0)) x.natAbs d
    else
      let x := sgn s n * e + sgn t m * d
      if x = 0 then .fin (if s = t then s else zneg) 0 1 else .fin (decide (x < 0)) x.natAbs (d * e)

/-- The exact product. -/
def FVal.mul (a b : FVal) : FVal :=
  match a, b with
  | .nan, _ | _, .nan => .nan
  | .inf s, .inf t => .inf (s != t)
  | .inf s, .fin t m _ => if m = 0 then .nan else .inf (s != t)
  | .fin s n _, .inf t => if n = 0 then .nan else .inf (s != t)
  | .fin s n d, .fin t m e => .fin (s != t) (n * m) (d * e)

/-- The value with its sign turned. -/
def FVal.neg : FVal → FVal
  | .nan => .nan
  | .inf s => .inf (!s)
  | .fin s n d => .fin (!s) n d

/-- a < b on values that are no NaN; zeros are equal. -/
def FVal.lt (a b : FVal) : Bool :=
  match a, b with
  | .nan, _ | _, .nan => false
  | .inf s, .inf t => s && !t
  | .inf s, _ => s
  | _, .inf t => !t
  | .fin s n d, .fin t m e => decide (sgn s n * e < sgn t m * d)

/-- A value is NaN. -/
def FVal.isNan : FVal → Bool
  | .nan => true
  | _ => false

/-- The sign of a value. -/
def FVal.sign : FVal → Bool
  | .nan => false
  | .inf s => s
  | .fin s _ _ => s

/-- The value of an f32 word. -/
def f32Val (x : Word) : FVal := decodeF fmtF32 x.toNat

/-- An f32 word rounded to nearest even. -/
def f32Rne (x : FVal) : Word := w32 (roundRne fmtF32 x)

/-- IEEE addition of two f32 words by RNE (R178, R232). -/
def f32Add (a b : Word) : Word := f32Rne ((f32Val a).add false (f32Val b))

/-! KQ4 (R164, R165) -/

/-- Magnitudes of the codebook over 512. -/
def kq4Levels : List Nat := [22, 65, 111, 159, 213, 278, 362, 512]

/-- The level of a code (R164). -/
def kq4Val (c : Nat) : FVal :=
  if 8 ≤ c % 16 then .fin false (kq4Levels.getD (c % 16 - 8) 0) 512 else .fin true (kq4Levels.getD (7 - c % 16) 0) 512

/-- The block scale S·(e+1)/256 rounded once to f32 (R165). -/
def blockScale (sc : Word) (e : Nat) : Word := f32Rne ((f32Val sc).mul (.fin false (e + 1) 256))

/-- The value that a narrow type's bits hold (R158, R160, R164, R184). -/
def tyVal (ty : Ty) (x : Nat) : FVal :=
  match ty with
  | .kq4 => kq4Val x
  | .i8 => .ofInt (asInt true 8 (BitVec.ofNat 64 x))
  | .f16 | .bf16 => decodeF (fmtOf ty) (x % 2 ^ 16)
  | .e4m3 | .e5m2 => decodeF (fmtOf ty) (x % 2 ^ 8)
  | .e3m2 | .e2m3 => decodeF (fmtOf ty) (x % 2 ^ 6)
  | _ => decodeF fmtF32 (x % 2 ^ 32)

/-! Square roots -/

/-- ⌊√x⌋, bit by bit from bit n - 1 down. -/
def isqrt : Nat → Nat → Nat → Nat
  | 0, r, _ => r
  | n + 1, r, x => if (r + 2 ^ n) * (r + 2 ^ n) ≤ x then isqrt n (r + 2 ^ n) x else isqrt n r x

/-- √(n/d) to 2^-128 with a sticky last bit: it rounds to f32 as the exact root does. -/
def sqrtVal (n d : Nat) : FVal :=
  let x := n * 2 ^ 256 / d
  let r := isqrt 260 0 x
  if r * r * d = n * 2 ^ 256 then .fin false r (2 ^ 128) else .fin false (2 * r + 1) (2 ^ 129)

end Sys2Proof.Machine
end

