-- ==== Sys2Proof/Machine/Transc.lean ====
section
/-!
DEFINITION. The transcendental functions (R193, R194). The unit's raw result is a free value of the
stepping (log entry 20); it stands where it meets the manual's bound, and the correctly rounded value
stands where it does not. Exact and special cases are the manual's. Bounds of irrational results are
judged on fixed-point values with 128 fraction bits.
-/

namespace Sys2Proof.Machine

/-! Fixed point with 128 fraction bits -/

def fxOne : Int := 2 ^ 128
def fxMul (a b : Int) : Int := a * b / fxOne
/-- ln 2. -/
def fxLn2 : Int := 0xB17217F7D1CF79ABC9E3B39803F2F6AF
/-- π. -/
def fxPi : Int := 0x3243F6A8885A308D313198A2E03707344

/-- Σ t_k with t_0 = t and t_(k+1) = t_k·x/(k+1), from index k on: the exponential series. -/
def fxExpSum : Nat → Nat → Int → Int → Int
  | 0, _, _, _ => 0
  | n + 1, k, t, x => t + fxExpSum n (k + 1) (fxMul t x / (k + 1)) x

/-- Σ z^(2k+1)/(2k+1): the series of artanh. -/
def fxAtanhSum : Nat → Nat → Int → Int → Int
  | 0, _, _, _ => 0
  | n + 1, k, p, zz => p / (2 * k + 1) + fxAtanhSum n (k + 1) (fxMul p zz) zz

/-- Σ (-1)^k t_k with t_(k+1) = t_k·x²/((j+1)(j+2)): the series of sine (j = 1) and cosine (j = 0). -/
def fxTrigSum : Nat → Nat → Int → Int → Int
  | 0, _, _, _ => 0
  | n + 1, j, t, xx => t + fxTrigSum n (j + 2) (-(fxMul t xx) / ((j + 1) * (j + 2))) xx

/-- A fixed-point number as a value. -/
def fxVal (x : Int) : FVal := .fin (decide (x < 0)) x.natAbs (2 ^ 128)

/-- A signed rational as a fixed-point number. -/
def toFx (neg : Bool) (n d : Nat) : Int := sgn neg n * fxOne / d

/-- A nonnegative rational lies below 2^-e. -/
def tiny (n d e : Nat) : Bool := decide (n * 2 ^ e < d)

/-- 2^x for a rational x, within 2^-100 of it relatively: a positive value. Below 2^-64 it is 1 + x·ln 2 as a rational, on
the right side of 1. -/
def exp2Val (neg : Bool) (n d : Nat) : FVal :=
  if tiny n d 64 then .fin false ((d * 2 ^ 128 : Int) + sgn neg n * fxLn2).toNat (d * 2 ^ 128) else
  let x := sgn neg n
  let k := x / d
  let f := (x - k * d) * fxOne / d
  let m := fxExpSum 40 0 fxOne (fxMul f fxLn2)
  .scaled false m.toNat (k - 128)

/-- log2 of a positive rational. -/
def log2Val (n d : Nat) : FVal :=
  let e := floorLog2 n d
  let (a, r, den) := divPow n d (e - 128)
  let m : Int := (a : Int) + (if 2 * r < den then 0 else 1)
  let z := (m - fxOne) * fxOne / (m + fxOne)
  let ln := 2 * fxAtanhSum 48 0 z (fxMul z z)
  fxVal (e * fxOne + ln * fxOne / fxLn2)

/-- The angle reduced to [-π, π]. -/
def fxReduce (x : Int) : Int :=
  let t := 2 * fxPi
  x - (x + fxPi) / t * t

/-- The sine of a rational. Below 2^-40 it is x − x³/6 as a rational. -/
def sinVal (neg : Bool) (n d : Nat) : FVal :=
  if tiny n d 40 then .fin neg (n * (6 * d ^ 2 - n ^ 2)) (6 * d ^ 3) else
  let r := fxReduce (toFx neg n d)
  fxVal (fxTrigSum 40 1 r (fxMul r r))

def cosVal (neg : Bool) (n d : Nat) : FVal :=
  let r := fxReduce (toFx neg n d)
  fxVal (fxTrigSum 40 0 fxOne (fxMul r r))

/-! Bounds -/

/-- |a - b| ≤ t. -/
def within (a b t : FVal) : Bool :=
  !(t.lt (a.add false b.neg)) && !(t.lt (b.add false a.neg)) && !a.isNan && !b.isNan

/-- One ulp of binary32 at a value: its spacing (R193). -/
def ulpAt (x : FVal) : FVal :=
  match x with
  | .fin _ n d => if n = 0 then .scaled false 1 (-149) else .scaled false 1 (max (floorLog2 n d) (-126) - 23)
  | _ => .fin false 0 1

/-- The greater of two values. -/
def FVal.max2 (a b : FVal) : FVal := if a.lt b then b else a

/-- The raw result where it is finite and within the bound of the exact value, else the exact value
rounded to nearest. -/
def clampTo (raw : Word) (exact bound : FVal) : Word :=
  let v := f32Val raw
  match v with
  | .fin _ _ _ => if within v exact bound then raw else f32Rne exact
  | _ => f32Rne exact

def nanF32 : Word := 0x7FC00000#32
def infF32 (neg : Bool) : Word := if neg then 0xFF800000#32 else 0x7F800000#32
def zeroF32 (neg : Bool) : Word := if neg then 0x80000000#32 else 0#32
def oneF32 : Word := 0x3F800000#32

/-- A positive rational is a power of two: its exponent. -/
def pow2Exp (n d : Nat) : Option Int :=
  let e := floorLog2 n d
  let (a, r, _) := divPow n d e
  if a = 1 ∧ r = 0 then some e else none

/-- `frcp`: within 1 ulp; exact where the result is a power of two. -/
def frcpWord (x : Word) : Word :=
  match f32Val x with
  | .nan => nanF32
  | .inf s => zeroF32 s
  | .fin s n d =>
    if n = 0 then infF32 s
    else if (pow2Exp n d).isSome then f32Rne (.fin s d n)
    else clampTo (Config.frcpRaw x) (.fin s d n) (ulpAt (.fin s d n))

/-- `frsq`: within 1 ulp; exact at x = 4^n. -/
def frsqWord (x : Word) : Word :=
  match f32Val x with
  | .nan => nanF32
  | .inf s => if s then nanF32 else zeroF32 false
  | .fin s n d =>
    if n = 0 then infF32 s
    else if s then nanF32
    else
      let rne := f32Rne (sqrtVal d n)
      match pow2Exp n d with
      | some e => if e % 2 = 0 then rne else clampTo (Config.frsqRaw x) (sqrtVal d n) (ulpAt (sqrtVal d n))
      | none => clampTo (Config.frsqRaw x) (sqrtVal d n) (ulpAt (sqrtVal d n))

/-- `fsqrt`: correctly rounded. -/
def fsqrtWord (x : Word) : Word :=
  match f32Val x with
  | .nan => nanF32
  | .inf s => if s then nanF32 else infF32 false
  | .fin s n d => if n = 0 then zeroF32 s else if s then nanF32 else f32Rne (sqrtVal n d)

/-- `fexp2`: within 2 ulp; exact at integers with a normal result; overflow gives +∞, and far below the
subnormals the result is +0 or a subnormal. -/
def fexp2Word (x : Word) : Word :=
  match f32Val x with
  | .nan => nanF32
  | .inf s => if s then zeroF32 false else infF32 false
  | .fin s n d =>
    let xi := sgn s n
    if n = 0 then oneF32
    else if 128 * (d : Int) ≤ xi then infF32 false
    else if xi < -400 * (d : Int) then
      (let r := Config.fexp2Raw x
       if r.toNat ≤ 2 then r else zeroF32 false)
    else
      let v := exp2Val s n d
      if xi % d = 0 ∧ -126 * (d : Int) ≤ xi then f32Rne (.scaled false 1 (xi / d))
      else
        let r := Config.fexp2Raw x
        let r' := if r.getLsbD 31 then f32Rne v else r
        clampTo r' v ((ulpAt v).mul (.fin false 2 1))

/-- `flog2`: within 2 ulp or 2^-22; exact at powers of two. -/
def flog2Word (x : Word) : Word :=
  match f32Val x with
  | .nan => nanF32
  | .inf s => if s then nanF32 else infF32 false
  | .fin s n d =>
    if n = 0 then infF32 true
    else if s then nanF32
    else
      match pow2Exp n d with
      | some e => f32Rne (FVal.ofInt e)
      | none =>
        let v := log2Val n d
        clampTo (Config.flog2Raw x) v (((ulpAt v).mul (.fin false 2 1)).max2 (.scaled false 1 (-22)))

/-- A word whose value is finite and lies in [-1, 1], else +0. -/
def unitRange (r : Word) : Word :=
  match f32Val r with
  | .fin _ n d => if n ≤ d then r else zeroF32 false
  | _ => zeroF32 false

/-- `fsin` and `fcos`: 2^-21 absolute for |x| ≤ 2^20, otherwise some value in [-1, 1]. -/
def trigWord (raw : Word) (n d : Nat) (exact : FVal) : Word :=
  if 2 ^ 20 * d < n then unitRange raw
  else
    match f32Val raw with
    | .fin _ a b => if a ≤ b && within (f32Val raw) exact (.scaled false 1 (-21)) then raw else f32Rne exact
    | _ => f32Rne exact

def fsinWord (x : Word) : Word :=
  match f32Val x with
  | .nan | .inf _ => nanF32
  | .fin s n d => if n = 0 then zeroF32 s else trigWord (Config.fsinRaw x) n d (sinVal s n d)

def fcosWord (x : Word) : Word :=
  match f32Val x with
  | .nan | .inf _ => nanF32
  | .fin s n d => if n = 0 then oneF32 else trigWord (Config.fcosRaw x) n d (cosVal s n d)

end Sys2Proof.Machine
end

