-- ==== Sys2Proof/Machine/Float.lean ====
section
/-!
DEFINITION. Lane arithmetic and conversion (R184-R200).
-/

namespace Sys2Proof.Machine

/-! Shared shape -/

/-- A float function: source words, generator state; the result and the state after its draws. -/
abbrev FloatFn := List (BitVec 64) → Word → BitVec 64 × Word

/-- The results of SR mode: the run's guarded positions in ascending order draw in turn (R174). -/
def drawAll (f : FloatFn) (args : Nat → List (BitVec 64)) : List Nat → Word → List (Nat × BitVec 64) × Word
  | [], sr => ([], sr)
  | k :: rest, sr =>
    let r := f (args k) sr
    let more := drawAll f args rest r.2
    ((k, r.1) :: more.1, more.2)

/-- The worst class of float sources of given widths in a record (R185). -/
def Iss.worstF (i : Iss) (xs : List (Bool × Opnd)) (r : Rec) : Cls :=
  (xs.map fun x => i.g.srcCls x.1 r (.op x.2)).foldl Cls.worse .u

/-- A float instruction (R185, R174, R175): U sources give a U form, A expands, and in SR mode every U cell
reads X; `fin` finishes it. -/
def State.floatWith (s : State) (k : Ctl) (ns : List Need) (d : Opnd) (words : Nat) (sr : Bool)
    (xs : List (Bool × Opnd)) (f : FloatFn) (fin : Iss → Values → State) : Host.Outcome State Fault Refusal :=
  s.issue k fun i =>
    match i.check ns with
    | .error e => .error e
    | .ok _ =>
      let args (t : Nat → Iss) (p : Nat) : List (BitVec 64) := xs.map fun x => (t p).g.src x.1 (.op x.2) p
      let drawn (t : Nat → Iss) : List (Nat × BitVec 64) × Word :=
        if sr then drawAll f (args t) i.on i.g.sr else ([], i.g.sr)
      let val (t : Nat → Iss) (p : Nat) : BitVec 64 :=
        if sr then (((drawn t).1.find? fun x => x.1 == p).map fun x => x.2).getD 0#64 else (f (args t p) i.g.sr).1
      let cell (t : Nat → Iss) (r x : Rec) : Cell :=
        match (t r.b).worstF xs x with
        | .d => .skip
        | .u => if sr then .x else .form (uniformForms (val t r.b) words)
        | _ => .x
      match i.timedValues false (readRegs ns) d words (fun t p => word (val t p)) cell
          (fun t r x => (t r.b).worstF xs x == .u && !sr) with
      | .error e => .error e
      | .ok v => .ok (fin i { v with g := { v.g with sr := (drawn (i.timed false (readRegs ns) v.gc)).2 } })

/-- A float instruction whose results have a latency. -/
def State.floatOp (s : State) (k : Ctl) (ns : List Need) (d : Opnd) (words lat : Nat) (sr : Bool)
    (xs : List (Bool × Opnd)) (f : FloatFn) : Host.Outcome State Fault Refusal :=
  s.floatWith k ns d words sr xs f fun i v => s.finishValues i ns lat lat v

/-- A result of one format in the low bits of a word (R184). -/
def narrow (r : Nat × Word) : BitVec 64 × Word := (BitVec.ofNat 64 r.1, r.2)

/-- 32-bit float sources of a destination register. -/
def State.float32 (s : State) (k : Ctl) (d : Opnd) (lat : Nat) (sr : Bool) (xs : List Opnd) (f : FloatFn) :
    Host.Outcome State Fault Refusal :=
  s.floatOp k (dstVS d :: xs.map src1) d 1 lat sr (xs.map fun o => (false, o)) f

/-- An exact operation on values of one type, rounded once (R189, R190). The first argument of the
operation is the sign of an exact zero of operands of different signs. -/
def roundFn (ty : Ty) (rm : Rm) (sat : Bool) (op : Bool → List FVal → FVal) : FloatFn := fun xs sr =>
  narrow (roundTo (fmtOf ty) rm sat sr (op (rm == .rd) (xs.map fun x => tyVal ty x.toNat)))

def exactAdd (z : Bool) : List FVal → FVal
  | [a, b] => a.add z b
  | _ => .nan
def exactSub (z : Bool) : List FVal → FVal
  | [a, b] => a.add z b.neg
  | _ => .nan
def exactMul (_ : Bool) : List FVal → FVal
  | [a, b] => a.mul b
  | _ => .nan
def exactFma (z : Bool) : List FVal → FVal
  | [a, b, c] => (a.mul b).add z c
  | _ => .nan

/-- Two 16-bit elements, element 0 first (R184, R190). -/
def pairFn (f : FloatFn) : FloatFn := fun xs sr =>
  let lo := f (xs.map fun (x : BitVec 64) => x &&& 0xFFFF#64) sr
  let hi := f (xs.map fun (x : BitVec 64) => (x >>> 16) &&& 0xFFFF#64) lo.2
  ((hi.1 <<< 16) ||| lo.1, hi.2)

/-! Arithmetic (R189-R191) -/

/-- `fadd` (R189). -/
def execFadd (k : Ctl) (ty : Ty) (rm : Rm) (sat : Bool) (d a b : Opnd) (s : State) : Host.Outcome State Fault Refusal :=
  s.float32 k d 4 (rm == .sr) [a, b] (roundFn ty rm sat exactAdd)

/-- `fsub` (R189). -/
def execFsub (k : Ctl) (ty : Ty) (rm : Rm) (sat : Bool) (d a b : Opnd) (s : State) : Host.Outcome State Fault Refusal :=
  s.float32 k d 4 (rm == .sr) [a, b] (roundFn ty rm sat exactSub)

/-- `fmul` (R189). -/
def execFmul (k : Ctl) (ty : Ty) (rm : Rm) (sat : Bool) (d a b : Opnd) (s : State) : Host.Outcome State Fault Refusal :=
  s.float32 k d 4 (rm == .sr) [a, b] (roundFn ty rm sat exactMul)

/-- `ffma` (R189). -/
def execFfma (k : Ctl) (ty : Ty) (rm : Rm) (sat : Bool) (d a b c : Opnd) (s : State) :
    Host.Outcome State Fault Refusal :=
  s.float32 k d 4 (rm == .sr) [a, b, c] (roundFn ty rm sat exactFma)

/-- Width of a floating type in bits (R159). -/
def fmtBits (f : Fmt) : Nat := f.m + f.e + 1

/-- The bits of a narrow source. -/
def fbits (ty : Ty) (x : BitVec 64) : Nat := x.toNat % 2 ^ fmtBits (fmtOf ty)

/-- a is less than b in the order of R191, where -0 is less than +0. -/
def minLess (ty : Ty) (a b : Nat) : Bool :=
  let x := tyVal ty a
  let y := tyVal ty b
  x.lt y || (!(y.lt x) && x.sign && !y.sign)

/-- `fmin` and `fmax` on encodings (R191). -/
def minMaxBits (ty : Ty) (mx : Bool) (a b : Nat) : Nat :=
  match (tyVal ty a).isNan, (tyVal ty b).isNan with
  | true, true => nanOf (fmtOf ty)
  | true, false => b
  | false, true => a
  | false, false => if minLess ty a b != mx then a else b

/-- One of two sources, bit for bit. -/
def minMaxFn (ty : Ty) (mx : Bool) : FloatFn := fun xs sr =>
  match xs with
  | [a, b] => (BitVec.ofNat 64 (minMaxBits ty mx (fbits ty a) (fbits ty b)), sr)
  | _ => (0#64, sr)

/-- `fmin` (R191). -/
def execFmin (k : Ctl) (ty : Ty) (d a b : Opnd) (s : State) : Host.Outcome State Fault Refusal :=
  s.float32 k d 4 false [a, b] (minMaxFn ty false)

/-- `fmax` (R191). -/
def execFmax (k : Ctl) (ty : Ty) (d a b : Opnd) (s : State) : Host.Outcome State Fault Refusal :=
  s.float32 k d 4 false [a, b] (minMaxFn ty true)

/-- `hadd2` (R189). -/
def execHadd2 (k : Ctl) (ty : Ty) (rm : Rm) (sat : Bool) (d a b : Opnd) (s : State) : Host.Outcome State Fault Refusal :=
  s.float32 k d 4 (rm == .sr) [a, b] (pairFn (roundFn ty rm sat exactAdd))

/-- `hmul2` (R189). -/
def execHmul2 (k : Ctl) (ty : Ty) (rm : Rm) (sat : Bool) (d a b : Opnd) (s : State) : Host.Outcome State Fault Refusal :=
  s.float32 k d 4 (rm == .sr) [a, b] (pairFn (roundFn ty rm sat exactMul))

/-- `hfma2` (R189). -/
def execHfma2 (k : Ctl) (ty : Ty) (rm : Rm) (sat : Bool) (d a b c : Opnd) (s : State) :
    Host.Outcome State Fault Refusal :=
  s.float32 k d 4 (rm == .sr) [a, b, c] (pairFn (roundFn ty rm sat exactFma))

/-! Comparison (R192) -/

/-- The condition of `fcmp` on two values. -/
def fcmpBit (cc : Fcc) (a b : FVal) : Bool :=
  let un := a.isNan || b.isNan
  let lt := a.lt b
  let gt := b.lt a
  match cc with
  | .eq => !un && !lt && !gt
  | .lt => lt
  | .le => !un && !gt
  | .un => un
  | .ne => un || lt || gt
  | .ge => !un && !lt
  | .gt => gt

/-- `fcmp` (R192). -/
def execFcmp (k : Ctl) (cc : Fcc) (ty : Ty) (d a b : Opnd) (s : State) : Host.Outcome State Fault Refusal :=
  s.predOp k [predN d, src1 a, src1 b] (predNum d) 4 4
    (fun i p => fcmpBit cc (tyVal ty (i.g.word a p).toNat) (tyVal ty (i.g.word b p).toNat))

/-! Transcendentals (R193, R194) -/

/-- A function of one f32 word. -/
def wordFn (f : Word → Word) : FloatFn := fun xs sr =>
  match xs with
  | [a] => ((f (a.setWidth 32)).setWidth 64, sr)
  | _ => (0#64, sr)

/-- `frcp`. -/
def execFrcp (k : Ctl) (d a : Opnd) (s : State) : Host.Outcome State Fault Refusal := s.float32 k d 12 false [a] (wordFn frcpWord)
/-- `frsq`. -/
def execFrsq (k : Ctl) (d a : Opnd) (s : State) : Host.Outcome State Fault Refusal := s.float32 k d 12 false [a] (wordFn frsqWord)
/-- `fsqrt`. -/
def execFsqrt (k : Ctl) (d a : Opnd) (s : State) : Host.Outcome State Fault Refusal := s.float32 k d 12 false [a] (wordFn fsqrtWord)
/-- `fexp2`. -/
def execFexp2 (k : Ctl) (d a : Opnd) (s : State) : Host.Outcome State Fault Refusal := s.float32 k d 12 false [a] (wordFn fexp2Word)
/-- `flog2`. -/
def execFlog2 (k : Ctl) (d a : Opnd) (s : State) : Host.Outcome State Fault Refusal := s.float32 k d 12 false [a] (wordFn flog2Word)
/-- `fsin`. -/
def execFsin (k : Ctl) (d a : Opnd) (s : State) : Host.Outcome State Fault Refusal := s.float32 k d 12 false [a] (wordFn fsinWord)
/-- `fcos`. -/
def execFcos (k : Ctl) (d a : Opnd) (s : State) : Host.Outcome State Fault Refusal := s.float32 k d 12 false [a] (wordFn fcosWord)

/-! Conversions (R195-R199) -/

/-- The conversions that R171 calls exact: no mode is consulted and nothing is drawn. -/
def exactConv (dt st : Ty) : Bool :=
  match dt with
  | .f32 => st != .f32
  | .f16 | .bf16 => ([.e4m3, .e5m2, .e3m2, .e2m3, .kq4, .i8] : List Ty).contains st
  | .e5m2 => st == .e3m2 || st == .e2m3
  | _ => false

/-- A conversion of a narrow value (R195). -/
def convFn (dt st : Ty) (rm : Rm) (sat : Bool) : FloatFn := fun xs sr =>
  match xs with
  | [a] =>
    let v := tyVal st a.toNat
    if dt = st then (BitVec.ofNat 64 (if v.isNan then nanOf (fmtOf dt) else fbits dt a), sr)
    else if exactConv dt st then (BitVec.ofNat 64 (roundTo (fmtOf dt) .rne sat sr v).1, sr)
    else narrow (roundTo (fmtOf dt) rm sat sr v)
  | _ => (0#64, sr)

/-- `fcvt` (R195). -/
def execFcvt (k : Ctl) (dt sty : Ty) (rm : Rm) (sat : Bool) (d a : Opnd) (s : State) :
    Host.Outcome State Fault Refusal :=
  s.float32 k d 4 (rm == .sr) [a] (convFn dt sty rm sat)

/-- The width of an integer type in bits. -/
def intBits (ty : Ty) : Nat := if ty = .i8 then 8 else tyBits ty

/-- The least and greatest value of an integer type (R158). -/
def intMin (ty : Ty) : Int := if tySigned ty then -(2 ^ (intBits ty - 1) : Int) else 0
def intMax (ty : Ty) : Int := if tySigned ty then 2 ^ (intBits ty - 1) - 1 else 2 ^ intBits ty - 1

/-- A clamped integer in the bits of its type. -/
def clampBits (ty : Ty) (x : Int) : BitVec 64 :=
  BitVec.ofNat 64 ((max (intMin ty) (min (intMax ty) x)) % (2 ^ intBits ty : Int)).toNat

/-- `f2i` on a value (R196). -/
def f2iFn (it ft : Ty) (rm : Rm) : FloatFn := fun xs sr =>
  match xs with
  | [a] =>
    match tyVal ft a.toNat with
    | .nan => (0#64, sr)
    | .inf s => (clampBits it (if s then intMin it else intMax it), sr)
    | .fin s n d =>
      let r := roundInt rm sr s n d
      (clampBits it (sgn s r.1), r.2)
  | _ => (0#64, sr)

/-- `f2i` (R196). -/
def execF2i (k : Ctl) (it ft : Ty) (rm : Rm) (d a : Opnd) (s : State) : Host.Outcome State Fault Refusal :=
  s.floatOp k [dstT it d, src1 a] d (tyWords it) 4 (rm == .sr) [(false, a)] (f2iFn it ft rm)

/-- `i2f` on a value (R197). -/
def i2fFn (ft it : Ty) (rm : Rm) (sat : Bool) : FloatFn := fun xs sr =>
  match xs with
  | [a] => narrow (roundTo (fmtOf ft) rm sat sr (.ofInt (asInt (tySigned it) (intBits it) a)))
  | _ => (0#64, sr)

/-- `i2f` (R197). -/
def execI2f (k : Ctl) (ft it : Ty) (rm : Rm) (sat : Bool) (d a : Opnd) (s : State) : Host.Outcome State Fault Refusal :=
  s.floatOp k [dstVS d, srcT it a] d 1 4 (rm == .sr) [(it.wide, a)] (i2fFn ft it rm sat)

/-- `frnd` on a value (R198): integral values, infinities and zeros are unchanged. -/
def frndFn (ty : Ty) (rm : Rm) : FloatFn := fun xs sr =>
  match xs with
  | [a] =>
    match tyVal ty a.toNat with
    | .nan => (BitVec.ofNat 64 (nanOf (fmtOf ty)), sr)
    | .inf _ => (BitVec.ofNat 64 (fbits ty a), sr)
    | .fin s n d =>
      if n % d = 0 then (BitVec.ofNat 64 (fbits ty a), sr)
      else
        let r := roundInt rm sr s n d
        (BitVec.ofNat 64 (roundTo (fmtOf ty) .rz false 0#32 (.fin s r.1 1)).1, r.2)
  | _ => (0#64, sr)

/-- `frnd` (R198). -/
def execFrnd (k : Ctl) (ty : Ty) (rm : Rm) (d a : Opnd) (s : State) : Host.Outcome State Fault Refusal :=
  s.float32 k d 4 (rm == .sr) [a] (frndFn ty rm)

/-- The class bit of an encoding (R199). -/
def classBit (f : Fmt) (x : Nat) : Nat :=
  let s := nbit x (f.m + f.e)
  let ex := x / 2 ^ f.m % 2 ^ f.e
  let mn := x % 2 ^ f.m
  match decodeF f x with
  | .nan => if f.sp == .e4m3 || nbit mn (f.m - 1) then 9 else 8
  | .inf _ => if s then 0 else 7
  | .fin _ _ _ =>
    if ex = 0 ∧ mn = 0 then (if s then 3 else 4)
    else if ex = 0 then (if s then 2 else 5)
    else (if s then 1 else 6)

/-- `fclass` (R199). -/
def execFclass (k : Ctl) (ty : Ty) (d a : Opnd) (s : State) : Host.Outcome State Fault Refusal :=
  s.float32 k d 4 false [a] fun xs sr =>
    match xs with
    | [x] => (BitVec.ofNat 64 (2 ^ classBit (fmtOf ty) (fbits ty x)), sr)
    | _ => (0#64, sr)

/-! Six-bit planes (R200) -/

/-- Planes of eight unpacked elements: the high plane in the low word, the low plane in the high. -/
def splitPlanes (x : BitVec 64) : BitVec 64 :=
  let el (j : Nat) : Nat := x.toNat / 2 ^ (8 * j) % 64
  BitVec.ofNat 64 (((List.range 8).map fun j => el j / 4 * 2 ^ (4 * j) + el j % 4 * 2 ^ (32 + 2 * j)).sum)

/-- Eight unpacked elements of two planes. -/
def joinPlanes (h l : BitVec 64) : BitVec 64 :=
  BitVec.ofNat 64 (((List.range 8).map fun j =>
    (h.toNat / 2 ^ (4 * j) % 16 * 4 + l.toNat / 2 ^ (2 * j) % 4) * 2 ^ (8 * j)).sum)

/-- `plsplit` (R200). -/
def execPlsplit (k : Ctl) (_ty : Ty) (d a : Opnd) (s : State) : Host.Outcome State Fault Refusal :=
  s.floatOp k [dstVS d 2, src2 a] d 2 4 false [(true, a)] fun xs sr =>
    match xs with
    | [x] => (splitPlanes x, sr)
    | _ => (0#64, sr)

/-- `pljoin` (R200). -/
def execPljoin (k : Ctl) (_ty : Ty) (d a b : Opnd) (s : State) : Host.Outcome State Fault Refusal :=
  s.floatOp k [dstVS d 2, src1 a, src1 b] d 2 4 false [(false, a), (false, b)] fun xs sr =>
    match xs with
    | [x, y] => (joinPlanes x y, sr)
    | _ => (0#64, sr)

end Sys2Proof.Machine
end

