-- ==== Sys2Proof/Machine/Atomics.lean ====
section
/-!
DEFINITION. Atomics, gathers, scatters and remote loads (R232-R236, R242): `atoms`, `gatom`, `amaxrd`,
`gather`, `scatter`, `remld`.
-/

namespace Sys2Proof.Machine

/-! The operations of R232 -/

/-- The lesser of two integers of a type, or the greater. -/
def pickInt (ty : Ty) (greater : Bool) (m b : BitVec 64) : BitVec 64 :=
  let x := asInt (tySigned ty) (tyBits ty) m
  let y := asInt (tySigned ty) (tyBits ty) b
  if greater then (if x < y then b else m) else (if y < x then b else m)

/-- The new value at the location (R232): old value m, operands b and c. -/
def atomNew (op : AtomOp) (ty : Ty) (m b c : BitVec 64) : BitVec 64 :=
  match op with
  | .add => m + b
  | .min => pickInt ty false m b
  | .max => pickInt ty true m b
  | .and => m &&& b
  | .or => m ||| b
  | .xor => m ^^^ b
  | .exch => b
  | .cas => if m.toNat % 2 ^ tyBits ty = b.toNat % 2 ^ tyBits ty then c else m
  | .fadd => (f32Add (m.setWidth 32) (b.setWidth 32)).setWidth 64
  | .fmin => BitVec.ofNat 64 (minMaxBits .f32 false (m.toNat % 2 ^ 32) (b.toNat % 2 ^ 32))
  | .fmax => BitVec.ofNat 64 (minMaxBits .f32 true (m.toNat % 2 ^ 32) (b.toNat % 2 ^ 32))

/-- The comparand's replacement is read only by `cas` (R232). -/
def atomNeeds (op : AtomOp) (ty : Ty) (d a b c : Opnd) : List Need :=
  [dstT ty d, pairN a, srcT ty b] ++ (if op = .cas then [srcT ty c] else [])

/-- A register destination of several old values: a range record of two or more positions expands; an
s register takes the result of a single-position range record alone (R90, R233). -/
def Iss.manyValues (i : Iss) (d : Opnd) : Except Stop Unit :=
  match d with
  | .s _ => if i.k.nwb then .ok ()
    else failAt 0x02 2 ((i.run.filter fun r => r.lane || decide (2 ≤ r.n)).flatMap i.onIn)
  | _ => .ok ()

/-- The group once its range records of several old values have expanded: they meet an X cell where a register takes
them; an instruction with no register result never expands a record (R226, R233). -/
def Iss.expandMany (i : Iss) (d : Opnd) : Group :=
  i.g.expand fun r => i.inRun r && i.hasRes d && decide (2 ≤ r.n) && !(i.onIn r).isEmpty

/-- The elements of an atomic, in the order of R230, each with the operands that stand at its pass; `g` is the group
whose records issue. -/
def Iss.atomElems (i : Iss) (g : Group) (t : Nat → Iss) (op : AtomOp) (ty : Ty) (a b c : Opnd) (off : BitVec 12) :
    List Elem :=
  ((i.orderIn g).flatMap i.onIn).map fun k =>
    { mkElem [k] ((t k).addr a off k) (memBytes ty) (((t k).g.src ty.wide (.op b) k).setWidth 128) with
        repl := if op = .cas then (t k).g.src ty.wide (.op c) k else 0#64 }

/-- Watchpoint kinds of an atomic (R369). -/
def atomKinds : Addr → List Nat := fun _ => [watchRead, watchWrite]

/-- The bank words of an `atoms` at a position: positions that reach one word take a round each (R233). -/
def atomWords (a : Opnd) (off : BitVec 12) (size : Nat) (j : Iss) (k : Nat) : List (Nat × Nat × Nat) :=
  (memWords a off size j k).map fun w => (w.1, w.2.1, w.2.2 * 64 + k)

/-- `atoms` (R233): the read-modify-writes enter the store queue together. -/
def execAtoms (k : Ctl) (op : AtomOp) (ty : Ty) (d a b c : Opnd) (_scope : BitVec 3) (off : BitVec 12) (s : State) :
    Host.Outcome State Fault Refusal :=
  s.issue k fun i => do
    let ns := atomNeeds op ty d a b c
    i.check ns
    let regs := readRegs ns
    let size := memBytes ty
    let g := i.expandMany d
    let rounds := i.rounds (atomWords a off size)
    let sch := i.sched g regs rounds
    let t := i.timedBy sch
    let as := i.withAddr fun p => (t p).addr a off p
    i.checkAccess permA [.spad, .partner] size as
    i.manyValues d
    s.watchCheck i (watchList atomKinds size as)
    let els := i.atomElems g t op ty a b c off
    let places := els.map fun e => (e, i.placeOf e.va (e.ps.headD 0))
    let n := i.issues g
    let ent := StoreEnt.atom (s.ord + 1) k.sig.toNat n op ty places (i.slotDst d) k.hold.toNat []
    let extra := extraOf rounds sch
    if els.isEmpty then .ok (s.finish i i.g i.g regs 0 0 [⟨6, n, []⟩] i.advance)
    else .ok ((s.countRounds i.ci extra).finish i g { g with storeq := g.storeq ++ [ent] } regs extra n [] i.advance)

/-! Engine accesses of a run -/

/-- Issue an access that the gather engine performs (R227, R228): elements in a slot, bytes counted; `g` is the group
with its expansions made, whose records issue (R49). A run whose guard is false everywhere takes no slot and completes
at latency 1. -/
def State.engineOp (s : State) (i : Iss) (ins : Instr) (op : SlotOp) (els : List Elem) (size words : Nat)
    (cq : Nat) (d : Opnd) (qord : Bool) (g : Group) (regs : List Nat) (ents : List StoreEnt) : Except Stop State := do
  let n := i.issues g
  if els.isEmpty then .ok (s.finish i g g regs 0 0 [⟨1, n, []⟩] i.advance)
  else
    let num ← i.slotRoom true cq (els.length * size)
    let slot := i.newSlot num (s.ord + 1) ins op els size (some cq) n (i.slotDst d) words qord
    let g' := (({ g with storeq := g.storeq ++ ents } : Group).countUp cq (els.length * size)).addSlot slot
    .ok (s.finish i g g' regs 0 n [] i.advance)

/-- `gatom` (R234). -/
def execGatom (k : Ctl) (op : AtomOp) (ty : Ty) (d a b c : Opnd) (_scope : BitVec 3) (m : Mem) (s : State) :
    Host.Outcome State Fault Refusal :=
  s.issue k fun i => do
    let ns := atomNeeds op ty d a b c
    i.check ns
    let regs := readRegs ns
    let g := i.expandMany d
    let t := i.timed false regs g
    let as := i.withAddr fun p => (t p).addr a m.off p
    i.checkAccess permA [.global] (memBytes ty) as
    i.manyValues d
    s.watchCheck i (watchList atomKinds (memBytes ty) as)
    s.engineOp i (.gatom k op ty d a b c _scope m) (.atom op ty) (i.atomElems g t op ty a b c m.off) (memBytes ty)
      (tyWords ty) m.cq.toNat d m.qord g regs []

/-- `amaxrd` (R235): one exchange with zero for the run. -/
def execAmaxrd (k : Ctl) (ty : Ty) (d a : Opnd) (_scope : BitVec 3) (m : Mem) (s : State) :
    Host.Outcome State Fault Refusal :=
  s.issue k fun i => do
    let ns := [dstT ty d, pairN a]
    i.check ns
    i.uniform true a
    let ks := i.on
    let va := i.addr a m.off (ks.headD 0)
    let as := if ks.isEmpty then [] else [(ks.headD 0, va)]
    i.checkAccess permA [.global] (memBytes ty) as
    s.watchCheck i (watchList atomKinds (memBytes ty) as)
    s.engineOp i (.amaxrd k ty d a _scope m) .amax
      (if ks.isEmpty then [] else [mkElem ks va (memBytes ty) 0#128 true])
      (memBytes ty) (tyWords ty) m.cq.toNat d m.qord i.g (readRegs ns) []

/-! Gathers and scatters (R236) -/

/-- The address of a gathered or scattered position. -/
def Iss.idxAddr (i : Iss) (a b : Opnd) (sh : BitVec 5) (off : BitVec 12) (k : Nat) : Addr :=
  i.addr a off k + ((i.g.word b k).setWidth 64 <<< sh.toNat)

/-- The writes or reads of an indexed access: a range record with a U index reaches one address once. -/
def Iss.idxElems (i : Iss) (cls : Rec → Cls) (addr : Nat → Addr) (size : Nat) (last : Bool)
    (data : Nat → BitVec 128) : List Elem :=
  i.inOrder.flatMap fun r =>
    let ks := i.onIn r
    let u := cls r == .u
    if !r.lane && u then
      match ks, ks.getLast? with
      | k :: _, some h => if last then [mkElem [h] (addr h) size (data h) true] else [mkElem ks (addr k) size (data k) true]
      | _, _ => []
    else ks.map fun k => mkElem [k] (addr k) size (data k) u

/-- The group once the range records of a gather whose index is not uniform have expanded. -/
def Iss.expandIdx (i : Iss) (d b : Opnd) : Group :=
  i.g.expand fun r => i.inRun r && i.hasRes d && i.g.srcCls false r (.op b) != .u && !(i.onIn r).isEmpty

/-- An s destination of an indexed or remote load takes a U result alone (R124, R226). -/
def Iss.uniIdx (i : Iss) (d b : Opnd) : Except Stop Unit :=
  match d with
  | .s _ => if i.k.nwb then .ok () else i.uniform false b
  | _ => .ok ()

/-- `gather` (R236). -/
def execGather (k : Ctl) (ty : Ty) (d a b : Opnd) (sh : BitVec 5) (m : Mem) (s : State) :
    Host.Outcome State Fault Refusal :=
  s.issue k fun i => do
    let ns := [dstT ty d, pairN a, ⟨b, [.v, .s, .zr], 1, 1⟩]
    i.check ns
    i.uniform true a
    i.uniIdx d b
    let regs := readRegs ns
    let g := i.expandIdx d b
    let t := i.timed false regs g
    let size := memBytes ty
    let addr (p : Nat) : Addr := (t p).idxAddr a b sh m.off p
    let as := i.withAddr addr
    i.checkAccess permR [.spad, .partner, .global] size as
    s.watchCheck i (watchList (fun _ => [watchRead]) size as)
    s.engineOp i (.gather k ty d a b sh m) .gather (i.idxElems (classAt t false (.op b)) addr size false fun _ => 0#128) size
      (tyWords ty) m.cq.toNat d m.qord g regs []

/-- The on-chip elements of a `scatter`, as they enter the store queue (R302): complete at the latency of the widest
aperture that they reach. -/
def Iss.scatterEnts (i : Iss) (last ord size : Nat) (els : List Elem) : List StoreEnt :=
  let chip := els.filter fun x => !i.isGlobal x.va
  if chip.isEmpty then []
  else [.chip (last + maxNat (chip.map fun x => i.accLat x.va)) ord
    (chip.flatMap fun x => i.writeBytes size ⟨x.ps.headD 0, x.va, x.data.toNat⟩) 0 0]

/-- `scatter` (R236); d names the data. -/
def execScatter (k : Ctl) (ty : Ty) (d a b : Opnd) (sh : BitVec 5) (m : Mem) (s : State) :
    Host.Outcome State Fault Refusal :=
  s.issue k fun i => do
    let ns := [srcT ty d, pairN a, ⟨b, [.v, .s, .zr], 1, 1⟩]
    i.check ns
    i.uniform true a
    let regs := readRegs ns
    let t := i.timed false regs i.g
    let size := memBytes ty
    let addr (p : Nat) : Addr := (t p).idxAddr a b sh m.off p
    let as := i.withAddr addr
    i.checkAccess permW [.spad, .partner, .global] size as
    s.watchCheck i (watchList (fun _ => [watchWrite]) size as)
    let els := i.idxElems (classAt t false (.op b)) addr size true fun p =>
      BitVec.ofNat 128 ((t p).storeData d (tyWords ty) [] p)
    s.engineOp i (.scatter k ty d a b sh m) .scatter els size (tyWords ty) m.cq.toNat .zr m.qord i.g regs
      (i.scatterEnts (i.now + i.cost i.g regs 0 - 1) (s.ord + 1) size els)

/-! Remote loads (R242) -/

/-- The offset of a remote load is above the array, or not aligned: the cause. -/
def remFault (size o : Nat) : Option Nat :=
  if 0x40000 ≤ o then some causeAperture else if o % size != 0 then some causeAlign else none

/-- `remld` (R242): elements by offset in the remote core's array. -/
def execRemld (k : Ctl) (ty : Ty) (d a : Opnd) (coord : BitVec 11) (cq : BitVec 3) (s : State) :
    Host.Outcome State Fault Refusal :=
  s.issue k fun i => do
    let ns := [dstT ty d, ⟨a, [.v, .s, .zr], 1, 1⟩]
    i.checkWith ns (if coreCluster coord.toNat ≠ coreCluster i.g.core then .error (badOperand 3) else .ok ())
    if coreCluster coord.toNat ≠ coreCluster i.g.core then .error (badOperand 3)
    else
      i.uniIdx d a
      let regs := readRegs ns
      let g := i.expandIdx d a
      let t := i.timed false regs g
      let size := memBytes ty
      let off (p : Nat) : Word := (t p).g.word a p
      let bad := i.onAge.filter fun p => (remFault size (off p).toNat).isSome
      i.failAccess ((remFault size (off (bad.headD 0)).toNat).getD 0) bad
      s.engineOp i (.remld k ty d a coord cq) (.remld coord.toNat)
        (i.idxElems (classAt t false (.op a)) (fun p => (off p).setWidth 64) size false fun _ => 0#128) size (tyWords ty)
        cq.toNat d false g regs []

end Sys2Proof.Machine
end

