-- ==== Sys2Proof/Machine/Collective.lean ====
section
/-!
DEFINITION. Group collectives (R152-R157): participants are the positions of the run whose guard is
true; values are those of the last pass.
-/

namespace Sys2Proof.Machine

/-- The source position of `shfl` (R153): up and down may fall outside the group. -/
def shflFrom (mode k u w : Nat) : Option Nat :=
  match mode with
  | 0 => some (u % w)
  | 1 => if u ≤ k then some (k - u) else none
  | 2 => some (k + u)
  | _ => some (k ^^^ u)

/-- The value of `shfl` at a position. -/
def shflValue (i : Iss) (g : Group) (wide : Bool) (a b : Opnd) (mode k : Nat) : BitVec 64 :=
  match shflFrom mode k (g.word b k).toNat i.g.width with
  | some j => if j < i.g.width ∧ i.on.contains j then g.src wide (.op a) j else g.src wide (.op a) k
  | none => g.src wide (.op a) k

/-- `shfl` (R153). -/
def execShfl (k : Ctl) (ty : Ty) (d a b : Opnd) (mode : BitVec 2) (s : State) : Host.Outcome State Fault Refusal :=
  s.valueWith true k [dstT ty d, srcT ty a, src1 b] d (tyWords ty) 3 3
    (fun i p => shflValue i i.g ty.wide a b mode.toNat p)
    (fun i r => if (i.worst ty.wide [.op a] r).worse (i.worst false [.op b] r) == .d then .skip else .fit [])
    (fun _ _ => false)

/-- The ballot of a predicate (R154): bit k for a participant where it is true. -/
def ballot (i : Iss) (a : Opnd) (w : Nat) : BitVec 64 :=
  let m := i.g.pmask (predNum a)
  maskOf (i.on.filter fun k => decide (k < w) && m.getLsbD k)

/-- `vote` (R154). -/
def execVote (k : Ctl) (m : VoteMode) (d a : Opnd) (s : State) : Host.Outcome State Fault Refusal :=
  let mask (words : Nat) := s.valueWith true k [dstVS d words, predS a] d words 3 3
    (fun i _ => ballot i a (32 * words)) (fun i _ => .form (uniformForms (ballot i a (32 * words)) words))
    (fun _ _ => true)
  let bit (i : Iss) (p : Nat) : Bool := (i.g.pmask (predNum a)).getLsbD p
  match m with
  | .ballot32 => mask 1
  | .ballot64 => mask 2
  | .any => s.predWith true k [predN d, predS a] (predNum d) 3 3 (fun i _ => i.on.any (bit i))
  | .all => s.predWith true k [predN d, predS a] (predNum d) 3 3 (fun i _ => i.on.all (bit i))

/-- `elect` (R155). -/
def execElect (k : Ctl) (d : Opnd) (s : State) : Host.Outcome State Fault Refusal :=
  s.predWith true k [predN d] (predNum d) 3 3 (fun i p => i.on.head? == some p)

/-- One step of a reduction (R156). -/
def redStep (op : RedOp) (ty : Ty) (a b : BitVec 64) : BitVec 64 :=
  match op with
  | .add => a + b
  | .min => valMin ty a b
  | .max => valMax ty a b
  | .and => a &&& b
  | .or => a ||| b
  | .xor => a ^^^ b

/-- The identity of a reduction (R157). -/
def redUnit (op : RedOp) (ty : Ty) : BitVec 64 :=
  match op with
  | .add | .or | .xor => 0#64
  | .min => if tySigned ty then 0x7FFFFFFF#64 else 0xFFFFFFFF#64
  | .max => if tySigned ty then 0x80000000#64 else 0#64
  | .and => 0xFFFFFFFF#64

/-- The reduction of a source over some positions, ascending. -/
def reduceOver (g : Group) (op : RedOp) (ty : Ty) (a : Opnd) (ps : List Nat) : BitVec 64 :=
  ps.foldl (fun x p => redStep op ty x (g.src false (.op a) p)) (redUnit op ty)

/-- `gred` (R156). -/
def execGred (k : Ctl) (op : RedOp) (ty : Ty) (d a : Opnd) (s : State) : Host.Outcome State Fault Refusal :=
  s.valueWith true k [dstVS d, src1 a] d 1 3 3 (fun i _ => reduceOver i.g op ty a i.on)
    (fun i r => if i.worst false [.op a] r == .d then .skip
      else .form (uniformForms (reduceOver i.g op ty a i.on) 1))
    (fun _ _ => true)

/-- `gscan` (R157): every range record of the run expands. -/
def execGscan (k : Ctl) (op : RedOp) (ty : Ty) (excl : Bool) (d a : Opnd) (s : State) :
    Host.Outcome State Fault Refusal :=
  s.valueWith true k [dstVS d, src1 a] d 1 3 3
    (fun i p => reduceOver i.g op ty a (i.on.filter fun j => if excl then decide (j < p) else decide (j ≤ p)))
    (fun _ _ => .x) (fun _ _ => false)

end Sys2Proof.Machine
end

