-- ==== Sys2Proof/Machine/RangeForm.lean ====
section
/-!
DEFINITION. The form and range instructions (R136-R141).
-/

namespace Sys2Proof.Machine

/-- The index value of a team index (R137). -/
def idxValue (t : Task) (team i : Nat) (dim : Nat) : Nat :=
  let tx := team % t.gx
  let ty := team / t.gx % t.gy
  let tz := team / (t.gx * t.gy)
  match dim with
  | 0 => tx * t.tx + i % t.tx
  | 1 => ty * t.ty + i / t.tx % t.ty
  | 2 => tz * t.tz + i / (t.tx * t.ty)
  | _ => i

/-- The form that `idx` states for the fitting case: on a one-dimensional team x is (tx·TX + g·W, 1),
and the index itself is (g·W, 1) (R123, R137). -/
def idxForm (t : Task) (team g w : Nat) (dim : Nat) : List Form :=
  if dim = 0 ∧ t.ty = 1 ∧ t.tz = 1 then [⟨.a, w32 (team % t.gx * t.tx + g * w), 1#32⟩]
  else if dim = 3 then [⟨.a, w32 (g * w), 1#32⟩]
  else []

/-- `idx` (R137). -/
def execIdx (k : Ctl) (d : Opnd) (dim : BitVec 2) (s : State) : Host.Outcome State Fault Refusal :=
  s.valueOp k [dstVS d] d 1 1 2
    (fun i p => BitVec.ofNat 64 (idxValue i.task i.t.t (i.g.g * i.g.width + p) dim.toNat))
    (fun i _ => .fit (idxForm i.task i.t.t i.g.g i.g.width dim.toNat)) (fun _ _ => false)

/-- The item of `rngget` for a record (R138). -/
def rngItem (lane : Bool) (b st n sel : Nat) : Word :=
  match sel with
  | 0 => w32 b
  | 1 => w32 st
  | 2 => w32 n
  | _ => w32 (b + st * 2 ^ 8 + n * 2 ^ 16 + (if lane then 2 ^ 24 else 0))

/-- A U result of each record that is read from the record as it issues: a record that a partial guard
expands issues as lane records (R92, R121). -/
def State.recordOp (s : State) (k : Ctl) (ns : List Need) (d : Opnd) (f : Iss → Rec → Word) :
    Host.Outcome State Fault Refusal :=
  let own (i : Iss) (r : Rec) : Form := ⟨.u, f i r, 0#32⟩
  let val (i : Iss) (p : Nat) : BitVec 64 :=
    match i.g.recAt p with
    | some r =>
      if !r.lane && i.partialPlan d r [own i r] == .expand then (f i (r.laneOf p)).setWidth 64
      else (f i r).setWidth 64
    | none => 0#64
  s.valueOp k ns d 1 1 2 val (fun i r => .form [own i r]) (fun _ _ => true)

/-- `rngget` (R138). -/
def execRngget (k : Ctl) (d : Opnd) (item : BitVec 2) (s : State) : Host.Outcome State Fault Refusal :=
  s.recordOp k [dstVS d] d (fun _ r => rngItem r.lane r.b r.s r.n item.toNat)

/-- The item of `formget` for a source in a record (R139): c0, c1 or the class code. An L register
reads its lane value and zero. -/
def formItem (g : Group) (r : Rec) (o : Opnd) (sel : Nat) : Word :=
  match g.clsOf r o with
  | .l => match sel with
    | 0 => (match o with
      | .v n => g.vAt n.val r.b
      | _ => g.word o r.b)
    | 1 => 0#32
    | _ => 2#32
  | .d => 0#32
  | c =>
    let f := g.srcForm r (.op o) 0
    match sel with
    | 0 => f.c0
    | 1 => f.c1
    | _ => if c = .u then 0#32 else 1#32

/-- `formget` (R139). -/
def execFormget (k : Ctl) (d a : Opnd) (item : BitVec 2) (s : State) : Host.Outcome State Fault Refusal :=
  s.recordOp k [dstVS d, src1 a] d (fun i r => formItem i.g r a item.toNat)

/-- An instruction of the run that writes no register and reshapes records; latency 1 (R140, R141). -/
def State.reshape (s : State) (k : Ctl) (chk : Iss → Except Stop Unit) (f : Iss → Group → Group) :
    Host.Outcome State Fault Refusal :=
  s.issue k fun i =>
    match chk i with
    | .error e => .error e
    | .ok _ => .ok (s.finish i i.g i.g [] 0 0 [⟨1, i.run.length, []⟩] (fun g => i.advance (f i g)))

/-- `expand` (R99, R140). -/
def execExpand (k : Ctl) (s : State) : Host.Outcome State Fault Refusal :=
  s.reshape k (fun i => i.check []) (fun i g => g.expand i.inRun)

/-- Range records that a group can draw, its merges counted (R84). -/
def State.avail (s : State) (i : Iss) : Nat :=
  ({ s with groups := s.groups.set i.gi i.g } : State).drawable i.g

/-- `rerange` (R104, R140). -/
def execRerange (k : Ctl) (s : State) : Host.Outcome State Fault Refusal :=
  s.reshape k (fun i => i.check []) (fun i g => g.rerange i.inRun (s.avail i))

/-- Registers of a record become dead (R141). -/
def Rec.kill (r : Rec) (n cnt : Nat) : Rec := { r with forms := r.forms.filter fun e => e.1 < n || n + cnt ≤ e.1 }

/-- `dead` (R141): registers vA to vA + count - 1 of every record of the run. -/
def execDead (k : Ctl) (a : Opnd) (cnt : BitVec 6) (s : State) : Host.Outcome State Fault Refusal :=
  s.reshape k (fun i => i.check ([⟨a, [.v], 1, 0⟩] ++ (if opNum a + cnt.toNat ≤ 63 then [] else [badNeed])))
    (fun i g => { g with recs := g.recs.map fun r => if i.inRun r then r.kill (opNum a) (cnt.toNat + 1) else r })

end Sys2Proof.Machine
end

