-- ==== Sys2Proof/Machine/Control.lean ====
section
/-!
DEFINITION. Control transfer (R143-R151): targets and their checks (R46, R47, R144), splitting at a
divergent transfer (R96-R98), links, and the exit of positions (R105).
-/

namespace Sys2Proof.Machine

/-- The next slot of a PC, as the destination of a position that does not transfer (R144). -/
def fallDest (pc : Addr) : Dest := some (nextPc pc)

/-- A target lies in range and on a legal slot (R144, step 1): bits [63:56] name a bound in bounded
mode and are zero in lazy mode. -/
def targetInRange (bounded : Bool) (t : Option Addr) : Bool :=
  match t with
  | some a => pcLegal a && (bounded || decide (a.toNat < 2 ^ 56))
  | none => false

/-- Illegal instruction at the eldest record with a failing position; AUX 0 (R353). -/
def illegalAt (cause : Nat) (bad : List Nat) : Except Stop Unit :=
  match bad with
  | k :: _ => .error (.trap 0x01 cause 0#32 (some k))
  | [] => .ok ()

/-- Guarded positions of the run in age order of their records. -/
def Iss.onByAge (i : Iss) : List Nat := i.run.flatMap i.onIn

/-- All positions of the run in age order of their records. -/
def Iss.allByAge (i : Iss) : List Nat := allPositions i.run

/-- The end and target checks of a transfer (R46, R47), decided together: the eldest record that fails
either, "end" before "target" at one position. -/
def State.endTarget (s : State) (i : Iss) (always : Bool) (tgt : Nat → Option Addr) : Except Stop Unit :=
  let on := i.on
  let endBad (k : Nat) : Bool :=
    s.atEnd i.ci i.ctx i.pc && (always || !on.contains k || tgt k == fallDest i.pc)
  let tgtBad (k : Nat) : Bool :=
    on.contains k && (match tgt k with
      | some a => !s.targetOk i.ci i.ctx a
      | none => false)
  match i.allByAge.find? (fun k => endBad k || tgtBad k) with
  | some k => illegalAt (if endBad k then 3 else 7) [k]
  | none => .ok ()

/-- The checks of a transfer in the order of R144: PC range, bound check of an indirect target, then
"end" and TARGET. -/
def State.checkTargets (s : State) (i : Iss) (indirect always : Bool) (tgt : Nat → Option Addr) : Except Stop Unit :=
  match illegalAt 2 (i.onByAge.filter fun k => !targetInRange i.ctx.bounded (tgt k)) with
  | .error e => .error e
  | .ok _ =>
    let bad := if i.ctx.bounded && indirect then
      i.onByAge.filter fun k => !i.ctx.boundOk permX ((tgt k).getD 0#64) 12 else []
    match i.failAccess causeBound bad with
    | .error e => .error e
    | .ok _ => s.endTarget i always tgt

/-- Split, expand and move the run's records to their outcomes (R96-R98, R144): a divergent transfer
closes the group's windows. -/
def State.moveRun (s : State) (i : Iss) (dest : Nat → Dest) (g : Group) : Group :=
  let t := transferAll i.inRun dest (s.avail i) g.recs
  { g with recs := t.1, lanes := spSetAll 0#32 g.lanes t.2,
           windows := if diverges i.run dest then [] else g.windows }

/-- The link writes of `call` and `callx`: a U pair at every position of each record, taken or not
(R147, R148). -/
def Iss.linkWrites (i : Iss) (d : Opnd) (rs : List Rec) : List RegWrite :=
  if i.k.nwb || rs.isEmpty then []
  else
    let link := nextPc i.pc
    let ps := allPositions rs
    match d with
    | .v n => (List.range 2).map fun j => .v (n.val + j) (wordsAt (fun _ => word link) ps j) (uniformForms link 2)[j]?
    | .s n => (List.range 2).map fun j => .s (n.val + j) (word link j)
    | _ => []

/-- A control transfer whole. `pre` holds the checks that come before the targets, `tgt` the target of a
position whose guard is true (for `exit`, none: the position leaves), `link` the link's destination. Each record's sources
are read at its own pass (R112). -/
def State.transferOp (s : State) (k : Ctl) (ns : List Need) (pre : Iss → (Nat → Iss) → Except Stop Unit)
    (indirect always leaves : Bool) (tgt : Iss → Nat → Option Addr) (link : Opnd) :
    Host.Outcome State Fault Refusal :=
  s.issue k fun i =>
    match i.check ns with
    | .error e => .error e
    | .ok _ =>
      let t := i.timed false (readRegs ns) i.g
      let target (p : Nat) : Option Addr := tgt (t p) p
      match pre i t with
      | .error e => .error e
      | .ok _ =>
        match (if leaves then s.endTarget i always (fun _ => none) else s.checkTargets i indirect always target) with
        | .error e => .error e
        | .ok _ =>
          let on := i.on
          let dest (p : Nat) : Dest := if on.contains p then (if leaves then none else target p) else fallDest i.pc
          let s' := s.finish i i.g i.g (readRegs ns) 0 0
            [⟨1, (i.ranges i.g).length, i.linkWrites link (i.ranges i.g)⟩,
             ⟨2, (i.lanes i.g).length, i.linkWrites link (i.lanes i.g)⟩] (s.moveRun i dest)
          .ok (if leaves then s'.afterExit i.gi else s')

/-- The target of a signed slot displacement (R145). -/
def dispTarget (pc : Addr) (d : Int) : Option Addr := slotPc pc (slotNum pc + d)

/-- `bra` (R145). -/
def execBra (k : Ctl) (disp : BitVec 20) (s : State) : Host.Outcome State Fault Refusal :=
  s.transferOp k [] (fun _ _ => .ok ()) false false false (fun i _ => dispTarget i.pc disp.toInt) .zr

/-- The table of `brx`: n registers from sT, all at or below s55 (R146). -/
def brxTableOk (b : Opnd) (n : Nat) : Bool :=
  match b with
  | .s t => n != 0 && decide (t.val + n ≤ 56)
  | _ => false

/-- `brx` (R146). -/
def execBrx (k : Ctl) (a b : Opnd) (n : BitVec 6) (s : State) : Host.Outcome State Fault Refusal :=
  s.transferOp k ([src1 a] ++ (if brxTableOk b n.toNat then [] else [badNeed]))
    (fun i t => failAt 0x08 0 (i.onByAge.filter fun p => decide (n.toNat ≤ ((t p).g.word a p).toNat)))
    true false false
    (fun i p => dispTarget i.pc (spGet 0#32 i.g.s (opNum b + (i.g.word a p).toNat)).toInt) .zr

/-- `call` (R147). -/
def execCall (k : Ctl) (d : Opnd) (disp : BitVec 20) (s : State) : Host.Outcome State Fault Refusal :=
  s.transferOp k [dstVS d 2] (fun _ _ => .ok ()) false true false (fun i _ => dispTarget i.pc disp.toInt) d

/-- `callx` (R148). -/
def execCallx (k : Ctl) (d a : Opnd) (s : State) : Host.Outcome State Fault Refusal :=
  s.transferOp k [dstVS d 2, src2 a] (fun _ _ => .ok ()) true false false (fun i p => some (i.g.pair a p)) d

/-- `ret` (R149). -/
def execRet (k : Ctl) (a : Opnd) (s : State) : Host.Outcome State Fault Refusal :=
  s.transferOp k [src2 a] (fun _ _ => .ok ()) false false false (fun i p => some (i.g.pair a p)) .zr

/-- `exit` (R105, R150). -/
def execExit (k : Ctl) (s : State) : Host.Outcome State Fault Refusal :=
  s.transferOp k [] (fun _ _ => .ok ()) false false true (fun _ _ => none) .zr

/-- `nop` (R151). -/
def execNop (k : Ctl) (s : State) : Host.Outcome State Fault Refusal :=
  s.reshape k (fun i => i.check []) (fun _ g => g)

end Sys2Proof.Machine
end

