-- ==== Sys2Proof/Machine/Engine.lean ====
section
/-!
DEFINITION. Engine commands `copy`, `copyw`, `rload` (R237-R241), queue instructions `qpeek`, `qstat`,
`qbind` (R243-R245), and the result of a hint that is not carried out (R58) with `pref` (R246).
-/

namespace Sys2Proof.Machine

/-! Engine commands -/

/-- The end of the aperture row that holds an address (R201). -/
def Iss.rowEnd (i : Iss) : Aper → Nat
  | .spad => i.seat.footLen
  | .partner => if i.kern.paired then (i.t.seat (corePartner i.g.core)).footLen else 0
  | .creamery => 2 ^ 30
  | .global => 0x00FE000000000000
  | _ => 0

/-- The checks of n bytes of a command from an address on (R30, R201, R239): the cause of a failure. -/
def Iss.rangeFault (i : Iss) (perm : Nat) (admits : List Aper) (n : Nat) (va : Addr) : Option Nat :=
  let (ap, o) := i.aper va
  if !i.ctx.boundOk perm va n then some causeBound
  else if !admits.contains ap || decide (i.rowEnd ap < o + n) then some causeAperture
  else none

/-- A bound violation with a cause, or none. -/
def boundStop : Option Nat → Except Stop Unit
  | some c => .error (badBound c)
  | none => .ok ()

/-- Pieces of a move, each one element: they end at the 64 KiB pages of either end (R228), but a unit of `gran` bytes that
is moved whole is never cut (R240). -/
def movePieces (gran : Nat) : Nat → Addr → Addr → Nat → List Elem
  | 0, _, _, _ => []
  | fuel + 1, d, sa, n =>
    if n = 0 then []
    else
      let room := Nat.max gran ((65536 - sa.toNat % 65536) / gran * gran)
      let l := Nat.min n (Nat.min (65536 - d.toNat % 65536) room)
      { mkElem [] d l 0#128 with src := sa } :: movePieces gran fuel (d + BitVec.ofNat 64 l) (sa + BitVec.ofNat 64 l) (n - l)

/-- The shared shape of an engine command (R237, R238): `body` makes its checks and gives its moves and what
the issue further does. -/
def State.engineCmd (s : State) (k : Ctl) (ins : Instr) (op : SlotOp) (gran : Nat) (a b : Opnd) (third : Need) (tag : Nat)
    (qord : Bool) (body : Iss → Except Stop (List (Addr × Addr × Nat) × (State → State))) : Host.Outcome State Fault Refusal :=
  s.issue k fun i => do
    i.notInHandler
    let ns := [pairN a, pairN b, third] ++ (if i.kern.tags ≤ tag then [badNeed] else [])
    i.check ns
    i.uniform true a
    i.uniform true b
    i.uniform false third.o
    let n := i.run.length
    if !i.acts then .ok (s.finish i i.g i.g (readRegs ns) 0 0 [⟨1, n, []⟩] i.advance)
    else if !i.t.tagBit (i.tagIx tag) then .error (.block (.tag (i.tagIx tag)))
    else
      let (moves, then_) ← body i
      s.watchCheck i ((moves.map fun mv => (i.actPos, watchRead, mv.2.1, mv.2.2)) ++
        moves.map fun mv => (i.actPos, watchWrite, mv.1, mv.2.2))
      match i.g.freeSlot with
      | none => .error .hold
      | some num =>
        let els := moves.flatMap fun mv => movePieces gran 256 mv.1 mv.2.1 mv.2.2
        let slot := i.newSlot num (s.ord + 1) ins op els 0 none n .none 0 qord
        let s2 := s.modTeam i.ti fun t => { t with tagBits := t.tagBits &&& ~~~(BitVec.twoPow 128 (i.tagIx tag)) }
        .ok (then_ (s2.finish i i.g (i.g.addSlot { slot with tag := i.tagIx tag, hold := 0 }) (readRegs ns) 0 n [] i.advance))

/-- The largest command (R239-R241). -/
def maxMove : Nat := 0x400000

/-- The two addresses of a command. -/
def Iss.cmdEnds (i : Iss) (a b : Opnd) (off : BitVec 12) : Addr × Addr :=
  (i.upair a + off.signExtend 64, i.upair b)

/-- `copy` (R239). -/
def execCopy (k : Ctl) (a b c : Opnd) (tag : BitVec 6) (qord : Bool) (off : BitVec 12) (s : State) :
    Host.Outcome State Fault Refusal :=
  s.engineCmd k (.copy k a b c tag qord off) .copy 1 a b ⟨c, [.v, .s, .zr], 1, 1⟩ tag.toNat qord fun i => do
    let (d, sa) := i.cmdEnds a b off
    let n := (i.uword c).toNat
    if d.toNat % 4 != 0 || sa.toNat % 4 != 0 then .error (badBound causeAlign)
    else if n % 4 != 0 || decide (maxMove < n) then .error (badBound causeLength)
    else
      boundStop (i.rangeFault permW [.spad, .partner, .global] n d)
      boundStop (i.rangeFault permR [.spad, .partner, .global] n sa)
      .ok ([(d, sa, n)], id)

/-- `copyw` (R240). -/
def execCopyw (k : Ctl) (a b c : Opnd) (tag : BitVec 6) (qord : Bool) (off : BitVec 12) (s : State) :
    Host.Outcome State Fault Refusal :=
  s.engineCmd k (.copyw k a b c tag qord off) .copyw 64 a b ⟨c, [.v, .s, .zr], 1, 1⟩ tag.toNat qord fun i => do
    let (d, sa) := i.cmdEnds a b off
    let n := (i.uword c).toNat
    if d.toNat % 64 != 0 || sa.toNat % 4 != 0 then .error (badBound causeAlign)
    else if n % 64 != 0 || decide (maxMove < n) then .error (badBound causeLength)
    else
      boundStop (i.rangeFault permW [.creamery] n d)
      boundStop (i.rangeFault permR [.spad, .partner, .global] n sa)
      .ok ([(d, sa, n)], id)

/-- The rows of a packed tile (R241): destination, source, bytes. -/
def rloadRows (x : BitVec 640) (d : Addr) (rb sp : Nat) (at_ : Nat → Addr) : List (Addr × Addr × Nat) :=
  (List.range (shpNc x)).flatMap fun j =>
    (List.range (shpBd x (j + 1) - shpBd x j)).map fun r =>
      (d + BitVec.ofNat 64 ((shpBd x j + r) * shpPitch x), at_ j + BitVec.ofNat 64 (r * sp), rb)

/-- The first failure of the rows' checks: sources in the global window ("length"), destinations in the
footprint ("aperture"); an address outside its bound fails as R30 says. -/
def Iss.rowsFault (i : Iss) (rows : List (Addr × Addr × Nat)) : Option Nat :=
  rows.findSome? fun mv =>
    match i.rangeFault permR [.global] mv.2.2 mv.2.1 with
    | some c => some (if c = causeBound then causeBound else causeLength)
    | none => i.rangeFault permW [.spad] mv.2.2 mv.1

/-- `rload` (R241): the shape and the curd table are read at issue. -/
def execRload (k : Ctl) (a b c : Opnd) (tag : BitVec 6) (qord : Bool) (off : BitVec 12) (s : State) :
    Host.Outcome State Fault Refusal :=
  s.engineCmd k (.rload k a b c tag qord off) .rload 1 a b ⟨c, [.shp], 1, 0⟩ tag.toNat qord fun i => do
    let (d, sa) := i.cmdEnds a b off
    let n := opNum c
    let x := s.shape i.g i.t n
    let nc := shpNc x
    if shpCols x then .error (badOperand 6)
    else if sa.toNat % 8 != 0 then .error (badBound causeAlign)
    else
      boundStop (i.rangeFault permR [.spad] (8 + 8 * nc) sa)
      if i.g.atomPending (i.placeOf sa 0) (8 + 8 * nc) (s.ord + 1) then .error .hold
      let tbl (o w : Nat) : Nat := s.readPlace i.g (i.placeOf (sa + BitVec.ofNat 64 o) 0) w (s.ord + 1)
      let rb := tbl 0 4
      let sp := tbl 4 4
      let at_ (j : Nat) : Addr := BitVec.ofNat 64 (tbl (8 + 8 * j) 8)
      let rows := rloadRows x d rb sp at_
      let live := (List.range nc).filter fun j => decide (shpBd x j < shpBd x (j + 1))
      if decide (rb < 4) || decide (shpPitch x < rb) || rb % 4 != 0 || decide (sp < rb) || sp % 4 != 0 ||
          decide (maxMove < rows.length * rb) || live.any (fun j => (at_ j).toNat % 4 != 0) then
        .error (badBound causeLength)
      else
        boundStop (i.rowsFault rows)
        .ok (rows, fun t => t.sawShape i.gi n (s.shapeIdx i.g i.t n))

/-! Queue instructions (R243-R245) -/

/-- `qpeek` (R243): the head entry, popped or left. -/
def execQpeek (k : Ctl) (d a : Opnd) (pop : Bool) (s : State) : Host.Outcome State Fault Refusal :=
  s.issue k fun i => do
    i.notInHandler
    i.check [dstVS d, ⟨a, [.dq], 1, 0⟩]
    let q := opNum a
    let entry ← (if i.acts then i.popCheck q else .ok [])
    let isS := match d with | .s _ => true | _ => false
    let val (p _j : Nat) : Word := entry.getD (if isS then 0 else p) 0#32
    let v ← i.values d 1 val (fun _ => if isS then .form [⟨.u, entry.getD 0 0#32, 0#32⟩] else .fit []) (fun _ => isS)
    let s1 := if i.acts && pop then s.popQueue i.ti (i.queueIx q) else s
    .ok (s1.finishValues i [] 2 2 v)

/-- Code of a queue end (R244). -/
def endCode : QEnd → Nat
  | .unbound => 0
  | .group _ => 1
  | .pail => 2

/-- Group number of a queue end. -/
def endGroup : QEnd → Nat
  | .group g => g % 64
  | _ => 0

/-- The status word of a queue (R244). -/
def Queue.status (q : Queue) : Word :=
  w32 (q.entries.length + bitNat q.gone 8 + bitNat q.pois 9 + bitNat q.cgone 10 +
    endCode q.prod * 2 ^ 12 + endCode q.cons * 2 ^ 14 + endGroup q.prod * 2 ^ 16 + endGroup q.cons * 2 ^ 22)

/-- `qstat` (R244). -/
def execQstat (k : Ctl) (d a : Opnd) (s : State) : Host.Outcome State Fault Refusal :=
  s.valueOp k [⟨d, [.s, .zr], 1, 0⟩, ⟨a, [.dq], 1, 0⟩] d 1 1 1
    (fun i _ => (((i.queue (opNum a)).map Queue.status).getD 0#32).setWidth 64)
    (fun i _ => .form [⟨.u, ((i.queue (opNum a)).map Queue.status).getD 0#32, 0#32⟩]) (fun _ _ => true)

/-- A queue as `qbind` leaves it, or none where another holds the end (R245). -/
def Queue.bind (q : Queue) (mode g : Nat) : Option Queue :=
  let mine := QEnd.group g
  match mode with
  | 0 => if q.prod = mine then some q
         else if q.prod = .unbound then some { q with prod := mine, gone := false } else none
  | 1 => if q.cons = mine then some q
         else if q.cons = .unbound then some { q with cons := mine, cgone := false } else none
  | 2 => if q.prod = mine then some { q with prod := .unbound } else if q.prod = .unbound then some q else none
  | _ => if q.cons = mine then some { q with cons := .unbound } else if q.cons = .unbound then some q else none

/-- `qbind` (R245). -/
def execQbind (k : Ctl) (a : Opnd) (mode : BitVec 2) (s : State) : Host.Outcome State Fault Refusal :=
  s.issue k fun i => do
    i.notInHandler
    i.check [⟨a, [.dq], 1, 0⟩]
    let done (s : State) : State := s.finish i i.g i.g [] 0 0 [⟨1, i.run.length, []⟩] i.advance
    if !i.acts then .ok (done s)
    else
      match (i.queue (opNum a)).bind fun q => q.bind mode.toNat i.g.g with
      | none => .error (badOperand 4)
      | some q => .ok (done (s.modQueue i.ti (i.queueIx (opNum a)) fun _ => q))

/-! Hints (R58) -/

/-- The destination of a hint word that a result reaches: an s or v register, or none. -/
def hintDst (f : HintFields) : Opnd :=
  match Opnd.ofCode f.dst with
  | .v n => .v n
  | .s n => .s n
  | _ => .zr

/-- A uniform word as the result of the run, class U at every position whose guard is true: a range record whose guard
is true at some of its positions expands, and its lane records take the word as U (R58). -/
def Iss.hintValues (i : Iss) (d : Opnd) (w : Word) : Except Stop Values :=
  (i.values d 1 (fun _ _ => w) (fun _ => .form [⟨.u, w, 0#32⟩]) (fun _ => true)).map fun v =>
    { v with lane := (i.inOrder.filter fun r => r.lane || i.partialPlan d r [⟨.u, w, 0#32⟩] == .expand).flatMap fun r =>
        i.dstWrites d 1 (fun _ _ => w) (i.onIn r) [⟨.u, w, 0#32⟩] ++
          i.latchWrites 1 (fun _ _ => w) (i.onIn r) [⟨.u, w, 0#32⟩] }

/-- A hint that is not carried out, or whose fields break its entry: the default result, at latency 1,
and nothing else (R58). -/
def State.hintDefault (s : State) (i : Iss) (d : Opnd) (dflt : BitVec 16) : Except Stop State :=
  (i.hintValues d (dflt.setWidth 32)).map fun v => s.finishValues i [] 1 1 v

/-- The first global address of a `pref` (R246). -/
def prefAddr (i : Iss) (f : HintFields) : Addr := i.upair (Opnd.ofCode f.a)

/-- The fields of a `pref` keep its limits (R246). -/
def prefOk (f : HintFields) : Bool :=
  f.dst == 0xFF#8 && f.b == 0#8 && f.c == 0#8 && f.md == 0#6 && decide ((f.imm >>> 16).toNat ≤ 6) &&
    (f.imm &&& 0xFFFF#20) == 0#20 && (match Opnd.ofCode f.a with | .s n => n.val % 2 == 0 | _ => false)

/-- The translations of n pages from an address on, where a `pref` may load them (R246): mapped, in the global window and
within the bound. A large page counts as one. -/
def State.prefPages (s : State) (ci : Nat) (ctx : Context) (idx : Nat) : Nat → Nat → List TlbEnt
  | 0, _ => []
  | n + 1, a =>
    if creameryTile * 65536 ≤ a then []
    else
      match s.tlbEnt ci ctx.root a with
      | some e =>
        (if ctx.inBound (BitVec.ofNat 64 (idx * 2 ^ 56 + a)) 1 then [e] else []) ++
          s.prefPages ci ctx idx n ((a / 2 ^ e.shift + 1) * 2 ^ e.shift)
      | none => s.prefPages ci ctx idx n ((a / 65536 + 1) * 65536)

/-- The translations that a `pref` word loads. -/
def Iss.prefEnts (i : Iss) (s : State) (f : HintFields) : List TlbEnt :=
  if prefOk f && i.acts then
    s.prefPages i.ci i.ctx ((prefAddr i f).toNat / 2 ^ 56) (2 ^ (f.imm >>> 16).toNat) ((prefAddr i f).toNat % 2 ^ 56)
  else []

/-- `pref` (R246): translations enter the cluster's L2 TLB; a broken word is a hint that does nothing (R58). -/
def execPref (k : Ctl) (f : HintFields) (s : State) : Host.Outcome State Fault Refusal :=
  s.issue k fun i =>
    .ok ((s.fillL2 (coreCluster i.g.core) (i.prefEnts s f)).finish i i.g i.g [] 0 0 [⟨1, i.run.length, []⟩] i.advance)

end Sys2Proof.Machine
end

