-- ==== Sys2Proof/Machine/Sync.lean ====
section
/-!
DEFINITION. Barriers, fences and waits (R320-R335).
-/

namespace Sys2Proof.Machine

/-- A source that must be a U register, a bc register among them (R90, R320, R361); 0xFF reads zero (R40). -/
def uReg (o : Opnd) : Need := ⟨o, [.v, .s, .bc, .zr], 1, 1⟩

/-- A barrier of the team. -/
def Iss.barrier (i : Iss) (n : Nat) : Barrier := (i.t.barriers[n]?).getD ⟨0#32, [], []⟩

/-- The phase of a barrier of a team. -/
def State.phaseOf (s : State) (ti n : Nat) : Option Word := ((s.teams[ti]?).bind fun t => t.barriers[n]?).map Barrier.phase

/-- `bar` (R326): the run's records block and the group may arrive; where that completes the phase, the run goes on
without standing at the blocking point, and other groups' records are released by their own events. -/
def execBar (k : Ctl) (n scope : BitVec 3) (s : State) : Host.Outcome State Fault Refusal :=
  s.issue k fun i => do
    i.notInHandler
    i.check []
    if !i.acts then .ok (s.passRun i [])
    else
      let c : Cond := .bar n.toNat (i.barrier n.toNat).phase scope.toNat
      let s1 := ((s.blockRun i c none 0#32).autoArrive i.gi).sweepBarriers i.ti
      .ok (if s1.phaseOf i.ti n.toNat = s.phaseOf i.ti n.toNat then s1 else { s.passAt i c [] with teams := s1.teams })

/-- `bararr` (R327): it acts as a release at its issue (R325). -/
def execBararr (k : Ctl) (d : Opnd) (n scope : BitVec 3) (s : State) : Host.Outcome State Fault Refusal :=
  s.issue k fun i => do
    i.notInHandler
    i.check [⟨d, [.s, .zr], 1, 0⟩]
    if !i.acts then .ok (s.passRun i [])
    else
      let s1 := (s.passRun i (i.sWrite d (i.barrier n.toNat).phase)).modGroup i.gi fun g =>
        g.release scope.toNat (s.ord + 1) i.kern.paired
      .ok ((s1.arrive i.ti n.toNat i.g.g scope.toNat s1.ord).sweepBarriers i.ti)

/-- The difference of a token and the phase (R328). -/
def tokenDiff (token phase : Word) : Int := (token - phase).toInt

/-- `barwait` (R328). -/
def execBarwait (k : Ctl) (a : Opnd) (n : BitVec 3) (s : State) : Host.Outcome State Fault Refusal :=
  let diff (i : Iss) : Int := tokenDiff (i.uword a) (i.barrier n.toNat).phase
  s.waitOp k .zr
    (fun i => do
      i.notInHandler
      i.check [uReg a]
      i.uniform false a
      if i.acts && (decide (0 < diff i) || (decide (diff i = 0) && !(i.barrier n.toNat).marks.contains i.g.g)) then
        .error (badOperand 12)
      else .ok ())
    (fun i => if diff i < 0 then some 0#32 else none)
    (fun i => .barwait n.toNat (i.barrier n.toNat).phase)

/-- A fence whole (R329): it holds the group's next issue until the earlier operations are performed. -/
def State.fenceOp (s : State) (k : Ctl) (kind scope : Nat) (f : Group → Group) : Host.Outcome State Fault Refusal :=
  s.issue k fun i => do
    i.check []
    let n := i.run.length
    if !i.acts then .ok (s.passRun i [])
    else if i.g.earlierDone kind scope i.kern.paired (s.ord + 1) then
      .ok (s.finish i i.g (f i.g) [] 0 0 [⟨1, n, []⟩] i.advance)
    else
      let hold : FenceHold := ⟨kind, scope, s.ord + 1, k.sig.toNat, n⟩
      .ok (s.finish i i.g (f { i.g with fences := i.g.fences ++ [hold] }) [] 0 n [] i.advance)

/-- `fence` (R329): kind 0 full, 1 acquire, 2 release. -/
def execFence (k : Ctl) (kind : BitVec 2) (scope : BitVec 3) (s : State) : Host.Outcome State Fault Refusal :=
  s.fenceOp k kind.toNat scope.toNat id

/-- `aliasfence` (R330): a full fence that also ends forwarding to later reads. -/
def execAliasfence (k : Ctl) (scope : BitVec 3) (s : State) : Host.Outcome State Fault Refusal :=
  s.fenceOp k fenceFull scope.toNat fun g => { g with aliasOrd := s.ord + 1 }

/-- `qfence` (R331): a mark in the group's engine queue. -/
def execQfence (k : Ctl) (scope : BitVec 3) (s : State) : Host.Outcome State Fault Refusal :=
  s.issue k fun i => do
    i.check []
    let mark : List QMark := if i.acts then [⟨s.ord + 1, scope.toNat⟩] else []
    .ok (s.finish i i.g { i.g with marks := i.g.marks ++ mark } [] 0 0 [⟨1, i.run.length, []⟩] i.advance)

/-- `twait` (R332). -/
def execTwait (k : Ctl) (tag : BitVec 6) (s : State) : Host.Outcome State Fault Refusal :=
  s.waitOp k .zr
    (fun i => do
      i.notInHandler
      i.check (if i.kern.tags ≤ tag.toNat then [badNeed] else []))
    (fun i => if i.t.tagBit (i.tagIx tag.toNat) then some 0#32 else none)
    (fun i => .tag (i.tagIx tag.toNat))

/-- `tfirst` (R333). -/
def execTfirst (k : Ctl) (d a : Opnd) (s : State) : Host.Outcome State Fault Refusal :=
  s.waitOp k d
    (fun i => do
      i.notInHandler
      i.check [⟨d, [.s, .zr], 1, 0⟩, ⟨a, [.s, .zr], 2, 2⟩]
      if i.acts && i.upair a >>> i.kern.tags != 0#64 then .error (badOperand 0) else .ok ())
    (fun i => if i.upair a = 0#64 then some 0xFFFFFFFF#32 else (i.t.firstTag i.side (i.upair a)).map w32)
    (fun i => .tagMask (i.upair a))

/-- `bcwait` (R334). -/
def execBcwait (k : Ctl) (a b : Opnd) (s : State) : Host.Outcome State Fault Refusal :=
  s.waitOp k .zr
    (fun i => do
      i.check [⟨a, [.bc, .zr], 1, 1⟩, uReg b]
      i.uniform false b)
    (fun i => if (i.g.word a 0).toNat ≤ (i.uword b).toNat then some 0#32 else none)
    (fun i => .count (opNum a) (i.uword b))

/-- `yield` (R335). -/
def execYield (k : Ctl) (s : State) : Host.Outcome State Fault Refusal :=
  s.waitOp k .zr (fun i => do i.notInHandler; i.check []) (fun _ => none) (fun _ => .yield)

end Sys2Proof.Machine
end

