-- ==== Sys2Proof/Machine/Power.lean ====
section
/-!
DEFINITION. Power phases (R338-R345) and step ticks (R350, R351): `phase`, `phend`, `stepwait`.
-/

namespace Sys2Proof.Machine

/-! Phases -/

/-- Two cores lie in one stacked pair of clusters (R4). -/
def samePair (c d : Nat) : Bool := clusterPair (coreCluster c) == clusterPair (coreCluster d)

/-- The phases of an island's stacked pair (R342): start, counted in the ck of a core's island, and intensity of every
open phase but a group's. -/
def State.schedule (s : State) (core gi : Nat) : List (Nat × Nat) :=
  (s.groups.mapIdx fun j g => (j, g)).filterMap fun p =>
    if p.1 ≠ gi ∧ samePair p.2.core core then
      (p.2.openAt (s.groupCk p.2)).map fun ph => (ph.start + s.ckAt core - s.groupCk p.2, ph.intensity)
    else none

/-- A phase has been granted in this ck to a group that stands after another in the order of R342: core, then group
slot. -/
def State.grantedAfter (s : State) (g : Group) : Bool :=
  s.groups.any fun h =>
    samePair h.core g.core && decide (g.core < h.core ∨ g.core = h.core ∧ g.slot < h.slot) &&
      (h.phase.map fun p => p.granted == s.groupCk h).getD false

/-- The granted start offset (R342). -/
def grantOffset (sched : List (Nat × Nat)) (s0 i : Nat) : Nat :=
  let load (o : Nat) : Nat :=
    ((sched.filter fun p => decide (s0 + o ≤ p.1 + 16) && decide (p.1 < s0 + o + 16)).map fun p => p.2).sum
  ((List.range 256).find? fun o => decide (i + load o ≤ 128)).getD 255

/-- The phase that a request in a ck opens: onset, length, intensity and granted offset (R341). -/
def newPhase (ck onset len i o : Nat) : Phase :=
  { start := ck + onset + o, len := len, intensity := i, offset := o, granted := ck, started := false }

/-- Open a phase for a group (R341): it replaces an open one. -/
def State.openPhase (s : State) (gi onset len i : Nat) : State :=
  match s.groups[gi]? with
  | none => s
  | some g =>
    let ck := s.groupCk g
    let o := grantOffset (s.schedule g.core gi) (ck + onset) i
    s.modGroup gi fun g => { g with phase := some (newPhase ck onset len i o) }

/-- Length of a `phase` word (R341). -/
def phaseLen (f : HintFields) : Nat := f.b.toNat * 256 + f.c.toNat

/-- Intensity of a `phase` word. -/
def phaseInt (f : HintFields) : Nat := (f.imm >>> 16).toNat + 1

/-- A `phase` word keeps its limits (R341). -/
def phaseOk (f : HintFields) : Bool :=
  phaseLen f != 0 && f.md == 0#6 &&
    (match Opnd.ofCode f.dst with | .v _ | .s _ | .zr => true | _ => false)

/-- `phase` (R341); in a handler it is a hint that is not carried out (R359). It waits for the next ck where a grant of
this ck has gone to a group that stands after it (R342). -/
def execPhase (k : Ctl) (f : HintFields) (s : State) : Host.Outcome State Fault Refusal :=
  s.issue k fun i =>
    if !phaseOk f || i.g.serves.isSome then s.hintDefault i (hintDst f) (f.imm.setWidth 16)
    else if i.acts && s.grantedAfter i.g then .error .hold
    else do
      let o := grantOffset (s.schedule i.g.core i.gi) (i.now + f.a.toNat) (phaseInt f)
      let v ← i.hintValues (hintDst f) (w32 o)
      let g := if i.acts then { v.g with phase := some (newPhase i.now f.a.toNat (phaseLen f) (phaseInt f) o) } else v.g
      .ok (s.finishValues i [] 1 1 { v with g := g })

/-- `phend` (R344); any other field makes it a hint that does nothing. -/
def execPhend (k : Ctl) (f : HintFields) (s : State) : Host.Outcome State Fault Refusal :=
  s.issue k fun i =>
    let ok := f.dst == 0xFF#8 && f.a == 0#8 && f.b == 0#8 && f.c == 0#8 && f.md == 0#6 && f.imm == 0#20
    let g := if ok && i.acts then { i.g with phase := none } else i.g
    .ok (s.finish i i.g g [] 0 0 [⟨1, i.run.length, []⟩] i.advance)

/-- `sys.phase_grant` of a group in a ck (R339). -/
def Group.phaseGrant (g : Group) (ck : Nat) : Word :=
  match g.openAt ck with
  | none => 0#32
  | some p =>
    w32 (2 ^ 31 + bitNat (decide (p.start ≤ ck)) 30 + p.intensity * 2 ^ 24 + p.offset * 2 ^ 16 +
      Nat.min 0xFFFF (p.start + p.len - ck))

/-! Step ticks -/

/-- PERIOD and OFFSET of `sys.step_cfg` in ns (R350). -/
def stepPeriod (w : Word) : Nat := (w >>> 22).toNat * 1000
def stepOffset (w : Word) : Nat := (w &&& 0xFFFFF#32).toNat

/-- ns that the ck in which a core stands lasts beyond the present one (R351). -/
def State.ckRest (s : State) (core : Nat) : Nat :=
  let x := s.island (coreCluster core)
  ((List.range 8).find? fun n => x.ckAt (s.now + n + 1) != x.ckAt s.now).getD 0

/-- The least tick whose release falls after a time (R351). -/
def nextTick (w : Word) (t : Nat) : Nat :=
  if t < stepOffset w then 0 else (t - stepOffset w) / stepPeriod w + 1

/-- The tick for which a `stepwait` of a group waits: the least whose release falls after the ck of issue (R351). -/
def State.nextStep (s : State) (core : Nat) : Nat := nextTick s.stepCfg (s.devTime + s.ckRest core)

/-- Device time of the release of a tick (R350). -/
def stepRelease (w : Word) (n : Nat) : Nat := n * stepPeriod w + stepOffset w

/-- `stepwait` (R351). -/
def execStepwait (k : Ctl) (d : Opnd) (s : State) : Host.Outcome State Fault Refusal :=
  s.issue k fun i => do
    i.notInHandler
    i.check [⟨d, [.s, .zr], 1, 0⟩]
    if !i.acts then .ok (s.passRun i [])
    else if stepPeriod s.stepCfg = 0 then .ok (s.passRun i (i.sWrite d 0xFFFFFFFF#32))
    else
      let n := s.nextStep i.g.core
      .ok (s.blockRun i (.release (stepRelease s.stepCfg n)) (i.sDst d) (w32 n))

end Sys2Proof.Machine
end

