-- ==== Sys2Proof/Machine/Tasks.lean ====
section
/-!
DEFINITION. Tasks (R60-R75): task records and their checks, `task`, `taskwait`, `tinfo`, the Churn's
acceptance, and the dependences between teams.
-/

namespace Sys2Proof.Machine

/-! Task records (R60, R61, R65) -/

/-- A task record as read (R60). -/
structure TaskRec where
  kentry : Addr
  gx : Nat
  gy : Nat
  gz : Nat
  tx : Nat
  ty : Nat
  tz : Nat
  nr : Nat
  nw : Nat
  rlist : Nat
  rsv : Nat
  args : List Word
  deriving DecidableEq, Repr

/-- A little-endian field of some bytes. -/
def field (bs : List Byte) (o n : Nat) : Nat := leNat ((bs.drop o).take n)

/-- The record that 64 bytes hold. -/
def TaskRec.ofBytes (bs : List Byte) : TaskRec :=
  { kentry := BitVec.ofNat 64 (field bs 0 8), gx := field bs 8 4, gy := field bs 12 4, gz := field bs 16 4,
    tx := field bs 20 2, ty := field bs 22 2, tz := field bs 24 2, nr := field bs 26 1, nw := field bs 27 1,
    rlist := field bs 28 2, rsv := field bs 30 2, args := (List.range 8).map fun j => w32 (field bs (32 + 4 * j) 4) }

/-- A kernel of a context by its entry (R65, code 2). -/
def Context.kernelAt (c : Context) (entry : Addr) : Option Kernel :=
  (c.objs.flatMap Obj.kernels).find? fun k => k.entry == entry

/-- One size of the grid and of the team (R60). -/
def gridOk (g t : Nat) : Bool := decide (1 ≤ g) && decide (g ≤ 2 ^ 31) && decide (1 ≤ t) && g % t == 0

/-- Signed STEP of an entry (R61). -/
def stepOf (x : Nat) : Int := if x < 2048 then x else (x : Int) - 4096

/-- A range entry as read (R61). -/
def RangeEnt.ofWord (write : Bool) (w : Nat) : RangeEnt :=
  { write := write, base := w / 2 ^ 24, count := w / 2 ^ 14 % 1024, part := nbit w 13, atomicT := nbit w 12,
    step := stepOf (w % 4096) }

/-- The range table of a record (R61): NR read entries, then NW write entries. -/
def rangesOf (r : TaskRec) (bs : List Byte) : List RangeEnt :=
  (List.range (r.nr + r.nw)).map fun j => RangeEnt.ofWord (decide (r.nr ≤ j)) (field bs (8 * j) 8)

/-- The tiles of an entry for team t lie in the global window or the Creamery aperture (R65, code 5). -/
def RangeEnt.inWindow (e : RangeEnt) (t : Nat) : Bool :=
  decide (0 ≤ e.first t) && decide (e.first t + e.count ≤ creameryTile + 16384)

/-- Two entries name a common tile for teams t and u. -/
def RangeEnt.meets (e f : RangeEnt) (t u : Nat) : Bool :=
  decide (e.first t < f.first u + f.count) && decide (f.first u < e.first t + e.count)

/-- Two teams of a task name a common tile in their write sets (R65, code 6). -/
def writesClash (es : List RangeEnt) (teams : Nat) : Bool :=
  let ws := es.filter fun e => e.write
  (List.range teams).any fun t => (List.range t).any fun u => ws.any fun e => ws.any fun f => e.meets f t u

/-- Teams of a task. -/
def TaskRec.teams (r : TaskRec) : Nat := (r.gx / r.tx) * (r.gy / r.ty) * (r.gz / r.tz)

/-- The checks of R65, lowest code first: `table` reads the range table, or none where it does not lie
where it must. -/
def checkTask (c : Context) (r : TaskRec) (table : Nat → Nat → Option (List Byte)) : Except Nat (Kernel × List RangeEnt) :=
  match c.kernelAt r.kentry with
  | none => .error 2
  | some k =>
    if !gridOk r.gx r.tx || !gridOk r.gy r.ty || !gridOk r.gz r.tz || r.tx * r.ty * r.tz != k.team then .error 3
    else if decide (8 < r.nr) || decide (4 < r.nw) || r.rsv != 0 then .error 4
    else
      match table (8 * r.rlist) (8 * (r.nr + r.nw)) with
      | none => .error 4
      | some bs =>
        let es := rangesOf r bs
        if es.any fun e => e.count == 0 || (!e.write && (e.part || e.atomicT)) then .error 4
        else if es.any fun e => !e.inWindow 0 || !e.inWindow (r.teams - 1) then .error 5
        else if writesClash es r.teams then .error 6
        else .ok (k, es)

/-- A refusal (R65). -/
def refusal (code : Nat) : Word := w32 (2 ^ 31 + code)

/-! Entering the Churn (R64, R66) -/

/-- A team that has not started (R62, R63). -/
def Team.fresh (ci task t : Nat) : Team :=
  { ctx := ci, task := task, t := t, stat := .ready, core := 0, requeues := 0, seats := [], tagBits := BitVec.allOnes 128, groups := [], pails := [], shps := [], barriers := [],
    queues := [], versions := [], readVers := [], preempt := false, cut := none, atomic := false, waitedOn := [] }

/-- A task enters the Churn under a serial number, with its teams. -/
def State.enterTask (s : State) (ci serial : Nat) (r : TaskRec) (k : Kernel) (es : List RangeEnt) : State :=
  let task : Task :=
    { ctx := ci, serial := serial, kern := k, gx := r.gx / r.tx, gy := r.gy / r.ty, gz := r.gz / r.tz,
      tx := r.tx, ty := r.ty, tz := r.tz, ranges := es, args := r.args, committed := false }
  { s with tasks := s.tasks ++ [task], teams := s.teams ++ (List.range r.teams).map (Team.fresh ci s.tasks.length) }.modCtx ci
    fun c => { c with held := true }

/-- A task that a program submits enters the Churn; its handle is its serial number, ascending in a context (R64). -/
def State.insertTask (s : State) (ci : Nat) (r : TaskRec) (k : Kernel) (es : List RangeEnt) : State × Word :=
  match s.contexts[ci]? with
  | none => (s, 0#32)
  | some c => ((s.enterTask ci c.serial r k es).modCtx ci fun c => { c with serial := (c.serial + 1) % 2 ^ 30 }, w32 c.serial)

/-- A task that the host starts enters the Churn (R392). DESIGN CHOICE (log entry 87): it takes none of the serials of
R64, which begin with a context's first submitted task (R414); the n-th one's is 2^30 − n. -/
def State.insertHostTask (s : State) (ci : Nat) (r : TaskRec) (k : Kernel) (es : List RangeEnt) : State × Word :=
  match s.contexts[ci]? with
  | none => (s, 0#32)
  | some c =>
    let n := 2 ^ 30 - 1 - c.hostTasks % 2 ^ 30
    ((s.enterTask ci n r k es).modCtx ci fun c => { c with hostTasks := c.hostTasks + 1 }, w32 n)

/-- Churn entries that a context holds (R73). -/
def State.entriesHeld (s : State) (ci : Nat) : Nat := (s.tasks.filter fun t => t.ctx == ci && !t.committed).length

/-- Bytes of a team's own scratchpad at an address, or none where they do not lie in it (R64). -/
def State.ownSpad (s : State) (c : Context) (g : Group) (t : Team) (va : Addr) (n : Nat) : Option (List Byte) :=
  match aperOf 0 0 (va.toNat % 2 ^ 56) with
  | (.spad, o) =>
    if c.boundOk permR va n && decide (o + n ≤ (t.seat g.core).footLen) then
      some ((upto ((t.seat g.core).foot + o) n).map fun x => s.arrRead g.ctx ⟨g.core, .spad, x⟩)
    else none
  | _ => none

/-- The Churn's answer to a submitted record (R64, R65). DEDUCED (log entry 86): a record that a bound does not reach is not in
the own scratchpad, which is refusal 0x01 and no trap. -/
def State.accept (s : State) (c : Context) (g : Group) (t : Team) (va : Addr) : State × Word :=
  if va.toNat % 64 != 0 then (s, refusal 1)
  else
    match s.ownSpad c g t va 64 with
    | none => (s, refusal 1)
    | some bs =>
      let r := TaskRec.ofBytes bs
      let base := va.toNat / 2 ^ 56 * 2 ^ 56 + 0x00FF000000000000
      match checkTask c r fun o n => s.ownSpad c g t (BitVec.ofNat 64 (base + o)) n with
      | .error code => (s, refusal code)
      | .ok (k, es) => s.insertTask g.ctx r k es

/-- The writes of a submitted task's handle (R52, R64). -/
def Submit.writes (p : Submit) (v : Word) : List RegWrite :=
  (match p.dst with
   | some n => [.s n v]
   | none => []) ++
    (if p.hold = 0 then [] else [.hl (p.hold - 1) (p.ps.map fun k => (k, v)) (some ⟨.u, v, 0#32⟩)])

/-- `CHURN_ACCEPT` (R64): the oldest submitted task of a group is accepted or refused once the group's
earlier operations are performed at device scope and its context has an entry to give. Its handle lands as a result
of class U (R52, R113). -/
def execChurnAccept (gi : Nat) (s : State) : Host.Outcome State Fault Refusal :=
  .next <|
    match s.groups[gi]? with
    | none => s
    | some g =>
      match g.submit, s.contexts[g.ctx]?, s.teams[g.team]? with
      | p :: rest, some c, some t =>
        if c.ending || !g.earlierDone fenceRel 4 (s.pairedTeam t) p.ord || decide (c.quota ≤ s.entriesHeld g.ctx) then s
        else
          let out := s.accept c g t p.addr
          (out.1.modGroup gi fun g => { g.sigDown p.sig p.cnt with submit := rest }).landAll gi p.ord (p.writes out.2)
      | _, _, _ => s

/-- `task` (R64): one submission for the run; it holds at issue while the context's quota is used up. -/
def execTask (k : Ctl) (d a : Opnd) (s : State) : Host.Outcome State Fault Refusal :=
  s.issue k fun i => do
    i.notInHandler
    i.check [⟨d, [.s, .zr], 1, 0⟩, ⟨a, [.s, .zr], 2, 2⟩]
    let n := i.run.length
    let waiting := (s.groups.filter fun g => g.ctx == i.ci && g.stat != .ended).map fun g => g.submit.length
    if !i.acts then .ok (s.passRun i [])
    else if i.ctx.quota ≤ s.entriesHeld i.ci + waiting.sum then .error .hold
    else
      let sub : Submit := ⟨i.upair a, k.sig.toNat, n, i.sDst d, k.hold.toNat, i.on, s.ord + 1⟩
      .ok (s.finish i i.g { i.g with submit := i.g.submit ++ [sub] } [] 0 n [] i.advance)

/-! Dependences (R66) -/

/-- The version that a team has of a tile is committed. -/
def Team.hasCommitted (t : Team) (tile : Nat) : Bool := t.versions.any fun v => v.tile == tile && v.committed

/-- A team has retired. -/
def Team.gone (t : Team) : Bool := t.stat == .retired

/-- One tile in entry e of an earlier team a and entry f of a later team holds the later team's start. -/
def tileHolds (a : Team) (e f : RangeEnt) (tile : Nat) : Bool :=
  if creameryTile ≤ tile then (e.write || f.write) && !a.gone
  else if e.atomicT then !f.atomicT && !a.gone
  else if f.atomicT then !a.gone
  else e.write && (!f.write || f.part) && !a.hasCommitted tile

/-- One tile that a and b both write as ordinary holds the commit of b's version (R66). -/
def tileOrders (a b : Team) (e f : RangeEnt) (tile : Nat) : Bool :=
  decide (tile < creameryTile) && e.write && !e.atomicT && f.write && !f.atomicT && !a.hasCommitted tile && !b.hasCommitted tile

/-- A test holds of a tile that team a of an earlier task and team b both name (R66). -/
def anyTile (test : RangeEnt → RangeEnt → Nat → Bool) (ta tb : Task) (a b : Team) : Bool :=
  ta.ranges.any fun e => tb.ranges.any fun f =>
    e.meets f a.t b.t &&
      (let lo := (max (e.first a.t) (f.first b.t)).toNat
       let hi := (min (e.first a.t + e.count) (f.first b.t + f.count)).toNat
       (upto lo (hi - lo)).any (test e f))

/-- The start of team b is held by team a of an earlier task (R66, R68). -/
def holdsStart (ta tb : Task) (a b : Team) : Bool := anyTile (tileHolds a) ta tb a b

/-- Teams of a task that has not committed. -/
def State.teamsOf (s : State) (n : Nat) : List Team := s.teams.filter fun t => t.task == n

/-- A start of a team not yet started is held by some team of another context task (R66). -/
def State.startHeldBy (s : State) (b : Team) (n : Nat) : Bool :=
  match s.tasks[b.task]?, s.tasks[n]? with
  | some tb, some ta =>
    decide (n < b.task) && ta.ctx == b.ctx && !ta.committed && (s.teamsOf n).any fun a => holdsStart ta tb a b
  | _, _ => false

/-- Every dependence that holds a team's start is clear (R66). -/
def State.startClear (s : State) (b : Team) : Bool := !(List.range b.task).any fun n => s.startHeldBy b n

/-- A task has an open dependence of R66, of a start or of a commit, on some team of an earlier task that a test
selects. -/
def State.taskHeldBy (s : State) (m n : Nat) (which : Team → Bool) : Bool :=
  match s.tasks[m]?, s.tasks[n]? with
  | some tb, some ta =>
    decide (n < m) && ta.ctx == tb.ctx && !ta.committed &&
      (s.teamsOf m).any fun b => ((s.teamsOf n).filter which).any fun a =>
        (b.stat == .ready && holdsStart ta tb a b) || anyTile (tileOrders a b) ta tb a b
  | _, _ => false

/-- A task, or a task it waits on, depends on a team of the waiter's own task that has not retired (R74). -/
def State.waitsOn (s : State) (own : Nat) : Nat → Nat → Bool
  | 0, _ => false
  | fuel + 1, m =>
    s.taskHeldBy m own (fun a => !a.gone) ||
      (List.range m).any fun n => s.taskHeldBy m n (fun _ => true) && s.waitsOn own fuel n

/-- Index of a context's task by its serial: the latest. -/
def State.taskIndex (s : State) (ci serial : Nat) : Option Nat :=
  ((List.range s.tasks.length).reverse).find? fun n =>
    ((s.tasks[n]?).map fun t => t.ctx == ci && t.serial == serial).getD false

/-- A serial that was never issued, within 2^29 ahead of the newest (R74). -/
def serialAhead (serial next : Nat) : Bool := decide ((serial + 2 ^ 30 - next) % 2 ^ 30 < 2 ^ 29)

/-- What a wait on one handle finds at once (R74), or none where it blocks. -/
def State.handleStatus (s : State) (i : Iss) (h : Word) : Option Word :=
  let n := h.toNat % 2 ^ 30
  if h.getLsbD 31 then some 3#32
  else if serialAhead n i.ctx.serial then some 1#32
  else
    match s.taskIndex i.ci n with
    | none => some 0#32
    | some m => if s.waitsOn i.t.task (m + 1) m then some 2#32 else if s.taskCommitted i.ci n then some 0#32 else none

/-- Tasks of the context accepted before this issue, the own one excluded (R74). -/
def State.otherTasks (s : State) (i : Iss) : List Nat :=
  (List.range s.tasks.length).filter fun n =>
    n != i.t.task && ((s.tasks[n]?).map fun t => t.ctx == i.ci && !t.committed).getD false

/-- Serial of a task. -/
def State.serialOf (s : State) (n : Nat) : Nat := ((s.tasks[n]?).map Task.serial).getD 0

/-- What `taskwait.all` finds at once. -/
def State.allStatus (s : State) (i : Iss) : Option Word :=
  let ts := s.otherTasks i
  if ts.any fun m => s.waitsOn i.t.task (m + 1) m then some 2#32 else if ts.isEmpty then some 0#32 else none

/-- `taskwait` (R74): on status 0 it is an acquire at device scope. -/
def execTaskwait (k : Ctl) (d a : Opnd) (all : Bool) (s : State) : Host.Outcome State Fault Refusal :=
  s.issue k fun i => do
    i.notInHandler
    i.check ([⟨d, [.s, .zr], 1, 0⟩] ++ (if all then [] else [⟨a, [.s, .zr], 1, 1⟩]))
    if !i.acts then .ok (s.passRun i [])
    else
      match (if all then s.allStatus i else s.handleStatus i (i.uword a)) with
      | some v =>
        let s1 := s.passRun i (i.sWrite d v)
        .ok (if v = 0#32 then s1.modGroup i.gi fun g => g.acquire s1.ord else s1)
      | none =>
        let c : Cond := if all then .tasks ((s.otherTasks i).map s.serialOf) else .task ((i.uword a).toNat % 2 ^ 30)
        .ok (s.blockRun i c (i.sDst d) 0#32)

/-! tinfo (R75) -/

/-- The items of launch information. -/
def tinfoItem (i : Iss) (sel : Nat) : Word :=
  let k := i.task
  match sel with
  | 0 => w32 (i.t.t % k.gx)
  | 1 => w32 (i.t.t / k.gx % k.gy)
  | 2 => w32 (i.t.t / (k.gx * k.gy))
  | 3 => w32 k.gx
  | 4 => w32 k.gy
  | 5 => w32 k.gz
  | 6 => w32 i.g.g
  | 7 => w32 (i.kern.team / i.kern.width)
  | 8 => w32 k.serial
  | 9 => w32 i.ctx.priority
  | 10 => w32 i.g.core
  | 11 => if i.kern.paired then w32 (1 + 2 * (i.g.core % 2)) else 0#32
  | 12 => w32 i.t.requeues
  | 13 => w32 i.ci
  | _ => w32 i.t.t

/-- `tinfo` (R75). -/
def execTinfo (k : Ctl) (d : Opnd) (item : BitVec 5) (s : State) : Host.Outcome State Fault Refusal :=
  s.valueOp k [dstVS d] d 1 1 1 (fun i _ => (tinfoItem i item.toNat).setWidth 64)
    (fun i _ => .form [⟨.u, tinfoItem i item.toNat, 0#32⟩]) (fun _ _ => true)

end Sys2Proof.Machine
end

