-- ==== Sys2Proof/Machine/Place.lean ====
section
/-!
DEFINITION. Placement and the life of teams (R63, R68-R73, R76-R81, R373, R386-R389): resources of a
core, `PLACE_TEAM`, abort, pre-emption, eviction, resumption, migration, retirement and commit.
-/

namespace Sys2Proof.Machine

/-! Resources of a core (R21, R76, R83) -/

/-- A team holds a core's resources. -/
def Team.holds (t : Team) (paired : Bool) (core : Nat) : Bool :=
  t.stat == .running && (t.core == core || (paired && t.core + 1 == core))

/-- The teams that hold resources of a core. -/
def State.teamsOn (s : State) (core : Nat) : List Team := s.teams.filter fun t => t.holds (s.pairedTeam t) core

/-- Groups of a team. -/
def groupCount (k : Kernel) : Nat := k.team / k.width

/-- Half slots of a group of a width (R83). -/
def halves (w : Nat) : Nat := w / 16

/-- Half slots of a core in use. -/
def State.halvesUsed (s : State) (core : Nat) : List Nat :=
  (s.teamsOn core).flatMap fun t => t.groups.flatMap fun gi =>
    match s.groups[gi]? with
    | some g => if g.core = core then upto g.slot (halves g.width) else []
    | none => []

/-- The lowest half slots for n groups of a width, aligned to their size, or none (R83). -/
def slotsFor (used : List Nat) (w n : Nat) : Option (List Nat) :=
  let u := halves w
  let free := ((List.range (32 / u)).map (u * ·)).filter fun b => (upto b u).all fun h => !used.contains h
  if n ≤ free.length then some (free.take n) else none

/-- n numbers below a limit that are not in use, or none. -/
def numbersFor (used : List Nat) (limit n : Nat) : Option (List Nat) :=
  let free := (List.range limit).filter fun x => !used.contains x
  if n ≤ free.length then some (free.take n) else none

/-- Two byte ranges overlap. -/
def overlap (a b : Nat × Nat) : Bool := decide (a.1 < b.1 + b.2) && decide (b.1 < a.1 + a.2)

/-- The first place for a range of bytes beside those in use, below a limit. -/
def placeFor (used : List (Nat × Nat)) (len limit : Nat) : Option Nat :=
  (0 :: used.map fun u => u.1 + u.2).find? fun o =>
    decide (o + len ≤ limit) && (len == 0 || !(used.any fun u => u.2 != 0 && overlap (o, len) u))

/-- Groups of a team on a side of its pair, or on its one core (R21). -/
def groupsOnSide (k : Kernel) (side : Nat) : Nat :=
  if k.paired then (if side = 0 then evenGroups k else groupCount k - evenGroups k) else groupCount k

/-- The kernel of a team, with a place for its image numbers. -/
def State.kernels (s : State) (ts : List Team) : List Kernel := ts.filterMap s.kernelOf

/-- Pail images agree with those of the other teams of a core (R21). DESIGN CHOICE (log entry 65): two kernels name the
same images where the images' contents are equal. -/
def imagesAgree (k : Kernel) (others : List Kernel) : Bool :=
  (k.lpail.isNone && k.spail.isNone) ||
    others.all fun o => (o.lpail.isNone && o.spail.isNone) || (o.lpail == k.lpail && o.spail == k.spail)

/-- Where a team stands: for each of its cores the half slots of its groups there and what else it holds. -/
abbrev Layout := List (List Nat × Seat)

/-- Cores that a team takes at a core (R3, R76). -/
def coresFor (k : Kernel) (core : Nat) : List Nat := if k.paired then [core, core + 1] else [core]

/-- Stack bytes that a team carves on a side (R21). -/
def carve (k : Kernel) (side : Nat) : Nat := k.stack * (groupsOnSide k side * k.width)

/-- What a team of a kernel takes on one core, side by side with the teams there, or none where a resource is wanting
(R21, R76): each core is charged for the indices that it holds. -/
def State.seatFor (s : State) (k : Kernel) (core side : Nat) : Option (List Nat × Seat) :=
  let ts := s.teamsOn core
  let ks := s.kernels ts
  let seats := ts.map fun t => t.seat core
  let carves := (ts.zip ks).map fun p => ((p.1.seat core).stackAt, carve p.2 (core - p.1.core))
  let feet := seats.map fun x => (x.foot, x.footLen)
  let carved := (carves.map fun x => x.2).sum + carve k side
  let foot : Option (Nat × Nat) :=
    if k.spad = 0 then (if feet.isEmpty then some (0, 262144 - carve k side) else none)
    else if carved + (feet.map fun x => x.2).sum + k.spad ≤ 262144 then (placeFor feet k.spad 262144).map fun o => (o, k.spad)
    else none
  (slotsFor (s.halvesUsed core) k.width (groupsOnSide k side)).bind fun sl => foot.bind fun f =>
    (placeFor carves (carve k side) 262144).bind fun st =>
      (numbersFor (seats.flatMap Seat.accs) 16 k.acc).bind fun accs =>
        (numbersFor (seats.flatMap Seat.tags) 64 k.tags).bind fun tags =>
          if decide ((ks.map Kernel.queues).sum + k.queues ≤ 16) && decide (carved ≤ 131072) && imagesAgree k ks then
            some (sl, { foot := f.1, footLen := f.2, stackAt := st, accs := accs, tags := tags })
          else none

/-- The layout of a team at a core, or none where a resource is wanting (R21, R76). -/
def State.layout (s : State) (k : Kernel) (core : Nat) : Option Layout :=
  ((coresFor k core).mapIdx fun side c => s.seatFor k c side).mapM id

/-! Placement (R76-R79) -/

/-- A core is occupied: a team holds it, or it is avoided (R79). -/
def State.occupied (s : State) (core : Nat) : Bool := (s.core core).avoided || !(s.teamsOn core).isEmpty

/-- Cores of a device that may be occupied. -/
def State.busyCores (s : State) : List Nat :=
  dedup ((s.cores.map fun c => c.1) ++ s.teams.map Team.core ++ s.teams.map fun t => t.core + 1) |>.filter s.occupied

/-- The layers of a stacked pair would differ by at most two occupied cores (R79). -/
def State.balanced (s : State) (cores : List Nat) : Bool :=
  let all := dedup (cores ++ s.busyCores)
  cores.all fun c =>
    let pair := clusterPair (coreCluster c)
    let here := all.filter fun x => clusterPair (coreCluster x) == pair
    let up := (here.filter fun x => clusterUpper (coreCluster x)).length
    let low := here.length - up
    decide (up ≤ low + 2) && decide (low ≤ up + 2)

/-- A core admits a team (R3, R28, R76, R78, R79). -/
def State.admits (s : State) (ci : Nat) (k : Kernel) (core : Nat) : Bool :=
  let cores := coresFor k core
  decide (core < 2048) && (!k.paired || core % 2 == 0) &&
    cores.all (fun c => !(s.core c).avoided) &&
    ((s.contexts[ci]?).map fun c => c.dieMap.contains (coreDie core)).getD false &&
    s.balanced cores && (s.layout k core).isSome

/-- Tiles of a team's ordinary write set (R68). DESIGN CHOICE (log entry 65): a tile that two write entries of a team
name has the first one's PART, and is atomic where some entry says so. -/
def ordinaryTiles (k : Task) (t : Nat) : List (Nat × Bool) :=
  dedup ((k.ranges.filter fun e => e.write && !e.atomicT).flatMap fun e =>
    ((upto (e.first t).toNat e.count).filter fun x => decide (x < creameryTile)).map fun x => (x, e.part))

/-- The pool has a frame for each version of a team. -/
def State.framesFor (s : State) (t : Team) : Bool :=
  match s.tasks[t.task]? with
  | some k => decide ((ordinaryTiles k t.t).length ≤ s.pool)
  | none => false

/-- A team may be placed now on some core or on a given one: it has not started, its dependences are clear,
its context is live and its frames are there. -/
def State.placeable (s : State) (t : Team) : Bool :=
  t.stat == .ready && t.cut.isNone && s.startClear t && s.framesFor t &&
    ((s.contexts[t.ctx]?).map fun c => c.stat == .live).getD false

/-- A core that admits a team, the lowest. -/
def State.someCore (s : State) (t : Team) : Option Nat :=
  (s.kernelOf t).bind fun k => (List.range 2048).find? fun c => s.admits t.ctx k c

/-- Priority of a context. -/
def State.priority (s : State) (ci : Nat) : Nat := ((s.contexts[ci]?).map Context.priority).getD 0

/-- Distance of a context from the one whose turn it is, among those of its priority (R77). -/
def State.turnOf (s : State) (ci : Nat) : Nat :=
  let n := s.contexts.length + 1
  (ci + n - spGet 0 s.turn (s.priority ci)) % n

/-- The order in which the Parlour takes teams (R77): higher priority, then round-robin, then Churn order. -/
def State.parlourBefore (s : State) (a b : Nat × Team) : Bool :=
  let pa := s.priority a.2.ctx
  let pb := s.priority b.2.ctx
  if pa ≠ pb then decide (pb < pa)
  else
    let ta := s.turnOf a.2.ctx
    let tb := s.turnOf b.2.ctx
    if ta ≠ tb then decide (ta < tb)
    else if a.2.task ≠ b.2.task then decide (a.2.task < b.2.task)
    else decide (a.2.t ≤ b.2.t)

/-- Teams by index. -/
def State.indexedTeams (s : State) : List (Nat × Team) := s.teams.mapIdx fun n t => (n, t)

/-- The team that the Parlour places next (R77): the first of the placeable ones that find room. -/
def State.nextPlacement (s : State) : Option Nat :=
  let cs := s.indexedTeams.filter fun p => s.placeable p.2 && (s.someCore p.2).isSome
  (cs.find? fun p => cs.all fun q => s.parlourBefore p q).map fun p => p.1

/-- A ready team of a higher priority than a team's context waits to be placed: it goes before an evicted one (R77). -/
def State.higherReady (s : State) (t : Team) : Bool :=
  s.teams.any fun h => decide (s.priority t.ctx < s.priority h.ctx) && s.placeable h

/-- A ready team of a higher priority than a team's context finds no room (R77). -/
def State.outranked (s : State) (t : Team) : Bool :=
  s.teams.any fun h => decide (s.priority t.ctx < s.priority h.ctx) && s.placeable h && (s.someCore h).isNone

/-- The team on which the Parlour posts a pre-emption request next (R77): while no request is pending on a team that a
ready one outranks, the running one of least priority, the latest of those. DESIGN CHOICE (log entry 66). -/
def State.nextPreemption (s : State) : Option Nat :=
  let low := s.indexedTeams.filter fun p => s.evictable p.2 && s.outranked p.2
  if low.any fun p => p.2.preempt then none
  else (leastBy (fun p : Nat × Team => s.priority p.2.ctx) low.reverse).map fun p => p.1

/-! Starting a team (R22, R63, R68) -/

/-- The SR generator's seed (R173). -/
def srSeed (seed t g : Word) : Word :=
  let x := seed ^^^ (t * 0x9E3779B9#32) ^^^ (g * 0x85EBCA6B#32)
  if x = 0#32 then 1#32 else x

/-- A group at rest with one record at a PC (R63). -/
def Group.start (ci ti g core slot width : Nat) (pc : Addr) (s : Sparse Word) (sr : Word) : Group :=
  { ctx := ci, team := ti, g := g, serves := none, core := core, slot := slot, width := width, stat := .live,
    recs := [⟨false, 0, 1, width, pc, none, false, []⟩], lanes := [], p := [], s := s, bc := [], cf := [], c := [],
    mls := 0#64, sr := sr, strag := 0, mark := pc, forced := false, step := none, latches := [], windows := [],
    bcDrop := [], nextAt := 0, lostAt := 0, lastIssue := 0, retryAt := 0, wb := [], rereads := [], storeq := [], oplog := [], fences := [], marks := [],
    aliasOrd := 0, work := [], loop := none, phase := none, again := none, trap := none, submit := [], shpSeen := [] }

/-- The groups of a team at their start. -/
def startGroups (s : State) (ti : Nat) (t : Team) (task : Task) (l : Layout) (core : Nat) (seed : Word) : List Group :=
  let k := task.kern
  let slots := l.flatMap fun x => x.1
  (List.range (groupCount k)).map fun g =>
    let c := if k.paired && decide (evenGroups k ≤ g) then core + 1 else core
    { Group.start t.ctx ti g c (slots.getD g 0) k.width k.entry
        (spSetAll 0#32 [] ((List.range 8).map fun j => (j, task.args.getD j 0#32))) (srSeed seed (w32 t.t) (w32 g)) with
      nextAt := s.ckAt c, lostAt := (s.core c).lost }

/-- A Pail at its start (R22). -/
def Pail.start (ci ti core : Nat) (t : Nat) (storer : Bool) (im : PailImage) : Pail :=
  { ctx := ci, team := ti, core := core, storer := storer, stat := .running,
    x := spSetAll 0#32 [] [(2, 0x12000#32), (10, w32 t), (11, w32 (t / 2 ^ 32)), (12, w32 core)],
    pc := w32 im.entry, istore := spSetAll 0#8 [] ((upto 0 im.code.length).zip im.code),
    dstore := spSetAll 0#8 [] ((upto 0 im.data.length).zip im.data), pqhi := 0#25, pqbnd := 0#8, stall := none,
    again := false, row := [], ran := 0 }

/-- The Pails of a team at their start: one copy of each image on each core. -/
def startPails (ti : Nat) (t : Team) (k : Kernel) (core : Nat) : List Pail :=
  (coresFor k core).flatMap fun c =>
    (k.lpail.map fun im => Pail.start t.ctx ti c t.t false im).toList ++
      (k.spail.map fun im => Pail.start t.ctx ti c t.t true im).toList

/-- An empty queue (R219). -/
def Queue.empty : Queue := ⟨[], 0, .unbound, .unbound, false, false, false, 0, 0, 0, 0⟩

/-- The bytes of a tile as the newest committed version or its backing holds them (R68); an unmapped
backing gives none. -/
def State.tileSource (s : State) (ci tile : Nat) : Option Nat :=
  match s.contexts[ci]? with
  | none => none
  | some c =>
    match spGet none c.commits tile with
    | some f => some (f * 65536)
    | none =>
      match s.walk c.root (tile * 65536) with
      | .leaf _ e sh => some (pteFrame e + tile * 65536 % 2 ^ sh)
      | _ => none

/-- Give a team a version of a tile (R68): a fresh frame of zeros, or a copy with PART. -/
def State.giveVersion (s : State) (ti : Nat) (t : Team) (tile : Nat) (part : Bool) : State :=
  let (f, s1) := s.takeFrame
  let s2 :=
    if part then
      match s.tileSource t.ctx tile with
      | some pa => s1.pmWriteN (ctxKey t.ctx) (f * 65536) (s1.pmReadN (ctxKey t.ctx) pa 65536)
      | none => s1
    else s1
  s2.modTeam ti fun t => { t with versions := t.versions ++ [⟨tile, f, false⟩] }

/-- Start a team at a core with a layout (R63): versions, Pails, groups. -/
def State.startTeam (s : State) (ti core : Nat) (l : Layout) : State :=
  match s.teams[ti]? with
  | none => s
  | some t =>
    match s.tasks[t.task]?, s.contexts[t.ctx]? with
    | some task, some c =>
      let k := task.kern
      let sides := if k.paired then 2 else 1
      let s1 := (ordinaryTiles task t.t).foldl (fun s e => s.giveVersion ti t e.1 e.2) s
      let gs := startGroups s ti t task l core c.srSeed
      let ps := startPails ti t k core
      let s2 := { s1 with groups := s1.groups ++ gs, pails := s1.pails ++ ps,
                          turn := spSet 0 s1.turn c.priority (t.ctx + 1) }
      s2.modTeam ti fun t =>
        { t with stat := .running, core := core, seats := l.map fun x => x.2, tagBits := BitVec.allOnes 128,
                 groups := upto s1.groups.length gs.length, pails := upto s1.pails.length ps.length,
                 shps := List.replicate 8 [(0, 0#640)], barriers := List.replicate 8 ⟨0#32, [], []⟩,
                 queues := List.replicate (sides * k.queues) Queue.empty, atomic := false }
    | _, _ => s

/-- `PLACE_TEAM` (R76): the Parlour places the team whose turn it is on a core that admits it. -/
def execPlaceTeam (ti core : Nat) (s : State) : Host.Outcome State Fault Refusal :=
  .next <|
    match (s.teams[ti]?).bind s.kernelOf with
    | none => s
    | some k =>
      if s.nextPlacement == some ti && ((s.teams[ti]?).map fun t => s.admits t.ctx k core).getD false then
        match s.layout k core with
        | some l => s.startTeam ti core l
        | none => s
      else s

/-! Idle contexts (R389) -/

/-- A context holds a team or a Churn entry. -/
def State.holdsWork (s : State) (ci : Nat) : Bool := s.tasks.any fun t => t.ctx == ci && !t.committed

/-- Report a context that has become idle, once (R389). -/
def State.idleCheck (s : State) (ci : Nat) : State :=
  match s.contexts[ci]? with
  | some c =>
    if c.held && !s.holdsWork ci && c.stat != .killed then
      (s.modCtx ci fun c => { c with held := false }).send (message 0x83 0 0#32 ci [])
    else s
  | none => s

/-! Commit and retirement (R69, R386, R388) -/

/-- A task commits once all its teams have retired and all its versions have committed (R69, R388). -/
def State.commitTask (s : State) (n : Nat) : State :=
  match s.tasks[n]? with
  | some k =>
    if !k.committed && (s.teamsOf n).all fun t => t.gone && t.versions.all fun v => v.committed then
      ({ s with tasks := modAt s.tasks n fun k => { k with committed := true } } : State).idleCheck k.ctx
    else s
  | none => s

/-- Every earlier version of a tile in Churn order has committed (R69). -/
def State.earlierCommitted (s : State) (t : Team) (tile : Nat) : Bool :=
  (List.range t.task).all fun n =>
    match s.tasks[n]? with
    | some k => k.ctx != t.ctx || k.committed ||
        (s.teamsOf n).all fun a => !k.writes a.t tile || a.hasCommitted tile
    | none => true

/-- The teams that keep the version that stands before a commit as their read version (R67): those of
this task and of earlier ones that have not retired. -/
def keepReadVersion (ci task tile : Nat) (old : Option Nat) (tasks : List Task) (t : Team) : Team :=
  let reads := ((tasks[t.task]?).map fun k => k.reads t.t tile).getD false
  if t.ctx == ci && decide (t.task ≤ task) && !t.gone && reads && !(t.readVers.any fun v => v.1 == tile) then
    { t with readVers := t.readVers ++ [(tile, old)] }
  else t

/-- A team of a present start that may have read a version through the tile's translation. -/
def Team.started (t : Team) : Bool := t.stat == .running || t.stat == .evicted

/-- A replaced version may still be read (R69): a team that started on it remains, or one that has not retired holds it
as its read version. -/
def State.stillRead (s : State) (o : OldFrame) : Bool :=
  o.teams.any (fun ti => ((s.teams[ti]?).map Team.started).getD false) ||
    s.teams.any fun t => !t.gone && t.readVers.any fun v => v.2 == some o.frame

/-- Frames go back to the pool. -/
def State.returnFrames (s : State) (fs : List Nat) : State :=
  { s with pool := s.pool + fs.length, freeFrames := s.freeFrames ++ fs }

/-- The frames of replaced versions that nothing can read any more go back to the pool (R69). -/
def State.sweepFrames (s : State) : State :=
  let kept := s.oldFrames.filter s.stillRead
  { s with oldFrames := kept }.returnFrames ((s.oldFrames.filter fun o => !s.stillRead o).map OldFrame.frame)

/-- A commit replaces a tile's version: its frame waits until nothing can read it (R69). -/
def State.retireFrame (s : State) (ci : Nat) (old : Option Nat) : State :=
  match old with
  | none => s
  | some f =>
    let ts := (s.indexedTeams.filter fun p => p.2.ctx == ci && p.2.started).map fun p => p.1
    { s with oldFrames := s.oldFrames ++ [{ ctx := ci, frame := f, teams := ts }] }

/-- `VERSION_COMMIT` (R69): a version of a retired team replaces the tile's translation. -/
def execVersionCommit (ti tile : Nat) (s : State) : Host.Outcome State Fault Refusal :=
  .next <|
    match s.teams[ti]? with
    | none => s
    | some t =>
      match t.versions.find? (fun v => v.tile == tile), s.contexts[t.ctx]? with
      | some v, some c =>
        if t.gone && !v.committed && !c.ending && s.earlierCommitted t tile then
          let old := spGet none c.commits tile
          let s1 := { s with teams := s.teams.map (keepReadVersion t.ctx t.task tile old s.tasks) }
          let s2 := s1.modCtx t.ctx fun c => { c with commits := spSet none c.commits tile (some v.frame) }
          let s3 := s2.modTeam ti fun t =>
            { t with versions := t.versions.map fun w => if w.tile == tile then { w with committed := true } else w }
          ((s3.retireFrame t.ctx old).sweepFrames).commitTask t.task
        else s
      | _, _ => s

/-- Pails of a team's present start. -/
def State.pailsOf (s : State) (t : Team) : List Pail := t.pails.filterMap fun pi => s.pails[pi]?

/-- A group has nothing in flight (R386, step 3). -/
def Group.drained (g : Group) : Bool :=
  g.oplog.isEmpty && g.storeq.isEmpty && g.work.isEmpty && g.wb.isEmpty && g.submit.isEmpty && g.loop.isNone

/-- The last group of a team that stands on cores has ended (R386, step 1): from then on its Pails stop at their next
instruction boundary, once an access that faulted has been replayed (step 2). -/
def State.endsNow (s : State) (t : Team) : Bool := t.stat == .running && (s.groupsOf t).all fun g => g.stat == .ended

/-- The team's last group has ended, no Pail stalls on a fault, and its accesses are performed (R386,
steps 1 to 3). -/
def State.canRetire (s : State) (t : Team) : Bool :=
  s.endsNow t && (s.groupsOf t).all Group.drained &&
    (s.pailsOf t).all fun p => p.stat != .running || (p.stall.isNone && !p.again)

/-- Stop the Pails of a team. -/
def State.stopPails (s : State) (t : Team) : State :=
  t.pails.foldl (fun s pi => s.modPail pi fun p => { p with stat := if p.stat = .running then .stopped else p.stat }) s

/-- `TEAM_RETIREMENT` (R386): the cores are released; versions commit by their own events. -/
def execTeamRetirement (ti : Nat) (s : State) : Host.Outcome State Fault Refusal :=
  .next <|
    match s.teams[ti]? with
    | none => s
    | some t =>
      if s.canRetire t then
        let s1 := (s.stopPails t).modTeam ti fun t =>
          { t with stat := .retired, seats := [], tagBits := BitVec.allOnes 128, queues := [], shps := [],
                   barriers := [], preempt := false, cut := none }
        s1.sweepFrames.commitTask t.task
      else s

/-! Abort (R72, R73) -/

/-- A group ends where it stands: its slots, queues and results in flight are discarded. -/
def Group.discard (g : Group) : Group :=
  { g with stat := .ended, recs := [], wb := [], rereads := [], storeq := [], oplog := [], fences := [], marks := [], work := [],
           loop := none, phase := none, trap := none, submit := [], windows := [], latches := [] }

/-- A frozen or ended group, or one whose records all stand at blocking points, can be cut (R72). -/
def Group.cuttable (g : Group) : Bool := g.stat != .live || g.allBlocked

/-- The handlers of a team's groups end with it. -/
def State.endHandlers (s : State) (t : Team) : State :=
  let hs := (List.range s.groups.length).filter fun j =>
    ((s.groups[j]?).map fun g => (g.serves.map t.groups.contains).getD false && g.stat != .ended).getD false
  hs.foldl (fun s j =>
    match s.groups[j]? with
    | some g => (s.modGroup j Group.discard).modCore g.core fun c =>
        { c with handlers := c.handlers.map fun h => if h == some j then none else h }
    | none => s) s

/-- End every group and Pail of a team. -/
def State.endTeam (s : State) (t : Team) : State :=
  (t.groups.foldl (fun s gi => s.modGroup gi Group.discard) (s.endHandlers t)).stopPails t

/-- Carry out an abort: the team is requeued as not started and its versions' frames go back, or the abort is refused
(R72, R73). -/
def State.abortTeam (s : State) (ti : Nat) : State :=
  match s.teams[ti]? with
  | none => s
  | some t =>
    if t.atomic then (s.modTeam ti fun t => { t with cut := none }).stopContext t.ctx "abort refused"
    else
      let s1 := (s.endTeam t).modTeam ti fun t =>
        { Team.fresh t.ctx t.task t.t with requeues := t.requeues + 1, readVers := t.readVers }
      let s2 : State := { s1 with oldFrames := s1.oldFrames.map fun o => { o with teams := o.teams.filter (· != ti) } }
      (s2.returnFrames ((t.versions.filter fun v => !v.committed).map Version.frame)).sweepFrames

/-- A context is live: one that has stopped keeps its state until it is killed (R389). -/
def State.ctxLive (s : State) (ci : Nat) : Bool := ((s.contexts[ci]?).map fun c => c.stat == .live).getD false

/-- Every group of a team stands where an abort can cut it. -/
def State.canCut (s : State) (t : Team) : Bool := (s.groupsOf t).all Group.cuttable

/-- Ask for the abort of a team: it is cut at once where its groups stand at blocking points (R72). -/
def State.askAbort (s : State) (ti : Nat) : State :=
  match s.teams[ti]? with
  | none => s
  | some t =>
    if t.stat = .retired ∨ t.stat = .ready ∨ s.ctxLive t.ctx = false then s
    else if t.atomic || s.canCut t then s.abortTeam ti
    else s.modTeam ti fun t => { t with cut := some s.now }

/-- 1 ms, in ns. -/
def millisecond : Nat := 1000000

/-- `ABORT_CUT_TIMEOUT` (R72): a team whose abort was asked for is cut at its blocking points, or after
1 ms. -/
def execAbortCutTimeout (ti : Nat) (s : State) : Host.Outcome State Fault Refusal :=
  .next <|
    match s.teams[ti]? with
    | some t =>
      match t.cut with
      | some since => if !s.ctxLive t.ctx then s else if s.canCut t || decide (since + millisecond ≤ s.now) then s.abortTeam ti else s
      | none => s
    | none => s

/-! Pre-emption, eviction, resumption, migration (R80, R81, R373) -/

/-- `PREEMPTION_REQUEST` (R373): ignored once no group remains to evict (R387). -/
def execPreemptionRequest (ti : Nat) (s : State) : Host.Outcome State Fault Refusal :=
  .next <|
    match s.teams[ti]? with
    | some t =>
      if s.evictable t then
        s.modTeam ti fun t => { t with preempt := true }
      else s
    | none => s

/-- Loops that suspended for a request, and had not stopped for another reason, go on when it is
withdrawn (R269). -/
def execPreemptionWithdrawal (ti : Nat) (s : State) : Host.Outcome State Fault Refusal :=
  .next (s.modTeam ti fun t => { t with preempt := false })

/-- Bytes of a team on one of its cores: its footprint, carve and tiles as they move (R80). -/
def State.teamBytes (s : State) (t : Team) (k : Kernel) (core : Nat) : List (Arr × Nat × Owned) :=
  let c := s.core core
  let x := t.seat core
  let pick (a : Arr) (base o n : Nat) : List (Arr × Nat × Owned) :=
    ((c.arr a).filter fun e => decide (o ≤ e.1) && decide (e.1 < o + n)).filterMap fun e => e.2.map fun b => (a, base + (e.1 - o), b)
  pick .spad 0 x.foot x.footLen ++ pick .stack 0 x.stackAt (carve k (core - t.core)) ++
    (x.accs.mapIdx fun n a => pick .acc (4096 * n) (4096 * a) 4096).flatten

/-- Where an offset counted in a team's own footprint, carve or tiles stands on a core. -/
def Seat.offset (x : Seat) (a : Arr) (o : Nat) : Nat :=
  match a with
  | .spad => x.foot + o
  | .stack => x.stackAt + o
  | .acc => 4096 * x.accs.getD (o / 4096) 0 + o % 4096

/-- The offset in a team's own footprint, carve or tiles of an offset of a core's array. -/
def Seat.own (x : Seat) (a : Arr) (o : Nat) : Nat :=
  match a with
  | .spad => o - x.foot
  | .stack => o - x.stackAt
  | .acc => 4096 * (x.accs.findIdx (· == o / 4096)) + o % 4096

/-- Put a team's bytes at its new place; the bytes of the old place there are gone. -/
def State.putBytes (s : State) (t : Team) (k : Kernel) (core : Nat) (bs : List (Arr × Nat × Owned)) : State :=
  let x := t.seat core
  let clear (a : Arr) (m : Sparse (Option Owned)) : Sparse (Option Owned) :=
    m.filter fun e =>
      match a with
      | .spad => !(decide (x.foot ≤ e.1) && decide (e.1 < x.foot + x.footLen))
      | .stack => !(decide (x.stackAt ≤ e.1) && decide (e.1 < x.stackAt + carve k (core - t.core)))
      | .acc => !x.accs.contains (e.1 / 4096)
  let s1 := s.modCore core fun c => { c with spad := clear .spad c.spad, stack := clear .stack c.stack, acc := clear .acc c.acc }
  bs.foldl (fun s b => s.modCore core fun c =>
    c.setArr b.1 (spSet none (c.arr b.1) (x.offset b.1 b.2.1) (some b.2.2))) s1

/-- A place of a team's arrays after a move from one seat list to another (R80). -/
def movePlace (t u : Team) (p : Place) : Place :=
  let side := p.core - t.core
  if t.core ≤ p.core ∧ side < t.seats.length then
    ⟨u.core + side, p.arr, (u.seat (u.core + side)).offset p.arr ((t.seat p.core).own p.arr p.off)⟩
  else p

/-- A store entry moves with its team: its places, and its time in the new island's ck (R7, R80). -/
def StoreEnt.moved (f : Place → Place) (ck : Nat → Nat) : StoreEnt → StoreEnt
  | .chip due ord ws cq bytes => .chip (ck due) ord (ws.map fun w => (f w.1, w.2)) cq bytes
  | .glob ord => .glob ord
  | .atom ord sig cnt op ty els dst hold skip => .atom ord sig cnt op ty (els.map fun e => (e.1, f e.2)) dst hold skip

/-- A slot moves with its group: what the gather engine of the old core has taken stays there until it is performed
(R299, R302). -/
def Slot.moved (core : Nat) (l : Slot) : Slot := if l.taken.isSome then l else { l with core := core }

/-- The latest version of each shape record of a team (R262, R292). -/
def Team.latestShapes (t : Team) : List (Nat × Nat) := t.shps.mapIdx fun n vs => (n, vs.length - 1)

/-- A group moves to a core and slot: what it has queued moves with it, its times count on in the new island's ck, and of
each shape record only the current version moves, so it sees no older one again (R7, R80). -/
def Group.moved (f : Place → Place) (ck : Nat → Nat) (shapes : List (Nat × Nat)) (core slot now lost : Nat) (g : Group) : Group :=
  { g with core := core, slot := slot, nextAt := now, lostAt := lost, retryAt := ck g.retryAt,
           shpSeen := spSetAll 0 g.shpSeen shapes,
           lastIssue := if g.lastIssue = 0 then 0 else ck g.lastIssue,
           wb := g.wb.map fun e => { e with due := ck e.due, contract := ck e.contract },
           rereads := g.rereads.map fun r => { r with ck := ck r.ck, place := f r.place },
           oplog := g.oplog.map (Slot.moved core),
           storeq := g.storeq.map (StoreEnt.moved f ck) }

/-- Move a team to another core with a layout (R80): its arrays, groups, queues and Pails. -/
def State.moveTeam (s : State) (ti core : Nat) (l : Layout) (stat : TStat) : State :=
  match s.teams[ti]? with
  | none => s
  | some t =>
    match s.kernelOf t with
    | none => s
    | some k =>
      let saved := (coresFor k t.core).map (s.teamBytes t k)
      let ck (x : Nat) : Nat := x + s.ckAt core - s.ckAt t.core
      let u := { t with core := core, seats := l.map (fun x => x.2), stat := stat, preempt := false,
                        queues := t.queues.map fun q => { q with lastPush := ck q.lastPush, lastPop := ck q.lastPop } }
      let s1 := s.modTeam ti fun _ => u
      let s2 := ((coresFor k core).zip saved).foldl (fun s p => s.putBytes u k p.1 p.2) s1
      let side (c : Nat) : Nat := core + (c - t.core)
      let s3 := (t.groups.zip (l.flatMap fun x => x.1)).foldl (fun s p =>
        s.modGroup p.1 fun g => g.moved (movePlace t u) ck t.latestShapes (side g.core) p.2 (s.ckAt core) (s.core (side g.core)).lost) s2
      t.pails.foldl (fun s pi => s.modPail pi fun p => { p with core := side p.core, ran := ck p.ran }) s3

/-- The range records that a team's groups on a core hold beyond their guarantees (R84). -/
def State.drawnBy (s : State) (t : Team) (core : Nat) : Nat :=
  (((s.groupsOf t).filter fun g => g.core == core && g.stat != .ended).map fun g => g.rangeCount - g.guarantee).sum

/-- The shared pools of the cores that a team moves to have the records that its groups drew (R84). -/
def State.recordsFit (s : State) (t : Team) (k : Kernel) (core : Nat) : Bool :=
  ((coresFor k core).zip (coresFor k t.core)).all fun p => decide (s.poolUsed p.1 + s.drawnBy t p.2 ≤ 64)

/-- A core admits a started team: its resources of R76 and its range records (R84). -/
def State.takesBack (s : State) (t : Team) (k : Kernel) (core : Nat) : Bool :=
  s.admits t.ctx k core && s.recordsFit t k core

/-- Phases that closed are requested again, with onset 0 (R345): what remained is kept in `again`. -/
def State.reopenPhases (s : State) (ti : Nat) : State :=
  match s.teams[ti]? with
  | none => s
  | some t =>
    t.groups.foldl (fun s gi =>
      match (s.groups[gi]?).bind fun g => if g.stat = .ended then none else g.again with
      | some (len, i) => (s.openPhase gi 0 len i).modGroup gi fun g => { g with again := none }
      | none => s) s

/-- The phases of a team's groups close, to be requested again (R345). -/
def State.closePhases (s : State) (t : Team) : State :=
  t.groups.foldl (fun s gi => s.modGroup gi fun g => { g with again := g.phaseAgain (s.groupCk g), phase := none }) s

/-- The save area of a team (R373): places of its own, numbered beyond the device's cores. What its
engines complete while it is evicted lands there. -/
def saveCore (ti : Nat) : Nat := 4096 + 2 * ti

/-- The layout in which a team stands. -/
def State.seatsNow (s : State) (t : Team) : Layout :=
  t.seats.mapIdx fun side x => (((s.groupsOf t).filter fun g => g.core == t.core + side).map Group.slot, x)

/-- `EVICTION` (R373): a team with a pending request leaves its cores once it stands at blocking points; one whose groups
have all ended stays to retire (R387). -/
def execEviction (ti : Nat) (s : State) : Host.Outcome State Fault Refusal :=
  .next <|
    match s.teams[ti]? with
    | some t =>
      if t.preempt && s.evictable t && s.atPoints t then
        (s.closePhases t).moveTeam ti (saveCore ti) (s.seatsNow t) .evicted
      else s
    | none => s

/-- `RESUMPTION` (R373): an evicted team goes on at a core that can hold it, its range records too (R84), unless a ready
team of higher priority waits to be placed (R77). -/
def execResumption (ti core : Nat) (s : State) : Host.Outcome State Fault Refusal :=
  .next <|
    match s.teams[ti]? with
    | some t =>
      match s.kernelOf t with
      | some k =>
        if t.stat = .evicted && s.takesBack t k core && !s.higherReady t && ((s.contexts[t.ctx]?).map fun c => c.stat == .live).getD false then
          match s.layout k core with
          | some l => (s.moveTeam ti core l .running).reopenPhases ti
          | none => s
        else s
      | none => s
    | none => s

/-- `MIGRATION` (R80, R81): a team at blocking points moves; its old core keeps a forwarding entry while an
engine command that it issued there is under way. -/
def execMigration (ti core : Nat) (s : State) : Host.Outcome State Fault Refusal :=
  .next <|
    match s.teams[ti]? with
    | some t =>
      match s.kernelOf t with
      | some k =>
        if s.evictable t && s.atPoints t && decide (core ≠ t.core) && s.takesBack t k core then
          match s.layout k core with
          | some l =>
            let s1 := ((s.closePhases t).moveTeam ti core l .running).reopenPhases ti
            let pending := (s.groupsOf t).flatMap fun g => g.oplog.map fun x => x.ord
            if pending.isEmpty then s1
            else (coresFor k t.core).foldl (fun s old =>
              s.modCore old fun c =>
                { c with fwd := c.fwd ++ [⟨ti, old, core + (old - t.core), (t.seat old).foot, (t.seat old).footLen, pending⟩] }) s1
          | none => s
        else s
      | none => s
    | none => s

/-- `FORWARDED_MESSAGE` (R81): the oldest message of a forwarding entry has passed on; an entry with none
left, or whose messages' slots are free, is gone. -/
def execForwardedMessage (core n : Nat) (s : State) : Host.Outcome State Fault Refusal :=
  .next <|
    match (s.core core).fwd[n]? with
    | none => s
    | some f =>
      let live := ((s.teams[f.team]?).map fun t => (s.groupsOf t).flatMap fun g => g.oplog.map fun x => x.ord).getD []
      let left := f.msgs.filter fun m => live.contains m
      s.modCore core fun c =>
        { c with fwd := if left.isEmpty then c.fwd.eraseIdx n else c.fwd.set n { f with msgs := left } }

/-! Avoidance (R78) -/

/-- `CORE_AVOIDANCE` (R78): the sensor reads a temperature from now on; 95 °C or above, or 8 droop events within 1 ms,
make the core avoided. -/
def execCoreAvoidance (core temp : Nat) (s : State) : Host.Outcome State Fault Refusal :=
  let recent := ((s.core core).droops.filter fun d => decide (s.now < d + millisecond)).length
  .next <|
    if 2048 ≤ core then s
    else
      s.modCore core fun c =>
        { c with avoided := c.avoided || decide (95 ≤ temp) || decide (8 ≤ recent), hot := decide (88 < temp),
                 lastHot := if c.hot || decide (88 < temp) then s.now else c.lastHot }

/-- `AVOIDANCE_END` (R78): 50 ms at or below 88 °C with no droop event. -/
def execAvoidanceEnd (core : Nat) (s : State) : Host.Outcome State Fault Refusal :=
  let quiet (t : Nat) : Bool := decide (t + 50 * millisecond ≤ s.now)
  .next <|
    if 2048 ≤ core then s
    else s.modCore core fun c => if !c.hot && quiet c.lastHot && c.droops.all quiet then { c with avoided := false } else c

end Sys2Proof.Machine
end

