-- ==== Sys2Proof/Machine/Landing.lean ====
section
/-!
DEFINITION. Memory events: results written at their latency (R112, R113), elements of the operand log
performed and landed (R228, R234, R242, R301, R302, R416), the head of a store queue performed (R302),
engine commands (R238-R241), fences released (R329), records woken (R321), and faults resolved (R371).
-/

namespace Sys2Proof.Machine

/-! Views and overlaps -/

/-- A group with its team and context, as an access of its engines sees them. -/
def State.view (s : State) (gi : Nat) : Option Iss :=
  (s.groups[gi]?).bind fun g =>
    (s.contexts[g.ctx]?).bind fun c => (s.teams[g.team]?).bind fun t => (s.tasks[t.task]?).map fun task =>
      { gi := gi, g0 := g, g := g, k := ⟨0, 0, 0, 0, false, false, 7⟩, pc := 0, sel := [], ci := g.ctx, ctx := c,
        ti := g.team, t := t, task := task, kern := task.kern, now := s.groupCk g, trial := false }

/-- Two elements reach a common byte. -/
def Elem.meets (x y : Elem) : Bool := overlap (va56 x.va, x.len) (va56 y.va, y.len)

/-- Byte at an address that a store's element writes. -/
def Elem.byteAt (x : Elem) (a : Nat) : Option Byte :=
  if va56 x.va ≤ a ∧ a < va56 x.va + x.len then some ((x.data >>> (8 * (a - va56 x.va))).setWidth 8) else none

/-- The byte that a store's unperformed elements write at an address: the last of them (R230). -/
def Slot.byteAt (l : Slot) (a : Nat) : Option Byte :=
  (l.elems.reverse.filter Elem.open).findSome? fun x => x.byteAt a

/-- Stores that a core's engine has taken and not performed at home, each with its group, youngest first (R302). A store
stays with the engine that took it, wherever its team goes. -/
def State.takenStores (s : State) (ci core : Nat) : List (Nat × Slot) :=
  let all := (s.groups.mapIdx fun j g => (j, g)).flatMap fun p =>
    if p.2.ctx == ci then
      (p.2.oplog.filter fun l => l.isStore && l.taken.isSome && l.core == core).map fun l => (p.1, l)
    else []
  (sortBy (fun e : Nat × Slot => e.2.taken.getD 0) all).reverse

/-- The team that a group accesses as: a handler accesses as none (R359). -/
def Group.accTeam (g : Group) : Option Nat := if g.serves.isSome then none else some g.team

/-- The frame that stands for a tile as a group sees it (R67, R68). -/
def State.groupFrame (s : State) (gi tile : Nat) : Option Nat :=
  (s.groups[gi]?).bind fun g => (s.contexts[g.ctx]?).bind fun c => s.tileFrame c g.accTeam tile

/-- The taken stores from which a core's engine supplies bytes of an address (R302): those of a group that sees the same
version of the tile as the reader (R67, R299). -/
def State.coreStores (s : State) (ci core : Nat) (frame : Option Nat) (va : Nat) : List (Nat × Slot) :=
  (s.takenStores ci core).filter fun e => s.groupFrame e.1 (va / 65536) == frame

/-- The stores that a read of a group may take a byte from, in the order in which they are asked (R302):
its own earlier stores that its core's engine has not taken, youngest first, then those that the engine has taken. -/
def State.forwards (s : State) (i : Iss) (ord va : Nat) : List Slot :=
  let own := (i.g.before ord).filter fun l => l.isStore && (l.taken.isNone || l.core != i.g.core)
  (sortBy Slot.ord own).reverse ++
    ((s.coreStores i.ci i.g.core (s.groupFrame i.gi (va / 65536)) va).filter fun e =>
      e.1 != i.gi || decide (e.2.ord < ord)).map fun e => e.2

/-- n bytes of global memory with some stores before it: the first that writes a byte supplies it, else its home. -/
def State.bytesVia (s : State) (fw : List Slot) (ci va pa n : Nat) : List Byte :=
  (List.range n).map fun j =>
    match fw.findSome? fun l => l.byteAt (va + j) with
    | some b => b
    | none => s.pmRead (ctxKey ci) (pa + j)

/-- n bytes of global memory as a group's engine reads them: forwarded, else from home. -/
def State.globalBytes (s : State) (i : Iss) (ord va pa n : Nat) : List Byte := s.bytesVia (s.forwards i ord va) i.ci va pa n

/-- Some bytes that the core's engine holds in a store it has taken and not yet performed at home. -/
def State.takenMeets (s : State) (ci core va n : Nat) : Bool :=
  (s.takenStores ci core).any fun e => e.2.elems.any fun y => y.open && overlap (va56 y.va, y.len) (va, n)

/-! Slots -/

/-- Change a slot of a group by its number. -/
def Group.modSlot (g : Group) (num : Nat) (f : Slot → Slot) : Group :=
  { g with oplog := g.oplog.map fun l => if l.num == num then f l else l }

/-- The result of a slot has somewhere to go. -/
def Slot.hasDst (l : Slot) : Bool := l.dst != .none || l.hold != 0

/-- An element once it has been performed: a value waits to be written, or it is done. -/
def Elem.performed (x : Elem) (l : Slot) (v : BitVec 128) : Elem :=
  { x with st := if l.hasDst && !l.isStore then .got else .done, val := v }

/-- Count an element's bytes out (R218). -/
def Group.countElem (g : Group) (l : Slot) (x : Elem) : Group :=
  match l.cq with
  | some q => g.countDown q x.len
  | none => g

/-- Marks that are cleared leave; barriers and arrivals that waited are settled (R316, R325). -/
def State.settleGroup (s : State) (gi : Nat) : State :=
  match s.view gi with
  | some i => (s.modGroup gi fun g => g.clearMarks i.kern.paired).sweepBarriers i.ti
  | none => s

/-- Bytes of an issue that count out at an on-chip latency are still to fall (R218). -/
def Inflight.counts (e : Inflight) (ord : Nat) : Bool :=
  e.ord == ord && e.ws.any fun w => match w with | .count _ _ => true | _ => false

/-- The flag of a slot falls, with the last byte of the issue: now, or with its on-chip bytes (R49, R227). -/
def Group.slotDown (g : Group) (l : Slot) : Group :=
  match leastBy (fun e : Inflight => maxNat (g.wb.map Inflight.due) - e.due) (g.wb.filter fun e => e.counts l.ord) with
  | some x => { g with wb := g.wb.map fun e => if e.counts l.ord && e.due == x.due then { e with cnt := e.cnt + l.cnt } else e }
  | none => g.sigDown l.sig l.cnt

/-- A slot whose elements are all done is free, and its flag falls (R49, R227, R228). -/
def State.freeSlots (s : State) (gi : Nat) : State :=
  match s.groups[gi]? with
  | none => s
  | some g =>
    let gone (l : Slot) : Bool := !l.isCommand && l.elems.all fun x => x.st == .done
    let g1 := (g.oplog.filter gone).foldl Group.slotDown g
    (s.modGroup gi fun _ => { g1 with oplog := g1.oplog.filter fun l => !gone l }).settleGroup gi

/-- Set an element's state, counting its bytes where it is done. -/
def State.putElem (s : State) (gi : Nat) (l : Slot) (e : Nat) (x : Elem) : State :=
  let s1 := s.modGroup gi fun g =>
    let g1 := g.modSlot l.num fun l => { l with elems := l.elems.set e x }
    if x.st = .done then g1.countElem l x else g1
  s1.freeSlots gi

/-! Translation faults (R228, R370) -/

/-- The access kind of a slot's elements. -/
def Slot.acc (l : Slot) : Acc :=
  match l.op with
  | .store | .scatter => .write
  | .atom _ _ | .amax => .atomic
  | _ => .read

/-- A device page admits `ld.b32` and `st.b32` alone (R214). -/
def Slot.wordOp (l : Slot) : Bool :=
  match l.instr with
  | .ld _ .b32 _ _ _ | .st _ .b32 _ _ _ => true
  | _ => false

/-- The record of a faulting access at a position, or of a command's (R370). -/
def faultOf (s : State) (i : Iss) (l : Slot) (x : Elem) (k : TKind) (pos : Option Nat) : FaultRec :=
  { addr := x.va, pc := l.pc,
    index := match pos with | some p => w32 (i.g.g * i.g.width + p) | none => 0xFFFFFFFF#32,
    team := w32 i.t.t, kind := k.code, access := accCode l.acc, slot := l.num, group := i.g.g, serial := 0#32,
    src := .group i.gi, since := s.now, served := false }

/-- Elements of a slot fault, each with a kind: one record per faulting position, in ascending index (R228). -/
def State.faultElems (s : State) (i : Iss) (l : Slot) (fs : List (Nat × TKind)) : State :=
  let s1 := s.modGroup i.gi fun g => g.modSlot l.num fun l =>
    { l with elems := l.elems.mapIdx fun e x => if fs.any (fun f => f.1 == e) then { x with st := .faulted, hit := true } else x }
  (sortBy (fun f : Nat × Elem × TKind => f.1)
    ((fs.filterMap fun f => (l.elems[f.1]?).map fun x => (x, f.2)).flatMap fun f => f.1.ps.map fun p => (p, f.1, f.2))).foldl
    (fun s f => s.pushFault i.ci (faultOf s i l f.2.1 f.2.2 (some f.1))) s1

/-- The pending elements of a slot whose translation fails, with the kind of each. -/
def State.failing (s : State) (i : Iss) (l : Slot) : List (Nat × TKind) :=
  (List.range l.elems.length).filterMap fun e =>
    (l.elems[e]?).bind fun x =>
      if x.st == .pending && i.isGlobal x.va then
        (match (s.access i.ci i.g.accTeam (va56 x.va) l.acc l.wordOp).1 with
         | .fault k _ => some (e, k)
         | .ok _ => none)
      else none

/-! Performing an element -/

/-- No earlier read or atomic of the group is still pending (R302): a faulted one does not hold younger
ones (R228). -/
def Group.readsDone (g : Group) (ord : Nat) : Bool :=
  (g.before ord).all fun l => l.isStore || l.elems.all fun x => x.st != .pending

/-- An overlapping write that the slot's engine took before a stamp, or an earlier one of the group, is not yet at its
home (R299). -/
def State.olderWrite (s : State) (i : Iss) (l : Slot) (x : Elem) (stamp : Nat) : Bool :=
  ((s.takenStores i.ci l.core).any fun e =>
    (e.1 != i.gi || e.2.num != l.num) && decide (e.2.taken.getD 0 < stamp) && e.2.elems.any fun y => y.open && y.meets x) ||
    (i.g.before l.ord).any fun m => m.isStore && m.core != l.core && m.elems.any fun y => y.open && y.meets x

/-- An earlier element of the same slot that reaches a common byte is still to be performed (R230, R236). -/
def Slot.olderElem (l : Slot) (e : Nat) (x : Elem) : Bool := (l.elems.take e).any fun y => y.open && y.meets x

/-- An element on a device-register page waits for every earlier access of the group (R214). -/
def Group.deviceTurn (g : Group) (l : Slot) (e : Nat) : Bool :=
  ((g.before l.ord).all fun m => m.elems.all fun x => !x.open) && (l.elems.take e).all fun x => !x.open

/-- An earlier read or atomic of the group that reaches a common byte has no value yet: what follows it at one location
waits, though it has faulted (R299, R307-R312). -/
def Group.olderOpen (g : Group) (l : Slot) (x : Elem) : Bool :=
  (g.before l.ord).any fun m => !m.isStore && m.remote == l.remote && m.elems.any fun y => y.open && y.meets x

/-- A read that follows an `aliasfence` waits until the stores before the fence are at home: the group's own, and those
that the core's engine had taken by then (R317, R330). -/
def State.aliasReady (s : State) (i : Iss) (ord : Nat) : Bool :=
  !decide (i.g.aliasOrd < ord) ||
    (((i.g.before i.g.aliasOrd).all fun l => !l.isStore || l.elems.all fun x => !x.open) &&
      (s.takenStores i.ci i.g.core).all fun e => decide (i.g.aliasOrd ≤ e.2.taken.getD 0) || e.2.elems.all fun x => !x.open)

/-- An element of a slot may begin its access (R302, R305, R316): a store once it is taken; a read after the earlier
reads, and after the reads that queued `atoms` make; an atomic after the earlier stores as well, on chip and taken. -/
def State.mayBegin (s : State) (i : Iss) (l : Slot) (x : Elem) : Bool :=
  (!l.qord || !i.isGlobal x.va || i.g.qordReady l.ord i.kern.paired) &&
    (if l.isStore then l.taken.isSome
     else i.g.readsDone l.ord && s.aliasReady i l.ord && !i.g.olderOpen l x &&
       i.g.storeq.all fun e => decide (l.ord ≤ e.ord) || !e.isAtom) &&
    (match l.op with
     | .atom _ _ | .amax =>
       ((i.g.before l.ord).all fun m => !m.isStore || m.taken.isSome) &&
         i.g.storeq.all fun e => decide (l.ord ≤ e.ord) || !e.onChip
     | _ => true)

/-- The value of an atomic's location after it, and the value it returns (R232, R235). -/
def atomResult (l : Slot) (x : Elem) (old : Nat) : Nat :=
  match l.op with
  | .atom op ty => (atomNew op ty (BitVec.ofNat 64 old) (x.data.setWidth 64) x.repl).toNat
  | _ => 0

/-- Perform an element at a physical address (R301). -/
def State.performAt (s : State) (i : Iss) (l : Slot) (e : Nat) (x : Elem) (pa : Nat) : State :=
  let tile := va56 x.va / 65536
  match l.op with
  | .load | .gather | .remld _ =>
    let v := leNat (s.globalBytes i l.ord (va56 x.va) pa x.len)
    s.putElem i.gi l e (x.performed l (BitVec.ofNat 128 v))
  | .store | .scatter => (s.writePa i.ci pa x.len x.data.toNat).putElem i.gi l e { x with st := .done }
  | .atom _ _ | .amax =>
    let old := s.readPa i.ci pa x.len
    let s1 := s.writePa i.ci pa x.len (atomResult l x old)
    let s2 := if i.task.atomics i.t.t tile then s1.modTeam i.ti fun t => { t with atomic := true } else s1
    s2.putElem i.gi l e (x.performed l (BitVec.ofNat 128 old))
  | .copy | .copyw | .rload => s

/-- Perform an element of a device-register page (R214): the device answers; its writes are kept. -/
def State.performDevice (s : State) (i : Iss) (l : Slot) (e : Nat) (x : Elem) (pa : Nat) : State :=
  if l.isStore then
    { s with devWrites := (pa, x.data.setWidth 32) :: s.devWrites }.putElem i.gi l e { x with st := .done }
  else
    { s with freeCtr := s.freeCtr + 1 }.putElem i.gi l e
      (x.performed l ((Config.deviceRead pa s.freeCtr).setWidth 128))

/-- Perform an element of the global window (R210-R214, R302). One write waits for the older writes that meet it, and for
the group's earlier reads of its bytes. A failing translation faults every element of the slot that fails with it (R228). -/
def State.performGlobal (s : State) (i : Iss) (l : Slot) (e : Nat) (x : Elem) : State :=
  let va := va56 x.va
  if l.acc != .read && (l.olderElem e x || s.olderWrite i l x (l.taken.getD s.ord) || i.g.olderOpen l x) then s
  else
    match s.access i.ci i.g.accTeam va l.acc l.wordOp with
    | (.fault _ _, s1) => s1.faultElems i l (s.failing i l)
    | (.ok pa, s1) =>
      let s2 := s1.fillTlb i.g.core i.ci va
      if s.isDevice i.ctx.root va then (if i.g.deviceTurn l e then s2.performDevice i l e x pa else s)
      else s2.performAt i l e x pa

/-- Bytes of an on-chip element of a `gather` (R236): its own queue first, then the array (R302). -/
def State.performChip (s : State) (i : Iss) (l : Slot) (e : Nat) (x : Elem) : State :=
  let p := i.placeOf x.va (x.ps.headD 0)
  if l.isStore then s
  else s.putElem i.gi l e (x.performed l (BitVec.ofNat 128 (s.readPlace i.g p x.len l.ord)))

/-- The place that a remote load reads (R242): a team of the context on that core, or where the core's
forwarding entry says that it went (R81). -/
def State.remotePlace (s : State) (ci core o n : Nat) : Option Place :=
  let within (foot len : Nat) : Bool := decide (foot ≤ o) && decide (o + n ≤ foot + len)
  match s.teams.find? fun t => t.ctx == ci && t.holds (s.pairedTeam t) core && within (t.seat core).foot (t.seat core).footLen with
  | some _ => some ⟨core, .spad, o⟩
  | none =>
    ((s.core core).fwd.find? fun f => within f.foot f.len &&
      ((s.teams[f.team]?).map fun t => t.ctx == ci && t.stat != .retired).getD false).bind fun f =>
        (s.teams[f.team]?).map fun t =>
          let c := t.core + (if s.pairedTeam t then f.from_ % 2 else 0)
          ⟨c, .spad, (t.seat c).foot + (o - f.foot)⟩

/-- Perform an element of a remote load (R242): the group's own queued stores to the partner's scratchpad come first (R302).
One outside every footprint faults, with the others of its slot that do (R228). -/
def State.performRemote (s : State) (i : Iss) (l : Slot) (e core : Nat) (x : Elem) : State :=
  match s.remotePlace i.ci core (va56 x.va) x.len with
  | none =>
    s.faultElems i l ((l.elems.zipIdx.filter fun y =>
      y.1.st == .pending && (s.remotePlace i.ci core (va56 y.1.va) y.1.len).isNone).map fun y => (y.2, .remote))
  | some p => s.putElem i.gi l e (x.performed l (BitVec.ofNat 128 (s.readPlace i.g p x.len l.ord)))

/-! Landing (R416) -/

/-- Elements of a slot that share a range record with some of its elements. -/
def Slot.joined (l : Slot) (g : Group) (es : List Nat) : List Nat :=
  let ps := es.flatMap fun e => ((l.elems[e]?).map Elem.ps).getD []
  let cover := (g.recs.filter fun r => !r.lane && ps.any r.covers).flatMap Rec.positions
  (List.range l.elems.length).filter fun e =>
    es.contains e || ((l.elems[e]?).map fun x => x.ps.any cover.contains).getD false

/-- The elements that land together with one. -/
def Slot.landSet (l : Slot) (g : Group) : Nat → List Nat → List Nat
  | 0, es => es
  | n + 1, es =>
    let es' := l.joined g es
    if es'.length = es.length then es else l.landSet g n es'

/-- Values of word j of some elements at their positions, those that a younger write overtook left out. -/
def Slot.landVals (l : Slot) (es : List Elem) (reg j : Nat) : List (Nat × Word) :=
  es.flatMap fun x =>
    (x.ps.filter fun p => !l.skip.contains (reg + j, p)).map fun p => (p, numWord x.val.toNat j)

/-- The form in which an element's word goes to a latch: U where its result is of class U (R52, R226). -/
def Elem.form (x : Elem) (j : Nat) : Option Form := if x.uni then some ⟨.u, numWord x.val.toNat j, 0#32⟩ else none

/-- The write of a v register by landing elements: their values together, for R416 to fit in each record. -/
def Slot.vWrites (l : Slot) (es : List Elem) (r j : Nat) : List RegWrite :=
  let vs := l.landVals es r j
  if vs.isEmpty then [] else [.v (r + j) vs none]

/-- The writes of a latch by landing elements, but for the positions that a younger write has taken (R113). -/
def Slot.latchWrites (l : Slot) (es : List Elem) : List RegWrite :=
  if l.hold = 0 then []
  else es.filterMap fun x =>
    let vs := (x.ps.filter fun p => !l.skip.contains (128 + (l.hold - 1), p)).map fun p => (p, x.val.setWidth 32)
    if vs.isEmpty then none else some (.hl (l.hold - 1) vs (x.form 0))

/-- The register writes of landing elements. -/
def Slot.landWrites (l : Slot) (es : List Elem) : List RegWrite :=
  let dst : List RegWrite :=
    match l.dst with
    | .v r => (List.range l.words).flatMap fun j => l.vWrites es r j
    | .s r => (List.range l.words).filterMap fun j =>
        if l.skip.contains (64 + r + j, 0) then none
        else (es.getLast?).map fun x => .s (r + j) (numWord x.val.toNat j)
    | .none => []
  dst ++ l.latchWrites es

/-- An element's value is there. -/
def Elem.there (x : Elem) : Bool := x.st == .got || x.st == .done

/-- The elements of a slot that land when element e does, or none while one of them is missing: an s
register takes the result of the whole issue. -/
def Slot.landing (l : Slot) (g : Group) (e : Nat) : Option (List Nat) :=
  let es := match l.dst with
    | .s _ => List.range l.elems.length
    | _ => l.landSet g l.elems.length [e]
  if es.all fun e => ((l.elems[e]?).map Elem.there).getD true then
    some (es.filter fun e => ((l.elems[e]?).map fun x => x.st == .got).getD false)
  else none

/-- Land element e of a slot with those that land with it. -/
def State.landElem (s : State) (gi : Nat) (l : Slot) (e : Nat) : State :=
  match s.groups[gi]? with
  | none => s
  | some g =>
    match l.landing g e with
    | none => s
    | some es =>
      let xs := es.filterMap fun e => l.elems[e]?
      let s1 := s.landAll gi l.ord (l.landWrites xs)
      let s2 := s1.modGroup gi fun g =>
        xs.foldl (fun g x => g.countElem l x)
          (g.modSlot l.num fun l => { l with elems := l.elems.mapIdx fun j x => if es.contains j then { x with st := .done } else x })
      s2.freeSlots gi

/-- `GLOBAL_BYTES_LAND` (R228, R301, R302, R416): element e of slot l is performed, or the value it has
read is written to its register. -/
def execGlobalBytesLand (gi num e : Nat) (s : State) : Host.Outcome State Fault Refusal :=
  .next <|
    match s.view gi with
    | none => s
    | some i =>
      match i.g.oplog.find? (fun l => l.num == num) with
      | none => s
      | some l =>
        match l.elems[e]? with
        | none => s
        | some x =>
          match x.st with
          | .done | .faulted => s
          | .got => s.landElem gi l e
          | .pending =>
            if l.isCommand || !s.mayBegin i l x then s
            else
              match l.op with
              | .remld c => s.performRemote i l e c x
              | _ => if i.isGlobal x.va then s.performGlobal i l e x else s.performChip i l e x

/-! Results at their latency (R112) -/

/-- An entry of the write-back list may land: it is due, and a push follows the on-chip stores issued
before it (R304). -/
def Group.canLand (g : Group) (now : Nat) (e : Inflight) : Bool :=
  decide (e.due ≤ now) &&
    !(e.ws.any RegWrite.isPush && g.storeq.any fun x => x.onChip && decide (x.ord < e.ord))

/-- The earliest entry that may land. -/
def Group.nextLanding (g : Group) (now : Nat) : Option Inflight :=
  leastBy Inflight.due (g.wb.filter (g.canLand now))

/-- `RESULT_WRITEBACK` (R112, R113): the oldest due result of a group is written and its flag falls. -/
def execResultWriteback (gi : Nat) (s : State) : Host.Outcome State Fault Refusal :=
  .next <|
    match s.groups[gi]? with
    | none => s
    | some g =>
      match g.nextLanding (s.groupCk g) with
      | none => s
      | some e =>
        let s1 := s.modGroup gi fun g => { g with wb := g.wb.erase e }
        (s1.landAll gi e.ord e.ws).modGroup gi fun g => g.sigDown e.sig e.cnt

/-! The store queue (R302) -/

/-- The elements of `atoms` in order: each place is read and written in one step (R233). -/
def State.runAtoms (s : State) (ci : Nat) (op : AtomOp) (ty : Ty) :
    List (Elem × Place) → State × List Elem
  | [] => (s, [])
  | (x, p) :: rest =>
    let places := (upto p.off x.len).map fun o => ({ p with off := o } : Place)
    let old := leNat (places.map (s.arrRead ci))
    let new := (atomNew op ty (BitVec.ofNat 64 old) (x.data.setWidth 64) x.repl).toNat
    let r := (s.arrWriteAll ci (places.zip (leBytes x.len new))).runAtoms ci op ty rest
    (r.1, { x with st := .got, val := BitVec.ofNat 128 old } :: r.2)

/-- A slot that carries the results of `atoms` to their registers. -/
def atomSlot (ord : Nat) (ty : Ty) (els : List Elem) (dst : Dst) (hold : Nat) (skip : List (Nat × Nat)) : Slot :=
  { num := 0, ord := ord, pc := 0, instr := .nop ⟨0, 0, 0, 0, false, false, 7⟩, op := .load, elems := els, size := 0,
    cq := none, sig := 0, cnt := 0, dst := dst, hold := hold, words := tyWords ty, tag := 0,
    qord := false, taken := none, core := 0, landed := none, skip := skip }

/-- The on-chip elements of a `scatter` of a stamp are performed: their bytes count out (R218, R236). -/
def State.chipElemsDone (s : State) (i : Iss) (ord : Nat) : State :=
  match i.g.oplog.find? fun l => l.ord == ord && l.isStore with
  | none => s
  | some l =>
    let chip (x : Elem) : Bool := x.open && !i.isGlobal x.va
    (s.modGroup i.gi fun g => (l.elems.filter chip).foldl (fun g x => g.countElem l x)
      (g.modSlot l.num fun l => { l with elems := l.elems.map fun x => if chip x then { x with st := .done } else x })).freeSlots i.gi

/-- Take the entry at the head of a group's store queue. -/
def State.performHead (s : State) (i : Iss) (ent : StoreEnt) : State :=
  let drop (s : State) : State := s.modGroup i.gi fun g => { g with storeq := g.storeq.drop 1 }
  match ent with
  | .chip due ord ws cq bytes =>
    if decide (due ≤ i.now) && !i.gatherOpen ord (ws.map fun w => w.1) then
      ((drop ((s.arrWriteAll i.ci ws).modGroup i.gi fun g => if bytes = 0 then g else g.countDown cq bytes)).chipElemsDone i ord).settleGroup i.gi
    else s
  | .glob ord =>
    match i.g.oplog.find? fun l => l.ord == ord && l.isStore with
    | none => drop s
    | some l =>
      let glob := l.elems.any fun x => i.isGlobal x.va
      if i.g.readsDone ord && (!l.qord || !glob || i.g.qordReady ord i.kern.paired) then
        let s1 := (drop s).modGroup i.gi fun g => g.modSlot l.num fun l => { l with taken := some s.ord, core := i.g.core }
        { s1 with ord := s1.ord + 1 }.settleGroup i.gi
      else s
  | .atom ord sig cnt op ty els dst hold skip =>
    if i.gatherOpen ord (els.flatMap fun x => (upto x.2.off x.1.len).map fun o => { x.2 with off := o }) then s
    else
      let r := (drop s).runAtoms i.ci op ty els
      let l := atomSlot ord ty r.2 dst hold skip
      ((r.1.landAll i.gi ord (l.landWrites r.2)).modGroup i.gi fun g => g.sigDown sig cnt).settleGroup i.gi

/-- `STORE_PERFORMED` (R302): the store at the head of a group's queue is performed on chip, or taken by
its core's engine. -/
def execStorePerformed (gi : Nat) (s : State) : Host.Outcome State Fault Refusal :=
  .next <|
    match s.view gi with
    | none => s
    | some i =>
      match i.g.storeq with
      | [] => s
      | ent :: _ => s.performHead i ent

/-! Engine commands (R237-R241) -/

/-- An end of a move: on chip, a physical address, or a Creamery offset; or a fault. -/
inductive End where
  | chip (p : Place)
  | mem (pa : Nat)
  | cream (off : Nat)
  | fault (k : TKind)
  deriving DecidableEq, Repr

/-- Where bytes of a command stand, and the translation it makes (R207, R210, R239-R241). A Creamery page is written by the
teams of a task that names it. DESIGN CHOICE (log entry 81): of a Creamery leaf's FRAME the offset within a die's 1 GiB
counts. -/
def State.endOf (s : State) (i : Iss) (va : Addr) (acc : Acc) : End × State :=
  match (i.aper va).1 with
  | .global =>
    match s.access i.ci i.g.accTeam (va56 va) acc false with
    | (.ok pa, s1) => (.mem pa, s1.fillTlb i.g.core i.ci (va56 va))
    | (.fault k _, s1) => (.fault k, s1)
  | .creamery =>
    match s.walk i.ctx.root (va56 va) with
    | .leaf at_ e sh =>
      if !pteGrants e acc || !i.task.writesSome (va56 va / 65536) then (.fault .permission, s)
      else (.cream (pteFrame e % 2 ^ 30 + va56 va % 2 ^ sh), (s.touch at_ e acc).fillTlb i.g.core i.ci (va56 va))
    | .anon _ => (.fault .notPresent, s)
    | .fail k => (.fault k, s)
  | _ => (.chip (i.placeOf va 0), s)

/-- Bytes at an end. -/
def State.endRead (s : State) (i : Iss) (ord : Nat) (va : Addr) (n : Nat) : End → List Byte
  | .chip p => (upto p.off n).map fun o => s.arrRead i.ci { p with off := o }
  | .mem pa => s.globalBytes i ord (va56 va) pa n
  | _ => []

/-- Write bytes at an end; a Creamery page is written on every die of the map (R207, R240). -/
def State.endWrite (s : State) (i : Iss) (bs : List Byte) : End → State
  | .chip p => s.arrWriteAll i.ci (((upto p.off bs.length).map fun o => ({ p with off := o } : Place)).zip bs)
  | .mem pa => s.pmWriteN (ctxKey i.ci) pa bs
  | .cream o =>
    i.ctx.dieMap.foldl (fun s d =>
      (bs.zip (upto o bs.length)).foldl (fun s w => s.creamWrite i.ci d w.2 w.1) s) s
  | .fault _ => s

/-- The parts of a piece's bytes that lie in one 64 KiB page each. -/
def pageParts (va : Addr) (n : Nat) : List (Addr × Nat) :=
  let room := 65536 - va.toNat % 65536
  if n ≤ room then [(va, n)] else [(va, room), (va + BitVec.ofNat 64 room, n - room)]

/-- The ends of some parts. -/
def State.endsOf (s : State) (i : Iss) (acc : Acc) : List (Addr × Nat) → List (End × Addr × Nat) × State
  | [] => ([], s)
  | p :: rest =>
    let a := s.endOf i p.1 acc
    let r := a.2.endsOf i acc rest
    ((a.1, p) :: r.1, r.2)

/-- A failing end of a piece. -/
structure EndFault where
  va : Addr
  kind : TKind
  acc : Acc
  deriving DecidableEq, Repr

/-- The failing ends among some. -/
def endFaults (acc : Acc) (es : List (End × Addr × Nat)) : List EndFault :=
  es.filterMap fun e =>
    match e.1 with
    | .fault k => some ⟨e.2.1, k, acc⟩
    | _ => none

/-- A piece's write waits for the group's earlier accesses of its bytes, and for stores that the core's engine has taken
and not yet performed (R299, R302). -/
def State.pieceWaits (s : State) (i : Iss) (l : Slot) (x : Elem) : Bool :=
  i.isGlobal x.va && (s.takenMeets i.ci i.g.core (va56 x.va) x.len ||
    (i.g.before l.ord).any fun m => m.remote.isNone && m.elems.any fun y => y.open && y.meets x)

/-- Move piece e of a command, or say which of its ends fail. -/
def State.movePiece (s : State) (i : Iss) (l : Slot) (e : Nat) (x : Elem) : List EndFault × State :=
  let a := s.endsOf i .read (pageParts x.src x.len)
  let b := a.2.endOf i x.va .write
  match endFaults .read a.1 ++ endFaults .write [(b.1, x.va, x.len)] with
  | [] =>
    if b.2.pieceWaits i l x then ([], s)
    else
      let bs := a.1.flatMap fun p => b.2.endRead i l.ord p.2.1 p.2.2 p.1
      ([], (b.2.endWrite i bs b.1).modGroup i.gi fun g =>
        g.modSlot l.num fun l => { l with elems := l.elems.set e { x with st := .done } })
  | fs => (fs, b.2)

/-- The failing ends of a command's pieces, each with the piece's number, after the others have moved. -/
def State.movePieces (s : State) (i : Iss) (l : Slot) : List (Nat × Elem) → List (Nat × EndFault) × State
  | [] => ([], s)
  | (e, x) :: rest =>
    let a := s.movePiece i l e x
    let r := a.2.movePieces i l rest
    (a.1.map (fun f => (e, f)) ++ r.1, r.2)

/-- A record of a command's slot that waits for a page (R228). -/
def Context.awaits (c : Context) (gi : Nat) (l : Slot) (page : Nat) : Bool :=
  c.faults.any fun f => f.src == .engine gi && f.slot % 16 == l.num && f.pc == l.pc && !f.served && f.addr.toNat / 65536 == page

/-- Record the pages that fail, one record each in ascending address, at most 64 for the command at a time (R228): a
piece whose pages are all recorded has faulted, any other stays pending. -/
def State.pieceFaults (s : State) (i : Iss) (l : Slot) (fs : List (Nat × EndFault)) : State :=
  match s.contexts[i.ci]? with
  | none => s
  | some c =>
    let page (f : EndFault) : Nat := f.va.toNat / 65536
    let standing := (c.faults.filter fun f => f.src == .engine i.gi && f.slot % 16 == l.num && f.pc == l.pc && !f.served).length
    let fresh := (dedupBy (fun f => page f) ((sortBy (fun f : EndFault => f.va.toNat) (fs.map fun f => f.2)).filter fun f =>
      !c.awaits i.gi l (page f))).take (64 - standing)
    let known (f : EndFault) : Bool := c.awaits i.gi l (page f) || fresh.any fun h => page h == page f
    let lost (e : Nat) : Bool := (fs.any fun f => f.1 == e) && (fs.filter fun f => f.1 == e).all fun f => known f.2
    let s1 := s.modGroup i.gi fun g => g.modSlot l.num fun l =>
      { l with elems := l.elems.mapIdx fun e x => if lost e then { x with st := .faulted, hit := true } else x }
    fresh.foldl (fun s f => s.pushFault i.ci { faultOf s i l (mkElem [] f.va 0 0#128) f.kind none with
      access := accCode f.acc, slot := 0x30 + l.num, src := .engine i.gi }) s1

/-- A command may move bytes: its on-chip stores before it are performed (R302), its QORD turn has come (R316), and the
stores before its `aliasfence` are at home (R317). -/
def State.commandReady (s : State) (i : Iss) (l : Slot) : Bool :=
  l.isCommand && (!l.qord || i.g.qordReady l.ord i.kern.paired) && s.aliasReady i l.ord &&
    i.g.storeq.all fun e => decide (l.ord ≤ e.ord) || !e.onChip

/-- A command whose pieces have all moved: its slot is free, its tag sets, its flag falls (R13, R238). -/
def State.endCommand (s : State) (gi : Nat) (num : Nat) : State :=
  match s.groups[gi]? with
  | none => s
  | some g =>
    match g.oplog.find? (fun l => l.num == num) with
    | none => s
    | some l =>
      if l.elems.all fun x => x.st == .done then
        let s1 := s.modGroup gi fun g => { g with oplog := g.oplog.filter fun m => m.num != num }.sigDown l.sig l.cnt
        (s1.modTeam g.team fun t => { t with tagBits := t.tagBits ||| BitVec.twoPow 128 l.tag }).settleGroup gi
      else s

/-- The command of a slot whose bytes have all landed: the ck in which the last one did. -/
def State.noteLanded (s : State) (gi num ck : Nat) : State :=
  s.modGroup gi fun g => g.modSlot num fun l =>
    if l.elems.all fun x => x.st == .done then { l with landed := some (l.landed.getD ck) } else l

/-- `ENGINE_COMMAND_COMPLETE` (R13, R238): the command of slot l moves the bytes it has not yet moved; in a ck after the
last of them has landed, its tag sets. -/
def execEngineCommandComplete (gi num : Nat) (s : State) : Host.Outcome State Fault Refusal :=
  .next <|
    match s.view gi with
    | none => s
    | some i =>
      match i.g.oplog.find? (fun l => l.num == num) with
      | none => s
      | some l =>
        if l.isCommand && (l.landed.map fun ck => decide (ck < i.now)).getD false then s.endCommand gi num
        else if s.commandReady i l then
          let r := s.movePieces i l ((l.elems.mapIdx fun e x => (e, x)).filter fun p => p.2.st == .pending)
          (r.2.pieceFaults i l r.1).noteLanded gi num i.now
        else s

/-! Records and holds -/

/-- `RECORD_WAKE` (R321). -/
def execRecordWake (gi r : Nat) (s : State) : Host.Outcome State Fault Refusal := .next (s.wakeRecord gi r)

/-- A fence hold is over (R329). -/
def Iss.fenceOver (i : Iss) (f : FenceHold) : Bool := i.g.earlierDone f.kind f.scope i.kern.paired f.ord

/-- `ISSUE_HOLD_RELEASE` (R93, R329): the fence holds of a group whose operations are performed end. -/
def execIssueHoldRelease (gi : Nat) (s : State) : Host.Outcome State Fault Refusal :=
  .next <|
    match s.view gi with
    | none => s
    | some i =>
      let ended := i.g.fences.filter i.fenceOver
      s.modGroup gi fun g =>
        ended.foldl (fun g f => g.sigDown f.sig f.cnt) { g with fences := g.fences.filter fun f => !i.fenceOver f, retryAt := 0 }

/-- `STRAGGLER_FORCED_RUN` (R94): the count has reached 256, and the next issue takes the forced run. -/
def execStragglerForcedRun (gi : Nat) (s : State) : Host.Outcome State Fault Refusal :=
  .next (s.modGroup gi fun g => if 256 ≤ g.strag then { g with forced := true } else g)

/-! Faults resolved (R371) -/

/-- The access that a record names. -/
def recAcc (r : FaultRec) : Acc := if r.access = 0 then .read else if r.access = 1 then .write else .atomic

/-- The team for which a record's access is made. -/
def State.recTeam (s : State) (r : FaultRec) : Option Nat :=
  match r.src with
  | .group gi | .engine gi => (s.groups[gi]?).bind fun g => if g.serves.isSome then none else some g.team
  | .pail pi => (s.pails[pi]?).map Pail.team

/-- The status with which a context stops for a record that is not resolved (R67, R207, R242, R371, R393). -/
def State.stopStatus (s : State) (ci : Nat) (r : FaultRec) : String :=
  if r.kind = 6 then "remote access"
  else if creameryTile ≤ va56 r.addr / 65536 && r.kind = 2 then "creamery write"
  else
    match (s.access ci (s.recTeam r) (va56 r.addr) (recAcc r) false).1 with
    | .fault _ t => t
    | .ok _ => "unmapped access"

/-- The elements that a resolution serves issue again (R228): those of the page in the slot, or the
Pail's access. -/
def State.replay (s : State) (page : Nat) (r : FaultRec) : State :=
  let again (x : Elem) : Elem :=
    if x.st = .faulted ∧ (va56 x.va / 65536 = page ∨ va56 x.src / 65536 = page ∨ (va56 x.src + x.len - 1) / 65536 = page)
    then { x with st := .pending } else x
  match r.src with
  | .group gi | .engine gi =>
    s.modGroup gi fun g => g.modSlot (r.slot % 16) fun l => if l.pc = r.pc then { l with elems := l.elems.map again } else l
  | .pail pi => s.modPail pi fun p => { p with stall := none, again := true }

/-- Records of a context that wait for the resolution of a page. -/
def Context.onPage (c : Context) (page : Nat) : List FaultRec :=
  c.faults.filter fun r => !r.served && va56 r.addr / 65536 == page

/-- The team for whose group or Pail a record stands, a handler's trapped team among them (R72). -/
def State.ownerTeam (s : State) (r : FaultRec) : Option Nat :=
  match r.src with
  | .group gi | .engine gi => (s.groups[gi]?).map Group.team
  | .pail pi => (s.pails[pi]?).map Pail.team

/-- Mark some records served, and consume those at the head of the queue. -/
def Context.serveIf (c : Context) (sel : FaultRec → Bool) : Context :=
  let fs := c.faults.map fun r => if sel r then { r with served := true } else r
  let rest := fs.dropWhile fun r => r.served
  { c with faults := rest, faultHead := (c.faultHead + (fs.length - rest.length)) % 4096 }

/-- One resolution serves every record of the page (R371). -/
def Context.serve (c : Context) (page : Nat) : Context := c.serveIf fun r => va56 r.addr / 65536 == page

/-- The resident kernel may resolve a record of a page (R207, R371): the context holds the page, moved out or anonymous, or
its peer slot is unbound; and it never serves a Creamery page. -/
def State.resolvable (s : State) (c : Context) (page : Nat) : Bool :=
  decide (page < creameryTile) &&
    match s.walk c.root (page * 65536) with
    | .leaf _ e _ => decide (linkBase ≤ pteFrame e)
    | .anon _ => true
    | .fail _ => (spGet none c.heldPages page).isSome

/-- The level-4 entry that makes a page resident at a frame (R211): its permissions and format stay; an
anonymous page gets R and W as well (R213). -/
def residentEntry (e frame : Nat) : Nat :=
  if nbit e 8 then servedEntry e frame
  else frame % 2 ^ 36 * 65536 + e / 2 % 32 * 2 + 1 + bitNat (nbit e 9) 9

/-- Make a page resident: a peer slot is bound, else its entry gets the frame, and the contents that the resident kernel
holds of it are moved there (R371, R379). -/
def State.makeResident (s : State) (ci : Nat) (c : Context) (page frame : Nat) : State :=
  match s.walk c.root (page * 65536) with
  | .leaf _ e _ =>
    if linkBase ≤ pteFrame e then { s with peers := spSet none s.peers (pteFrame e / 2 ^ 43 % 256) (some ⟨frame, false, 0, s.now⟩) }
    else s
  | _ =>
    let r := s.tablesFor (page * 65536) walkLevels c.root
    let e := r.1.pte r.2
    let s1 :=
      match spGet none c.heldPages page with
      | some held => (r.1.moveFrame held frame).modCtx ci fun c => { c with heldPages := spSet none c.heldPages page none }
      | none => r.1.zeroFrame frame
    { s1 with nextFrame := Nat.max s1.nextFrame (frame + 1), freeFrames := s1.freeFrames.filter (· != frame) }.setPte r.2 (residentEntry e frame)

/-- `FAULT_RESOLUTION` (R371): the oldest record of a context. A not-present page is made resident at a
frame, and every record of the page is served; otherwise the context stops with the record's status. -/
def execFaultResolution (ci : Nat) (frame : Option Nat) (s : State) : Host.Outcome State Fault Refusal :=
  .next <|
    match s.contexts[ci]? with
    | none => s
    | some c =>
      match c.faults with
      | [] => s
      | r :: _ =>
        let page := va56 r.addr / 65536
        let lost := s.stopStatus ci r == "peer lost"
        match frame with
        | some f =>
          if c.stat ≠ .live then s
          else if r.kind = 1 ∧ lost = false ∧ s.resolvable c page = true then
            let s1 := s.makeResident ci c page f
            let s2 := (c.onPage page).foldl (fun s r => s.replay page r) s1
            s2.modCtx ci fun c => c.serve page
          else s.stopContext ci (s.stopStatus ci r)
        | none => s.stopContext ci (s.stopStatus ci r)

/-- `FAULT_BUDGET_EXPIRY` (R371): past `sys.fault_budget`, the team of the oldest record is aborted; its records need no
resolution any more, those of others still do. A stopped context keeps its state (R389). -/
def execFaultBudgetExpiry (ci : Nat) (s : State) : Host.Outcome State Fault Refusal :=
  .next <|
    match s.contexts[ci]? with
    | none => s
    | some c =>
      match c.faults with
      | [] => s
      | r :: _ =>
        if r.since + c.faultBudget * 1000 < s.now ∧ c.stat = .live then
          match s.ownerTeam r with
          | some ti => (s.askAbort ti).modCtx ci fun c => c.serveIf fun q => s.ownerTeam q == some ti
          | none => s.modCtx ci fun c => c.serveIf fun q => q == r
        else s

end Sys2Proof.Machine
end

