-- ==== Sys2Proof/Machine/System.lean ====
section
/-!
DEFINITION. System, trap, debug and watch instructions (R353-R369): `trap`, `bkpt` with the lazy binder
(R29), `tret`, `wpset`, `wpclr`, `sysrd`, `syswr`, `traprd`, `trapwr`; the start of a handler (R358) and
the application of watchpoints (R368).
-/

namespace Sys2Proof.Machine

/-! Going on after a trap -/

/-- A frozen group's phase is requested again with onset 0 (R345). -/
def State.reopen (s : State) (gi : Nat) : Option (Nat × Nat) → State
  | some (len, n) => s.openPhase gi 0 len n
  | none => s

/-- The phase that a frozen group had open. -/
def State.frozenPhase (s : State) (gi : Nat) : Option (Nat × Nat) := ((s.groups[gi]?).bind Group.trap).bind TrapState.phase

/-- A frozen group goes on after `tret` (R107, R345, R366): its phase is requested again; a group with
no record left has ended, and one whose others stand at a barrier arrives (R323). -/
def State.goOn (s : State) (gi : Nat) (pass : Bool) : State :=
  ((s.resumeGroup gi pass).reopen gi (s.frozenPhase gi)).afterExit gi

/-- A frozen group goes on as it stood, its phase requested again (R29, R106, R109, R345). DESIGN CHOICE (log entry 27): one
whose state a debugger has edited so that `tret` would refuse it stays frozen. -/
def State.letGo (s : State) (gi : Nat) : State :=
  if ((s.groups[gi]?).bind s.tretCheck).isSome then s else (s.thawGroup gi).reopen gi (s.frozenPhase gi)

/-! The lazy binder (R29, R362) -/

/-- Bytes of a context at a generic address as the resident kernel reads them. -/
def State.genRead (s : State) (ci root va n : Nat) : Option Nat :=
  match s.walk root va with
  | .leaf _ e sh => some (s.readPa ci (pteFrame e + va % 2 ^ 56 % 2 ^ sh) n)
  | _ => none

/-- Write bytes of a context at a generic address. -/
def State.genWrite (s : State) (ci root va n x : Nat) : State :=
  match s.walk root va with
  | .leaf _ e sh => s.writePa ci (pteFrame e + va % 2 ^ 56 % 2 ^ sh) n x
  | _ => s

/-- The value that a context's loaded objects export under a name: the object loaded first supplies it
(R23). -/
def Context.exported (c : Context) (name : List Byte) : Option Nat :=
  (c.objs.findSome? fun o => o.exports.find? fun e => e.1 == name).map fun e => e.2

/-- The value of a GOT symbol (R23). -/
def Context.symbol (c : Context) (y : GotSym) : Option Nat :=
  match y.own with
  | some v => some v
  | none => c.exported y.name

/-- Records of a run go on at a PC. -/
def Group.moveTo (g : Group) (sel : Rec → Bool) (pc : Addr) : Group :=
  { g with recs := g.recs.map fun r => if sel r then { r with pc := pc, wait := none } else r }

/-- Records parked for a GOT entry go on at its target (R29). -/
def State.releaseBound (s : State) (ci entry : Nat) (target : Addr) : State :=
  let parked (r : Rec) : Bool :=
    match r.wait.map Wait.cond with
    | some (.got a _) => a.toNat == entry
    | _ => false
  { s with groups := s.groups.map fun g => if g.ctx == ci && g.stat != .ended then g.moveTo parked target else g }

/-- Park the records of a run at an entry, with wake code 9 (R29, R372). -/
def Group.park (g : Group) (sel : Rec → Bool) (entry n ord : Nat) : Group :=
  { g with recs := g.recs.map fun r =>
      if sel r then { r with wait := some ⟨.got (BitVec.ofNat 64 entry) n, true, 0, 0, none, 0#32, ord, 0, []⟩ } else r }

/-- Records at some positions. -/
def Rec.within (ps : List Nat) (r : Rec) : Bool := r.positions.all ps.contains

/-- What the binder does at entry n for the frozen records at some positions (R29): bytes 0 to 7 of the entry are TARGET,
bytes 12 to 15 STATE. Where STATE is 0 it sets STATE 1, and its further writes follow one by one. -/
def State.bindEntry (s : State) (gi : Nat) (ps : List Nat) (c : Context) (ci : Nat) (o : Obj) (n : Nat) : State :=
  let entry := o.got + 16 * n
  let parked (s : State) : State := (s.letGo gi).modGroup gi fun g => g.park (Rec.within ps) entry n s.ord
  match s.genRead ci c.root (entry + 12) 4 with
  | some 0 =>
    let s1 := s.genWrite ci c.root (entry + 12) 4 1
    let b : Binding :=
      { ctx := ci, gi := gi, ps := ps, entry := entry, n := n, value := (o.gotSyms[n]?).bind c.symbol, wrote := false }
    { s1 with bindings := s1.bindings ++ [b] }
  | some 1 => parked s
  | some 2 =>
    (s.letGo gi).modGroup gi fun g => g.moveTo (Rec.within ps) (BitVec.ofNat 64 ((s.genRead ci c.root entry 8).getD 0))
  | _ => (parked s).stopContext ci "unresolved symbol"

/-- The trapped group of a binding still stands frozen. -/
def State.bindFrozen (s : State) (b : Binding) : Bool := ((s.groups[b.gi]?).map fun g => g.stat == .frozen).getD false

/-- The next write of a binding under way (R29): TARGET; then STATE 2, with which the trapped group and every waiting one
go on; or STATE 3, where the symbol does not resolve. -/
def State.bindStep (s : State) (n : Nat) : State :=
  match s.bindings[n]? with
  | none => s
  | some b =>
    let root := ((s.contexts[b.ctx]?).map Context.root).getD 0
    let done (s : State) : State := { s with bindings := s.bindings.eraseIdx n }
    match b.value with
    | none =>
      let s1 := done (s.genWrite b.ctx root (b.entry + 12) 4 3)
      let s2 := if s1.bindFrozen b then
        (s1.letGo b.gi).modGroup b.gi fun g => g.park (Rec.within b.ps) b.entry b.n s1.ord else s1
      s2.stopContext b.ctx "unresolved symbol"
    | some v =>
      if b.wrote then
        let s1 := done (s.genWrite b.ctx root (b.entry + 12) 4 2)
        let s2 := if s1.bindFrozen b then
          (s1.letGo b.gi).modGroup b.gi fun g => g.moveTo (Rec.within b.ps) (BitVec.ofNat 64 v) else s1
        s2.releaseBound b.ctx b.entry (BitVec.ofNat 64 v)
      else { s.genWrite b.ctx root b.entry 8 v with bindings := s.bindings.set n { b with wrote := true } }

/-- What the resident kernel does at a `trap.bind n` (R362): the PC must be slot 0 of the stub of entry n of
an object loaded in the context. -/
def State.runBinder (s : State) (gi : Nat) (ps : List Nat) (pc : Addr) (n : Nat) : State :=
  match s.groups[gi]? with
  | none => s
  | some g =>
    match s.contexts[g.ctx]? with
    | none => s
    | some c =>
      if g.serves.isSome then s
      else
        match c.objs.find? fun o => decide (n < o.gotSyms.length) && decide (va56 pc = o.stub + 64 * n) with
        | some o => s.bindEntry gi ps c g.ctx o n
        | none => s.stopContext g.ctx "unresolved symbol"

/-! trap and bkpt (R362) -/

/-- The word of `bkpt n` (R362). -/
def bkptWord (n : BitVec 16) : IWord :=
  match encode (.bkpt ⟨0#4, 0#12, 0#4, 0#2, false, false, 0#4⟩ n) with
  | some (.compute w) => w
  | _ => 0#96

/-- The resident kernel places `bkpt n` at a PC for a debugger: it writes the slot of the code line, recomputes the line's
parity and clears the trace caches of the context (R110, R362). -/
def State.placeBkpt (s : State) (ci : Nat) (pc : Addr) (n : BitVec 16) : State :=
  match s.contexts[ci]? with
  | none => s
  | some c =>
    match s.codeWalk c (lineOf pc) with
    | some (_, _, pa) =>
      if pcLegal pc then
        (s.writePa ci pa 64 (patchLine (s.lineBits ci pa) (slotOf pc) (bkptWord n))).mapCores fun k =>
          { k with trace := k.trace.filter fun e => e.ctx != ci }
      else s
    | none => s

/-- A trap taken after issue: the run's records advance, then the group freezes. DESIGN CHOICE (log entry 64): the issue
counts against the open windows, so that a window which it closes no longer draws the run back to its producer. -/
def State.trapAfter (s : State) (k : Ctl) (cls n : Nat) (bind : Bool) : Host.Outcome State Fault Refusal :=
  s.issue k fun i => do
    i.check []
    if !i.acts then .ok (s.passRun i [])
    else
      let j := { i with g0 := { i.g0 with step := none } }
      let s1 := s.finish j i.g i.g [] 0 0 [⟨1, i.run.length, []⟩] i.advance
      let at_ := (i.g.recs.findIdx? i.inRun).getD 0
      let s2 := s1.takeTrap i.gi ⟨cls, 0, w32 n, at_, bind⟩ i.pc
      .ok (if bind then s2.runBinder i.gi i.sel i.pc n else s2)

/-- `trap` (R362). -/
def execTrap (k : Ctl) (n : BitVec 16) (bind : Bool) (s : State) : Host.Outcome State Fault Refusal :=
  s.trapAfter k 0x0D n.toNat bind

/-- `bkpt` (R362). -/
def execBkpt (k : Ctl) (n : BitVec 16) (s : State) : Host.Outcome State Fault Refusal :=
  s.trapAfter k 0x0B n.toNat false

/-! Handlers (R358) -/

/-- A frozen group waits for a handler slot (R358): its trap goes to the handler of a context that goes on, none serves it
yet, and its team's abort has not been asked for (R72). -/
def State.waitsHandler (s : State) (gi : Nat) (g : Group) : Bool :=
  g.stat == .frozen && (g.trap.map fun t => t.route == .handler).getD false &&
    ((s.contexts[g.ctx]?).map fun c => c.stat == .live).getD false &&
    !(s.groups.any fun h => h.serves == some gi && h.stat != .ended) &&
    ((s.teams[g.team]?).map fun t => t.cut.isNone).getD false

/-- No group of the core took its trap earlier and still waits (R358). -/
def State.firstInLine (s : State) (gi : Nat) (g : Group) : Bool :=
  let seq (g : Group) : Nat := (g.trap.map TrapState.seq).getD 0
  (s.groups.mapIdx fun j h => (j, h)).all fun p =>
    p.1 == gi || p.2.core != g.core || !s.waitsHandler p.1 p.2 || decide (seq g ≤ seq p.2)

/-- s registers of a handler at its start. -/
def handlerRegs (t : TrapState) (g team core : Nat) : Sparse Word :=
  spSetAll 0#32 [] [(0, t.word), (1, t.pc.setWidth 32), (2, (t.pc >>> 32).setWidth 32), (3, t.aux), (4, w32 g), (5, w32 team),
    (6, w32 core)]

/-- A handler of a group starts in a slot of its core, at the ENTRY that `sys.trap_vec` held for the trap (R382). -/
def State.startHandler (s : State) (gi : Nat) (g : Group) (c : Context) (t : TrapState) (slot : Nat) : State :=
  let tn := (s.teams[g.team]?.map Team.t).getD 0
  let h := Group.start g.ctx g.team g.g g.core (32 + 2 * slot) 32 t.vec (handlerRegs t g.g tn g.core)
    (srSeed c.srSeed (w32 tn) 0x3F#32)
  let n := s.groups.length
  { s with groups := s.groups ++ [{ h with serves := some gi, nextAt := s.groupCk g, lostAt := (s.core g.core).lost }] }.modCore g.core fun k =>
    { k with handlers := k.handlers.set slot (some n) }

/-- `HANDLER_START` (R357, R358): the first waiting group of a core takes a free handler slot. -/
def execHandlerStart (gi : Nat) (s : State) : Host.Outcome State Fault Refusal :=
  .next <|
    match s.groups[gi]? with
    | none => s
    | some g =>
      match s.contexts[g.ctx]?, g.trap with
      | some c, some t =>
        let free := (s.core g.core).handlers.findIdx? (· == none)
        match free with
        | none => s
        | some slot =>
          if s.waitsHandler gi g && s.firstInLine gi g && g.work.isEmpty && g.loop.isNone then s.startHandler gi g c t slot else s
      | _, _ => s

/-! Items of a frozen group (R363, R364) -/

/-- Wake code and argument of a wait (R372). `queues` is the queues of a side, `openArg` what an
unstated argument reads as (log entry 4). -/
def wakeWord (queues : Nat) (openArg : Word) (w : Wait) : Word :=
  let code (c arg : Nat) : Word := w32 (c * 2 ^ 24 + arg % 2 ^ 24)
  match w.cond with
  | .bar n p _ | .barwait n p => code 1 (n * 2 ^ 21 + p.toNat % 2 ^ 21)
  | .qEntry q => code 2 (q % Nat.max queues 1)
  | .qFree q => code 3 (q % Nat.max queues 1)
  | .tag n => code 4 (n % 64)
  | .tagMask _ => code 4 0x3F
  | .count n _ => code 5 n
  | .task n => code 6 n
  | .tasks _ => code 6 openArg.toNat
  | .yield => code 7 0
  | .miterAgain => code 8 0
  | .got _ n => code 9 n
  | .loopEnd | .release _ => 0#32

/-- The checks of a written loop state (R289). -/
def mlsOk (x : BitVec 64) : Bool :=
  let f (lo w : Nat) : Nat := x.toNat / 2 ^ lo % 2 ^ w
  f 0 6 == 0 && f 12 2 != 3 && decide (f 8 4 < 8) && f 6 2 != 1 && f 6 2 != 3 && !(f 6 2 == 2 && f 16 8 == 0)

/-- Bits lo to lo + w - 1 of an item code. -/
def codeBits (x : Word) (lo w : Nat) : Nat := x.toNat / 2 ^ lo % 2 ^ w

/-- Half of a 64-bit value. -/
def half (x : BitVec 64) (h : Nat) : Word := (x >>> (32 * h)).setWidth 32

/-- Replace half of a 64-bit value. -/
def setHalf (x : BitVec 64) (h : Nat) (v : Word) : BitVec 64 :=
  if h = 0 then half x 1 ++ v else v ++ half x 0

/-- Class code of a form (R363). -/
def Cls.code : Cls → Nat
  | .u => 0 | .a => 1 | .l => 2 | .d => 3

/-- The class of a code. -/
def Cls.ofCode : Nat → Option Cls
  | 0 => some .u | 1 => some .a | 2 => some .l | 3 => some .d | _ => none

/-- Positions of a group, as a mask of predicate bits. -/
def Group.posMask (g : Group) : BitVec 64 := maskOf (List.range g.width)

/-- The word of an instruction in an operand-log slot. -/
def instrWord (i : Instr) : IWord :=
  match encode i with
  | some (.compute w) => w
  | _ => 0#96

/-- Trap state items (R363). -/
def Group.trapItem (g : Group) (n : Nat) : Word :=
  match g.trap with
  | none => 0#32
  | some t =>
    match n with
    | 0 => t.word
    | 1 => half t.pc 0
    | 2 => half t.pc 1
    | 3 => t.aux
    | 4 => t.step
    | _ => 0#32

/-- Record items (R363). -/
def Group.recItem (g : Group) (queues : Nat) (openArg : Word) (r n : Nat) : Word :=
  if n = 7 then w32 g.recs.length
  else
    match g.recs[r]? with
    | none => 0#32
    | some x =>
      match n with
      | 0 => if x.lane then 1#32 else 0#32
      | 1 => w32 x.b
      | 2 => w32 (if x.n = 1 then 1 else x.s)
      | 3 => w32 x.n
      | 4 => half x.pc 0
      | 5 => half x.pc 1
      | 6 => (x.wait.map (wakeWord queues openArg)).getD 0#32
      | _ => 0#32

/-- Form items: range records only. -/
def Group.formField (g : Group) (r n reg : Nat) : Word :=
  match g.recs[r]? with
  | some x =>
    if x.lane then 0#32
    else
      match n with
      | 0 => (x.form reg).c0
      | 1 => (x.form reg).c1
      | 2 => w32 (x.form reg).cls.code
      | _ => 0#32
  | none => 0#32

/-- Group state items (R363). -/
def Group.stateItem (g : Group) (n : Nat) : Word :=
  if n < 12 then w32 (g.flagRead n)
  else
    match n with
    | 12 => half g.mls 0
    | 13 => half g.mls 1
    | 14 => g.sr
    | 15 => w32 g.strag
    | 16 => w32 g.width
    | _ => 0#32

/-- Operand-log items (R363). -/
def Group.logItem (g : Group) (slot n : Nat) : Word :=
  match g.oplog.find? fun l => l.num == slot with
  | none => 0#32
  | some l =>
    let left := (l.elems.filter fun x => x.st != .done).length
    let w := instrWord l.instr
    match n with
    | 0 => w32 (1 + bitNat (l.elems.any fun x => x.st == .faulted) 1 + Nat.min left 255 * 2 ^ 8)
    | 1 => half l.pc 0
    | 2 => half l.pc 1
    | 3 => w.setWidth 32
    | 4 => (w >>> 32).setWidth 32
    | 5 => (w >>> 64).setWidth 32
    | _ => 0#32

/-- Operand-number items: s, bc and c registers. -/
def Group.regItem (g : Group) (n : Nat) : Word :=
  match Opnd.ofCode (BitVec.ofNat 8 n) with
  | .s r => spGet 0#32 g.s r.val
  | .bc r => spGet 0#32 g.bc r.val
  | .c r => spGet 0#32 g.c r.val
  | _ => 0#32

/-- The item of a code in a group (R363); an undefined code reads 0. -/
def State.trapRead (s : State) (gi : Nat) (code : Word) : Word :=
  match s.groups[gi]? with
  | none => 0#32
  | some g =>
    let f := codeBits code
    let queues := ((s.teams[g.team]?).bind s.kernelOf).map Kernel.queues |>.getD 0
    let openArg := (Config.free s.freeCtr).setWidth 32
    match f 28 4 with
    | 0 => if f 8 20 = 0 then g.trapItem (f 0 8) else 0#32
    | 1 => if f 15 13 = 0 then g.recItem queues openArg (f 8 7) (f 0 8) else 0#32
    | 2 => if f 15 13 = 0 then g.formField (f 8 7) (f 6 2) (f 0 6) else 0#32
    | 3 => if f 14 14 = 0 ∧ f 6 2 = 0 then g.vAt (f 0 6) (f 8 6) else 0#32
    | 4 => if f 8 20 = 0 then g.regItem (f 0 8) else 0#32
    | 5 =>
      if f 9 19 = 0 ∧ f 3 5 = 0 ∧ f 0 3 ≠ 7 then half (g.pmask (f 0 3) &&& g.posMask) (f 8 1) else 0#32
    | 6 => if f 8 20 = 0 then g.stateItem (f 0 8) else 0#32
    | 7 => if f 11 17 = 0 ∧ f 5 3 = 0 then g.logItem (f 8 3) (f 0 5) else 0#32
    | _ => 0#32

/-- Edit of a record (R364). -/
def Rec.edit (x : Rec) (n : Nat) (v : Word) : Rec :=
  match n with
  | 1 => if x.lane then x else { x with b := v.toNat }
  | 2 => if x.lane then x else { x with s := v.toNat }
  | 3 => if x.lane then x else { x with n := v.toNat }
  | 4 => { x with pc := setHalf x.pc 0 v }
  | 5 => { x with pc := setHalf x.pc 1 v }
  | _ => x

/-- A write of n = 0 frees a record of either kind; its positions exit. -/
def Group.editRec (g : Group) (r n : Nat) (v : Word) : Group :=
  if n = 3 ∧ v = 0#32 then { g with recs := g.recs.eraseIdx r } else { g with recs := modAt g.recs r fun x => x.edit n v }

/-- Edit of a form of a range record. -/
def Rec.editForm (x : Rec) (n reg : Nat) (v : Word) : Rec :=
  if x.lane then x
  else
    let f := x.form reg
    match n with
    | 0 => x.setForm reg { f with c0 := v }
    | 1 => x.setForm reg { f with c1 := v }
    | 2 =>
      match Cls.ofCode v.toNat with
      | some c => x.setForm reg { f with cls := c }
      | none => x
    | _ => x

/-- Edit of a lane value: only in a lane record, where the register becomes L. -/
def Group.editLane (g : Group) (k reg : Nat) (v : Word) : Group :=
  if g.recs.any fun r => r.lane && r.b == k then
    { g with lanes := spSet 0#32 g.lanes (64 * k + reg) v,
             recs := g.recs.map fun r => if r.lane && r.b == k then r.setForm reg ⟨.l, 0#32, 0#32⟩ else r }
  else g

/-- Edit of a register by its operand number. -/
def Group.editReg (g : Group) (n : Nat) (v : Word) : Group :=
  match Opnd.ofCode (BitVec.ofNat 8 n) with
  | .s r => g.setS r.val v
  | .c r => { g with c := spSet 0#32 g.c r.val v }
  | _ => g

/-- Edit of predicate bits. -/
def Group.editPred (g : Group) (p h : Nat) (v : Word) : Group :=
  g.setP p (setHalf 0#64 h 0xFFFFFFFF#32 &&& g.posMask) (setHalf 0#64 h v)

/-- Edit of group state: mls where the checks of `mloopset` pass, and the SR state where it is not zero. -/
def Group.editState (g : Group) (n : Nat) (v : Word) : Group :=
  match n with
  | 12 => if mlsOk (setHalf g.mls 0 v) then { g with mls := setHalf g.mls 0 v } else g
  | 13 => if mlsOk (setHalf g.mls 1 v) then { g with mls := setHalf g.mls 1 v } else g
  | 14 => if v = 0#32 then g else { g with sr := v }
  | _ => g

/-- Write the item of a code (R363, R364); an undefined or read-only one is ignored. -/
def Group.trapWrite (g : Group) (code v : Word) : Group :=
  let f := codeBits code
  match f 28 4 with
  | 0 => if f 0 28 = 4 then { g with trap := g.trap.map fun t => { t with step := v &&& 0xFF#32 } } else g
  | 1 => if f 15 13 = 0 ∧ 1 ≤ f 0 8 ∧ f 0 8 ≤ 5 then g.editRec (f 8 7) (f 0 8) v else g
  | 2 => if f 15 13 = 0 then { g with recs := modAt g.recs (f 8 7) fun x => x.editForm (f 6 2) (f 0 6) v } else g
  | 3 => if f 14 14 = 0 ∧ f 6 2 = 0 then g.editLane (f 8 6) (f 0 6) v else g
  | 4 => if f 8 20 = 0 then g.editReg (f 0 8) v else g
  | 5 => if f 9 19 = 0 ∧ f 3 5 = 0 then g.editPred (f 0 3) (f 8 1) v else g
  | 6 => if f 8 20 = 0 then g.editState (f 0 8) v else g
  | _ => g

/-- A group frozen by a trap that its context's handler serves (R357, R358). -/
def Group.underHandler (g : Group) : Bool := g.stat == .frozen && (g.trap.map fun (t : TrapState) => t.route == .handler).getD false

/-- The group that a handler serves. -/
def Iss.served (i : Iss) : Nat := i.g.serves.getD 0

/-- The shared shape of an instruction of R361 with a U result: checks, then the result at latency 1, or
nothing under a false guard. -/
def State.sysOp (s : State) (i : Iss) (ns : List Need) (d : Opnd) (words : Nat) (v : BitVec 64) : Except Stop State := do
  let x ← i.values d words (fun _ j => word v j) (fun _ => .form (uniformForms v words)) (fun _ => true)
  .ok (s.finishValues i ns 1 1 x)

/-- `traprd` (R363). -/
def execTraprd (k : Ctl) (d a : Opnd) (s : State) : Host.Outcome State Fault Refusal :=
  s.issue k fun i => do
    i.onlyInHandler
    i.check [dstVS d, uReg a]
    i.uniform false a
    s.sysOp i [uReg a] d 1 ((s.trapRead i.served (i.uword a)).setWidth 64)

/-- `trapwr` (R363). -/
def execTrapwr (k : Ctl) (a b : Opnd) (s : State) : Host.Outcome State Fault Refusal :=
  s.issue k fun i => do
    i.onlyInHandler
    i.check [uReg a, uReg b]
    i.uniform false a
    i.uniform false b
    let s1 := if i.acts then s.modGroup i.served fun g =>
      if g.underHandler then g.trapWrite (i.uword a) (i.uword b) else g else s
    .ok (s1.passRun i [])

/-! tret (R366) -/

/-- A handler ends and its slot is free. -/
def State.endHandler (s : State) (hi core : Nat) : State :=
  (s.modGroup hi Group.discard).modCore core fun c =>
    { c with handlers := c.handlers.map fun h => if h == some hi then none else h }

/-- The action of an accepted `tret` on the trapped group. -/
def State.tretAct (s : State) (gi action : Nat) : State :=
  match s.groups[gi]? with
  | none => s
  | some g =>
    if g.stat ≠ .frozen then s
    else
      match action with
      | 0 => s.goOn gi false
      | 1 => s.goOn gi true
      | 2 => s.askAbort g.team
      | _ => s.stopContext g.ctx "handler stop"

/-- `tret` (R360, R366): it waits, as a release at device scope, for the handler's accesses. -/
def execTret (k : Ctl) (d : Opnd) (action : BitVec 2) (s : State) : Host.Outcome State Fault Refusal :=
  s.issue k fun i => do
    i.onlyInHandler
    i.check [⟨d, [.s, .zr], 1, 0⟩]
    if !i.acts then .ok (s.passRun i [])
    else
      match (s.groups[i.served]?).bind s.tretCheck with
      | some code => .ok (s.passRun i (i.sWrite d (w32 code)))
      | none =>
        if !i.g.earlierDone fenceRel 4 i.kern.paired (s.ord + 1) || !i.g.work.isEmpty then .error .hold
        else
          let s1 := (s.passRun i (i.sWrite d 0#32)).endHandler i.gi i.g.core
          .ok (s1.tretAct i.served action.toNat)

/-! System registers (R367) -/

/-- Width of a system register, or none where no register has the number. -/
def sysWidth (n : Nat) : Option Nat :=
  if n ≤ 0x001 then some 1
  else if n ≤ 0x006 then some 2
  else if n = 0x010 ∨ n = 0x012 then some 1
  else if n = 0x011 ∨ n = 0x022 then some 2
  else if n = 0x020 ∨ n = 0x021 ∨ n = 0x023 then some 1
  else none

/-- `sys.fault_head` (R370). -/
def Context.faultHeadWord (c : Context) : Word :=
  w32 (bitNat c.overflow 31 + c.faultTail * 2 ^ 16 + c.faultHead)

/-- The calendar position of a cluster (R208): it goes on by one at each ck of the cluster. -/
def State.calendarPos (s : State) (cluster : Nat) : Nat :=
  (spGet 0 s.calendar cluster + (s.island cluster).ckAt s.now) % 65536

/-- `sys.creamery_cal` (R209). -/
def calendarWord (p : Nat) : Word :=
  w32 (bitNat (decide (p % 1024 < 512)) 22 + p / 1024 % 64 * 2 ^ 16 + p)

/-- The value of a system register for a group. -/
def State.sysValue (s : State) (i : Iss) (n : Nat) : BitVec 64 :=
  let c := i.ctx
  match n with
  | 0x000 => c.faultHeadWord.setWidth 64
  | 0x001 => BitVec.ofNat 64 c.faultBudget
  | 0x002 => c.fetchDrop
  | 0x003 => c.pairRefused
  | 0x004 => c.shortfall
  | 0x005 => c.bankConflict
  | 0x006 => c.spadConflict
  | 0x010 => c.srSeed.setWidth 64
  | 0x011 => c.trapVec
  | 0x012 => c.trapMask.setWidth 64
  | 0x020 => (calendarWord (s.calendarPos (coreCluster i.g.core))).setWidth 64
  | 0x021 => (i.g.phaseGrant i.now).setWidth 64
  | 0x022 => c.undeclared
  | _ => s.stepCfg.setWidth 64

/-- `sysrd` (R367). -/
def execSysrd (k : Ctl) (d : Opnd) (num : BitVec 12) (s : State) : Host.Outcome State Fault Refusal :=
  s.issue k fun i =>
    match sysWidth num.toNat with
    | none => .error (illegal 5)
    | some w => do
      i.check [dstVS d w]
      s.sysOp i [] d w (s.sysValue i num.toNat)

/-- The bits of `sys.trap_mask` that a write reaches (R367). -/
def trapMaskBits : Word := 0x17FFE#32

/-- What `sys.trap_vec` and `sys.trap_mask` held before a write by a group at a time, beside what late writes found; those
of 64 ns ago lie in no ck of the present (R382). -/
def Context.keepTrapRegs (c : Context) (gi now : Nat) : Context :=
  { c with sysWas := (gi, now, c.trapVec, c.trapMask) :: c.sysWas.filter fun w => decide (now < w.2.1 + 64) }

/-- A context with a system register written by a group at a time; a read-only one ignores it. -/
def Context.sysWrite (c : Context) (gi now n : Nat) (v : BitVec 64) : Context :=
  match n with
  | 0x010 => { c with srSeed := v.setWidth 32 }
  | 0x011 => { c.keepTrapRegs gi now with trapVec := v }
  | 0x012 => { c.keepTrapRegs gi now with trapMask := v.setWidth 32 &&& trapMaskBits }
  | _ => c

/-- `syswr` (R367). -/
def execSyswr (k : Ctl) (a : Opnd) (num : BitVec 12) (s : State) : Host.Outcome State Fault Refusal :=
  s.issue k fun i =>
    match sysWidth num.toNat with
    | none => .error (illegal 5)
    | some w => do
      i.check [⟨a, [.v, .s, .zr], w, w⟩]
      i.uniform (w == 2) a
      let v := if w = 2 then i.upair a else (i.uword a).setWidth 64
      let s1 := if i.acts then s.modCtx i.ci fun c => c.sysWrite i.gi s.now num.toNat v else s
      .ok (s1.passRun i [])

/-! Watchpoints (R368) -/

/-- A watchpoint change waits for the cores, and its flag with it. -/
def State.queueWatch (s : State) (i : Iss) (n : Nat) (w : Option Watch) : State :=
  let cnt := i.run.length
  let s1 := s.modCtx i.ci fun c => { c with watchQ := c.watchQ ++ [⟨n, w, i.gi, i.k.sig.toNat, cnt⟩] }
  s1.finish i i.g i.g [] 0 cnt [] i.advance

/-- The descriptor that 32 bytes hold, where it is valid (R368): nc is the number of curds of a shape. -/
def Watch.ofBytes (bs : List Byte) (nc : Nat → Nat) : Option Watch :=
  let w : Watch :=
    { base := BitVec.ofNat 64 (field bs 0 8), rowBytes := field bs 8 4, pitch := field bs 12 4, row0 := field bs 16 4,
      nRows := field bs 20 4, kinds := BitVec.ofNat 8 (field bs 24 1), shape := BitVec.ofNat 8 (field bs 25 1),
      curd := field bs 26 1 }
  let shaped := w.shape.getLsbD 7
  let ap := (aperOf 0 16 (va56 w.base)).1
  if (ap == .spad || ap == .partner || ap == .acc || ap == .global) &&
      decide (1 ≤ w.rowBytes ∧ w.rowBytes ≤ 2 ^ 20) &&
      (if shaped then w.row0 == 0 && w.nRows == 0 && decide (w.curd < nc (w.shape.toNat % 8))
       else decide (1 ≤ w.nRows ∧ w.nRows ≤ 2 ^ 20)) &&
      w.kinds != 0#8 && decide (w.kinds.toNat < 16) && w.shape.toNat / 8 % 16 == 0 && field bs 27 5 == 0 then
    some w
  else none

/-- Bytes of the own scratchpad as the group reads them. -/
def State.ownBytes (s : State) (i : Iss) (va : Addr) (n : Nat) : List Byte :=
  leBytes n (s.readPlace i.g (i.placeOf va 0) n (s.ord + 1))

/-- `wpset` (R368). -/
def execWpset (k : Ctl) (n : BitVec 3) (a : Opnd) (s : State) : Host.Outcome State Fault Refusal :=
  s.issue k fun i => do
    i.check [⟨a, [.s, .zr], 2, 2⟩]
    if !i.acts then .ok (s.passRun i [])
    else
      let va := i.upair a
      boundStop (i.accessFault permR [.spad] 32 va)
      if i.g.atomPending (i.placeOf va 0) 32 (s.ord + 1) then .error .hold
      else
        match Watch.ofBytes (s.ownBytes i va 32) fun x => shpNc (s.shape i.g i.t x) with
        | none => .error (badOperand 13)
        | some w => .ok (s.queueWatch i n.toNat (some w))

/-- `wpclr` (R368). -/
def execWpclr (k : Ctl) (n : BitVec 3) (s : State) : Host.Outcome State Fault Refusal :=
  s.issue k fun i => do
    i.check []
    if !i.acts then .ok (s.passRun i []) else .ok (s.queueWatch i n.toNat none)

/-- `WATCHPOINT_APPLY` (R368): every core of the context applies the oldest change; it completes. -/
def execWatchpointApply (ci : Nat) (s : State) : Host.Outcome State Fault Refusal :=
  .next <|
    match s.contexts[ci]? with
    | none => s
    | some c =>
      match c.watchQ with
      | [] => s
      | w :: rest =>
        (s.modCtx ci fun c => { c with watches := c.watches.set w.n w.watch, watchQ := rest }).modGroup w.group fun g =>
          g.sigDown w.sig w.cnt

end Sys2Proof.Machine
end

