-- ==== Sys2Proof/Machine/Matrix.lean ====
section
/-!
DEFINITION. The matrix engine: quarter instructions `mma`, `mmasp` (R247-R257, R270-R278), the exact
accumulation (R177, R178) and the port (R183), scaling and accumulator tiles (R279-R284), coefficients,
`mpoly` and the accumulator loop (R264-R269, R286-R289), the occupancy of the slices (R250, R338, R340, R343, R346)
and the completion of matrix work (R257, R271).
-/

namespace Sys2Proof.Machine

/-! Tiles (R272) -/

/-- Tiles that a name stands for where width 64 takes a pair. -/
def Iss.pairLen (i : Iss) : Nat := if i.g.width = 64 then 2 else 1

/-- A tile name is allotted; where `pair` is set, width 64 needs an even name and its pair (R249, R272). -/
def Iss.tileOk (i : Iss) (pair : Bool) (o : Opnd) : Bool :=
  match o with
  | .acc n =>
    if pair then decide (n.val + i.pairLen ≤ i.kern.acc) && n.val % i.pairLen == 0 else decide (n.val < i.kern.acc)
  | _ => false

/-- The core tile of the team's tile n (R39). -/
def Iss.tileAt (i : Iss) (n : Nat) : Nat := i.seat.accs.getD n 0

/-- The byte that a completed on-chip store of the group, still in its queue, leaves at a place: matrix and tile
instructions see it (R227, R253, R257). -/
def Group.completedByte (g : Group) (now : Nat) (p : Place) : Option Byte :=
  g.storeq.reverse.findSome? fun e =>
    match e with
    | .chip due _ ws _ _ => if due ≤ now then (ws.reverse.find? fun w => w.1 == p).map fun w => w.2 else none
    | _ => none

/-- A byte of an array with the group's completed stores. -/
def State.ownByte (s : State) (i : Iss) (p : Place) : Byte := (i.g.completedByte i.now p).getD (s.arrRead i.ci p)

/-- Element e of the team's tile n. -/
def State.elem (s : State) (i : Iss) (n e : Nat) : Word :=
  w32 (leNat ((upto (4096 * i.tileAt n + 4 * e) 4).map fun o => s.ownByte i ⟨i.g.core, .acc, o⟩))

/-- The generic address of element e of tile n (R201, R205). -/
def tileAddr (n e : Nat) : Addr := BitVec.ofNat 64 (0x00FF000200000000 + 4096 * n + 4 * e)

/-- Accumulator writes of rows [r0, r0 + rows) of a tile, n elements wide, and fed-back reads of them, as
watchpoints check them (R369). -/
def Iss.tileWatch (i : Iss) (kind t r0 rows n : Nat) : List (Nat × Nat × Addr × Nat) :=
  (upto r0 rows).map fun r => (i.actPos, kind, tileAddr t (32 * r), 4 * n)

/-! Work in flight (R257, R271) -/

/-- The half ck for which a piece of work occupies its slices: a nominal count of ck, stretched by a free number of them
(R208, R250, R346; log entry 4). -/
def occupancy (ck ctr : Nat) : Nat := 2 * (ck + Config.stretch ctr)

/-- A piece of matrix work of an issue. -/
def Iss.workOf (i : Iss) (ord cnt : Nat) (tiles : List (Nat × Nat × Word)) (bytes : List (Place × Byte))
    (ws : List RegWrite) (slices : BitVec 4) (left : Nat) : Work :=
  { ord := ord, sig := i.k.sig.toNat, cnt := cnt, tiles := tiles, bytes := bytes, ws := ws, slices := slices,
    begun := false, left := left }

/-- The end of an issue whose records complete with pieces of work; `now` of its records complete at the
next ck. -/
def State.finishWork (s : State) (i : Iss) (g : Group) (regs : List Nat) (now : Nat) (works : List Work) : State :=
  s.finish i g { g with work := g.work ++ works } regs 0 ((works.map Work.cnt).sum) [⟨1, now, []⟩] i.advance

/-- n further free values have been used. -/
def State.spendFree (s : State) (n : Nat) : State := { s with freeCtr := s.freeCtr + n }

/-- The shared shape of a tile instruction (R247, R271): checks; nothing under a guard that is false
everywhere; one piece of work for the run. `early` is what the entry asks before check 6 (R54, R359), `ops` what it asks of
its operands' names in check 6, `pre` what follows the checks. The body gives tile elements, bytes and register writes. The
manual gives no occupancy of `mpoly`: at least one ck (R338, R250). -/
def State.tileOp (s : State) (k : Ctl) (ns : List Need) (pre : Iss → Except Stop Unit) (slices : BitVec 4)
    (watch : Iss → List (Nat × Nat × Addr × Nat))
    (body : Iss → Except Stop (List (Nat × Nat × Word) × List (Place × Byte) × List RegWrite)) (ops : Iss → Except Stop Unit := fun _ => .ok ())
    (early : Iss → Except Stop Unit := fun _ => .ok ()) : Host.Outcome State Fault Refusal :=
  s.issue k fun i => do
    early i
    i.checkWith ns (ops i)
    pre i
    if !i.acts then .ok (s.passRun i [])
    else
      let out ← body i
      s.watchCheck i (watch i)
      let busy := slices != 0#4
      let w := i.workOf (s.ord + 1) i.run.length out.1 out.2.1 out.2.2 slices (if busy then occupancy 1 s.freeCtr else 0)
      .ok ((s.spendFree (bitNat busy 0)).finishWork i i.g (readRegs ns) 0 [w])

/-- Elements of one tile as a work writes them. -/
def Iss.elems (i : Iss) (t : Nat) (es : List (Nat × Word)) : List (Nat × Nat × Word) :=
  es.map fun e => (i.tileAt t, e.1, e.2)

/-- A test that stops with an illegal operand. -/
def needOr (ok : Bool) (cause : Nat) : Except Stop Unit := if ok then .ok () else .error (badOperand cause)

/-! Accumulation (R177, R178, R183) -/

/-- `accumulate(a0, p)` of R177: one rounding per group of four products, in the one sequence that every element follows
however its quarter operations fuse (R319). -/
def accumulate (a0 : Word) : List FVal → Word
  | p0 :: p1 :: p2 :: p3 :: rest =>
    let g := ((p0.add false p1).add false p2).add false p3
    accumulate (f32Rne ((f32Val a0).add false g)) rest
  | _ => a0

/-- A tile element as it enters the engine port: rounded to bf16 (R183). -/
def port (x : Word) : FVal := decodeF fmtBf16 (roundRne fmtBf16 (f32Val x))

/-- The exact product of two operand elements; integer products are exact integers (R177). -/
def elemProduct (ints : Bool) (a b : FVal) : FVal :=
  match a.mul b with
  | .fin s n d => if ints && n == 0 then .fin false 0 1 else .fin s n d
  | v => v

/-- +0. -/
def fzero : FVal := .fin false 0 1

/-- round_rne(a · b + c) in binary32, fused. -/
def f32Fma (a b c : Word) : Word := f32Rne (((f32Val a).mul (f32Val b)).add false (f32Val c))

/-- round_rne(a · b) in binary32. -/
def f32Mul (a b : Word) : Word := f32Rne ((f32Val a).mul (f32Val b))

/-! Operands of a quarter instruction (R252-R255, R273-R277) -/

/-- A quarter instruction: types, operands, role, mode, source of B, offset, sparsity. -/
structure Quad where
  aty : Ty
  bt : Ty
  d : Opnd
  a : Opnd
  b : Opnd
  c : Opnd
  role : Nat
  add : Bool
  remb : Bool
  off : BitVec 12
  sparse : Bool
  deriving DecidableEq, Repr

/-- A six-bit type (R163). -/
def Ty.sixBit (t : Ty) : Bool := t == .e3m2 || t == .e2m3

/-- Bits of an operand element; a six-bit one is counted by its high plane here. -/
def elemBits (t : Ty) : Nat :=
  match t with
  | .f16 | .bf16 => 16
  | .kq4 | .e3m2 | .e2m3 => 4
  | _ => 8

def Quad.six (q : Quad) : Bool := Sys2Proof.Machine.Ty.sixBit q.aty
def Quad.fedA (q : Quad) : Bool := q.a.isAcc
def Quad.fedB (q : Quad) : Bool := q.b.isAcc

/-- K of a quarter operation (R249). -/
def Quad.k (q : Quad) : Nat := if q.fedA || q.fedB then 32 else 64

/-- A stretch of operand bytes: address, length, alignment. -/
abbrev Stretch := Addr × Nat × Nat

/-- The signed 32-bit displacement of a plane (R274). -/
def planeAt (va : Addr) (w : Word) : Addr := va + w.signExtend 64

/-- The header of the block whose kept values an address names (R255). -/
def sparseHeader (va : Addr) : Addr :=
  let line := va.toNat / 128 * 128
  BitVec.ofNat 64 (line + 8 * ((va.toNat - line) / 32 - 1))

/-- The stretches of an A row (R254, R255). -/
def Quad.aRow (q : Quad) (planes : Word × Word) (va : Addr) : List Stretch :=
  if q.sparse then [(va, 32, 16), (sparseHeader va, 8, 1)]
  else
    let hi := (va, q.k * elemBits q.aty / 8, 16)
    if q.six then [hi, (planeAt va planes.1, q.k / 4, 16)] else [hi]

/-- The stretches of the B range (R254). -/
def Quad.bRange (q : Quad) (planes : Word × Word) (va : Addr) : List Stretch :=
  let hi := (va, q.k * 32 * elemBits q.bt / 8, 64)
  if q.six then [hi, (planeAt va planes.2, q.k * 8, 64)] else [hi]

/-- A Creamery page that an operand fetch may read (R207): its offset for an address. -/
def State.creamOperand (s : State) (i : Iss) (va : Nat) : Option Nat :=
  match s.walk i.ctx.root va with
  | .leaf _ e sh => if pteM e && !pteDev e then some (pteFrame e % 2 ^ 30 + va % 2 ^ sh) else none
  | _ => none

/-- The 64 KiB pages of a stretch. -/
def stretchPages (va n : Nat) : List Nat :=
  (List.range (n / 65536 + 2)).filterMap fun j =>
    let p := (va / 65536 + j) * 65536
    if p < va + n then some (Nat.max p va) else none

/-- The check of a stretch (R30, R201, R207, R252, R254): the cause of its failure. -/
def State.stretchFault (s : State) (i : Iss) (x : Stretch) : Option Nat :=
  match i.rangeFault permM [.spad, .partner, .creamery] x.2.1 x.1 with
  | some c => some c
  | none =>
    if x.1.toNat % x.2.2 != 0 then some causeAlign
    else if (i.aper x.1).1 == .creamery &&
        (stretchPages (va56 x.1) x.2.1).any (fun p => (s.creamOperand i p).isNone) then some causePermission
    else none

/-- One byte of an operand (R252, R253): the Creamery copy of the core's own die, or an array with the group's completed
stores. -/
def State.operandByte (s : State) (i : Iss) (va : Addr) : Byte :=
  match (i.aper va).1 with
  | .creamery =>
    match s.creamOperand i (va56 va) with
    | some o => s.creamRead i.ci (coreDie i.g.core) o
    | none => 0#8
  | _ => s.ownByte i (i.placeOf va 0)

/-- The bytes of a stretch as one number. -/
def State.stretchNat (s : State) (i : Iss) (x : Stretch) : Nat :=
  leNat ((List.range x.2.1).map fun j => s.operandByte i (x.1 + BitVec.ofNat 64 j))

/-- The bytes of a stretch of a core's array that REMB names (R276), with the group's completed stores (R253), or none where
no footprint holds them. -/
def State.remoteNat (s : State) (i : Iss) (core : Nat) (x : Stretch) : Option Nat :=
  (s.remotePlace i.ci core x.1.toNat x.2.1).map fun p =>
    leNat ((upto p.off x.2.1).map fun o => s.ownByte i { p with off := o })

/-- Element j of a plane of n-bit elements. -/
def planeElem (x n j : Nat) : Nat := x / 2 ^ (n * j) % 2 ^ n

/-- Element j of an operand whose stretches hold these numbers (R160, R162-R164). -/
def operandElem (t : Ty) (xs : List Nat) (j : Nat) : FVal :=
  if Sys2Proof.Machine.Ty.sixBit t then tyVal t (4 * planeElem (xs.getD 0 0) 4 j + planeElem (xs.getD 1 0) 2 j)
  else tyVal t (planeElem (xs.getD 0 0) (elemBits t) j)

/-- Logical element 4g + r of a sparse block: kept bytes and header (R255). -/
def sparseElem (t : Ty) (kept hdr j : Nat) : FVal :=
  let g := j / 4
  let nib := planeElem hdr 4 g
  if nib % 4 = j % 4 then tyVal t (planeElem kept 8 (2 * g))
  else if nib / 4 = j % 4 then tyVal t (planeElem kept 8 (2 * g + 1))
  else fzero

/-- The A row of a position from memory. -/
def State.rowA (s : State) (i : Iss) (q : Quad) (planes : Word × Word) (va : Addr) : List FVal :=
  let xs := (q.aRow planes va).map (s.stretchNat i)
  (List.range q.k).map fun j =>
    if q.sparse then sparseElem q.aty (xs.getD 0 0) (xs.getD 1 0) j else operandElem q.aty xs j

/-- The A row of a position from a fed-back tile (R249, R252). -/
def State.rowFed (s : State) (i : Iss) (q : Quad) (p : Nat) : List FVal :=
  (List.range q.k).map fun j => port (s.elem i (opNum q.a + p / 32) (32 * (p % 32) + j))

/-- Column c of a B operand whose stretches hold these numbers. -/
def columnOf (q : Quad) (xs : List Nat) (c : Nat) : List FVal :=
  (List.range q.k).map fun k => operandElem q.bt xs (32 * k + c)

/-- Column c of a fed-back B. -/
def State.columnFed (s : State) (i : Iss) (q : Quad) (c : Nat) : List FVal :=
  (List.range q.k).map fun k => port (s.elem i (opNum q.b) (32 * k + c))

/-- A product is excluded by the shape (R275). -/
def excluded (role : Nat) (x : BitVec 640) (r c : Nat) : Bool :=
  match role with
  | 0 => false
  | 1 => shpIsWhey x r
  | 2 => shpIsWhey x c
  | _ => shpIsWhey x r || shpIsWhey x c || shpCurd x r != shpCurd x c

/-! Checks of a quarter instruction (R248, R249, R252, R273-R278) -/

/-- The operands that check 6 covers. -/
def Quad.needs (q : Quad) : List Need :=
  (if q.fedA then [accN q.a] else [pairN q.a]) ++ (if q.fedB then [accN q.b] else [pairN q.b]) ++
    (if q.six then (if q.role = 0 then [pairN q.c] else []) else if q.role = 0 then [] else [⟨q.c, [.shp], 1, 0⟩]) ++
    [accN q.d]

/-- Tiles that a name stands for. -/
def Iss.tileSet (i : Iss) (pair : Bool) (o : Opnd) : List Nat := upto (opNum o) (if pair then i.pairLen else 1)

/-- Types that may be fed back, and on how many ports (R274). -/
def Quad.feedOk (q : Quad) : Bool :=
  !(q.fedA || q.fedB) || (!q.sparse && (q.aty == .bf16 || (q.aty == .f16 && !(q.fedA && q.fedB))))

/-- Records of the run that act. -/
def Iss.actRecs (i : Iss) : List Rec := i.run.filter fun r => !(i.onIn r).isEmpty

/-- The position at which a record's uniform operands are read: they may differ between records (R249, R251). -/
def Iss.head (i : Iss) (r : Rec) : Nat := (i.onIn r).headD r.b

/-- The remote core that a record's REMB pair names (R276). -/
def Iss.rembCore (i : Iss) (q : Quad) (r : Rec) : Nat := (i.g.pair q.b (i.head r) >>> 32).toNat

/-- What a quarter instruction asks of its operands' names: tiles, feedback, roles, overlap (R54 check 6, R272-R275). -/
def Iss.quadOps (i : Iss) (q : Quad) : Except Stop Unit := do
  needOr (i.tileOk true q.d && (!q.fedA || i.tileOk true q.a) && (!q.fedB || (i.tileOk false q.b && !q.remb))) 0
  needOr q.feedOk 7
  needOr (!(q.six && q.role != 0)) 6
  let dst := i.tileSet true q.d
  needOr (!(q.fedA && (i.tileSet true q.a).any dst.contains) && !(q.fedB && dst.contains (opNum q.b))) 8

/-- Checks before the addresses: names and kinds; then what the values of registers and of the shape record decide, once
check 8 has let them land: uniform pairs, shape kind, coordinate (R54, R272-R276; log entry 23). -/
def State.quadCheck (s : State) (i : Iss) (q : Quad) : Except Stop Unit := do
  i.notInHandler
  i.checkWith q.needs (i.quadOps q)
  if q.fedB then .ok () else i.uniform true q.b
  if q.six && q.role = 0 then i.uniform true q.c else .ok ()
  let x := s.shape i.g i.t (opNum q.c)
  needOr (!(q.role = 1 && shpCols x) && !(q.role = 2 && !shpCols x)) 6
  let near (c : Nat) : Bool := decide (c < 2048) && coreCluster c == coreCluster i.g.core
  needOr (!q.remb || i.actRecs.all fun r => near (i.rembCore q r)) 3

/-- The planes at a position: a plane pair may differ between records (R274). -/
def Iss.planes (i : Iss) (q : Quad) (p : Nat) : Word × Word := if q.six then (i.g.word2 q.c p 0, i.g.word2 q.c p 1) else (0, 0)

/-- The address of the A row of a position. -/
def Iss.aAddr (i : Iss) (q : Quad) (p : Nat) : Addr := i.addr q.a q.off p

/-- Positions whose A rows are fetched: whey rows are not (R260). -/
def Iss.fetched (i : Iss) (q : Quad) (x : BitVec 640) : List Nat :=
  if q.fedA then [] else i.onAge.filter fun p => !((q.role == 1 || q.role == 3) && shpIsWhey x p)

/-- The failure of an A row (R252, R254, R255). -/
def State.rowFault (s : State) (i : Iss) (q : Quad) (p : Nat) : Option Nat :=
  let va := i.aAddr q p
  if q.sparse && !([32, 64, 96].contains (va.toNat % 128)) then
    (match i.rangeFault permM [.spad, .partner, .creamery] 32 va with
     | some c => some c
     | none => some causeAlign)
  else (q.aRow (i.planes q p) va).findSome? (s.stretchFault i)

/-- The failure of a remote B range (R276). -/
def rembFault (xs : List Stretch) : Option Nat :=
  xs.findSome? fun x =>
    if 0x40000 ≤ x.1.toNat then some causeAperture
    else if x.1.toNat % x.2.2 != 0 then some causeAlign
    else none

/-- The B range of a record: a remote offset is the low word of the pair. -/
def Iss.bStretches (i : Iss) (q : Quad) (r : Rec) : List Stretch :=
  let v := i.g.pair q.b (i.head r)
  q.bRange (i.planes q (i.head r)) (if q.remb then v &&& 0xFFFFFFFF#64 else v)

/-- The address checks of a quarter instruction, A rows then B. -/
def State.quadAccess (s : State) (i : Iss) (q : Quad) (x : BitVec 640) : Except Stop Unit := do
  let bad := (i.fetched q x).filter fun p => (s.rowFault i q p).isSome
  match bad with
  | p :: _ => i.failAccess ((s.rowFault i q p).getD 0) bad
  | [] => .ok ()
  if q.fedB then .ok ()
  else
    boundStop (i.actRecs.findSome? fun r =>
      if q.remb then rembFault (i.bStretches q r) else (i.bStretches q r).findSome? (s.stretchFault i))

/-- A record covers whole quarters, each guarded wholly or not at all (R248). -/
def Iss.wholeQuarters (i : Iss) (r : Rec) : Bool :=
  let m := i.g0.guardMask i.k.guard
  !r.lane && r.s == 1 && r.b % 8 == 0 && r.n % 8 == 0 &&
    (List.range (r.n / 8)).all fun q =>
      let ps := upto (r.b + 8 * q) 8
      ps.all (fun p => m.getLsbD p) || ps.all fun p => !m.getLsbD p

/-- The quarter-misalignment trap (R248). -/
def Iss.quarterCheck (i : Iss) : Except Stop Unit :=
  match i.run.find? fun r => !i.wholeQuarters r with
  | some r => .error (.trap 0x05 0 0#32 (some r.b))
  | none => .ok ()

/-- Watchpoint checks of a quarter instruction (R369): operand fetch from the scratchpads, fed-back tiles,
destination rows. Creamery operands and remote ones are not watched. -/
def Iss.quadWatch (i : Iss) (q : Quad) (x : BitVec 640) : List (Nat × Nat × Addr × Nat) :=
  let chip (va : Addr) : Bool := (i.aper va).1 != .creamery
  let pieces (p : Nat) (xs : List Stretch) := (xs.filter fun x => chip x.1).map fun x => (p, watchOperand, x.1, x.2.1)
  ((sortNat (i.fetched q x)).flatMap fun p => pieces p (q.aRow (i.planes q p) (i.aAddr q p))) ++
    (if q.fedB then i.tileWatch watchOperand (opNum q.b) 0 32 32
     else if q.remb then []
     else i.actRecs.flatMap fun r => pieces ((i.onIn r).headD 0) (i.bStretches q r)) ++
    (if q.fedA then i.on.map fun p => (p, watchOperand, tileAddr (opNum q.a + p / 32) (32 * (p % 32)), 128) else []) ++
    i.on.map fun p => (p, watchAcc, tileAddr (opNum q.d + p / 32) (32 * (p % 32)), 128)

/-! Quarter operations (R249, R275) -/

/-- The elements that quarter operations at some positions write: each by the sequence of R177 on its own, whatever shares
the pass and whenever it runs (R319). -/
def State.quadBlock (s : State) (i : Iss) (q : Quad) (x : BitVec 640) (cols : List (List FVal)) (ps : List Nat) :
    List (Nat × Nat × Word) :=
  let ints := q.aty == .i8 && q.bt == .i8
  ps.flatMap fun p =>
    let fed := (i.fetched q x).contains p
    let row := if q.fedA then s.rowFed i q p else if fed then s.rowA i q (i.planes q p) (i.aAddr q p) else []
    let t := opNum q.d + p / 32
    (List.range 32).map fun c =>
      let e := 32 * (p % 32) + c
      let a0 := if q.add then s.elem i t e else 0#32
      let ps := if excluded q.role x p c then List.replicate q.k fzero
        else (row.zip (cols.getD c [])).map fun ab => elemProduct ints ab.1 ab.2
      (i.tileAt t, e, accumulate a0 ps)

/-- The columns of B for a record, or none where a remote range lies in no footprint (R276). -/
def State.columns (s : State) (i : Iss) (q : Quad) (r : Rec) : Option (List (List FVal)) :=
  if q.fedB then some ((List.range 32).map (s.columnFed i q))
  else
    let xs := (i.bStretches q r).map fun x =>
      if q.remb then s.remoteNat i (i.rembCore q r) x else some (s.stretchNat i x)
    if xs.all Option.isSome then some ((List.range 32).map (columnOf q (xs.filterMap id))) else none

/-! Passes (R250, R251) -/

/-- Slices that quarter operations at some positions occupy (R250). -/
def slicesOf (ps : List Nat) : BitVec 4 := ps.foldl (fun m p => m ||| BitVec.twoPow 4 (p / 8 % 4)) 0#4

/-- K consumed per ck (R250). -/
def Quad.perCk (q : Quad) : Nat :=
  if q.fedA || q.fedB || q.aty == .f16 || q.aty == .bf16 then 2 else if q.sparse || q.aty == .kq4 then 8 else 4

/-- Nominal occupancy of a quarter operation (R250). -/
def Quad.ck (q : Quad) : Nat := q.k / q.perCk

/-- The B operands of two records of the run are identical (R251): type, mode and shape snapshot are the issue's. -/
def Iss.sameB (i : Iss) (q : Quad) (r t : Rec) : Bool :=
  q.fedB || (i.bStretches q r == i.bStretches q t && (!q.remb || i.rembCore q r == i.rembCore q t))

/-- Records in classes of which each holds those that a test joins to its first. -/
def fuse (same : Rec → Rec → Bool) : Nat → List Rec → List (List Rec)
  | 0, _ => []
  | _, [] => []
  | n + 1, r :: rest => (r :: rest.filter (same r)) :: fuse same n (rest.filter fun t => !same r t)

/-- A pass: the records that share it, and whether it runs quarters 4 to 7 (R251). -/
structure Pass where
  recs : List Rec
  upper : Bool
  deriving DecidableEq, Repr

/-- Positions of a record in a pass. -/
def Pass.onIn (x : Pass) (i : Iss) (r : Rec) : List Nat := (i.onIn r).filter fun p => decide (32 ≤ p) == x.upper

/-- Positions of a pass. -/
def Pass.on (x : Pass) (i : Iss) : List Nat := x.recs.flatMap (x.onIn i)

/-- The passes of an issue (R251): records with one B fuse; quarters 0 to 3 go first, then 4 to 7. -/
def Iss.quadPasses (i : Iss) (q : Quad) : List Pass :=
  ((fuse (i.sameB q) i.actRecs.length i.actRecs).flatMap fun rs => [⟨rs, false⟩, ⟨rs, true⟩]).filter fun x => !(x.on i).isEmpty

/-- The rounds beyond the first that the A rows of one quarter take, the eight rows' words read side by side (R206,
R252; log entry 67). -/
def Iss.rowRounds (i : Iss) (q : Quad) (ps : List Nat) : Nat :=
  let rows := ps.map fun p => (p, (q.aRow (i.planes q p) (i.aAddr q p)).flatMap fun x =>
    (List.range ((x.2.1 + 3) / 4)).map fun j => x.1 + BitVec.ofNat 64 (4 * j))
  ((List.range (maxNat (rows.map fun r => r.2.length))).map fun j =>
    roundsOf (rows.flatMap fun r => ((r.2[j]?).map fun va => i.bankWords r.1 va 4).getD []) - 1).sum

/-- The extra ck that the rounds of a pass's A rows take. -/
def Iss.passRounds (i : Iss) (q : Quad) (x : BitVec 640) (u : Pass) : Nat :=
  ((List.range 8).map fun n => i.rowRounds q ((u.on i).filter fun p => p / 8 == n && (i.fetched q x).contains p)).sum

/-- The work of a pass: a record completes with the last pass that holds a quarter of it (R257). -/
def State.passWork (s : State) (i : Iss) (q : Quad) (x : BitVec 640) (ctr : Nat) (u : Pass) : Work :=
  let last (r : Rec) : Bool := (i.onIn r).all fun p => decide (p < 32) || u.upper
  i.workOf (s.ord + 1) (u.recs.filter fun r => last r && !(u.onIn i r).isEmpty).length
    (u.recs.flatMap fun r => s.quadBlock i q x ((s.columns i q r).getD []) (u.onIn i r)) [] []
    (slicesOf (u.on i)) (occupancy (q.ck + i.passRounds q x u) ctr)

/-- A remote B that lies in no footprint (R242, R276): a fault of kind "remote access", which stops the
context. -/
def State.remoteStop (s : State) (i : Iss) (q : Quad) (r : Rec) : State :=
  let r : FaultRec :=
    { addr := i.g.pair q.b (i.head r) &&& 0xFFFFFFFF#64, pc := i.pc, index := 0xFFFFFFFF#32, team := w32 i.t.t,
      kind := TKind.remote.code, access := 0, slot := 0, group := i.g.g, serial := 0#32, src := .group i.gi,
      since := s.now, served := false }
  (s.pushFault i.ci r).stopContext i.ci "remote access"

/-- The accessed bits that operand fetches from the Creamery set (R211). -/
def State.touchOperands (s : State) (i : Iss) (xs : List Stretch) : State :=
  (dedup (xs.flatMap fun x => if (i.aper x.1).1 == .creamery then stretchPages (va56 x.1) x.2.1 else [])).foldl
    (fun s p => match s.walk i.ctx.root p with
      | .leaf at_ e _ => s.touch at_ e .operand
      | _ => s) s

/-- A quarter instruction whole (R251, R275): one piece of work per pass. -/
def State.quadOp (s : State) (k : Ctl) (q : Quad) : Host.Outcome State Fault Refusal :=
  s.issue k fun i => do
    s.quadCheck i q
    let n := opNum q.c
    let x := if q.role = 0 || q.six then 0#640 else s.shape i.g i.t n
    s.quadAccess i q x
    i.quarterCheck
    s.watchCheck i (i.quadWatch q x)
    let recs := i.actRecs
    match recs.find? fun r => (s.columns i q r).isNone with
    | some r => .ok (s.remoteStop i q r)
    | none =>
      let passes := i.quadPasses q
      let works := passes.mapIdx fun j u => s.passWork i q x (s.freeCtr + j) u
      let fetches := (i.fetched q x).flatMap (fun p => q.aRow (i.planes q p) (i.aAddr q p)) ++
        (if q.fedB || q.remb then [] else recs.flatMap (i.bStretches q))
      let s1 := ((s.touchOperands i fetches).countRounds i.ci (passes.map (i.passRounds q x)).sum).spendFree passes.length
      let s2 := s1.finishWork i i.g (readRegs q.needs) (i.run.length - recs.length) works
      .ok (if q.role = 0 then s2 else s2.sawShape i.gi n (s.shapeIdx i.g i.t n))

/-- The B type of `mma` (R274). -/
def mmaB (aty : Ty) (bty : BitVec 2) : Ty :=
  if aty = .kq4 then (match bty.toNat with | 0 => .e4m3 | 1 => .e5m2 | _ => .i8) else aty

/-- `mma` (R273-R276, R278). -/
def execMma (k : Ctl) (aty : Ty) (bty : BitVec 2) (d a b c : Opnd) (role : BitVec 2) (acc remb : Bool) (off : BitVec 12)
    (s : State) : Host.Outcome State Fault Refusal :=
  s.quadOp k ⟨aty, mmaB aty bty, d, a, b, c, role.toNat, acc, remb, off, false⟩

/-- `mmasp` (R277). -/
def execMmasp (k : Ctl) (ty : Ty) (d a b c : Opnd) (role : BitVec 2) (acc : Bool) (off : BitVec 12) (s : State) :
    Host.Outcome State Fault Refusal :=
  s.quadOp k ⟨ty, ty, d, a, b, c, role.toNat, acc, false, off, true⟩

/-! Scaling (R279, R280) -/

/-- A value source read at positions (R271). -/
def valueN (o : Opnd) : Need := src1 o

/-- Guarded positions in the order of R92. -/
def Iss.ordered (i : Iss) : List Nat := i.inOrder.flatMap i.onIn

/-- `scacc` (R279). -/
def execScacc (k : Ctl) (set : Bool) (d a b : Opnd) (s : State) : Host.Outcome State Fault Refusal :=
  let row (p c : Nat) : Nat := 32 * (p % 32) + c
  s.tileOp (ops := fun i => needOr (i.tileOk true d && i.tileOk true a) 0) k [accN d, accN a, valueN b] (fun _ => .ok ()) 0
    (fun i => i.on.map fun p => (p, watchAcc, tileAddr (opNum d + p / 32) (32 * (p % 32)), 128))
    fun i => .ok (i.on.flatMap fun p => (List.range 32).map fun c =>
      let x := i.g.word b p
      let pv := s.elem i (opNum a + p / 32) (row p c)
      let z := s.elem i (opNum d + p / 32) (row p c)
      (i.tileAt (opNum d + p / 32), row p c, if set then f32Mul x pv else f32Fma x pv z), [], [])

/-- `bscale` (R280). -/
def execBscale (k : Ctl) (hi : Bool) (d a : Opnd) (s : State) : Host.Outcome State Fault Refusal :=
  let cols (i : Iss) : List (Nat × Nat) :=
    (i.on.filter fun p => decide (p < 32)).map fun p => (p, if hi then p + 16 else p)
  s.tileOp (early := fun i => if hi && i.g.width != 16 then .error (illegal 5) else .ok ())
    (ops := fun i => needOr (i.tileOk true d) 0) k [accN d, valueN a] (fun _ => .ok ()) 0
    (fun i => (cols i).flatMap fun pc => (i.tileSet true d).flatMap fun t => (List.range 32).map fun r =>
      (pc.1, watchAcc, tileAddr t (32 * r + pc.2), 4))
    fun i => .ok ((cols i).flatMap fun pc => (i.tileSet true d).flatMap fun t => (List.range 32).map fun r =>
      (i.tileAt t, 32 * r + pc.2, f32Mul (i.g.word a pc.1) (s.elem i t (32 * r + pc.2))), [], [])

/-! Accumulator handling (R281-R284) -/

/-- The elements of a whole tile. -/
def Iss.wholeTile (i : Iss) (t : Nat) (f : Nat → Word) : List (Nat × Nat × Word) :=
  i.elems t ((List.range 1024).map fun e => (e, f e))

/-- `accz` (R281). -/
def execAccz (k : Ctl) (d : Opnd) (s : State) : Host.Outcome State Fault Refusal :=
  s.tileOp k [accN d] (fun _ => .ok ()) 0 (fun i => i.tileWatch watchAcc (opNum d) 0 32 32)
    fun i => .ok (i.wholeTile (opNum d) fun _ => 0#32, [], [])

/-- The bytes of an element of `accld` and `accst`. -/
def accWidth (t : Ty) : Nat := if t = .f32 then 4 else 2

/-- The range of `accld` and `accst`: address and pitch (R281). -/
def Iss.accRange (i : Iss) (a c : Opnd) (off : BitVec 12) : Addr × Nat :=
  (i.upair a + off.signExtend 64, (i.uword c).toNat)

/-- The checks of the range (R281). -/
def Iss.accRangeCheck (i : Iss) (perm : Nat) (ty : Ty) (a c : Opnd) (off : BitVec 12) : Except Stop Unit := do
  i.uniform true a
  if !i.acts then .ok ()
  else
    let (va, p) := i.accRange a c off
    let z := accWidth ty
    if va.toNat % 4 != 0 || p % 4 != 0 || decide (p < 32 * z) then .error (badBound causeAlign)
    else boundStop (i.rangeFault perm [.spad, .partner] (31 * p + 32 * z) va)

/-- The address of an element in the scratchpad. -/
def accElemAddr (va : Addr) (p z e : Nat) : Addr := va + BitVec.ofNat 64 (e / 32 * p + e % 32 * z)

/-- `accld` (R281). -/
def execAccld (k : Ctl) (ty : Ty) (d a c : Opnd) (off : BitVec 12) (s : State) : Host.Outcome State Fault Refusal :=
  s.tileOp k [accN d, pairN a, ⟨c, [.s, .zr], 1, 1⟩] (fun i => i.accRangeCheck permR ty a c off) 0
    (fun i => i.tileWatch watchAcc (opNum d) 0 32 32)
    fun i =>
      let (va, p) := i.accRange a c off
      let z := accWidth ty
      .ok (i.wholeTile (opNum d) fun e =>
        let x := leNat ((upto 0 z).map fun o => s.operandByte i (accElemAddr va p z e + BitVec.ofNat 64 o))
        if ty = .f32 then w32 x else f32Rne (tyVal ty x), [], [])

/-- `accst` (R281). -/
def execAccst (k : Ctl) (ty : Ty) (a b c : Opnd) (off : BitVec 12) (s : State) : Host.Outcome State Fault Refusal :=
  s.tileOp k [pairN a, accN b, ⟨c, [.s, .zr], 1, 1⟩] (fun i => i.accRangeCheck permW ty a c off) 0 (fun _ => [])
    fun i =>
      let (va, p) := i.accRange a c off
      let z := accWidth ty
      .ok ([], (List.range 1024).flatMap fun e =>
        let w := s.elem i (opNum b) e
        let x := if ty = .f32 then w.toNat else roundRne (fmtOf ty) (f32Val w)
        let pl := i.placeOf (accElemAddr va p z e) 0
        ((upto pl.off z).map fun o => ({ pl with off := o } : Place)).zip (leBytes z x), [])

/-- `accmov` (R282). -/
def execAccmov (k : Ctl) (tr : Bool) (d a : Opnd) (s : State) : Host.Outcome State Fault Refusal :=
  s.tileOp k [accN d, accN a] (fun _ => .ok ()) 0 (fun i => i.tileWatch watchAcc (opNum d) 0 32 32)
    fun i => .ok (i.wholeTile (opNum d) fun e =>
      s.elem i (opNum a) (if tr then 32 * (e % 32) + e / 32 else e), [], [])

/-- The check of element indices (R283): bits [31:10] are zero. -/
def Iss.indexCheck (i : Iss) (o : Opnd) : Except Stop Unit :=
  failAt 0x04 causeAperture (i.onAge.filter fun p => decide (1024 ≤ (i.g.word o p).toNat))

/-- A per-position instruction whose results are written at a completion of its own (R271): each record that issues,
once the range records have expanded, counts in its flag (R49). -/
def State.finishLater (s : State) (i : Iss) (ns : List Need) (v : Values) : State :=
  s.finishWork i v.g (readRegs ns) 0
    [i.workOf (s.ord + 1) (v.g.recs.filter i.inRun).length [] [] (v.range ++ v.lane) 0 0]

/-- `accpeek` (R283). -/
def execAccpeek (k : Ctl) (d a b : Opnd) (s : State) : Host.Outcome State Fault Refusal :=
  s.issue k fun i => do
    let ns := [dstVS d, accN a, src1 b]
    i.check ns
    i.indexCheck b
    let val (p _j : Nat) : Word := s.elem i (opNum a) (i.g.word b p).toNat
    let cell (r : Rec) : Cell :=
      match i.g.srcCls false r (.op b) with
      | .u => .form [⟨.u, val ((i.onIn r).headD r.b) 0, 0#32⟩]
      | .a => .fit []
      | .l => .x
      | .d => .skip
    let v ← i.values d 1 val cell fun r => i.g.srcCls false r (.op b) == .u
    s.watchCheck i (i.on.map fun p => (p, watchRead, tileAddr (opNum a) (i.g.word b p).toNat, 4))
    .ok (s.finishLater i ns v)

/-- The new element of `accpatch` (R284). -/
def patchElem (op : Nat) (old v : Word) : Word :=
  match op with
  | 1 => f32Add old v
  | 2 => f32Mul old v
  | _ => v

/-- The elements that `accpatch` leaves: each write sees the one before it (R284). -/
def patchAll (op : Nat) (old : Nat → Word) : List (Nat × Word) → List (Nat × Word) → List (Nat × Word)
  | done, [] => done
  | done, (e, v) :: rest =>
    let cur := ((done.find? fun d => d.1 == e).map fun d => d.2).getD (old e)
    patchAll op old ((e, patchElem op cur v) :: done.filter fun d => d.1 != e) rest

/-- `accpatch` (R284). -/
def execAccpatch (k : Ctl) (op : BitVec 2) (d a b : Opnd) (s : State) : Host.Outcome State Fault Refusal :=
  s.tileOp k [accN d, src1 a, src1 b] (fun i => i.indexCheck a) 0
    (fun i => i.on.map fun p => (p, watchAcc, tileAddr (opNum d) (i.g.word a p).toNat, 4))
    fun i => .ok (i.elems (opNum d) (patchAll op.toNat (s.elem i (opNum d)) []
      (i.ordered.map fun p => ((i.g.word a p).toNat, i.g.word b p))), [], [])

/-! Coefficients and `mpoly` (R264, R265, R286, R287) -/

/-- A coefficient's name lies within the kernel's allotment; 0xFF names none (R40, R286). -/
def Iss.coefOk (i : Iss) : Opnd → Bool
  | .c n => decide (n.val < i.kern.coef)
  | _ => true

/-- The write of a coefficient; at 0xFF it is discarded (R40). -/
def coefWrite (d : Opnd) (v : Word) : List RegWrite :=
  match d with
  | .c n => [.c n.val v]
  | _ => []

/-- `mcoef` (R286). -/
def execMcoef (k : Ctl) (rd : Bool) (d a : Opnd) (s : State) : Host.Outcome State Fault Refusal :=
  let ns := if rd then [⟨d, [.s, .zr], 1, 0⟩, ⟨a, [.c, .zr], 1, 0⟩] else [⟨d, [.c, .zr], 1, 0⟩, src1 a]
  s.tileOp (ops := fun i => needOr (i.coefOk (if rd then a else d)) 9) k ns (fun i => if rd then .ok () else i.uniform false a) 0
    (fun _ => [])
    fun i => .ok ([], [], if rd then i.sWrite d (i.g.word a 0) else if i.k.nwb then [] else coefWrite d (i.uword a))

/-- n of a size code (R270). -/
def sizeOf (c : BitVec 2) : Nat := 8 * 2 ^ c.toNat

/-- An n × n block, by rows. -/
abbrev Block := List (List Word)

/-- Element (r, c) of a block. -/
def cell (b : Block) (r c : Nat) : Word := (b.getD r []).getD c 0#32

/-- The block whose elements a function gives. -/
def tabulate (n : Nat) (f : Nat → Nat → Word) : Block :=
  (List.range n).map fun r => (List.range n).map (f r)

/-- Rows of a block as they enter the port. -/
def portRows (x : Block) : List (List FVal) := x.map fun r => r.map port

/-- The transpose of an n × n block. -/
def transpose (n : Nat) (x : Block) : Block := tabulate n fun r c => cell x c r

/-- a0 + x · y, by R177, on operands that enter the port (R183). -/
def blockProduct (n : Nat) (a0 : Nat → Nat → Word) (x y : Block) : Block :=
  let xs := portRows x
  let ys := portRows (transpose n y)
  xs.mapIdx fun r row => ys.mapIdx fun c col => accumulate (a0 r c) ((row.zip col).map fun p => p.1.mul p.2)

/-- A diagonal. -/
def diag (v : Word) (r c : Nat) : Word := if r = c then v else 0#32

/-- Horner's rule of R265: the blocks of T and U after the steps for coefficients j - 1 down to 0. -/
def horner (n : Nat) (coef : Nat → Word) (x : Block) : Nat → Block → Block → Block × Block
  | 0, t, u => (t, u)
  | j + 1, t, _ => horner n coef x j (blockProduct n (diag (coef j)) t x) t

/-- Elements of an n × n block of a tile. -/
def Iss.blockElems (i : Iss) (t n : Nat) (b : Block) : List (Nat × Nat × Word) :=
  (List.range n).flatMap fun r => (List.range n).map fun c => (i.tileAt t, 32 * r + c, cell b r c)

/-- The n × n block of a tile. -/
def State.block (s : State) (i : Iss) (t n : Nat) : Block := tabulate n fun r c => s.elem i t (32 * r + c)

/-- `mpoly` (R265, R287): the scratch tile holds the last intermediate, where there is one. -/
def execMpoly (k : Ctl) (size : BitVec 2) (deg : BitVec 3) (d a b : Opnd) (s : State) : Host.Outcome State Fault Refusal :=
  let n := sizeOf size
  let g := deg.toNat
  s.tileOp (early := Iss.notInHandler)
    (ops := fun i => do
      needOr (distinct [opNum d, opNum a, opNum b]) 8
      needOr (decide (g < i.kern.coef)) 9) k [accN d, accN a, accN b] (fun _ => .ok ()) 15
    (fun i => i.tileWatch watchAcc (opNum d) 0 n n ++
      (if 1 ≤ g then i.tileWatch watchOperand (opNum a) 0 n n ++ i.tileWatch watchOperand (opNum b) 0 n n ++
        i.tileWatch watchAcc (opNum b) 0 n n else []) ++
      (if 2 ≤ g then i.tileWatch watchOperand (opNum d) 0 n n else []))
    fun i =>
      let coef (j : Nat) : Word := spGet 0#32 i.g.c j
      let out := horner n coef (s.block i (opNum a) n) g (tabulate n (diag (coef g))) []
      .ok (i.blockElems (opNum d) n out.1 ++ (if 1 ≤ g then i.blockElems (opNum b) n out.2 else []), [], [])

/-! The loop state mls (R268) -/

/-- The fields of mls. -/
structure Mls where
  res : Word
  done : Nat
  count : Nat
  rise : Nat
  nsz : Nat
  status : Nat
  phase : Nat
  deriving DecidableEq, Repr

/-- The fields of a value. -/
def Mls.of (x : BitVec 64) : Mls :=
  let f (lo w : Nat) : Nat := x.toNat / 2 ^ lo % 2 ^ w
  ⟨half x 1, f 24 8, f 16 8, f 14 2, f 12 2, f 8 4, f 6 2⟩

/-- The value of the fields. -/
def Mls.bits (m : Mls) : BitVec 64 :=
  m.res ++ w32 (m.done % 256 * 2 ^ 24 + m.count % 256 * 2 ^ 16 + m.rise % 4 * 2 ^ 14 + m.nsz % 4 * 2 ^ 12 +
    m.status % 16 * 2 ^ 8 + m.phase % 4 * 2 ^ 6)

/-- `mloopget` (R289). -/
def execMloopget (k : Ctl) (d : Opnd) (s : State) : Host.Outcome State Fault Refusal :=
  s.issue k fun i => do
    let ns := [dstVS d 2]
    i.check ns
    let v ← i.values d 2 (fun _ j => word i.g.mls j) (fun _ => .form (uniformForms i.g.mls 2)) (fun _ => true)
    .ok (if i.acts then s.finishLater i ns v else s.passRun i [])

/-- `mloopset` (R289): it holds while a loop runs. -/
def execMloopset (k : Ctl) (a : Opnd) (s : State) : Host.Outcome State Fault Refusal :=
  s.issue k fun i => do
    i.check [src2v a]
    i.uniform true a
    if !i.acts then .ok (s.passRun i [])
    else if (Mls.of i.g.mls).phase = 1 then .error .hold
    else if !mlsOk (i.upair a) then .error (badOperand 10)
    else .ok (s.finishWork i { i.g with mls := i.upair a } (readRegs [src2v a]) 0 [i.workOf (s.ord + 1) i.run.length [] [] [] 0 0])
where
  src2v (o : Opnd) : Need := ⟨o, [.v, .s, .zr], 2, 2⟩

/-! `miter` (R266, R267, R269, R288) -/

/-- One iteration (R266): the new S1, S2, T and the residual. -/
def miterIteration (n : Nat) (c : Nat → Word) (t : Block) : Block × Block × Block × Word :=
  let zero (_ _ : Nat) : Word := 0#32
  let s1 := blockProduct n zero t (transpose n t)
  let s2 := blockProduct n zero s1 t
  let m := blockProduct n zero s1 s2
  let next := tabulate n fun r col =>
    f32Fma (c 0) (cell t r col) (f32Fma (c 1) (cell s2 r col) (f32Mul (c 2) (cell m r col)))
  let diffs := (next.flatten.zip t.flatten).map fun p => f32Rne ((f32Val p.1).add false (f32Val p.2).neg)
  (s1, s2, next, diffs.foldl (fun acc d => f32Fma d d acc) 0#32)

/-- What the loop does after an iteration (R267). -/
inductive LoopEnd where
  | diverged (status : Nat)
  | ended (status : Nat)
  | boundary
  deriving DecidableEq, Repr

/-- The value is finite. -/
def FVal.finite : FVal → Bool
  | .fin _ _ _ => true
  | _ => false

/-- The table of R267, on mls as the iteration has updated it. -/
def loopOutcome (c : Nat → Word) (cap : Nat) (m : Mls) : LoopEnd :=
  let res := f32Val m.res
  let c6 := f32Val (c 6)
  if !res.finite then .diverged 3
  else if !c6.isNan && !c6.lt res then .ended 1
  else if (f32Val (c 7)).lt res then .diverged 4
  else if m.rise = 3 then .diverged 5
  else if m.count = cap then .ended 2
  else .boundary

/-- mls after an iteration with a residual (R267). -/
def Mls.iterated (m : Mls) (res : Word) : Mls :=
  let rises := m.count != 0 && (f32Val m.res).lt (f32Val res)
  { m with count := m.count + 1, rise := if rises then Nat.min 3 (m.rise + 1) else 0, res := res }

/-- A loop that has ended (R269). -/
def Mls.finished (m : Mls) (status : Nat) : Mls := { m with done := m.count, count := 0, phase := 0, status := status }

/-- The accesses of an iteration, as watchpoints check them. -/
def Iss.loopWatch (i : Iss) (t s1 s2 n : Nat) : List (Nat × Nat × Addr × Nat) :=
  [t, s1, s2].flatMap fun x => i.tileWatch watchOperand x 0 n n ++ i.tileWatch watchAcc x 0 n n

/-- A predicate's write of one bit at some positions. -/
def boolWrite (p : Nat) (mask : BitVec 64) (b : Bool) : RegWrite := .p p mask (if b then mask else 0#64)

/-- `miter` at issue (R269, R288). -/
def execMiter (k : Ctl) (size : BitVec 2) (cap : BitVec 8) (d a b c : Opnd) (s : State) : Host.Outcome State Fault Refusal :=
  s.issue k fun i => do
    let n := sizeOf size
    i.notInHandler
    i.checkWith [predN d, accN a, accN b, accN c] do
      needOr (distinct [opNum a, opNum b, opNum c]) 8
      needOr (cap != 0#8) 14
      needOr (decide (8 ≤ i.kern.coef)) 9
    if !i.acts then .ok (s.passRun i [])
    else
      let m := Mls.of i.g.mls
      if m.phase = 1 then .error .hold
      else
        let resumed := m.phase == 2 && m.count != 0 && m.nsz == size.toNat
        if resumed && m.status == 7 then .ok ()
        else s.watchCheck i (i.loopWatch (opNum a) (opNum b) (opNum c) n)
        let m1 : Mls := if resumed then m else { m with count := 0, rise := 0, res := 0#32, nsz := size.toNat }
        let mask := maskOf i.on
        if cap.toNat ≤ m1.count then
          let ws := if i.k.nwb then [] else [boolWrite (predNum d) mask false]
          .ok (s.finish i i.g { i.g with mls := (m1.finished 2).bits } [] 0 0 [⟨1, i.run.length, ws⟩] i.advance)
        else
          let l : Loop := ⟨s.ord + 1, opNum a, opNum b, opNum c, n, cap.toNat, (List.range 8).map (spGet 0#32 i.g.c),
            if i.k.nwb then 7 else predNum d, mask, false, occupancy 1 s.freeCtr⟩
          .ok (((s.spendFree 1).blockRun i .loopEnd none 0#32).modGroup i.gi fun g =>
            { g with mls := { m1 with phase := 1 }.bits, loop := some l })

/-- The wait of the records of a running loop. -/
def Group.loopWait (g : Group) : Option Wait :=
  (g.recs.filterMap Rec.wait).find? fun w => w.cond == .loopEnd

/-- The records of the loop leave their wait: they go on, or stand at the `miter` again; the flag falls. -/
def Group.leaveLoop (g : Group) (again : Bool) : Group :=
  match g.loopWait with
  | some w => { (g.wake { w with again := again } 0#32 0) with loop := none }
  | none => { g with loop := none }

/-- The records of a suspended loop stand at a blocking point with wake condition "re-issue" (R269). -/
def Group.waitAgain (g : Group) (ord : Nat) (ps : List Nat) : Group :=
  { g with recs := g.recs.map fun r =>
      if r.positions.all ps.contains then { r with wait := some ⟨.miterAgain, true, 0, 0, none, 0#32, ord, 0, []⟩ } else r }

/-- Positions of the records that wait for the loop. -/
def Group.loopRun (g : Group) : List Nat :=
  allPositions (g.recs.filter fun r => (r.wait.map Wait.cond) == some .loopEnd)

/-! Occupancy of the slices (R250, R338, R340, R343, R346) -/

/-- Work of the group that has not begun may begin to occupy slices in a ck: not while an open phase has yet to start
(R343). -/
def Group.mayBeginAt (g : Group) (ck : Nat) : Bool := ((g.openAt ck).map fun p => decide (p.start ≤ ck)).getD true

/-- The number of slices of a set. -/
def sliceCount (m : BitVec 4) : Nat := (List.range 4).countP fun q => m.getLsbD q

/-- n slices that the group occupies in a ck are declared (R340). -/
def Group.declared (g : Group) (ck n : Nat) : Bool :=
  ((g.openAt ck).map fun p => decide (p.start ≤ ck) && decide (4 * n ≤ p.intensity)).getD false

/-- A piece of work, or a loop, that needs the slices: its group, its place among the group's work (none for the loop),
the stamp of its issue, whether it has begun, its slices. -/
structure Claim where
  gi : Nat
  n : Option Nat
  ord : Nat
  begun : Bool
  slices : BitVec 4
  deriving DecidableEq, Repr

/-- The claims of a group in a ck. -/
def Group.claims (g : Group) (gi ck : Nat) : List Claim :=
  let ws := (g.work.mapIdx fun n w => (n, w)).filterMap fun p =>
    if p.2.left = 0 then none else some ⟨gi, some p.1, p.2.ord, p.2.begun, p.2.slices⟩
  let ls := (g.loop.toList.filter fun l => l.left != 0).map fun l => (⟨gi, none, l.ord, l.begun, 15#4⟩ : Claim)
  (ws ++ ls).filter fun c => c.begun || g.mayBeginAt ck

/-- The claim that a core's matrix unit serves in a ck: the one that has begun, else the earliest issued of those that may
(R250): one B stream serves one pass at a time. -/
def State.served (s : State) (core : Nat) : Option Claim :=
  let cs := (s.groups.mapIdx fun j g => (j, g)).flatMap fun p =>
    if p.2.core == core then p.2.claims p.1 (s.ckAt core) else []
  match cs.find? Claim.begun with
  | some c => some c
  | none => leastBy Claim.ord cs

/-- A piece of work after a ck in which it was served: an undeclared one advances in every other ck (R346). -/
def Claim.advance (c : Claim) (half : Nat) (g : Group) : Group :=
  match c.n with
  | some n => { g with work := modAt g.work n fun w => { w with begun := true, left := w.left - half } }
  | none => { g with loop := g.loop.map fun l => { l with begun := true, left := l.left - half } }

/-- One ck of a core's matrix unit passes (R250, R338, R340, R346). -/
def State.matrixCk (s : State) (core : Nat) : State :=
  match s.served core with
  | none => s
  | some c =>
    match s.groups[c.gi]? with
    | none => s
    | some g =>
      let n := sliceCount c.slices
      if g.declared (s.ckAt core) n then s.modGroup c.gi (c.advance 2)
      else (s.modGroup c.gi (c.advance 1)).modCtx g.ctx fun x => { x with undeclared := x.undeclared + BitVec.ofNat 64 n }

/-- A completed store of an earlier stamp, still queued, no longer writes some places (R257). -/
def StoreEnt.without (ord now : Nat) (ps : List Place) : StoreEnt → StoreEnt
  | .chip due o ws cq bytes =>
    .chip due o (if o < ord ∧ due ≤ now then ws.filter fun w => !ps.contains w.1 else ws) cq bytes
  | e => e

/-- The places of tile elements. -/
def tilePlaces (core : Nat) (ts : List (Nat × Nat × Word)) : List Place :=
  ts.flatMap fun t => (upto (4096 * t.1 + 4 * t.2.1) 4).map fun o => ⟨core, .acc, o⟩

/-- What matrix work of a stamp writes stands after the group's stores that had completed before it issued, queued as they
may still be (R257). -/
def Group.overwrite (g : Group) (ord now : Nat) (ps : List Place) : Group :=
  if g.storeq.isEmpty then g else { g with storeq := g.storeq.map (StoreEnt.without ord now ps) }

/-- The loop's group after its iteration: tiles and mls written. -/
def State.putIteration (s : State) (i : Iss) (l : Loop) (out : Block × Block × Block × Word) (m : Mls) : State :=
  let cells := i.blockElems l.s1 l.n out.1 ++ i.blockElems l.s2 l.n out.2.1 ++ i.blockElems l.t l.n out.2.2.1
  (cells.foldl (fun s w => s.tileWrite i.ci i.g.core w.1 w.2.1 w.2.2) s).modGroup i.gi fun g =>
    { g.overwrite l.ord i.now (tilePlaces i.g.core cells) with mls := m.bits }

/-- A suspension (R269): status 6, or 7 for a watchpoint. -/
def State.suspendLoop (s : State) (gi : Nat) (m : Mls) (status : Nat) : State :=
  s.modGroup gi fun g => { (g.leaveLoop true) with mls := { m with phase := 2, status := status }.bits }

/-- What follows an iteration (R267, R269). -/
def State.afterIteration (s : State) (i : Iss) (l : Loop) (m : Mls) : State :=
  let record := (i.g.recs.findIdx? fun r => (r.wait.map Wait.cond) == some .loopEnd).getD 0
  let pc := ((i.g.recs[record]?).map Rec.pc).getD 0#64
  match loopOutcome (fun j => l.coef.getD j 0#32) l.cap m with
  | .diverged st =>
    let s1 := s.modGroup i.gi fun g => { (g.leaveLoop true) with mls := { m with rise := 0, phase := 2, status := st }.bits }
    if i.g.stat = .frozen then s1 else s1.takeTrap i.gi ⟨0x07, 0, w32 st, record, false⟩ pc
  | .ended st =>
    let s1 := s.landAll i.gi ((i.g.loopWait.map Wait.ord).getD 0) [boolWrite l.p l.mask (st == 1)]
    s1.modGroup i.gi fun g => { (g.leaveLoop false) with mls := (m.finished st).bits }
  | .boundary =>
    if i.t.preempt then
      { (s.suspendLoop i.gi m 6) with ord := s.ord + 1 }.modGroup i.gi fun g => g.waitAgain s.ord i.g.loopRun
    else if i.g.stat = .frozen then s.suspendLoop i.gi m 6
    else
      match (i.loopWatch l.t l.s1 l.s2 l.n).findSome? fun a =>
          (i.ctx.watchHit (s.shape i.g i.t) a.2.1 a.2.2.1 a.2.2.2).map fun n => w32 (n + 2 ^ (4 + a.2.1)) with
      | some aux => (s.suspendLoop i.gi m 7).takeTrap i.gi ⟨0x0C, 0, aux, record, false⟩ pc
      | none => (s.spendFree 1).modGroup i.gi fun g =>
          { g with loop := g.loop.map fun l => { l with left := occupancy 1 s.freeCtr } }

/-- `ITERATION_BOUNDARY` (R266, R267, R269): the loop of a group completes an iteration. -/
def execIterationBoundary (gi : Nat) (s : State) : Host.Outcome State Fault Refusal :=
  .next <|
    match s.view gi with
    | none => s
    | some i =>
      match i.g.loop with
      | none => s
      | some l =>
        if l.left != 0 then s
        else
          let out := miterIteration l.n (fun j => l.coef.getD j 0#32) (s.block i l.t l.n)
          let m := (Mls.of i.g.mls).iterated out.2.2.2
          (s.putIteration i l out m).afterIteration i l m

/-! Completion of matrix work -/

/-- The results of a piece of work are written and its flag falls (R257, R271). -/
def State.completeWork (s0 : State) (g : Group) (gi : Nat) (w : Work) : State :=
  let s := s0.modGroup gi fun g => g.overwrite w.ord (s0.groupCk g) (tilePlaces g.core w.tiles ++ w.bytes.map Prod.fst)
  let s1 := w.tiles.foldl (fun s t => s.tileWrite g.ctx g.core t.1 t.2.1 t.2.2) s
  let s2 := (s1.arrWriteAll g.ctx w.bytes).landAll gi w.ord w.ws
  s2.modGroup gi fun g => g.sigDown w.sig w.cnt

/-- `MATRIX_PASS_COMPLETE` (R257, R271, R343): piece n of a group's matrix work completes, once it has occupied its slices
for as long as it needs. -/
def execMatrixPassComplete (gi n : Nat) (s : State) : Host.Outcome State Fault Refusal :=
  .next <|
    match s.groups[gi]? with
    | none => s
    | some g =>
      match g.work[n]? with
      | none => s
      | some w =>
        if w.left != 0 then s
        else (s.modGroup gi fun g => { g with work := g.work.eraseIdx n }).completeWork g gi w

end Sys2Proof.Machine
end

