-- ==== Sys2Proof/Machine/Ragged.lean ====
section
/-!
DEFINITION. Shape records (R258-R263, R290-R292), reductions and normalisations over ragged tiles (R285,
R293, R294), and quantisation (R295-R297).
-/

namespace Sys2Proof.Machine

/-! Shape records (R290-R292) -/

/-- The checks of an 80-byte image in the own scratchpad (R290). -/
def Iss.imageCheck (i : Iss) (perm : Nat) (va : Addr) : Except Stop Unit :=
  match i.rangeFault perm [.spad] 80 va with
  | some c => .error (badBound c)
  | none => if va.toNat % 16 != 0 then .error (badBound causeAlign) else .ok ()

/-- A stored version of shape n, which the storing group has seen (R262). -/
def State.storeShape (s : State) (i : Iss) (n : Nat) (x : BitVec 640) : State :=
  let s1 := s.modTeam i.ti fun t => { t with shps := modAt t.shps n fun vs => vs ++ [(s.ord + 1, x)] }
  s1.modGroup i.gi fun g => { g with shpSeen := spSet 0 g.shpSeen n (i.t.shps[n]?.getD []).length }

/-- `shpset` (R290): it completes as the version is stored, at the next ck. -/
def execShpset (k : Ctl) (d a : Opnd) (s : State) : Host.Outcome State Fault Refusal :=
  s.issue k fun i => do
    i.check [⟨d, [.shp], 1, 0⟩, pairN a]
    i.uniform true a
    if !i.acts then .ok (s.passRun i [])
    else
      let va := i.upair a
      i.imageCheck permR va
      if i.g.atomPending (i.placeOf va 0) 80 (s.ord + 1) then .error .hold
      else
        let x : BitVec 640 := BitVec.ofNat 640 (leNat (s.ownBytes i va 80))
        if !shpValid x then .error (badOperand 5)
        else .ok ((s.passRun i []).storeShape i (opNum d) x)

/-- `shpget` (R291). -/
def execShpget (k : Ctl) (a b : Opnd) (s : State) : Host.Outcome State Fault Refusal :=
  s.issue k fun i => do
    let ns : List Need := [pairN a, ⟨b, [.shp], 1, 0⟩]
    i.check ns
    i.uniform true a
    if !i.acts then .ok (s.passRun i [])
    else
      let va := i.upair a
      i.imageCheck permW va
      let n := opNum b
      let p := i.placeOf va 0
      let bytes := ((upto p.off 80).map fun o => ({ p with off := o } : Place)).zip
        (leBytes 80 (s.shape i.g i.t n).toNat)
      let w := i.workOf (s.ord + 1) i.run.length [] bytes [] 0 0
      .ok ((s.finishWork i i.g (readRegs ns) 0 [w]).sawShape i.gi n (s.shapeIdx i.g i.t n))

/-- `shpfence` (R292): from now on the group sees every version stored before. -/
def execShpfence (k : Ctl) (s : State) : Host.Outcome State Fault Refusal :=
  s.issue k fun i => do
    i.check []
    let s1 := s.passRun i []
    .ok (if i.acts then s1.modGroup i.gi fun g => { g with shpSeen := spSetAll 0 g.shpSeen i.t.latestShapes } else s1)

/-! Normalisation (R285) -/

/-- round_rne(x / n, f32). -/
def f32DivNat (x : Word) (n : Nat) : Word :=
  match f32Val x with
  | .fin s a d => f32Rne (.fin s a (d * n))
  | v => f32Rne v

/-- round_rne(x - y, f32). -/
def f32Sub (x y : Word) : Word := f32Rne ((f32Val x).add false (f32Val y).neg)

/-- The binary32 of log2 e that R285 fixes. -/
def l2e : Word := 0x3FB8AA3B#32

/-- A NaN stands in a vector. -/
def anyNan (xs : List Word) : Bool := xs.any fun x => (f32Val x).isNan

/-- Exact products with a factor; every one NaN where the vector holds a NaN. -/
def scaleAll (xs ys : List Word) (g : Word) : List FVal :=
  ys.map fun y => if anyNan xs then FVal.nan else (f32Val y).mul (f32Val g)

/-- The factor of a sum of squares: frsq(s / F + eps). -/
def normFactor (s : Word) (n : Nat) (eps : Word) : Word := frsqWord (f32Add (f32DivNat s n) eps)

/-- The sum of squares, fused, ascending. -/
def sumSquares (xs : List Word) : Word := xs.foldl (fun s x => f32Fma x x s) 0#32

/-- `rms` of R285: results before their rounding. -/
def rmsNorm (eps : Word) (xs : List Word) : List FVal := scaleAll xs xs (normFactor (sumSquares xs) xs.length eps)

/-- `layer` of R285. -/
def layerNorm (eps : Word) (xs : List Word) : List FVal :=
  let mu := f32DivNat (xs.foldl f32Add 0#32) xs.length
  let ds := xs.map fun x => f32Sub x mu
  scaleAll xs ds (normFactor (sumSquares ds) xs.length eps)

/-- fmax of two words (R191). -/
def f32Max (a b : Word) : Word := w32 (minMaxBits .f32 true a.toNat b.toNat)

/-- fmin of two words (R191). -/
def f32Min (a b : Word) : Word := w32 (minMaxBits .f32 false a.toNat b.toNat)

/-- `softmax` of R285. -/
def softmaxNorm (xs : List Word) : List FVal :=
  let mx := (xs.drop 1).foldl f32Max (xs.headD 0#32)
  let es := xs.map fun x => fexp2Word (f32Rne (((f32Val x).add false (f32Val mx).neg).mul (f32Val l2e)))
  scaleAll xs es (frcpWord (es.foldl f32Add 0#32))

/-- `accnorm` (R285). -/
def execAccnorm (k : Ctl) (mode size : BitVec 2) (d a b : Opnd) (s : State) : Host.Outcome State Fault Refusal :=
  let n := sizeOf size
  s.tileOp k [accN d, accN a, src1 b] (fun i => i.uniform false b) 0 (fun i => i.tileWatch watchAcc (opNum d) 0 n n)
    fun i =>
      let x := s.block i (opNum a) n
      let eps := i.uword b
      let f (xs : List Word) : List Word := (if mode = 1#2 then softmaxNorm xs else rmsNorm eps xs).map f32Rne
      let rows := if mode = 2#2 then
          let ys := f x.flatten
          (List.range n).map fun r => (ys.drop (n * r)).take n
        else x.map f
      .ok (i.blockElems (opNum d) n rows, [], [])

/-! Ragged reduction (R293) -/

/-- The identity of a reduction, and the result of an empty curd. -/
def rredUnit (op : Nat) : Word :=
  match op with
  | 1 => 0xFF800000#32
  | 2 => 0x7F800000#32
  | _ => 0#32

/-- One step of a reduction. -/
def rredStep (op : Nat) (acc x : Word) : Word :=
  match op with
  | 1 => f32Max acc x
  | 2 => f32Min acc x
  | 3 => f32Fma x x acc
  | _ => f32Add acc x

/-- A reduction of values in ascending position; a mean divides by their number. -/
def rredOver (op : Nat) (xs : List Word) : Word :=
  let r := xs.foldl (rredStep op) (rredUnit op)
  if op = 4 ∧ xs ≠ [] then f32DivNat r xs.length else r

/-- The boundary-crossing trap, naming a curd (R261). -/
def crossing (j : Nat) : Stop := .trap 0x06 0 (w32 j) none

/-- The curds that a reduction covers: number, first position, length (R261, R293). -/
def rredCurds (x : BitVec 640) (win : Option Word) : Except Stop (List (Nat × Nat × Nat)) :=
  match win with
  | some v =>
    let f (lo w : Nat) : Nat := v.toNat / 2 ^ lo % 2 ^ w
    let j := f 0 5
    let lo := shpBd x j + f 5 11
    let w := f 16 11
    if f 27 5 != 0 then .error (badOperand 11)
    else if decide (shpNc x ≤ j) || (w != 0 && (decide (shpBd x (j + 1) < lo + w) || decide (32 < lo + w))) then
      .error (crossing j)
    else .ok [(j, lo, w)]
  | none =>
    match (List.range (shpNc x)).find? fun j => decide (32 < shpBd x (j + 1)) with
    | some j => .error (crossing j)
    | none => .ok ((List.range (shpNc x)).map fun j => (j, shpBd x j, shpBd x (j + 1) - shpBd x j))

/-- The element of a tile at a position of the packed axis and a place across it. -/
def packedElem (cols : Bool) (p q : Nat) : Nat := if cols then 32 * q + p else 32 * p + q

/-- `rred` (R293). -/
def execRred (k : Ctl) (op : BitVec 3) (win : Bool) (d a b c : Opnd) (s : State) : Host.Outcome State Fault Refusal :=
  s.issue k fun i => do
    let ns := [accN d, accN a, ⟨b, [.shp], 1, 0⟩] ++ if win then [⟨c, [.s, .zr], 1, 1⟩] else []
    i.check ns
    if win then i.uniform false c else .ok ()
    if !i.acts then .ok (s.passRun i [])
    else
      let n := opNum b
      let x := s.shape i.g i.t n
      let curds ← rredCurds x (if win then some (i.uword c) else none)
      s.watchCheck i (curds.flatMap fun j => (List.range 32).map fun q =>
        (i.actPos, watchAcc, tileAddr (opNum d) (packedElem (shpCols x) j.1 q), 4))
      let cells := curds.flatMap fun j => (List.range 32).map fun q =>
        (packedElem (shpCols x) j.1 q,
          rredOver op.toNat ((upto j.2.1 j.2.2).map fun p => s.elem i (opNum a) (packedElem (shpCols x) p q)))
      let w := i.workOf (s.ord + 1) i.run.length (i.elems (opNum d) cells) [] [] 0 0
      .ok ((s.finishWork i i.g (readRegs ns) 0 [w]).sawShape i.gi n (s.shapeIdx i.g i.t n))

/-! Ragged normalisation (R294) -/

/-- The element types that `rnorm` admits, by code. -/
def rnormTy (code : Nat) : Option Ty := ([Ty.f32, .f16, .bf16] : List Ty).find? fun t => t.code.toNat == code

/-- The curds of a shape as lists of positions. -/
def curdRows (x : BitVec 640) : List (List Nat) :=
  (List.range (shpNc x)).map fun j => upto (shpBd x j) (shpBd x (j + 1) - shpBd x j)

/-- The checks of one row (R201, R202, R294). -/
def Iss.rowCheck (i : Iss) (n z : Nat) (va : Addr) : Option Nat :=
  match i.rangeFault permR [.spad, .partner] (n * z) va with
  | some c => some c
  | none => if va.toNat % z != 0 then some causeAlign else i.rangeFault permW [.spad, .partner] (n * z) va

/-- The results of `rnorm` for the curds' values: each curd a list of rows (R294). -/
def rnormCurd (mode : Nat) (eps : Word) (n : Nat) (rows : List (List Word)) : List (List FVal) :=
  match mode with
  | 0 => rows.map (rmsNorm eps)
  | 1 => rows.map (layerNorm eps)
  | _ =>
    let cols := (List.range n).map fun f => softmaxNorm (rows.map fun r => r.getD f 0#32)
    (List.range rows.length).map fun r => cols.map fun c => c.getD r fzero

/-- `rnorm` (R294). -/
def execRnorm (k : Ctl) (mode : BitVec 3) (fs : BitVec 11) (a b c : Opnd) (s : State) : Host.Outcome State Fault Refusal :=
  s.issue k fun i => do
    let ns := [pairN a, ⟨b, [.shp], 1, 0⟩, src1 c]
    if 1024 < fs.toNat then .error (illegal 5) else .ok ()
    i.check ns
    i.uniform true a
    i.uniform false c
    if !i.acts then .ok (s.passRun i [])
    else
      let n := opNum b
      let x := s.shape i.g i.t n
      let f := fs.toNat
      needOr (!shpCols x) 6
      match rnormTy (shpFmt x) with
      | none => .error (badOperand 5)
      | some ty =>
        let z := accWidth ty
        if f = 0 ∨ shpPitch x < f * z then .error (badBound causeLength)
        else
          let at_ (p : Nat) : Addr := i.upair a + BitVec.ofNat 64 (p * shpPitch x)
          let curds := curdRows x
          boundStop (curds.flatten.findSome? fun p => i.rowCheck f z (at_ p))
          let read (p e : Nat) : Word :=
            let v := leNat ((upto 0 z).map fun o => s.operandByte i (at_ p + BitVec.ofNat 64 (e * z + o)))
            if ty = .f32 then w32 v else f32Rne (tyVal ty v)
          let write (p e : Nat) (y : FVal) : List (Place × Byte) :=
            let pl := i.placeOf (at_ p + BitVec.ofNat 64 (e * z)) 0
            ((upto pl.off z).map fun o => ({ pl with off := o } : Place)).zip (leBytes z (roundRne (fmtOf ty) y))
          let bytes := curds.flatMap fun ps =>
            (ps.zip (rnormCurd mode.toNat (i.uword c) f (ps.map fun p => (List.range f).map (read p)))).flatMap fun py =>
              ((List.range f).zip py.2).flatMap fun ey => write py.1 ey.1 ey.2
          let w := i.workOf (s.ord + 1) i.run.length [] bytes [] 0 0
          .ok ((s.finishWork i i.g (readRegs ns) 0 [w]).sawShape i.gi n (s.shapeIdx i.g i.t n))

/-! Quantisation (R295-R297) -/

/-- The code whose level is nearest to a value, of two the one of smaller magnitude (R295). -/
def kq4Code (y : FVal) : Nat :=
  match y with
  | .nan => 0x8
  | .inf neg => if neg then 0x0 else 0xF
  | .fin neg n d =>
    let far (j : Nat) : Nat := (512 * (n : Int) - (kq4Levels.getD j 0 * d : Nat)).natAbs
    let j := (leastBy far (List.range 8)).getD 0
    if neg then 7 - j else 8 + j

/-- The encoding of `qenc` (R295). -/
def qencBits (ty : Ty) (rm : Rm) (sat : Bool) (sr : Word) (y : FVal) : BitVec 64 × Word :=
  match ty with
  | .kq4 => (BitVec.ofNat 64 (kq4Code y), sr)
  | .i8 =>
    (match y with
     | .nan => (0#64, sr)
     | .inf neg => (clampBits .i8 (if neg then intMin .i8 else intMax .i8), sr)
     | .fin neg n d =>
       let r := roundInt rm sr neg n d
       (clampBits .i8 (sgn neg r.1), r.2))
  | _ => narrow (roundTo (fmtOf ty) rm sat sr y)

/-- A quantising instruction: per position, completing by its event (R271). -/
def State.quantOp (s : State) (k : Ctl) (ns : List Need) (d : Opnd) (sr : Bool) (xs : List (Bool × Opnd)) (f : FloatFn) :
    Host.Outcome State Fault Refusal :=
  s.floatWith k ns d 1 sr xs f fun i v => s.finishLater i ns v

/-- `qenc` (R295). -/
def execQenc (k : Ctl) (ty : Ty) (rm : Rm) (sat : Bool) (d a b : Opnd) (s : State) : Host.Outcome State Fault Refusal :=
  s.quantOp k [dstVS d, src1 a, src1 b] d (rm == .sr) [(false, a), (false, b)] fun xs sr =>
    match xs with
    | [x, y] => qencBits ty rm sat sr ((f32Val (x.setWidth 32)).mul (f32Val (y.setWidth 32)))
    | _ => (0#64, sr)

/-- `qdec` (R296). -/
def execQdec (k : Ctl) (ty : Ty) (d a b : Opnd) (s : State) : Host.Outcome State Fault Refusal :=
  s.quantOp k [dstVS d, src1 a, src1 b] d false [(false, a), (false, b)] fun xs sr =>
    match xs with
    | [x, y] => ((f32Rne ((tyVal ty x.toNat).mul (f32Val (y.setWidth 32)))).setWidth 64, sr)
    | _ => (0#64, sr)

/-- `kqsc` (R297): the block scale of a K-block of a scale group (R165, R166). -/
def execKqsc (k : Ctl) (d a : Opnd) (blk : BitVec 2) (s : State) : Host.Outcome State Fault Refusal :=
  s.quantOp k [dstVS d, ⟨a, [.v, .s, .zr], 2, 2⟩] d false [(true, a)] fun xs sr =>
    match xs with
    | [x] => ((blockScale (x >>> 32 |>.setWidth 32) (x.toNat / 2 ^ (8 * blk.toNat) % 256)).setWidth 64, sr)
    | _ => (0#64, sr)

end Sys2Proof.Machine
end

