-- ==== Sys2Proof/Machine/Events.lean ====
section
/-!
DEFINITION. Events of the device: fetch (R108-R111), translation (R211, R212), phases and step ticks
(R343, R345, R351), the Creamery's calendar (R208), droop and island clocks (R348), device time (R350),
host and peer accesses (R390, R393, R395), the wait-cycle detector (R376), and words that no mnemonic
names (R56, R58).
-/

namespace Sys2Proof.Machine

/-! Fetch (R108-R111) -/

/-- The line of the run that a group would issue next, with its PC. -/
def Group.nextLine (g : Group) : Option (Addr × Nat) := g.pick.map fun p => (p.1, lineOf p.1)

/-- The X check of a line's fetch in bounded mode (R30, R108); in lazy mode no bits above [55:0]. -/
def Context.lineBound (c : Context) (pc : Addr) : Bool :=
  c.boundOk permX (BitVec.ofNat 64 (pc.toNat / 64 * 64)) 64

/-- The age index of the eldest ready record at a PC. -/
def Group.recordAt (g : Group) (pc : Addr) : Nat := (g.recs.findIdx? fun r => r.ready && r.pc == pc).getD 0

/-- The resident kernel's answer to a fetch trap (R109): it resumes the group once the page can be fetched, or stops the
context. One taken in a handler is a double trap, which the kernel does not answer (R359). -/
def State.answerFetch (s : State) (gi : Nat) (g : Group) (c : Context) : State :=
  match g.trap with
  | some t =>
    if (t.word >>> 24).toNat = 0x0F ∧ g.serves = none then
      (match s.codeWalk c (lineOf t.pc) with
       | some _ => s.letGo gi
       | none => s.stopContext g.ctx "fetch fault")
    else s
  | none => s

/-- The translation of a line for a demand fetch, after the Skimmer's service of an anonymous page (R108, R213). -/
def State.fetchWalk (s : State) (c : Context) (line : Nat) : State × Option (Nat × Nat × Nat) :=
  match s.walk c.root line with
  | .anon at_ =>
    match s.skim at_ with
    | some s1 => (s1, s1.codeWalk c line)
    | none => (s, none)
  | _ => (s, s.codeWalk c line)

/-- `DEMAND_FETCH` (R108, R109, R212, R213): the line of a ready record is translated through the TLBs, its page's
accessed bit set; one that cannot be takes the fetch trap, or in bounded mode the bound violation. On a group that a
fetch trap froze, it is the resident kernel's answer. -/
def execDemandFetch (gi : Nat) (s : State) : Host.Outcome State Fault Refusal :=
  .next <|
    match s.groups[gi]? with
    | none => s
    | some g =>
      match s.contexts[g.ctx]? with
      | none => s
      | some c =>
        match g.stat with
        | .ended => s
        | .frozen => s.answerFetch gi g c
        | .live =>
          match g.nextLine with
          | none => s
          | some (pc, line) =>
            if !c.lineBound pc then s.takeTrap gi ⟨0x04, causeBound, w32 ((g.readyAt pc).headD 0xFF), g.recordAt pc, false⟩ pc
            else
              match s.fetchWalk c line with
              | (s1, some (at_, e, _)) => (s1.touch at_ e .exec).fillTlb g.core g.ctx line
              | (s1, none) => s1.takeTrap gi ⟨0x0F, 0, 0#32, g.recordAt pc, false⟩ pc

/-- Sets and ways of the trace cache (R111). -/
def traceSet (line : Nat) : Nat := line / 64 % 64

/-- An entry is the copy of a line in a range class (R111). -/
def TraceEnt.isCopy (e : TraceEnt) (ctx line : Nat) (lane : Bool) : Bool := e.ctx == ctx && e.line == line && e.lane == lane

/-- The copy of a line that a core's trace cache holds. -/
def Core.copyOf (c : Core) (ctx line : Nat) (lane : Bool) : Option TraceEnt := c.trace.find? fun e => e.isCopy ctx line lane

/-- A copy enters a core's trace cache as the most recently used of its set of four ways. -/
def Core.putCopy (c : Core) (ent : TraceEnt) : Core :=
  let rest := c.trace.filter fun e => !e.isCopy ent.ctx ent.line ent.lane
  let out := (rest.filter fun e => traceSet e.line == traceSet ent.line).drop 3
  { c with trace := ent :: rest.filter fun e => !out.contains e }

/-- A line is brought into a core's trace cache (R111). -/
def Core.fillLine (c : Core) (ctx line : Nat) (lane : Bool) : Core := c.putCopy ⟨ctx, line, lane, false⟩

/-- A copy that is there becomes the most recently used of its set. -/
def Core.useLine (c : Core) (ctx line : Nat) (lane : Bool) : Core :=
  match c.copyOf ctx line lane with
  | some e => c.putCopy e
  | none => c

/-- A bit of the n-th copy of a core's trace cache is upset (R44). -/
def State.upsetCopy (s : State) (core n : Nat) : State :=
  if n < (s.core core).trace.length then
    s.modCore core fun c => { c with trace := modAt c.trace n fun e => { e with upset := true } }
  else s

/-- A page's accessed bit stands: its line has been fetched on demand. -/
def lineFetched (e : Nat) : Bool := nbit e 6

/-- `TRACE_CACHE_FILL` (R44, R111, R212): a fetched line lands in the range class asked for. A copy that failed its own
check is discarded, fetched again and counted. -/
def execTraceCacheFill (gi : Nat) (lane : Bool) (s : State) : Host.Outcome State Fault Refusal :=
  .next <|
    match s.groups[gi]? with
    | none => s
    | some g =>
      match s.contexts[g.ctx]?, g.nextLine with
      | some c, some (pc, line) =>
        match s.codeWalk c line with
        | some (_, e, pa) =>
          if g.stat = .live && c.lineBound pc && lineFetched e then
            let failed := (((s.core g.core).copyOf g.ctx pa lane).map TraceEnt.upset).getD false
            let s1 := (s.fillTlb g.core g.ctx line).modCore g.core fun k => k.fillLine g.ctx pa lane
            if failed then s1.modCtx g.ctx fun c => { c with fetchDrop := c.fetchDrop + 1#64 } else s1
          else s
        | none => s
      | _, _ => s

/-- A line that speculative translation reaches (R108): the TLBs hold it, its page may be executed, its bound check
passes. -/
def State.specLine (s : State) (g : Group) (c : Context) (pc : Addr) (line : Nat) : Option Nat :=
  if s.tlbHolds g.core g.ctx line && c.lineBound (BitVec.ofNat 64 (pc.toNat / 2 ^ 56 * 2 ^ 56 + line)) then
    (s.codeWalk c line).map fun w => w.2.2
  else none

/-- The lines, at most n, that sequential prefetch tries beyond a line (R110): none beyond an END line, none beyond a page
whose successor cannot be fetched, none beyond one that speculative translation does not reach. -/
def State.linesBeyond (s : State) (g : Group) (c : Context) (pc : Addr) : Nat → Nat → List Nat
  | 0, _ => []
  | n + 1, line =>
    let next := line + 64
    let isEnd := ((s.codeWalk c line).map fun w => lineEnd (lineWord (s.lineBits g.ctx w.2.2))).getD true
    if isEnd || (next % 65536 == 0 && (s.codeWalk c next).isNone) then []
    else next :: (if (s.specLine g c pc next).isSome then s.linesBeyond g c pc n next else [])

/-- The lines that a prefetch for a group may read (R110): up to two lines beyond its head PC's, and the targets of `bra`
in the head's line. DESIGN CHOICE (log entry 85): a `bra` of a line that is only prefetched is not looked at. -/
def State.prefetchLines (s : State) (g : Group) (c : Context) (pc : Addr) : List Nat :=
  let line := lineOf pc
  let bras := match s.codeWalk c line with
    | some w =>
      (List.range 5).filterMap fun j =>
        match decode (slotWord (s.lineBits g.ctx w.2.2) j) with
        | .ok (.bra _ disp) =>
          (dispTarget (BitVec.ofNat 64 (pc.toNat / 64 * 64 + 12 * j)) disp.toInt).map lineOf
        | _ => none
    | none => []
  s.linesBeyond g c pc 2 line ++ bras

/-- `SPECULATIVE_FETCH` (R108, R110): a line is read through the TLBs alone, or dropped and counted; no
accessed bit is set and no fault or trap is taken. DESIGN CHOICE (log entry 85): the line is decoded in every range class
that some record of the group has. -/
def execSpeculativeFetch (gi : Nat) (line : Addr) (s : State) : Host.Outcome State Fault Refusal :=
  .next <|
    match s.groups[gi]? with
    | none => s
    | some g =>
      match s.contexts[g.ctx]?, g.headPc with
      | some c, some pc =>
        if g.stat ≠ .live || !(s.prefetchLines g c pc).contains (lineOf line) then s
        else
          match s.specLine g c pc (lineOf line) with
          | some pa =>
            s.modCore g.core fun k => (dedup (g.recs.map Rec.lane)).foldl (fun k lane => k.fillLine g.ctx pa lane) k
          | none => s.modCtx g.ctx fun c => { c with fetchDrop := c.fetchDrop + 1#64 }
      | _, _ => s

/-! Translation (R211, R212) -/

/-- `PAGE_WALK` (R211, R212): a miss of a cluster's TLBs is walked; the translation of a page that grants the access enters
the L2 TLB. The access itself sets the bits of its leaf, has an anonymous page served, and writes the fault record of a
walk that fails (`State.access`). -/
def execPageWalk (ci cluster : Nat) (va : Addr) (kind : Acc) (s : State) : Host.Outcome State Fault Refusal :=
  .next <|
    match s.contexts[ci]? with
    | none => s
    | some c =>
      match s.walk c.root (va56 va) with
      | .leaf _ e _ => if pteGrants e kind then s.fillL2 cluster (s.tlbEnt ci c.root (va56 va)).toList else s
      | _ => s

/-- Bits of an address that an entry of a level does not decide (R210). -/
def levelShift (level : Nat) : Nat := ((walkLevels[level]?).map fun x => x.1).getD 16

/-- The physical address that a context's committed translation gives (R69, R390); both keys of a killed context are
retired (R378). -/
def State.homeOf (s : State) (ci va : Nat) : Option Nat :=
  (s.contexts[ci]?).bind fun c =>
    if c.stat = .killed then none
    else
      match spGet none c.commits (va / 65536) with
      | some f => some (f * 65536 + va % 65536)
      | none =>
        match s.walk c.root va with
        | .leaf _ e sh => some (pteFrame e + va % 2 ^ sh)
        | _ => none

/-- The resident kernel moves the contents of a page to a frame of CXL memory and holds them there (R371, R379). -/
def State.holdPage (s : State) (ci va frame : Nat) : State :=
  match s.homeOf ci (va / 65536 * 65536) with
  | some pa =>
    if memTop ≤ pa then s
    else (s.moveFrame (pa / 65536) frame).modCtx ci fun c => { c with heldPages := spSet none c.heldPages (va / 65536) (some frame) }
  | none => s

/-- `TLB_INVALIDATION` (R110, R212, R379): the resident kernel writes the entry of an address at a level, or the leaf that
stands above it, invalidates what the TLBs hold of the pages it maps and clears the context's decoded lines; a page that
it moves out first keeps its contents in a CXL frame. -/
def execTlbInvalidation (ci : Nat) (va : Addr) (entry : TableEntry) (s : State) : Host.Outcome State Fault Refusal :=
  .next <|
    match s.contexts[ci]? with
    | none => s
    | some c =>
      let sh := levelShift entry.level
      let within (page : Nat) : Bool := page * 65536 / 2 ^ sh == va56 va / 2 ^ sh
      let s0 := (entry.hold.map (s.holdPage ci (va56 va))).getD s
      let s1 := (s0.mapAt c.root (va56 va) entry.level entry.word.toNat).modCtx ci fun c =>
        { c with commits := c.commits.filter fun e => !within e.1 }
      let s2 := s1.dropTlb fun e => e.covers ci (va56 va) || (e.ctx == ci && within e.page)
      s2.mapCores fun c => { c with trace := c.trace.filter fun e => e.ctx != ci }

/-! Phases and step ticks -/

/-- `PHASE_START` (R343): the start of a group's phase is reached; work that waits for it may go on. -/
def execPhaseStart (gi : Nat) (s : State) : Host.Outcome State Fault Refusal :=
  .next (s.modGroup gi fun g =>
    { g with phase := g.phase.map fun p => if p.start ≤ s.groupCk g then { p with started := true } else p })

/-- `PHASE_EXPIRY` (R339, R345): the end of a group's phase is reached and it closes. -/
def execPhaseExpiry (gi : Nat) (s : State) : Host.Outcome State Fault Refusal :=
  .next (s.modGroup gi fun g => { g with phase := g.openAt (s.groupCk g) })

/-- `STEP_RELEASE` (R351): a release falls; the first record of a group that waits for one goes on with its
run. -/
def execStepRelease (gi : Nat) (s : State) : Host.Outcome State Fault Refusal :=
  let due (r : Rec) : Bool :=
    match r.wait.map Wait.cond with
    | some (.release t) => decide (t ≤ s.devTime)
    | _ => false
  .next <|
    match (s.groups[gi]?).bind fun g => g.recs.findIdx? due with
    | some r => s.wakeRecord gi r
    | none => s

/-! Calendar, droop and clocks -/

/-- `REFRESH_WINDOW` (R208): a bank's window of a cluster's calendar opens or closes. The calendar goes on by one at each
ck of the cluster (`State.calendarPos`), so no event moves it; an operand read that meets the window completes later,
which the occupancy of matrix work stands for (log entry 4). -/
def execRefreshWindow (_cluster : Nat) (s : State) : Host.Outcome State Fault Refusal := .next s

/-- Change an island's clock. -/
def State.modIsland (s : State) (n : Nat) (f : Island → Island) : State :=
  { s with islands := spSet Island.reset s.islands n (f (s.island n)) }

/-- The ck in which an island stands is stretched at a time: it begins again, and none is added (R348). -/
def Island.stretched (x : Island) (now : Nat) : Island := { x with acc := x.ckAt now * 1000, since := now }

/-- An island after one ns more (R348): its voltage moves by a step towards the level that the highest of its present and
target frequency and that of a hop under way needs, and a hop under way is over; a latched droop stretches the first edge of the new source.
DESIGN CHOICE (log entry 68): a step is 25 MHz per ns. -/
def Island.tick (x : Island) (now : Nat) : Island :=
  let goal := Nat.max (Nat.max x.target x.mhz) (x.hop.getD 0)
  let y := { x with safe := if x.safe < goal then Nat.min goal (x.safe + 25) else Nat.max goal (x.safe - 25) }
  match x.hop with
  | none => y
  | some f =>
    let z := { y with mhz := f, hop := none, droop := false, acc := x.acc + x.mhz * (now - x.since), since := now }
    if x.droop then z.stretched now else z

/-- `DROOP_EVENT` (R78, R348): a droop is counted on the core, and the eighth within 1 ms makes it avoided. It stretches
an edge; one that strikes during a hop is latched for the new source. -/
def execDroopEvent (core : Nat) (s : State) : Host.Outcome State Fault Refusal :=
  .next <|
    if 2048 ≤ core then s
    else
      let s1 := s.modCore core fun c =>
        let ds := s.now :: c.droops.filter fun d => decide (s.now < d + 50 * millisecond)
        { c with droops := ds, avoided := c.avoided || decide (8 ≤ (ds.filter fun d => decide (s.now < d + millisecond)).length) }
      s1.modIsland (coreCluster core) fun x => if x.hop.isSome then { x with droop := true } else x.stretched s.now

/-- `ISLAND_FREQUENCY_CHANGE` (R348): the resident kernel sets an island's target in 25 MHz steps from 400 to
1,000 MHz, and the voltage ramp begins. -/
def execIslandFrequencyChange (island mhz : Nat) (s : State) : Host.Outcome State Fault Refusal :=
  .next <|
    if island < 128 ∧ 400 ≤ mhz ∧ mhz ≤ 1000 ∧ mhz % 25 = 0 then s.modIsland island fun x => { x with target := mhz }
    else s

/-- `CLOCK_HOP` (R348): the clock begins its hop to the target, once the voltage is safe for it. -/
def execClockHop (island : Nat) (s : State) : Host.Outcome State Fault Refusal :=
  let x := s.island island
  .next <|
    if island < 128 ∧ x.hop = none ∧ x.target ≠ x.mhz ∧ x.target ≤ x.safe then
      s.modIsland island fun x => { x with hop := some x.target }
    else s

/-- `DEVICE_TIME_LOCK` (R350): device time locks to IEEE 1588 time, which it takes over in ns since the epoch, or runs
free from then on; LOCK of `sys.step_cfg` says which. -/
def execDeviceTimeLock (lock : Option Nat) (s : State) : Host.Outcome State Fault Refusal :=
  let bit := BitVec.twoPow 32 21
  .next
    (match lock with
     | some t => { s with stepCfg := s.stepCfg ||| bit, devTime := t }
     | none => { s with stepCfg := s.stepCfg &&& ~~~bit })

/-! Host and peers (R390, R393, R395) -/

/-- The resident kernel maps a host window: over a context's global pages, or, over no context's, over physical addresses
of the device's memory (R390, R396; log entry 78). -/
def HostWindow.ok (w : HostWindow) : Bool :=
  match w.ctx with
  | some _ => decide (w.base + w.len ≤ creameryTile * 65536)
  | none => decide (w.base + w.len ≤ memTop)

/-- Where a host window leads at an offset: the key and the physical address. -/
def State.windowAt (s : State) (w : HostWindow) (off : Nat) : Option (Nat × Nat) :=
  match w.ctx with
  | some ci => (s.homeOf ci (w.base + off)).bind fun pa => if memTop ≤ pa then none else some (ctxKey ci, pa)
  | none => some (kernelKey, w.base + off)

/-- Where the n bytes of a host access through a window lead, if all of them lie in it and lead somewhere. -/
def State.windowSpan (s : State) (w : HostWindow) (off n : Nat) : Option (List (Nat × Nat)) :=
  if off + n ≤ w.len then (upto off n).mapM (s.windowAt w) else none

/-- `HOST_MEMORY_ACCESS` (R390): a host access through a window, at the home of its bytes and under the key of the window's
context; what a read gives stands in `hostData`. -/
def execHostMemoryAccess (win : Nat) (off : Addr) (acc : HostAcc) (s : State) : Host.Outcome State Fault Refusal :=
  .next <|
    match s.hostWins[win]? with
    | none => s
    | some w =>
      match acc with
      | .read n =>
        match s.windowSpan w off.toNat n with
        | some ps => { s with hostData := ps.map fun p => s.pmRead p.1 p.2 }
        | none => s
      | .write bs =>
        match s.windowSpan w off.toNat bs.length with
        | some ps => (ps.zip bs).foldl (fun s x => s.pmWrite x.1.1 x.1.2 x.2) s
        | none => s

/-- A size that a read or write of another device has. -/
def peerSize (n : Nat) : Bool := [1, 2, 4, 8, 16].contains n

/-- A type that an atomic takes (R232). -/
def atomTakes (op : AtomOp) (ty : Ty) : Bool :=
  match op with
  | .add | .min | .max => [Ty.i32, .n32, .i64, .n64].contains ty
  | .and | .or | .xor | .exch => [Ty.b32, .b64].contains ty
  | .cas => [Ty.n32, .n64].contains ty
  | .fadd | .fmin | .fmax => ty == .f32

/-- A peer's access has a width and an alignment that the accesses of programs have (R226, R232). -/
def peerOk (w : PeerWidth) (op : Option AtomOp) (pa : Nat) : Bool :=
  peerSize w.bytes && pa % w.bytes == 0 &&
    match op with
    | none => true
    | some o => atomTakes o w.ty && w.bytes == 4 * tyWords w.ty

/-- `PEER_ACCESS` (R393): a read, write or atomic of another device on a frame that a context exports, at its home here,
under the context's key. -/
def execPeerAccess (ci pa : Nat) (w : PeerWidth) (op : Option AtomOp) (wr : Option (BitVec 128)) (repl : BitVec 64) (s : State) :
    Host.Outcome State Fault Refusal :=
  .next <|
    if memTop < pa + w.bytes ∨ peerOk w op pa = false ∨ ((s.contexts[ci]?).map fun c => c.stat != .killed).getD false = false then s
    else
      match wr, op with
      | none, _ => s
      | some x, none => s.writePa ci pa w.bytes x.toNat
      | some x, some o =>
        let old := s.readPa ci pa w.bytes
        s.writePa ci pa w.bytes (atomNew o w.ty (BitVec.ofNat 64 old) (x.setWidth 64) repl).toNat

/-- The peer slot that an element's translation reaches. -/
def State.peerOf (s : State) (ci : Nat) (va : Nat) : Option Nat :=
  (s.homeOf ci va).bind fun pa => if linkBase ≤ pa then some (pa / 2 ^ 43 % 256) else none

/-- The ends of an engine command's unmoved pieces that reach a peer (R393). -/
def State.commandReaches (s : State) (i : Iss) (l : Slot) (slot : Nat) : List (Nat × EndFault) :=
  let at_ (acc : Acc) (va : Addr) : Option EndFault :=
    if i.isGlobal va && s.peerOf i.ci (va56 va) == some slot then some ⟨va, .notPresent, acc⟩ else none
  (l.elems.mapIdx fun e x => (e, x)).flatMap fun p =>
    if p.2.st = .pending then
      (((pageParts p.2.src p.2.len).filterMap fun a => at_ .read a.1) ++ (at_ .write p.2.va).toList).map fun f => (p.1, f)
    else []

/-- The unperformed elements that reach a peer fault, engine commands' among them (R393, R395). -/
def State.faultPeer (s : State) (slot : Nat) : State :=
  (List.range s.groups.length).foldl (fun s gi =>
    match s.view gi with
    | none => s
    | some i =>
      i.g.oplog.foldl (fun s l =>
        if l.isCommand then s.pieceFaults i l (s.commandReaches i l slot)
        else
          let reach (x : Elem) : Bool := x.st == .pending && i.isGlobal x.va && s.peerOf i.ci (va56 x.va) == some slot
          s.faultElems i l ((l.elems.mapIdx fun e x => (e, x)).filterMap fun p =>
            if reach p.2 then some (p.1, TKind.notPresent) else none)) s) s

/-- `PEER_LOST` (R393): the peer of a slot is lost and its unperformed elements fault. -/
def execPeerLost (slot : Nat) (s : State) : Host.Outcome State Fault Refusal :=
  .next <|
    match spGet none s.peers slot with
    | some p => if p.lost then s else { s with peers := spSet none s.peers slot (some { p with lost := true }) }.faultPeer slot
    | none => s

/-! Words that no mnemonic names (R56, R58) -/

/-- The hint fields of a word. -/
def hintOf (w : IWord) : HintFields :=
  let f := Fields.unpack w
  ⟨f.dst, f.a, f.b, f.c, f.md, f.imm⟩

/-- `unassignedOpcode` (R56, R58): the opcode trap, or an unimplemented hint. -/
def execUnassignedOpcode (w : IWord) (s : State) : Host.Outcome State Fault Refusal :=
  let f := Fields.unpack w
  s.issue f.k fun i =>
    if isHintOp f.op then s.hintDefault i (hintDst (hintOf w)) (f.imm.setWidth 16) else .error (illegal 4)

end Sys2Proof.Machine
end

