-- ==== Sys2Proof/Machine/Crypto.lean ====
section
/-!
DEFINITION. The algorithms that firmware and attestation cite (R396, R397): SHAKE256 of FIPS 202, and the verification of an
XMSS signature of RFC 8391 under the parameter set XMSS-SHAKE_20_512 (n = 64, w = 16, len = 131, h = 20). Both are
PRESUMED from those standards (log entry 82).
-/

namespace Sys2Proof.Machine

/-! SHAKE256 -/

/-- The lane at (x, y) of a Keccak state. -/
def kLane (a : List (BitVec 64)) (x y : Nat) : BitVec 64 := a.getD (x % 5 + 5 * (y % 5)) 0#64

/-- The 25 lanes that a function of x and y gives. -/
def kMap (f : Nat → Nat → BitVec 64) : List (BitVec 64) := (List.range 25).map fun i => f (i % 5) (i / 5)

/-- Rotation offsets of the ρ step, by x + 5y. -/
def kRho : List Nat :=
  [0, 1, 62, 28, 27, 36, 44, 6, 55, 20, 3, 10, 43, 25, 39, 41, 45, 15, 21, 8, 18, 2, 61, 56, 14]

/-- The round constants of the ι step. -/
def kRound : List (BitVec 64) :=
  [0x0000000000000001#64, 0x0000000000008082#64, 0x800000000000808A#64, 0x8000000080008000#64, 0x000000000000808B#64,
    0x0000000080000001#64, 0x8000000080008081#64, 0x8000000000008009#64] ++
  [0x000000000000008A#64, 0x0000000000000088#64, 0x0000000080008009#64, 0x000000008000000A#64, 0x000000008000808B#64,
    0x800000000000008B#64, 0x8000000000008089#64, 0x8000000000008003#64] ++
  [0x8000000000008002#64, 0x8000000000000080#64, 0x000000000000800A#64, 0x800000008000000A#64, 0x8000000080008081#64,
    0x8000000000008080#64, 0x0000000080000001#64, 0x8000000080008008#64]

/-- One round of Keccak-f[1600]: θ, ρ, π, χ, ι. -/
def kStep (a : List (BitVec 64)) (rc : BitVec 64) : List (BitVec 64) :=
  let c := (List.range 5).map fun x => kLane a x 0 ^^^ kLane a x 1 ^^^ kLane a x 2 ^^^ kLane a x 3 ^^^ kLane a x 4
  let col (x : Nat) : BitVec 64 := c.getD (x % 5) 0#64
  let t := kMap fun x y => kLane a x y ^^^ col (x + 4) ^^^ (col (x + 1)).rotateLeft 1
  let b := kMap fun x y => (kLane t (x + 3 * y) x).rotateLeft (kRho.getD ((x + 3 * y) % 5 + 5 * x) 0)
  kMap fun x y => kLane b x y ^^^ (~~~(kLane b (x + 1) y) &&& kLane b (x + 2) y) ^^^ if x = 0 ∧ y = 0 then rc else 0#64

/-- Keccak-f[1600]. -/
def keccak (a : List (BitVec 64)) : List (BitVec 64) := kRound.foldl kStep a

/-- Bytes of SHAKE256's rate. -/
def shakeRate : Nat := 136

/-- A block of the rate as lanes. -/
def kBlock (bs : List Byte) : List (BitVec 64) :=
  (List.range 25).map fun i => BitVec.ofNat 64 (leNat ((bs.drop (8 * i)).take 8))

/-- A message with SHAKE's padding, a whole number of blocks. -/
def shakePad (m : List Byte) : List Byte :=
  let r := shakeRate - m.length % shakeRate
  if r = 1 then m ++ [0x9F#8] else m ++ [0x1F#8] ++ List.replicate (r - 2) 0#8 ++ [0x80#8]

/-- Absorb n blocks. -/
def shakeAbsorb : Nat → List Byte → List (BitVec 64) → List (BitVec 64)
  | 0, _, a => a
  | n + 1, m, a => shakeAbsorb n (m.drop shakeRate) (keccak (List.zipWith (· ^^^ ·) a (kBlock (m.take shakeRate))))

/-- SHAKE256 with an output of 64 bytes. -/
def shake256 (m : List Byte) : List Byte :=
  let p := shakePad m
  let a := shakeAbsorb (p.length / shakeRate) p (List.replicate 25 0#64)
  (List.range 64).map fun i => (a.getD (i / 8) 0#64).extractLsb' (8 * (i % 8)) 8

/-! XMSS (RFC 8391) -/

/-- toByte(x, n): big-endian bytes. -/
def beBytes (n x : Nat) : List Byte := (List.range n).map fun i => BitVec.ofNat 8 (x / 256 ^ (n - 1 - i))

/-- The keyed hashes F, H, H_msg and PRF, by their numbers 0 to 3. -/
def xmssHash (which : Nat) (key m : List Byte) : List Byte := shake256 (beBytes 64 which ++ key ++ m)

/-- A hash address: type, its three words and keyAndMask; layer and tree are 0. -/
def xmssAdrs (type a b c mask : Nat) : List Byte :=
  beBytes 12 0 ++ beBytes 4 type ++ beBytes 4 a ++ beBytes 4 b ++ beBytes 4 c ++ beBytes 4 mask

/-- Bytewise exclusive or. -/
def xorBytes (a b : List Byte) : List Byte := List.zipWith (· ^^^ ·) a b

/-- s steps of a WOTS+ chain from step i on. -/
def wotsChain (seed : List Byte) (ots ch : Nat) : Nat → Nat → List Byte → List Byte
  | 0, _, x => x
  | s + 1, i, x =>
    let key := xmssHash 3 seed (xmssAdrs 0 ots ch i 0)
    let mask := xmssHash 3 seed (xmssAdrs 0 ots ch i 1)
    wotsChain seed ots ch s (i + 1) (xmssHash 0 key (xorBytes x mask))

/-- base_w with w = 16: the digits of some bytes, high ones first. -/
def nibbles (bs : List Byte) : List Nat := bs.flatMap fun b => [b.toNat / 16, b.toNat % 16]

/-- The 131 digits of a 64-byte message hash: its own 128 and three of the checksum. -/
def wotsDigits (m : List Byte) : List Nat :=
  let ds := nibbles m
  let sum := (ds.map fun d => 15 - d).sum
  ds ++ (nibbles (beBytes 2 (sum * 16))).take 3

/-- RAND_HASH of two nodes at a type 1 or type 2 address. -/
def randHash (seed : List Byte) (type a height index : Nat) (l r : List Byte) : List Byte :=
  let prf (mask : Nat) : List Byte := xmssHash 3 seed (xmssAdrs type a height index mask)
  xmssHash 1 (prf 0) (xorBytes l (prf 1) ++ xorBytes r (prf 2))

/-- One level of an L-tree: pairs are hashed, a last odd node goes up as it is. -/
def ltreeLevel (seed : List Byte) (a height : Nat) : Nat → List (List Byte) → List (List Byte)
  | i, l :: r :: rest => randHash seed 1 a height i l r :: ltreeLevel seed a height (i + 1) rest
  | _, xs => xs

/-- The root of an L-tree, over at most n levels from a height on. -/
def ltree (seed : List Byte) (a : Nat) : Nat → Nat → List (List Byte) → List Byte
  | 0, _, xs => xs.headD []
  | n + 1, h, xs => ltree seed a n (h + 1) (ltreeLevel seed a h 0 xs)

/-- The root that an authentication path leads to from the leaf of an index. -/
def xmssPath (seed : List Byte) : Nat → Nat → List Byte → List (List Byte) → List Byte
  | _, _, node, [] => node
  | k, idx, node, p :: rest =>
    let up := idx / 2
    xmssPath seed (k + 1) up
      (if idx % 2 = 0 then randHash seed 2 0 k up node p else randHash seed 2 0 k up p node) rest

/-- n pieces of 64 bytes. -/
def pieces64 (n : Nat) (bs : List Byte) : List (List Byte) := (List.range n).map fun i => (bs.drop (64 * i)).take 64

/-- XMSS_verify with a root and a seed: index, randomiser, 131 chains, 20 nodes of the path. -/
def xmssVerify (root seed m sig : List Byte) : Bool :=
  let idx := (sig.take 4).foldl (fun a b => a * 256 + b.toNat) 0
  let h := xmssHash 2 ((sig.drop 4).take 64 ++ root ++ beBytes 64 idx) m
  let pk := ((pieces64 131 (sig.drop 68)).zip (wotsDigits h)).zipIdx.map fun x =>
    wotsChain seed idx x.2 (15 - x.1.2) x.1.2 x.1.1
  decide (sig.length = 9732) && xmssPath seed 0 idx (ltree seed idx 8 0 pk) (pieces64 20 (sig.drop 8452)) == root

end Sys2Proof.Machine
end

