-- ==== Sys2Proof/Machine/Pail.lean ====
section
/-!
DEFINITION. The loader and storer Pails (R22, R222-R224, R303, R374, R375): registers, the Pail address
map, the RV32IM and Zicsr instructions, the `pq.` extension and how a Pail stops; and the wait-cycle
detector (R376), which counts Pails among its nodes.
-/

namespace Sys2Proof.Machine

/-! The Pail of this step -/

/-- A Pail that issues: its number, itself, its team and its kernel. -/
structure PIss where
  pi : Nat
  p : Pail
  t : Team
  kern : Kernel

/-- A Pail with its team and kernel. -/
def State.pailView (s : State) (pi : Nat) : Option PIss :=
  (s.pails[pi]?).bind fun p => (s.teams[p.team]?).bind fun t => (s.tasks[t.task]?).map fun k => ⟨pi, p, t, k.kern⟩

/-- The Pail that issues in this step. -/
def State.pailIss (s : State) : Option PIss :=
  match s.issuer with
  | some (.pail pi) => s.pailView pi
  | _ => none

/-- x0 reads zero; the others hold what was written. -/
def Pail.reg (p : Pail) (n : BitVec 5) : Word := if n = 0#5 then 0#32 else spGet 0#32 p.x n.toNat

/-- Write a register; x0 discards. -/
def Pail.setReg (p : Pail) (n : BitVec 5) (v : Word) : Pail := if n = 0#5 then p else { p with x := spSet 0#32 p.x n.toNat v }

/-- An instruction is over: the next pc, and the next ck. -/
def Pail.past (p : Pail) (pc : Word) (now : Nat) : Pail := { p with pc := pc, again := false, row := [], ran := now + 1 }

/-- The ck of a Pail's core. -/
def State.pailCk (s : State) (i : PIss) : Nat := s.ckAt i.p.core

/-- Where the team keeps queue n of the Pail's core (R219). -/
def PIss.queueIx (i : PIss) (n : Nat) : Nat := (if i.kern.paired then i.p.core % 2 else 0) * i.kern.queues + n

/-- The queues of the Pail's core. -/
def PIss.ownQueue (i : PIss) (j : Nat) : Bool := decide (i.queueIx 0 ≤ j) && decide (j < i.queueIx i.kern.queues)

/-- A Pail stops (R224): with a fault or without; the ends it holds are marked, and a faulted loader poisons its
queues (R245, R374). -/
def State.haltPail (s : State) (i : PIss) (fault : Bool) : State :=
  let mark (j : Nat) (q : Queue) : Queue :=
    if !i.ownQueue j then q
    else if i.p.storer then (if q.cons == .pail then { q with cgone := true } else q)
    else if q.prod == .pail then { q with gone := true, pois := q.pois || fault } else q
  (s.modPail i.pi fun p => { p with stat := if fault then .faulted else .stopped, again := false, row := [] }).modTeam i.p.team
    fun t => { t with queues := t.queues.mapIdx mark }

/-! The Pail address map (R222) -/

/-- What a Pail address reaches. -/
inductive PTarget where
  | data (off : Nat)
  | foot (off : Nat)
  | glob (va : Nat)
  deriving DecidableEq, Repr

/-- The place of an access of `size` bytes, or none where it takes the misaligned or the access-fault
exception. -/
def PIss.target (i : PIss) (c : Context) (perm : Nat) (a : Word) (size : Nat) : Option PTarget :=
  let n := a.toNat
  if n % size != 0 then none
  else if 0x10000 ≤ n ∧ n + size ≤ 0x12000 then some (.data (n - 0x10000))
  else if 0x20000 ≤ n ∧ n + size ≤ 0x60000 then
    (if n - 0x20000 + size ≤ (i.t.seat i.p.core).footLen then some (.foot (n - 0x20000)) else none)
  else if 0x80000000 ≤ n then
    let va := i.p.pqhi.toNat * 2 ^ 31 + (n - 0x80000000)
    let idx := if c.bounded then i.p.pqbnd.toNat else 0
    if va < 0x00FE000000000000 && c.boundOk perm (BitVec.ofNat 64 (idx * 2 ^ 56 + va)) size then some (.glob va)
    else none
  else none

/-- How one access of a Pail ends: performed with the value read, or faulted. -/
inductive PRes where
  | done (v : Nat)
  | stalled
  deriving DecidableEq, Repr

/-- The record of a faulting Pail access (R222, R370); the Pail stalls until it is replayed. -/
def State.stallPail (s : State) (i : PIss) (va : Nat) (write : Bool) (k : TKind) : State :=
  (s.modPail i.pi fun p => { p with stall := some (BitVec.ofNat 64 va), again := false }).pushFault i.p.ctx
    { addr := BitVec.ofNat 64 va, pc := i.p.pc.setWidth 64, index := 0xFFFFFFFF#32, team := w32 i.t.t,
      kind := k.code, access := bitNat write 0, slot := if i.p.storer then 0x20 else 0x10, group := 0xFF,
      serial := 0#32, src := .pail i.pi, since := s.now, served := false }

/-- The Pail waits at its instruction. -/
def State.pailWait (s : State) (i : PIss) : State := s.modPail i.pi fun p => { p with ran := s.pailCk i + 1 }

/-- The bytes that a Pail reads at a global address: what its core's engine has taken, where it sees the same version,
else what stands at home (R300-R302). -/
def State.pailRead (s : State) (i : PIss) (va pa n : Nat) : Nat :=
  let frame := (s.contexts[i.p.ctx]?).bind fun c => s.tileFrame c (some i.p.team) (va / 65536)
  leNat (s.bytesVia ((s.coreStores i.p.ctx i.p.core frame va).map fun e => e.2) i.p.ctx va pa n)

/-- Perform one access of a Pail (R222, R303). A store carries its data; it waits for a store that the core's engine has
taken to the same bytes (R299, R301). `word` says that it is `lw` or `sw`, which alone a device-register page performs
(R214). -/
def State.pailAccess (s : State) (i : PIss) (tgt : PTarget) (size : Nat) (data : Option Word) (word : Bool) : PRes × State :=
  let bytes (d : Word) := leBytes size d.toNat
  match tgt with
  | .data o =>
    match data with
    | none =>
      (.done (leNat ((upto o size).map fun a => spGet 0#8 ((s.pails[i.pi]?.map Pail.dstore).getD []) a)), s)
    | some d => (.done 0, s.modPail i.pi fun p => { p with dstore := spSetAll 0#8 p.dstore ((upto o size).zip (bytes d)) })
  | .foot o =>
    let ps := (upto ((i.t.seat i.p.core).foot + o) size).map fun a => (⟨i.p.core, .spad, a⟩ : Place)
    match data with
    | none => (.done (leNat (ps.map (s.arrRead i.p.ctx))), s)
    | some d => (.done 0, s.arrWriteAll i.p.ctx (ps.zip (bytes d)))
  | .glob va =>
    let root := ((s.contexts[i.p.ctx]?).map Context.root).getD 0
    if data.isSome && s.takenMeets i.p.ctx i.p.core va size then (.stalled, s.pailWait i)
    else
    match s.access i.p.ctx (some i.p.team) va (if data.isSome then .write else .read) word with
    | (.fault k _, s1) => (.stalled, s1.stallPail i va data.isSome k)
    | (.ok pa, s0) =>
      let s1 := s0.fillTlb i.p.core i.p.ctx va
      let dev := s1.isDevice root va
      match data with
      | none =>
        if dev then (.done (Config.deviceRead pa s1.freeCtr).toNat, { s1 with freeCtr := s1.freeCtr + 1 })
        else (.done (s1.pailRead i va pa size), s1)
      | some d =>
        if dev then (.done 0, { s1 with devWrites := (pa, d) :: s1.devWrites })
        else (.done 0, s1.writePa i.p.ctx pa size d.toNat)

/-! RV32IM and Zicsr (R22, R222) -/

/-- Integer operations of RV32I and M; division by zero and overflow as the M extension fixes them. -/
def rvAlu (op : RvOp) (a b : Word) : Word :=
  let sh := b.toNat % 32
  let hi (x y : Int) : Word := BitVec.ofInt 32 (x * y / 2 ^ 32)
  match op with
  | .add => a + b
  | .sub => a - b
  | .sll => a <<< sh
  | .slt => if a.slt b then 1#32 else 0#32
  | .sltu => if a.ult b then 1#32 else 0#32
  | .xor => a ^^^ b
  | .srl => a >>> sh
  | .sra => a.sshiftRight sh
  | .or => a ||| b
  | .and => a &&& b
  | .mul => a * b
  | .mulh => hi a.toInt b.toInt
  | .mulhsu => hi a.toInt b.toNat
  | .mulhu => hi a.toNat b.toNat
  | .div => if b = 0#32 then BitVec.allOnes 32 else BitVec.ofInt 32 (a.toInt.tdiv b.toInt)
  | .divu => if b = 0#32 then BitVec.allOnes 32 else a.udiv b
  | .rem => if b = 0#32 then a else BitVec.ofInt 32 (a.toInt.tmod b.toInt)
  | .remu => if b = 0#32 then a else a.umod b

/-- Branch conditions. -/
def rvTaken (op : RvBr) (a b : Word) : Bool :=
  match op with
  | .eq => a == b
  | .ne => a != b
  | .lt => a.slt b
  | .ge => !a.slt b
  | .ltu => a.ult b
  | .geu => !a.ult b

/-- Bytes of a load or store. -/
def rvSize : RvMem → Nat
  | .b | .bu => 1
  | .h | .hu => 2
  | .w => 4

/-- The register value of a load. -/
def rvExtend (wd : RvMem) (v : Nat) : Word :=
  match wd with
  | .b => (BitVec.ofNat 8 v).signExtend 32
  | .h => (BitVec.ofNat 16 v).signExtend 32
  | _ => BitVec.ofNat 32 v

/-- The two Pail CSRs; any other number is illegal. -/
def Pail.csrRead (p : Pail) (n : BitVec 12) : Option Word :=
  if n = 0x800#12 then some (p.pqhi.setWidth 32)
  else if n = 0x801#12 then some (p.pqbnd.setWidth 32) else none

/-- Write a Pail CSR; bits that it does not hold are ignored. -/
def Pail.csrWrite (p : Pail) (n : BitVec 12) (v : Word) : Pail :=
  if n = 0x800#12 then { p with pqhi := v.setWidth 25 } else { p with pqbnd := v.setWidth 8 }

/-- The end of an instruction that changes registers alone. -/
def State.pailDone (s : State) (i : PIss) (pc : Word) (f : Pail → Pail) : State :=
  s.modPail i.pi fun p => (f p).past pc (s.pailCk i)

/-- A load of a Pail. -/
def State.pailLoad (s : State) (i : PIss) (next : Word) (wd : RvMem) (rd : BitVec 5) (a : Word) : State :=
  match (s.contexts[i.p.ctx]?).bind fun c => i.target c permR a (rvSize wd) with
  | none => s.haltPail i true
  | some tgt =>
    match s.pailAccess i tgt (rvSize wd) none (wd == .w) with
    | (.stalled, s1) => s1
    | (.done v, s1) => s1.pailDone i next fun p => p.setReg rd (rvExtend wd v)

/-- A store of a Pail. -/
def State.pailStore (s : State) (i : PIss) (next : Word) (wd : RvMem) (a data : Word) : State :=
  match (s.contexts[i.p.ctx]?).bind fun c => i.target c permW a (rvSize wd) with
  | none => s.haltPail i true
  | some tgt =>
    match s.pailAccess i tgt (rvSize wd) (some data) (wd == .w) with
    | (.stalled, s1) => s1
    | (.done _, s1) => s1.pailDone i next id

/-- A CSR instruction of a Pail. -/
def State.pailCsr (s : State) (i : PIss) (next : Word) (op : RvCsr) (rd : BitVec 5) (v : Word) (num : BitVec 12) : State :=
  match i.p.csrRead num with
  | none => s.haltPail i true
  | some old =>
    let new :=
      match op with
      | .rw => v
      | .rs => old ||| v
      | .rc => old &&& ~~~v
    s.pailDone i next fun p => (p.csrWrite num new).setReg rd old

/-- One RISC-V instruction of a Pail. -/
def State.pailRun (s : State) (i : PIss) (r : RvInstr) (short : Bool) : State :=
  let pc := i.p.pc
  let next := pc + (if short then 2#32 else 4#32)
  let x (n : BitVec 5) : Word := i.p.reg n
  match r with
  | .lui rd imm => s.pailDone i next fun p => p.setReg rd (imm ++ 0#12)
  | .auipc rd imm => s.pailDone i next fun p => p.setReg rd (pc + (imm ++ 0#12))
  | .jal rd off => s.pailDone i (pc + off) fun p => p.setReg rd next
  | .jalr rd rs1 imm => s.pailDone i ((x rs1 + imm.signExtend 32) &&& ~~~1#32) fun p => p.setReg rd next
  | .branch op a b off => s.pailDone i (if rvTaken op (x a) (x b) then pc + off else next) id
  | .load wd rd rs1 imm => s.pailLoad i next wd rd (x rs1 + imm.signExtend 32)
  | .store wd rs1 rs2 imm => s.pailStore i next wd (x rs1 + imm.signExtend 32) (x rs2)
  | .opImm op rd rs1 imm => s.pailDone i next fun p => p.setReg rd (rvAlu op (x rs1) imm)
  | .op op rd rs1 rs2 => s.pailDone i next fun p => p.setReg rd (rvAlu op (x rs1) (x rs2))
  | .fence => s.pailDone i next id
  | .csr op immediate rd src num => s.pailCsr i next op rd (if immediate then src.setWidth 32 else x src) num

/-- Run an instruction of the step's Pail. -/
def State.onPail (s : State) (f : PIss → State) : Host.Outcome State Fault Refusal :=
  match s.pailIss with
  | some i => .next (f i)
  | none => .fault .noIssuer

/-- `PAIL_INSTRUCTION` (R22, R222): one RV32IMC or Zicsr instruction. -/
def execPailInstruction (r : RvInstr) (short : Bool) (s : State) : Host.Outcome State Fault Refusal :=
  s.onPail fun i => s.pailRun i r short

/-- `PAIL_STOP` (R224): `ecall` with a0 = 0 stops the Pail; any other `ecall`, an `ebreak` or an exception stops it
with a fault. -/
def execPailStop (why : StopWhy) (s : State) : Host.Outcome State Fault Refusal :=
  s.onPail fun i => s.haltPail i !(why == .ecall && i.p.reg 10#5 == 0#32)

/-! The `pq.` extension (R223) -/

/-- An entry may be pushed now: fewer than 16 present or in flight, one freed this ck still counting (R221). -/
def Queue.room (q : Queue) (now : Nat) : Bool :=
  decide (q.held now < 16)

/-- The queue that an instruction names, its place, or none where it is illegal: beyond the allotment, of the
wrong role, or its end held by a group. -/
def PIss.pqEnd (i : PIss) (q : BitVec 5) (storer : Bool) : Option (Nat × Queue) :=
  if q.toNat < i.kern.queues ∧ i.p.storer = storer then
    (i.t.queues[i.queueIx q.toNat]?).bind fun u =>
      match if storer then u.cons else u.prod with
      | .group _ => none
      | _ => some (i.queueIx q.toNat, u)
  else none

/-- The first use of an unbound end binds it, and clears its mark (R219, R245). -/
def Queue.bindPail (q : Queue) (storer : Bool) : Queue :=
  if storer then (if q.cons = .pail then q else { q with cons := .pail, cgone := false })
  else if q.prod = .pail then q else { q with prod := .pail, gone := false }

/-- A push of the loader: it waits while the queue is full, and a full queue whose consumer is gone is an
access fault (R375). `go` makes the entry and pushes it. -/
def State.pqPushWith (s : State) (i : PIss) (q : BitVec 5) (go : State → Nat → State) : State :=
  match i.pqEnd q false with
  | none => s.haltPail i true
  | some (n, u) =>
    let s1 := s.modQueue i.p.team n fun u => u.bindPail false
    if u.room (s.pailCk i) then go s1 n
    else if (u.bindPail false).cgone then s1.haltPail i true
    else s1.pailWait i

/-- `pq.push` (R223). -/
def execPqPush (q rs : BitVec 5) (s : State) : Host.Outcome State Fault Refusal :=
  s.onPail fun i => s.pqPushWith i q fun s n =>
    (s.modQueue i.p.team n fun u => u.enter (List.replicate 64 (i.p.reg rs)) (s.pailCk i)).pailDone i (i.p.pc + 4#32) id

/-- A pop of the storer: it waits while the queue is empty (R223). -/
def State.pqPopWith (s : State) (i : PIss) (q : BitVec 5) (go : State → Nat → List Word → State) : State :=
  match i.pqEnd q true with
  | none => s.haltPail i true
  | some (n, u) =>
    let s1 := s.modQueue i.p.team n fun u => u.bindPail true
    match u.head (s.pailCk i) with
    | some e => go s1 n e
    | none => s1.pailWait i

/-- `pq.pop` (R223). -/
def execPqPop (q rd : BitVec 5) (s : State) : Host.Outcome State Fault Refusal :=
  s.onPail fun i => s.pqPopWith i q fun s n e =>
    (s.popQueue i.p.team n).pailDone i (i.p.pc + 4#32) fun p => p.setReg rd (e.getD 0 0#32)

/-- The targets of a row of words, or none where one takes an exception: all are checked before any moves (R30). -/
def PIss.rowTargets (i : PIss) (c : Context) (perm : Nat) (a : Word) : Option (List PTarget) :=
  (List.range i.kern.width).mapM fun j => i.target c perm (a + w32 (4 * j)) 4

/-- Read the words of a row that are still to be read, one access at a time (R303); whether all are. -/
def State.readRow (s : State) (i : PIss) : List PTarget → Bool × State
  | [] => (true, s)
  | t :: rest =>
    match s.pailAccess i t 4 none false with
    | (.stalled, s1) => (false, s1)
    | (.done v, s1) => (s1.modPail i.pi fun p => { p with row := p.row ++ [w32 v] }).readRow i rest

/-- Write the words of a row that are still to be written, one access at a time (R303); whether all are. -/
def State.writeRow (s : State) (i : PIss) : List (PTarget × Word) → Bool × State
  | [] => (true, s)
  | (t, v) :: rest =>
    match s.pailAccess i t 4 (some v) false with
    | (.stalled, s1) => (false, s1)
    | (.done _, s1) => (s1.modPail i.pi fun p => { p with row := p.row.drop 1 }).writeRow i rest

/-- `pq.rowin` (R223): W words from a Pail address, pushed as words 0 to W − 1. -/
def execPqRowin (q rs : BitVec 5) (s : State) : Host.Outcome State Fault Refusal :=
  s.onPail fun i => s.pqPushWith i q fun s n =>
    match (s.contexts[i.p.ctx]?).bind fun c => i.rowTargets c permR (i.p.reg rs) with
    | none => s.haltPail i true
    | some ts =>
      match s.readRow i (ts.drop i.p.row.length) with
      | (false, s1) => s1
      | (true, s1) =>
        let row := ((s1.pails[i.pi]?).map Pail.row).getD []
        (s1.modQueue i.p.team n fun u => u.enter (row ++ List.replicate (64 - row.length) 0#32) (s.pailCk i)).pailDone i
          (i.p.pc + 4#32) id

/-- Write out the words that a `pq.rowout` holds. -/
def State.putRow (s : State) (i : PIss) (ts : List PTarget) (row : List Word) : State :=
  match s.writeRow i ((ts.drop (i.kern.width - row.length)).zip row) with
  | (false, s1) => s1
  | (true, s1) => s1.pailDone i (i.p.pc + 4#32) id

/-- `pq.rowout` (R223): one entry is popped and its words 0 to W − 1 written from a Pail address on. -/
def execPqRowout (q rs : BitVec 5) (s : State) : Host.Outcome State Fault Refusal :=
  s.onPail fun i =>
    match (s.contexts[i.p.ctx]?).bind fun c => i.rowTargets c permW (i.p.reg rs) with
    | none => s.haltPail i true
    | some ts =>
      if i.p.row.isEmpty then
        s.pqPopWith i q fun s n e =>
          let row := e.take i.kern.width
          ((s.popQueue i.p.team n).modPail i.pi fun p => { p with row := row }).putRow i ts row
      else s.putRow i ts i.p.row

/-- `pq.stat` (R223). -/
def execPqStat (q rd : BitVec 5) (s : State) : Host.Outcome State Fault Refusal :=
  s.onPail fun i =>
    match (if q.toNat < i.kern.queues then i.t.queues[i.queueIx q.toNat]? else none) with
    | none => s.haltPail i true
    | some u =>
      s.pailDone i (i.p.pc + 4#32) fun p =>
        p.setReg rd (w32 (u.entries.length + bitNat u.gone 8 + bitNat u.pois 9))

/-! Fetch of a Pail (R22, R222) -/

/-- The instruction at a Pail's pc; what cannot be fetched or decoded is an exception (R224). -/
def Pail.fetch (p : Pail) : Instr :=
  let n := p.pc.toNat
  let half (a : Nat) : BitVec 16 := spGet 0#8 p.istore (a + 1) ++ spGet 0#8 p.istore a
  let lo := half n
  if n % 2 = 1 ∨ 0x4000 < n + 2 then .pailStop .exception
  else if lo.extractLsb' 0 2 != 3#2 then (decodeC lo).getD (.pailStop .exception)
  else if 0x4000 < n + 4 then .pailStop .exception
  else (decodePail (half (n + 2) ++ lo)).getD (.pailStop .exception)

/-- The queue end that a Pail waits for: the queue's place. A use that has still to bind the end is made first (R219). -/
def State.pailWaits (s : State) (i : PIss) : Option Nat :=
  if i.p.stat ≠ .running ∨ i.p.stall.isSome ∨ !i.p.row.isEmpty then none
  else
    let push (q : BitVec 5) : Option Nat :=
      (i.pqEnd q false).bind fun e =>
        if e.2.prod != .pail || e.2.room (s.pailCk i + 1) || e.2.cgone then none else some e.1
    let pop (q : BitVec 5) : Option Nat :=
      (i.pqEnd q true).bind fun e =>
        if e.2.cons == .pail && e.2.entries.isEmpty && e.2.flight == 0 then some e.1 else none
    match i.p.fetch with
    | .pqPush q _ | .pqRowin q _ => push q
    | .pqPop q _ | .pqRowout q _ => pop q
    | _ => none

/-! The wait-cycle detector (R376) -/

/-- A node of the wait-for relation. -/
inductive WNode where
  | group (gi : Nat)
  | pail (pi : Nat)
  deriving DecidableEq, Repr

/-- Who holds an end of a queue of a team. -/
def State.endNode (s : State) (ti : Nat) (n : Nat) (storer : Bool) (e : QEnd) : List WNode :=
  match s.teams[ti]? with
  | none => []
  | some t =>
    match e with
    | .unbound => []
    | .group g => (t.groups.filter fun gi => (s.groups[gi]?.map Group.g) == some g).map .group
    | .pail =>
      (t.pails.filter fun pi => ((s.pailView pi).map fun i => i.p.storer == storer && i.ownQueue n && i.p.stat == .running).getD false).map .pail

/-- The nodes that a blocked record waits for; none where it is no wait of R376. -/
def State.waitEdges (s : State) (ti : Nat) (c : Cond) : Option (List WNode) :=
  (s.teams[ti]?).bind fun t =>
    let away (n : Nat) : List WNode :=
      match t.barriers[n]? with
      | none => []
      | some b =>
        (t.groups.filter fun gi =>
          (s.groups[gi]?.map fun g => g.stat != .ended && !b.marks.contains g.g && !(b.held.map fun h => h.1).contains g.g).getD false).map .group
    match c with
    | .qEntry q => (t.queues[q]?).map fun u => s.endNode ti q false u.prod
    | .qFree q => (t.queues[q]?).map fun u => s.endNode ti q true u.cons
    | .bar n _ _ | .barwait n _ => some (away n)
    | _ => none

/-- A wait that ends by what is already under way (R376): an entry that is in flight, or that has only just entered or
left a queue. -/
def Team.condSoon (t : Team) : Cond → Bool
  | .qEntry q => ((t.queues[q]?).map fun u => !u.entries.isEmpty || decide (0 < u.flight)).getD false
  | .qFree q => ((t.queues[q]?).map fun u => decide (u.entries.length + u.flight < 16)).getD false
  | _ => false

/-- The edges of a node, or none where it is not wholly blocked: some record can still go on. -/
def State.nodeEdges (s : State) : WNode → Option (List WNode)
  | .group gi =>
    match s.groups[gi]? with
    | none => none
    | some g =>
      (s.teams[g.team]?).bind fun t =>
        if g.stat != .live || g.serves.isSome || g.recs.isEmpty then none
        else (g.recs.mapM fun (r : Rec) => r.wait.bind fun w =>
          if s.condMet g t w.cond || t.condSoon w.cond then none else s.waitEdges g.team w.cond).map fun es => es.flatten
  | .pail pi =>
    (s.pailView pi).bind fun i => (s.pailWaits i).bind fun q =>
      (i.t.queues[q]?).map fun u =>
        match if i.p.storer then u.prod else u.cons with
        | .group g => (i.t.groups.filter fun gi => (s.groups[gi]?.map Group.g) == some g).map .group
        | _ => []

/-- Every node of the device with its edges. -/
def State.waitGraph (s : State) : List (WNode × List WNode) :=
  (((List.range s.groups.length).map WNode.group) ++ (List.range s.pails.length).map WNode.pail).filterMap fun n =>
    (s.nodeEdges n).map fun es => (n, es)

/-- The nodes reached from some in one more edge. -/
def reachStep (gr : List (WNode × List WNode)) (seen : List WNode) : List WNode :=
  (gr.filter fun e => seen.contains e.1).foldl (fun seen e => e.2.foldl (fun seen n => if seen.contains n then seen else n :: seen) seen) seen

/-- The nodes reached from some in at most n more edges. -/
def reach (gr : List (WNode × List WNode)) : Nat → List WNode → List WNode
  | 0, seen => seen
  | n + 1, seen => reach gr n (reachStep gr seen)

/-- Nodes reached from a node by at least one edge. -/
def reachFrom (gr : List (WNode × List WNode)) (n : WNode) : List WNode :=
  reach gr gr.length (((gr.find? fun e => e.1 == n).map fun e => e.2).getD [])

/-- The groups of the cycle that a group lies on: they reach it and it reaches them. -/
def State.cycleOf (s : State) (gi : Nat) : List Nat :=
  let gr := s.waitGraph
  let fwd := reachFrom gr (.group gi)
  (List.range s.groups.length).filter fun h => fwd.contains (.group h) && (reachFrom gr (.group h)).contains (.group gi)

/-- The detector's choice: the lowest core, then the lowest slot (R376). -/
def State.cycleVictim (s : State) (gi : Nat) : Option Nat :=
  leastBy (fun h => match s.groups[h]? with | some g => g.core * 64 + g.slot | none => 0) (s.cycleOf gi)

/-- `WAIT_CYCLE_TRAP` (R376): a group that lies on a wait cycle takes the wait-cycle trap, if it is the one on the
lowest core and slot; every other record stays blocked. AUX is the wake code of its eldest record. -/
def execWaitCycleTrap (gi : Nat) (s : State) : Host.Outcome State Fault Refusal :=
  .next <|
    match s.groups[gi]? with
    | none => s
    | some g =>
      if s.cycleVictim gi = some gi then
        match g.recs with
        | r :: _ =>
          let code := (r.wait.map (wakeWord (((s.teams[g.team]?).bind s.kernelOf).map Kernel.queues |>.getD 0) 0#32)).getD 0#32
          s.takeTrap gi ⟨0x0E, 0, code >>> 24, 0, false⟩ r.pc
        | [] => s
      else s

end Sys2Proof.Machine
end

