-- ==== Sys2Proof/Machine/Loader.lean ====
section
/-!
DEFINITION. The loader (R14-R31, R409, R410): the eight steps of R17 over the bytes of a code object, each of
which either passes or ends the load with its number and the index of the section, record or relocation
concerned (R412).
-/

namespace Sys2Proof.Machine

/-- A failing step and the index that it names (R412). -/
abbrev LoadErr := Nat × Nat

/-- CRC-32C of some bytes (R14): the reflected polynomial 0x82F63B78. -/
def crcByte (c : BitVec 32) (b : Byte) : BitVec 32 :=
  (List.range 8).foldl (fun c _ => if c.getLsbD 0 then (c >>> 1) ^^^ 0x82F63B78#32 else c >>> 1) (c ^^^ b.setWidth 32)

/-- CRC-32C. -/
def crc32c (bs : List Byte) : BitVec 32 := ~~~(bs.foldl crcByte (BitVec.allOnes 32))

/-! Header and section table (R14-R16) -/

/-- A section-table entry (R15). -/
structure Sec where
  kind : Nat
  align : Nat
  foff : Nat
  voff : Nat
  len : Nat
  deriving DecidableEq, Repr

/-- What the loader keeps of a header (R14). -/
structure Header where
  contract : Nat
  flags : Nat
  pref : Nat
  size : Nat
  nsect : Nat
  sectoff : Nat
  deriving DecidableEq, Repr

/-- Section kinds (R16). -/
def kNative : Nat := 1
def kXref : Nat := 7
def kConst : Nat := 2
def kData : Nat := 3
def kPail : Nat := 8
def kReloc : Nat := 9
def kSymbols : Nat := 10
def kGot : Nat := 11
def kKernels : Nat := 12
def kBounds : Nat := 13
def kDebug : Nat := 14

/-- Kinds that are placed, with the leaf bits of their pages (R16): GOT pages are read-only to programs. -/
def secPerms (kind : Nat) : Option Nat :=
  if kind = kNative then some 8
  else if kind = kConst then some 2
  else if kind = kData then some 22
  else if kind = kGot then some 2
  else none

/-- Kinds of which an object has at most one (R16). -/
def secOne (kind : Nat) : Bool := [1, 4, 5, 6, 7, 9, 10, 11, 12, 13].contains kind

/-- VOFF of a section that is not placed (R15). -/
def unplaced : Nat := 2 ^ 64 - 1

/-- The header of an object, checked (R14), with the context's binding mode (R17, step 1). DESIGN CHOICE (log entry 76):
the index of a failure that concerns no section, record or relocation is 0. -/
def readHeader (c : Context) (img : List Byte) : Except LoadErr Header :=
  let f := field img
  let h : Header := ⟨f 8 4, f 12 4, f 16 8, f 24 8, f 32 4, f 36 4⟩
  let head := img.take 60 ++ List.replicate 4 0#8
  let ok :=
    decide (64 ≤ img.length) && f 0 4 == 0x31514843 && f 4 2 == 1 && f 60 4 == (crc32c head).toNat &&
      h.flags / 4 == 0 && f 40 8 == 0 && f 48 8 == 0 && f 56 4 == 0 && h.pref % 65536 == 0 &&
      decide (h.size ≤ 2 ^ 40) && decide (1 ≤ h.nsect) && decide (h.nsect ≤ 1024) && h.sectoff % 32 == 0 &&
      decide (h.sectoff + 32 * h.nsect ≤ img.length) && nbit h.flags 0 == c.bounded
  if ok then .ok h else .error (1, 0)

/-- The section table. -/
def readSecs (img : List Byte) (h : Header) : List (Sec × Nat) :=
  (List.range h.nsect).map fun i =>
    let e := (img.drop (h.sectoff + 32 * i)).take 32
    (⟨field e 0 2, field e 2 2, field e 8 8, field e 16 8, field e 24 8⟩, field e 4 4)

/-- One entry against R15 and R16: `before` are the entries that stand before it. DESIGN CHOICE (log entry 69): contents
that run past the end of the file are rejected here too. -/
def secOk (img : List Byte) (h : Header) (before : List Sec) (x : Sec) (rsv : Nat) : Bool :=
  if 0x80 ≤ x.kind then true
  else
    let placed := (secPerms x.kind).isSome
    x.kind != 0 && decide (x.kind ≤ 0xE) && rsv == 0 && decide (6 ≤ x.align) && decide (x.align ≤ 30) &&
      (if placed then x.voff != unplaced && x.voff % 2 ^ x.align == 0 && decide (x.voff + x.len ≤ h.size)
       else x.voff == unplaced) &&
      (x.kind == kGot || decide (x.foff + x.len ≤ img.length)) &&
      !(secOne x.kind && before.any fun y => y.kind == x.kind)

/-- A placed section occupies address space. -/
def Sec.occupies (x : Sec) : Bool := (secPerms x.kind).isSome && x.len != 0

/-- Two placed sections overlap, or share a 64 KiB page with different permissions (R16): GOT pages are of
their own kind. -/
def Sec.conflicts (x y : Sec) : Bool :=
  let meets (u : Nat) : Bool :=
    decide (x.voff / u < (y.voff + y.len + u - 1) / u) && decide (y.voff / u < (x.voff + x.len + u - 1) / u)
  x.occupies && y.occupies &&
    (meets 1 || (meets 65536 && (secPerms x.kind != secPerms y.kind || (x.kind == kGot) != (y.kind == kGot))))

/-- The index of the first element of a list that a test on it and those before it selects. -/
def firstBad {α : Type} (bad : List α → α → Bool) : List α → List α → Option Nat
  | _, [] => none
  | seen, x :: rest => if bad seen x then some seen.length else firstBad bad (seen ++ [x]) rest

/-- The section table, checked. -/
def checkSecs (img : List Byte) (h : Header) : Except LoadErr (List Sec) :=
  let es := readSecs img h
  match firstBad (fun seen e => !secOk img h (seen.map fun x => x.1) e.1 e.2) [] es with
  | some i => .error (1, i)
  | none =>
    let secs := es.map fun e => e.1
    match firstBad (fun seen x => seen.any fun y => y.conflicts x) [] secs with
    | some i => .error (1, i)
    | none => .ok secs

/-! Symbols (R23) -/

/-- A symbol: value, name offset, kind, EXPORT. -/
structure Sym where
  value : Nat
  name : Nat
  kind : Nat
  exported : Bool
  deriving DecidableEq, Repr

/-- The index of the section of a kind. -/
def secIndex (secs : List Sec) (kind : Nat) : Option Nat := secs.findIdx? fun x => x.kind == kind

/-- The file contents of a section. -/
def secBody (img : List Byte) (x : Sec) : List Byte := (img.drop x.foff).take x.len

/-- The contents of the section of a kind, empty where there is none. -/
def bodyOf (img : List Byte) (secs : List Sec) (kind : Nat) : List Byte :=
  match (secIndex secs kind).bind fun i => secs[i]? with
  | some x => secBody img x
  | none => []

/-- The entries of n bytes that a body holds. -/
def entriesOf (n : Nat) (body : List Byte) : List (List Byte) :=
  (List.range (body.length / n)).map fun i => (body.drop (n * i)).take n

/-- The symbol table. -/
def readSyms (body : List Byte) : List Sym :=
  (entriesOf 16 body).map fun e => ⟨field e 0 8, field e 8 4, field e 12 1, nbit (field e 13 1) 0⟩

/-- A name in the string area; none for offset 0. -/
def nameAt (strings : List Byte) (o : Nat) : List Byte := if o = 0 then [] else (strings.drop o).takeWhile fun b => b != 0#8

/-- The symbol table, checked (R23). DESIGN CHOICE (log entry 69): reserved bits, a kind above 3 and bytes beyond the last
whole entry are not looked at. -/
def checkSyms (strings body : List Byte) : Except LoadErr (List Sym) :=
  let ys := readSyms body
  let bad (y : Sym) : Bool :=
    (y.name != 0 && decide (strings.length ≤ y.name)) || (y.exported && (y.kind == 0 || y.name == 0))
  match ys.findIdx? bad with
  | some i => .error (1, i)
  | none => .ok ys

/-! Kernels (R19-R21) -/

/-- A kernel record as read (R20). -/
structure KernRec where
  name : Nat
  entry : Nat
  width : Nat
  contract : Nat
  team : Nat
  acc : Nat
  tags : Nat
  queues : Nat
  shapes : Nat
  coef : Nat
  flags : Nat
  stack : Nat
  spad : Nat
  lpail : Nat
  spail : Nat
  troot : Nat
  lroot : Nat
  sroot : Nat
  rsv : Nat
  deriving DecidableEq, Repr

/-- The record that 64 bytes hold. -/
def KernRec.ofBytes (e : List Byte) : KernRec :=
  { name := field e 0 4, entry := field e 4 4, width := field e 8 1, contract := field e 9 1, team := field e 10 2, acc := field e 12 1,
    tags := field e 13 1, queues := field e 14 1, shapes := field e 15 1, coef := field e 16 1, flags := field e 17 1,
    stack := field e 18 2, spad := field e 20 4, lpail := field e 24 2, spail := field e 26 2, troot := field e 28 4, lroot := field e 32 4,
    sroot := field e 36 4, rsv := field e 40 24 }

/-- The width in use (R20). -/
def KernRec.used (k : KernRec) : Nat := if k.width = 0 then 32 else k.width

/-- A section index of a record names no section or a PAIL section. -/
def pailRef (secs : List Sec) (n : Nat) : Bool := n == 0 || ((secs[n]?).map fun x => x.kind == kPail).getD false

/-- The limits of R20. DESIGN CHOICE (log entry 76): of KFLAGS, bits 0, 2, 3 and 4 are not compared with the code, the
section indices or the header. -/
def KernRec.inLimits (k : KernRec) (h : Header) (secs : List Sec) : Bool :=
  [0, 16, 32, 64].contains k.width && k.contract == h.contract && decide (1 ≤ k.team) && decide (k.team ≤ 1024) &&
    k.team % k.used == 0 && decide (k.acc ≤ 16) && decide (k.tags ≤ 64) && decide (k.queues ≤ 16) &&
    decide (k.shapes ≤ 8) && decide (k.coef ≤ 8) && decide (k.flags < 64) && decide (k.stack ≤ 1024) &&
    k.stack % 16 == 0 &&
    (k.spad == 0 || (decide (64 ≤ k.spad) && decide (k.spad ≤ 262144) && k.spad % 64 == 0)) &&
    pailRef secs k.lpail && pailRef secs k.spail && k.rsv == 0

/-- The line word of the line that holds an offset of NATIVE. -/
def natLineWord (nat : List Byte) (o : Nat) : BitVec 32 := BitVec.ofNat 32 (field nat (o / 64 * 64 + 60) 4)

/-- ENTRY is a legal target: a slot of NATIVE whose TARGET bit is set (R20, R46). -/
def entryOk (nat : List Byte) (o : Nat) : Bool :=
  decide (o < nat.length) && [0, 12, 24, 36, 48].contains (o % 64) && lineTarget (natLineWord nat o) (o % 64 / 12)

/-- Opcodes of `shfl`, `vote`, `elect`, `gred` and `gscan`. -/
def collectiveOp (op : Nat) : Bool := decide (0x0A0 ≤ op) && decide (op ≤ 0x0A4)

/-- The opcode of the slot at an offset of NATIVE. -/
def opcodeAt (nat : List Byte) (o : Nat) : Nat := field nat o 12 / 2 ^ 58 % 1024

/-- A kernel's code holds a collective (R21): the slots from its ENTRY up to the next higher ENTRY. -/
def hasCollective (nat : List Byte) (entries : List Nat) (entry : Nat) : Bool :=
  let stop := (entries.filter fun e => decide (entry < e)).foldl Nat.min nat.length
  (List.range (nat.length / 64 + 1)).any fun l => (List.range 5).any fun j =>
    let o := 64 * l + 12 * j
    decide (entry ≤ o) && decide (o < stop) && collectiveOp (opcodeAt nat o)

/-- Slots of 32 that a team's groups take (R21). -/
def KernRec.slots (k : KernRec) : Nat :=
  let g := k.team / k.used
  if k.used = 64 then 2 * g else if k.used = 32 then g else (g + 1) / 2

/-- A team is paired where the record says so or one core cannot hold its groups (R20, R21). -/
def KernRec.pairs (k : KernRec) : Bool := nbit k.flags 1 || decide (16 < k.slots)

/-- The kernel fits an otherwise empty core or pair (R21). -/
def KernRec.fits (k : KernRec) : Bool :=
  let g := k.team / k.used
  let indices := if k.pairs then (g + 1) / 2 * k.used else k.team
  decide (k.stack * indices + k.spad ≤ 262144) && decide (k.stack * indices ≤ 131072)

/-! The portable levels (R18, R19) -/

/-- The entries of XREF (R18). DESIGN CHOICE (log entry 76): reserved bytes, a FROM or TO outside the table and bytes beyond
the last whole entry are not looked at. -/
def readXrefs (body : List Byte) : List Xref :=
  (entriesOf 16 body).map fun e => ⟨field e 0 1, field e 1 1, field e 4 4, field e 8 4, field e 12 4⟩

/-- A level is there and its vocabulary version understood (R19). DESIGN CHOICE (log entry 76): the reserved bytes of its
preamble are not looked at. -/
def levelOk (img : List Byte) (secs : List Sec) (level : Nat) : Bool :=
  (secIndex secs level).isSome && Config.understood level (field (bodyOf img secs level) 0 4)

/-- `lower` of R19 over at most n levels: the native lines of an item, by its translation or through XREF one level down.
DESIGN CHOICE (log entry 76): of two entries for one item the first is used. -/
def lowerItem (img : List Byte) (secs : List Sec) (xs : List Xref) : Nat → Nat → Nat → Option (List Byte)
  | 0, _, _ => none
  | n + 1, level, item =>
    match (if levelOk img secs level then Config.translated level (bodyOf img secs level) item else none) with
    | some ls => some ls
    | none =>
      if level = 6 then none
      else
        (xs.find? fun x => x.level == level && x.lower == level + 1 && x.item == item).bind fun x =>
          ((upto x.first x.count).mapM (lowerItem img secs xs n (level + 1))).map List.flatten

/-- The root item of a kernel at a level (R19, R20). -/
def KernRec.root (k : KernRec) (level : Nat) : Nat := if level = 4 then k.troot else if level = 5 then k.lroot else k.sroot

/-- Native code is there for a contract that the device implements (R14, R19). -/
def nativeUsable (h : Header) (secs : List Sec) : Bool :=
  (secIndex secs kNative).isSome && !nbit h.flags 1 && h.contract == 1

/-- The code of a kernel. -/
inductive Code where
  | native
  | lines (bs : List Byte)
  deriving DecidableEq, Repr

/-- The lines of a kernel that has been translated. -/
def Code.bytes : Code → List Byte
  | .native => []
  | .lines bs => bs

/-- `choose_code` of R19: native code, else the lines of the root item of the highest level understood; none where the
kernel is rejected. DESIGN CHOICE (log entry 76): a kernel whose root at that level is 0xFFFF_FFFF is rejected, and no lower
level is tried. -/
def chooseCode (img : List Byte) (h : Header) (secs : List Sec) (k : KernRec) : Option Code :=
  if nativeUsable h secs then some .native
  else
    (([4, 5, 6] : List Nat).find? (levelOk img secs)).bind fun top =>
      if k.root top = 0xFFFFFFFF then none
      else (lowerItem img secs (readXrefs (bodyOf img secs kXref)) 3 top (k.root top)).map .lines

/-- A kernel's native code keeps its rules, whichever code is chosen: a legal ENTRY, and no collective under an undeclared
width (R20, R21). DESIGN CHOICE (log entry 26): without a NATIVE section there is no slot to judge, and ENTRY is not
looked at. -/
def KernRec.codeOk (k : KernRec) (secs : List Sec) (nat : List Byte) (entries : List Nat) : Bool :=
  (secIndex secs kNative).isNone || (entryOk nat k.entry && !(k.width == 0 && hasCollective nat entries k.entry))

/-- A kernel record, checked against R19, R20 and R21: the code chosen, or none where it is rejected. -/
def KernRec.accepted (k : KernRec) (img : List Byte) (h : Header) (secs : List Sec) (nat : List Byte) (entries : List Nat) :
    Option Code :=
  (chooseCode img h secs k).filter fun _ => k.inLimits h secs && k.codeOk secs nat entries && k.fits

/-- The kernel records, checked (R17, step 2), each with its code. DESIGN CHOICE (log entry 76): a section that is no whole
number of records ends the load with the number of whole ones as its index. -/
def checkKernels (img : List Byte) (h : Header) (secs : List Sec) (nat body : List Byte) :
    Except LoadErr (List (KernRec × Code)) :=
  let ks := (entriesOf 64 body).map KernRec.ofBytes
  if body.length % 64 != 0 then .error (2, body.length / 64)
  else
    let cs := ks.map fun k => k.accepted img h secs nat (ks.map KernRec.entry)
    match cs.findIdx? Option.isNone with
    | some i => .error (2, i)
    | none => .ok (ks.zip (cs.filterMap id))

/-! Pail images and placement (R22, R409, R410) -/

/-- A PAIL section's image, or none where its preamble breaks R22. DESIGN CHOICE (log entry 69): it holds the code and the
data and nothing after them; a section that breaks this, used or not, ends the load at step 3. -/
def pailImage (b : List Byte) : Option PailImage :=
  let code := field b 0 4
  let data := field b 4 4
  let entry := field b 8 4
  if 16 ≤ b.length ∧ 4 ≤ code ∧ code ≤ 16384 ∧ code % 2 = 0 ∧ data ≤ 8192 ∧ entry < code ∧ entry % 2 = 0 ∧
      field b 12 4 = 0 ∧ b.length = 16 + code + data then
    some ⟨(b.drop 16).take code, (b.drop (16 + code)).take data, entry⟩
  else none

/-- A page of a context is mapped: it has a leaf, or a level-4 entry that is not zero. -/
def State.pageMapped (s : State) (va : Nat) : List (Nat × Nat × Bool) → Nat → Bool
  | [], _ => false
  | (sh, n, _) :: rest, tbl =>
    let e := s.pte (tbl + 8 * (va / 2 ^ sh % n))
    if rest.isEmpty then e != 0
    else if !nbit e 0 then false
    else if e / 2 % 32 != 0 then true
    else s.pageMapped va rest (pteFrame e)

/-- The next multiple of 64 KiB. -/
def pageUp (a : Nat) : Nat := (a + 65535) / 65536 * 65536

/-- Where the stub section of an object begins (R410). -/
def stubBase (base size : Nat) : Nat := base + pageUp size

/-- Pages of n bytes from an address on. -/
def pagesOf (a n : Nat) : List Nat := upto (a / 65536) (pageUp n / 65536)

/-- Pages that an object of a base takes: its range and its stub section (R409, R410). -/
def objectPages (size stubs base : Nat) : List Nat := pagesOf base size ++ pagesOf (stubBase base size) (64 * stubs)

/-- The first address, from a candidate on in steps of 64 KiB, at which the pages that something takes there meet none that
is mapped (R409). -/
def State.findFree (s : State) (root : Nat) (pages : Nat → List Nat) : Nat → Nat → Option Nat
  | 0, _ => none
  | fuel + 1, a =>
    if (pages a).any fun p => decide (creameryTile ≤ p) then none
    else if (pages a).any fun p => s.pageMapped (p * 65536) walkLevels root then s.findFree root pages fuel (a + 65536)
    else some a

/-- Where the lines that the translator made begin: the first free pages after the stubs (log entry 26). -/
def State.transBase (s : State) (root base size stubs n : Nat) : Option Nat :=
  s.findFree root (fun a => pagesOf a n) (2 ^ 40) (stubBase base size + pageUp (64 * stubs))

/-! Relocation (R24-R28) -/

/-- A relocation record. -/
structure Reloc where
  off : Nat
  kind : Nat
  rsv : Nat
  sym : Nat
  add : Int
  deriving DecidableEq, Repr

/-- The records of RELOC. -/
def readRelocs (body : List Byte) : List Reloc :=
  (entriesOf 16 body).map fun e =>
    ⟨field e 0 8, field e 8 1, field e 9 1, field e 10 2, (BitVec.ofNat 32 (field e 12 4)).toInt⟩

/-- Opcodes of format M (R34, R57). -/
def formatM (op : Nat) : Bool :=
  [0x140, 0x141, 0x142, 0x143, 0x144, 0x150, 0x151, 0x152, 0x153, 0x160, 0x161, 0x162, 0x1C8, 0x1C9, 0x1CA,
    0x200, 0x201, 0x211, 0x212].contains op

/-- What the loader knows when it relocates. -/
structure LoadCtx where
  c : Context
  img : List Byte
  secs : List Sec
  strings : List Byte
  syms : List Sym
  relocs : List Reloc
  base : Nat
  /-- symbols of GOT entries in the order of their first GOTHI20 record (R411) -/
  got : List Nat
  /-- bounded mode: index of a BOUNDS entry in the context's table, and the range it covers (R31) -/
  bounds : List (Nat × Bound)

/-- The bound index of an address of the image: that of the first BOUNDS entry which covers its section; zero
in lazy mode (R25, R31). -/
def LoadCtx.boundIx (l : LoadCtx) (va : Nat) : Nat :=
  match l.secs.find? fun x => x.occupies && decide (l.base + x.voff ≤ va) && decide (va < l.base + x.voff + x.len) with
  | none => 0
  | some x =>
    ((l.bounds.find? fun b => decide (b.2.base ≤ l.base + x.voff) && decide (l.base + x.voff + x.len ≤ b.2.limit)).map
      fun b => b.1).getD 0

/-- The bound index of an address that no section holds: that of the first BOUNDS entry which covers it. -/
def LoadCtx.coverIx (l : LoadCtx) (va : Nat) : Nat :=
  ((l.bounds.find? fun b => decide (b.2.base ≤ va) && decide (va < b.2.limit)).map fun b => b.1).getD 0

/-- An address of the image as programs use it: its bound index in bits [63:56]. -/
def LoadCtx.generic (l : LoadCtx) (va : Nat) : Nat := l.boundIx va * 2 ^ 56 + va

/-- The value of a symbol with its bound index, or none where nothing exports it (R23). -/
def LoadCtx.symValue (l : LoadCtx) (n : Nat) : Option Nat :=
  if n = 0 then some (l.generic l.base)
  else
    (l.syms[n]?).bind fun y =>
      if y.kind = 0 then l.c.exported (nameAt l.strings y.name)
      else if y.kind ≤ 3 then some (l.generic ((l.base + y.value) % 2 ^ 56)) else none

/-- The section that holds the bytes at an image offset, of some kinds. -/
def LoadCtx.secAt (l : LoadCtx) (kinds : List Nat) (off n : Nat) : Option Sec :=
  l.secs.find? fun x => kinds.contains x.kind && decide (x.voff ≤ off) && decide (off + n ≤ x.voff + x.len)

/-- Bytes of the image with patches: address offset and byte, newest first. -/
abbrev Patch := List (Nat × Byte)

/-- The byte at an image offset after the patches. -/
def LoadCtx.byteAt (l : LoadCtx) (p : Patch) (x : Sec) (off : Nat) : Byte :=
  match p.find? fun e => e.1 == off with
  | some e => e.2
  | none => if x.kind = kGot then 0#8 else l.img.getD (x.foff + (off - x.voff)) 0#8

/-- Patch the low n bytes of a value in at an offset. -/
def patchAt (p : Patch) (off n v : Nat) : Patch := ((upto off n).zip (leBytes n v)).reverse ++ p

/-- hi20 of R26. -/
def hi20 (d : Int) : Int := (d + 0x800) / 4096

/-- lo12 of R26. -/
def lo12 (d : Int) : Int := d - hi20 d * 4096

/-- hi20 lies within R27. -/
def hiFits (d : Int) : Bool := decide (-524288 ≤ hi20 d) && decide (hi20 d ≤ 524287)

/-- The address of a GOT entry. -/
def LoadCtx.gotEntry (l : LoadCtx) (n : Nat) : Option Nat :=
  ((l.secs.find? fun x => x.kind == kGot).bind fun x => (l.got.findIdx? fun y => y == n).map fun j => l.base + x.voff + 16 * j)

/-- The displacement D of a PCHI20 or GOTHI20 record (R25). -/
def LoadCtx.disp (l : LoadCtx) (r : Reloc) : Option Int :=
  let p : Int := l.base + r.off
  if r.kind = 2 then (l.symValue r.sym).map fun v => ((v % 2 ^ 56 : Nat) : Int) + r.add - p
  else if r.kind = 4 then (l.gotEntry r.sym).map fun g => (g : Int) - p
  else none

/-- The slot of NATIVE that a record patches, as a word, or none. -/
def LoadCtx.slotAt (l : LoadCtx) (p : Patch) (r : Reloc) : Option Nat :=
  (l.secAt [kNative] r.off 12).bind fun x =>
    if [0, 12, 24, 36, 48].contains ((r.off - x.voff) % 64) then
      some (leNat ((upto r.off 12).map (l.byteAt p x)))
    else none

/-- A word with its low n bits replaced. -/
def lowBits (w n : Nat) (v : Int) : Nat := w / 2 ^ n * 2 ^ n + (v % (2 ^ n : Nat)).toNat

/-- The value of a patched slot, or none where the record is rejected or overflows (R25-R28); i is the
record's own index. -/
def LoadCtx.patchSlot (l : LoadCtx) (i : Nat) (r : Reloc) (w : Nat) : Option Nat :=
  let op := w / 2 ^ 58 % 1024
  match r.kind with
  | 2 | 4 =>
    if op != 0x041 || (r.kind == 4 && r.add != 0) then none
    else (l.disp r).bind fun d => if hiFits d then some (lowBits w 20 (hi20 d)) else none
  | 3 =>
    if formatM op && decide (r.sym < i) then
      ((l.relocs[r.sym]?).bind l.disp).map fun d => lowBits w 12 (lo12 d)
    else none
  | 5 =>
    let a := (r.add % 2048).toNat
    if op != 0x163 then none
    else (l.c.dieMap[a / 512]?).map fun die => lowBits w 11 ((die * 512 + a % 512 : Nat) : Int)
  | _ => none

/-- The bound index that an ABS64 word receives (R25): that of the symbol's section; a record against the image itself
names the symbol by its addend, so the section is the one that S + A lies in. -/
def LoadCtx.absIx (l : LoadCtx) (r : Reloc) (v : Nat) (a : Int) : Nat :=
  if r.sym = 0 then l.boundIx (a % 2 ^ 56).toNat else v / 2 ^ 56

/-- Apply one record (R17, step 4): none where it is rejected. DESIGN CHOICE (log entry 76): a nonzero reserved byte is
rejected here. -/
def LoadCtx.relocate (l : LoadCtx) (i : Nat) (r : Reloc) (p : Patch) : Option Patch :=
  if r.rsv ≠ 0 then none
  else if r.kind = 1 then
    match l.secAt [kConst, kData] r.off 8, l.symValue r.sym with
    | some _, some v =>
      if r.off % 8 = 0 then
        let a := ((v % 2 ^ 56 : Nat) : Int) + r.add
        some (patchAt p r.off 8 (if l.c.bounded then (a % 2 ^ 56).toNat + l.absIx r v a * 2 ^ 56 else (a % 2 ^ 64).toNat))
      else none
    | _, _ => none
  else ((l.slotAt p r).bind (l.patchSlot i r)).map fun w => patchAt p r.off 12 w

/-- Apply the records in table order. -/
def LoadCtx.relocateAll (l : LoadCtx) : Nat → List Reloc → Patch → Except LoadErr Patch
  | _, [], p => .ok p
  | i, r :: rest, p =>
    match l.relocate i r p with
    | some q => l.relocateAll (i + 1) rest q
    | none => .error (4, i)

/-! GOT, stubs, bounds, parity (R29, R31, R44) -/

/-- Symbols of the GOT entries: each symbol of a GOTHI20 record once, in order (R23, R411). -/
def gotSymbols (rs : List Reloc) : List Nat := dedup ((rs.filter fun r => r.kind == 4).map Reloc.sym)

/-- The stub line of entry n (R29): `trap.bind n` in slot 0, target mask 0b00001, END. -/
def stubLine (n : Nat) : Nat :=
  let slot0 := (⟨⟨0#4, 0#12, 0#4, 0#2, false, false, 7#4⟩, 0x280#10, 0#8, 0#8, 0#8, 0#8, 0#6, BitVec.ofNat 20 (2 ^ 19 + n)⟩ :
    Fields).pack
  let parity := bitNat (oddBits slot0 48) 22 + bitNat (oddBits (slot0 >>> 48) 48) 23
  slot0.toNat + (parity + 2 ^ 9 + 2 ^ 8) * 2 ^ 480

/-- The GOT entries (R29): in lazy mode STATE 0 and the stub, in bounded mode STATE 2 and the bound target. -/
def LoadCtx.gotPatch (l : LoadCtx) (stub : Nat) (p : Patch) : Except LoadErr Patch :=
  match l.secs.findIdx? fun x => x.kind == kGot with
  | none => if l.got.isEmpty then .ok p else .error (5, 0)
  | some gi =>
    match l.secs[gi]? with
    | none => .ok p
    | some x =>
      if x.len < 16 * l.got.length then .error (5, gi)
      else
        l.got.zipIdx.foldlM (fun p e =>
          let at_ := x.voff + 16 * e.2
          let entry (target state : Nat) : Patch := patchAt (patchAt (patchAt p at_ 8 target) (at_ + 8) 2 e.1) (at_ + 12) 4 state
          if l.c.bounded then
            match l.symValue e.1 with
            | some v => .ok (entry v 2)
            | none => .error (5, (l.relocs.findIdx? fun r => r.kind == 4 && r.sym == e.1).getD 0)
          else .ok (entry (stub + 64 * e.2) 0)) p

/-- A bound-table entry of a BOUNDS section (R31): BASE and LIMIT count from the image base. Reserved bits are not looked
at (DESIGN CHOICE, log entry 76). -/
def boundOf (base : Nat) (e : List Byte) : Bound :=
  let x := field e 0 16
  ⟨(base + x / 2 ^ 8 % 2 ^ 56) % 2 ^ 56, base + x / 2 ^ 64 % 2 ^ 56, BitVec.ofNat 6 x⟩

/-- Free indices of a bound table, lowest first, which the entries of BOUNDS take in their order (DESIGN CHOICE, log entry
76). -/
def Context.freeBounds (c : Context) : List Nat :=
  (upto 1 255).filter fun i => !(spGet ⟨0, 0, 0#6⟩ c.bounds i).perms.getLsbD 5

/-- Offsets of the lines of NATIVE that a record changed. -/
def LoadCtx.changedLines (l : LoadCtx) (x : Sec) : List Nat :=
  dedup ((l.relocs.filter fun r => r.kind != 1).map fun r => x.voff + (r.off - x.voff) / 64 * 64)

/-- Recompute the parity bits of every line in which a record changed a slot (R17, step 7). -/
def LoadCtx.parityPatch (l : LoadCtx) (p : Patch) : Patch :=
  match l.secs.find? fun x => x.kind == kNative with
  | none => p
  | some x =>
    (l.changedLines x).foldl (fun p o => patchAt p (o + 60) 4 (reparity (leNat ((upto o 64).map (l.byteAt p x))))) p

/-! Mapping (R16, R17 step 8) -/

/-- Map a fresh frame at a page with leaf bits (R16). -/
def State.mapFresh (s : State) (root page perms : Nat) : State :=
  let f := s.nextFrame
  ({ s with nextFrame := f + 1 }.zeroFrame f).mapPage root (page * 65536) (f * 65536 + perms + 1)

/-- Write a byte of the context at a generic address through its tables. -/
def State.pokeByte (s : State) (ci root va : Nat) (b : Byte) : State :=
  match s.walk root va with
  | .leaf _ e sh => s.pmWrite (ctxKey ci) (pteFrame e + va % 2 ^ sh) b
  | _ => s

/-- Pages of the placed sections with their leaf bits. -/
def secPages (base : Nat) (secs : List Sec) : List (Nat × Nat) :=
  dedup ((secs.filter Sec.occupies).flatMap fun x =>
    (upto ((base + x.voff) / 65536) ((base + x.voff + x.len + 65535) / 65536 - (base + x.voff) / 65536)).map fun p =>
      (p, (secPerms x.kind).getD 0))

/-- Map the pages and write the contents of the placed sections, the stubs and the translated lines. -/
def LoadCtx.install (l : LoadCtx) (ci stub : Nat) (p : Patch) (trans : Nat × List Byte) (s : State) : State :=
  let stubs := if l.c.bounded then 0 else l.got.length
  let code (a n : Nat) : List (Nat × Nat) := (pagesOf a n).map fun q => (q, 8)
  let pages := secPages l.base l.secs ++ code stub (64 * stubs) ++ code trans.1 trans.2.length
  let s1 := pages.foldl (fun s q => s.mapFresh l.c.root q.1 q.2) s
  let put (s : State) (va : Nat) (bs : List Byte) : State :=
    ((upto va bs.length).zip bs).foldl (fun s w => s.pokeByte ci l.c.root w.1 w.2) s
  let s2 := (l.secs.filter Sec.occupies).foldl
    (fun s x => put s (l.base + x.voff) ((upto x.voff x.len).map (l.byteAt p x))) s1
  let s3 := (List.range stubs).foldl (fun s n => put s (stub + 64 * n) (leBytes 64 (stubLine n))) s2
  put s3 trans.1 trans.2

/-- Where NATIVE begins in the image. -/
def LoadCtx.natOff (l : LoadCtx) : Nat := ((l.secs.find? fun x => x.kind == kNative).map Sec.voff).getD 0

/-- The kernel that a record and its code make; `at_` is where its translated lines begin. -/
def LoadCtx.kernel (l : LoadCtx) (k : KernRec) (c : Code) (at_ : Nat) : Kernel :=
  let image (n : Nat) : Option PailImage := if n = 0 then none else (l.secs[n]?).bind fun x => pailImage (secBody l.img x)
  let entry := match c with
    | .native => l.generic (l.base + l.natOff + k.entry)
    | .lines _ => (if l.c.bounded then l.coverIx at_ * 2 ^ 56 else 0) + at_
  { name := ((l.syms[k.name]?).map fun y => nameAt l.strings y.name).getD [],
    entry := BitVec.ofNat 64 entry, width := k.used, team := k.team, acc := k.acc,
    tags := k.tags, queues := k.queues, shapes := k.shapes, coef := k.coef, paired := k.pairs,
    handler := nbit k.flags 5 && k.width == 32, stack := k.stack, spad := k.spad, lpail := image k.lpail,
    spail := image k.spail }

/-- The kernels that a load adds: translated lines stand one kernel's after another's. -/
def LoadCtx.kernels (l : LoadCtx) : Nat → List (KernRec × Code) → List Kernel
  | _, [] => []
  | at_, (k, c) :: rest => l.kernel k c at_ :: l.kernels (at_ + c.bytes.length) rest

/-- The object that a load adds to the context. -/
def LoadCtx.object (l : LoadCtx) (h : Header) (stub trans : Nat) (ks : List (KernRec × Code)) : Obj :=
  let gotAt := ((l.secs.find? fun x => x.kind == kGot).map fun x => l.base + x.voff).getD 0
  let own (n : Nat) : GotSym :=
    match l.syms[n]? with
    | some y => ⟨nameAt l.strings y.name, if n = 0 ∨ y.kind ≠ 0 then l.symValue n else none⟩
    | none => ⟨[], if n = 0 then l.symValue 0 else none⟩
  { base := l.base, size := h.size, got := gotAt, gotSyms := l.got.map own, stub := stub, kernels := l.kernels trans ks,
    code := l.base + l.natOff, xrefs := readXrefs (bodyOf l.img l.secs kXref),
    exports := l.syms.zipIdx.filterMap fun y =>
      if y.1.exported then (l.symValue y.2).map fun v => (nameAt l.strings y.1.name, v) else none }

/-! The load (R17) -/

/-- The eight steps of R17 over the bytes of an object: a load completes, or leaves nothing of it. DESIGN CHOICE (log entry
76): a RELOC section that is no whole number of records fails at step 4, the want of a base is reported with index 0, the
want of free bound indices with their number, and bytes of BOUNDS beyond its last whole entry are not looked at. -/
def State.load (s : State) (ci : Nat) (img : List Byte) : Except LoadErr State := do
  match s.contexts[ci]? with
  | none => .error (1, 0)
  | some c =>
    let h ← readHeader c img
    let secs ← checkSecs img h
    let strings := bodyOf img secs kDebug
    let syms ← checkSyms strings (bodyOf img secs kSymbols)
    let ks ← checkKernels img h secs (bodyOf img secs kNative) (bodyOf img secs kKernels)
    let relocBody := bodyOf img secs kReloc
    let relocs := readRelocs relocBody
    let got := gotSymbols relocs
    let stubs := if c.bounded then 0 else got.length
    let trans := ks.flatMap fun k => k.2.bytes
    match secs.findIdx? fun x => x.kind == kPail && (pailImage (secBody img x)).isNone with
    | some i => .error (3, i)
    | none =>
      match (s.findFree c.root (objectPages h.size stubs) (2 ^ 40) h.pref).bind fun base =>
          (s.transBase c.root base h.size stubs trans.length).map fun at_ => (base, at_) with
      | none => .error (3, 0)
      | some (base, at_) =>
        let stub := stubBase base h.size
        let bes := if c.bounded then (entriesOf 16 (bodyOf img secs kBounds)).map (boundOf base) else []
        let l : LoadCtx := ⟨c, img, secs, strings, syms, relocs, base, got, c.freeBounds.zip bes⟩
        if relocBody.length % 16 != 0 then .error (4, relocs.length)
        else
          let p1 ← l.relocateAll 0 relocs []
          let p2 ← l.gotPatch stub p1
          if c.freeBounds.length < bes.length then .error (6, c.freeBounds.length)
          else
            let p3 := l.parityPatch p2
            .ok ((l.install ci stub p3 (at_, trans) s).modCtx ci fun c =>
              { c with objs := c.objs ++ [l.object h stub at_ ks],
                       bounds := spSetAll ⟨0, 0, 0#6⟩ c.bounds l.bounds })

end Sys2Proof.Machine
end

