-- ==== Sys2Proof/Machine/HostMsg.lean ====
section
/-!
DEFINITION. The message window and the resident kernel's answers to it (R391, R392): creating, loading, starting
and killing contexts (R73, R378, R389), debug acts (R357), checkpoints and the resumption after a device fault
(R394, R395), firmware and attestation (R396, R397).
-/

namespace Sys2Proof.Machine

/-! The request ring (R391, R392) -/

/-- A field of the request slot at REQ_HEAD. -/
def State.reqField (s : State) (o n : Nat) : Nat :=
  leNat ((upto (s.reqHead.toNat % 128 * 128 + o) n).map (spGet 0#8 s.reqRing))

/-- A request waits in the ring. -/
def State.reqWaits (s : State) : Bool := s.reqHead.toNat % 128 != s.reqTail.toNat % 128

/-- The device consumes a request slot. -/
def State.consume (s : State) : State := { s with reqHead := BitVec.ofNat 64 ((s.reqHead.toNat + 1) % 128) }

/-- The slot at REQ_HEAD holds a request of a KIND and SEQ. -/
def State.reqIs (s : State) (kind : Nat) (seq : Word) : Bool :=
  s.reqWaits && s.reqField 0 2 == kind && s.reqField 4 4 == seq.toNat

/-- An earlier request of a context is still being carried out: a kill or a checkpoint (R392). -/
def State.ctxBusy (s : State) (ci : Nat) : Bool :=
  (s.ckpts.any fun k => k.ctx == ci) || ((s.contexts[ci]?).map fun c => c.kill.isSome).getD false

/-- A context that exists and has not been killed. -/
def State.liveCtx (s : State) (ci : Nat) : Bool := ((s.contexts[ci]?).map fun c => c.stat != .killed).getD false

/-- A request on a context is consumed and carried out by f; one that names no context is answered with STATUS
0xFFFE. With another request at the head, or none, nothing happens. -/
def State.onRequest (s : State) (kind : Nat) (seq : Word) (ci : Nat) (f : State → State) : State :=
  if s.booted && s.reqIs kind seq && s.reqField 8 4 == ci && !s.ctxBusy ci then
    if s.liveCtx ci then f s.consume else s.consume.respond kind 0xFFFE seq ci []
  else s

/-- `UNKNOWN_KIND_REQUEST` (R392). -/
def execUnknownKindRequest (kind : BitVec 16) (seq : Word) (ctx : Nat) (s : State) : Host.Outcome State Fault Refusal :=
  .next <|
    if s.booted && s.reqIs kind.toNat seq && s.reqField 8 4 == ctx && !(decide (1 ≤ kind.toNat) && decide (kind.toNat ≤ 8)) then
      s.consume.respond kind.toNat 0xFFFF seq ctx []
    else s

/-- An index of the message window with byte n written; indices run modulo 128 (R391). -/
def windowIndex (x : BitVec 64) (n : Nat) (b : Byte) : BitVec 64 :=
  BitVec.ofNat 64 ((x.toNat / 256 ^ (n + 1) * 256 ^ (n + 1) + b.toNat * 256 ^ n + x.toNat % 256 ^ n) % 128)

/-- A host write of a byte of the message window (R391): REQ_TAIL, RSP_HEAD and the request ring take it; every other
offset ignores it. -/
def State.windowPut (s : State) (off : Nat) (b : Byte) : State :=
  if off < 8 then { s with reqTail := windowIndex s.reqTail off b }
  else if 0x18 ≤ off ∧ off < 0x20 then { s with rspHead := windowIndex s.rspHead (off - 0x18) b }
  else if 0x4000 ≤ off ∧ off < 0x8000 then { s with reqRing := spSet 0#8 s.reqRing (off - 0x4000) b }
  else s

/-- `REGISTER_WRITE` (R391): a host write of 1 to 8 bytes of the message window; responses that waited for RSP_HEAD go
into their ring. -/
def execRegisterWrite (off : Nat) (w : WinWrite) (s : State) : Host.Outcome State Fault Refusal :=
  .next <|
    if 1 ≤ w.size ∧ w.size ≤ 8 then
      let s1 := ((upto off w.size).zip (leBytes w.size w.value.toNat)).foldl (fun s x => s.windowPut x.1 x.2) s
      s1.flushBox s1.outbox
    else s

/-- The byte that the host reads at an offset of the message window (R391). -/
def State.windowByte (s : State) (off : Nat) : Byte :=
  let reg (x : BitVec 64) : Byte := (x >>> (8 * (off % 8))).setWidth 8
  if off < 0x28 then reg ([s.reqTail, s.reqHead, s.rspTail, s.rspHead, s.winState].getD (off / 8) 0#64)
  else if 0x4000 ≤ off ∧ off < 0x8000 then spGet 0#8 s.reqRing (off - 0x4000)
  else if 0x8000 ≤ off ∧ off < 0xC000 then spGet 0#8 s.rspRing (off - 0x8000)
  else 0#8

/-- The host reads n bytes of the message window (R391). -/
def State.readWindow (s : State) (off n : Nat) : State := { s with hostData := (upto off n).map s.windowByte }

/-! Contexts (R73, R377, R392) -/

/-- The on-chip entry of a bound table (R31): the apertures from the scratchpad on, with R, W, A and M. -/
def onChipBound : Bound := ⟨0x00FF000000000000, 0x00FF000300000000, 0b111011#6⟩

/-- A context as it is created (R377): system registers at their reset values (R173, R367, R371). -/
def Context.fresh (priority quota : Nat) (dieMap : List Nat) (bounded : Bool) (root : Nat) : Context :=
  { stat := .live, why := "", kill := none, priority := priority, quota := quota, dieMap := dieMap, bounded := bounded,
    root := root, debugger := false, held := false, serial := 0, hostTasks := 0,
    bounds := if bounded then [(0, onChipBound)] else [], objs := [], commits := [], heldPages := [], faults := [], faultHead := 0,
    faultTail := 0, overflow := false, faultSerial := 0#32, faultBudget := 10000, fetchDrop := 0#64,
    pairRefused := 0#64, shortfall := 0#64, bankConflict := 0#64, spadConflict := 0#64, undeclared := 0#64,
    srSeed := 1#32, trapVec := 0#64, trapMask := 0#32, sysWas := [], watches := List.replicate 8 none, watchQ := [] }

/-- Churn quotas in use (R73). -/
def State.quotas (s : State) : Nat := ((s.contexts.filter fun c => c.stat != .killed).map Context.quota).sum

/-- What the resident kernel gives a context is in order (R28, R77, R210). -/
def createOk (priority : Nat) (dieMap : List Nat) (root : Nat) : Bool :=
  decide (priority ≤ 7) && !dieMap.isEmpty && distinct dieMap && dieMap.all (fun d => decide (d < 4)) && root % 4096 == 0 &&
    decide (root < memTop)

/-- `CREATE_CONTEXT` (R392, R73): the response gives the context number. -/
def execCreateContext (seq : Word) (priority quota : Nat) (dieMap : List Nat) (bounded : Bool) (root : Nat) (s : State) :
    Host.Outcome State Fault Refusal :=
  .next <|
    if s.booted && s.reqIs 1 seq && createOk priority dieMap root then
      let n := s.contexts.length
      if 16384 < s.quotas + quota then s.consume.respond 1 0xFFFC seq (s.reqField 8 4) []
      else
        ({ s with contexts := s.contexts ++ [Context.fresh priority quota dieMap bounded root] }.consume).respond 1 0 seq n
          (leBytes 4 n)
    else s

/-- `LOAD_OBJECT` (R17, R412): the image lies in device memory under the context's key. -/
def execLoadObject (seq : Word) (ctx addr len : Nat) (s : State) : Host.Outcome State Fault Refusal :=
  .next <| s.onRequest 2 seq ctx fun s =>
    match s.load ctx (s.pmReadN (ctxKey ctx) addr len) with
    | .ok s1 => s1.respond 2 0 seq ctx []
    | .error e => s.respond 2 e.1 seq ctx (leBytes 4 e.2)

/-- Bytes of a context's mapped global pages, or none where some are not mapped (R392). -/
def State.pageBytes (s : State) (ci : Nat) (c : Context) (va n : Nat) : Option (List Byte) :=
  if creameryTile * 65536 < va % 2 ^ 56 + n || !c.boundOk permR (BitVec.ofNat 64 va) n then none
  else
    (upto (va % 2 ^ 56) n).mapM fun a => (s.homeOf ci a).map (s.pmRead (ctxKey ci))

/-- The answer to a task record in global pages (R392): a handle, or a refusal of R65. -/
def State.submitFrom (s : State) (ci : Nat) (c : Context) (va : Nat) : State × Word :=
  if va % 64 != 0 then (s, refusal 1)
  else
    match s.pageBytes ci c va 64 with
    | none => (s, refusal 1)
    | some bs =>
      let r := TaskRec.ofBytes bs
      match checkTask c r fun o n => s.pageBytes ci c (va + o) n with
      | .error code => (s, refusal code)
      | .ok (k, es) => s.insertHostTask ci r k es

/-- `START_GROUP` (R392): it waits while the context's Churn quota is used up; payload word 0 of the response is
the handle or refusal. -/
def execStartGroup (seq : Word) (ctx : Nat) (addr : Addr) (s : State) : Host.Outcome State Fault Refusal :=
  .next <|
    match s.contexts[ctx]? with
    | some c =>
      if s.reqField 16 8 != addr.toNat || (c.stat != .killed && decide (c.quota ≤ s.entriesHeld ctx)) then s
      else
        s.onRequest 3 seq ctx fun s =>
          let out := s.submitFrom ctx c addr.toNat
          out.1.respond 3 0 seq ctx (leBytes 4 out.2.toNat)
    | none => s.onRequest 3 seq ctx id

/-! Killing a context (R378) -/

/-- Groups of a context that have not ended, handlers among them, or whose accesses are not performed yet (R387). -/
def State.ctxGroups (s : State) (ci : Nat) : List Nat :=
  (List.range s.groups.length).filter fun gi =>
    ((s.groups[gi]?).map fun g => g.ctx == ci && (g.stat != .ended || !g.drained)).getD false

/-- Cut one group: a handler frees its slot. -/
def State.cutGroup (s : State) (gi : Nat) : State :=
  match s.groups[gi]? with
  | some g => if g.serves.isSome then s.endHandler gi g.core else s.modGroup gi Group.discard
  | none => s

/-- A team of a killed context is gone, with its uncommitted versions (R378, step 3). -/
def Team.killed (t : Team) : Team :=
  { t with stat := .retired, seats := [], tagBits := BitVec.allOnes 128, queues := [], shps := [],
           barriers := [], preempt := false, cut := none, versions := t.versions.filter Version.committed }

/-- The leaves under a table, each with the address that it maps and its shift, and the table itself and those under it,
each with its length (R210). -/
def State.tableScan (s : State) : List (Nat × Nat × Bool) → Nat → Nat → List (Nat × Nat × Nat) × List (Nat × Nat)
  | [], _, _ => ([], [])
  | (sh, n, _) :: rest, tbl, va =>
    let subs := (List.range n).map fun k =>
      let e := s.pte (tbl + 8 * k)
      if !nbit e 0 then ([], [])
      else if e / 2 % 32 ≠ 0 then ([(va + k * 2 ^ sh, e, sh)], [])
      else if memTop ≤ pteFrame e then ([], [])
      else s.tableScan rest (pteFrame e) (va + k * 2 ^ sh)
    (subs.flatMap Prod.fst, (tbl, 8 * n) :: subs.flatMap Prod.snd)

/-- The 64 KiB frames of the device's own memory that a context's tables map for data and code, neither device registers
nor the Creamery (R207, R214). -/
def State.mappedFrames (s : State) (c : Context) : List Nat :=
  ((s.tableScan walkLevels c.root 0).1.filter fun x =>
      decide (x.1 < creameryTile * 65536) && !pteDev x.2.1 && decide (pteFrame x.2.1 < memTop)).flatMap fun x =>
    upto (pteFrame x.2.1 / 65536) (2 ^ x.2.2 / 65536)

/-- The frames of a context's pages (R378): of versions that are not committed, of committed tiles, of versions that a
commit has replaced, of the pages that its tables map and of those that the resident kernel holds for it. -/
def State.ctxFrames (s : State) (ci : Nat) (c : Context) : List Nat :=
  dedup (((s.teams.filter fun t => t.ctx == ci).flatMap fun t => (t.versions.filter fun v => !v.committed).map Version.frame) ++
    (c.commits.filterMap fun e => e.2) ++ ((s.oldFrames.filter fun o => o.ctx == ci).map OldFrame.frame) ++
    s.mappedFrames c ++ c.heldPages.filterMap fun e => e.2)

/-- Steps 3 to 5 of R378, once every group is cut: the Churn entries go, the fault queue and the watchpoints are
cleared, the pages are returned and both keys are retired. -/
def State.finishKill (s : State) (ci : Nat) (seq : Word) : State :=
  let frames := ((s.contexts[ci]?).map (s.ctxFrames ci)).getD []
  let s0 := { s with
    teams := s.teams.map fun (t : Team) => if t.ctx == ci then t.killed else t
    tasks := s.tasks.map fun (t : Task) => if t.ctx == ci then { t with committed := true } else t
    oldFrames := s.oldFrames.filter fun o => o.ctx != ci
    bindings := s.bindings.filter fun b => b.ctx != ci }
  let s1 := ((s0.returnFrames frames).dropTlb fun e => e.ctx == ci).mapCores fun c =>
    { c with trace := c.trace.filter fun e => e.ctx != ci }
  let s2 := s1.idleCheck ci
  (s2.modCtx ci fun c =>
    { c with stat := .killed, kill := none, bounds := [], objs := [], commits := [], heldPages := [], faults := [], faultHead := c.faultTail,
             watches := List.replicate 8 none, watchQ := [] }).respond 4 0 seq ci []

/-- Cut the groups of a dying context that stand where they can be cut, or all of them; end the kill when none is
left (R378, steps 2 to 5). -/
def State.cutDying (s : State) (ci : Nat) (force : Bool) : State :=
  match (s.contexts[ci]?).bind Context.kill with
  | none => s
  | some (seq, since) =>
    let all := force || decide (since + millisecond ≤ s.now)
    let s1 := (s.ctxGroups ci).foldl (fun s gi =>
      if all || ((s.groups[gi]?).map Group.cuttable).getD false then s.cutGroup gi else s) s
    if (s1.ctxGroups ci).isEmpty then s1.finishKill ci seq else s1

/-- `KILL_CONTEXT` (R378): the context's Pails stop and its queues are unmapped; its groups are cut at their next
blocking points, those of a stopped context at once. -/
def execKillContext (seq : Word) (ctx : Nat) (s : State) : Host.Outcome State Fault Refusal :=
  .next <| s.onRequest 4 seq ctx fun s =>
    let stopped := ((s.contexts[ctx]?).map fun c => c.stat == .stopped).getD false
    let s1 := (s.teams.filter fun t => t.ctx == ctx).foldl State.stopPails s
    let s2 := { s1 with teams := s1.teams.map fun (t : Team) => if t.ctx == ctx then { t with queues := [] } else t }
    (s2.modCtx ctx fun c => { c with stat := .dying, kill := some (seq, s.now) }).cutDying ctx stopped

/-- `KILL_CUT_TIMEOUT` (R378): the groups of a dying context are cut where they have reached a blocking point, and
at an instruction boundary after 1 ms. -/
def execKillCutTimeout (ctx : Nat) (s : State) : Host.Outcome State Fault Refusal := .next (s.cutDying ctx false)

/-! Debug acts (R357) -/

/-- An act on a frozen group: the word that it answers. -/
def State.debugDo (s : State) (gi : Nat) (act : DebugAct) : State × Word :=
  match act with
  | .traprd item => (s, s.trapRead gi item)
  | .trapwr item value => (s.modGroup gi fun g => g.trapWrite item value, 0#32)
  | .tret action =>
    match (s.groups[gi]?).bind s.tretCheck with
    | some code => (s, w32 code)
    | none => (s.tretAct gi action.toNat, 0#32)

/-- A frozen group of a context: a trap froze it, or its context has stopped (R357, R392). -/
def State.frozenIn (s : State) (ci gi : Nat) : Bool :=
  ((s.groups[gi]?).map fun g =>
    g.ctx == ci && (g.stat == .frozen || (g.stat == .live && ((s.contexts[ci]?).map fun c => c.stat == .stopped).getD false))).getD false

/-- A frozen group whose matrix work or loop has not yet run to its end (R257). -/
def State.workRuns (s : State) (gi : Nat) : Bool :=
  ((s.groups[gi]?).map fun g => !g.work.isEmpty || g.loop.isSome).getD false

/-- `DEBUG_ACT` (R357, R392): `traprd`, `trapwr` or `tret` on a frozen group of the context, once its matrix work has run
to its end (R257). -/
def execDebugAct (seq : Word) (ctx group : Nat) (act : DebugAct) (s : State) : Host.Outcome State Fault Refusal :=
  .next <| if s.workRuns group then s else s.onRequest 8 seq ctx fun s =>
    if s.frozenIn ctx group then
      let out := s.debugDo group act
      out.1.respond 8 0 seq ctx (leBytes 4 out.2.toNat)
    else s.respond 8 0xFFFD seq ctx []

/-- A debugger of the host attaches to a context or leaves it (R357; log entry 27). -/
def State.setDebugger (s : State) (ci : Nat) (on : Bool) : State := s.modCtx ci fun c => { c with debugger := on }

/-! Checkpoints (R394) and the resumption after a device fault (R395) -/

/-- Members of a list of a context, with their numbers. -/
def numbered {α : Type} (of_ : α → Nat) (ci : Nat) (l : List α) : List (Nat × α) :=
  (l.zipIdx.filter fun x => of_ x.1 == ci).map fun x => (x.2, x.1)

/-- A byte address lies in a unit under the key of a context. -/
def State.underKey (s : State) (ci a : Nat) : Bool := (s.unit a).key == ctxKey ci

/-- An address lies in one of some tables. -/
def tabled (ts : List (Nat × Nat)) (a : Nat) : Bool := ts.any fun t => decide (t.1 / 64 * 64 ≤ a) && decide (a < t.1 + t.2)

/-- The copy of a context (R394): save areas, context memory, its tables and Creamery. -/
def State.snapshot (s : State) (ci own neighbour : Nat) (c : Context) : Snapshot :=
  let tables := (s.tableScan walkLevels c.root 0).2
  { ctx := ci, own := own, neighbour := neighbour, cx := c, tasks := numbered Task.ctx ci s.tasks,
    teams := numbered Team.ctx ci s.teams, groups := numbered Group.ctx ci s.groups, pails := numbered Pail.ctx ci s.pails,
    areas := s.cores.filter fun x => decide (4096 ≤ x.1) &&
      ((s.teams[(x.1 - 4096) / 2]?).map fun t => t.ctx == ci).getD false
    mem := s.mem.filter fun x => s.underKey ci x.1 || tabled tables x.1,
    units := s.units.filter fun u => u.2.key == ctxKey ci || tabled tables (64 * u.1),
    creamery := s.creamery.filter fun x => (x.2.map fun o => o.ctx == ci).getD false }

/-- Teams of a context that stand on cores. -/
def State.runningTeams (s : State) (ci : Nat) : List Nat :=
  (List.range s.teams.length).filter fun ti => ((s.teams[ti]?).map fun t => t.ctx == ci && t.stat == .running).getD false

/-- Bytes that a checkpoint's image takes (R394; log entry 84): those of the save areas, of memory and of the Creamery. -/
def Snapshot.size (n : Snapshot) : Nat :=
  (n.areas.map fun x => x.2.spad.length + x.2.stack.length + x.2.acc.length).sum + n.mem.length + n.creamery.length

/-- The image of a copy lies at an address, enciphered under the context's key (R215, R394). -/
def State.writeImage (s : State) (n : Snapshot) (at_ : Nat) : State :=
  s.pmWriteN (ctxKey n.ctx) at_ ((List.range n.size).map (Config.imageByte s.freeCtr))

/-- Step 2 of R394: the copies are written at the own and at the neighbour's address. -/
def State.writeCopies (s : State) (k : Ckpt) (c : Context) : State :=
  let n := s.snapshot k.ctx k.own k.neighbour c
  let s1 := ((s.writeImage n k.own).writeImage n k.neighbour).spendFree 1
  { s1 with snaps := n :: s1.snaps.filter fun x => x.ctx != k.ctx,
            ckpts := s1.ckpts.map fun x => if x == k then { k with wrote := true } else x }

/-- An evicted team can go on now: some core of its context takes it back and no ready team goes before it (R77, R373). -/
def State.canResume (s : State) (t : Team) : Bool :=
  t.stat == .evicted && ((s.contexts[t.ctx]?).map fun c => c.stat == .live).getD false && !s.higherReady t &&
    ((s.kernelOf t).map fun k => (List.range 2048).any (s.takesBack t k)).getD false

/-- Every team of a context that stands on cores and has a group to evict gets a request. -/
def State.askAll (s : State) (ci : Nat) : State :=
  (s.runningTeams ci).foldl (fun s ti => s.modTeam ti fun t => { t with preempt := t.preempt || s.evictable t }) s

/-- `CHECKPOINT` (R394): the request posts a pre-emption on every team of the context, on one that starts later too; once
every one has left its cores, the copies are written; the teams are resumed; then the request is answered. -/
def execCheckpoint (seq : Word) (ctx own neighbour : Nat) (s : State) : Host.Outcome State Fault Refusal :=
  .next <|
    match s.ckpts.find? fun k => k.seq == seq && k.ctx == ctx with
    | some k =>
      match s.contexts[ctx]? with
      | some c =>
        if k.wrote then
          if s.teams.any fun t => t.ctx == ctx && s.canResume t then s
          else { s with ckpts := s.ckpts.filter fun x => x != k }.respond 7 0 seq ctx []
        else if (s.runningTeams ctx).isEmpty then s.writeCopies k c
        else s.askAll ctx
      | none => s
    | none =>
      s.onRequest 7 seq ctx fun s =>
        let s1 : State := { s with ckpts := s.ckpts ++ [⟨seq, ctx, own, neighbour, s.now, false⟩] }
        s1.askAll ctx

/-- 1 s, in ns. -/
def second : Nat := 1000000000

/-- `CHECKPOINT_TIMEOUT` (R394): after 1 s the oldest checkpoint that has written no copy is answered with STATUS 1 and
writes none; its requests to pre-empt are withdrawn. -/
def execCheckpointTimeout (s : State) : Host.Outcome State Fault Refusal :=
  .next <|
    match s.ckpts.find? fun k => !k.wrote with
    | some k =>
      if k.since + second ≤ s.now then
        ((s.runningTeams k.ctx).foldl (fun (s : State) ti => s.modTeam ti fun t => { t with preempt := false })
          { s with ckpts := s.ckpts.filter fun x => x != k }).respond 7 1 k.seq k.ctx []
      else s
    | none => s

/-- Put numbered members back into a list. -/
def putBack {α : Type} (l : List α) (xs : List (Nat × α)) : List α := xs.foldl (fun l x => l.set x.1 x.2) l

/-- A group of a context that began after the checkpoint has not been. -/
def Snapshot.forgets (n : Snapshot) (has : List Nat) (ctx i : Nat) : Bool := ctx == n.ctx && !has.contains i

/-- The context of a group. -/
def State.groupCtx (s : State) (gi : Nat) : Option Nat := (s.groups[gi]?).map Group.ctx

/-- Frames that a copy of a context stands on. -/
def Snapshot.frames (n : Snapshot) : List Nat :=
  (n.teams.flatMap fun t => t.2.versions.map Version.frame) ++ n.cx.commits.filterMap fun e => e.2

/-- Restore a context from its copy (R395): what it did after the checkpoint has not been. -/
def State.restore (s : State) (n : Snapshot) : State :=
  let tables := (s.tableScan walkLevels n.cx.root 0).2
  let groups := s.groups.mapIdx fun i g => if n.forgets (n.groups.map Prod.fst) g.ctx i then g.discard else g
  let pails := s.pails.mapIdx fun i (p : Pail) =>
    if n.forgets (n.pails.map Prod.fst) p.ctx i then { p with stat := .stopped } else p
  let teams := s.teams.mapIdx fun i t => if n.forgets (n.teams.map Prod.fst) t.ctx i then t.killed else t
  let tasks := s.tasks.mapIdx fun i (t : Task) =>
    if n.forgets (n.tasks.map Prod.fst) t.ctx i then { t with committed := true } else t
  { s with
    contexts := s.contexts.set n.ctx n.cx
    freeFrames := s.freeFrames.filter fun f => !n.frames.contains f
    oldFrames := s.oldFrames.filter fun o => o.ctx != n.ctx
    bindings := s.bindings.filter fun b => b.ctx != n.ctx
    tasks := putBack tasks n.tasks, teams := putBack teams n.teams, groups := putBack groups n.groups,
    pails := putBack pails n.pails,
    cores := n.areas.foldl (fun m x => spSet Core.reset m x.1 x.2) (s.cores.map fun (c : Nat × Core) =>
      (c.1, { c.2 with handlers := c.2.handlers.map fun h => if (h.map s.groupCtx) == some (some n.ctx) then none else h })),
    mem := n.mem.foldl (fun m x => spSet 0#8 m x.1 x.2) (s.mem.filter fun x => !s.underKey n.ctx x.1 && !tabled tables x.1),
    units := n.units.foldl (fun m x => spSet ⟨0, 0#64⟩ m x.1 x.2) (s.units.filter fun u => u.2.key != ctxKey n.ctx && !tabled tables (64 * u.1)),
    creamery := n.creamery.foldl (fun m x => spSet none m x.1 x.2)
      (s.creamery.filter fun x => (x.2.map fun o => o.ctx != n.ctx).getD true) }

/-- Contexts that a resumption restores: those with a copy that have not been killed. -/
def State.restoreAll (s : State) : State :=
  (s.snaps.filter fun n => s.liveCtx n.ctx).foldl State.restore s

/-- Peer slots that are bound to a device. -/
def State.slotsOf (s : State) (device : Nat) : List Nat :=
  (s.peers.filter fun x => (x.2.map Peer.device) == some device).map Prod.fst

/-- Quarantine (R395): the links to a device are fenced and the accesses in flight to it fault (R393). -/
def State.fence (s : State) (device : Nat) : State :=
  (s.slotsOf device).foldl (fun s slot =>
    let lost := (spGet none s.peers slot).map fun (p : Peer) => { p with lost := true, missed := 4 }
    { s with peers := spSet none s.peers slot lost }.faultPeer slot) s

/-- A booted spare is bound to the peer slots of a lost device (R395). -/
def State.bindSpare (s : State) (device spare : Nat) : State :=
  { s with peers := (s.slotsOf device).foldl (fun m slot => spSet none m slot (some ⟨spare, false, 0, s.now⟩)) s.peers }

/-- Misses in a row after one more (R395): heartbeats come every 500 ms, so one that lies 1 s or more after the last miss
begins again. -/
def Peer.missesAt (p : Peer) (now : Nat) : Nat := if p.missed != 0 && decide (now < p.since + second) then p.missed + 1 else 1

/-- `HEARTBEAT_MISS` (R395): the fourth of four misses in a row of the device bound to a peer slot detects its fault, and
its links are fenced; the next event of that slot binds the spare to its slots, and every context goes on from its
checkpoint. -/
def execHeartbeatMiss (slot spare : Nat) (s : State) : Host.Outcome State Fault Refusal :=
  .next <|
    match spGet none s.peers slot with
    | none => s
    | some p =>
      if p.lost && p.missed == 4 then (s.bindSpare p.device spare).restoreAll
      else if p.missesAt s.now < 4 then
        { s with peers := spSet none s.peers slot (some { p with missed := p.missesAt s.now, since := s.now }) }
      else s.fence p.device

/-! A spare (R395) -/

/-- A number that no context of a device has. -/
def noCtx : Nat := 2 ^ 32

/-- A list with a dead member at every number below n that it does not have. -/
def padList {α : Type} (dead : α) (n : Nat) (l : List α) : List α := l ++ List.replicate (n - l.length) dead

/-- One above the greatest number of some numbered members. -/
def above {α : Type} (xs : List (Nat × α)) : Nat := maxNat (xs.map fun x => x.1 + 1)

/-- A kernel that nothing runs. -/
def deadKernel : Kernel :=
  { name := [], entry := 0#64, width := 32, team := 32, acc := 0, tags := 0, queues := 0, shapes := 0, coef := 0,
    paired := false, handler := false, stack := 0, spad := 0, lpail := none, spail := none }

/-- Room for the members of a copy in the lists of a spare. -/
def State.makeRoom (s : State) (n : Snapshot) : State :=
  { s with
    contexts := padList { Context.fresh 0 0 [] false 0 with stat := .killed } (n.ctx + 1) s.contexts
    tasks := padList ⟨noCtx, 0, deadKernel, 0, 0, 0, 0, 0, 0, [], [], true⟩ (above n.tasks) s.tasks
    teams := padList { Team.fresh noCtx 0 0 with stat := .retired } (above n.teams) s.teams
    groups := padList (Group.start noCtx 0 0 0 0 32 0#64 [] 0#32).discard (above n.groups) s.groups
    pails := padList { Pail.start noCtx 0 0 0 false ⟨[], [], 0⟩ with stat := .stopped } (above n.pails) s.pails
    nextFrame := Nat.max s.nextFrame (maxNat (n.units.map fun u => u.1 / 1024 + 1)) }

/-- Members of a copy stand at numbers where this device has none of a context of its own. -/
def State.roomFor {α : Type} (s : State) (of_ : α → Nat) (l : List α) (xs : List (Nat × α)) : Bool :=
  xs.all fun x => ((l[x.1]?).map fun y => !s.liveCtx (of_ y)).getD true

/-- This device, a booted spare, restores a context of a lost device from the neighbour's copy (R395). -/
def State.adopt (s : State) (n : Snapshot) : State :=
  if s.booted && !s.liveCtx n.ctx && decide (n.ctx < noCtx) && s.roomFor Task.ctx s.tasks n.tasks &&
      s.roomFor Team.ctx s.teams n.teams && s.roomFor Group.ctx s.groups n.groups && s.roomFor Pail.ctx s.pails n.pails then
    (s.makeRoom n).restore n
  else s

/-! Firmware and attestation (R396, R397) -/

/-- An image that passes its checks against the on-die minimum, or none (R396). -/
def checkFirmware (minVersion : Word) (img : List Byte) : Option Firmware :=
  let body := (img.drop 0x2654).take (field img 8 8)
  let version := w32 (field img 4 4)
  let digest := (img.drop 0x10).take 64
  if decide (0x2654 ≤ img.length) && field img 0 4 == 0x4D524946 && decide (img.length = 0x2654 + field img 8 8) &&
      digest == shake256 body && xmssVerify Config.horgalRoot Config.horgalSeed (img.take 0x50) ((img.drop 0x50).take 9732) &&
      !version.ult minVersion then
    some ⟨version, digest⟩
  else none

/-- An image runs: it raises the minimum to its VERSION. -/
def State.runFirmware (s : State) (f : Firmware) : State :=
  { s with running := some f, booted := true, winState := 1#64,
           minVersion := if s.minVersion.ult f.version then f.version else s.minVersion }

/-- The step configuration has the form of R350. -/
def stepCfgOk (cfg : Word) : Bool :=
  let p := cfg.toNat / 2 ^ 22
  decide (p ≤ 1000) && !cfg.getLsbD 20 && (p == 0 || decide (cfg.toNat % 2 ^ 20 < p * 1000))

/-- `BOOT` (R396): the image of drive 0, or of drive 1 if drive 0 fails; if both fail the device awaits a push and boots no
other way. -/
def execBoot (drive0 drive1 : List Byte) (cfg : Word) (pool : Nat) (s : State) : Host.Outcome State Fault Refusal :=
  .next <|
    if s.booted || s.winState.getLsbD 1 then s
    else
      let s1 := { s with drives := [drive0, drive1], stepCfg := if stepCfgOk cfg then cfg else s.stepCfg, pool := pool }
      match checkFirmware s.minVersion drive0 with
      | some f => s1.runFirmware f
      | none =>
        match checkFirmware s.minVersion drive1 with
        | some f => s1.runFirmware f
        | none => { s1 with winState := 2#64 }

/-- The key under which a request's image lies: that of the context it names, else the resident kernel's, under which a host
window of no context writes (log entry 78). -/
def State.imageKey (s : State) : Nat := if s.liveCtx (s.reqField 8 4) then ctxKey (s.reqField 8 4) else kernelKey

/-- A nonzero STATUS that no rule assigns, as a free value (log entry 28). -/
def State.freeStatus (s : State) : Nat × State :=
  let r := s.freeVal
  (1 + r.1.toNat % 0xFFFB, r.2)

/-- `PUSH_FIRMWARE` (R396): an image that passes the checks of the boot runs. -/
def execPushFirmware (seq : Word) (addr len : Nat) (s : State) : Host.Outcome State Fault Refusal :=
  .next <|
    let ci := s.reqField 8 4
    if !(s.booted || s.winState.getLsbD 1) || !s.reqIs 6 seq then s
    else if s.booted && !s.liveCtx ci then s.consume.respond 6 0xFFFE seq ci []
    else
      match checkFirmware s.minVersion (s.pmReadN s.imageKey addr len) with
      | some f => (s.consume.runFirmware f).respond 6 0 seq ci []
      | none =>
        let st := s.consume.freeStatus
        st.2.respond 6 st.1 seq ci []

/-- The signed part of a report (R397): nonce, image digest, version, device number, counter. -/
def reportBody (nonce : BitVec 256) (f : Firmware) (counter : Nat) : List Byte :=
  leBytes 32 nonce.toNat ++ padTo 64 f.digest ++ leBytes 4 f.version.toNat ++ leBytes 4 Config.deviceNumber.toNat ++
    leBytes 4 counter

/-- `ATTEST` (R397): the counter advances before the signature is released; the response gives the report's device
address. An exhausted counter answers STATUS 2. -/
def execAttest (seq : Word) (nonce : BitVec 256) (dst : Nat) (s : State) : Host.Outcome State Fault Refusal :=
  .next <|
    let ci := s.reqField 8 4
    s.onRequest 5 seq ci fun s =>
      match s.running with
      | none => s
      | some f =>
        if 2 ^ 20 ≤ s.keyIndex then s.respond 5 2 seq ci []
        else
          let body := reportBody nonce f s.keyIndex
          let report := body ++ padTo 9732 (Config.xmssSign body s.keyIndex)
          ({ s with keyIndex := s.keyIndex + 1 }.pmWriteN (ctxKey ci) dst report).respond 5 0 seq ci (leBytes 8 dst)

end Sys2Proof.Machine
end

