-- ==== Sys2Proof/Machine/Dispatch.lean ====
section
/-!
DEFINITION. One arm per row of the opcode table: each calls the meaning of its instruction.
-/

namespace Sys2Proof.Machine

/-- The meaning of an instruction. -/
def exec (i : Instr) (s : State) : Host.Outcome State Fault Refusal :=
  match i with
  | .add k ty d a b => Sys2Proof.Machine.execAdd k ty d a b s
  | .addI k ty d a imm => Sys2Proof.Machine.execAddI k ty d a imm s
  | .sub k ty d a b => Sys2Proof.Machine.execSub k ty d a b s
  | .subI k ty d a imm => Sys2Proof.Machine.execSubI k ty d a imm s
  | .mul k ty d a b => Sys2Proof.Machine.execMul k ty d a b s
  | .mulI k ty d a imm => Sys2Proof.Machine.execMulI k ty d a imm s
  | .mulhi k ty d a b => Sys2Proof.Machine.execMulhi k ty d a b s
  | .mulhiI k ty d a imm => Sys2Proof.Machine.execMulhiI k ty d a imm s
  | .div k ty d a b => Sys2Proof.Machine.execDiv k ty d a b s
  | .divI k ty d a imm => Sys2Proof.Machine.execDivI k ty d a imm s
  | .rem k ty d a b => Sys2Proof.Machine.execRem k ty d a b s
  | .remI k ty d a imm => Sys2Proof.Machine.execRemI k ty d a imm s
  | .min k ty d a b => Sys2Proof.Machine.execMin k ty d a b s
  | .minI k ty d a imm => Sys2Proof.Machine.execMinI k ty d a imm s
  | .max k ty d a b => Sys2Proof.Machine.execMax k ty d a b s
  | .maxI k ty d a imm => Sys2Proof.Machine.execMaxI k ty d a imm s
  | .mad k ty d a b c => Sys2Proof.Machine.execMad k ty d a b c s
  | .neg k ty d a => Sys2Proof.Machine.execNeg k ty d a s
  | .abs k ty d a => Sys2Proof.Machine.execAbs k ty d a s
  | .notb k ty d a => Sys2Proof.Machine.execNotb k ty d a s
  | .clz k ty d a => Sys2Proof.Machine.execClz k ty d a s
  | .popc k ty d a => Sys2Proof.Machine.execPopc k ty d a s
  | .brev k ty d a => Sys2Proof.Machine.execBrev k ty d a s
  | .mov k ty d a => Sys2Proof.Machine.execMov k ty d a s
  | .shl k ty d a b => Sys2Proof.Machine.execShl k ty d a b s
  | .shlI k ty d a imm => Sys2Proof.Machine.execShlI k ty d a imm s
  | .shr k ty d a b => Sys2Proof.Machine.execShr k ty d a b s
  | .shrI k ty d a imm => Sys2Proof.Machine.execShrI k ty d a imm s
  | .sar k ty d a b => Sys2Proof.Machine.execSar k ty d a b s
  | .sarI k ty d a imm => Sys2Proof.Machine.execSarI k ty d a imm s
  | .andb k ty d a b => Sys2Proof.Machine.execAndb k ty d a b s
  | .andbI k ty d a imm => Sys2Proof.Machine.execAndbI k ty d a imm s
  | .orb k ty d a b => Sys2Proof.Machine.execOrb k ty d a b s
  | .orbI k ty d a imm => Sys2Proof.Machine.execOrbI k ty d a imm s
  | .xorb k ty d a b => Sys2Proof.Machine.execXorb k ty d a b s
  | .xorbI k ty d a imm => Sys2Proof.Machine.execXorbI k ty d a imm s
  | .andn k ty d a b => Sys2Proof.Machine.execAndn k ty d a b s
  | .andnI k ty d a imm => Sys2Proof.Machine.execAndnI k ty d a imm s
  | .bfx k ty d a pos len => Sys2Proof.Machine.execBfx k ty d a pos len s
  | .bfi k ty d a b pos len => Sys2Proof.Machine.execBfi k ty d a b pos len s
  | .sel k ty d a b c => Sys2Proof.Machine.execSel k ty d a b c s
  | .cmp k cc ty d a b => Sys2Proof.Machine.execCmp k cc ty d a b s
  | .cmpI k cc ty d a imm => Sys2Proof.Machine.execCmpI k cc ty d a imm s
  | .movi k ty d imm => Sys2Proof.Machine.execMovi k ty d imm s
  | .addpc k d disp => Sys2Proof.Machine.execAddpc k d disp s
  | .idx k d dim => Sys2Proof.Machine.execIdx k d dim s
  | .rngget k d item => Sys2Proof.Machine.execRngget k d item s
  | .formget k d a item => Sys2Proof.Machine.execFormget k d a item s
  | .expand k => Sys2Proof.Machine.execExpand k s
  | .rerange k => Sys2Proof.Machine.execRerange k s
  | .dead k a cnt => Sys2Proof.Machine.execDead k a cnt s
  | .bra k disp => Sys2Proof.Machine.execBra k disp s
  | .brx k a b n => Sys2Proof.Machine.execBrx k a b n s
  | .call k d disp => Sys2Proof.Machine.execCall k d disp s
  | .callx k d a => Sys2Proof.Machine.execCallx k d a s
  | .ret k a => Sys2Proof.Machine.execRet k a s
  | .exit k => Sys2Proof.Machine.execExit k s
  | .nop k => Sys2Proof.Machine.execNop k s
  | .pand k d a b na nb => Sys2Proof.Machine.execPand k d a b na nb s
  | .por k d a b na nb => Sys2Proof.Machine.execPor k d a b na nb s
  | .pxor k d a b na nb => Sys2Proof.Machine.execPxor k d a b na nb s
  | .pnot k d a => Sys2Proof.Machine.execPnot k d a s
  | .pmov k d a => Sys2Proof.Machine.execPmov k d a s
  | .shfl k ty d a b mode => Sys2Proof.Machine.execShfl k ty d a b mode s
  | .vote k m d a => Sys2Proof.Machine.execVote k m d a s
  | .elect k d => Sys2Proof.Machine.execElect k d s
  | .gred k op ty d a => Sys2Proof.Machine.execGred k op ty d a s
  | .gscan k op ty excl d a => Sys2Proof.Machine.execGscan k op ty excl d a s
  | .fadd k ty rm sat d a b => Sys2Proof.Machine.execFadd k ty rm sat d a b s
  | .fsub k ty rm sat d a b => Sys2Proof.Machine.execFsub k ty rm sat d a b s
  | .fmul k ty rm sat d a b => Sys2Proof.Machine.execFmul k ty rm sat d a b s
  | .ffma k ty rm sat d a b c => Sys2Proof.Machine.execFfma k ty rm sat d a b c s
  | .fmin k ty d a b => Sys2Proof.Machine.execFmin k ty d a b s
  | .fmax k ty d a b => Sys2Proof.Machine.execFmax k ty d a b s
  | .fcmp k cc ty d a b => Sys2Proof.Machine.execFcmp k cc ty d a b s
  | .frcp k d a => Sys2Proof.Machine.execFrcp k d a s
  | .frsq k d a => Sys2Proof.Machine.execFrsq k d a s
  | .fsqrt k d a => Sys2Proof.Machine.execFsqrt k d a s
  | .fexp2 k d a => Sys2Proof.Machine.execFexp2 k d a s
  | .flog2 k d a => Sys2Proof.Machine.execFlog2 k d a s
  | .fsin k d a => Sys2Proof.Machine.execFsin k d a s
  | .fcos k d a => Sys2Proof.Machine.execFcos k d a s
  | .fcvt k dt sty rm sat d a => Sys2Proof.Machine.execFcvt k dt sty rm sat d a s
  | .f2i k it ft rm d a => Sys2Proof.Machine.execF2i k it ft rm d a s
  | .i2f k ft it rm sat d a => Sys2Proof.Machine.execI2f k ft it rm sat d a s
  | .frnd k ty rm d a => Sys2Proof.Machine.execFrnd k ty rm d a s
  | .fclass k ty d a => Sys2Proof.Machine.execFclass k ty d a s
  | .hadd2 k ty rm sat d a b => Sys2Proof.Machine.execHadd2 k ty rm sat d a b s
  | .hmul2 k ty rm sat d a b => Sys2Proof.Machine.execHmul2 k ty rm sat d a b s
  | .hfma2 k ty rm sat d a b c => Sys2Proof.Machine.execHfma2 k ty rm sat d a b c s
  | .plsplit k ty d a => Sys2Proof.Machine.execPlsplit k ty d a s
  | .pljoin k ty d a b => Sys2Proof.Machine.execPljoin k ty d a b s
  | .ld k ty d a m => Sys2Proof.Machine.execLd k ty d a m s
  | .st k ty a b m => Sys2Proof.Machine.execSt k ty a b m s
  | .ldp k d a m => Sys2Proof.Machine.execLdp k d a m s
  | .stp k a b m => Sys2Proof.Machine.execStp k a b m s
  | .atoms k op ty d a b c scope off => Sys2Proof.Machine.execAtoms k op ty d a b c scope off s
  | .gather k ty d a b sh m => Sys2Proof.Machine.execGather k ty d a b sh m s
  | .scatter k ty d a b sh m => Sys2Proof.Machine.execScatter k ty d a b sh m s
  | .gatom k op ty d a b c scope m => Sys2Proof.Machine.execGatom k op ty d a b c scope m s
  | .amaxrd k ty d a scope m => Sys2Proof.Machine.execAmaxrd k ty d a scope m s
  | .copy k a b c tag qord off => Sys2Proof.Machine.execCopy k a b c tag qord off s
  | .copyw k a b c tag qord off => Sys2Proof.Machine.execCopyw k a b c tag qord off s
  | .rload k a b c tag qord off => Sys2Proof.Machine.execRload k a b c tag qord off s
  | .remld k ty d a coord cq => Sys2Proof.Machine.execRemld k ty d a coord cq s
  | .qpeek k d a pop => Sys2Proof.Machine.execQpeek k d a pop s
  | .qstat k d a => Sys2Proof.Machine.execQstat k d a s
  | .qbind k a mode => Sys2Proof.Machine.execQbind k a mode s
  | .pref k f => Sys2Proof.Machine.execPref k f s
  | .bar k n scope => Sys2Proof.Machine.execBar k n scope s
  | .bararr k d n scope => Sys2Proof.Machine.execBararr k d n scope s
  | .barwait k a n => Sys2Proof.Machine.execBarwait k a n s
  | .fence k kind scope => Sys2Proof.Machine.execFence k kind scope s
  | .aliasfence k scope => Sys2Proof.Machine.execAliasfence k scope s
  | .qfence k scope => Sys2Proof.Machine.execQfence k scope s
  | .twait k tag => Sys2Proof.Machine.execTwait k tag s
  | .tfirst k d a => Sys2Proof.Machine.execTfirst k d a s
  | .bcwait k a b => Sys2Proof.Machine.execBcwait k a b s
  | .yield k => Sys2Proof.Machine.execYield k s
  | .task k d a => Sys2Proof.Machine.execTask k d a s
  | .taskwait k d a all => Sys2Proof.Machine.execTaskwait k d a all s
  | .tinfo k d item => Sys2Proof.Machine.execTinfo k d item s
  | .stepwait k d => Sys2Proof.Machine.execStepwait k d s
  | .mma k aty bty d a b c role acc remb off => Sys2Proof.Machine.execMma k aty bty d a b c role acc remb off s
  | .mmasp k ty d a b c role acc off => Sys2Proof.Machine.execMmasp k ty d a b c role acc off s
  | .scacc k set d a b => Sys2Proof.Machine.execScacc k set d a b s
  | .bscale k hi d a => Sys2Proof.Machine.execBscale k hi d a s
  | .accz k d => Sys2Proof.Machine.execAccz k d s
  | .accld k ty d a c off => Sys2Proof.Machine.execAccld k ty d a c off s
  | .accst k ty a b c off => Sys2Proof.Machine.execAccst k ty a b c off s
  | .accmov k tr d a => Sys2Proof.Machine.execAccmov k tr d a s
  | .accpeek k d a b => Sys2Proof.Machine.execAccpeek k d a b s
  | .accpatch k op d a b => Sys2Proof.Machine.execAccpatch k op d a b s
  | .accnorm k mode size d a b => Sys2Proof.Machine.execAccnorm k mode size d a b s
  | .mcoef k rd d a => Sys2Proof.Machine.execMcoef k rd d a s
  | .mpoly k size deg d a b => Sys2Proof.Machine.execMpoly k size deg d a b s
  | .miter k size cap d a b c => Sys2Proof.Machine.execMiter k size cap d a b c s
  | .mloopget k d => Sys2Proof.Machine.execMloopget k d s
  | .mloopset k a => Sys2Proof.Machine.execMloopset k a s
  | .shpset k d a => Sys2Proof.Machine.execShpset k d a s
  | .shpget k a b => Sys2Proof.Machine.execShpget k a b s
  | .shpfence k => Sys2Proof.Machine.execShpfence k s
  | .rred k op win d a b c => Sys2Proof.Machine.execRred k op win d a b c s
  | .rnorm k mode fs a b c => Sys2Proof.Machine.execRnorm k mode fs a b c s
  | .qenc k ty rm sat d a b => Sys2Proof.Machine.execQenc k ty rm sat d a b s
  | .qdec k ty d a b => Sys2Proof.Machine.execQdec k ty d a b s
  | .kqsc k d a blk => Sys2Proof.Machine.execKqsc k d a blk s
  | .trap k n bind => Sys2Proof.Machine.execTrap k n bind s
  | .bkpt k n => Sys2Proof.Machine.execBkpt k n s
  | .tret k d action => Sys2Proof.Machine.execTret k d action s
  | .wpset k n a => Sys2Proof.Machine.execWpset k n a s
  | .wpclr k n => Sys2Proof.Machine.execWpclr k n s
  | .sysrd k d num => Sys2Proof.Machine.execSysrd k d num s
  | .syswr k a num => Sys2Proof.Machine.execSyswr k a num s
  | .traprd k d a => Sys2Proof.Machine.execTraprd k d a s
  | .trapwr k a b => Sys2Proof.Machine.execTrapwr k a b s
  | .phase k f => Sys2Proof.Machine.execPhase k f s
  | .phend k f => Sys2Proof.Machine.execPhend k f s
  | .pqPush q rs => Sys2Proof.Machine.execPqPush q rs s
  | .pqPop q rd => Sys2Proof.Machine.execPqPop q rd s
  | .pqRowin q rs => Sys2Proof.Machine.execPqRowin q rs s
  | .pqRowout q rs => Sys2Proof.Machine.execPqRowout q rs s
  | .pqStat q rd => Sys2Proof.Machine.execPqStat q rd s
  | .pailStop why => Sys2Proof.Machine.execPailStop why s
  | .createContext seq priority quota dieMap bounded root => Sys2Proof.Machine.execCreateContext seq priority quota dieMap bounded root s
  | .loadObject seq ctx addr len => Sys2Proof.Machine.execLoadObject seq ctx addr len s
  | .startGroup seq ctx addr => Sys2Proof.Machine.execStartGroup seq ctx addr s
  | .killContext seq ctx => Sys2Proof.Machine.execKillContext seq ctx s
  | .attest seq nonce dst => Sys2Proof.Machine.execAttest seq nonce dst s
  | .pushFirmware seq addr len => Sys2Proof.Machine.execPushFirmware seq addr len s
  | .checkpoint seq ctx own neighbour => Sys2Proof.Machine.execCheckpoint seq ctx own neighbour s
  | .debugAct seq ctx group act => Sys2Proof.Machine.execDebugAct seq ctx group act s
  | .registerWrite off value => Sys2Proof.Machine.execRegisterWrite off value s
  | .resultWriteback g => Sys2Proof.Machine.execResultWriteback g s
  | .globalBytesLand g l e => Sys2Proof.Machine.execGlobalBytesLand g l e s
  | .storePerformed g => Sys2Proof.Machine.execStorePerformed g s
  | .engineCommandComplete g l => Sys2Proof.Machine.execEngineCommandComplete g l s
  | .matrixPassComplete g n => Sys2Proof.Machine.execMatrixPassComplete g n s
  | .iterationBoundary g => Sys2Proof.Machine.execIterationBoundary g s
  | .recordWake g r => Sys2Proof.Machine.execRecordWake g r s
  | .issueHoldRelease g => Sys2Proof.Machine.execIssueHoldRelease g s
  | .stragglerForcedRun g => Sys2Proof.Machine.execStragglerForcedRun g s
  | .churnAccept g => Sys2Proof.Machine.execChurnAccept g s
  | .placeTeam t core => Sys2Proof.Machine.execPlaceTeam t core s
  | .teamRetirement t => Sys2Proof.Machine.execTeamRetirement t s
  | .versionCommit t tile => Sys2Proof.Machine.execVersionCommit t tile s
  | .preemptionRequest t => Sys2Proof.Machine.execPreemptionRequest t s
  | .eviction t => Sys2Proof.Machine.execEviction t s
  | .resumption t core => Sys2Proof.Machine.execResumption t core s
  | .migration t core => Sys2Proof.Machine.execMigration t core s
  | .forwardedMessage core n => Sys2Proof.Machine.execForwardedMessage core n s
  | .pageWalk ctx cluster va kind => Sys2Proof.Machine.execPageWalk ctx cluster va kind s
  | .faultResolution ctx frame => Sys2Proof.Machine.execFaultResolution ctx frame s
  | .faultBudgetExpiry ctx => Sys2Proof.Machine.execFaultBudgetExpiry ctx s
  | .abortCutTimeout t => Sys2Proof.Machine.execAbortCutTimeout t s
  | .killCutTimeout ctx => Sys2Proof.Machine.execKillCutTimeout ctx s
  | .waitCycleTrap g => Sys2Proof.Machine.execWaitCycleTrap g s
  | .handlerStart g => Sys2Proof.Machine.execHandlerStart g s
  | .watchpointApply ctx => Sys2Proof.Machine.execWatchpointApply ctx s
  | .demandFetch g => Sys2Proof.Machine.execDemandFetch g s
  | .speculativeFetch g line => Sys2Proof.Machine.execSpeculativeFetch g line s
  | .traceCacheFill g lane => Sys2Proof.Machine.execTraceCacheFill g lane s
  | .tlbInvalidation ctx va entry => Sys2Proof.Machine.execTlbInvalidation ctx va entry s
  | .phaseStart g => Sys2Proof.Machine.execPhaseStart g s
  | .phaseExpiry g => Sys2Proof.Machine.execPhaseExpiry g s
  | .stepRelease g => Sys2Proof.Machine.execStepRelease g s
  | .refreshWindow cluster => Sys2Proof.Machine.execRefreshWindow cluster s
  | .coreAvoidance core temp => Sys2Proof.Machine.execCoreAvoidance core temp s
  | .avoidanceEnd core => Sys2Proof.Machine.execAvoidanceEnd core s
  | .droopEvent core => Sys2Proof.Machine.execDroopEvent core s
  | .islandFrequencyChange island mhz => Sys2Proof.Machine.execIslandFrequencyChange island mhz s
  | .clockHop island => Sys2Proof.Machine.execClockHop island s
  | .hostMemoryAccess ctx va wr => Sys2Proof.Machine.execHostMemoryAccess ctx va wr s
  | .peerAccess ctx pa size op wr repl => Sys2Proof.Machine.execPeerAccess ctx pa size op wr repl s
  | .peerLost slot => Sys2Proof.Machine.execPeerLost slot s
  | .heartbeatMiss slot spare => Sys2Proof.Machine.execHeartbeatMiss slot spare s
  | .checkpointTimeout => Sys2Proof.Machine.execCheckpointTimeout s
  | .boot drive0 drive1 cfg pool => Sys2Proof.Machine.execBoot drive0 drive1 cfg pool s
  | .pailInstruction rv short => Sys2Proof.Machine.execPailInstruction rv short s
  | .preemptionWithdrawal t => Sys2Proof.Machine.execPreemptionWithdrawal t s
  | .deviceTimeLock lock => Sys2Proof.Machine.execDeviceTimeLock lock s
  | .unassignedOpcode w => Sys2Proof.Machine.execUnassignedOpcode w s
  | .unknownKindRequest kind seq ctx => Sys2Proof.Machine.execUnknownKindRequest kind seq ctx s

end Sys2Proof.Machine
end

