-- ==== Sys2Proof/Machine/Schedule.lean ====
section
/-!
DEFINITION. What happens next (R51, R54, R91-R95, R108-R112): which group or Pail may issue, the checks of its
line and word before it issues, the events that fall due, and the passing of a ck.
-/

namespace Sys2Proof.Machine

/-! Eligibility of a group (R91-R95, R112) -/

/-- A context whose groups run: it has not stopped, and a kill cuts them only at their blocking points. -/
def Context.runs (c : Context) : Bool := c.stat == .live || c.stat == .dying

/-- Another group of the core lies in an open hold window (R12, R95). -/
def State.windowElsewhere (s : State) (gi : Nat) (g : Group) : Bool :=
  s.groups.zipIdx.any fun x => x.2 != gi && x.1.core == g.core && x.1.stat == .live && !x.1.windows.isEmpty

/-- The team of a group stands on its cores. -/
def State.teamRuns (s : State) (g : Group) : Bool := ((s.teams[g.team]?).map fun t => t.stat == .running).getD false

/-- A group may issue in this ck as far as its instruction does not matter: it is not frozen, blocked, held by a
fence, behind a due result (R112), a due forced run (R94), its own or its core's last pass, or a window. -/
def State.groupReady (s : State) (gi : Nat) (g : Group) (c : Context) : Bool :=
  let ck := s.groupCk g
  g.stat == .live && c.runs && s.teamRuns g && g.fences.isEmpty && (g.nextLanding ck).isNone &&
    (decide (g.strag < 256) || g.forced) && decide (g.nextAt ≤ ck) && decide (g.retryAt ≤ ck) &&
    decide ((s.core g.core).freeAt ≤ ck) && !s.windowElsewhere gi g

/-- DIST of an instruction has passed: collection ck of the core do not count (R11, R116). -/
def State.distMet (s : State) (g : Group) (k : Ctl) : Bool :=
  decide (g.nextAt + k.dist.toNat + ((s.core g.core).lost - g.lostAt) ≤ s.groupCk g)

/-- An instruction that leaves the records of its run as they issued, or moves them apart after its issue: control
transfers and the range instructions. -/
def keepsRun (op : BitVec 10) : Bool :=
  (decide (0x080 ≤ op.toNat) && decide (op.toNat ≤ 0x085)) || (decide (0x053 ≤ op.toNat) && decide (op.toNat ≤ 0x055))

/-- Issues by which an instruction raises its flag (R49): one by each record of the run, once those that expand have
expanded. -/
def State.issueCount (s : State) (gi : Nat) (g : Group) (f : Fields) (x : Instr) : Nat :=
  let s1 : State := { s with issuer := some (.group gi) }
  match s1.iss f.k with
  | none => 1
  | some i =>
    if keepsRun f.op then i.run.length
    else
      match exec x s1 with
      | .next t =>
        match t.groups[gi]? with
        | some h =>
          if g.step.isSome || h.stat == .live then (h.recs.filter fun r => r.positions.any i.sel.contains).length
          else i.run.length
        | none => i.run.length
      | _ => i.run.length

/-- Flag room of an instruction at some positions (R50): no issue takes a flag above 63. What no flag could hold issues
once the flag reads zero (log entry 71). -/
def State.flagFits (s : State) (gi : Nat) (g : Group) (f : Fields) (x : Instr) (ps : List Nat) : Bool :=
  let sig := f.k.sig.toNat
  g.flagRoom sig ps.length || g.flagRoom sig (s.issueCount gi g f x)

/-! Checks before issue (R54, checks 1 to 5) -/

/-- What a group has to offer: an instruction that issues, a trap of its line or word, a fetch of its line, or nothing
but a ck of contract shortfall (R114). -/
inductive Offer where
  | issue (i : Instr)
  | trap (cause : Nat) (pc : Addr)
  | fetch (e : Instr)
  | late
  deriving DecidableEq, Repr

/-- Opcodes of control transfers (R144). -/
def transferOp (op : BitVec 10) : Bool := decide (0x080 ≤ op.toNat) && decide (op.toNat ≤ 0x085)

/-- Checks 1 to 5 of R54 on the word at a PC of a line: the instruction, or the cause of the illegal-instruction
trap. A hint's fields and line word are not checked (R58). -/
def wordChecks (line : Nat) (pc : Addr) : Except Nat Instr :=
  let w := slotWord line (slotOf pc)
  let f := Fields.unpack w
  let lw := lineWord line
  if !parityOk line then .error 1
  else if !pcLegal pc then .error 2
  else if lineEnd lw && slotOf pc == 4 && !transferOp f.op then .error 3
  else
    match decode w with
    | .ok (.unassignedOpcode w) => .ok (.unassignedOpcode w)
    | .ok i => if lineReserved lw && !isHintOp f.op then .error 5 else .ok i
    | .error .reserved => .error 5
    | .error .type => if lineReserved lw then .error 5 else .error 6

/-- The range classes that the next run needs of a line (R111). -/
def Group.runClasses (g : Group) (pc : Addr) : List Bool :=
  dedup ((g.recs.filter fun r => r.ready && r.pc == pc).map Rec.lane)

/-- Checks 6 and 7 of R54 fail: the instruction takes its trap without waiting for check 8. -/
def State.tryFails (s : State) (gi : Nat) (x : Instr) : Bool :=
  match exec x { s with issuer := some (.trial gi) } with
  | .next t => ((t.groups[gi]?).map fun h => h.stat == .frozen).getD false
  | _ => false

/-- What a group offers of an instruction that has passed checks 1 to 5 (R54): a trap of checks 6 and 7 at once; else it
waits for check 8. -/
def State.offerOf (s : State) (gi : Nat) (g : Group) (f : Fields) (x : Instr) (ps : List Nat) : Option Offer :=
  if s.tryFails gi x then some (.issue x)
  else if !s.distMet g f.k then none
  else if g.lateFor (s.groupCk g) f.k x then some .late
  else if g.waitMet f.k.wait && s.flagFits gi g f x ps then some (.issue x)
  else none

/-- What a group offers in this ck, or none where it is not eligible (R54, R93, R108, R111). -/
def State.offer (s : State) (gi : Nat) : Option Offer :=
  (s.groups[gi]?).bind fun g => (s.contexts[g.ctx]?).bind fun c =>
    if !s.groupReady gi g c then none
    else
      g.pick.bind fun p =>
        if !c.lineBound p.1 then some (.fetch (.demandFetch gi))
        else
          match s.codeWalk c (lineOf p.1) with
          | none => some (.fetch (.demandFetch gi))
          | some (_, e, pa) =>
            if !lineFetched e then some (.fetch (.demandFetch gi))
            else
              let sound (lane : Bool) : Bool := (((s.core g.core).copyOf g.ctx pa lane).map fun x => !x.upset).getD false
              match (g.runClasses p.1).find? fun lane => !sound lane with
              | some lane => some (.fetch (.traceCacheFill gi lane))
              | none =>
                let line := s.lineBits g.ctx pa
                match wordChecks line p.1 with
                | .ok i => s.offerOf gi g (Fields.unpack (slotWord line (slotOf p.1))) i p.2
                | .error cause => some (.trap cause p.1)

/-- An offer that takes the core's issue in this ck. -/
def Offer.issues : Offer → Bool
  | .fetch _ | .late => false
  | _ => true

/-- The order of a core's groups (R95): least recently issued, then handler slots, then the lower slot. -/
def State.issueKey (s : State) (gi : Nat) : Nat :=
  match s.groups[gi]? with
  | none => 0
  | some g =>
    let place := match (s.core g.core).handlers.findIdx? fun h => h == some gi with
      | some n => n
      | none => 2 + g.slot
    g.lastIssue * 4096 + place

/-- The group that issues on the core of a group (R95). -/
def State.winner (s : State) (core : Nat) : Option Nat :=
  leastBy s.issueKey ((List.range s.groups.length).filter fun gj =>
    (((s.groups[gj]?).map fun g => g.core == core).getD false) && ((s.offer gj).map Offer.issues).getD false)

/-- A Pail may run its next instruction: it has not stopped, does not stall, its ck has come, its team stands on its
cores, its context runs and it does not wait on a queue (R222-R224, R303). Once the team's last group has ended, it only
finishes an access that is to be replayed (R386). -/
def State.pailReady (s : State) (pi : Nat) : Bool :=
  ((s.pailView pi).map fun i =>
    i.p.stat == .running && i.p.stall.isNone && decide (i.p.ran ≤ s.pailCk i) && i.t.stat == .running &&
      ((s.contexts[i.p.ctx]?).map fun c => c.stat == .live).getD false && (s.pailWaits i).isNone &&
      (i.p.again || !s.endsNow i.t)).getD false

/-- What one that may issue offers; none where it may not. -/
def State.mayIssue (s : State) : Issuer → Option Offer
  | .group gi =>
    match s.groups[gi]?, s.offer gi with
    | some g, some o => if o.issues && s.winner g.core == some gi then some o else none
    | _, _ => none
  | .pail pi => if s.pailReady pi then (s.pails[pi]?).map fun p => .issue p.fetch else none
  | .trial _ => none

/-! Carrying out a turn -/

/-- The run's line becomes the most recently used of its set (R111). -/
def State.touchTrace (s : State) : Issuer → State
  | .pail _ | .trial _ => s
  | .group gi =>
    match s.groups[gi]? with
    | none => s
    | some g =>
      match (s.contexts[g.ctx]?).bind fun c => g.pick.bind fun p => (s.codeWalk c (lineOf p.1)).map fun w => (p.1, w.2.2) with
      | none => s
      | some (pc, pa) => s.modCore g.core fun k => (g.runClasses pc).foldl (fun k lane => k.useLine g.ctx pa lane) k

/-- A step is over: nobody issues until the next. -/
def endStep : Host.Outcome State Fault Refusal → Host.Outcome State Fault Refusal
  | .next s => .next { s with issuer := none }
  | o => o

/-- The state in which an issuer's instruction is carried out. -/
def State.issuing (s : State) (who : Issuer) : State := { s.touchTrace who with issuer := some who }

/-- Carry out an offer. -/
def State.perform (s : State) (who : Issuer) : Offer → Host.Outcome State Fault Refusal
  | .issue i => endStep (exec i (s.issuing who))
  | .trap cause pc =>
    match who with
    | .group gi => .next ({ s with issuer := none }.takeTrap gi
        ⟨0x01, cause, 0#32, ((s.groups[gi]?).map fun (g : Group) => g.recordAt pc).getD 0, false⟩ pc)
    | .pail _ | .trial _ => .next { s with issuer := none }
  | .fetch e => endStep (exec e s)
  | .late => .next { s with issuer := none }

/-! Events that fall due -/

/-- Events of a group that may fall due. -/
def State.groupEvents (s : State) (gi : Nat) (g : Group) : List Instr :=
  (if (g.nextLanding (s.groupCk g)).isSome then [.resultWriteback gi] else []) ++
    (if g.storeq.isEmpty then [] else [.storePerformed gi]) ++
    (g.oplog.flatMap fun l =>
      if l.isCommand then [Instr.engineCommandComplete gi l.num]
      else (List.range l.elems.length).map fun e => Instr.globalBytesLand gi l.num e) ++
    ((List.range g.work.length).filterMap fun n =>
      if ((g.work[n]?).map Work.left) == some 0 then some (Instr.matrixPassComplete gi n) else none) ++
    (if (g.loop.map Loop.left) == some 0 then [.iterationBoundary gi] else []) ++
    ((List.range g.recs.length).filterMap fun r =>
      if ((g.recs[r]?).bind Rec.wait).isSome then some (Instr.recordWake gi r) else none) ++
    (if g.fences.isEmpty then [] else [.issueHoldRelease gi]) ++
    (if 256 ≤ g.strag && !g.forced then [.stragglerForcedRun gi] else []) ++
    (if g.submit.isEmpty then [] else [.churnAccept gi]) ++
    (if g.phase.isSome then [.phaseStart gi, .phaseExpiry gi] else []) ++
    (if g.recs.any fun r => match r.wait.map Wait.cond with | some (.release _) => true | _ => false then
      [.stepRelease gi] else []) ++
    (match g.trap with
     | some t =>
       if t.route = .handler then [.handlerStart gi]
       else if (t.word >>> 24).toNat = 0x0F ∧ g.serves = none then [.demandFetch gi] else []
     | none => [])

/-- The first core that a team could take (R76). -/
def State.firstCore (s : State) (t : Team) (ok : Nat → Bool) : Option Nat :=
  (((s.contexts[t.ctx]?).map Context.dieMap).getD []).findSome? fun d => (upto (512 * d) 512).find? ok

/-- Events of a team that may fall due. -/
def State.teamEvents (s : State) (ti : Nat) (t : Team) : List Instr :=
  match s.kernelOf t with
  | none => []
  | some k =>
    match t.stat with
    | .ready => if s.startClear t then ((s.firstCore t (s.admits t.ctx k)).map (Instr.placeTeam ti)).toList else []
    | .running =>
      [.teamRetirement ti] ++ (if t.cut.isSome then [.abortCutTimeout ti] else []) ++
        (if t.preempt then [.eviction ti] else []) ++
        (if (coresFor k t.core).any (fun c => (s.core c).avoided) && s.atPoints t then
          ((s.firstCore t fun c => decide (c ≠ t.core) && s.takesBack t k c).map (Instr.migration ti)).toList else [])
    | .evicted =>
      if s.ckpts.any fun k => k.ctx == t.ctx && !k.wrote then []
      else ((s.firstCore t (s.takesBack t k)).map (Instr.resumption ti)).toList
    | .retired => (t.versions.filter fun v => !v.committed).map fun v => Instr.versionCommit ti v.tile

/-- The frame that the resident kernel gives the page of a context's oldest record, where the context holds it (R371). -/
def State.frameFor (s : State) (c : Context) : Option Nat :=
  match c.faults with
  | r :: _ => if s.resolvable c (va56 r.addr / 65536) then some (s.freeFrames.headD s.nextFrame) else none
  | [] => none

/-- Events of a context that may fall due. -/
def State.ctxEvents (s : State) (ci : Nat) (c : Context) : List Instr :=
  (if c.watchQ.isEmpty then [] else [.watchpointApply ci]) ++
    (if c.kill.isSome then [.killCutTimeout ci] else []) ++
    (if c.faults.isEmpty then [] else [.faultBudgetExpiry ci, .faultResolution ci (s.frameFor c)])

/-- Events of the device that may fall due. -/
def State.deviceEvents (s : State) : List Instr :=
  (s.ckpts.map fun k => Instr.checkpoint k.seq k.ctx k.own k.neighbour) ++
    (if s.ckpts.isEmpty then [] else [.checkpointTimeout]) ++
    (s.nextPreemption.map Instr.preemptionRequest).toList ++ (s.islands.map fun x => Instr.clockHop x.1) ++
    ((s.cores.filter fun c => c.2.avoided).map fun c => Instr.avoidanceEnd c.1) ++
    s.cores.flatMap fun c => (List.range c.2.fwd.length).map fun n => Instr.forwardedMessage c.1 n

/-- Every event that may fall due, in the order in which it is tried. -/
def State.dueEvents (s : State) : List Instr :=
  (s.groups.zipIdx.flatMap fun x => s.groupEvents x.2 x.1) ++
    (s.teams.zipIdx.flatMap fun x => s.teamEvents x.2 x.1) ++
    (s.contexts.zipIdx.flatMap fun x => s.ctxEvents x.2 x.1) ++ s.deviceEvents

/-- The first event of a list that changes the state, with its outcome. -/
def State.firstEvent (s : State) : List Instr → Option State
  | [] => none
  | e :: rest =>
    match exec e s with
    | .next t => if t = s then s.firstEvent rest else some t
    | _ => s.firstEvent rest

/-! The passing of a ck -/

/-- Cores on which a group stands, or one that has ended still has matrix work in flight (R340) or a phase open. -/
def State.groupCores (s : State) : List Nat :=
  dedup ((s.groups.filter fun g => g.stat != .ended || !g.work.isEmpty || !g.bcDrop.isEmpty).map Group.core)

/-- A ck of a core as it was before another group issued in it. -/
def State.beforeIssue (s : State) (core : Nat) : State :=
  if s.groups.any fun g => g.core == core && g.lastIssue == s.ckAt core + 1 then s.modCore core fun c => { c with freeAt := 0 } else s

/-- A group that would issue but for a source that is later than its contract: the ck counts as shortfall and not toward
DIST (R114), whether or not another group issues in it. -/
def State.countLate (s : State) (gi : Nat) : State :=
  match s.groups[gi]? with
  | none => s
  | some g =>
    if g.wb.any (fun e => e.due != e.contract) && (s.beforeIssue g.core).offer gi == some .late then
      (s.modGroup gi fun g => { g with nextAt := g.nextAt + 1 }).modCtx g.ctx fun c => { c with shortfall := c.shortfall + 1#64 }
    else s

/-- The passes of a group's loads that ran in this ck have read what stood there (R301). -/
def State.rereadGroup (s : State) (gi : Nat) : State :=
  match s.groups[gi]? with
  | some g => s.reread gi g
  | none => s

/-- A ck of a core is over: late passes' reads (R301), late sources (R114), the matrix unit (R250, R346), and bytes counted
out in it, which source reads see from the next on (R218). -/
def State.coreCk (s : State) (core : Nat) : State :=
  let gis := (List.range s.groups.length).filter fun gi => ((s.groups[gi]?).map fun g => g.core == core).getD false
  let s1 := (gis.foldl State.countLate (gis.foldl State.rereadGroup s)).matrixCk core
  { s1 with groups := s1.groups.map fun g => if g.core == core && !g.bcDrop.isEmpty then { g with bcDrop := [] } else g }

/-- One ns passes: device time runs on (R350), the islands' clocks run (R348), and each core whose ck ends has it
accounted for (R7). -/
def State.tick (s : State) : State :=
  let islands := (s.islands.map fun x => (x.1, x.2.tick (s.now + 1))).filter fun x => x.2 != Island.reset
  let later (s : State) : State := { s with now := s.now + 1, devTime := s.devTime + 1, islands := islands }
  later ((s.groupCores.filter fun c => (later s).ckAt c != s.ckAt c).foldl State.coreCk s)

/-- Everyone that could issue, groups in ascending core and slot (R342). -/
def State.issuers (s : State) : List Issuer :=
  let place (gi : Nat) : Nat := ((s.groups[gi]?).map fun g => 64 * g.core + g.slot).getD 0
  (((List.range s.groups.length).filter fun gi => ((s.groups[gi]?).map fun g => g.stat != .ended).getD false) |> sortBy place).map
    Issuer.group ++ (List.range s.pails.length).map Issuer.pail

/-- The first fetch that a group needs. -/
def State.firstFetch (s : State) : Option Instr :=
  (List.range s.groups.length).findSome? fun gi =>
    match s.offer gi with
    | some (.fetch e) => some e
    | _ => none

/-- What the machine does by itself: an event that is due, the binder's next write, a fetch, an issue, the trap of a wait
cycle, or time passes. -/
def State.ownTurn (s : State) : Host.Outcome State Fault Refusal :=
  match s.firstEvent s.dueEvents with
  | some t => .next t
  | none =>
    if !s.bindings.isEmpty then .next (s.bindStep 0)
    else
    match s.firstFetch with
    | some e => endStep (exec e s)
    | none =>
      match s.issuers.findSome? fun w => (s.mayIssue w).map fun o => (w, o) with
      | some (w, o) => s.perform w o
      | none =>
        match s.firstEvent ((List.range s.groups.length).map Instr.waitCycleTrap) with
        | some t => .next t
        | none => .next s.tick

/-- Events are what no group or Pail issues: the instructions that no word encodes. -/
def isEvent (i : Instr) : Bool :=
  match i with
  | .pailStop _ | .pailInstruction _ _ => false
  | i => (encode i).isNone

/-- Map a host window (R390): over a live context's pages, or, over no context's, once the device runs or awaits an image. -/
def State.mapWindow (s : State) (w : HostWindow) : State :=
  if w.ok && (match w.ctx with
      | some ci => s.liveCtx ci
      | none => s.booted || s.winState.getLsbD 1) then { s with hostWins := s.hostWins ++ [w] }
  else s

/-- Carry out the first turn of the agenda; an issue that may not take place, and an entry that is no event, are
dropped. -/
def State.takeTurn (s : State) (t : Turn) : Host.Outcome State Fault Refusal :=
  match t with
  | .event i => if isEvent i then endStep (exec i s) else .next s
  | .issue who =>
    match s.mayIssue who with
    | some o => s.perform who o
    | none => .next s
  | .upset core n => .next (s.upsetCopy core n)
  | .bind n => .next (s.bindStep n)
  | .hart n h => .next (s.setHart n h)
  | .sram a b => .next (s.sramWrite a b)
  | .window w => .next (s.mapWindow w)
  | .unwindow n => .next { s with hostWins := s.hostWins.eraseIdx n }
  | .windowRead off n => .next (s.readWindow off n)
  | .bkpt ci pc n => .next (s.placeBkpt ci pc n)
  | .debugger ci on => .next (s.setDebugger ci on)
  | .adopt n => .next (s.adopt n)
  | .own => s.ownTurn

/-- The next turn: an issuer that stands ready, the agenda, or the machine's own choice. -/
def State.nextTurn (s : State) : Host.Outcome State Fault Refusal :=
  match s.issuer.bind fun w => (s.mayIssue w).map fun o => (w, o) with
  | some (w, o) => s.perform w o
  | none =>
    let s1 : State := { s with issuer := none }
    match s1.agenda with
    | [] => s1.ownTurn
    | t :: rest => { s1 with agenda := rest }.takeTurn t

/-! A program of one instruction (for `withFetchWord`) -/

/-- A kernel of one group of 32 with every allotment. -/
def probeKernel (entry : Addr) : Kernel :=
  { name := [], entry := entry, width := 32, team := 32, acc := 16, tags := 64, queues := 16, shapes := 8, coef := 8, paired := false,
    handler := false, stack := 64, spad := 65536, lpail := none, spail := none }

/-- A core on which no team stands. -/
def State.emptyCore (s : State) : Nat :=
  ((List.range 2048).find? fun c => (s.teamsOn c).isEmpty && s.groups.all fun g => g.core != c).getD 0

/-- A task of one team of a kernel. -/
def probeTask (ci : Nat) (k : Kernel) : Task :=
  { ctx := ci, serial := 0, kern := k, gx := 1, gy := 1, gz := 1, tx := 32, ty := 1, tz := 1, ranges := [], args := [],
    committed := false }

/-- A team that stands at a core with all that its kernel names. -/
def probeTeam (ci task core : Nat) (groups pails : List Nat) : Team :=
  { Team.fresh ci task 0 with
    stat := .running, core := core,
    seats := [{ foot := 0, footLen := 65536, stackAt := 0, accs := List.range 16, tags := List.range 64 }],
    groups := groups, pails := pails, shps := List.replicate 8 [(0, 0#640)], barriers := List.replicate 8 ⟨0#32, [], []⟩,
    queues := List.replicate 16 Queue.empty }

/-- The line whose slot 0 holds a word, with its parity bits and every TARGET bit set. -/
def probeLine (w : IWord) : Nat :=
  let l := w.toNat + 31 * 2 ^ 489
  l % 2 ^ 480 + reparity l * 2 ^ 480

/-- A context, task, team and Pail of one instruction beside what is there: the Pail issues next. -/
def State.placePail (s : State) (code : List Byte) (storer : Bool) : State :=
  let ci := s.contexts.length
  let core := s.emptyCore
  let p : Pail := { Pail.start ci s.teams.length core 0 storer ⟨code, [], 0⟩ with ran := 0 }
  { s with
    contexts := s.contexts ++ [Context.fresh 0 4096 [0, 1, 2, 3] false (s.nextFrame * 65536)],
    nextFrame := s.nextFrame + 1,
    tasks := s.tasks ++ [probeTask ci (probeKernel 0#64)],
    teams := s.teams ++ [probeTeam ci s.tasks.length core [] [s.pails.length]],
    pails := s.pails ++ [p], agenda := [], issuer := some (.pail s.pails.length) }

/-- A context, task, team and group whose next instruction is a word: its line is mapped and fetched. -/
def State.placeGroup (s : State) (w : IWord) : State :=
  let ci := s.contexts.length
  let core := s.emptyCore
  let root := s.nextFrame * 65536
  let va := 0x10000
  let s1 := { s with nextFrame := s.nextFrame + 1 }
  let f := s1.nextFrame
  let s2 := { s1 with nextFrame := f + 1 }.mapPage root va (f * 65536 + 2 ^ 6 + 2 ^ 3 + 1)
  let s3 := s2.pmWriteN (ctxKey ci) (f * 65536) (leBytes 64 (probeLine w))
  let entry := BitVec.ofNat 64 va
  let g := { Group.start ci s.teams.length 0 core 0 32 entry [] 1#32 with nextAt := 0 }
  ({ s3 with
    contexts := s.contexts ++ [Context.fresh 0 4096 [0, 1, 2, 3] false root],
    tasks := s.tasks ++ [probeTask ci (probeKernel entry)],
    teams := s.teams ++ [probeTeam ci s.tasks.length core [s.groups.length] []],
    groups := s.groups ++ [g], agenda := [], issuer := some (.group s.groups.length) } : State).modCore core fun c =>
      { c with trace := [⟨ci, f * 65536, false, false⟩] }

/-- The storer is the Pail for `pq.pop` and `pq.rowout`, the loader for every other instruction. -/
def storerWord (w : BitVec 32) : Bool :=
  match decodePail w with
  | some (.pqPop _ _) | some (.pqRowout _ _) => true
  | _ => false

/-- Place an instruction of nbits bits w so that it runs next: 16 and 32 bits are Pail words. -/
def State.placeWord (s : State) (nbits w : Nat) : State :=
  if nbits ≤ 16 then s.placePail (leBytes 2 w) false
  else if nbits ≤ 32 then s.placePail (leBytes 4 w) (storerWord (BitVec.ofNat 32 w))
  else s.placeGroup (BitVec.ofNat 96 (w % 2 ^ nbits))

end Sys2Proof.Machine
end

