-- ==== Sys2Proof/Machine/Step.lean ====
section
/-!
DEFINITION. The step of the device, and the placing of one instruction where the next step fetches it.
-/

namespace Sys2Proof.Machine

/-- One step: one instruction issues, one event happens, or a ck passes. -/
def step (s : State) : Host.Outcome State Fault Refusal := s.nextTurn

/-- The state with an instruction of nbits bits w placed where the next step fetches it (log entry 1). -/
def State.withFetchWord (s : State) (nbits w : Nat) : State := s.placeWord nbits w

end Sys2Proof.Machine
end

