-- ==== Sys2Proof/Safety.lean ====
section
/-!
DEFINITION. What a safe run is, and the words in which claims about the machine are made: which register writes an
instruction is to make, by the rules of the manual and not by the meanings of Machine/.
-/

namespace Sys2Proof.Machine

/-- An outcome that is a next state. -/
def goesOn : Host.Outcome State Fault Refusal → Bool
  | .next _ => true
  | _ => false

/-- A run of k steps ends in a state: no fault, no refusal. Ordinary traps, faults of translation and stopped contexts
are next states. -/
def SafeRun (k : Nat) (s : State) : Prop := goesOn (Sys2Proof.core.run k s) = true

/-! Instructions that compute a value per position -/

/-- An issue as each position finds it: with the register values that stand at the ck of its pass (R112). -/
abbrev Times := Nat → Iss

/-- What a claim says of a value instruction: control field, operand needs, destination, words of the result,
latencies of its range and lane results (R49, R112), the result's word j at a position, whether an acting record's
result has class U (R90, R124: the record as it stood when the issue began and as it stands at its pass), what the
instruction leaves in SR (R174), and whether it reads at the last pass (R152). -/
structure ValueForm where
  k : Ctl
  ns : List Need
  d : Opnd
  words : Nat
  lr : Nat
  ll : Nat
  val : Iss → Times → Nat → Nat → Word
  uni : Iss → Times → Rec → Rec → Bool
  sr : Iss → Times → Word := fun i _ => i.g.sr
  coll : Bool := false

/-- The issue as each position finds it, where the records of a group spend the passes. -/
def ValueForm.times (F : ValueForm) (i : Iss) (gc : Group) : Times := i.timed F.coll (readRegs F.ns) gc

/-- The destination is no s register, or every acting record has a U result, whichever records of the run expand
before they issue (R90). -/
def ValueForm.sOk (F : ValueForm) (i : Iss) : Prop :=
  (∀ n, F.d ≠ .s n) ∨ ∀ sel : Rec → Bool, (∀ r, sel r = true → i.inRun r = true) →
    ∀ r ∈ i.run, i.onIn r ≠ [] → ∃ x, (F.times i (i.g.expand sel) r.b).recNow r = some x ∧
      F.uni i (F.times i (i.g.expand sel)) r x = true

/-- A register write that the instruction may make: right register, guarded position, right value. -/
def ValueForm.writeOk (F : ValueForm) (i : Iss) (t : Times) : RegWrite → Prop
  | .v r vs _ => ∃ n j, F.d = .v n ∧ j < F.words ∧ r = n.val + j ∧ F.k.nwb = false ∧
      ∀ p ∈ vs, p.1 ∈ i.onByAge ∧ p.2 = F.val i t p.1 j
  | .s r w => ∃ n j, F.d = .s n ∧ j < F.words ∧ r = n.val + j ∧ F.k.nwb = false ∧ ∃ p ∈ i.onByAge, w = F.val i t p j
  | .hl l vs _ => ∃ j, (heldLatches F.k.hold.toNat F.words)[j]? = some l ∧ ∀ p ∈ vs, p.1 ∈ i.onByAge ∧ p.2 = F.val i t p.1 j
  | _ => False

/-- The results of a value instruction: only writes that it may make, each with the values that stand at the pass of its
position (R112); every guarded position is written, in the destination unless NWB is set (R11) and in the latch that HOLD
names (R52; a 64-bit result held in hl0 fills the pair, log entry 79); the group keeps its records but for range records of the run that expand (R121), some of them before the
passes are spent, and its registers but for SR (R174); the results count range and lane records as they then stand
(R49). -/
structure ValueForm.Delivers (F : ValueForm) (i : Iss) (v : Values) : Prop where
  only : ∀ w ∈ v.range ++ v.lane, F.writeOk i (F.times i v.gc) w
  vreg : ∀ n, F.d = .v n → F.k.nwb = false → ∀ p ∈ i.onByAge, ∀ j < F.words,
    ∃ vs f, RegWrite.v (n.val + j) vs f ∈ v.range ++ v.lane ∧ (p, F.val i (F.times i v.gc) p j) ∈ vs
  sreg : ∀ n, F.d = .s n → F.k.nwb = false → i.onByAge ≠ [] → ∀ j < F.words,
    ∃ w, RegWrite.s (n.val + j) w ∈ v.range ++ v.lane
  latch : ∀ j l, (heldLatches F.k.hold.toNat F.words)[j]? = some l → ∀ p ∈ i.onByAge,
    ∃ vs f, RegWrite.hl l vs f ∈ v.range ++ v.lane ∧ (p, F.val i (F.times i v.gc) p j) ∈ vs
  passes : ∃ sel : Rec → Bool, (∀ r, sel r = true → i.inRun r = true) ∧ v.gc = i.g.expand sel
  group : ∃ sel : Rec → Bool, (∀ r, sel r = true → i.inRun r = true) ∧
    v.g = { i.g.expand sel with sr := F.sr i (F.times i v.gc) }
  counts : v.nRange = (i.ranges v.g).length ∧ v.nLane = (i.lanes v.g).length

/-- An instruction computes its value: where its operands pass checks 6 and 7 and its s destination, if it has one,
gets a U result, it issues, with these results at these latencies. -/
def ValueForm.Completes (F : ValueForm) (x : Instr) : Prop :=
  ∀ s i, s.iss F.k = some i → i.check F.ns = .ok () → F.sOk i →
    ∃ v, F.Delivers i v ∧ exec x s = .next (s.finishValues i F.ns F.lr F.ll v)

/-- A result at a position by what its own pass finds. -/
def own (f : Iss → Nat → Nat → Word) (_ : Iss) (t : Times) (p j : Nat) : Word := f (t p) p j
/-- A class of a result by what its record finds at its pass. -/
def ownCls (f : Iss → Rec → Bool) (_ : Iss) (t : Times) (r x : Rec) : Bool := f (t r.b) x
/-- A result that is U whatever it is. -/
def allUni (_ : Iss) (_ : Times) (_ _ : Rec) : Bool := true

/-- The values of integer sources of one width: 32-bit words, or 64-bit pairs of which word j is asked. -/
def intVal (ty : Ty) (f : (w : Nat) → List (BitVec w) → BitVec w) (xs : List Src) (i : Iss) (p j : Nat) : Word :=
  if ty.wide then word (f 64 (xs.map fun x => i.g.src true x p)) j
  else f 32 (xs.map fun x => (i.g.src false x p).setWidth 32)

/-- An integer instruction of some sources of one type (R119, R122). -/
def intForm (k : Ctl) (ty : Ty) (d : Opnd) (xs : List Src) (f : (w : Nat) → List (BitVec w) → BitVec w) : ValueForm :=
  { k := k, ns := dstT ty d :: xs.flatMap (srcNeed ty), d := d, words := tyWords ty, lr := 1, ll := 2,
    val := own (intVal ty f xs), uni := ownCls fun i r => i.allU ty.wide xs r }

/-- Functions of one, two and three sources of a width. -/
def of1 (f : (w : Nat) → BitVec w → BitVec w) (w : Nat) : List (BitVec w) → BitVec w
  | [a] => f w a
  | _ => 0#w
def of2 (f : (w : Nat) → BitVec w → BitVec w → BitVec w) (w : Nat) : List (BitVec w) → BitVec w
  | [a, b] => f w a b
  | _ => 0#w
def of3 (f : (w : Nat) → BitVec w → BitVec w → BitVec w → BitVec w) (w : Nat) : List (BitVec w) → BitVec w
  | [a, b, c] => f w a b c
  | _ => 0#w

/-- The two-source operations of R131 and R132 on w-bit words; `sg` says whether the type is signed. -/
def opMulhi (sg : Bool) (w : Nat) (a b : BitVec w) : BitVec w :=
  if sg then (a.signExtend (2 * w) * b.signExtend (2 * w)).extractLsb' w w
  else (a.zeroExtend (2 * w) * b.zeroExtend (2 * w)).extractLsb' w w
def opDiv (sg : Bool) (w : Nat) (a b : BitVec w) : BitVec w :=
  if b = 0#w then BitVec.allOnes w else if sg then a.sdiv b else a / b
def opRem (sg : Bool) (w : Nat) (a b : BitVec w) : BitVec w :=
  if b = 0#w then a else if sg then a.srem b else a % b
def opMin (sg : Bool) (w : Nat) (a b : BitVec w) : BitVec w :=
  if (if sg then a.sle b else a.ule b) then a else b
def opMax (sg : Bool) (w : Nat) (a b : BitVec w) : BitVec w :=
  if (if sg then a.sle b else a.ule b) then b else a
def opShl (w : Nat) (a b : BitVec w) : BitVec w := a <<< (b.toNat % w)
def opShr (w : Nat) (a b : BitVec w) : BitVec w := a >>> (b.toNat % w)
def opSar (w : Nat) (a b : BitVec w) : BitVec w := a.sshiftRight (b.toNat % w)
def opAbs (sg : Bool) (w : Nat) (a : BitVec w) : BitVec w := if sg && a.msb then -a else a
/-- The field of `bfx` and `bfi` at a position: as wide as LEN, cut at the top of the word, empty outside (R132). -/
def opBfx (sg : Bool) (pos len w : Nat) (a : BitVec w) : BitVec w :=
  if w ≤ pos then 0#w
  else if sg then (a.extractLsb' pos (Nat.min len (w - pos))).signExtend w
  else (a.extractLsb' pos (Nat.min len (w - pos))).zeroExtend w
def opBfi (pos len w : Nat) (a b : BitVec w) : BitVec w :=
  BitVec.ofFnLE fun (j : Fin w) => if pos ≤ j.val ∧ j.val < pos + len then b.getLsbD (j.val - pos) else a.getLsbD j.val

/-- The integer instructions of two sources (R131, R132): the I form's second source is the immediate (R35). -/
def intTwo : Instr → Option ValueForm
  | .add k ty d a b => some (intForm k ty d [.op a, .op b] (of2 fun _ x y => x + y))
  | .addI k ty d a m => some (intForm k ty d [.op a, immSrc ty m] (of2 fun _ x y => x + y))
  | .sub k ty d a b => some (intForm k ty d [.op a, .op b] (of2 fun _ x y => x - y))
  | .subI k ty d a m => some (intForm k ty d [.op a, immSrc ty m] (of2 fun _ x y => x - y))
  | .mul k ty d a b => some (intForm k ty d [.op a, .op b] (of2 fun _ x y => x * y))
  | .mulI k ty d a m => some (intForm k ty d [.op a, immSrc ty m] (of2 fun _ x y => x * y))
  | .mulhi k ty d a b => some (intForm k ty d [.op a, .op b] (of2 (opMulhi (tySigned ty))))
  | .mulhiI k ty d a m => some (intForm k ty d [.op a, immSrc ty m] (of2 (opMulhi (tySigned ty))))
  | .div k ty d a b => some (intForm k ty d [.op a, .op b] (of2 (opDiv (tySigned ty))))
  | .divI k ty d a m => some (intForm k ty d [.op a, immSrc ty m] (of2 (opDiv (tySigned ty))))
  | .rem k ty d a b => some (intForm k ty d [.op a, .op b] (of2 (opRem (tySigned ty))))
  | .remI k ty d a m => some (intForm k ty d [.op a, immSrc ty m] (of2 (opRem (tySigned ty))))
  | .min k ty d a b => some (intForm k ty d [.op a, .op b] (of2 (opMin (tySigned ty))))
  | .minI k ty d a m => some (intForm k ty d [.op a, immSrc ty m] (of2 (opMin (tySigned ty))))
  | .max k ty d a b => some (intForm k ty d [.op a, .op b] (of2 (opMax (tySigned ty))))
  | .maxI k ty d a m => some (intForm k ty d [.op a, immSrc ty m] (of2 (opMax (tySigned ty))))
  | .shl k ty d a b => some (intForm k ty d [.op a, .op b] (of2 opShl))
  | .shlI k ty d a m => some (intForm k ty d [.op a, immSrc ty m] (of2 opShl))
  | .shr k ty d a b => some (intForm k ty d [.op a, .op b] (of2 opShr))
  | .shrI k ty d a m => some (intForm k ty d [.op a, immSrc ty m] (of2 opShr))
  | .sar k ty d a b => some (intForm k ty d [.op a, .op b] (of2 opSar))
  | .sarI k ty d a m => some (intForm k ty d [.op a, immSrc ty m] (of2 opSar))
  | .andb k ty d a b => some (intForm k ty d [.op a, .op b] (of2 fun _ x y => x &&& y))
  | .andbI k ty d a m => some (intForm k ty d [.op a, immSrc ty m] (of2 fun _ x y => x &&& y))
  | .orb k ty d a b => some (intForm k ty d [.op a, .op b] (of2 fun _ x y => x ||| y))
  | .orbI k ty d a m => some (intForm k ty d [.op a, immSrc ty m] (of2 fun _ x y => x ||| y))
  | .xorb k ty d a b => some (intForm k ty d [.op a, .op b] (of2 fun _ x y => x ^^^ y))
  | .xorbI k ty d a m => some (intForm k ty d [.op a, immSrc ty m] (of2 fun _ x y => x ^^^ y))
  | .andn k ty d a b => some (intForm k ty d [.op a, .op b] (of2 fun _ x y => x &&& ~~~y))
  | .andnI k ty d a m => some (intForm k ty d [.op a, immSrc ty m] (of2 fun _ x y => x &&& ~~~y))
  | .bfi k ty d a b pos len => some (intForm k ty d [.op a, .op b] (of2 (opBfi pos.toNat len.toNat)))
  | _ => none

/-- A count of a source: a 32-bit result on either width (R130). -/
def countForm (k : Ctl) (ty : Ty) (d a : Opnd) (f : (w : Nat) → BitVec w → BitVec w) : ValueForm :=
  { k := k, ns := [dstVS d, srcT ty a], d := d, words := 1, lr := 1, ll := 2,
    val := own fun i p _ =>
      if ty.wide then (f 64 (i.g.src true (.op a) p)).setWidth 32 else f 32 ((i.g.src false (.op a) p).setWidth 32),
    uni := ownCls fun i r => i.allU ty.wide [.op a] r }

/-- A predicate source at a position; p7 reads true (R41), 0xFF false (R40). -/
def predAt (o : Opnd) (i : Iss) (p : Nat) : Bool :=
  match o with
  | .p n => n.val == 7 || (spGet 0#64 i.g.p n.val).getLsbD p
  | _ => false

/-- The other integer instructions (R128 to R135). -/
def intOther : Instr → Option ValueForm
  | .neg k ty d a => some (intForm k ty d [.op a] (of1 fun _ x => -x))
  | .abs k ty d a => some (intForm k ty d [.op a] (of1 (opAbs (tySigned ty))))
  | .notb k ty d a => some (intForm k ty d [.op a] (of1 fun _ x => ~~~x))
  | .brev k ty d a => some (intForm k ty d [.op a] (of1 fun _ x => x.reverse))
  | .mov k ty d a => some (intForm k ty d [.op a] (of1 fun _ x => x))
  | .clz k ty d a => some (countForm k ty d a fun _ x => x.clz)
  | .popc k ty d a => some (countForm k ty d a fun _ x => x.cpop)
  | .mad k ty d a b c => some (intForm k ty d [.op a, .op b, .op c] (of3 fun _ x y z => x * y + z))
  | .bfx k ty d a pos len => some (intForm k ty d [.op a] (of1 (opBfx (tySigned ty) pos.toNat len.toNat)))
  | .movi k ty d m => some (intForm k ty d [immSrc ty m] (of1 fun _ x => x))
  | .sel k ty d a b c =>
    let pick (i : Iss) (p : Nat) : Src := if predAt c i p then .op a else .op b
    some { k := k, ns := [dstT ty d, srcT ty a, srcT ty b, predS c], d := d, words := tyWords ty, lr := 1, ll := 2,
           val := own fun i p j => intVal ty (of1 fun _ x => x) [pick i p] i p j,
           uni := ownCls fun i r => (r.positions.all fun p => predAt c i p == predAt c i r.b) &&
             i.worst ty.wide [.op a, .op b] r != .d && i.allU ty.wide [pick i r.b] r }
  | .addpc k d disp =>
    some { k := k, ns := [dstVS d 2], d := d, words := 2, lr := 1, ll := 2,
           val := own fun i _ j =>
             let x := i.pc + disp.signExtend 64 * 4096#64
             word (if i.ctx.bounded then (i.pc &&& 0xFF00000000000000#64) ||| (x &&& 0x00FFFFFFFFFFFFFF#64) else x) j,
           uni := allUni }
  | _ => none

/-! Form, launch and collective values -/

/-- A result that a range record keeps as U where it is the same at all its positions, and a lane record never. -/
def sameIn (words : Nat) (val : Iss → Times → Nat → Nat → Word) (i : Iss) (t : Times) (r _x : Rec) : Bool :=
  !r.lane && r.positions.all fun p => (List.range words).all fun j => val i t p j == val i t r.b j

/-- The index of R137: the team index i = g·W + k, and the coordinates it has on the grid. -/
def idxSpec (i : Iss) (dim p : Nat) : Nat :=
  let t := i.task
  let n := i.g.g * i.g.width + p
  match dim with
  | 0 => i.t.t % t.gx * t.tx + n % t.tx
  | 1 => i.t.t / t.gx % t.gy * t.ty + n / t.tx % t.ty
  | 2 => i.t.t / (t.gx * t.gy) * t.tz + n / (t.tx * t.ty)
  | _ => n

/-- The result of a record at a position; a partial guard expands the record unless it holds the result already, and
the lane record of the position issues in its place (R92, R121). -/
def recordVal (i : Iss) (d : Opnd) (f : Rec → Word) (p : Nat) : Word :=
  match i.g.recAt p with
  | none => 0#32
  | some r =>
    match i.vDst d with
    | some n =>
      if !r.lane && (i.onIn r).length != r.positions.length && r.form n != ⟨.u, f r, 0#32⟩ then f (r.laneOf p) else f r
    | none => f r

/-- A value instruction whose result is U. -/
def uForm (k : Ctl) (ns : List Need) (d : Opnd) (words lr ll : Nat) (val : Iss → Nat → Nat → Word) : ValueForm :=
  { k := k, ns := ns, d := d, words := words, lr := lr, ll := ll, val := own val, uni := allUni }

/-- The form and launch instructions (R75, R137 to R139, R142, R244). -/
def formValue : Instr → Option ValueForm
  | .idx k d dim =>
    let val := own fun i p _ => w32 (idxSpec i dim.toNat p)
    some { k := k, ns := [dstVS d], d := d, words := 1, lr := 1, ll := 2, val := val,
           uni := fun i t r x => (idxForm i.task i.t.t i.g.g i.g.width dim.toNat).isEmpty && sameIn 1 val i t r x }
  | .rngget k d item =>
    some (uForm k [dstVS d] d 1 1 2 fun i p _ => recordVal i d (fun r =>
      if item = 0#2 then w32 r.b else if item = 1#2 then w32 r.s else if item = 2#2 then w32 r.n
      else w32 (r.b + r.s * 256 + r.n * 65536 + (if r.lane then 2 ^ 24 else 0))) p)
  | .formget k d a item => some (uForm k [dstVS d, src1 a] d 1 1 2 fun i p _ => recordVal i d (fun r => formItem i.g r a item.toNat) p)
  | .tinfo k d item => some (uForm k [dstVS d] d 1 1 1 fun i _ _ => tinfoItem i item.toNat)
  | .qstat k d a =>
    some (uForm k [⟨d, [.s, .zr], 1, 0⟩, ⟨a, [.dq], 1, 0⟩] d 1 1 1 fun i _ _ => ((i.queue (opNum a)).map Queue.status).getD 0#32)
  | .pmov k d a =>
    if isPred d then none
    else
      let val := own fun i p _ => if predAt a i p then 1#32 else 0#32
      some { k := k, ns := [dstVS d, predS a], d := d, words := 1, lr := 1, ll := 2, val := val, uni := sameIn 1 val }
  | _ => none

/-- The participants of a collective: the positions of the run whose guard is true (R152). -/
def Iss.isPart (i : Iss) (p : Nat) : Bool := i.on.contains p

/-- The source of `shfl` (R153): the value at the position that the mode selects, or the own value where that lies
outside the group or takes no part. -/
def shflSpec (ty : Ty) (a b : Opnd) (mode : BitVec 2) (i : Iss) (p j : Nat) : Word :=
  let g := i.g
  let u := (g.word b p).toNat
  let q : Int :=
    if mode = 0#2 then (u % i.g.width : Nat) else if mode = 1#2 then (p : Int) - u else if mode = 2#2 then p + u
    else (p ^^^ u : Nat)
  word (g.src ty.wide (.op a) (if 0 ≤ q ∧ q < i.g.width ∧ i.isPart q.toNat then q.toNat else p)) j

/-- One combination of R156 on 32-bit words. -/
def combine (op : RedOp) (sg : Bool) (x y : Word) : Word :=
  match op with
  | .add => x + y
  | .min => opMin sg 32 x y
  | .max => opMax sg 32 x y
  | .and => x &&& y
  | .or => x ||| y
  | .xor => x ^^^ y

/-- The identity of R157. -/
def neutral (op : RedOp) (sg : Bool) : Word :=
  match op with
  | .add | .or | .xor => 0#32
  | .and => 0xFFFFFFFF#32
  | .min => if sg then 0x7FFFFFFF#32 else 0xFFFFFFFF#32
  | .max => if sg then 0x80000000#32 else 0#32

/-- The combination of a source over some positions. -/
def combineAll (op : RedOp) (sg : Bool) (g : Group) (a : Opnd) (ps : List Nat) : Word :=
  ps.foldl (fun x p => combine op sg x (g.word a p)) (neutral op sg)

/-- A U result of all participants; every record reads a source of one word (R156). -/
def collForm (k : Ctl) (ns : List Need) (d : Opnd) (words : Nat) (reads : List Src) (val : Iss → Nat → Nat → Word) :
    ValueForm :=
  { k := k, ns := ns, d := d, words := words, lr := 3, ll := 3, val := own val, coll := true,
    uni := ownCls fun i r => i.worst false reads r != .d }

/-- The collectives that write a value (R153, R154, R156, R157). -/
def collective : Instr → Option ValueForm
  | .shfl k ty d a b mode =>
    some { k := k, ns := [dstT ty d, srcT ty a, src1 b], d := d, words := tyWords ty, lr := 3, ll := 3,
           val := own (shflSpec ty a b mode), coll := true,
           uni := fun i t r x => sameIn (tyWords ty) (own (shflSpec ty a b mode)) i t r x &&
             (t r.b).worst ty.wide [.op a] x != .d && (t r.b).worst false [.op b] x != .d }
  | .vote k m d a =>
    match m with
    | .ballot32 => some (collForm k [dstVS d 1, predS a] d 1 [] fun i _ _ =>
        BitVec.ofFnLE fun (b : Fin 32) => i.isPart b.val && predAt a i b.val)
    | .ballot64 => some (collForm k [dstVS d 2, predS a] d 2 [] fun i _ j =>
        BitVec.ofFnLE fun (b : Fin 32) => i.isPart (32 * j + b.val) && predAt a i (32 * j + b.val))
    | _ => none
  | .gred k op ty d a =>
    if ty.wide then none else some (collForm k [dstVS d, src1 a] d 1 [.op a] fun i _ _ => combineAll op (tySigned ty) i.g a i.on)
  | .gscan k op ty excl d a =>
    if ty.wide then none else some {
           k := k, ns := [dstVS d, src1 a], d := d, words := 1, lr := 3, ll := 3,
           val := own fun i p _ =>
             combineAll op (tySigned ty) i.g a (i.on.filter fun (q : Nat) => decide (q < p) || (!excl && q == p)),
           uni := fun _ _ _ _ => false, coll := true }
  | _ => none

/-! Float values (R184 to R200) -/

/-- The state of the generator when a position draws: the guarded positions below it have drawn (R174). -/
def drawnBy (i : Iss) (f : Nat → Word → BitVec 64 × Word) (ps : List Nat) : Word :=
  ps.foldl (fun sr p => (f p sr).2) i.g.sr

/-- A float instruction on sources of given widths (R185): in SR mode the positions draw in ascending order. -/
def floatForm (k : Ctl) (ns : List Need) (d : Opnd) (words lat : Nat) (sr : Bool) (xs : List (Bool × Opnd))
    (f : List (BitVec 64) → Word → BitVec 64 × Word) : ValueForm :=
  let at_ (t : Times) (p : Nat) : Word → BitVec 64 × Word := f (xs.map fun x => (t p).g.src x.1 (.op x.2) p)
  { k := k, ns := ns, d := d, words := words, lr := lat, ll := lat,
    val := fun i t p j =>
      word (at_ t p (if sr then drawnBy i (at_ t) (i.on.filter fun q => decide (q < p)) else i.g.sr)).1 j,
    uni := ownCls fun i r => !sr && i.worstF xs r == .u,
    sr := fun i t => if sr then drawnBy i (at_ t) i.on else i.g.sr }

/-- A float instruction on 32-bit sources (R184). -/
def floatForm1 (k : Ctl) (d : Opnd) (lat : Nat) (sr : Bool) (xs : List Opnd)
    (f : List (BitVec 64) → Word → BitVec 64 × Word) : ValueForm :=
  floatForm k (dstVS d :: xs.map src1) d 1 lat sr (xs.map fun o => (false, o)) f

/-- The exact result of `farith` (R190) before its one rounding; `rd` says that the mode rounds down. -/
inductive FArith where
  | add | sub | mul | fma
  deriving DecidableEq, Repr

def exactOf (op : FArith) (rd : Bool) (xs : List FVal) : FVal :=
  match op, xs with
  | .add, [a, b] => a.add rd b
  | .sub, [a, b] => a.add rd b.neg
  | .mul, [a, b] => a.mul b
  | .fma, [a, b, c] => (a.mul b).add rd c
  | _, _ => .nan

/-- `farith` on the low bits of its sources, rounded once (R168, R190). -/
def farith (op : FArith) (ty : Ty) (rm : Rm) (sat : Bool) (xs : List (BitVec 64)) (sr : Word) : BitVec 64 × Word :=
  let r := roundTo (fmtOf ty) rm sat sr (exactOf op (rm == .rd) (xs.map fun x => tyVal ty x.toNat))
  (BitVec.ofNat 64 r.1, r.2)

/-- `farith` on two 16-bit elements, element 0 first (R190). -/
def farith2 (op : FArith) (ty : Ty) (rm : Rm) (sat : Bool) (xs : List (BitVec 64)) (sr : Word) : BitVec 64 × Word :=
  let lo := farith op ty rm sat (xs.map fun (x : BitVec 64) => x &&& 0xFFFF#64) sr
  let hi := farith op ty rm sat (xs.map fun (x : BitVec 64) => (x >>> 16) &&& 0xFFFF#64) lo.2
  ((hi.1 <<< 16) ||| lo.1, hi.2)

/-- The float arithmetic instructions (R189, R190). -/
def floatArith : Instr → Option ValueForm
  | .fadd k ty rm sat d a b => some (floatForm1 k d 4 (rm == .sr) [a, b] (farith .add ty rm sat))
  | .fsub k ty rm sat d a b => some (floatForm1 k d 4 (rm == .sr) [a, b] (farith .sub ty rm sat))
  | .fmul k ty rm sat d a b => some (floatForm1 k d 4 (rm == .sr) [a, b] (farith .mul ty rm sat))
  | .ffma k ty rm sat d a b c => some (floatForm1 k d 4 (rm == .sr) [a, b, c] (farith .fma ty rm sat))
  | .hadd2 k ty rm sat d a b => some (floatForm1 k d 4 (rm == .sr) [a, b] (farith2 .add ty rm sat))
  | .hmul2 k ty rm sat d a b => some (floatForm1 k d 4 (rm == .sr) [a, b] (farith2 .mul ty rm sat))
  | .hfma2 k ty rm sat d a b c => some (floatForm1 k d 4 (rm == .sr) [a, b, c] (farith2 .fma ty rm sat))
  | _ => none

/-- A float function that takes no draw. -/
def noDraw (f : List (BitVec 64) → BitVec 64) (xs : List (BitVec 64)) (sr : Word) : BitVec 64 × Word := (f xs, sr)

/-- `fmin` and `fmax` (R191): one source bit for bit; one that is NaN gives way, two give the canonical NaN, and -0
counts as less than +0. -/
def minMaxSpec (ty : Ty) (mx : Bool) : List (BitVec 64) → BitVec 64
  | [a, b] =>
    let x := tyVal ty a.toNat
    let y := tyVal ty b.toNat
    let aLess := x.lt y || (!y.lt x && x.sign && !y.sign)
    BitVec.ofNat 64 (if x.isNan && y.isNan then nanOf (fmtOf ty) else if x.isNan then fbits ty b else if y.isNan then fbits ty a
      else if aLess != mx then fbits ty a else fbits ty b)
  | _ => 0#64

/-- A conversion (R171, R195): the same type keeps its bits but for a NaN; an exact one takes no mode and no draw. -/
def fcvtSpec (dt st : Ty) (rm : Rm) (sat : Bool) (xs : List (BitVec 64)) (sr : Word) : BitVec 64 × Word :=
  match xs with
  | [a] =>
    let v := tyVal st a.toNat
    let exact := exactConv dt st
    let r := roundTo (fmtOf dt) (if exact then .rne else rm) sat sr v
    if dt = st ∧ v.isNan = false then (BitVec.ofNat 64 (fbits dt a), sr)
    else (BitVec.ofNat 64 r.1, if dt = st ∨ exact then sr else r.2)
  | _ => (0#64, sr)

/-- The integers of a type, as the values that a float is clamped to (R158, R196). -/
def clampInt (ty : Ty) (x : Int) : Int :=
  let w := if ty = .i8 then 8 else tyBits ty
  let lo : Int := if tySigned ty then -2 ^ (w - 1) else 0
  let hi : Int := if tySigned ty then 2 ^ (w - 1) - 1 else 2 ^ w - 1
  if x < lo then lo else if hi < x then hi else x

/-- Float to integer (R196): rounded, then clamped; a NaN gives 0, an infinity the end of its side. -/
def f2iSpec (it ft : Ty) (rm : Rm) (xs : List (BitVec 64)) (sr : Word) : BitVec 64 × Word :=
  let bits (x : Int) : BitVec 64 := BitVec.ofNat 64 ((clampInt it x) % (2 ^ (if it = .i8 then 8 else tyBits it) : Int)).toNat
  match xs with
  | [a] =>
    match tyVal ft a.toNat with
    | .nan => (0#64, sr)
    | .inf true => (bits (-2 ^ 64), sr)
    | .inf false => (bits (2 ^ 64), sr)
    | .fin s n d => (bits (sgn s (roundInt rm sr s n d).1), (roundInt rm sr s n d).2)
  | _ => (0#64, sr)

/-- Integer to float (R197). -/
def i2fSpec (ft it : Ty) (rm : Rm) (sat : Bool) (xs : List (BitVec 64)) (sr : Word) : BitVec 64 × Word :=
  match xs with
  | [a] =>
    let x : Int := match it with
      | .i32 => (a.setWidth 32).toInt
      | .i64 => a.toInt
      | .i8 => (a.setWidth 8).toInt
      | .n64 | .b64 => a.toNat
      | _ => (a.setWidth 32).toNat
    let r := roundTo (fmtOf ft) rm sat sr (.ofInt x)
    (BitVec.ofNat 64 r.1, r.2)
  | _ => (0#64, sr)

/-- Rounding to an integral value in the format (R198): integral values, infinities and zeros are unchanged. -/
def frndSpec (ty : Ty) (rm : Rm) (xs : List (BitVec 64)) (sr : Word) : BitVec 64 × Word :=
  match xs with
  | [a] =>
    match tyVal ty a.toNat with
    | .nan => (BitVec.ofNat 64 (nanOf (fmtOf ty)), sr)
    | .inf _ => (BitVec.ofNat 64 (fbits ty a), sr)
    | .fin s n d =>
      let r := roundInt rm sr s n d
      if n % d = 0 then (BitVec.ofNat 64 (fbits ty a), sr)
      else (BitVec.ofNat 64 (roundTo (fmtOf ty) .rz false 0#32 (.fin s r.1 1)).1, r.2)
  | _ => (0#64, sr)

/-- The classes of R199, by the fields of the encoding. -/
def fclassSpec (ty : Ty) : List (BitVec 64) → BitVec 64
  | [a] =>
    let f := fmtOf ty
    let x := fbits ty a
    let neg := x / 2 ^ (f.m + f.e) % 2 = 1
    let ex := x / 2 ^ f.m % 2 ^ f.e
    let mn := x % 2 ^ f.m
    let v := decodeF f x
    if v = .nan then (if f.sp = .e4m3 ∨ 2 ^ (f.m - 1) ≤ mn then 0x200#64 else 0x100#64)
    else if v = .inf true then 0x001#64
    else if v = .inf false then 0x080#64
    else if ex ≠ 0 then (if neg then 0x002#64 else 0x040#64)
    else if mn ≠ 0 then (if neg then 0x004#64 else 0x020#64)
    else if neg then 0x008#64 else 0x010#64
  | _ => 0#64

/-- Six-bit planes (R200): element j has its high four bits in nibble j of the low word and its low two bits in pair j
of the high word. -/
def plsplitSpec : List (BitVec 64) → BitVec 64
  | [x] => BitVec.ofFnLE fun (b : Fin 64) =>
      if b.val < 32 then x.getLsbD (8 * (b.val / 4) + 2 + b.val % 4)
      else if b.val < 48 then x.getLsbD (8 * ((b.val - 32) / 2) + (b.val - 32) % 2) else false
  | _ => 0#64
def pljoinSpec : List (BitVec 64) → BitVec 64
  | [h, l] => BitVec.ofFnLE fun (b : Fin 64) =>
      if 6 ≤ b.val % 8 then false
      else if b.val % 8 < 2 then l.getLsbD (2 * (b.val / 8) + b.val % 8) else h.getLsbD (4 * (b.val / 8) + b.val % 8 - 2)
  | _ => 0#64

/-- The other float instructions (R191, R195 to R200). -/
def floatOther : Instr → Option ValueForm
  | .fmin k ty d a b => some (floatForm1 k d 4 false [a, b] (noDraw (minMaxSpec ty false)))
  | .fmax k ty d a b => some (floatForm1 k d 4 false [a, b] (noDraw (minMaxSpec ty true)))
  | .fcvt k dt st rm sat d a => some (floatForm1 k d 4 (rm == .sr) [a] (fcvtSpec dt st rm sat))
  | .f2i k it ft rm d a =>
    some (floatForm k [dstT it d, src1 a] d (tyWords it) 4 (rm == .sr) [(false, a)] (f2iSpec it ft rm))
  | .i2f k ft it rm sat d a =>
    some (floatForm k [dstVS d, srcT it a] d 1 4 (rm == .sr) [(it.wide, a)] (i2fSpec ft it rm sat))
  | .frnd k ty rm d a => some (floatForm1 k d 4 (rm == .sr) [a] (frndSpec ty rm))
  | .fclass k ty d a => some (floatForm1 k d 4 false [a] (noDraw (fclassSpec ty)))
  | .plsplit k _ d a => some (floatForm k [dstVS d 2, src2 a] d 2 4 false [(true, a)] (noDraw plsplitSpec))
  | .pljoin k _ d a b =>
    some (floatForm k [dstVS d 2, src1 a, src1 b] d 2 4 false [(false, a), (false, b)] (noDraw pljoinSpec))
  | _ => none

/-- The transcendental instructions (R193): functions of one f32 word, latency 12. -/
def transc : Instr → Option ValueForm
  | .frcp k d a => some (floatForm1 k d 12 false [a] (noDraw fun xs => ((frcpWord ((xs.headD 0#64).setWidth 32)).setWidth 64)))
  | .frsq k d a => some (floatForm1 k d 12 false [a] (noDraw fun xs => ((frsqWord ((xs.headD 0#64).setWidth 32)).setWidth 64)))
  | .fsqrt k d a => some (floatForm1 k d 12 false [a] (noDraw fun xs => ((fsqrtWord ((xs.headD 0#64).setWidth 32)).setWidth 64)))
  | .fexp2 k d a => some (floatForm1 k d 12 false [a] (noDraw fun xs => ((fexp2Word ((xs.headD 0#64).setWidth 32)).setWidth 64)))
  | .flog2 k d a => some (floatForm1 k d 12 false [a] (noDraw fun xs => ((flog2Word ((xs.headD 0#64).setWidth 32)).setWidth 64)))
  | .fsin k d a => some (floatForm1 k d 12 false [a] (noDraw fun xs => ((fsinWord ((xs.headD 0#64).setWidth 32)).setWidth 64)))
  | .fcos k d a => some (floatForm1 k d 12 false [a] (noDraw fun xs => ((fcosWord ((xs.headD 0#64).setWidth 32)).setWidth 64)))
  | _ => none

/-- Every instruction that computes a value per position. -/
def valueForm (x : Instr) : Option ValueForm :=
  (intTwo x).or ((intOther x).or ((formValue x).or ((collective x).or ((floatArith x).or ((floatOther x).or (transc x))))))

/-! Instructions that compute a predicate (R89, R133, R142, R154, R155, R192) -/

/-- What a claim says of a predicate instruction. -/
structure PredForm where
  k : Ctl
  ns : List Need
  d : Opnd
  lr : Nat
  ll : Nat
  bit : Iss → Nat → Bool
  coll : Bool := false

/-- The issue as each position finds it at its pass, or for a collective at the last (R112, R152). -/
def PredForm.times (F : PredForm) (i : Iss) : Times := i.timed F.coll (readRegs F.ns) i.g

/-- Predicate writes: right register, guarded positions only, right bits; every guarded position is written unless NWB
is set. -/
def PredForm.writesOk (F : PredForm) (i : Iss) (ws : List RegWrite) : Prop :=
  (∀ w ∈ ws, ∃ m b, w = .p (predNum F.d) m b ∧ F.k.nwb = false ∧
    ∀ p, m.getLsbD p = true → p ∈ i.onByAge ∧ b.getLsbD p = F.bit (F.times i p) p) ∧
  (F.k.nwb = false → ∀ p ∈ i.onByAge, p < 64 → ∃ m b, RegWrite.p (predNum F.d) m b ∈ ws ∧ m.getLsbD p = true)

/-- A predicate instruction issues where checks 6 and 7 pass; no record expands (R89). -/
def PredForm.Completes (F : PredForm) (x : Instr) : Prop :=
  ∀ s i, s.iss F.k = some i → i.check F.ns = .ok () → ∃ wr wl, F.writesOk i (wr ++ wl) ∧
    exec x s = .next (s.finish i i.g i.g (readRegs F.ns) 0 0
      [⟨F.lr, (i.ranges i.g).length, wr⟩, ⟨F.ll, (i.lanes i.g).length, wl⟩] i.advance)

/-- `cmp` on w-bit words (R133). -/
def cmpSpec (cc : Cc) (sg : Bool) (w : Nat) (a b : BitVec w) : Bool :=
  match cc with
  | .eq => a == b
  | .ne => a != b
  | .lt => if sg then a.slt b else a.ult b
  | .ge => !(if sg then a.slt b else a.ult b)

/-- `cmp` of two sources of a type at a position. -/
def cmpAt (cc : Cc) (ty : Ty) (x y : Src) (i : Iss) (p : Nat) : Bool :=
  if ty.wide then cmpSpec cc (tySigned ty) 64 (i.g.src true x p) (i.g.src true y p)
  else cmpSpec cc (tySigned ty) 32 ((i.g.src false x p).setWidth 32) ((i.g.src false y p).setWidth 32)

/-- `fcmp` (R192): a NaN operand makes `un` and `ne` true and every other condition false; zeros are equal. -/
def fcmpSpec (cc : Fcc) (a b : FVal) : Bool :=
  if a.isNan || b.isNan then cc == .un || cc == .ne
  else
    match cc with
    | .eq => !a.lt b && !b.lt a
    | .lt => a.lt b
    | .le => !b.lt a
    | .un => false
    | .ne => a.lt b || b.lt a
    | .ge => !a.lt b
    | .gt => b.lt a

/-- The predicate instructions. -/
def predForm : Instr → Option PredForm
  | .cmp k cc ty d a b => some ⟨k, [predN d, srcT ty a, srcT ty b], d, 1, 2, cmpAt cc ty (.op a) (.op b), false⟩
  | .cmpI k cc ty d a m => some ⟨k, [predN d, srcT ty a], d, 1, 2, cmpAt cc ty (.op a) (immSrc ty m), false⟩
  | .fcmp k cc ty d a b =>
    some ⟨k, [predN d, src1 a, src1 b], d, 4, 4, fun i p => fcmpSpec cc (tyVal ty (i.g.word a p).toNat) (tyVal ty (i.g.word b p).toNat), false⟩
  | .pand k d a b na nb => some ⟨k, [predN d, predS a, predS b], d, 1, 2, fun i p => (predAt a i p ^^ na) && (predAt b i p ^^ nb), false⟩
  | .por k d a b na nb => some ⟨k, [predN d, predS a, predS b], d, 1, 2, fun i p => (predAt a i p ^^ na) || (predAt b i p ^^ nb), false⟩
  | .pxor k d a b na nb => some ⟨k, [predN d, predS a, predS b], d, 1, 2, fun i p => (predAt a i p ^^ na) ^^ (predAt b i p ^^ nb), false⟩
  | .pnot k d a => some ⟨k, [predN d, predS a], d, 1, 2, fun i p => !predAt a i p, false⟩
  | .pmov k d a =>
    if isPred d then
      if isPred a then some ⟨k, [predN d, predS a], d, 1, 2, predAt a, false⟩
      else some ⟨k, [predN d, src1 a], d, 1, 2, fun i p => i.g.word a p != 0#32, false⟩
    else none
  | .vote k .any d a => some ⟨k, [predN d, predS a], d, 3, 3, fun i _ => i.on.any (predAt a i), true⟩
  | .vote k .all d a => some ⟨k, [predN d, predS a], d, 3, 3, fun i _ => i.on.all (predAt a i), true⟩
  | .elect k d => some ⟨k, [predN d], d, 3, 3, fun i p => i.isPart p && i.on.all fun q => decide (p ≤ q), true⟩
  | _ => none

/-! Control transfers (R96 to R98, R143 to R150) -/

/-- What a claim says of a transfer: where each guarded position goes, the register of its link, what else must hold. -/
structure TransferForm where
  k : Ctl
  ns : List Need
  link : Opnd
  indirect : Bool
  always : Bool
  tgt : Iss → Nat → Option Addr
  pre : Iss → Times → Prop := fun _ _ => True

/-- The issue as each position finds it at its pass (R112). -/
def TransferForm.times (F : TransferForm) (i : Iss) : Times := i.timed false (readRegs F.ns) i.g

/-- The target of a position, with the register values that stand at its pass (R112). -/
def TransferForm.goal (F : TransferForm) (i : Iss) (p : Nat) : Option Addr := F.tgt (F.times i p) p

/-- The checks of a transfer as R46, R47 and R144 state them: every target lies in range on a legal slot, passes the
bound check of an indirect target and is a TARGET; on the last slot of an "end" line nothing goes on to the next. -/
def TransferForm.allowed (F : TransferForm) (s : State) (i : Iss) : Prop :=
  (∀ p ∈ i.onByAge, ∃ a, F.goal i p = some a ∧ targetInRange i.ctx.bounded (some a) = true ∧
    (i.ctx.bounded = true → F.indirect = true → i.ctx.boundOk permX a 12 = true) ∧ s.targetOk i.ci i.ctx a = true) ∧
  (s.atEnd i.ci i.ctx i.pc = true → F.always = false ∧
    ∀ p ∈ i.allByAge, p ∈ i.onByAge ∧ F.goal i p ≠ some (nextPc i.pc))

/-- Where a transfer sends each position: to its target under a true guard, else to the next slot. -/
def TransferForm.dest (F : TransferForm) (i : Iss) (p : Nat) : Option Addr :=
  if i.on.contains p then F.goal i p else some (nextPc i.pc)

/-- Link writes (R147, R148): the PC of the next slot, as a pair, at every position of the run, taken or not. -/
def linkOk (k : Ctl) (d : Opnd) (i : Iss) (ws : List RegWrite) : Prop :=
  (∀ w ∈ ws, k.nwb = false ∧
    ((∃ n j vs f, d = .v n ∧ j < 2 ∧ w = .v (n.val + j) vs f ∧ ∀ q ∈ vs, q.1 ∈ i.allByAge ∧ q.2 = word (nextPc i.pc) j) ∨
     (∃ n j, d = .s n ∧ j < 2 ∧ w = .s (n.val + j) (word (nextPc i.pc) j)))) ∧
  (k.nwb = false → ∀ j < 2,
    (∀ n, d = .v n → ∀ p ∈ i.allByAge, ∃ vs f, RegWrite.v (n.val + j) vs f ∈ ws ∧ (p, word (nextPc i.pc) j) ∈ vs) ∧
    (∀ n, d = .s n → i.run ≠ [] → RegWrite.s (n.val + j) (word (nextPc i.pc) j) ∈ ws))

/-- A transfer that its checks allow issues and moves its run. -/
def TransferForm.Completes (F : TransferForm) (x : Instr) : Prop :=
  ∀ s i, s.iss F.k = some i → i.check F.ns = .ok () → F.pre i (F.times i) → F.allowed s i → ∃ wr wl, linkOk F.k F.link i (wr ++ wl) ∧
    exec x s = .next (s.finish i i.g i.g (readRegs F.ns) 0 0
      [⟨1, (i.ranges i.g).length, wr⟩, ⟨2, (i.lanes i.g).length, wl⟩] (s.moveRun i (F.dest i)))

/-- The transfers that stay in the group: targets by slot displacement (R145, R147), table (R146) or address (R148, R149). -/
def transferForm : Instr → Option TransferForm
  | .bra k disp =>
    some { k := k, ns := [], link := .zr, indirect := false, always := false,
           tgt := fun i _ => slotPc i.pc (slotNum i.pc + disp.toInt) }
  | .brx k a b n =>
    some { k := k, ns := [src1 a, ⟨b, [.s], 1, 0⟩], link := .zr, indirect := true, always := false,
           tgt := fun i p => slotPc i.pc (slotNum i.pc + (spGet 0#32 i.g.s (opNum b + (i.g.word a p).toNat)).toInt),
           pre := fun i t => n ≠ 0#6 ∧ opNum b + n.toNat ≤ 56 ∧ ∀ p ∈ i.onByAge, ((t p).g.word a p).toNat < n.toNat }
  | .call k d disp =>
    some { k := k, ns := [dstVS d 2], link := d, indirect := false, always := true,
           tgt := fun i _ => slotPc i.pc (slotNum i.pc + disp.toInt) }
  | .callx k d a =>
    some { k := k, ns := [dstVS d 2, src2 a], link := d, indirect := true, always := false,
           tgt := fun i p => some (i.g.pair a p) }
  | .ret k a =>
    some { k := k, ns := [src2 a], link := .zr, indirect := false, always := false,
           tgt := fun i p => some (i.g.pair a p) }
  | _ => none


/-- What also holds of a group that is not running: its lane registers and forms are in canonical form, a lane record
is one position, no form is of a register past v63, and a fetch trap is the resident kernel's (R357). -/
def Group.shaped (g : Group) : Bool :=
  sparseWf 0#32 0 g.lanes &&
    (g.trap.map fun (t : TrapState) => (t.word >>> 24).toNat != 0x0F || t.route == .kernel).getD true &&
    g.recs.all fun r => (!r.lane || r.n == 1) && sparseWf Form.dead 0 r.forms && r.forms.all fun e => decide (e.1 < 64)

/-- A group's records as R85 to R87 have them: shaped, no position stands twice, and the c1 of a U form is zero. -/
def Group.sound (g : Group) : Bool :=
  g.shaped && distinct (allPositions g.recs) && g.recs.all fun r => r.forms.all fun e => e.2.cls != .u || e.2.c1 == 0#32

/-- The groups of copies that a later turn restores. -/
def Turn.groups : Turn → List Group
  | .adopt n => n.groups.map fun e => e.2
  | _ => []

/-- The groups of the device, of its checkpoints, and of the copies that the environment has it restore. -/
def State.allGroups (s : State) : List Group :=
  s.groups ++ (s.snaps.flatMap fun x => x.groups.map fun e => e.2) ++ s.agenda.flatMap Turn.groups

/-- Every group is shaped, and the records of every live one are sound (R85 to R88, R107). -/
def State.recordsSound (s : State) : Prop :=
  ∀ g ∈ s.allGroups, g.shaped = true ∧ (g.stat = .live → g.sound = true)

/-! Frames of an issue -/

/-- A store-queue entry without the note of the places that a younger write has overtaken (R113). -/
def StoreEnt.bare : StoreEnt → StoreEnt
  | .atom ord sig cnt op ty els dst hold _ => .atom ord sig cnt op ty els dst hold []
  | e => e

/-- What an issue leaves of the device (R48 to R54): everything but its group, the free time of its core, the latches
of the core's other groups, the counters of its context and the model's own counters. -/
structure IssueFrame (s t : State) (i : Iss) : Prop where
  mem : t.mem = s.mem
  units : t.units = s.units
  creamery : t.creamery = s.creamery
  tasks : t.tasks = s.tasks
  teams : t.teams = s.teams
  pails : t.pails = s.pails
  tlb : t.tlb = s.tlb
  now : t.now = s.now
  agenda : t.agenda = s.agenda
  delays : t.delays = s.delays
  arrays : ∀ c, (t.core c).spad = (s.core c).spad ∧ (t.core c).stack = (s.core c).stack ∧ (t.core c).acc = (s.core c).acc ∧
    (t.core c).handlers = (s.core c).handlers ∧ (t.core c).trace = (s.core c).trace ∧ (t.core c).fwd = (s.core c).fwd
  others : ∀ j, j ≠ i.gi → i.g.serves ≠ some j → ∃ f : Group → Sparse (Option Latch),
    t.groups[j]? = (s.groups[j]?).map fun g => { g with latches := f g }
  contexts : ∃ f g h : Context → BitVec 64, t.contexts =
    s.contexts.mapIdx fun j c => if j = i.ci then { c with bankConflict := f c, pairRefused := g c, shortfall := h c } else c
  rings : t.reqRing = s.reqRing ∧ t.rspRing = s.rspRing ∧ t.outbox = s.outbox ∧ t.hostWins = s.hostWins ∧ t.hostData = s.hostData
  device : t.stepCfg = s.stepCfg ∧ t.calendar = s.calendar ∧ t.islands = s.islands ∧ t.peers = s.peers ∧
    t.devWrites = s.devWrites ∧ t.running = s.running ∧ t.minVersion = s.minVersion ∧ t.keyIndex = s.keyIndex ∧
    t.devTime = s.devTime ∧ t.drives = s.drives ∧ t.booted = s.booted ∧ t.harts = s.harts ∧ t.sram = s.sram
  frames : t.pool = s.pool ∧ t.nextFrame = s.nextFrame ∧ t.freeFrames = s.freeFrames ∧ t.oldFrames = s.oldFrames ∧
    t.turn = s.turn ∧ t.ckpts = s.ckpts ∧ t.snaps = s.snaps
  bindings : t.bindings = s.bindings

/-- v registers that a value instruction writes. -/
def ValueForm.dstV (F : ValueForm) (n : Nat) : Prop := ∃ d j, F.d = .v d ∧ F.k.nwb = false ∧ j < F.words ∧ n = d.val + j
/-- s registers that a value instruction writes. -/
def ValueForm.dstS (F : ValueForm) (n : Nat) : Prop := ∃ d j, F.d = .s d ∧ F.k.nwb = false ∧ j < F.words ∧ n = d.val + j

/-! Accesses (R226 to R236) -/

/-- No watchpoint that the access checks hits it (R369); a handler's accesses are not watched (R359), nor are the
first ones of records that `tret.pass` marks (R366). -/
def State.unwatched (s : State) (i : Iss) (kinds : Addr → List Nat) (size : Nat) (addr : Nat → Addr) : Prop :=
  i.g.serves.isSome = true ∨ ∀ p ∈ i.onByAge, ∀ kd ∈ kinds (addr p),
    ((i.g.recAt p).map Rec.noWatch).getD false = true ∨ i.ctx.watchHit (s.shape i.g i.t) kd (addr p) size = none

/-- Elements serve some positions: each is pending at the address of one of its positions, and every position has one at
its own address. -/
structure ElemsServe (els : List Elem) (ps : List Nat) (addr : Nat → Addr) (len : Nat) : Prop where
  each : ∀ e ∈ els, (∃ p ∈ e.ps, e.va = addr p) ∧ (∀ p ∈ e.ps, p ∈ ps) ∧ e.len = len ∧ e.st = .pending
  all : ∀ p ∈ ps, ∃ e ∈ els, p ∈ e.ps ∧ e.va = addr p

/-- A free operand-log slot, the lowest, and room in the byte count (R218, R228). -/
def Iss.slotFree (i : Iss) (cq bytes num : Nat) : Prop :=
  num < 8 ∧ (∀ l ∈ i.g.oplog, l.num ≠ num) ∧ (∀ m < num, ∃ l ∈ i.g.oplog, l.num = m) ∧
    (spGet 0#32 i.g.bc cq).toNat + bytes ≤ 0x7FFFFFFF

/-- The registers of an address pair, and the issue as each position finds it where every unit of the run takes a round
for each word of a bank (R112, R206). -/
def Iss.memSched (i : Iss) (regs : List Nat) (a : Opnd) (off : BitVec 12) (size : Nat) : List (List Rec × Nat) :=
  i.sched i.g regs (i.rounds (memWords a off size))
def Iss.memTimes (i : Iss) (regs : List Nat) (a : Opnd) (off : BitVec 12) (size : Nat) : Times :=
  i.timedBy (i.memSched regs a off size)

/-- The address of each position, with the register values that stand at its pass. -/
def Iss.memAddr (i : Iss) (regs : List Nat) (a : Opnd) (off : BitVec 12) (size p : Nat) : Addr :=
  (i.memTimes regs a off size p).addr a off p

/-- Word j of what the bytes at a position's on-chip address hold: the group's own queued stores first (R302). -/
def State.loaded (s : State) (i : Iss) (addr : Nat → Addr) (size p j : Nat) : Word :=
  BitVec.ofNat 32 (s.readPlace i.g (i.placeOf (addr p) p) size (s.ord + 1) / 2 ^ (32 * j))

/-- A load as it issues (R230): on-chip positions get the words that stand at their address, at the latency of their
aperture, and nothing else is written; those of a later pass are put down to be read again in its ck (R301); global
positions enter the operand log and are counted, with the on-chip positions of their records. -/
structure LoadIssue (s : State) (i : Iss) (ins : Instr) (d a : Opnd) (m : Mem) (size words : Nat) (addr : Nat → Addr)
    (sch : List (List Rec × Nat)) (res : List Res) (g : Group) : Prop where
  only : ∀ R ∈ res, ∀ w ∈ R.ws, match w with
    | .v r vs _ => ∃ n j, d = .v n ∧ j < words ∧ r = n.val + j ∧ i.k.nwb = false ∧ ∀ q ∈ vs, q.1 ∈ i.onByAge ∧
        i.accLat (addr q.1) = R.lat ∧ q.2 = s.loaded i addr size q.1 j
    | .s r x => ∃ n j, d = .s n ∧ j < words ∧ r = n.val + j ∧ i.k.nwb = false ∧ ∃ p ∈ i.onByAge,
        i.accLat (addr p) = R.lat ∧ x = s.loaded i addr size p j
    | .hl l vs _ => ∃ j, (heldLatches i.k.hold.toNat words)[j]? = some l ∧ ∀ q ∈ vs, q.1 ∈ i.onByAge ∧
        i.accLat (addr q.1) = R.lat ∧ q.2 = s.loaded i addr size q.1 j
    | .count c n => c = m.cq.toNat ∧ n = ((i.mixedChip addr).filter fun p => i.accLat (addr p) == R.lat).length * size ∧
        ∃ p ∈ i.onByAge, i.isGlobal (addr p) = true
    | _ => False
  chip : ∀ p ∈ i.onByAge, i.isGlobal (addr p) = false → ∃ R ∈ res, R.lat = i.accLat (addr p) ∧
    (∀ n, d = .v n → i.k.nwb = false → ∀ j < words, ∃ vs f, RegWrite.v (n.val + j) vs f ∈ R.ws ∧
      (p, s.loaded i addr size p j) ∈ vs) ∧
    (∀ n, d = .s n → i.k.nwb = false → (∀ r ∈ i.run, p ∈ i.onIn r → i.overtaken d addr R.lat r = false) →
      ∀ j < words, ∃ x, RegWrite.s (n.val + j) x ∈ R.ws) ∧
    (∀ j l, (heldLatches i.k.hold.toNat words)[j]? = some l →
      ∃ vs f, RegWrite.hl l vs f ∈ R.ws ∧ (p, s.loaded i addr size p j) ∈ vs)
  group : ∃ (sel : Rec → Bool) (g0 : Group), (∀ r, sel r = true → i.inRun r = true) ∧
    g0 = { i.g.expand sel with rereads := i.g.rereads ++ i.laterReads addr sch d size (s.ord + 1) } ∧
    ((∀ p ∈ i.onByAge, i.isGlobal (addr p) = false) ∧ g = g0 ∨
      ∃ els num, (∃ p ∈ i.onByAge, i.isGlobal (addr p) = true) ∧
        ElemsServe els (i.onByAge.filter fun p => i.isGlobal (addr p)) addr size ∧
        i.slotFree m.cq.toNat ((els.length + (i.mixedChip addr).length) * size) num ∧
        g = (g0.countUp m.cq.toNat ((els.length + (i.mixedChip addr).length) * size)).addSlot
          (i.newSlot num (s.ord + 1) ins .load els size (some m.cq.toNat) (i.globalRecs addr) (i.loadDst d addr) words m.qord))

/-- Bytes of the store-queue entries of on-chip stores. -/
def chipBytes (es : List StoreEnt) : List (Place × Byte) :=
  es.flatMap fun e => match e with | .chip _ _ ws _ _ => ws | _ => []

/-- The writes of a store in order (R230): each is at a guarded position's address with its data; every guarded position's
location is written; where a range record has one uniform location, its highest guarded position's data is. -/
structure StoreWrites (i : Iss) (t : Times) (a : Opnd) (addr : Nat → Addr) (data : Nat → Nat) (ws : List StoreW) : Prop where
  each : ∀ w ∈ ws, w.k ∈ i.onByAge ∧ w.va = addr w.k ∧ w.data = data w.k
  all : ∀ p ∈ i.onByAge, ∃ w ∈ ws, w.va = addr p ∧ (i.isGlobal w.va = true ∨ i.placeOf w.va w.k = i.placeOf (addr p) p)
  last : ∀ r ∈ i.run, r.lane = false → classAt t true (.op a) r = .u → i.stackOnly addr r = false →
    ∀ w ∈ ws, w.k ∈ r.positions → ∀ p ∈ i.onIn r, p ≤ w.k

/-- A store as it issues (R230, R302): its on-chip writes enter the group's store queue in order, its global ones the
operand log; no byte of memory changes yet. -/
def StoreIssue (s : State) (i : Iss) (ins : Instr) (m : Mem) (size words : Nat) (addr : Nat → Addr) (ws : List StoreW) (g : Group) :
    Prop :=
  let glob := ws.filter fun w => i.isGlobal w.va
  let bytes := (glob.length + (i.mixedChip addr).length) * size
  ∃ ents, (∀ e ∈ ents, ∃ due bs n, e = .chip due (s.ord + 1) bs m.cq.toNat n ∧ i.now ≤ due) ∧
    chipBytes ents = (ws.filter fun w => !i.isGlobal w.va).flatMap (i.writeBytes size) ∧
    ((∀ w ∈ ws, i.isGlobal w.va = false) ∧ g = { i.g with storeq := i.g.storeq ++ ents } ∨
      ∃ num, glob ≠ [] ∧ i.slotFree m.cq.toNat bytes num ∧
        g = (({ i.g with storeq := i.g.storeq ++ ents } : Group).countUp m.cq.toNat bytes).addSlot
          { i.newSlot num (s.ord + 1) ins .store (glob.map fun w => mkElem [w.k] w.va size (BitVec.ofNat 128 w.data)) size
              (some m.cq.toNat) (i.globalRecs addr) .none words m.qord with hold := 0 })

/-- What a refused access does: the eldest failing record decides the cause; a range record has AUX 0xFF, a lane record the
lowest failing position (R30, R202, R353). -/
def State.accessTrap (s : State) (i : Iss) (cause p : Nat) (bad : List Nat) : State :=
  s.takeTrap i.gi ⟨0x04, cause, if i.run.any (fun r => !r.lane && r.covers p) then 0xFF#32 else w32 ((leastBy id bad).getD p),
    i.trapRecord (some p), false⟩ i.pc

/-- The apertures that a load or store may reach (R225, R230). -/
def plainApers (queue : Bool) : List Aper := [.spad, .partner, .stack, .acc] ++ if queue then [] else [.global]

/-- What a claim says of an access that the gather engine performs: operands, size, address, byte count, slot operation,
destination, what the operands must further be, what an element carries for one of its positions, the group with the
expansions made, and the store-queue entries of its on-chip writes. -/
structure EngineForm where
  k : Ctl
  ns : List Need
  size : Nat
  words : Nat
  cq : Nat
  qord : Bool
  op : SlotOp
  d : Opnd
  addr : Iss → Nat → Addr
  fault : Iss → Addr → Option Nat
  kinds : List Nat
  pre : Iss → Prop
  carries : Iss → Elem → Nat → Prop := fun _ _ _ => True
  grp : Iss → Group := fun i => i.g
  ents : Iss → Nat → List Elem → List StoreEnt := fun _ _ _ => []
  serves : Iss → Times → List Elem → List Nat → (Nat → Addr) → Nat → Prop := fun _ _ => ElemsServe

/-- A scatter's elements serve some positions: every position's location is written by an element of its own, or, where a
range record has one index, by that of its highest guarded position alone (R236). -/
structure ScatterServe (i : Iss) (cls : Rec → Cls) (els : List Elem) (ps : List Nat) (addr : Nat → Addr) (len : Nat) : Prop where
  each : ∀ e ∈ els, ∃ p ∈ ps, e.ps = [p] ∧ e.va = addr p ∧ e.len = len ∧ e.st = .pending
  all : ∀ r ∈ i.run, ∀ p ∈ i.onIn r, ∃ e ∈ els, e.va = addr p ∧
    (e.ps = [p] ∨ r.lane = false ∧ cls r = .u ∧ ∃ h ∈ i.onIn r, e.ps = [h] ∧ ∀ q ∈ i.onIn r, q ≤ h)

/-- The issue as each position finds it at its pass (R112). -/
def EngineForm.times (F : EngineForm) (i : Iss) : Times := i.timed false (readRegs F.ns) (F.grp i)

/-- The address of each position, with the register values that stand at its pass. -/
def EngineForm.at_ (F : EngineForm) (i : Iss) (p : Nat) : Addr := F.addr (F.times i p) p

/-- Every acting record of the run has a uniform source. -/
def Iss.uniformRun (i : Iss) (wide : Bool) (o : Opnd) : Prop :=
  ∀ r ∈ i.run, i.onIn r ≠ [] → i.g.srcCls wide r (.op o) = .u

/-- An s destination that is written takes a uniform result alone (R124). -/
def Iss.sTakesUniform (i : Iss) (d b : Opnd) : Prop := (∀ n, d ≠ .s n) ∨ i.k.nwb = true ∨ i.uniformRun false b

/-- An s destination that is written takes the old value of one position alone (R90, R233). -/
def Iss.sTakesOne (i : Iss) (d : Opnd) : Prop :=
  (∀ n, d ≠ .s n) ∨ i.k.nwb = true ∨ ∀ r ∈ i.run, i.onIn r ≠ [] → r.lane = false ∧ r.n < 2

/-- An access that the gather engine performs issues into a slot of the operand log with its elements, its bytes counted
(R218, R228) and every record that issues counted in its flag (R49); where no position is guarded it completes at
latency 1. -/
def EngineForm.Completes (F : EngineForm) (x : Instr) : Prop :=
  ∀ s i, s.iss F.k = some i → i.g.sound = true → i.check F.ns = .ok () → F.pre i →
    (∀ p ∈ i.onByAge, F.fault i (F.at_ i p) = none) → s.unwatched i (fun _ => F.kinds) F.size (F.at_ i) →
    (i.onByAge = [] → exec x s = .next (s.finish i (F.grp i) (F.grp i) (readRegs F.ns) 0 0 [⟨1, i.issues (F.grp i), []⟩] i.advance)) ∧
    (i.onByAge ≠ [] → (∃ num, i.slotFree F.cq (64 * F.size) num) → ∃ els num,
      F.serves i (F.times i) els i.onByAge (F.at_ i) F.size ∧
      (∀ e ∈ els, ∃ p ∈ e.ps, e.va = F.at_ i p ∧ F.carries (F.times i p) e p) ∧
      i.slotFree F.cq (els.length * F.size) num ∧
      exec x s = .next (s.finish i (F.grp i)
        ((({ F.grp i with storeq := (F.grp i).storeq ++ F.ents i (s.ord + 1) els } : Group).countUp F.cq (els.length * F.size)).addSlot
          (i.newSlot num (s.ord + 1) x F.op els F.size (some F.cq) (i.issues (F.grp i)) (i.slotDst F.d) F.words F.qord))
        (readRegs F.ns) 0 (i.issues (F.grp i)) [] i.advance))

/-- What an atomic's element carries: its operand, and the replacement of a compare-and-swap (R232). -/
def atomCarries (op : AtomOp) (ty : Ty) (b c : Opnd) (i : Iss) (e : Elem) (p : Nat) : Prop :=
  e.ps = [p] ∧ e.data = (i.g.src ty.wide (.op b) p).setWidth 128 ∧
    e.repl = if op = .cas then i.g.src ty.wide (.op c) p else 0#64

/-- The gather engine's accesses (R234, R236, R242). -/
def engineForm : Instr → Option EngineForm
  | .gatom k op ty d a b c _ m =>
    some { k := k, ns := atomNeeds op ty d a b c, size := memBytes ty, words := tyWords ty, cq := m.cq.toNat, qord := m.qord,
           op := .atom op ty, d := d, addr := fun i => i.addr a m.off, kinds := [watchRead, watchWrite],
           fault := fun i va => i.accessFault permA [.global] (memBytes ty) va, pre := fun i => i.sTakesOne d,
           carries := atomCarries op ty b c, grp := fun i => i.expandMany d }
  | .gather k ty d a b sh m =>
    some { k := k, ns := [dstT ty d, pairN a, ⟨b, [.v, .s, .zr], 1, 1⟩], size := memBytes ty, words := tyWords ty,
           cq := m.cq.toNat, qord := m.qord, op := .gather, d := d, kinds := [watchRead],
           addr := fun i p => i.addr a m.off p + (i.g.word b p).setWidth 64 <<< sh.toNat,
           fault := fun i va => i.accessFault permR [.spad, .partner, .global] (memBytes ty) va,
           pre := fun i => i.uniformRun true a ∧ i.sTakesUniform d b, grp := fun i => i.expandIdx d b }
  | .scatter k ty d a b sh m =>
    some { k := k, ns := [srcT ty d, pairN a, ⟨b, [.v, .s, .zr], 1, 1⟩], size := memBytes ty, words := tyWords ty,
           cq := m.cq.toNat, qord := m.qord, op := .scatter, d := .zr, kinds := [watchWrite],
           addr := fun i p => i.addr a m.off p + (i.g.word b p).setWidth 64 <<< sh.toNat,
           fault := fun i va => i.accessFault permW [.spad, .partner, .global] (memBytes ty) va,
           pre := fun i => i.uniformRun true a,
           carries := fun i e p => e.data = BitVec.ofNat 128 (i.storeData d (tyWords ty) [] p),
           serves := fun i t => ScatterServe i (classAt t false (.op b)),
           ents := fun i ord els =>
             i.scatterEnts (i.now + i.cost i.g (readRegs [srcT ty d, pairN a, ⟨b, [.v, .s, .zr], 1, 1⟩]) 0 - 1) ord (memBytes ty) els }
  | .remld k ty d a coord cq =>
    some { k := k, ns := [dstT ty d, ⟨a, [.v, .s, .zr], 1, 1⟩], size := memBytes ty, words := tyWords ty, cq := cq.toNat,
           qord := false, op := .remld coord.toNat, d := d, kinds := [], addr := fun i p => (i.g.word a p).setWidth 64,
           fault := fun _ va => if va.toNat < 0x40000 ∧ memBytes ty ∣ va.toNat then none else some 0,
           pre := fun i => coreCluster coord.toNat = coreCluster i.g.core ∧ i.sTakesUniform d a, grp := fun i => i.expandIdx d a }
  | _ => none

/-! Engine commands (R237 to R241) -/

/-- Moves of n bytes in pieces: each begins where the one before ended, and none crosses a 64 KiB page of the destination,
nor one of the source unless it is a single unit of those that are moved whole (R240). -/
def piecesFrom (gran : Nat) : List Elem → Addr → Addr → Nat → Prop
  | [], _, _, n => n = 0
  | e :: rest, d, sa, n => e.va = d ∧ e.src = sa ∧ e.st = .pending ∧ 0 < e.len ∧ e.len ≤ n ∧ gran ∣ e.len ∧
      d.toNat % 65536 + e.len ≤ 65536 ∧ (sa.toNat % 65536 + e.len ≤ 65536 ∨ e.len = gran) ∧
      piecesFrom gran rest (d + BitVec.ofNat 64 e.len) (sa + BitVec.ofNat 64 e.len) (n - e.len)

/-- An engine command may be made: no handler, operands in order and uniform, a tag of the kernel (R237, R359). -/
def Iss.cmdOk (i : Iss) (a b : Opnd) (third : Need) (tag : Nat) : Prop :=
  i.g.serves = none ∧ i.check [pairN a, pairN b, third] = .ok () ∧ tag < i.kern.tags ∧ i.uniformRun true a ∧ i.uniformRun true b ∧
    i.uniformRun false third.o

/-- The bytes of a command lie within their bound and an aperture that it admits (R239, R240). -/
def Iss.spanOk (i : Iss) (perm : Nat) (admits : List Aper) (n : Nat) (va : Addr) : Prop :=
  i.ctx.boundOk perm va n = true ∧ (i.aper va).1 ∈ admits ∧ (i.aper va).2 + n ≤ i.rowEnd (i.aper va).1

/-- A command's tag bit falls as it issues (R238). -/
def State.clearTag (s : State) (i : Iss) (tag : Nat) : State :=
  s.modTeam i.ti fun t => { t with tagBits := t.tagBits &&& ~~~(BitVec.twoPow 128 (i.tagIx tag)) }

/-- A command issues with its moves in a slot of the operand log. -/
def State.commandNext (s : State) (i : Iss) (x : Instr) (op : SlotOp) (ns : List Need) (tag num : Nat) (qord : Bool)
    (els : List Elem) : State :=
  s.finish i i.g (i.g.addSlot { i.newSlot num (s.ord + 1) x op els 0 none i.run.length .none 0 qord with
    tag := i.tagIx tag, hold := 0 }) (readRegs ns) 0 i.run.length [] i.advance

/-- `qpeek` as a value instruction (R243): position p gets word p of the entry, an s register word 0. -/
def peekForm (k : Ctl) (d a : Opnd) (e : List Word) : ValueForm :=
  { k := k, ns := [dstVS d, ⟨a, [.dq], 1, 0⟩], d := d, words := 1, lr := 2, ll := 2,
    val := fun _ _ p _ => e.getD (if isSDst d then 0 else p) 0#32, uni := fun _ _ _ _ => isSDst d }

/-- A queue whose head entry a pop may take (R219, R221). -/
def Iss.headIs (i : Iss) (n : Nat) (e : List Word) : Prop :=
  ∃ q rest, i.queue n = some q ∧ (q.cons = .unbound ∨ q.cons = .group i.g.g) ∧ q.entries = e :: rest ∧
    (if q.lastPush = i.now then q.pushed else 0) < q.entries.length

/-! Waits (R321, R328, R332 to R335) -/

/-- What a claim says of a wait: what must hold for it to issue, the value with which it goes on at once, the
condition for which it blocks. -/
structure WaitForm where
  k : Ctl
  d : Opnd
  ok : Iss → Prop
  now : Iss → Option Word
  cond : Iss → Cond

/-- A wait passes where no position is guarded or its condition holds, with its value in the s destination, and then
acquires where it has waited for a barrier or for tasks (R314, R325); else its run blocks at it. -/
def WaitForm.Completes (F : WaitForm) (x : Instr) : Prop :=
  ∀ s i, s.iss F.k = some i → F.ok i →
    (i.on = [] → exec x s = .next (s.passRun i [])) ∧
    (i.on ≠ [] → ∀ v, F.now i = some v → exec x s = .next (s.passAt i (F.cond i) (i.sWrite F.d v))) ∧
    (i.on ≠ [] → F.now i = none → exec x s = .next (s.blockRun i (F.cond i) (i.sDst F.d) 0#32))

/-- Signed distance of a token from the phase of a barrier (R328). -/
def Iss.tokenAhead (i : Iss) (a : Opnd) (n : Nat) : Int := (i.uword a - (i.barrier n).phase).toInt

/-- The waits. -/
def waitForm : Instr → Option WaitForm
  | .barwait k a n =>
    some { k := k, d := .zr, cond := fun i => .barwait n.toNat (i.barrier n.toNat).phase,
           ok := fun i => i.g.serves = none ∧ i.check [uReg a] = .ok () ∧ i.uniformRun false a ∧
             (i.on = [] ∨ i.tokenAhead a n.toNat < 0 ∨ i.tokenAhead a n.toNat = 0 ∧ i.g.g ∈ (i.barrier n.toNat).marks),
           now := fun i => if i.tokenAhead a n.toNat < 0 then some 0#32 else none }
  | .twait k tag =>
    some { k := k, d := .zr, cond := fun i => .tag (i.tagIx tag.toNat),
           ok := fun i => i.g.serves = none ∧ i.check [] = .ok () ∧ tag.toNat < i.kern.tags,
           now := fun i => if i.t.tagBits.getLsbD (i.tagIx tag.toNat) then some 0#32 else none }
  | .tfirst k d a =>
    some { k := k, d := d, cond := fun i => .tagMask (i.upair a),
           ok := fun i => i.g.serves = none ∧ i.check [⟨d, [.s, .zr], 1, 0⟩, ⟨a, [.s, .zr], 2, 2⟩] = .ok () ∧
             (i.on = [] ∨ (i.upair a).toNat < 2 ^ i.kern.tags),
           now := fun i => if i.upair a = 0#64 then some 0xFFFFFFFF#32 else
             ((List.range 64).find? fun j => (i.upair a).getLsbD j && i.t.tagBits.getLsbD (64 * i.side + j)).map fun j => BitVec.ofNat 32 j }
  | .bcwait k a b =>
    some { k := k, d := .zr, cond := fun i => .count (opNum a) (i.uword b),
           ok := fun i => i.check [⟨a, [.bc, .zr], 1, 1⟩, uReg b] = .ok () ∧ i.uniformRun false b,
           now := fun i => if i.g.word a 0 ≤ i.uword b then some 0#32 else none }
  | .yield k =>
    some { k := k, d := .zr, cond := fun _ => .yield,
           ok := fun i => i.g.serves = none ∧ i.check [] = .ok (),
           now := fun _ => none }
  | _ => none

/-! Matrix and ragged instructions (R247 to R297) -/

/-- No watchpoint that some accesses check hits them. -/
def State.unwatchedAll (s : State) (i : Iss) (as : List (Nat × Nat × Addr × Nat)) : Prop :=
  i.g.serves.isSome = true ∨ ∀ a ∈ as, ((i.g.recAt a.1).map Rec.noWatch).getD false = true ∨
    i.ctx.watchHit (s.shape i.g i.t) a.2.1 a.2.2.1 a.2.2.2 = none

/-- A value instruction whose results come at a completion of their own (R271). -/
def ValueForm.CompletesLater (F : ValueForm) (pre : State → Iss → Prop) (x : Instr) : Prop :=
  ∀ s i, s.iss F.k = some i → i.check F.ns = .ok () → F.sOk i → pre s i →
    ∃ v, F.Delivers i v ∧ exec x s = .next (s.finishLater i F.ns v)

/-- A byte of the group's core as matrix and tile work finds it: the youngest completed store of the group to it that is
still queued, else the array (R227, R253, R257). -/
def State.foundByte (s : State) (i : Iss) (p : Place) : Byte := (i.g.completedByte i.now p).getD (s.arrRead i.ci p)

/-- Element e of the team's tile n, a word of the accumulator array of the group's core (R205). -/
def State.tile (s : State) (i : Iss) (n e : Nat) : Word :=
  BitVec.ofNat 32 (leNat ((List.range 4).map fun j => s.foundByte i ⟨i.g.core, .acc, 4096 * i.seat.accs.getD n 0 + 4 * e + j⟩))

/-- What a claim says of a tile instruction: the new value of element e of the team's tile n, where it is written; bytes and
registers that it writes; what must hold beside check 6; its watched accesses. -/
structure TileForm where
  k : Ctl
  ns : List Need
  slices : BitVec 4
  pre : State → Iss → Prop
  watch : Iss → List (Nat × Nat × Addr × Nat)
  elem : State → Iss → Nat → Nat → Option Word := fun _ _ _ _ => none
  bytes : State → Iss → List (Place × Byte) := fun _ _ => []
  ws : Iss → List RegWrite := fun _ => []

/-- A tile instruction puts one piece of work in flight, which holds exactly what it writes (R257, R271) and, where it
occupies slices, for how long (R250). -/
def TileForm.Completes (F : TileForm) (x : Instr) : Prop :=
  ∀ s i, s.iss F.k = some i → i.check F.ns = .ok () → F.pre s i →
    (i.on = [] → exec x s = .next (s.passRun i [])) ∧
    (i.on ≠ [] → s.unwatchedAll i (F.watch i) → ∃ tiles,
      (∀ a ∈ tiles, ∃ n, a.1 = i.seat.accs.getD n 0 ∧ F.elem s i n a.2.1 = some a.2.2) ∧
      (∀ n e w, F.elem s i n e = some w → (i.seat.accs.getD n 0, e, w) ∈ tiles) ∧
      exec x s = .next ((if F.slices = 0#4 then s else s.spendFree 1).finishWork i i.g (readRegs F.ns) 0
        [i.workOf (s.ord + 1) i.run.length tiles (F.bytes s i) (F.ws i) F.slices
          (if F.slices = 0#4 then 0 else occupancy 1 s.freeCtr)]))

/-- The guarded position whose row of an operand of `T` tiles is row e/32 of tile n (R249). -/
def Iss.rowPos (i : Iss) (d n e : Nat) : Option Nat :=
  if d ≤ n ∧ e < 1024 ∧ i.on.contains (32 * (n - d) + e / 32) then some (32 * (n - d) + e / 32) else none

/-- The one result of the writes to an element, in the order of R92 (R284). -/
def Iss.patched (i : Iss) (op : BitVec 2) (old : Word) (a b : Opnd) (e : Nat) : Option Word :=
  let ps := i.ordered.filter fun p => (i.g.word a p).toNat == e
  if ps = [] then none
  else some (ps.foldl (fun w p =>
    if op = 1#2 then f32Add w (i.g.word b p) else if op = 2#2 then f32Mul w (i.g.word b p) else i.g.word b p) old)

/-- Two tiles of a name at width 64, one else. -/
def Iss.tileName (i : Iss) (d n : Nat) : Bool := decide (d ≤ n ∧ n < d + i.pairLen)

/-- The n × n block that a block function gives, as elements of tile t. -/
def ofBlock (t n : Nat) (b : Block) (m e : Nat) : Option Word :=
  if m = t ∧ e / 32 < n ∧ e % 32 < n then some (cell b (e / 32) (e % 32)) else none

/-- Scaling and accumulator handling (R279 to R287). -/
def tileForm : Instr → Option TileForm
  | .scacc k set d a b =>
    some { k := k, ns := [accN d, accN a, src1 b], slices := 0, pre := fun _ i => i.tileOk true d = true ∧ i.tileOk true a = true,
           watch := fun i => i.on.map fun p => (p, watchAcc, tileAddr (opNum d + p / 32) (32 * (p % 32)), 128),
           elem := fun s i n e => (i.rowPos (opNum d) n e).map fun p =>
             let x := i.g.word b p
             let pv := s.tile i (opNum a + p / 32) e
             if set then f32Mul x pv else f32Fma x pv (s.tile i n e) }
  | .bscale k hi d a =>
    let pos (e : Nat) : Nat := if hi then e % 32 - 16 else e % 32
    some { k := k, ns := [accN d, src1 a], slices := 0, pre := fun _ i => (hi = true → i.g.width = 16 ∧ ∀ p ∈ i.on, p < 16) ∧ i.tileOk true d = true,
           watch := fun i => (i.on.filter fun p => decide (p < 32)).flatMap fun p => (i.tileSet true d).flatMap fun t =>
             (List.range 32).map fun r => (p, watchAcc, tileAddr t (32 * r + if hi then p + 16 else p), 4),
           elem := fun s i n e =>
             if i.tileName (opNum d) n = true ∧ e < 1024 ∧ (hi = true → 16 ≤ e % 32) ∧ i.on.contains (pos e) then
               some (f32Mul (i.g.word a (pos e)) (s.tile i n e)) else none }
  | .accz k d =>
    some { k := k, ns := [accN d], slices := 0, pre := fun _ _ => True, watch := fun i => i.tileWatch watchAcc (opNum d) 0 32 32,
           elem := fun _ _ n e => if n = opNum d ∧ e < 1024 then some 0#32 else none }
  | .accmov k tr d a =>
    some { k := k, ns := [accN d, accN a], slices := 0, pre := fun _ _ => True,
           watch := fun i => i.tileWatch watchAcc (opNum d) 0 32 32,
           elem := fun s i n e => if n = opNum d ∧ e < 1024 then
             some (s.tile i (opNum a) (if tr then 32 * (e % 32) + e / 32 else e)) else none }
  | .accld k ty d a c off =>
    some { k := k, ns := [accN d, pairN a, ⟨c, [.s, .zr], 1, 1⟩], slices := 0,
           pre := fun _ i => i.accRangeCheck permR ty a c off = .ok (), watch := fun i => i.tileWatch watchAcc (opNum d) 0 32 32,
           elem := fun s i n e => if n = opNum d ∧ e < 1024 then
             (let z := if ty = .f32 then 4 else 2
              let at_ : Addr := i.upair a + off.signExtend 64 + BitVec.ofNat 64 (e / 32 * (i.uword c).toNat + e % 32 * z)
              let x := leNat ((List.range z).map fun o => s.operandByte i (at_ + BitVec.ofNat 64 o))
              some (if ty = .f32 then BitVec.ofNat 32 x else f32Rne (tyVal ty x))) else none }
  | .accst k ty a b c off =>
    some { k := k, ns := [pairN a, accN b, ⟨c, [.s, .zr], 1, 1⟩], slices := 0,
           pre := fun _ i => i.accRangeCheck permW ty a c off = .ok (), watch := fun _ => [],
           bytes := fun s i => (List.range 1024).flatMap fun e =>
             let z := if ty = .f32 then 4 else 2
             let at_ : Addr := i.upair a + off.signExtend 64 + BitVec.ofNat 64 (e / 32 * (i.uword c).toNat + e % 32 * z)
             let w := s.tile i (opNum b) e
             let pl := i.placeOf at_ 0
             ((List.range z).map fun o => ({ pl with off := pl.off + o } : Place)).zip
               (leBytes z (if ty = .f32 then w.toNat else roundRne (fmtOf ty) (f32Val w))) }
  | .accpatch k op d a b =>
    some { k := k, ns := [accN d, src1 a, src1 b], slices := 0, pre := fun _ i => ∀ p ∈ i.onByAge, (i.g.word a p).toNat < 1024,
           watch := fun i => i.on.map fun p => (p, watchAcc, tileAddr (opNum d) (i.g.word a p).toNat, 4),
           elem := fun s i n e => if n = opNum d then i.patched op (s.tile i n e) a b e else none }
  | .accnorm k mode size d a b =>
    let n := 8 * 2 ^ size.toNat
    some { k := k, ns := [accN d, accN a, src1 b], slices := 0, pre := fun _ i => size ≠ 3#2 ∧ i.uniformRun false b,
           watch := fun i => i.tileWatch watchAcc (opNum d) 0 n n,
           elem := fun s i m e =>
             let norm (xs : List Word) : List Word :=
               (if mode = 1#2 then softmaxNorm xs else rmsNorm (i.uword b) xs).map f32Rne
             let x (r c : Nat) : Word := s.tile i (opNum a) (32 * r + c)
             if m = opNum d ∧ e / 32 < n ∧ e % 32 < n then
               some (if mode = 2#2 then
                   (norm ((List.range n).flatMap fun r => (List.range n).map (x r))).getD (n * (e / 32) + e % 32) 0#32
                 else (norm ((List.range n).map (x (e / 32)))).getD (e % 32) 0#32)
             else none }
  | .mcoef k rd d a =>
    some { k := k, ns := if rd then [⟨d, [.s, .zr], 1, 0⟩, ⟨a, [.c, .zr], 1, 0⟩] else [⟨d, [.c, .zr], 1, 0⟩, src1 a], slices := 0,
           pre := fun _ i => (∀ n, (if rd then a else d) = .c n → n.val < i.kern.coef) ∧ (rd = false → i.uniformRun false a),
           watch := fun _ => [],
           ws := fun i => if rd then i.sWrite d (i.g.word a 0) else if k.nwb then [] else match d with
             | .c n => [.c n.val (i.uword a)]
             | _ => [] }
  | .mpoly k size deg d a b =>
    let n := 8 * 2 ^ size.toNat
    let g := deg.toNat
    some { k := k, ns := [accN d, accN a, accN b], slices := 15,
           pre := fun _ i => size ≠ 3#2 ∧ i.g.serves = none ∧ opNum d ≠ opNum a ∧ opNum d ≠ opNum b ∧ opNum a ≠ opNum b ∧ g < i.kern.coef,
           watch := fun i => i.tileWatch watchAcc (opNum d) 0 n n ++
             (if 1 ≤ g then i.tileWatch watchOperand (opNum a) 0 n n ++ i.tileWatch watchOperand (opNum b) 0 n n ++
               i.tileWatch watchAcc (opNum b) 0 n n else []) ++
             (if 2 ≤ g then i.tileWatch watchOperand (opNum d) 0 n n else []),
           elem := fun s i m e =>
             let c (j : Nat) : Word := spGet 0#32 i.g.c j
             let x := tabulate n fun r q => s.tile i (opNum a) (32 * r + q)
             let out := horner n c x g (tabulate n (diag (c g))) []
             (ofBlock (opNum d) n out.1 m e).or (if 1 ≤ g then ofBlock (opNum b) n out.2 m e else none) }
  | _ => none

/-- Instructions that write values per position at a completion of their own (R283, R289, R295 to R297). -/
def laterForm : Instr → Option (ValueForm × (State → Iss → Prop))
  | .qenc k ty rm sat d a b =>
    some (floatForm1 k d 1 (rm == .sr) [a, b] (fun xs sr =>
      qencBits ty rm sat sr ((f32Val ((xs.getD 0 0#64).setWidth 32)).mul (f32Val ((xs.getD 1 0#64).setWidth 32)))), fun _ _ => True)
  | .qdec k ty d a b =>
    some (floatForm1 k d 1 false [a, b] (noDraw fun xs =>
      (f32Rne ((tyVal ty (xs.getD 0 0#64).toNat).mul (f32Val ((xs.getD 1 0#64).setWidth 32)))).setWidth 64), fun _ _ => True)
  | .kqsc k d a blk =>
    some (floatForm k [dstVS d, ⟨a, [.v, .s, .zr], 2, 2⟩] d 1 1 false [(true, a)] (noDraw fun xs =>
      (blockScale (((xs.getD 0 0#64) >>> 32).setWidth 32) ((xs.getD 0 0#64).toNat / 2 ^ (8 * blk.toNat) % 256)).setWidth 64), fun _ _ => True)
  | .mloopget k d =>
    some (uForm k [dstVS d 2] d 2 1 1 (fun i _ j => word i.g.mls j), fun _ i => i.on ≠ [])
  | _ => none

/-- The exact products of a quarter operation at row p and column c: none is added where the shape excludes them (R275). -/
def State.quadElem (s : State) (i : Iss) (q : Quad) (x : BitVec 640) (cols : List (List FVal)) (p c : Nat) : Word :=
  let row := if q.fedA then s.rowFed i q p else s.rowA i q (i.planes q p) (i.aAddr q p)
  accumulate (if q.add then s.tile i (opNum q.d + p / 32) (32 * (p % 32) + c) else 0#32)
    (if excluded q.role x p c then List.replicate q.k fzero
     else (row.zip (cols.getD c [])).map fun ab => elemProduct (q.aty == .i8 && q.bt == .i8) ab.1 ab.2)

/-- An element of a ragged tile, as the word that `rnorm` computes with (R294). -/
def State.rowWord (s : State) (i : Iss) (ty : Ty) (va : Addr) : Word :=
  let x := leNat ((List.range (accWidth ty)).map fun o => s.operandByte i (va + BitVec.ofNat 64 o))
  if ty = .f32 then BitVec.ofNat 32 x else f32Rne (tyVal ty x)

/-- The bytes of one result of `rnorm`, rounded once to the format. -/
def Iss.rowBytes (i : Iss) (ty : Ty) (va : Addr) (y : FVal) : List (Place × Byte) :=
  let pl := i.placeOf va 0
  ((List.range (accWidth ty)).map fun o => ({ pl with off := pl.off + o } : Place)).zip (leBytes (accWidth ty) (roundRne (fmtOf ty) y))

/-- What `rnorm` writes: every row of every curd of the shape, F elements each, normalised by the mode (R285, R294). -/
def State.rnormBytes (s : State) (i : Iss) (mode f : Nat) (base : Addr) (eps : Word) (x : BitVec 640) (ty : Ty) :
    List (Place × Byte) :=
  let at_ (p e : Nat) : Addr := base + BitVec.ofNat 64 (p * shpPitch x) + BitVec.ofNat 64 (e * accWidth ty)
  (List.range (shpNc x)).flatMap fun j =>
    let ps := upto (shpBd x j) (shpBd x (j + 1) - shpBd x j)
    let out := rnormCurd mode eps f (ps.map fun p => (List.range f).map fun e => s.rowWord i ty (at_ p e))
    (ps.zip out).flatMap fun py => ((List.range f).zip py.2).flatMap fun ey => i.rowBytes ty (at_ py.1 ey.1) ey.2

/-- The quarter instruction that an instruction is (R273, R277). -/
def quadOf : Instr → Option (Ctl × Quad)
  | .mma k aty bty d a b c role acc remb off => some (k, ⟨aty, mmaB aty bty, d, a, b, c, role.toNat, acc, remb, off, false⟩)
  | .mmasp k ty d a b c role acc off => some (k, ⟨ty, ty, d, a, b, c, role.toNat, acc, false, off, true⟩)
  | _ => none

/-! Traps and system instructions (R353 to R369) -/

/-- Instructions that a handler must not issue whatever their operands (R359). -/
def handlerForbids : Instr → Option Ctl
  | .task k _ _ | .taskwait k _ _ _ | .bar k _ _ | .bararr k _ _ _ | .barwait k _ _ | .copy k _ _ _ _ _ _ | .copyw k _ _ _ _ _ _
  | .rload k _ _ _ _ _ _ | .qbind k _ _ | .qpeek k _ _ _ | .mma k _ _ _ _ _ _ _ _ _ _ | .mmasp k _ _ _ _ _ _ _ _
  | .miter k _ _ _ _ _ _ | .mpoly k _ _ _ _ _ | .twait k _ | .tfirst k _ _ | .yield k | .stepwait k _ => some k
  | _ => none

/-- Instructions that only a handler issues (R361). -/
def handlerOnly : Instr → Option Ctl
  | .tret k _ _ | .traprd k _ _ | .trapwr k _ _ => some k
  | _ => none

/-- The route of a trap of class `cls` under values of `sys.trap_vec` and `sys.trap_mask` (R357). -/
def Context.routeSpec (c : Context) (vec : BitVec 64) (mask : Word) (cls : Nat) (bind : Bool) : Route :=
  if cls ≠ 0x0F ∧ bind = false ∧ mask.getLsbD cls = true ∧ (c.handlerAt vec).isSome = true then .handler else .kernel

/-- A write of a trap register by another group in the present ck of a group (R382). -/
def State.justWritten (s : State) (gi : Nat) (g : Group) (w : Nat × Nat × BitVec 64 × Word) : Prop :=
  w.1 ≠ gi ∧ (s.island (coreCluster g.core)).ckAt w.2.1 = s.groupCk g

/-- What a trap leaves of the device: everything but its group, its context's status, the window and the trap sequence. -/
structure TrapFrame (s t : State) (gi ci : Nat) : Prop where
  mem : t.mem = s.mem ∧ t.units = s.units ∧ t.creamery = s.creamery
  cores : t.cores = s.cores
  teams : t.teams = s.teams
  tasks : t.tasks = s.tasks
  pails : t.pails = s.pails
  others : ∀ j, j ≠ gi → t.groups[j]? = s.groups[j]?
  contexts : ∀ j, j ≠ ci → t.contexts[j]? = s.contexts[j]?
  clock : t.now = s.now ∧ t.ord = s.ord ∧ t.agenda = s.agenda ∧ t.trapSeq = s.trapSeq + 1

/-- A context with its status and reason alone changed. -/
def Context.sameButStatus (c d : Context) : Prop := d = { c with stat := d.stat, why := d.why }

/-! Requests of the host -/

/-- The request at the head of the ring is one of a KIND and SEQ on a context that exists, has not been killed and is
neither being killed nor checkpointed (R392). -/
structure State.takes (s : State) (kind : Nat) (seq : Word) (ci : Nat) : Prop where
  booted : s.booted = true
  request : s.reqIs kind seq = true
  context : s.reqField 8 4 = ci
  free : s.ctxBusy ci = false
  live : s.liveCtx ci = true

/-- The arithmetic of RV32IM, by the RISC-V manual. -/
def rvSpec (op : RvOp) (a b : Word) : Word :=
  match op with
  | .add => a + b
  | .sub => a - b
  | .sll => a <<< (b.toNat % 32)
  | .slt => if a.toInt < b.toInt then 1#32 else 0#32
  | .sltu => if a.toNat < b.toNat then 1#32 else 0#32
  | .xor => a ^^^ b
  | .srl => a >>> (b.toNat % 32)
  | .sra => BitVec.ofInt 32 (a.toInt / 2 ^ (b.toNat % 32))
  | .or => a ||| b
  | .and => a &&& b
  | .mul => BitVec.ofNat 32 (a.toNat * b.toNat)
  | .mulh => ((a.signExtend 64 * b.signExtend 64) >>> 32).setWidth 32
  | .mulhsu => ((a.signExtend 64 * b.zeroExtend 64) >>> 32).setWidth 32
  | .mulhu => ((a.zeroExtend 64 * b.zeroExtend 64) >>> 32).setWidth 32
  | .div => if b = 0#32 then BitVec.allOnes 32 else a.sdiv b
  | .divu => if b = 0#32 then BitVec.allOnes 32 else a / b
  | .rem => if b = 0#32 then a else a.srem b
  | .remu => if b = 0#32 then a else a % b

/-- What an integer instruction of a Pail writes, and where it goes on (R222). -/
def rvResult (x : BitVec 5 → Word) (pc next : Word) : RvInstr → Option (BitVec 5 × Word × Word)
  | .lui rd imm => some (rd, imm ++ 0#12, next)
  | .auipc rd imm => some (rd, pc + (imm ++ 0#12), next)
  | .jal rd off => some (rd, next, pc + off)
  | .jalr rd rs1 imm => some (rd, next, (x rs1 + imm.signExtend 32) &&& 0xFFFFFFFE#32)
  | .branch op a b off =>
    let taken : Bool :=
      match op with
      | .eq => decide (x a = x b)
      | .ne => decide (x a ≠ x b)
      | .lt => decide ((x a).toInt < (x b).toInt)
      | .ge => decide ((x b).toInt ≤ (x a).toInt)
      | .ltu => decide ((x a).toNat < (x b).toNat)
      | .geu => decide ((x b).toNat ≤ (x a).toNat)
    some (0#5, 0#32, if taken then pc + off else next)
  | .opImm op rd rs1 imm => some (rd, rvSpec op (x rs1) imm, next)
  | .op op rd rs1 rs2 => some (rd, rvSpec op (x rs1) (x rs2), next)
  | .fence => some (0#5, 0#32, next)
  | _ => none

/-- What a Zicsr form makes of an old value and its operand. -/
def csrNew (op : RvCsr) (old v : Word) : Word :=
  match op with
  | .rw => v
  | .rs => old ||| v
  | .rc => old &&& ~~~v

end Sys2Proof.Machine
end

