-- ==== Sys2Proof/Certificates/Slice0/Obligations.lean ====
section
/-!
DEFINITION. Statements for the provers: what the manual's rules say of the machine, one definition for each.
-/

open Sys2Proof Sys2Proof.Machine

/-- O1. Every integer instruction, both formats and both widths, completes with its value at each position
(07_integer_range_control.md R130, 07_integer_range_control.md R131, 07_integer_range_control.md R132,
07_integer_range_control.md R128, 07_integer_range_control.md R129, 07_integer_range_control.md R134,
07_integer_range_control.md R135). The model's choice: a 64-bit result held in hl0 fills hl0 and hl1 (log entry 79,
DEDUCED). -/
def Obligations.IntegerResults : Prop :=
  (∀ x F, intTwo x = some F → F.Completes x) ∧
  (∀ x F, intOther x = some F → F.Completes x)

/-- O2. idx, rngget, formget, tinfo, qstat and pmov to a register complete with their values (04_tasks_and_placement.md
R75, 07_integer_range_control.md R137, 07_integer_range_control.md R138, 07_integer_range_control.md R139,
07_integer_range_control.md R142, 11_data_movement_instructions.md R244). The model's choice: a 64-bit result held in
hl0 fills hl0 and hl1 (log entry 79, DEDUCED). -/
def Obligations.FormAndLaunchResults : Prop :=
  ∀ x F, formValue x = some F → F.Completes x

/-- O3. shfl, vote ballot, gred and gscan complete with values over the participants (07_integer_range_control.md R152,
07_integer_range_control.md R153, 07_integer_range_control.md R154, 07_integer_range_control.md R156,
07_integer_range_control.md R157). The model's choice: a 64-bit result held in hl0 fills hl0 and hl1 (log entry 79,
DEDUCED). -/
def Obligations.CollectiveResults : Prop :=
  ∀ x F, collective x = some F → F.Completes x

/-- O4. fadd, fsub, fmul, ffma, hadd2, hmul2 and hfma2 round the exact result once (09_lane_arithmetic.md R189,
09_lane_arithmetic.md R190, 08_number_formats.md R168, 08_number_formats.md R174). The model's choice: a 64-bit result
held in hl0 fills hl0 and hl1 (log entry 79, DEDUCED). -/
def Obligations.FloatArithmeticResults : Prop :=
  ∀ x F, floatArith x = some F → F.Completes x

/-- O5. fmin, fmax, fcvt, f2i, i2f, frnd, fclass, plsplit and pljoin complete with their values (09_lane_arithmetic.md
R191, 09_lane_arithmetic.md R195, 09_lane_arithmetic.md R196, 09_lane_arithmetic.md R197, 09_lane_arithmetic.md R198,
09_lane_arithmetic.md R199, 09_lane_arithmetic.md R200). The model's choice: a 64-bit result held in hl0 fills hl0 and
hl1 (log entry 79, DEDUCED); the conversion from e2m3 to e5m2 rounds to nearest even and draws nothing (log entry 25,
DEDUCED). -/
def Obligations.FloatConversionResults : Prop :=
  ∀ x F, floatOther x = some F → F.Completes x

/-- O6. Transcendentals complete with one word at latency 12; their values at special and large operands (R194). -/
def Obligations.TranscendentalFunctions : Prop :=
  (∀ x F, transc x = some F → F.Completes x) ∧
  ((∀ x : Word, 0x7F800000#32 < (x &&& 0x7FFFFFFF#32) →
      ∀ f ∈ [frcpWord, frsqWord, fsqrtWord, fexp2Word, flog2Word, fsinWord, fcosWord], f x = 0x7FC00000#32) ∧
    (∀ x : Word, x.msb = true → (x &&& 0x7FFFFFFF#32) ≠ 0#32 → (x &&& 0x7FFFFFFF#32) ≤ 0x7F800000#32 →
      ∀ f ∈ [frsqWord, fsqrtWord, flog2Word], f x = 0x7FC00000#32) ∧
    ([frcpWord, fexp2Word, fsinWord, fcosWord].map fun f => f 0xFF800000#32) =
      [0x80000000#32, 0x00000000#32, 0x7FC00000#32, 0x7FC00000#32] ∧
    ([frcpWord, frsqWord, fsqrtWord, fexp2Word, flog2Word, fsinWord, fcosWord].map fun f => f 0x80000000#32) =
      [0xFF800000#32, 0xFF800000#32, 0x80000000#32, 0x3F800000#32, 0xFF800000#32, 0x80000000#32, 0x3F800000#32] ∧
    ([frcpWord, frsqWord, fsqrtWord, fexp2Word, flog2Word, fsinWord, fcosWord].map fun f => f 0x00000000#32) =
      [0x7F800000#32, 0x7F800000#32, 0x00000000#32, 0x3F800000#32, 0xFF800000#32, 0x00000000#32, 0x3F800000#32] ∧
    ([frcpWord, frsqWord, fsqrtWord, fexp2Word, flog2Word].map fun f => f 0x3F800000#32) =
      [0x3F800000#32, 0x3F800000#32, 0x3F800000#32, 0x40000000#32, 0x00000000#32] ∧
    ([frcpWord, frsqWord, fsqrtWord, fexp2Word, flog2Word, fsinWord, fcosWord].map fun f => f 0x7F800000#32) =
      [0x00000000#32, 0x00000000#32, 0x7F800000#32, 0x7F800000#32, 0x7F800000#32, 0x7FC00000#32, 0x7FC00000#32] ∧
    (∀ x : Word, 0x49800000#32 < (x &&& 0x7FFFFFFF#32) → (x &&& 0x7FFFFFFF#32) < 0x7F800000#32 →
      ∀ f ∈ [fsinWord, fcosWord], ∃ s n d, f32Val (f x) = .fin s n d ∧ n ≤ d))

/-- O7. Predicate instructions complete with a bit per guarded position and expand no record (R155). -/
def Obligations.PredicateResults : Prop :=
  ∀ x F, predForm x = some F → F.Completes x

/-- O8. bra, brx, call, callx and ret send each guarded position to its target (R145, R149). -/
def Obligations.TransferResults : Prop :=
  ∀ x F, transferForm x = some F → F.Completes x

/-- O9. A form that a range record receives gives every position of it the value of the instruction
(07_integer_range_control.md R120, 07_integer_range_control.md R123, 05_range_threads.md R86). -/
def Obligations.RangeFormsAreExact : Prop :=
  ∀ x F s i, valueForm x = some F → s.iss F.k = some i → i.g.sound = true → i.check F.ns = .ok () → F.sOk i →
      ∃ v, F.Delivers i v ∧ exec x s = .next (s.finishValues i F.ns F.lr F.ll v) ∧
        ∀ r vs f, RegWrite.v r vs (some f) ∈ v.range ++ v.lane → ∀ p ∈ vs, f.at p.1 = p.2

/-- O10. A value instruction changes no register but its destination, its latch and SR (03_instruction_words.md R48,
06_fetch_and_issue.md R112, 05_range_threads.md R99). -/
def Obligations.ValueInstructionFrame : Prop :=
  ∀ x F s i t, valueForm x = some F → s.iss F.k = some i → i.g.sound = true → i.g0.step = none → i.check F.ns = .ok () →
      F.sOk i → exec x s = .next t → IssueFrame s t i ∧
      ∃ g', t.groups[i.gi]? = some g' ∧ g'.p = i.g.p ∧ g'.bc = i.g.bc ∧ g'.c = i.g.c ∧ g'.mls = i.g.mls ∧ (∃ sel, g'.sr = F.sr i (F.times i (i.g.expand sel))) ∧
        g'.storeq.map StoreEnt.bare = i.g.storeq.map StoreEnt.bare ∧ g'.trap = i.g.trap ∧ g'.stat = i.g.stat ∧
        (g'.oplog.map fun l => { l with skip := [] }) = (i.g.oplog.map fun l => { l with skip := [] }) ∧
        (∀ n, ¬F.dstS n → spGet 0#32 g'.s n = spGet 0#32 i.g.s n) ∧
        (∀ n p, ¬F.dstV n → g'.vAt n p = i.g.vAt n p) ∧
        (∀ n, n + 1 ≠ F.k.sig.toNat → spGet 0 g'.cf n = spGet 0 i.g.cf n) ∧
        (∀ p, p ∈ allPositions g'.recs ↔ p ∈ allPositions i.g.recs)

/-- O11. nop, expand, rerange and dead issue for the run; dead kills exactly its registers and traps past v63
(07_integer_range_control.md R140, 07_integer_range_control.md R141, 07_integer_range_control.md R151, R141). The
model's choice: RECORD of a trap word numbers the records as they stood before the issue would merge them (log entry
21, DEDUCED). -/
def Obligations.RecordInstructions : Prop :=
  (∀ k s i, s.iss k = some i → i.trial = false →
      exec (.nop k) s = .next (s.finish i i.g i.g [] 0 0 [⟨1, i.run.length, []⟩] i.advance) ∧
      exec (.expand k) s = .next (s.finish i i.g i.g [] 0 0 [⟨1, i.run.length, []⟩] fun g => i.advance (g.expand i.inRun)) ∧
      exec (.rerange k) s =
        .next (s.finish i i.g i.g [] 0 0 [⟨1, i.run.length, []⟩] fun g => i.advance (g.rerange i.inRun (s.avail i))) ∧
      ∀ (n : Fin 64) (cnt : BitVec 6), n.val + cnt.toNat ≤ 63 →
        exec (.dead k (.v n) cnt) s = .next (s.finish i i.g i.g [] 0 0 [⟨1, i.run.length, []⟩] fun g =>
          i.advance { g with recs := g.recs.map fun r => if i.inRun r then r.kill n.val (cnt.toNat + 1) else r })) ∧
  ((∀ (r : Rec) n cnt m, sparseWf Form.dead 0 r.forms = true →
        (r.kill n cnt).form m = if n ≤ m ∧ m < n + cnt then Form.dead else r.form m) ∧
    ∀ k s i (n : Fin 64) (cnt : BitVec 6), s.iss k = some i → 63 < n.val + cnt.toNat →
      exec (.dead k (.v n) cnt) s = .next (s.takeTrap i.gi ⟨0x02, 0, 0xFF#32, i.trapRecord none, false⟩ i.pc))

/-- O12. Expansion and rerange keep every value, and merging keeps every live one (05_range_threads.md R99,
05_range_threads.md R103, 05_range_threads.md R104). -/
def Obligations.RecordRewritesKeepValues : Prop :=
  ∀ g : Group, g.sound = true →
      (∀ sel n p, (g.expand sel).vAt n p = g.vAt n p) ∧
      (∀ sel avail n p, (g.rerange sel avail).vAt n p = g.vAt n p) ∧
      (∀ sel fuel n p r, ({ g with recs := mergeAll sel fuel g.recs } : Group).recAt p = some r → (r.form n).cls ≠ .d →
        ({ g with recs := mergeAll sel fuel g.recs } : Group).vAt n p = g.vAt n p) ∧
      ∀ sel fuel avail p,
        (p ∈ allPositions (g.expand sel).recs ↔ p ∈ allPositions g.recs) ∧
        (p ∈ allPositions (g.rerange sel avail).recs ↔ p ∈ allPositions g.recs) ∧
        (p ∈ allPositions (mergeAll sel fuel g.recs) ↔ p ∈ allPositions g.recs)

/-- O13. A transfer takes each position of the run to its destination and keeps its registers (05_range_threads.md R96,
05_range_threads.md R97, 05_range_threads.md R98, 07_integer_range_control.md R144). -/
def Obligations.TransfersMoveEveryPosition : Prop :=
  ∀ (s : State) (i : Iss) dest p, i.g.sound = true →
      (p ∈ i.allByAge → ∀ a, dest p = some a → ∃ r, (s.moveRun i dest i.g).recAt p = some r ∧ r.pc = a ∧
        ∀ n, (s.moveRun i dest i.g).vAt n p = i.g.vAt n p) ∧
      (p ∈ i.allByAge → dest p = none → (s.moveRun i dest i.g).recAt p = none) ∧
      (p ∉ i.allByAge → (s.moveRun i dest i.g).recAt p = i.g.recAt p)

/-- O14. exit ends the guarded positions, and the group when none is left (R105, R150). -/
def Obligations.ExitCompletes : Prop :=
  ∀ k s i, s.iss k = some i → i.trial = false → (s.atEnd i.ci i.ctx i.pc = true → ∀ p ∈ i.allByAge, p ∈ i.on) →
      (exec (.exit k) s = .next ((s.finish i i.g i.g [] 0 0 [⟨1, (i.ranges i.g).length, []⟩, ⟨2, (i.lanes i.g).length, []⟩]
        (s.moveRun i fun p => if i.on.contains p then none else some (nextPc i.pc))).afterExit i.gi)) ∧
      (i.g0.step = none → i.g.stat = .live → (∀ r ∈ i.g.recs, i.inRun r = true) → (∀ p ∈ i.allByAge, p ∈ i.on) →
        ∃ t g', exec (.exit k) s = .next t ∧ t.groups[i.gi]? = some g' ∧ g'.recs = [] ∧ g'.stat = .ended)

/-- O15. The traps of a transfer: table index, range, target, END line (07_integer_range_control.md R144,
07_integer_range_control.md R146, 03_instruction_words.md R46, 03_instruction_words.md R47,
07_integer_range_control.md R147). The model's choice: RECORD of a trap word numbers the records as they stood before
the issue would merge them (log entry 21, DEDUCED). -/
def Obligations.TransferTraps : Prop :=
  ((∀ k a (t : Fin 56) n s i p, s.iss k = some i → i.check [src1 a, ⟨.s t, [.s], 1, 0⟩] = .ok () → n ≠ 0#6 →
        t.val + n.toNat ≤ 56 → ∀ T : Times, T = i.timed false (readRegs [src1 a]) i.g →
        (i.onByAge.find? fun q => decide (n.toNat ≤ ((T q).g.word a q).toNat)) = some p →
        ∃ m ∈ i.onByAge, n.toNat ≤ ((T m).g.word a m).toNat ∧
          (∀ q ∈ i.onByAge, n.toNat ≤ ((T q).g.word a q).toNat → m ≤ q) ∧
          exec (.brx k a (.s t) n) s = .next (s.takeTrap i.gi ⟨0x08, 0, w32 m, i.trapRecord (some p), false⟩ i.pc)) ∧
    ∀ x F s i, transferForm x = some F → s.iss F.k = some i → i.check F.ns = .ok () → F.pre i (F.times i) →
      (∀ p, (i.onByAge.find? fun q => !targetInRange i.ctx.bounded (F.goal i q)) = some p →
        exec x s = .next (s.takeTrap i.gi ⟨0x01, 2, 0#32, i.trapRecord (some p), false⟩ i.pc)) ∧
      ((∀ q ∈ i.onByAge, targetInRange i.ctx.bounded (F.goal i q) = true) →
        (i.ctx.bounded = true → F.indirect = true → ∀ q ∈ i.onByAge, ∀ a, F.goal i q = some a → i.ctx.boundOk permX a 12 = true) →
        s.atEnd i.ci i.ctx i.pc = false →
        ∀ p, (i.allByAge.find? fun q => i.on.contains q && ((F.goal i q).map fun a => !s.targetOk i.ci i.ctx a).getD false) = some p →
          exec x s = .next (s.takeTrap i.gi ⟨0x01, 7, 0#32, i.trapRecord (some p), false⟩ i.pc))) ∧
  (∀ k s i, s.iss k = some i → s.atEnd i.ci i.ctx i.pc = true →
      (∀ d disp p rest, i.check [dstVS d 2] = .ok () → i.allByAge = p :: rest →
        (i.onByAge = [] ∨ targetInRange i.ctx.bounded (slotPc i.pc (slotNum i.pc + disp.toInt)) = true) →
        exec (.call k d disp) s = .next (s.takeTrap i.gi ⟨0x01, 3, 0#32, i.trapRecord (some p), false⟩ i.pc)) ∧
      ∀ p, i.trial = false → (i.allByAge.find? fun q => !i.on.contains q) = some p →
        exec (.exit k) s = .next (s.takeTrap i.gi ⟨0x01, 3, 0#32, i.trapRecord (some p), false⟩ i.pc))

/-- O16. An s destination with a result that is not uniform traps and writes nothing (05_range_threads.md R90,
07_integer_range_control.md R124). The model's choice: RECORD of a trap word numbers the records as they stood before
the issue would merge them (log entry 21, DEDUCED). -/
def Obligations.NonUniformSDestinationTraps : Prop :=
  ∀ x F s i n r, intTwo x = some F → F.d = .s n → s.iss F.k = some i → i.check F.ns = .ok () → r ∈ i.run → r.lane = true →
      i.onIn r ≠ [] →
      (∀ sel : Rec → Bool, (∀ x, sel x = true → i.inRun x = true) → ∃ x,
        (F.times i (i.g.expand sel) r.b).recNow r = some x ∧ F.uni i (F.times i (i.g.expand sel)) r x = false) → ∃ p ∈ i.onByAge, ∃ q ∈ i.onByAge,
        exec x s = .next (s.takeTrap i.gi ⟨0x02, 2, w32 p, i.trapRecord (some q), false⟩ i.pc)

/-- O17. ld and ldp deliver the bytes at each position's address, or log the global access
(11_data_movement_instructions.md R226, 11_data_movement_instructions.md R229, 11_data_movement_instructions.md R230,
10_memory_seen_by_programs.md R218, 14_ordering.md R301). The model's choice: 16-byte and 64-bit results held in hl0
fill hl0 and hl1 (log entry 79, DEDUCED). -/
def Obligations.LoadsComplete : Prop :=
  ∀ k d a m s i x ty size words, (x = Instr.ld k ty d a m ∧ size = memBytes ty ∧ words = tyWords ty ∨
        x = Instr.ldp k d a m ∧ size = 16 ∧ words = 4) →
      s.iss k = some i → i.g.sound = true → queueOf d = none → i.check [dstVS d words, pairN a] = .ok () →
      ∀ A, A = i.memAddr (readRegs [pairN a]) a m.off size →
      (∀ p ∈ i.onByAge, i.accessFault permR (plainApers false) size (A p) = none) →
      ((∀ n, d ≠ .s n) ∨ ∀ r ∈ i.run, i.onIn r ≠ [] →
        classAt (i.memTimes (readRegs [pairN a]) a m.off size) true (.op a) r = .u ∧ i.stackOnly A r = false) →
      s.unwatched i (fun _ => [watchRead]) size A →
      ((∃ p ∈ i.onByAge, i.isGlobal (A p) = true) → ∃ num, i.slotFree m.cq.toNat (64 * size) num) →
      i.readHeld (i.withAddr A) size = false →
      ∃ res g extra, LoadIssue s i x d a m size words A (i.memSched (readRegs [pairN a]) a m.off size) res g ∧
        exec x s = .next ((s.countRounds i.ci extra).finish i i.g g (readRegs [pairN a]) extra (i.globalRecs A) res i.advance)

/-- O18. st and stp queue each position's bytes, or log the global access (11_data_movement_instructions.md R226,
11_data_movement_instructions.md R229, 11_data_movement_instructions.md R230, 14_ordering.md R302). -/
def Obligations.StoresComplete : Prop :=
  ∀ k a b m s i x ty size words, (x = Instr.st k ty a b m ∧ size = memBytes ty ∧ words = tyWords ty ∨
        x = Instr.stp k a b m ∧ size = 16 ∧ words = 4) →
      s.iss k = some i → i.g.sound = true → i.check [pairN a, storeSrc b words false] = .ok () →
      ∀ T A, T = i.memTimes (readRegs [pairN a, storeSrc b words false]) a m.off size →
      A = i.memAddr (readRegs [pairN a, storeSrc b words false]) a m.off size →
      (∀ p ∈ i.onByAge, i.accessFault permW (plainApers false) size (A p) = none) →
      s.unwatched i i.storeKinds size A →
      ((∃ p ∈ i.onByAge, i.isGlobal (A p) = true) → ∃ num, i.slotFree m.cq.toNat (64 * size) num) →
      ∃ ws g extra, StoreWrites i T a A (fun p => (T p).storeData b words [] p) ws ∧ StoreIssue s i x m size words A ws g ∧
        exec x s = .next ((s.countRounds i.ci extra).finish i i.g g
          (readRegs [pairN a, storeSrc b words false]) extra (i.globalRecs A)
          (chipLats.map fun l => ⟨l, i.countLat A l, []⟩) i.advance)

/-- O19. gatom, gather, scatter, remld and amaxrd enter the operand log with their elements
(11_data_movement_instructions.md R228, 11_data_movement_instructions.md R234, 11_data_movement_instructions.md R236,
11_data_movement_instructions.md R242, 11_data_movement_instructions.md R235). The model's choice: with no guarded
position an engine operation completes at latency 1 (log entry 19, DESIGN CHOICE). -/
def Obligations.EngineAccesses : Prop :=
  (∀ x F, engineForm x = some F → F.Completes x) ∧
  (∀ k ty d a scope m s i, s.iss k = some i → i.check [dstT ty d, pairN a] = .ok () → i.uniformRun true a →
    (i.on = [] → exec (.amaxrd k ty d a scope m) s =
      .next (s.finish i i.g i.g (readRegs [dstT ty d, pairN a]) 0 0 [⟨1, i.issues i.g, []⟩] i.advance)) ∧
    ∀ p rest num, i.on = p :: rest → i.accessFault permA [.global] (memBytes ty) (i.addr a m.off p) = none →
      (i.g.serves.isSome = true ∨ ((i.g.recAt p).map Rec.noWatch).getD false = true ∨ ∀ kd ∈ [watchRead, watchWrite],
        i.ctx.watchHit (s.shape i.g i.t) kd (i.addr a m.off p) (memBytes ty) = none) →
      i.slotFree m.cq.toNat (memBytes ty) num →
      exec (.amaxrd k ty d a scope m) s = .next (s.finish i i.g ((i.g.countUp m.cq.toNat (memBytes ty)).addSlot
        (i.newSlot num (s.ord + 1) (.amaxrd k ty d a scope m) .amax [mkElem (p :: rest) (i.addr a m.off p) (memBytes ty) 0#128 true]
            (memBytes ty) (some m.cq.toNat) (i.issues i.g) (i.slotDst d) (tyWords ty) m.qord))
        (readRegs [dstT ty d, pairN a]) 0 (i.issues i.g) [] i.advance))

/-- O20. The cause of an access that may not be made, and its trap (10_memory_seen_by_programs.md R201,
10_memory_seen_by_programs.md R202, 02_describing_work.md R30, 18_traps_faults_preemption.md R353). The model's
choice: the eldest failing record decides the cause and the kind of AUX in a mixed run (log entry 22, DEDUCED); RECORD
of a trap word numbers the records as they stood before the issue would merge them (log entry 21, DEDUCED). -/
def Obligations.AccessTraps : Prop :=
  (∀ (i : Iss) perm admits size va, 0 < size →
      (i.ctx.boundOk perm va size = false → i.accessFault perm admits size va = some 0) ∧
      (i.ctx.boundOk perm va size = true → (i.aper va).1 ∉ admits → i.accessFault perm admits size va = some 1) ∧
      (i.ctx.boundOk perm va size = true → (i.aper va).1 ∈ admits → ¬size ∣ va.toNat → i.accessFault perm admits size va = some 2) ∧
      (i.ctx.boundOk perm va size = true → (i.aper va).1 ∈ admits → size ∣ va.toNat →
        ((i.aper va).1 = .spad → i.accessFault perm admits size va = if (i.aper va).2 + size ≤ i.seat.footLen then none else some 1) ∧
        ((i.aper va).1 = .partner → i.accessFault perm admits size va =
          if i.kern.paired = true ∧ (i.aper va).2 + size ≤ (i.t.seat (corePartner i.g.core)).footLen then none else some 1) ∧
        ((i.aper va).1 = .stack → i.accessFault perm admits size va = if (i.aper va).2 + size ≤ i.stackBytes then none else some 1) ∧
        ((i.aper va).1 = .acc → i.accessFault perm admits size va =
          if (i.aper va).2 + size ≤ 4096 * i.kern.acc then none else some 1) ∧
        ((i.aper va).1 = .global → i.accessFault perm admits size va = none))) ∧
  ((∀ k d a m s i x ty size words, (x = Instr.ld k ty d a m ∧ size = memBytes ty ∧ words = tyWords ty ∨
        x = Instr.ldp k d a m ∧ size = 16 ∧ words = 4) →
      s.iss k = some i → queueOf d = none → i.check [dstVS d words, pairN a] = .ok () →
      ∀ A, A = i.memAddr (readRegs [pairN a]) a m.off size →
      ∀ p, (i.onByAge.find? fun q => (i.accessFault permR (plainApers false) size (A q)).isSome) = some p →
        exec x s = .next (s.accessTrap i ((i.accessFault permR (plainApers false) size (A p)).getD 0) p
          (i.onByAge.filter fun q => (i.accessFault permR (plainApers false) size (A q)).isSome))) ∧
    ∀ k a b m s i x ty size words, (x = Instr.st k ty a b m ∧ size = memBytes ty ∧ words = tyWords ty ∨
        x = Instr.stp k a b m ∧ size = 16 ∧ words = 4) →
      s.iss k = some i → i.check [pairN a, storeSrc b words false] = .ok () →
      ∀ A, A = i.memAddr (readRegs [pairN a, storeSrc b words false]) a m.off size →
      ∀ p, (i.onByAge.find? fun q => (i.accessFault permW (plainApers false) size (A q)).isSome) = some p →
        exec x s = .next (s.accessTrap i ((i.accessFault permW (plainApers false) size (A p)).getD 0) p
          (i.onByAge.filter fun q => (i.accessFault permW (plainApers false) size (A q)).isSome)))

/-- O21. atoms queues its read-modify-writes; the new value that each atomic operation leaves
(11_data_movement_instructions.md R232, 11_data_movement_instructions.md R233, 14_ordering.md R302,
09_lane_arithmetic.md R190, 09_lane_arithmetic.md R191). The model's choice: with no guarded position atoms completes
at latency 6 (log entry 19, DESIGN CHOICE). -/
def Obligations.ScratchpadAtomics : Prop :=
  (∀ k op ty d a b c scope off s i, s.iss k = some i → i.g.sound = true → i.check (atomNeeds op ty d a b c) = .ok () → i.sTakesOne d →
      ∀ g sch T, g = i.expandMany d → sch = i.sched g (readRegs (atomNeeds op ty d a b c)) (i.rounds (atomWords a off (memBytes ty))) →
      T = i.timedBy sch →
      (∀ p ∈ i.onByAge, i.accessFault permA [.spad, .partner] (memBytes ty) ((T p).addr a off p) = none) →
      s.unwatched i (fun _ => [watchRead, watchWrite]) (memBytes ty) (fun p => (T p).addr a off p) →
      (i.onByAge = [] → exec (.atoms k op ty d a b c scope off) s =
        .next (s.finish i i.g i.g (readRegs (atomNeeds op ty d a b c)) 0 0 [⟨6, i.issues g, []⟩] i.advance)) ∧
      (i.onByAge ≠ [] → ∃ els,
        ElemsServe (els.map fun e => e.1) i.onByAge (fun p => (T p).addr a off p) (memBytes ty) ∧
        (∀ e ∈ els, ∃ p, atomCarries op ty b c (T p) e.1 p ∧ e.2 = i.placeOf ((T p).addr a off p) p) ∧
        exec (.atoms k op ty d a b c scope off) s =
          .next ((s.countRounds i.ci (extraOf (i.rounds (atomWords a off (memBytes ty))) sch)).finish i g
          { g with storeq := g.storeq ++ [.atom (s.ord + 1) k.sig.toNat (i.issues g) op ty els (i.slotDst d) k.hold.toNat []] }
          (readRegs (atomNeeds op ty d a b c)) (extraOf (i.rounds (atomWords a off (memBytes ty))) sch) (i.issues g) [] i.advance))) ∧
  ((∀ (m b c : BitVec 64),
      (∀ ty ∈ [Ty.i64, Ty.n64], atomNew .add ty m b c = m + b) ∧
      atomNew .min .i64 m b c = (if b.slt m then b else m) ∧ atomNew .max .i64 m b c = (if m.slt b then b else m) ∧
      atomNew .min .n64 m b c = (if b.ult m then b else m) ∧ atomNew .max .n64 m b c = (if m.ult b then b else m) ∧
      atomNew .and .b64 m b c = m &&& b ∧ atomNew .or .b64 m b c = m ||| b ∧ atomNew .xor .b64 m b c = m ^^^ b ∧
      atomNew .exch .b64 m b c = b ∧ atomNew .cas .n64 m b c = (if m = b then c else m)) ∧
    ∀ (m b c : Word) (N : AtomOp → Ty → Word),
      (N = fun op ty => (atomNew op ty (m.setWidth 64) (b.setWidth 64) (c.setWidth 64)).setWidth 32) →
      (∀ ty ∈ [Ty.i32, Ty.n32], N .add ty = m + b) ∧
      N .min .i32 = (if b.slt m then b else m) ∧ N .max .i32 = (if m.slt b then b else m) ∧
      N .min .n32 = (if b.ult m then b else m) ∧ N .max .n32 = (if m.ult b then b else m) ∧
      N .and .b32 = m &&& b ∧ N .or .b32 = m ||| b ∧ N .xor .b32 = m ^^^ b ∧ N .exch .b32 = b ∧
      N .cas .n32 = (if m = b then c else m) ∧
      N .fadd .f32 = (farith .add .f32 .rne false [m.setWidth 64, b.setWidth 64] 0#32).1.setWidth 32 ∧
      N .fmin .f32 = (minMaxSpec .f32 false [m.setWidth 64, b.setWidth 64]).setWidth 32 ∧
      N .fmax .f32 = (minMaxSpec .f32 true [m.setWidth 64, b.setWidth 64]).setWidth 32)

/-- O22. copy, copyw and rload clear their tag and log their moves (11_data_movement_instructions.md R237,
11_data_movement_instructions.md R238, 11_data_movement_instructions.md R239, 11_data_movement_instructions.md R240,
11_data_movement_instructions.md R241). The model's choice: with no guarded position a command completes at latency 1
(log entry 19, DESIGN CHOICE); a uniform source is read in the ck of the last pass (log entry 88, DEDUCED). -/
def Obligations.EngineCommandsComplete : Prop :=
  ∀ k a b c (tag : BitVec 6) qord off s i, s.iss k = some i →
      (∀ x third, (x = Instr.copy k a b c tag qord off ∧ third = ⟨c, [.v, .s, .zr], 1, 1⟩ ∨
          x = Instr.copyw k a b c tag qord off ∧ third = ⟨c, [.v, .s, .zr], 1, 1⟩ ∨
          x = Instr.rload k a b c tag qord off ∧ third = ⟨c, [.shp], 1, 0⟩) → i.cmdOk a b third tag.toNat →
        (i.on = [] → exec x s = .next (s.finish i i.g i.g (readRegs [pairN a, pairN b, third]) 0 0 [⟨1, i.run.length, []⟩] i.advance)) ∧
        (i.on ≠ [] → i.t.tagBit (i.tagIx tag.toNat) = false →
          exec x s = .next { s with groups := s.groups.set i.gi (i.block (.tag (i.tagIx tag.toNat)) (s.ord + 1)), ord := s.ord + 1 })) ∧
      (∀ x op admits al gran, (x = Instr.copy k a b c tag qord off ∧ op = .copy ∧ admits = [.spad, .partner, .global] ∧ al = 4 ∧ gran = 1 ∨
          x = Instr.copyw k a b c tag qord off ∧ op = .copyw ∧ admits = [.creamery] ∧ al = 64 ∧ gran = 64) →
        i.cmdOk a b ⟨c, [.v, .s, .zr], 1, 1⟩ tag.toNat → i.on ≠ [] → i.t.tagBit (i.tagIx tag.toNat) = true →
        ∀ d sa n num, d = i.upair a + off.signExtend 64 → sa = i.upair b → n = (i.uword c).toNat → al ∣ d.toNat → 4 ∣ sa.toNat →
          al ∣ n → n ≤ 0x400000 → i.spanOk permW admits n d → i.spanOk permR [.spad, .partner, .global] n sa →
          (i.ctx.watchHit (s.shape i.g i.t) watchRead sa n = none ∧ i.ctx.watchHit (s.shape i.g i.t) watchWrite d n = none) →
          i.g.freeSlot = some num → ∃ els, piecesFrom gran els d sa n ∧
            exec x s = .next ((s.clearTag i tag.toNat).commandNext i x op [pairN a, pairN b, ⟨c, [.v, .s, .zr], 1, 1⟩] tag.toNat num qord els)) ∧
      (i.cmdOk a b ⟨c, [.shp], 1, 0⟩ tag.toNat → i.on ≠ [] → i.t.tagBit (i.tagIx tag.toNat) = true →
        ∀ d sa num tbl rows, d = i.upair a + off.signExtend 64 → sa = i.upair b → 8 ∣ sa.toNat →
          shpCols (s.shape i.g i.t (opNum c)) = false → i.spanOk permR [.spad] (8 + 8 * shpNc (s.shape i.g i.t (opNum c))) sa →
          i.g.atomPending (i.placeOf sa 0) (8 + 8 * shpNc (s.shape i.g i.t (opNum c))) (s.ord + 1) = false →
          (tbl = fun o w => s.readPlace i.g (i.placeOf (sa + BitVec.ofNat 64 o) 0) w (s.ord + 1)) →
          rows = rloadRows (s.shape i.g i.t (opNum c)) d (tbl 0 4) (tbl 4 4) (fun j => BitVec.ofNat 64 (tbl (8 + 8 * j) 8)) →
          4 ≤ tbl 0 4 → tbl 0 4 ≤ shpPitch (s.shape i.g i.t (opNum c)) → 4 ∣ tbl 0 4 → tbl 0 4 ≤ tbl 4 4 → 4 ∣ tbl 4 4 →
          rows.length * tbl 0 4 ≤ 0x400000 →
          (∀ j < shpNc (s.shape i.g i.t (opNum c)), shpBd (s.shape i.g i.t (opNum c)) j < shpBd (s.shape i.g i.t (opNum c)) (j + 1) →
            4 ∣ (BitVec.ofNat 64 (tbl (8 + 8 * j) 8)).toNat) →
          (∀ mv ∈ rows, i.spanOk permR [.global] mv.2.2 mv.2.1 ∧ i.spanOk permW [.spad] mv.2.2 mv.1) →
          (∀ mv ∈ rows, i.ctx.watchHit (s.shape i.g i.t) watchRead mv.2.1 mv.2.2 = none ∧
            i.ctx.watchHit (s.shape i.g i.t) watchWrite mv.1 mv.2.2 = none) → i.g.freeSlot = some num →
          exec (.rload k a b c tag qord off) s =
            .next (((s.clearTag i tag.toNat).commandNext i (.rload k a b c tag qord off) .rload [pairN a, pairN b, ⟨c, [.shp], 1, 0⟩] tag.toNat
              num qord (rows.flatMap fun mv => movePieces 1 256 mv.1 mv.2.1 mv.2.2)).sawShape i.gi (opNum c) (s.shapeIdx i.g i.t (opNum c))))

/-- O23. qpeek, qbind: the head entry, the ends, and what an empty queue does (11_data_movement_instructions.md R243,
11_data_movement_instructions.md R245, 10_memory_seen_by_programs.md R219, 18_traps_faults_preemption.md R374,
10_memory_seen_by_programs.md R221). The model's choice: RECORD of a trap word numbers the records as they stood
before the issue would merge them (log entry 21, DEDUCED). -/
def Obligations.QueueInstructions : Prop :=
  ((∀ k d a pop s i, s.iss k = some i → i.g.serves = none → i.check [dstVS d, ⟨a, [.dq], 1, 0⟩] = .ok () →
      (i.on = [] → ∃ v, (peekForm k d a []).Delivers i v ∧ exec (.qpeek k d a pop) s = .next (s.finishValues i [] 2 2 v)) ∧
      (∀ e, i.on ≠ [] → i.headIs (opNum a) e → ∃ v, (peekForm k d a e).Delivers i v ∧
        exec (.qpeek k d a pop) s =
          .next ((if pop then s.popQueue i.ti (i.queueIx (opNum a)) else s).finishValues i [] 2 2 v))) ∧
    ∀ k (n : Fin 16) mode s i q, s.iss k = some i → i.trial = false → i.g.serves = none → n.val < i.kern.queues → i.on ≠ [] → i.queue n.val = some q →
      let goes (q' : Queue) : Host.Outcome State Fault Refusal :=
        .next ((s.modQueue i.ti (i.queueIx n.val) fun _ => q').finish i i.g i.g [] 0 0 [⟨1, i.run.length, []⟩] i.advance)
      (mode = 0#2 → q.prod = .unbound → exec (.qbind k (.dq n) mode) s = goes { q with prod := .group i.g.g, gone := false }) ∧
      (mode = 1#2 → q.cons = .unbound → exec (.qbind k (.dq n) mode) s = goes { q with cons := .group i.g.g, cgone := false }) ∧
      (mode = 2#2 → q.prod = .group i.g.g → exec (.qbind k (.dq n) mode) s = goes { q with prod := .unbound }) ∧
      (mode = 3#2 → q.cons = .group i.g.g → exec (.qbind k (.dq n) mode) s = goes { q with cons := .unbound }) ∧
      ((if mode = 0#2 ∨ mode = 2#2 then q.prod else q.cons) ≠ .unbound →
        (if mode = 0#2 ∨ mode = 2#2 then q.prod else q.cons) ≠ .group i.g.g →
        exec (.qbind k (.dq n) mode) s = .next (s.takeTrap i.gi ⟨0x02, 4, 0xFF#32, i.trapRecord none, false⟩ i.pc))) ∧
  (∀ k d (n : Fin 16) pop s i q, s.iss k = some i → i.g.serves = none → i.check [dstVS d, ⟨.dq n, [.dq], 1, 0⟩] = .ok () → i.on ≠ [] →
      i.queue n.val = some q → (q.cons = .unbound ∨ q.cons = .group i.g.g) → q.entries = [] → q.flight = 0 →
      (q.pois = true → exec (.qpeek k d (.dq n) pop) s = .next (s.takeTrap i.gi ⟨0x0A, 0, w32 n.val, i.trapRecord none, false⟩ i.pc)) ∧
      (q.pois = false → q.gone = true →
        exec (.qpeek k d (.dq n) pop) s = .next (s.takeTrap i.gi ⟨0x09, 0, w32 n.val, i.trapRecord none, false⟩ i.pc)) ∧
      (q.pois = false → q.gone = false → exec (.qpeek k d (.dq n) pop) s =
        .next { s with groups := s.groups.set i.gi (i.block (.qEntry (i.queueIx n.val)) (s.ord + 1)), ord := s.ord + 1 }))

/-- O24. ld into a queue pushes one entry, st from a queue takes one (10_memory_seen_by_programs.md R220,
10_memory_seen_by_programs.md R221, 11_data_movement_instructions.md R230). -/
def Obligations.QueueLoadsPushAndStoresPop : Prop :=
  (∀ k ty (n : Fin 16) a m s i q, s.iss k = some i → i.g.sound = true → ty.wide = false → k.nwb = false → i.on ≠ [] →
      i.check [⟨.dq n, [.v, .s, .dq, .zr], 1, 0⟩, pairN a] = .ok () → i.queue n.val = some q →
      (q.prod = .unbound ∨ q.prod = .group i.g.g) →
      q.entries.length + q.flight + (if q.lastPop = i.now then q.popped else 0) < 16 →
      ∀ A, A = i.memAddr (readRegs [pairN a]) a m.off (memBytes ty) →
      (∀ p ∈ i.onByAge, i.accessFault permR (plainApers true) (memBytes ty) (A p) = none) →
      s.unwatched i (fun _ => [watchRead]) (memBytes ty) A → i.readHeld (i.withAddr A) (memBytes ty) = false →
      ∃ res extra R ws, ∃ sel : Rec → Bool, R ∈ res ∧ RegWrite.push (i.queueIx n.val) ws ∈ R.ws ∧ ws.length = 64 ∧
        (∀ p ∈ i.onByAge, ws[p]? = some (s.loaded i A (memBytes ty) p 0)) ∧
        ∀ later, later = i.laterReads A (i.memSched (readRegs [pairN a]) a m.off (memBytes ty)) (.dq n) (memBytes ty) (s.ord + 1) →
        exec (.ld k ty (.dq n) a m) s = .next (((s.claim i.ti (i.queueIx n.val)).countRounds i.ci extra).finish i i.g
          { i.g.expand sel with rereads := i.g.rereads ++ later } (readRegs [pairN a]) extra 0 res i.advance)) ∧
    ∀ k ty (n : Fin 16) a m s i e, s.iss k = some i → i.g.sound = true → ty.wide = false → i.on ≠ [] →
      i.check [pairN a, storeSrc (.dq n) 1 true] = .ok () → i.headIs n.val e →
      ∀ T A, T = i.memTimes (readRegs [pairN a]) a m.off (memBytes ty) → A = i.memAddr (readRegs [pairN a]) a m.off (memBytes ty) →
      (∀ p ∈ i.onByAge, i.accessFault permW (plainApers false) (memBytes ty) (A p) = none) →
      s.unwatched i i.storeKinds (memBytes ty) A →
      ((∃ p ∈ i.onByAge, i.isGlobal (A p) = true) → ∃ num, i.slotFree m.cq.toNat (64 * memBytes ty) num) →
      ∃ ws g extra, StoreWrites i T a A (fun p => (e.getD p 0#32).toNat) ws ∧
        StoreIssue s i (.st k ty a (.dq n) m) m (memBytes ty) 1 A ws g ∧
        exec (.st k ty a (.dq n) m) s = .next (((s.popQueue i.ti (i.queueIx n.val)).countRounds i.ci extra).finish i i.g g
          (readRegs [pairN a]) extra (i.globalRecs A) (chipLats.map fun l => ⟨l, i.countLat A l, []⟩) i.advance)

/-- O25. barwait, twait, tfirst, bcwait and yield pass at once or block their run (15_synchronisation_instructions.md
R328, 15_synchronisation_instructions.md R332, 15_synchronisation_instructions.md R333,
15_synchronisation_instructions.md R334, 15_synchronisation_instructions.md R335). The model's choice: a uniform
source is read in the ck of the last pass (log entry 88, DEDUCED). -/
def Obligations.WaitsComplete : Prop :=
  ∀ x F, waitForm x = some F → F.Completes x

/-- O26. bar and bararr; a phase completes when every group that has not exited has arrived
(15_synchronisation_instructions.md R326, 15_synchronisation_instructions.md R327, 15_synchronisation_instructions.md
R323, 15_synchronisation_instructions.md R324, 15_synchronisation_instructions.md R325). The model's choice: a
departure acquires at device scope (log entry 33, DEDUCED). -/
def Obligations.Barriers : Prop :=
  (∀ k (n scope : BitVec 3) s i, s.iss k = some i → i.trial = false → i.g.serves = none →
      (i.on = [] → exec (.bar k n scope) s = .next (s.passRun i [])) ∧
      (i.on ≠ [] → ∀ c s1, c = Cond.bar n.toNat (i.barrier n.toNat).phase scope.toNat →
        s1 = ((s.blockRun i c none 0#32).autoArrive i.gi).sweepBarriers i.ti →
        (s1.phaseOf i.ti n.toNat = s.phaseOf i.ti n.toNat → exec (.bar k n scope) s = .next s1) ∧
        (s1.phaseOf i.ti n.toNat ≠ s.phaseOf i.ti n.toNat →
          exec (.bar k n scope) s = .next { s.passAt i c [] with teams := s1.teams })) ∧
      ∀ d, i.check [⟨d, [.s, .zr], 1, 0⟩] = .ok () →
        (i.on = [] → exec (.bararr k d n scope) s = .next (s.passRun i [])) ∧
        (i.on ≠ [] → ∀ s1 : State, s1 = ((s.passRun i (i.sWrite d (i.barrier n.toNat).phase)).modGroup i.gi fun g =>
            g.release scope.toNat (s.ord + 1) i.kern.paired) →
          exec (.bararr k d n scope) s = .next ((s1.arrive i.ti n.toNat i.g.g scope.toNat s1.ord).sweepBarriers i.ti))) ∧
  (∀ (s : State) ti paired (b : Barrier) (done : Prop),
      (done ↔ s.liveGroups ti ≠ [] ∧ (∀ g ∈ s.liveGroups ti, g.g ∈ b.marks) ∧
        ∀ h ∈ b.held, ∀ g ∈ s.liveGroups ti, g.g = h.1 → g.earlierDone fenceRel h.2.1 paired h.2.2 = true) →
      (done → s.sweepBarrier ti paired b = ⟨b.phase + 1#32, [], []⟩) ∧
      (¬done → (s.sweepBarrier ti paired b).phase = b.phase ∧ (s.sweepBarrier ti paired b).marks = b.marks))

/-- O27. fence, aliasfence and qfence: pass at once, or hold the group until its earlier operations are performed
(15_synchronisation_instructions.md R329, 15_synchronisation_instructions.md R330, 15_synchronisation_instructions.md
R331). -/
def Obligations.FencesComplete : Prop :=
  ∀ k (kind : BitVec 2) (scope : BitVec 3) s i, s.iss k = some i → i.trial = false →
      let done (g : Group) : Host.Outcome State Fault Refusal := .next (s.finish i i.g g [] 0 0 [⟨1, i.run.length, []⟩] i.advance)
      let held (kd : Nat) (g : Group) : Host.Outcome State Fault Refusal := .next (s.finish i i.g
        { g with fences := g.fences ++ [⟨kd, scope.toNat, s.ord + 1, k.sig.toNat, i.run.length⟩] } [] 0 i.run.length [] i.advance)
      (i.on = [] → exec (.fence k kind scope) s = done i.g ∧ exec (.aliasfence k scope) s = done i.g ∧ exec (.qfence k scope) s = done i.g) ∧
      (i.on ≠ [] →
        (i.g.earlierDone kind.toNat scope.toNat i.kern.paired (s.ord + 1) = true → exec (.fence k kind scope) s = done i.g) ∧
        (i.g.earlierDone kind.toNat scope.toNat i.kern.paired (s.ord + 1) = false → exec (.fence k kind scope) s = held kind.toNat i.g) ∧
        (i.g.earlierDone 0 scope.toNat i.kern.paired (s.ord + 1) = true →
          exec (.aliasfence k scope) s = done { i.g with aliasOrd := s.ord + 1 }) ∧
        (i.g.earlierDone 0 scope.toNat i.kern.paired (s.ord + 1) = false →
          exec (.aliasfence k scope) s = held 0 { i.g with aliasOrd := s.ord + 1 }) ∧
        exec (.qfence k scope) s = done { i.g with marks := i.g.marks ++ [⟨s.ord + 1, scope.toNat⟩] })

/-- O28. task submits one record for the run, taskwait and stepwait answer or block (04_tasks_and_placement.md R64,
04_tasks_and_placement.md R74, 17_power_phases.md R351). The model's choice: a uniform source is read in the ck of the
last pass (log entry 88, DEDUCED). -/
def Obligations.TaskInstructionsComplete : Prop :=
  ∀ k d a s i, s.iss k = some i → i.g.serves = none → i.check [⟨d, [.s, .zr], 1, 0⟩] = .ok () →
      (i.check [⟨d, [.s, .zr], 1, 0⟩, ⟨a, [.s, .zr], 2, 2⟩] = .ok () →
        (i.on = [] → exec (.task k d a) s = .next (s.passRun i [])) ∧
        (i.on ≠ [] → s.entriesHeld i.ci + ((s.groups.filter fun g => g.ctx == i.ci && g.stat != .ended).map fun g => g.submit.length).sum <
            i.ctx.quota →
          exec (.task k d a) s = .next (s.finish i i.g
            { i.g with submit := i.g.submit ++ [⟨i.upair a, k.sig.toNat, i.run.length, i.sDst d, k.hold.toNat, i.on, s.ord + 1⟩] } [] 0 i.run.length [] i.advance))) ∧
      (i.check [⟨d, [.s, .zr], 1, 0⟩, ⟨a, [.s, .zr], 1, 1⟩] = .ok () →
        (i.on = [] → exec (.taskwait k d a false) s = .next (s.passRun i [])) ∧
        (i.on ≠ [] → (i.uword a).getLsbD 31 = true → exec (.taskwait k d a false) s = .next (s.passRun i (i.sWrite d 3#32))) ∧
        (i.on ≠ [] → (i.uword a).getLsbD 31 = false → serialAhead ((i.uword a).toNat % 2 ^ 30) i.ctx.serial = true →
          exec (.taskwait k d a false) s = .next (s.passRun i (i.sWrite d 1#32))) ∧
        (i.on ≠ [] → (i.uword a).getLsbD 31 = false → serialAhead ((i.uword a).toNat % 2 ^ 30) i.ctx.serial = false →
          (s.taskIndex i.ci ((i.uword a).toNat % 2 ^ 30) = none ∨ ∃ m, s.taskIndex i.ci ((i.uword a).toNat % 2 ^ 30) = some m ∧
            s.waitsOn i.t.task (m + 1) m = false ∧ s.taskCommitted i.ci ((i.uword a).toNat % 2 ^ 30) = true) →
          exec (.taskwait k d a false) s =
            .next ((s.passRun i (i.sWrite d 0#32)).modGroup i.gi fun g => g.acquire (s.passRun i (i.sWrite d 0#32)).ord)) ∧
        (∀ m, i.on ≠ [] → (i.uword a).getLsbD 31 = false → serialAhead ((i.uword a).toNat % 2 ^ 30) i.ctx.serial = false →
          s.taskIndex i.ci ((i.uword a).toNat % 2 ^ 30) = some m → s.waitsOn i.t.task (m + 1) m = true →
          exec (.taskwait k d a false) s = .next (s.passRun i (i.sWrite d 2#32))) ∧
        (∀ m, i.on ≠ [] → (i.uword a).getLsbD 31 = false → serialAhead ((i.uword a).toNat % 2 ^ 30) i.ctx.serial = false →
          s.taskIndex i.ci ((i.uword a).toNat % 2 ^ 30) = some m → s.waitsOn i.t.task (m + 1) m = false →
          s.taskCommitted i.ci ((i.uword a).toNat % 2 ^ 30) = false →
          exec (.taskwait k d a false) s = .next (s.blockRun i (.task ((i.uword a).toNat % 2 ^ 30)) (i.sDst d) 0#32))) ∧
      (i.on = [] → exec (.taskwait k d a true) s = .next (s.passRun i []) ∧ exec (.stepwait k d) s = .next (s.passRun i [])) ∧
      (i.on ≠ [] → s.otherTasks i = [] → exec (.taskwait k d a true) s =
        .next ((s.passRun i (i.sWrite d 0#32)).modGroup i.gi fun g => g.acquire (s.passRun i (i.sWrite d 0#32)).ord)) ∧
      (i.on ≠ [] → s.otherTasks i ≠ [] → (∀ m ∈ s.otherTasks i, s.waitsOn i.t.task (m + 1) m = false) →
        exec (.taskwait k d a true) s = .next (s.blockRun i (.tasks ((s.otherTasks i).map s.serialOf)) (i.sDst d) 0#32)) ∧
      (i.on ≠ [] → (∃ m ∈ s.otherTasks i, s.waitsOn i.t.task (m + 1) m = true) →
        exec (.taskwait k d a true) s = .next (s.passRun i (i.sWrite d 2#32))) ∧
      (i.on ≠ [] → stepPeriod s.stepCfg = 0 → exec (.stepwait k d) s = .next (s.passRun i (i.sWrite d 0xFFFFFFFF#32))) ∧
      (i.on ≠ [] → stepPeriod s.stepCfg ≠ 0 →
        ∀ n, s.devTime + s.ckRest i.g.core < n * stepPeriod s.stepCfg + stepOffset s.stepCfg →
          (∀ m < n, m * stepPeriod s.stepCfg + stepOffset s.stepCfg ≤ s.devTime + s.ckRest i.g.core) → exec (.stepwait k d) s =
        .next (s.blockRun i (.release (n * stepPeriod s.stepCfg + stepOffset s.stepCfg)) (i.sDst d) (w32 n)))

/-- O29. pref, phase, phend and unassigned hint opcodes complete; another unassigned opcode traps (03_instruction_words.md
R58, 11_data_movement_instructions.md R246, 17_power_phases.md R341, 17_power_phases.md R344, 03_instruction_words.md
R56). The model's choice: a uniform source is read in the ck of the last pass (log entry 88, DEDUCED); RECORD of a
trap word numbers the records as they stood before the issue would merge them (log entry 21, DEDUCED). -/
def Obligations.HintsAndUnassignedOpcodes : Prop :=
  (∀ k f s i, s.iss k = some i → i.trial = false →
      let done (s : State) (g : Group) : Host.Outcome State Fault Refusal := .next (s.finish i i.g g [] 0 0 [⟨1, i.run.length, []⟩] i.advance)
      (prefOk f = false ∨ i.on = [] → exec (.pref k f) s = done s i.g) ∧
      (prefOk f = true → i.on ≠ [] → ∀ va, va = (i.upair (Opnd.ofCode f.a)).toNat →
        exec (.pref k f) s = done (s.fillL2 (coreCluster i.g.core)
          (s.prefPages i.ci i.ctx (va / 2 ^ 56) (2 ^ (f.imm >>> 16).toNat) (va % 2 ^ 56))) i.g) ∧
      (f.dst = 0xFF#8 ∧ f.a = 0#8 ∧ f.b = 0#8 ∧ f.c = 0#8 ∧ f.md = 0#6 ∧ f.imm = 0#20 → i.on ≠ [] →
        exec (.phend k f) s = done s { i.g with phase := none }) ∧
      (¬(f.dst = 0xFF#8 ∧ f.a = 0#8 ∧ f.b = 0#8 ∧ f.c = 0#8 ∧ f.md = 0#6 ∧ f.imm = 0#20) ∨ i.on = [] → exec (.phend k f) s = done s i.g) ∧
      ∀ w F, F = uForm k [] (hintDst f) 1 1 1 (fun _ _ _ => w) →
        (phaseOk f = false ∨ i.g.serves.isSome = true → w = (f.imm.setWidth 16).setWidth 32 →
          ∃ v', F.Delivers i v' ∧ exec (.phase k f) s = .next (s.finishValues i [] 1 1 v')) ∧
        (phaseOk f = true → i.g.serves = none → (i.on = [] ∨ s.grantedAfter i.g = false) →
          ∀ o, o = grantOffset (s.schedule i.g.core i.gi) (i.now + f.a.toNat) (phaseInt f) →
          w = w32 o → ∃ v', F.Delivers i v' ∧ exec (.phase k f) s = .next (s.finishValues i [] 1 1
            (if i.on = [] then v' else { v' with g := { v'.g with
              phase := some (newPhase i.now f.a.toNat (phaseLen f) (phaseInt f) o) } })))) ∧
  (∀ (w : IWord) s i, s.iss (Fields.unpack w).k = some i →
      (isHintOp (Fields.unpack w).op = true → i.trial = false → ∃ v, (uForm (Fields.unpack w).k [] (hintDst (hintOf w)) 1 1 1 fun _ _ _ =>
          ((Fields.unpack w).imm.setWidth 16).setWidth 32).Delivers i v ∧
        exec (.unassignedOpcode w) s = .next (s.finishValues i [] 1 1 v)) ∧
      (isHintOp (Fields.unpack w).op = false →
        exec (.unassignedOpcode w) s = .next (s.takeTrap i.gi ⟨0x01, 4, 0#32, i.trapRecord none, false⟩ i.pc)))

/-- O30. Scaling, accumulator handling, coefficients and mpoly put their results in flight (13_matrix_instructions.md
R271, 13_matrix_instructions.md R279, 13_matrix_instructions.md R280, 13_matrix_instructions.md R281,
13_matrix_instructions.md R282, 13_matrix_instructions.md R284, 13_matrix_instructions.md R285,
13_matrix_instructions.md R286, 13_matrix_instructions.md R287). The model's choice: operands and tiles are read at
issue (log entry 41, DEDUCED); the ck that mpoly occupies come of Config.stretch (log entry 4, DESIGN CHOICE); a
uniform source is read in the ck of the last pass (log entry 88, DEDUCED). -/
def Obligations.TileInstructionsComplete : Prop :=
  ∀ x F, tileForm x = some F → F.Completes x

/-- O31. qenc, qdec, kqsc and mloopget deliver their values later; the kq4 code is that of a nearest level
(13_matrix_instructions.md R289, 13_matrix_instructions.md R295, 13_matrix_instructions.md R296,
13_matrix_instructions.md R297, 08_number_formats.md R164). The model's choice: sources are read at issue (log entry
41, DEDUCED). -/
def Obligations.Quantisation : Prop :=
  (∀ x F, laterForm x = some F → F.1.CompletesLater F.2 x) ∧
  ((∀ (neg : Bool) (n d c : Nat), 0 < d → c < 16 →
        let level (c : Nat) : Int := if c < 8 then -((kq4Levels.getD (7 - c) 0 : Nat) : Int) else ((kq4Levels.getD (c - 8) 0 : Nat) : Int)
        kq4Code (.fin neg n d) < 16 ∧
        (512 * sgn neg n - level (kq4Code (.fin neg n d)) * d).natAbs ≤ (512 * sgn neg n - level c * d).natAbs) ∧
    kq4Code .nan = 8 ∧ kq4Code (.inf true) = 0 ∧ kq4Code (.inf false) = 15)

/-- O32. mma and mmasp put one piece of work in flight for each pass of the run (13_matrix_instructions.md R273,
13_matrix_instructions.md R275, 13_matrix_instructions.md R277, 12_matrix_and_ragged_model.md R248,
12_matrix_and_ragged_model.md R249, 12_matrix_and_ragged_model.md R251, 12_matrix_and_ragged_model.md R257). The
model's choice: operands and tiles are read at issue (log entry 41, DEDUCED); occupancy comes of Config.stretch (log
entry 4, DESIGN CHOICE); the rounds of a pass are those of its A rows (log entry 67, DEDUCED); RECORD of a trap word
numbers the records as they stood before the issue would merge them (log entry 21, DEDUCED). -/
def Obligations.QuarterInstructionsComplete : Prop :=
  ∀ x k q s i, quadOf x = some (k, q) → s.iss k = some i → s.quadCheck i q = .ok () →
      let X : BitVec 640 := if q.role = 0 ∨ q.six = true then 0#640 else s.shape i.g i.t (opNum q.c)
      s.quadAccess i q X = .ok () →
      ((∀ r ∈ i.run, i.wholeQuarters r = true) → s.unwatchedAll i (i.quadWatch q X) →
        (∀ r ∈ i.actRecs, (s.columns i q r).isSome = true) →
        let passes := i.quadPasses q
        let rounds := (passes.map (i.passRounds q X)).sum
        let works := passes.mapIdx fun j u => i.workOf (s.ord + 1)
          (u.recs.filter fun r => ((i.onIn r).all fun p => decide (p < 32) || u.upper) && !(u.onIn i r).isEmpty).length
          (u.recs.flatMap fun r => (u.onIn i r).flatMap fun p => (List.range 32).map fun c =>
            (i.seat.accs.getD (opNum q.d + p / 32) 0, 32 * (p % 32) + c, s.quadElem i q X ((s.columns i q r).getD []) p c)) [] []
          (slicesOf (u.on i)) (occupancy (q.ck + i.passRounds q X u) (s.freeCtr + j))
        let fetches := (i.fetched q X).flatMap (fun p => q.aRow (i.planes q p) (i.aAddr q p)) ++
          (if q.fedB = true ∨ q.remb = true then [] else i.actRecs.flatMap (i.bStretches q))
        let t := (((s.touchOperands i fetches).countRounds i.ci rounds).spendFree passes.length).finishWork i i.g (readRegs q.needs)
          (i.run.length - i.actRecs.length) works
        exec x s = .next (if q.role = 0 then t else t.sawShape i.gi (opNum q.c) (s.shapeIdx i.g i.t (opNum q.c)))) ∧
      ∀ r, (i.run.find? fun r => !i.wholeQuarters r) = some r →
        exec x s = .next (s.takeTrap i.gi ⟨0x05, 0, 0#32, i.trapRecord (some r.b), false⟩ i.pc)

/-- O33. shpset, shpget, shpfence, rred and rnorm complete (13_matrix_instructions.md R290, 13_matrix_instructions.md
R291, 13_matrix_instructions.md R292, 12_matrix_and_ragged_model.md R262, 13_matrix_instructions.md R293,
13_matrix_instructions.md R294, 12_matrix_and_ragged_model.md R261). The model's choice: a uniform source is read in
the ck of the last pass (log entry 88, DEDUCED); operands and tiles are read at issue (log entry 41, DEDUCED); a
uniform source is read in the ck of the last pass (log entry 88, DEDUCED). -/
def Obligations.ShapesAndRaggedWork : Prop :=
  (∀ k s i, s.iss k = some i →
      (∀ d a, i.check [⟨d, [.shp], 1, 0⟩, pairN a] = .ok () → i.uniformRun true a →
        (i.on = [] → exec (.shpset k d a) s = .next (s.passRun i [])) ∧
        (i.on ≠ [] → i.spanOk permR [.spad] 80 (i.upair a) → 16 ∣ (i.upair a).toNat →
          i.g.atomPending (i.placeOf (i.upair a) 0) 80 (s.ord + 1) = false →
          shpValid (BitVec.ofNat 640 (leNat (s.ownBytes i (i.upair a) 80))) = true →
          exec (.shpset k d a) s = .next ((s.passRun i []).storeShape i (opNum d)
            (BitVec.ofNat 640 (leNat (s.ownBytes i (i.upair a) 80)))))) ∧
      (∀ a b, i.check [pairN a, ⟨b, [.shp], 1, 0⟩] = .ok () → i.uniformRun true a →
        (i.on = [] → exec (.shpget k a b) s = .next (s.passRun i [])) ∧
        (i.on ≠ [] → i.spanOk permW [.spad] 80 (i.upair a) → 16 ∣ (i.upair a).toNat →
          let at_ := i.placeOf (i.upair a) 0
          exec (.shpget k a b) s = .next ((s.finishWork i i.g (readRegs [pairN a, ⟨b, [.shp], 1, 0⟩]) 0
            [i.workOf (s.ord + 1) i.run.length [] (((List.range 80).map fun o => ({ at_ with off := at_.off + o } : Place)).zip
              (leBytes 80 (s.shape i.g i.t (opNum b)).toNat)) [] 0 0]).sawShape i.gi (opNum b) (s.shapeIdx i.g i.t (opNum b))))) ∧
      (i.check [] = .ok () → i.on = [] → exec (.shpfence k) s = .next (s.passRun i [])) ∧
      (i.check [] = .ok () → i.on ≠ [] → exec (.shpfence k) s = .next ((s.passRun i []).modGroup i.gi fun g =>
        { g with shpSeen := spSetAll 0 g.shpSeen (i.t.shps.mapIdx fun n vs => (n, vs.length - 1)) })) ∧
      ∀ (g : Group) n vs, sparseWf 0 0 g.shpSeen = true → i.t.shps[n]? = some vs →
        spGet 0 (spSetAll 0 g.shpSeen (i.t.shps.mapIdx fun n vs => (n, vs.length - 1))) n = vs.length - 1) ∧
  ((∀ k op win d a b c s i, s.iss k = some i →
      let ns : List Need := [accN d, accN a, ⟨b, [.shp], 1, 0⟩] ++ (if win then [⟨c, [.s, .zr], 1, 1⟩] else [])
      i.check ns = .ok () → (win = true → i.uniformRun false c) →
      (i.on = [] → exec (.rred k op win d a b c) s = .next (s.passRun i [])) ∧
      (∀ curds, i.on ≠ [] → rredCurds (s.shape i.g i.t (opNum b)) (if win then some (i.uword c) else none) = .ok curds →
        let cols := shpCols (s.shape i.g i.t (opNum b))
        s.unwatchedAll i (curds.flatMap fun j => (List.range 32).map fun q =>
          (i.actPos, watchAcc, tileAddr (opNum d) (packedElem cols j.1 q), 4)) →
        exec (.rred k op win d a b c) s = .next ((s.finishWork i i.g (readRegs ns) 0
          [i.workOf (s.ord + 1) i.run.length (curds.flatMap fun j => (List.range 32).map fun q =>
            (i.seat.accs.getD (opNum d) 0, packedElem cols j.1 q,
              rredOver op.toNat ((upto j.2.1 j.2.2).map fun p => s.tile i (opNum a) (packedElem cols p q)))) [] [] 0 0]).sawShape
                i.gi (opNum b) (s.shapeIdx i.g i.t (opNum b))))) ∧
    ∀ k mode fs a b c s i, s.iss k = some i → i.check [pairN a, ⟨b, [.shp], 1, 0⟩, src1 c] = .ok () → fs.toNat ≤ 1024 →
      i.uniformRun true a → i.uniformRun false c →
      (i.on = [] → exec (.rnorm k mode fs a b c) s = .next (s.passRun i [])) ∧
      (∀ ty, i.on ≠ [] → shpCols (s.shape i.g i.t (opNum b)) = false → rnormTy (shpFmt (s.shape i.g i.t (opNum b))) = some ty →
        0 < fs.toNat → fs.toNat * accWidth ty ≤ shpPitch (s.shape i.g i.t (opNum b)) →
        (∀ p ∈ (curdRows (s.shape i.g i.t (opNum b))).flatten, i.rowCheck fs.toNat (accWidth ty)
          (i.upair a + BitVec.ofNat 64 (p * shpPitch (s.shape i.g i.t (opNum b)))) = none) →
        exec (.rnorm k mode fs a b c) s = .next ((s.finishWork i i.g (readRegs [pairN a, ⟨b, [.shp], 1, 0⟩, src1 c]) 0
          [i.workOf (s.ord + 1) i.run.length [] (s.rnormBytes i mode.toNat fs.toNat (i.upair a) (i.uword c)
            (s.shape i.g i.t (opNum b)) ty) [] 0 0]).sawShape i.gi (opNum b) (s.shapeIdx i.g i.t (opNum b)))))

/-- O34. accpeek, mloopset and miter: an element per position, the loop word, a loop that starts
(13_matrix_instructions.md R283, 13_matrix_instructions.md R288, 13_matrix_instructions.md R289,
12_matrix_and_ragged_model.md R269). The model's choice: the element is read at issue (log entry 41, DEDUCED); an
iteration occupies ck by Config.stretch (log entry 4, DESIGN CHOICE); a uniform source is read in the ck of the last
pass (log entry 88, DEDUCED). -/
def Obligations.LoopInstructionsComplete : Prop :=
  (∀ k d a b s i F, F = ({ k := k, ns := [dstVS d, accN a, src1 b], d := d, words := 1, lr := 1, ll := 1, val := fun i _ p _ => s.tile i (opNum a) (i.g.word b p).toNat, uni := fun i _ r _ => i.g.srcCls false r (.op b) == .u } : ValueForm) →
      s.iss k = some i → i.check F.ns = .ok () → F.sOk i → (∀ p ∈ i.onByAge, (i.g.word b p).toNat < 1024) →
      s.unwatchedAll i (i.on.map fun p => (p, watchRead, tileAddr (opNum a) (i.g.word b p).toNat, 4)) →
      i.g.sound = true → ∃ v, F.Delivers i v ∧ exec (.accpeek k d a b) s = .next (s.finishLater i F.ns v)) ∧
    (∀ k a s i, s.iss k = some i → i.check [⟨a, [.v, .s, .zr], 2, 2⟩] = .ok () → i.uniformRun true a →
      (i.on = [] → exec (.mloopset k a) s = .next (s.passRun i [])) ∧
      (i.on ≠ [] → (Mls.of i.g.mls).phase ≠ 1 → mlsOk (i.upair a) = true → exec (.mloopset k a) s =
        .next (s.finishWork i { i.g with mls := i.upair a } (readRegs [⟨a, [.v, .s, .zr], 2, 2⟩]) 0
          [i.workOf (s.ord + 1) i.run.length [] [] [] 0 0]))) ∧
    (∀ k d s i, s.iss k = some i → i.check [dstVS d 2] = .ok () → i.on = [] →
      exec (.mloopget k d) s = .next (s.passRun i [])) ∧
    ∀ k size cap d a b c s i m, s.iss k = some i → i.g.serves = none → i.check [predN d, accN a, accN b, accN c] = .ok () →
      opNum a ≠ opNum b → opNum a ≠ opNum c → opNum b ≠ opNum c → cap ≠ 0#8 → size ≠ 3#2 → 8 ≤ i.kern.coef → m = Mls.of i.g.mls →
      (i.on = [] → exec (.miter k size cap d a b c) s = .next (s.passRun i [])) ∧
      (i.on ≠ [] → m.phase ≠ 1 → s.unwatchedAll i (i.loopWatch (opNum a) (opNum b) (opNum c) (8 * 2 ^ size.toNat)) →
        ∀ m1 : Mls, m1 = (if m.phase = 2 ∧ m.count ≠ 0 ∧ m.nsz = size.toNat then m
          else { m with count := 0, rise := 0, res := 0#32, nsz := size.toNat }) →
        (m1.count < cap.toNat → exec (.miter k size cap d a b c) s = .next (((s.spendFree 1).blockRun i .loopEnd none 0#32).modGroup i.gi fun g =>
          { g with mls := { m1 with phase := 1 }.bits, loop := some ⟨s.ord + 1, opNum a, opNum b, opNum c, 8 * 2 ^ size.toNat, cap.toNat,
            (List.range 8).map (spGet 0#32 i.g.c), if k.nwb then 7 else predNum d, maskOf i.on, false,
            occupancy 1 s.freeCtr⟩ })) ∧
        (cap.toNat ≤ m1.count → exec (.miter k size cap d a b c) s =
          .next (s.finish i i.g { i.g with mls := { m1 with done := m1.count, count := 0, phase := 0, status := 2 }.bits } [] 0 0
            [⟨1, i.run.length, if k.nwb then [] else [.p (predNum d) (maskOf i.on) 0#64]⟩] i.advance)))

/-- O35. Taking a trap: the group freezes with word, PC and AUX, its registers stand, the class decides the route (R356). -/
def Obligations.TrapEntry : Prop :=
  ∀ (s : State) gi t pc g c vec mask, s.groups[gi]? = some g → s.contexts[g.ctx]? = some c →
      ((∀ w ∈ c.sysWas, ¬s.justWritten gi g w) ∧ vec = c.trapVec ∧ mask = c.trapMask ∨
        ∃ early w rest, c.sysWas = early ++ w :: rest ∧ (∀ v ∈ early ++ [w], s.justWritten gi g v) ∧
          (∀ v ∈ rest, ¬s.justWritten gi g v) ∧ vec = w.2.2.1 ∧ mask = w.2.2.2) →
      TrapFrame s (s.takeTrap gi t pc) gi g.ctx ∧
      (∃ g' tr, (s.takeTrap gi t pc).groups[gi]? = some g' ∧ g'.trap = some tr ∧ g'.stat = .frozen ∧
        tr.word = BitVec.ofNat 32 (t.cls % 256 * 2 ^ 24 + t.cause % 256 * 2 ^ 16 + t.record % 128 * 2 ^ 8) ∧ tr.pc = pc ∧ tr.aux = t.aux ∧
        tr.step = 0#32 ∧ tr.route = (if g.serves.isSome then .kernel else c.routeSpec vec mask t.cls t.bind) ∧ tr.vec = vec ∧
        g'.lanes = g.lanes ∧ g'.p = g.p ∧ g'.s = g.s ∧ g'.bc = g.bc ∧ g'.cf = g.cf ∧ g'.c = g.c ∧ g'.mls = g.mls ∧ g'.sr = g.sr ∧
        g'.storeq = g.storeq ∧ g'.oplog = g.oplog ∧ g'.wb = g.wb ∧ g'.work = g.work ∧ g'.windows = [] ∧ g'.latches = [] ∧ g'.phase = none ∧
        g'.recs.map (fun r => (r.lane, r.b, r.s, r.n, r.forms)) = g.recs.map fun r => (r.lane, r.b, r.s, r.n, r.forms)) ∧
      (∃ c', (s.takeTrap gi t pc).contexts[g.ctx]? = some c' ∧ c.sameButStatus c' ∧
        (c.stat = .live → c'.stat = if c.debugger = false ∧ ((g.serves.isSome = true) ∨
          (g.serves = none ∧ t.cls ≠ 0x0F ∧ t.bind = false ∧ c.routeSpec vec mask t.cls t.bind = .kernel)) then .stopped else .live))

/-- O36. trap and bkpt issue, then freeze their group; trap.bind runs the binder (18_traps_faults_preemption.md R362). The
model's choice: a trap taken after its issue names the merged records (log entry 21, DEDUCED), and its issue counts
against open hold windows (log entry 64, DESIGN CHOICE). -/
def Obligations.TrapInstructionsComplete : Prop :=
  ∀ k n s i, s.iss k = some i → i.trial = false →
      (i.on = [] → exec (.trap k n false) s = .next (s.passRun i []) ∧ exec (.trap k n true) s = .next (s.passRun i []) ∧
        exec (.bkpt k n) s = .next (s.passRun i [])) ∧
      (i.on ≠ [] → ∀ t : State, t = s.finish { i with g0 := { i.g0 with step := none } } i.g i.g [] 0 0 [⟨1, i.run.length, []⟩] i.advance →
        ∀ j, j = (i.g.recs.findIdx? i.inRun).getD 0 →
        exec (.trap k n false) s = .next (t.takeTrap i.gi ⟨0x0D, 0, w32 n.toNat, j, false⟩ i.pc) ∧
        exec (.bkpt k n) s = .next (t.takeTrap i.gi ⟨0x0B, 0, w32 n.toNat, j, false⟩ i.pc) ∧
        exec (.trap k n true) s = .next ((t.takeTrap i.gi ⟨0x0D, 0, w32 n.toNat, j, true⟩ i.pc).runBinder i.gi
          i.sel i.pc n.toNat))

/-- O37. tret: the refusal codes of an edited state, and what an accepted one does (18_traps_faults_preemption.md R366,
18_traps_faults_preemption.md R360, 05_range_threads.md R107). The model's choice: tret waits for the accesses of the
handler and matrix work (log entry 40, DEDUCED); the s of a record with n = 1 reads as 1 and is not judged (log entry
77, DEDUCED). -/
def Obligations.ReturnFromTraps : Prop :=
  (∀ k d (action : BitVec 2) s i gi g, s.iss k = some i → i.g.serves = some gi → s.groups[gi]? = some g →
      i.check [⟨d, [.s, .zr], 1, 0⟩] = .ok () →
      (i.on = [] → exec (.tret k d action) s = .next (s.passRun i [])) ∧
      (∀ code, i.on ≠ [] → s.tretCheck g = some code → exec (.tret k d action) s = .next (s.passRun i (i.sWrite d (w32 code)))) ∧
      (i.on ≠ [] → s.tretCheck g = none → i.g.earlierDone fenceRel 4 i.kern.paired (s.ord + 1) = false ∨ i.g.work ≠ [] →
        exec (.tret k d action) s = .next (s.modGroup i.gi fun g => { g with retryAt := i.now + 1 })) ∧
      (i.on ≠ [] → s.tretCheck g = none → i.g.earlierDone fenceRel 4 i.kern.paired (s.ord + 1) = true → i.g.work = [] →
        ∃ t : State, t = (s.passRun i (i.sWrite d 0#32)).endHandler i.gi i.g.core ∧
          ∀ h, t.groups[gi]? = some h →
            (h.stat ≠ .frozen → exec (.tret k d action) s = .next t) ∧
            (h.stat = .frozen → (action = 0#2 → exec (.tret k d action) s = .next (t.goOn gi false)) ∧
            (action = 1#2 → exec (.tret k d action) s = .next (t.goOn gi true)) ∧
            (action = 2#2 → exec (.tret k d action) s = .next (t.askAbort h.team)) ∧
            (action = 3#2 → exec (.tret k d action) s = .next (t.stopContext h.ctx "handler stop"))))) ∧
  (∀ (s : State) (g : Group),
      let apart : Prop := g.recs.Pairwise fun r q => ∀ p ∈ r.positions, p ∉ q.positions
      let low : Prop := ∀ p ∈ allPositions g.recs, p < g.width
      let good : Prop := ∀ r ∈ g.recs, r.lane = false → r.n = 1 ∨ 1 < r.n ∧ r.s ≠ 0 ∧ r.s < g.width
      let legal : Prop := ∀ r ∈ g.recs, r.pc.toNat % 64 ∈ [0, 12, 24, 36, 48]
      let room : Prop := g.serves = none → g.rangeCount ≤ g.guarantee + (64 - (s.poolUsed g.core - (g.rangeCount - g.guarantee)))
      let kinds : Prop := ∀ r ∈ g.recs, ∀ e ∈ r.forms, if r.lane = true then e.2.cls ≠ .a else e.2.cls ≠ .l
      (¬apart → s.tretCheck g = some 1) ∧
      (apart → ¬low → s.tretCheck g = some 2) ∧
      (apart → low → ¬good → s.tretCheck g = some 3) ∧
      (apart → low → good → ¬legal → s.tretCheck g = some 4) ∧
      (apart → low → good → legal → ¬room → s.tretCheck g = some 5) ∧
      (apart → low → good → legal → room → ¬kinds → s.tretCheck g = some 6) ∧
      (apart → low → good → legal → room → kinds → s.tretCheck g = none))

/-- O38. traprd reads an item of the trapped group, trapwr writes one (18_traps_faults_preemption.md R363,
18_traps_faults_preemption.md R364). The model's choice: a flag that a run has taken past 63 reads as 63 (log entry
71, DESIGN CHOICE); a uniform source is read in the ck of the last pass (log entry 88, DEDUCED). -/
def Obligations.TrapStateInstructionsComplete : Prop :=
  (∀ k d a s i gi F, F = ({ k := k, ns := [dstVS d, uReg a], d := d, words := 1, lr := 1, ll := 1, val := fun i _ _ _ => s.trapRead gi (i.uword a), uni := allUni } : ValueForm) →
      s.iss k = some i → i.g.serves = some gi → i.check F.ns = .ok () → i.uniformRun false a →
      ∃ v, F.Delivers i v ∧ exec (.traprd k d a) s = .next (s.finishValues i F.ns 1 1 v)) ∧
    (∀ k a b s i gi, s.iss k = some i → i.g.serves = some gi → i.check [uReg a, uReg b] = .ok () → i.uniformRun false a →
      i.uniformRun false b → exec (.trapwr k a b) s = .next ((if i.on = [] then s else s.modGroup gi fun g =>
        if g.underHandler then g.trapWrite (i.uword a) (i.uword b) else g).passRun i [])) ∧
    ∀ (s : State) gi g (t : TrapState), s.groups[gi]? = some g → g.trap = some t →
      s.trapRead gi 0#32 = t.word ∧ s.trapRead gi 1#32 = t.pc.setWidth 32 ∧ s.trapRead gi 2#32 = (t.pc >>> 32).setWidth 32 ∧
      s.trapRead gi 3#32 = t.aux ∧ s.trapRead gi 4#32 = t.step ∧ s.trapRead gi 0x10000007#32 = w32 g.recs.length ∧
      (∀ n < 12, s.trapRead gi (BitVec.ofNat 32 (0x60000000 + n)) = w32 (Nat.min 63 (spGet 0 g.cf n))) ∧
      s.trapRead gi 0x6000000E#32 = g.sr ∧ s.trapRead gi 0x6000000F#32 = w32 g.strag ∧ s.trapRead gi 0x60000010#32 = w32 g.width ∧
      (∀ n < 56, s.trapRead gi (BitVec.ofNat 32 (0x40000040 + n)) = spGet 0#32 g.s n) ∧
      (∀ n k, n < 64 → k < 64 → s.trapRead gi (BitVec.ofNat 32 (0x30000000 + 256 * k + n)) = g.vAt n k)

/-- O39. A group that resumes is live with its values; a single-stepped one freezes after its one instruction
(18_traps_faults_preemption.md R365, 05_range_threads.md R107). The model's choice: the straggler mark goes to the
head PC (log entry 74, DEDUCED). -/
def Obligations.ResumeAndSingleStep : Prop :=
  (∀ (g : Group) pass, (g.resume pass).stat = .live ∧ (g.resume pass).trap = none ∧ (g.resume pass).strag = 0 ∧
      (∀ a, (g.resume pass).headPc = some a → (g.resume pass).mark = a) ∧
      (g.resume pass).recs.map (fun r => (r.lane, r.positions, r.pc)) = g.recs.map (fun r => (r.lane, r.positions, r.pc)) ∧
      (∀ r ∈ (g.resume pass).recs, ∀ e ∈ r.forms, (e.2.cls = .a → e.2.c1 ≠ 0#32) ∧ (e.2.cls = .u → e.2.c1 = 0#32)) ∧
      (g.resume pass).s = g.s ∧ (g.resume pass).p = g.p ∧ (g.resume pass).lanes = g.lanes ∧
      (g.sound = true → ∀ n k, (g.resume pass).vAt n k = g.vAt n k) ∧
      ∀ t, g.trap = some t → (g.resume pass).step =
        if t.step.getLsbD 7 = true ∧ t.step.toNat % 128 < g.recs.length then some (t.step.toNat % 128) else none) ∧
  (∀ x F s i j, valueForm x = some F → s.iss F.k = some i → i.g0.step = some j → i.check F.ns = .ok () → F.sOk i →
      ∃ t g' tr, exec x s = .next t ∧ t.groups[i.gi]? = some g' ∧ g'.stat = .frozen ∧ g'.step = none ∧ g'.trap = some tr ∧
        tr.word = trapWord ⟨0x10, 0, w32 j, j, false⟩ ∧ tr.aux = w32 j)

/-- O40. sysrd and syswr reach every system register of the table (18_traps_faults_preemption.md R367,
18_traps_faults_preemption.md R370, 10_memory_seen_by_programs.md R209). The model's choice: RECORD of a trap word
numbers the records as they stood before the issue would merge them (log entry 21, DEDUCED); a uniform source is read
in the ck of the last pass (log entry 88, DEDUCED). -/
def Obligations.SystemRegisters : Prop :=
  ((∀ k d (num : BitVec 12) s i w F, sysWidth num.toNat = some w → F = ({ k := k, ns := [dstVS d w], d := d, words := w, lr := 1, ll := 1, val := fun i _ _ j => word (s.sysValue i num.toNat) j, uni := allUni } : ValueForm) →
      s.iss k = some i → i.check F.ns = .ok () → ∃ v, F.Delivers i v ∧ exec (.sysrd k d num) s = .next (s.finishValues i F.ns 1 1 v)) ∧
    (∀ k a (num : BitVec 12) s i w x, sysWidth num.toNat = some w → s.iss k = some i → i.check [⟨a, [.v, .s, .zr], w, w⟩] = .ok () →
      i.uniformRun (w == 2) a → x = (if w = 2 then i.upair a else (i.uword a).setWidth 64) →
      exec (.syswr k a num) s = .next ((if i.on = [] then s else s.modCtx i.ci fun c =>
        if num = 0x010#12 then { c with srSeed := x.setWidth 32 }
        else if num = 0x011#12 then { c.keepTrapRegs i.gi s.now with trapVec := x }
        else if num = 0x012#12 then { c.keepTrapRegs i.gi s.now with trapMask := x.setWidth 32 &&& 0x17FFE#32 } else c).passRun i [])) ∧
    (∀ k a num s i, sysWidth num.toNat = none → s.iss k = some i →
      exec (.sysrd k a num) s = .next (s.takeTrap i.gi ⟨0x01, 5, 0#32, i.trapRecord none, false⟩ i.pc) ∧
      exec (.syswr k a num) s = .next (s.takeTrap i.gi ⟨0x01, 5, 0#32, i.trapRecord none, false⟩ i.pc))) ∧
  ((∀ (s : State) (i : Iss),
      (s.sysValue i 0x000).toNat = ((if i.ctx.overflow then 2 ^ 31 else 0) + i.ctx.faultTail * 2 ^ 16 + i.ctx.faultHead) % 2 ^ 32 ∧
      s.sysValue i 0x001 = BitVec.ofNat 64 i.ctx.faultBudget ∧ s.sysValue i 0x002 = i.ctx.fetchDrop ∧
      s.sysValue i 0x003 = i.ctx.pairRefused ∧ s.sysValue i 0x004 = i.ctx.shortfall ∧ s.sysValue i 0x005 = i.ctx.bankConflict ∧
      s.sysValue i 0x006 = i.ctx.spadConflict ∧ s.sysValue i 0x010 = i.ctx.srSeed.setWidth 64 ∧ s.sysValue i 0x011 = i.ctx.trapVec ∧
      s.sysValue i 0x012 = i.ctx.trapMask.setWidth 64 ∧
      s.sysValue i 0x020 = (calendarWord ((spGet 0 s.calendar (coreCluster i.g.core) +
        (s.island (coreCluster i.g.core)).ckAt s.now) % 65536)).setWidth 64 ∧
      s.sysValue i 0x021 = (i.g.phaseGrant i.now).setWidth 64 ∧ s.sysValue i 0x022 = i.ctx.undeclared ∧
      s.sysValue i 0x023 = s.stepCfg.setWidth 64) ∧
    ([0x000, 0x001, 0x010, 0x012, 0x020, 0x021, 0x023].map sysWidth) = List.replicate 7 (some 1) ∧
    ([0x002, 0x003, 0x004, 0x005, 0x006, 0x011, 0x022].map sysWidth) = List.replicate 7 (some 2))

/-- O41. wpset and wpclr queue a change of a watchpoint, and their flag falls when it is applied
(18_traps_faults_preemption.md R368). The model's choice: a change is applied to every core in one step, the oldest
first (log entry 44, DEDUCED); a uniform source is read in the ck of the last pass (log entry 88, DEDUCED). -/
def Obligations.WatchpointInstructionsComplete : Prop :=
  (∀ k (n : BitVec 3) s i, s.iss k = some i → i.trial = false →
      let queued (w : Option Watch) : Host.Outcome State Fault Refusal := .next ((s.modCtx i.ci fun c =>
        { c with watchQ := c.watchQ ++ [⟨n.toNat, w, i.gi, k.sig.toNat, i.run.length⟩] }).finish i i.g i.g [] 0 i.run.length [] i.advance)
      (i.on = [] → exec (.wpclr k n) s = .next (s.passRun i [])) ∧ (i.on ≠ [] → exec (.wpclr k n) s = queued none) ∧
      ∀ a, i.check [⟨a, [.s, .zr], 2, 2⟩] = .ok () → (i.on = [] → exec (.wpset k n a) s = .next (s.passRun i [])) ∧
        (i.on ≠ [] → i.accessFault permR [.spad] 32 (i.upair a) = none → i.g.atomPending (i.placeOf (i.upair a) 0) 32 (s.ord + 1) = false →
          ∀ w, Watch.ofBytes (s.ownBytes i (i.upair a) 32) (fun x => shpNc (s.shape i.g i.t x)) = some w →
            exec (.wpset k n a) s = queued (some w))) ∧
    ∀ s ci c w rest, s.contexts[ci]? = some c → c.watchQ = w :: rest → exec (.watchpointApply ci) s =
      .next ((s.modCtx ci fun c => { c with watches := c.watches.set w.n w.watch, watchQ := rest }).modGroup w.group fun g =>
        g.sigDown w.sig w.cnt)

/-- O42. What a handler may not issue, and what only a handler may (18_traps_faults_preemption.md R359,
18_traps_faults_preemption.md R361). The model's choice: causes 8 and 9 come before check 6 of R54 (log entry 23,
DEDUCED); RECORD of a trap word numbers the records as they stood before the issue would merge them (log entry 21,
DEDUCED). -/
def Obligations.HandlerPrivilege : Prop :=
  (∀ x k s i, handlerForbids x = some k → s.iss k = some i → i.g.serves.isSome = true →
      exec x s = .next (s.takeTrap i.gi ⟨0x01, 8, 0#32, i.trapRecord none, false⟩ i.pc)) ∧
    (∀ k ty n a m s i, s.iss k = some i → i.g.serves.isSome = true →
      exec (.ld k ty (.dq n) a m) s = .next (s.takeTrap i.gi ⟨0x01, 8, 0#32, i.trapRecord none, false⟩ i.pc) ∧
      exec (.st k ty a (.dq n) m) s = .next (s.takeTrap i.gi ⟨0x01, 8, 0#32, i.trapRecord none, false⟩ i.pc) ∧
      exec (.qstat k a (.dq n)) s = .next (s.takeTrap i.gi ⟨0x01, 8, 0#32, i.trapRecord none, false⟩ i.pc)) ∧
    ∀ x k s i, handlerOnly x = some k → s.iss k = some i → i.g.serves = none →
      exec x s = .next (s.takeTrap i.gi ⟨0x01, 9, 0#32, i.trapRecord none, false⟩ i.pc)

/-- O43. Right after reset the device holds nothing and waits for its boot; memory is canonical and records sound
(22_retirement_and_system.md R391, 22_retirement_and_system.md R396, 10_memory_seen_by_programs.md R215,
05_range_threads.md R85). The model's choice: the counters at 0 (log entries 2 and 3, DESIGN CHOICE), nothing listed
in memory (log entry 5, DESIGN CHOICE), empty translation structures (log entry 7, DESIGN CHOICE), no firmware running
(log entry 9, DESIGN CHOICE) and no core avoided (log entry 12, DESIGN CHOICE). -/
def Obligations.ResetState : Prop :=
  (State.reset.reqTail = 0#64 ∧ State.reset.reqHead = 0#64 ∧ State.reset.rspTail = 0#64 ∧ State.reset.rspHead = 0#64 ∧
    State.reset.winState = 0#64 ∧ State.reset.booted = false ∧ State.reset.running = none ∧ State.reset.contexts = [] ∧
    State.reset.tasks = [] ∧ State.reset.teams = [] ∧ State.reset.groups = [] ∧ State.reset.pails = [] ∧ State.reset.mem = [] ∧
    State.reset.tlb = [] ∧ State.reset.issuer = none ∧ State.reset.agenda = [] ∧ State.reset.now = 0 ∧
    ∀ c, (State.reset.core c).spad = [] ∧ (State.reset.core c).stack = [] ∧ (State.reset.core c).acc = [] ∧
      (State.reset.core c).avoided = false ∧ (State.reset.core c).handlers = [none, none] ∧ (State.reset.core c).trace = []) ∧
  (State.reset.mem.wf = true ∧ sparseWf ⟨0, 0#64⟩ 0 State.reset.units = true ∧ State.reset.recordsSound)

/-- O44. A step of a group or Pail that may issue is exec of the instruction its line or store decodes to
(03_instruction_words.md R54, 05_range_threads.md R93). -/
def Obligations.StepRunsTheDecodedInstruction : Prop :=
  (∀ (s : State) who i, s.issuer = some who → s.mayIssue who = some (.issue i) → step s = endStep (exec i (s.issuing who))) ∧
    (∀ (s : State) who i t, exec i (s.issuing who) = .next t → endStep (exec i (s.issuing who)) = .next { t with issuer := none }) ∧
    (∀ (s : State) who i rest, s.issuer = none → s.agenda = .issue who :: rest →
      State.mayIssue { s with agenda := rest } who = some (.issue i) →
      step s = endStep (exec i (State.issuing { s with agenda := rest } who))) ∧
    (∀ (s : State) gi g c pc sel at_ e pa i, s.groups[gi]? = some g → s.contexts[g.ctx]? = some c → s.groupReady gi g c = true →
      g.pick = some (pc, sel) → c.lineBound pc = true → s.codeWalk c (lineOf pc) = some (at_, e, pa) → lineFetched e = true →
      (∀ lane ∈ g.runClasses pc, ((s.core g.core).copyOf g.ctx pa lane).map TraceEnt.upset = some false) →
      wordChecks (s.lineBits g.ctx pa) pc = .ok i →
      (s.tryFails gi i = true ∨ ∃ f, f = Fields.unpack (slotWord (s.lineBits g.ctx pa) (slotOf pc)) ∧ s.distMet g f.k = true ∧
        g.lateFor (s.groupCk g) f.k i = false ∧ g.waitMet f.k.wait = true ∧ s.flagFits gi g f i sel = true) →
      s.offer gi = some (.issue i)) ∧
    (∀ line pc i, wordChecks line pc = .ok i → decode (slotWord line (slotOf pc)) = .ok i) ∧
    ∀ (p : Pail) i, p.pc.toNat % 2 = 0 → p.pc.toNat + 4 ≤ 0x4000 → spGet 0#8 p.istore p.pc.toNat &&& 3#8 = 3#8 →
      decodePail (spGet 0#8 p.istore (p.pc.toNat + 3) ++ spGet 0#8 p.istore (p.pc.toNat + 2) ++
        spGet 0#8 p.istore (p.pc.toNat + 1) ++ spGet 0#8 p.istore p.pc.toNat) = some i → p.fetch = i

/-- O45. Words that the manual writes out decode to the instructions they stand for (03_instruction_words.md R33,
03_instruction_words.md R35, 04_tasks_and_placement.md R64, 07_integer_range_control.md R133,
07_integer_range_control.md R145, 10_memory_seen_by_programs.md R223, 13_matrix_instructions.md R278,
17_power_phases.md R352, 18_traps_faults_preemption.md R362). -/
def Obligations.SpecWordsDecode : Prop :=
  decodeCode (.compute 0x500020731C14100000700000#96) = some (.frcp ⟨5, 0, 2, 0, false, false, 7⟩ (.v 5) (.v 4)) ∧
    decodeCode (.compute 0x000000708408040000000100#96) = some (.addI ⟨0, 0, 0, 0, false, false, 7⟩ .i32 (.v 2) (.v 1) 0x100#36) ∧
    decodeCode (.compute 0x000000706E44011802000000#96) = some (.cmp ⟨0, 0, 0, 0, false, false, 7⟩ .lt .i32 (.p 1) (.v 0) (.s 6)) ∧
    decodeCode (.compute 0x000000020000000000000003#96) = some (.bra ⟨0, 0, 0, 0, false, false, 0⟩ 3#20) ∧
    decodeCode (.compute 0x000000720400055000000005#96) = some (.brx ⟨0, 0, 0, 0, false, false, 7⟩ (.v 1) (.s 20) 5#6) ∧
    decodeCode (.compute 0x00000073801C180000900074#96) = some (.fcvt ⟨0, 0, 0, 0, false, false, 7⟩ .bf16 .f32 .sr false (.v 7) (.v 6)) ∧
    decodeCode (.compute 0x000830780280091800A00040#96) = some (.mma ⟨0, 8, 3, 0, false, false, 7⟩ .e4m3 0#2 (.acc 0) (.v 2) (.s 6) (.v 0) 0#2 false false 0x40#12) ∧
    decodeCode (.compute 0x000000772000000002080000#96) = some (.fence ⟨0, 0, 0, 0, false, false, 7⟩ 2 4) ∧
    decodeCode (.compute 0x000000758001091118000000#96) = some (.copy ⟨0, 0, 0, 0, false, false, 7⟩ (.s 2) (.s 4) (.s 6) 0#6 false 0#12) ∧
    decodeCode (.compute 0x00108078E4013263FC000040#96) = some (.rnorm ⟨0, 16, 8, 0, false, false, 7⟩ 0#3 64#11 (.s 12) (.shp 0) .zr) ∧
    decodeCode (.compute 0x000010778159500000000000#96) = some (.task ⟨0, 0, 1, 0, false, false, 7⟩ (.s 22) (.s 20)) ∧
    decodeCode (.compute 0x0000007A0400000000000003#96) = some (.bkpt ⟨0, 0, 0, 0, false, false, 7⟩ 3#16) ∧
    decodeCode (.compute 0x0000007F21A02001000F0000#96) = some (.phase ⟨0, 0, 0, 0, false, false, 7⟩ ⟨0x68, 8, 0, 0x40, 0, 0xF0000⟩) ∧
    decodePail 0x0005200B#32 = some (.pqRowin 0 10) ∧
    decodePail 0x0020158B#32 = some (.pqPop 2 11)

/-- O46. Decoding the words of a well-formed instruction gives it back, with every operand (03_instruction_words.md R32,
03_instruction_words.md R57, 10_memory_seen_by_programs.md R223). -/
def Obligations.EncodeThenDecode : Prop :=
  ∀ i w, i.wf = true → encode i = some w → decodeCode w = some i

/-- O47. Whatever decodes is well formed and encodes to the very word it came from (03_instruction_words.md R54,
03_instruction_words.md R32). -/
def Obligations.DecodedInstructionsAreWellFormed : Prop :=
  (∀ w i, decode w = .ok i → encode i = some (.compute w) ∧ (isHintOp (Fields.unpack w).op = false → i.wf = true)) ∧
    (∀ w i, decodePail w = some i → i.wf = true ∧ (i ≠ .pailInstruction .fence false → encodePail i = some w)) ∧
    (∀ w i, decodeC w = some i → i.wf = true ∧ ∃ w', encodeC i = some w' ∧ decodeC w' = some i)

/-- O48. The checks of a line and a word before it issues: the illegal-instruction trap with the cause of the first that
fails (03_instruction_words.md R54, 03_instruction_words.md R44, 03_instruction_words.md R47). The model's choice:
RECORD of a trap word numbers the records as they stood before the issue would merge them (log entry 21, DEDUCED). -/
def Obligations.LineChecksTrap : Prop :=
  (∀ line pc, parityOk line = false → wordChecks line pc = .error 1) ∧
    (∀ line (pc : Addr), parityOk line = true → pc.toNat % 64 ∉ [0, 12, 24, 36, 48] → wordChecks line pc = .error 2) ∧
    (∀ line (pc : Addr), parityOk line = true → pc.toNat % 64 = 48 → lineEnd (lineWord line) = true →
      transferOp (Fields.unpack (slotWord line 4)).op = false → wordChecks line pc = .error 3) ∧
    (∀ line (pc : Addr), parityOk line = true → pc.toNat % 64 ∈ [0, 12, 24, 36] → isHintOp (Fields.unpack (slotWord line (slotOf pc))).op = false →
      (opcodeNamed (Fields.unpack (slotWord line (slotOf pc))).op = true → ctlOk (Fields.unpack (slotWord line (slotOf pc))).k = false →
        wordChecks line pc = .error 5) ∧
      (decode (slotWord line (slotOf pc)) = .error .type → lineReserved (lineWord line) = false → wordChecks line pc = .error 6) ∧
      ∀ i, decode (slotWord line (slotOf pc)) = .ok i → (∀ w, i ≠ .unassignedOpcode w) → lineReserved (lineWord line) = true →
        wordChecks line pc = .error 5) ∧
    ∀ (s : State) gi g cause pc, s.groups[gi]? = some g →
      s.perform (.group gi) (.trap cause pc) = .next ({ s with issuer := none }.takeTrap gi ⟨0x01, cause, 0#32, g.recordAt pc, false⟩ pc)

/-- O49. Physical memory: a byte reads as written; a zero unit reads zeros, and a write merges into them
(10_memory_seen_by_programs.md R215). The model's choice: that a read under another key than the unit holds is a value
of Config, which nothing states (log entry 5, DESIGN CHOICE). -/
def Obligations.MemoryReadsWhatWasWritten : Prop :=
  ∀ (s : State) (key a : Nat) (b : Byte), s.mem.wf = true → sparseWf ⟨0, 0#64⟩ 0 s.units = true → a < linkBase → key ≠ 0 →
      (s.pmWrite key a b).pmRead key a = b ∧
      (∀ x, x / 64 = a / 64 → x ≠ a → ((s.unit a).key = key ∨ (s.unit a).key = 0) → (s.pmWrite key a b).pmRead key x = s.pmRead key x) ∧
      (∀ x k, x / 64 ≠ a / 64 → (s.pmWrite key a b).pmRead k x = s.pmRead k x) ∧
      (∀ k x, x < linkBase → (s.unit x).key = 0 → s.pmRead k x = 0#8) ∧
      (∀ k x, x / 64 = a / 64 → k ≠ key → (s.pmWrite key a b).pmRead k x = Config.noise k x) ∧
      (∀ k f x, x < linkBase → x / 65536 = f → (s.zeroFrame f).pmRead k x = 0#8) ∧
      (∀ k f x, x / 65536 ≠ f → (s.zeroFrame f).pmRead k x = s.pmRead k x)

/-- O50. Every step keeps the canonical form of memory and of the unit table (10_memory_seen_by_programs.md R215). -/
def Obligations.MemoryStaysCanonical : Prop :=
  ∀ (s t : State), s.mem.wf = true → sparseWf ⟨0, 0#64⟩ 0 s.units = true → step s = .next t →
      t.mem.wf = true ∧ sparseWf ⟨0, 0#64⟩ 0 t.units = true

/-- O51. Every step keeps the records of every group sound: no position stands twice, forms have their shape
(05_range_threads.md R85, 05_range_threads.md R86, 05_range_threads.md R107). -/
def Obligations.RecordsStaySound : Prop :=
  ∀ (s t : State), s.recordsSound → step s = .next t → t.recordsSound

/-- O52. No step lowers the firmware minimum, the attestation counter or the ck count, and device time only goes back
where a time lock sets it (22_retirement_and_system.md R396, 22_retirement_and_system.md R397, 17_power_phases.md
R350). -/
def Obligations.CountersOfTheDeviceOnlyRise : Prop :=
  ∀ (s t : State), step s = .next t → s.minVersion.toNat ≤ t.minVersion.toNat ∧ s.keyIndex ≤ t.keyIndex ∧ s.now ≤ t.now ∧
    (s.devTime ≤ t.devTime ∨ ∃ n rest, s.agenda = .event (.deviceTimeLock (some n)) :: rest ∧ t.devTime = n)

/-- O53. A due result is written, oldest first, and its flag falls; landed values read as they were computed (R112, R41,
11_data_movement_instructions.md R416). -/
def Obligations.ResultsLandAtTheirLatency : Prop :=
  (∀ (s : State) gi g e, s.groups[gi]? = some g → g.nextLanding (s.groupCk g) = some e →
      e ∈ g.wb ∧ e.due ≤ s.groupCk g ∧ (∀ x ∈ g.wb, g.canLand (s.groupCk g) x = true → e.due ≤ x.due) ∧
      exec (.resultWriteback gi) s = .next ((State.landAll (s.modGroup gi fun g => { g with wb := g.wb.erase e }) gi e.ord e.ws).modGroup gi
        fun g => g.sigDown e.sig e.cnt)) ∧
    (∀ (g : Group) reg vals form, g.sound = true → reg < 64 → (vals.map fun p => p.1).Nodup →
      (∀ p ∈ vals, ∃ r ∈ g.recs, p.1 ∈ r.positions) →
      (∀ f, form = some f → (f.cls = .u ∨ f.cls = .a) ∧ ∀ p ∈ vals, f.norm.at p.1 = p.2) →
      (∀ p ∈ vals, (g.landV reg vals form).vAt reg p.1 = p.2) ∧
      ∀ n k, n < 64 → k < 64 → (n ≠ reg ∨ k ∉ vals.map fun p => p.1) → (g.landV reg vals form).vAt n k = g.vAt n k) ∧
    (∀ (g : Group) n v, sparseWf 0#32 0 g.s = true → spGet 0#32 (g.setS n v).s n = v ∧
      ∀ m, m ≠ n → spGet 0#32 (g.setS n v).s m = spGet 0#32 g.s m) ∧
    ∀ (g : Group) n mask bits k, n < 8 → k < 64 → sparseWf 0#64 0 g.p = true →
      (∀ m, (g.setP n mask bits).pmask 7 = BitVec.allOnes 64 ∧ (m ≠ n → (g.setP n mask bits).pmask m = g.pmask m)) ∧
      (n ≠ 7 → ((g.setP n mask bits).pmask n).getLsbD k = if mask.getLsbD k then bits.getLsbD k else (g.pmask n).getLsbD k)

/-- O54. Elements, store queue heads, engine commands, matrix work and loop iterations complete by their events
(14_ordering.md R302, 11_data_movement_instructions.md R228, 11_data_movement_instructions.md R238,
12_matrix_and_ragged_model.md R257, 12_matrix_and_ragged_model.md R267, 13_matrix_instructions.md R271). The model's
choice: that an iteration is one step (log entry 43, DEDUCED), and that the next one occupies the slices for a free
number of ck (log entry 4, DESIGN CHOICE). -/
def Obligations.MemoryEventsComplete : Prop :=
  (∀ (s : State) gi i due ord ws cq bytes rest, s.view gi = some i → i.g.storeq = .chip due ord ws cq bytes :: rest → due ≤ i.now →
      i.gatherOpen ord (ws.map fun w => w.1) = false → ∃ t, exec (.storePerformed gi) s = .next t ∧ t.mem = s.mem ∧
        ((t.groups[gi]?).map fun g => g.storeq) = some rest ∧
        ∀ p, t.arrRead i.ci p = ((ws.reverse.find? fun w => w.1 == p).map fun w => w.2).getD (s.arrRead i.ci p)) ∧
    (∀ (s : State) gi i ord rest l, s.view gi = some i → i.g.storeq = .glob ord :: rest →
      (i.g.oplog.find? fun m => m.ord == ord && m.isStore) = some l → i.g.readsDone ord = true → l.qord = false →
      exec (.storePerformed gi) s = .next (State.settleGroup { (s.modGroup gi fun g =>
        ({ g with storeq := g.storeq.drop 1 } : Group).modSlot l.num fun m => { m with taken := some s.ord, core := i.g.core }) with ord := s.ord + 1 } gi)) ∧
    (∀ (s : State) gi i num l e x pa s1, s.view gi = some i → (i.g.oplog.find? fun m => m.num == num) = some l → l.elems[e]? = some x →
      x.st = .pending → l.isCommand = false → s.mayBegin i l x = true → i.isGlobal x.va = true →
      s.access i.ci i.g.accTeam (va56 x.va) l.acc l.wordOp = (.ok pa, s1) → s.isDevice i.ctx.root (va56 x.va) = false →
      let s2 := s1.fillTlb i.g.core i.ci (va56 x.va)
      (l.op = .load ∨ l.op = .gather → exec (.globalBytesLand gi num e) s = .next (s2.putElem gi l e
        (x.performed l (BitVec.ofNat 128 (leNat (s2.globalBytes i l.ord (va56 x.va) pa x.len)))))) ∧
      (l.olderElem e x = false → s.olderWrite i l x (l.taken.getD s.ord) = false → i.g.olderOpen l x = false →
        (l.op = .store ∨ l.op = .scatter →
          exec (.globalBytesLand gi num e) s = .next ((s2.writePa i.ci pa x.len x.data.toNat).putElem gi l e { x with st := .done })) ∧
        ∀ op ty old s3, l.op = .atom op ty → old = s2.readPa i.ci pa x.len →
          s3 = s2.writePa i.ci pa x.len (atomNew op ty (BitVec.ofNat 64 old) (x.data.setWidth 64) x.repl).toNat →
          exec (.globalBytesLand gi num e) s = .next (State.putElem (if i.task.atomics i.t.t (va56 x.va / 65536) = true then
            s3.modTeam i.ti fun t => { t with atomic := true } else s3) gi l e (x.performed l (BitVec.ofNat 128 old))))) ∧
    (∀ (s : State) gi i num l e x, s.view gi = some i → (i.g.oplog.find? fun m => m.num == num) = some l → l.elems[e]? = some x →
      x.st = .pending → l.isCommand = false → s.mayBegin i l x = true → i.isGlobal x.va = false → l.op = .gather →
      exec (.globalBytesLand gi num e) s = .next (s.putElem gi l e (x.performed l
        (BitVec.ofNat 128 (s.readPlace i.g (i.placeOf x.va (x.ps.headD 0)) x.len l.ord))))) ∧
    (∀ (s : State) gi i num l e x k why s1, s.view gi = some i → (i.g.oplog.find? fun m => m.num == num) = some l → l.elems[e]? = some x →
      x.st = .pending → l.isCommand = false → s.mayBegin i l x = true → i.isGlobal x.va = true → (∀ c, l.op ≠ .remld c) →
      (l.acc = .read ∨ (l.olderElem e x = false ∧ s.olderWrite i l x (l.taken.getD s.ord) = false ∧ i.g.olderOpen l x = false)) →
      s.access i.ci i.g.accTeam (va56 x.va) l.acc l.wordOp = (.fault k why, s1) →
      exec (.globalBytesLand gi num e) s = .next (s1.faultElems i l (s.failing i l))) ∧
    (∀ (s : State) gi i num l e x c, s.view gi = some i → (i.g.oplog.find? fun m => m.num == num) = some l → l.elems[e]? = some x →
      x.st = .pending → s.mayBegin i l x = true → l.op = .remld c →
      (∀ p, s.remotePlace i.ci c (va56 x.va) x.len = some p → exec (.globalBytesLand gi num e) s = .next (s.putElem gi l e
        (x.performed l (BitVec.ofNat 128 (s.readPlace i.g p x.len l.ord))))) ∧
      (s.remotePlace i.ci c (va56 x.va) x.len = none → exec (.globalBytesLand gi num e) s = .next (s.faultElems i l
        ((l.elems.zipIdx.filter fun y => y.1.st == .pending && (s.remotePlace i.ci c (va56 y.1.va) y.1.len).isNone).map
          fun y => (y.2, .remote))))) ∧
    (∀ (s : State) gi i num l x, s.view gi = some i → (i.g.oplog.filter fun m => m.num == num) = [l] → l.elems = [x] →
      (s.commandReady i l = true → l.landed = none → x.st = .pending → x.src.toNat % 65536 + x.len ≤ 65536 →
        ∀ src s1 dst s2, s.endOf i x.src .read = (src, s1) → s1.endOf i x.va .write = (dst, s2) → (∀ k, src ≠ .fault k) → (∀ k, dst ≠ .fault k) →
        s2.pieceWaits i l x = false → exec (.engineCommandComplete gi num) s = .next
          ((s2.endWrite i (s2.endRead i l.ord x.src x.len src) dst).modGroup gi fun g =>
            g.modSlot num fun m => { m with elems := [{ x with st := .done }], landed := some i.now })) ∧
      (l.isCommand = true → x.st = .done → ∀ ck, l.landed = some ck → ck < i.now → exec (.engineCommandComplete gi num) s = .next (State.settleGroup
        ((s.modGroup gi fun g => ({ g with oplog := g.oplog.filter fun m => m.num != num } : Group).sigDown l.sig l.cnt).modTeam i.ti fun t =>
            { t with tagBits := t.tagBits ||| BitVec.twoPow 128 l.tag }) gi))) ∧
    (∀ (s : State) gi g n w, s.groups[gi]? = some g → g.work[n]? = some w → w.left = 0 →
      exec (.matrixPassComplete gi n) s = .next (State.modGroup (State.landAll (State.arrWriteAll
        (w.tiles.foldl (fun s t => s.tileWrite g.ctx g.core t.1 t.2.1 t.2.2) (State.modGroup (s.modGroup gi fun g => { g with work := g.work.eraseIdx n })
          gi fun h => h.overwrite w.ord (s.groupCk g) (tilePlaces g.core w.tiles ++ w.bytes.map Prod.fst))) g.ctx w.bytes) gi w.ord w.ws) gi fun g => g.sigDown w.sig w.cnt)) ∧
    ∀ (s : State) gi i l out m, s.view gi = some i → i.g.loop = some l → l.left = 0 → i.g.stat = .live →
      out = miterIteration l.n (fun j => l.coef.getD j 0#32) (s.block i l.t l.n) → m = (Mls.of i.g.mls).iterated out.2.2.2 →
      let base := s.putIteration i l out m
      let res := f32Val m.res
      let c6 := f32Val (l.coef.getD 6 0#32)
      let high := (f32Val (l.coef.getD 7 0#32)).lt res
      (∀ st rec rc, (st = 3 ∧ res.finite = false) ∨ (st = 4 ∧ res.finite = true ∧ (c6.isNan = true ∨ c6.lt res = true) ∧ high = true) ∨
          (st = 5 ∧ res.finite = true ∧ (c6.isNan = true ∨ c6.lt res = true) ∧ high = false ∧ m.rise = 3) →
        (i.g.recs.findIdx? fun r => (r.wait.map Wait.cond) == some .loopEnd) = some rec → i.g.recs[rec]? = some rc →
        exec (.iterationBoundary gi) s = .next ((base.modGroup gi fun g =>
          { (g.leaveLoop true) with mls := { m with rise := 0, phase := 2, status := st }.bits }).takeTrap gi ⟨0x07, 0, w32 st, rec, false⟩ rc.pc)) ∧
      (∀ st, (st = 1 ∧ res.finite = true ∧ c6.isNan = false ∧ c6.lt res = false) ∨
          (st = 2 ∧ res.finite = true ∧ (c6.isNan = true ∨ c6.lt res = true) ∧ high = false ∧ m.rise ≠ 3 ∧ m.count = l.cap) →
        exec (.iterationBoundary gi) s =
          .next ((base.landAll gi ((i.g.loopWait.map Wait.ord).getD 0) [boolWrite l.p l.mask (st == 1)]).modGroup gi fun g =>
            { (g.leaveLoop false) with mls := (m.finished st).bits })) ∧
      (res.finite = true → (c6.isNan = true ∨ c6.lt res = true) → high = false → m.rise ≠ 3 → m.count ≠ l.cap →
        i.t.preempt = false → (∀ a ∈ i.loopWatch l.t l.s1 l.s2 l.n, i.ctx.watchHit (base.shape i.g i.t) a.2.1 a.2.2.1 a.2.2.2 = none) →
        exec (.iterationBoundary gi) s = .next ((base.spendFree 1).modGroup gi fun g =>
          { g with loop := g.loop.map fun l => { l with left := occupancy 1 base.freeCtr } }))

/-- O55. Wakes, holds, forced runs, phases, releases, handlers, submissions and the wait-cycle trap of a group
(15_synchronisation_instructions.md R321, 15_synchronisation_instructions.md R329, 05_range_threads.md R94,
17_power_phases.md R343, 17_power_phases.md R339, 17_power_phases.md R351, 18_traps_faults_preemption.md R358,
04_tasks_and_placement.md R64, 18_traps_faults_preemption.md R376). The model's choice: that a departure from a
barrier, and a wait for tasks that is over, acquires at the present stamp (log entry 33, DEDUCED), and that no record
wakes where its eviction is due (log entry 53, DEDUCED). -/
def Obligations.GroupEventsComplete : Prop :=
  (∀ (s : State) gi r g t w, s.groups[gi]? = some g → s.teams[g.team]? = some t → g.recs[r]?.bind Rec.wait = some w →
      s.canWake g = true → s.condMet g t w.cond = true → (t.preempt && s.evictable t && s.atPoints t) = false →
      exec (.recordWake gi r) s = .next (s.modGroup gi fun g =>
        if w.cond.acquires then (g.wake w (wakeValue (s.sideOf g t) t w) (s.groupCk g)).acquire (s.ord + 1)
        else g.wake w (wakeValue (s.sideOf g t) t w) (s.groupCk g))) ∧
    (∀ (g h : Group) (w : Wait) v ck, sparseWf 0 0 g.cf = true → sparseWf none 0 g.latches = true → h = g.wake w v ck →
      (w.cond.late = false → ∀ n, h.flag n = if w.sig = n + 1 then g.flag n - w.cnt else g.flag n) ∧
      (w.cond.late = true → (∀ n, h.flag n = g.flag n) ∧ ⟨ck + 1, ck + 1, w.ord, w.sig, w.cnt, []⟩ ∈ h.wb) ∧
      (h.recs.map fun r => (r.pc, r.wait.map Wait.ord)) = (g.recs.map fun r => if (r.wait.map Wait.ord) = some w.ord then
        (if w.again = true then r.pc else nextPc r.pc, none) else (r.pc, r.wait.map Wait.ord)) ∧
      (∀ n, w.dst = some n → h.s = (g.setS n v).s) ∧ (w.dst = none → h.s = g.s) ∧
      ∀ k ∈ w.ps, w.hold ≠ 0 → (((spGet none h.latches (w.hold - 1)).map Latch.vals).getD []).find? (fun e => e.1 == k) =
        some (k, v, some ⟨.u, v, 0#32⟩)) ∧
    (∀ (s : State) gi i f, s.view gi = some i → i.g.fences = [f] → i.fenceOver f = true →
      exec (.issueHoldRelease gi) s = .next (s.modGroup gi fun g => ({ g with fences := [], retryAt := 0 } : Group).sigDown f.sig f.cnt)) ∧
    (∀ (s : State) gi g, s.groups[gi]? = some g → 256 ≤ g.strag →
      exec (.stragglerForcedRun gi) s = .next (s.modGroup gi fun g => { g with forced := true })) ∧
    (∀ (s : State) gi g p, s.groups[gi]? = some g → g.phase = some p →
      (p.start ≤ s.groupCk g → exec (.phaseStart gi) s = .next (s.modGroup gi fun g => { g with phase := some { p with started := true } })) ∧
      (p.start + p.len + 256 ≤ s.groupCk g → exec (.phaseExpiry gi) s = .next (s.modGroup gi fun g => { g with phase := none })) ∧
      (s.groupCk g < p.start + p.len + 256 → exec (.phaseExpiry gi) s = .next s)) ∧
    (∀ (s : State) gi g r w n, s.groups[gi]? = some g → g.recs = [r] → r.wait = some w → w.cond = .release n → n ≤ s.devTime →
      exec (.stepRelease gi) s = exec (.recordWake gi 0) s) ∧
    (∀ (s : State) gi g c (t : TrapState) slot, s.groups[gi]? = some g → s.contexts[g.ctx]? = some c → g.trap = some t →
      ((s.core g.core).handlers.findIdx? fun h => h == none) = some slot → s.waitsHandler gi g = true → s.firstInLine gi g = true →
      g.work = [] → g.loop = none →
      ∃ u h, exec (.handlerStart gi) s = .next u ∧ u.groups = s.groups ++ [h] ∧ h.serves = some gi ∧ h.stat = .live ∧ h.core = g.core ∧
        h.width = 32 ∧ h.recs = [⟨false, 0, 1, 32, t.vec, none, false, []⟩] ∧
        spGet 0#32 h.s 0 = t.word ∧ spGet 0#32 h.s 1 = t.pc.setWidth 32 ∧ spGet 0#32 h.s 2 = (t.pc >>> 32).setWidth 32 ∧
        spGet 0#32 h.s 3 = t.aux ∧ spGet 0#32 h.s 4 = w32 g.g ∧ spGet 0#32 h.s 6 = w32 g.core) ∧
    (∀ (s : State) gi g p rest c t, s.groups[gi]? = some g → g.submit = p :: rest → s.contexts[g.ctx]? = some c → s.teams[g.team]? = some t →
      c.ending = false → g.earlierDone fenceRel 4 (s.pairedTeam t) p.ord = true → s.entriesHeld g.ctx < c.quota → p.addr.toNat % 64 ≠ 0 →
      exec (.churnAccept gi) s = .next ((s.modGroup gi fun g => { g.sigDown p.sig p.cnt with submit := rest }).landAll gi p.ord (p.writes (refusal 1)))) ∧
    (∀ (s : State) gi g p rest c t out, s.groups[gi]? = some g → g.submit = p :: rest → s.contexts[g.ctx]? = some c → s.teams[g.team]? = some t →
      c.ending = false → g.earlierDone fenceRel 4 (s.pairedTeam t) p.ord = true → s.entriesHeld g.ctx < c.quota →
      out = s.accept c g t p.addr → exec (.churnAccept gi) s = .next ((out.1.modGroup gi fun g =>
        ({ g.sigDown p.sig p.cnt with submit := rest } : Group)).landAll gi p.ord (p.writes out.2))) ∧
    (∀ (p : Submit) n v, p.dst = some n → p.hold = 0 → p.writes v = [.s n v]) ∧
    ∀ (s : State) gi g r rest, s.groups[gi]? = some g → g.recs = r :: rest → s.cycleVictim gi = some gi →
      ∃ aux, exec (.waitCycleTrap gi) s = .next (s.takeTrap gi ⟨0x0E, 0, aux, 0, false⟩ r.pc)

/-- O56. Fetches, walks, invalidation, resolution of faults and their budget (06_fetch_and_issue.md R108,
06_fetch_and_issue.md R109, 06_fetch_and_issue.md R110, 06_fetch_and_issue.md R111, 10_memory_seen_by_programs.md
R211, 10_memory_seen_by_programs.md R212, 18_traps_faults_preemption.md R371). The model's choice: that AUX of the
bound violation of a fetch is the lowest position of the run, that the accessed bit tells that a line has been
fetched, and that a prefetch needs an entry of the TLBs (log entry 47, DEDUCED), and which lines are fetched ahead and
in which range classes (log entry 85, DESIGN CHOICE). -/
def Obligations.FetchTranslationAndFaultEvents : Prop :=
  (∀ (s : State) gi g c pc sel, s.groups[gi]? = some g → s.contexts[g.ctx]? = some c → g.stat = .live → g.pick = some (pc, sel) →
      (∀ at_ e pa, c.lineBound pc = true → s.codeWalk c (lineOf pc) = some (at_, e, pa) →
        exec (.demandFetch gi) s = .next ((s.touch at_ e .exec).fillTlb g.core g.ctx (lineOf pc))) ∧
      (∀ s1, c.lineBound pc = true → s.fetchWalk c (lineOf pc) = (s1, none) →
        exec (.demandFetch gi) s = .next (s1.takeTrap gi ⟨0x0F, 0, 0#32, g.recordAt pc, false⟩ pc)) ∧
      (c.lineBound pc = false → exec (.demandFetch gi) s = .next (s.takeTrap gi ⟨0x04, causeBound, w32 ((g.readyAt pc).headD 0xFF), g.recordAt pc, false⟩ pc)) ∧
      (∀ at_ s1 a e pa, c.lineBound pc = true → s.walk c.root (lineOf pc) = .anon at_ → s.skim at_ = some s1 → s1.codeWalk c (lineOf pc) = some (a, e, pa) →
        exec (.demandFetch gi) s = .next ((s1.touch a e .exec).fillTlb g.core g.ctx (lineOf pc))) ∧
      (∀ lane at_ e pa, c.lineBound pc = true → s.codeWalk c (lineOf pc) = some (at_, e, pa) → lineFetched e = true →
        ∀ s1, s1 = (s.fillTlb g.core g.ctx (lineOf pc)).modCore g.core (fun k => k.fillLine g.ctx pa lane) →
        (((s.core g.core).copyOf g.ctx pa lane).map TraceEnt.upset ≠ some true → exec (.traceCacheFill gi lane) s = .next s1) ∧
        (((s.core g.core).copyOf g.ctx pa lane).map TraceEnt.upset = some true →
          exec (.traceCacheFill gi lane) s = .next (s1.modCtx g.ctx fun c => { c with fetchDrop := c.fetchDrop + 1#64 })))) ∧
    (∀ (s : State) gi g c pc (line : Addr), s.groups[gi]? = some g → s.contexts[g.ctx]? = some c → g.stat = .live → g.headPc = some pc →
      (lineOf line ∈ s.prefetchLines g c pc →
        (∀ pa, s.tlbHolds g.core g.ctx (lineOf line) = true → c.lineBound (BitVec.ofNat 64 (pc.toNat / 2 ^ 56 * 2 ^ 56 + lineOf line)) = true →
          (s.codeWalk c (lineOf line)).map (fun w => w.2.2) = some pa → exec (.speculativeFetch gi line) s =
            .next (s.modCore g.core fun k => (dedup (g.recs.map Rec.lane)).foldl (fun k lane => k.fillLine g.ctx pa lane) k)) ∧
        (s.tlbHolds g.core g.ctx (lineOf line) = false ∨ c.lineBound (BitVec.ofNat 64 (pc.toNat / 2 ^ 56 * 2 ^ 56 + lineOf line)) = false ∨
          s.codeWalk c (lineOf line) = none →
          exec (.speculativeFetch gi line) s = .next (s.modCtx g.ctx fun c => { c with fetchDrop := c.fetchDrop + 1#64 }))) ∧
      (lineOf line ∉ s.prefetchLines g c pc → exec (.speculativeFetch gi line) s = .next s)) ∧
    (∀ (c : Core) ent, (c.putCopy ent).trace.head? = some ent ∧
      (∀ x ∈ c.trace, traceSet x.line ≠ traceSet ent.line → x ∈ (c.putCopy ent).trace) ∧
      (∀ x ∈ (c.putCopy ent).trace, x = ent ∨ x ∈ c.trace) ∧
      (∀ ctx line lane, (c.fillLine ctx line lane).copyOf ctx line lane = some ⟨ctx, line, lane, false⟩)) ∧
    (∀ (s : State) ci c cluster va kind at_ e sh, s.contexts[ci]? = some c → s.walk c.root (va56 va) = .leaf at_ e sh → pteGrants e kind = true →
      exec (.pageWalk ci cluster va kind) s = .next (s.fillL2 cluster [⟨ci, va56 va / 2 ^ sh * 2 ^ sh / 65536, sh⟩])) ∧
    (∀ (s : State) cluster e, sparseWf [] 0 s.tlb = true → (spGet [] (s.fillL2 cluster [e]).tlb cluster).head? = some e ∧
      (∀ c, c ≠ cluster → spGet [] (s.fillL2 cluster [e]).tlb c = spGet [] s.tlb c) ∧ (spGet [] (s.fillL2 cluster [e]).tlb cluster).length ≤ 4096) ∧
    (∀ (s : State) ci c va level pte, s.contexts[ci]? = some c → ∃ t, exec (.tlbInvalidation ci va ⟨level, pte, none⟩) s = .next t ∧
      t.mem = (s.mapAt c.root (va56 va) level pte.toNat).mem ∧ t.groups = s.groups ∧
      (∀ x ∈ t.tlb, ∀ e ∈ x.2, e.covers ci (va56 va) = false ∧
        (e.ctx = ci → e.page * 65536 / 2 ^ levelShift level ≠ va56 va / 2 ^ levelShift level)) ∧
      ∀ k ∈ t.cores, (∀ e ∈ k.2.tlb, e.covers ci (va56 va) = false) ∧ ∀ e ∈ k.2.trace, e.ctx ≠ ci) ∧
    (∀ (s : State) ci c va level pte f pa, s.contexts[ci]? = some c → s.homeOf ci (va56 va / 65536 * 65536) = some pa → pa < memTop →
      ∃ t d, exec (.tlbInvalidation ci va ⟨level, pte, some f⟩) s = .next t ∧
        t.mem = ((s.moveFrame (pa / 65536) f).mapAt c.root (va56 va) level pte.toNat).mem ∧ t.contexts[ci]? = some d ∧
        d.heldPages = spSet none c.heldPages (va56 va / 65536) (some f)) ∧
    (∀ (s : State) ci c r rest f, s.contexts[ci]? = some c → c.faults = r :: rest → r.kind = 1 → s.stopStatus ci r ≠ "peer lost" →
      c.stat = .live → s.resolvable c (va56 r.addr / 65536) = true →
      exec (.faultResolution ci (some f)) s = .next (((c.onPage (va56 r.addr / 65536)).foldl (fun s x => s.replay (va56 r.addr / 65536) x)
        (s.makeResident ci c (va56 r.addr / 65536) f)).modCtx ci fun c => c.serve (va56 r.addr / 65536))) ∧
    ∀ (s : State) ci c r rest, s.contexts[ci]? = some c → c.faults = r :: rest →
      exec (.faultResolution ci none) s = .next (s.stopContext ci (s.stopStatus ci r)) ∧
      (∀ f, c.stat = .live → r.kind ≠ 1 ∨ s.stopStatus ci r = "peer lost" ∨ s.resolvable c (va56 r.addr / 65536) = false →
        exec (.faultResolution ci (some f)) s = .next (s.stopContext ci (s.stopStatus ci r))) ∧
      (∀ f, c.stat ≠ .live → exec (.faultResolution ci (some f)) s = .next s) ∧
      (∀ ti, s.ownerTeam r = some ti → r.since + c.faultBudget * 1000 < s.now → c.stat = .live →
        exec (.faultBudgetExpiry ci) s = .next ((s.askAbort ti).modCtx ci fun c => c.serveIf fun q => s.ownerTeam q == some ti)) ∧
      (s.now ≤ r.since + c.faultBudget * 1000 ∨ c.stat ≠ .live → exec (.faultBudgetExpiry ci) s = .next s)

/-- O57. A team starts with its groups at the entry, retires, commits its versions, moves and is aborted
(04_tasks_and_placement.md R63, 04_tasks_and_placement.md R69, 04_tasks_and_placement.md R67,
04_tasks_and_placement.md R72, 04_tasks_and_placement.md R73, 04_tasks_and_placement.md R80, 04_tasks_and_placement.md
R81, 08_number_formats.md R173, 18_traps_faults_preemption.md R373, 22_retirement_and_system.md R386). The model's
choice: where the bytes of an evicted team are kept (log entry 62, DESIGN CHOICE), that a phase which an eviction
closes is requested again with what was left of it (log entry 53, DEDUCED), and the order and the cores of placement
(log entry 59, DEDUCED). -/
def Obligations.TeamEventsComplete : Prop :=
  (∀ (s : State) ti core t task c l k, s.teams[ti]? = some t → s.tasks[t.task]? = some task → s.contexts[t.ctx]? = some c → k = task.kern →
      s.nextPlacement = some ti → s.admits t.ctx k core = true → s.layout k core = some l →
      ∃ u t', exec (.placeTeam ti core) s = .next u ∧ u.teams[ti]? = some t' ∧ t'.stat = .running ∧ t'.core = core ∧
        t'.seats = l.map (fun x => x.2) ∧ t'.groups.length = k.team / k.width ∧
        ∀ n < k.team / k.width, ∃ gi g, t'.groups[n]? = some gi ∧ u.groups[gi]? = some g ∧ g.stat = .live ∧ g.width = k.width ∧ g.g = n ∧
          g.recs = [⟨false, 0, 1, k.width, k.entry, none, false, []⟩] ∧ (∀ j < 8, spGet 0#32 g.s j = task.args.getD j 0#32) ∧
          g.sr = srSeed c.srSeed (w32 t.t) (w32 n)) ∧
    (∀ (s : State) ti t, s.teams[ti]? = some t → s.canRetire t = true → ∃ u t', exec (.teamRetirement ti) s = .next u ∧
        u.teams[ti]? = some t' ∧ t'.stat = .retired ∧ t'.seats = [] ∧ t'.queues = [] ∧ t'.versions = t.versions ∧
        u.groups = s.groups ∧ u.mem = s.mem ∧ u.cores = s.cores) ∧
    (∀ (s : State) ti tile t v c, s.teams[ti]? = some t → t.stat = .retired → (t.versions.find? fun v => v.tile == tile) = some v →
      v.committed = false → s.contexts[t.ctx]? = some c → c.ending = false → s.earlierCommitted t tile = true →
      ∃ u c', exec (.versionCommit ti tile) s = .next u ∧ u.contexts[t.ctx]? = some c' ∧ spGet none c'.commits tile = some v.frame ∧
        u.mem = s.mem ∧ ∀ (n : Nat) (a b : Team), s.teams[n]? = some a → u.teams[n]? = some b → a.ctx = t.ctx → a.task ≤ t.task → a.stat ≠ .retired →
          ((s.tasks[a.task]?).map fun k => k.reads a.t tile) = some true → (∀ x ∈ a.readVers, x.1 ≠ tile) →
          (tile, spGet none c.commits tile) ∈ b.readVers) ∧
    (∀ (s : State) ti t, s.teams[ti]? = some t →
      (t.stat = .running → (∃ g ∈ s.groupsOf t, g.stat ≠ .ended) →
        exec (.preemptionRequest ti) s = .next (s.modTeam ti fun t => { t with preempt := true })) ∧
      exec (.preemptionWithdrawal ti) s = .next (s.modTeam ti fun t => { t with preempt := false })) ∧
    (∀ (s : State) ti t k core l, s.teams[ti]? = some t → s.kernelOf t = some k →
      (t.stat = .running → t.preempt = true → s.atPoints t = true → (∃ g ∈ s.groupsOf t, g.stat ≠ .ended) →
        exec (.eviction ti) s = .next ((s.closePhases t).moveTeam ti (saveCore ti) (s.seatsNow t) .evicted)) ∧
      ((∀ g ∈ s.groupsOf t, g.stat = .ended) → exec (.eviction ti) s = .next s) ∧
      (s.takesBack t k core = true → s.layout k core = some l →
        (t.stat = .evicted → s.higherReady t = false → ((s.contexts[t.ctx]?).map fun c => c.stat) = some .live →
          exec (.resumption ti core) s = .next ((s.moveTeam ti core l .running).reopenPhases ti)) ∧
        (t.stat = .running → s.atPoints t = true → (∃ g ∈ s.groupsOf t, g.stat ≠ .ended) → core ≠ t.core → (∀ g ∈ s.groupsOf t, g.oplog = []) →
          exec (.migration ti core) s = .next (((s.closePhases t).moveTeam ti core l .running).reopenPhases ti)))) ∧
    (∀ (s : State) ti t k core sl x y st o b, s.teams[ti]? = some t → s.kernelOf t = some k → k.paired = false → t.seats = [y] →
      sparseWf none 0 (s.core t.core).spad = true → o < y.footLen → spGet none (s.core t.core).spad (y.foot + o) = some b →
      spGet none ((s.moveTeam ti core [(sl, x)] st).core core).spad (x.foot + o) = some b) ∧
    (∀ (s : State) core k ctx, s.admits ctx k core = true → (∀ l, s.layout k core = some l → l.length = if k.paired then 2 else 1) ∧
      core < 2048 ∧ (k.paired = true → core % 2 = 0) ∧ ∀ c ∈ coresFor k core, (s.core c).avoided = false) ∧
    (∀ (s : State) core n f, (s.core core).fwd[n]? = some f → ∀ left, left = f.msgs.filter (fun m =>
        (((s.teams[f.team]?).map fun t => (s.groupsOf t).flatMap fun g => g.oplog.map fun x => x.ord).getD []).contains m) →
      exec (.forwardedMessage core n) s = .next (s.modCore core fun c =>
        { c with fwd := if left = [] then c.fwd.eraseIdx n else c.fwd.set n { f with msgs := left } })) ∧
    ∀ (s : State) ti t since, s.teams[ti]? = some t → t.cut = some since → s.ctxLive t.ctx = true →
      (s.canCut t = true ∨ since + 1000000 ≤ s.now) →
      (t.atomic = true → exec (.abortCutTimeout ti) s = .next ((s.modTeam ti fun t => { t with cut := none }).stopContext t.ctx "abort refused")) ∧
      (t.atomic = false → ∃ u t', exec (.abortCutTimeout ti) s = .next u ∧ u.teams[ti]? = some t' ∧ t'.stat = .ready ∧ t'.t = t.t ∧
        t'.versions = [] ∧ t'.requeues = t.requeues + 1 ∧ u.mem = s.mem ∧
        ∀ gi ∈ t.groups, ∀ g, u.groups[gi]? = some g → g.stat = .ended ∧ g.recs = [] ∧ g.oplog = [] ∧ g.storeq = [])

/-- O58. Calendar, avoidance, droop, island clocks and device time change as their rules say
(10_memory_seen_by_programs.md R208, 04_tasks_and_placement.md R78, 17_power_phases.md R348, 17_power_phases.md R350).
The model's choice: that the calendar goes on with the ck of its cluster and a refresh window needs no event (log
entry 6, DESIGN CHOICE), how temperature and droops are kept (log entry 12, DESIGN CHOICE), and the steps of the ramp
(log entry 68, DESIGN CHOICE). -/
def Obligations.PowerAndClockEventsComplete : Prop :=
  (∀ (s : State) cluster, exec (.refreshWindow cluster) s = .next s) ∧
    (∀ (s t : State) cluster, t.calendar = s.calendar → (t.island cluster).ckAt t.now = (s.island cluster).ckAt s.now + 1 →
      t.calendarPos cluster = (s.calendarPos cluster + 1) % 65536) ∧
    (∀ (x : Island) now, (x.tick now).ckAt now = x.ckAt now) ∧
    (∀ (s : State) core temp, sparseWf Core.reset 0 s.cores = true → core < 2048 →
      (∃ u, exec (.coreAvoidance core temp) s = .next u ∧ ((u.core core).avoided = true ↔ (s.core core).avoided = true ∨ 95 ≤ temp ∨
        8 ≤ ((s.core core).droops.filter fun d => decide (s.now < d + 1000000)).length) ∧ (u.core core).spad = (s.core core).spad ∧
        ((u.core core).hot = true ↔ 88 < temp) ∧
        (u.core core).lastHot = (if 88 < temp ∨ (s.core core).hot = true then s.now else (s.core core).lastHot) ∧
        { u with cores := s.cores } = s ∧ ∀ c, c ≠ core → u.core c = s.core c) ∧
      (∃ u, exec (.avoidanceEnd core) s = .next u ∧ ((u.core core).avoided = true ↔ (s.core core).avoided = true ∧
        ¬((s.core core).hot = false ∧ (s.core core).lastHot + 50000000 ≤ s.now ∧ ∀ d ∈ (s.core core).droops, d + 50000000 ≤ s.now)) ∧
        { u with cores := s.cores } = s ∧ ∀ c, c ≠ core → u.core c = s.core c) ∧
      ∃ u, exec (.droopEvent core) s = .next u ∧
        (u.core core).droops = s.now :: (s.core core).droops.filter (fun d => decide (s.now < d + 50000000)) ∧
        ((u.core core).avoided = true ↔ (s.core core).avoided = true ∨ 8 ≤ ((u.core core).droops.filter fun d => decide (s.now < d + 1000000)).length) ∧
        { u with cores := s.cores, islands := s.islands } = s ∧ ∀ c, c ≠ core → u.core c = s.core c) ∧
    (∀ (s : State) core x, sparseWf Island.reset 0 s.islands = true → core < 2048 → x = s.island (coreCluster core) →
      ∃ u, exec (.droopEvent core) s = .next u ∧ (x.hop = none → u.island (coreCluster core) = x.stretched s.now) ∧
        (x.hop ≠ none → u.island (coreCluster core) = { x with droop := true })) ∧
    (∀ (x : Island) now, x.since ≤ now → (x.stretched now).ckAt now = x.ckAt now ∧ ∀ later, now ≤ later → (x.stretched now).ckAt later ≤ x.ckAt later) ∧
    (∀ (s : State) n mhz, sparseWf Island.reset 0 s.islands = true → n < 128 →
      (400 ≤ mhz → mhz ≤ 1000 → mhz % 25 = 0 → ∃ u, exec (.islandFrequencyChange n mhz) s = .next u ∧
        u.island n = { s.island n with target := mhz } ∧ { u with islands := s.islands } = s ∧ ∀ m, m ≠ n → u.island m = s.island m) ∧
      (¬(400 ≤ mhz ∧ mhz ≤ 1000 ∧ mhz % 25 = 0) → exec (.islandFrequencyChange n mhz) s = .next s) ∧
      ((s.island n).hop = none → (s.island n).target ≠ (s.island n).mhz → (s.island n).target ≤ (s.island n).safe →
        ∃ u, exec (.clockHop n) s = .next u ∧ u.island n = { s.island n with hop := some (s.island n).target } ∧ ∀ m, m ≠ n → u.island m = s.island m) ∧
      ((s.island n).safe < (s.island n).target → exec (.clockHop n) s = .next s)) ∧
    (∀ (x : Island) now f, x.hop = some f → (x.tick now).mhz = f ∧ (x.tick now).hop = none ∧ (x.tick now).droop = false) ∧
    (∀ (x : Island) now, x.hop = none → (x.tick now).mhz = x.mhz ∧ (x.tick now).droop = x.droop ∧ (x.tick now).target = x.target) ∧
    (∀ (x : Island) now, x.mhz ≤ x.safe → (∀ f, x.hop = some f → f ≤ x.safe) → (x.tick now).mhz ≤ (x.tick now).safe) ∧
    ∀ (s : State) lock, ∃ u, exec (.deviceTimeLock lock) s = .next u ∧ u.stepCfg.getLsbD 21 = lock.isSome ∧
      u.devTime = lock.getD s.devTime ∧ { u with stepCfg := s.stepCfg, devTime := s.devTime } = s ∧
      ∀ j < 32, j ≠ 21 → u.stepCfg.getLsbD j = s.stepCfg.getLsbD j

/-- O59. The resident kernel carries out each request of the ring and answers it; boot, host and peer accesses
(22_retirement_and_system.md R392, 04_tasks_and_placement.md R73, 18_traps_faults_preemption.md R378,
18_traps_faults_preemption.md R357, 22_retirement_and_system.md R390, 22_retirement_and_system.md R391,
22_retirement_and_system.md R393, 22_retirement_and_system.md R394, 22_retirement_and_system.md R395,
22_retirement_and_system.md R396, 22_retirement_and_system.md R397). The model's choice: the order of what one event
writes in the rings (log entry 8, DESIGN CHOICE), firmware and how its signature is checked (log entry 9, DESIGN
CHOICE, and log entry 82, PRESUMED), peers and the time between misses (log entry 10, DESIGN CHOICE), debug acts (log
entry 27, DESIGN CHOICE), what a kill cuts (log entry 49, DEDUCED), host windows (log entry 78, DESIGN CHOICE), the
bytes of peers and of images (log entries 83 and 84, DESIGN CHOICE). -/
def Obligations.HostRequestsComplete : Prop :=
  (∀ (s : State) seq pr q m b root, s.booted = true → s.reqIs 1 seq = true → createOk pr m root = true →
      (s.quotas + q ≤ 16384 → ∃ u c, exec (.createContext seq pr q m b root) s = .next u ∧ u.contexts = s.contexts ++ [c] ∧ c.stat = .live ∧
        c.srSeed = 1#32 ∧ c.trapVec = 0#64 ∧ c.trapMask = 0#32 ∧ c.faultBudget = 10000 ∧ c.quota = q ∧ c.priority = pr ∧ c.dieMap = m ∧ c.bounded = b ∧
        u = State.respond { s.consume with contexts := s.contexts ++ [c] } 1 0 seq s.contexts.length (leBytes 4 s.contexts.length)) ∧
      (16384 < s.quotas + q → exec (.createContext seq pr q m b root) s = .next (s.consume.respond 1 0xFFFC seq (s.reqField 8 4) []))) ∧
    (∀ (s : State) seq ci addr len, s.takes 2 seq ci →
      (∀ t, s.consume.load ci (s.consume.pmReadN (ctxKey ci) addr len) = .ok t → exec (.loadObject seq ci addr len) s = .next (t.respond 2 0 seq ci [])) ∧
      (∀ st ix, s.consume.load ci (s.consume.pmReadN (ctxKey ci) addr len) = .error (st, ix) →
        exec (.loadObject seq ci addr len) s = .next (s.consume.respond 2 st seq ci (leBytes 4 ix)))) ∧
    (∀ (s : State) seq ci addr c out, s.takes 3 seq ci → s.contexts[ci]? = some c → s.reqField 16 8 = addr.toNat → s.entriesHeld ci < c.quota →
      out = s.consume.submitFrom ci c addr.toNat → exec (.startGroup seq ci addr) s = .next (out.1.respond 3 0 seq ci (leBytes 4 out.2.toNat))) ∧
    (∀ (s : State) seq ci, s.takes 4 seq ci → s.ctxGroups ci = [] → ∃ u c, exec (.killContext seq ci) s = .next u ∧
      u.contexts[ci]? = some c ∧ c.stat = .killed ∧ c.faults = [] ∧ c.kill = none ∧ (∀ va, u.homeOf ci va = none) ∧
      ∀ t ∈ u.tasks, t.ctx = ci → t.committed = true) ∧
    (∀ (s : State) ci c seq since, s.contexts[ci]? = some c → c.kill = some (seq, since) → since + 1000000 ≤ s.now →
      ∃ u c', exec (.killCutTimeout ci) s = .next u ∧ u.contexts[ci]? = some c' ∧ c'.stat = .killed ∧ ∀ g ∈ u.groups, g.ctx = ci → g.stat = .ended) ∧
    (∀ (s : State) seq ci nonce dst f, s.takes 5 seq ci → s.running = some f →
      (s.keyIndex < 2 ^ 20 → ∀ body, body = reportBody nonce f s.keyIndex → exec (.attest seq nonce dst) s = .next (State.respond
        (State.pmWriteN { s.consume with keyIndex := s.keyIndex + 1 } (ctxKey ci) dst (body ++ padTo 9732 (Config.xmssSign body s.keyIndex)))
          5 0 seq ci (leBytes 8 dst))) ∧
      (2 ^ 20 ≤ s.keyIndex → exec (.attest seq nonce dst) s = .next (s.consume.respond 5 2 seq ci []))) ∧
    (∀ (s : State) seq addr len, s.booted = false → s.winState.getLsbD 1 = true → s.reqIs 6 seq = true →
      ∃ u, exec (.pushFirmware seq addr len) s = .next u ∧
        match checkFirmware s.minVersion (s.pmReadN s.imageKey addr len) with
        | some f => u.booted = true ∧ u.running = some f ∧ u.winState = 1#64 ∧ u.minVersion.toNat = Nat.max s.minVersion.toNat f.version.toNat
        | none => u.booted = false ∧ u.running = s.running ∧ u.minVersion = s.minVersion) ∧
    (∀ (s : State) d0 d1 cfg pool, s.booted = true ∨ s.winState.getLsbD 1 = true → exec (.boot d0 d1 cfg pool) s = .next s) ∧
    (∀ (s : State) d0 d1 cfg pool, s.booted = false → s.winState.getLsbD 1 = false → ∃ u, exec (.boot d0 d1 cfg pool) s = .next u ∧
      match (checkFirmware s.minVersion d0).or (checkFirmware s.minVersion d1) with
      | some f => u.booted = true ∧ u.running = some f ∧ u.winState = 1#64 ∧ u.minVersion.toNat = Nat.max s.minVersion.toNat f.version.toNat
      | none => u.booted = false ∧ u.winState = 2#64 ∧ u.running = s.running) ∧
    (∀ (s : State) seq ci own nb, s.takes 7 seq ci → ∃ u, exec (.checkpoint seq ci own nb) s = .next u ∧
      u.ckpts = s.ckpts ++ [⟨seq, ci, own, nb, s.now, false⟩] ∧ ∀ (ti : Nat) (t : Team), s.teams[ti]? = some t → t.ctx = ci → t.stat = .running →
        u.teams[ti]? = some { t with preempt := t.preempt || s.evictable t }) ∧
    (∀ (s : State) k rest c, s.ckpts = k :: rest → s.contexts[k.ctx]? = some c →
      (k.wrote = false → s.runningTeams k.ctx = [] → ∃ u n, exec (.checkpoint k.seq k.ctx k.own k.neighbour) s = .next u ∧ n ∈ u.snaps ∧
        n.ctx = k.ctx ∧ n.own = k.own ∧ n.neighbour = k.neighbour ∧ n.cx = c ∧ { k with wrote := true } ∈ u.ckpts ∧ u.outbox = s.outbox ∧
        u.rspRing = s.rspRing) ∧
      (k.wrote = false → s.runningTeams k.ctx ≠ [] → exec (.checkpoint k.seq k.ctx k.own k.neighbour) s = .next (s.askAll k.ctx)) ∧
      (k.wrote = true → (∃ t ∈ s.teams, t.ctx = k.ctx ∧ s.canResume t = true) → exec (.checkpoint k.seq k.ctx k.own k.neighbour) s = .next s) ∧
      (k.wrote = true → (∀ t ∈ s.teams, t.ctx = k.ctx → s.canResume t = false) → exec (.checkpoint k.seq k.ctx k.own k.neighbour) s =
        .next (State.respond { s with ckpts := s.ckpts.filter fun x => x != k } 7 0 k.seq k.ctx [])) ∧
      (k.wrote = false → k.since + 1000000000 ≤ s.now → ∃ u, exec .checkpointTimeout s = .next u ∧
        u.ckpts = (s.ckpts.filter fun x => x != k) ∧ u.snaps = s.snaps ∧ u.mem = s.mem)) ∧
    (∀ (s : State) seq ci gi act, s.workRuns gi = true → exec (.debugAct seq ci gi act) s = .next s) ∧
    (∀ (s : State) seq ci gi act, s.takes 8 seq ci → s.workRuns gi = false → ∀ t c, t = s.consume → s.contexts[ci]? = some c →
      ((∃ g, s.groups[gi]? = some g ∧ g.ctx = ci ∧ (g.stat = .frozen ∨ (g.stat = .live ∧ c.stat = .stopped))) →
        exec (.debugAct seq ci gi act) s = .next ((t.debugDo gi act).1.respond 8 0 seq ci (leBytes 4 (t.debugDo gi act).2.toNat))) ∧
      ((∀ g, s.groups[gi]? = some g → g.ctx = ci → g.stat ≠ .frozen ∧ (g.stat = .live → c.stat ≠ .stopped)) →
        exec (.debugAct seq ci gi act) s = .next (t.respond 8 0xFFFD seq ci []))) ∧
    (∀ (s : State) (kind : BitVec 16) seq, s.booted = true → s.reqIs kind.toNat seq = true → (kind.toNat = 0 ∨ 8 < kind.toNat) →
      exec (.unknownKindRequest kind seq (s.reqField 8 4)) s = .next (s.consume.respond kind.toNat 0xFFFF seq (s.reqField 8 4) [])) ∧
    (∀ (s : State) seq ci addr len, s.booted = true → s.reqIs 2 seq = true → s.reqField 8 4 = ci → s.ctxBusy ci = false → s.liveCtx ci = false →
      exec (.loadObject seq ci addr len) s = .next (s.consume.respond 2 0xFFFE seq ci []) ∧
      (∀ act g, s.reqIs 8 seq = false → exec (.debugAct seq ci g act) s = .next s)) ∧
    (∀ (s : State) off n (v : BitVec 64), 1 ≤ n → n ≤ 8 →
      exec (.registerWrite 0 ⟨8, v⟩) s = .next (State.flushBox { s with reqTail := BitVec.ofNat 64 (v.toNat % 128) } s.outbox) ∧
      exec (.registerWrite 0x18 ⟨8, v⟩) s = .next (State.flushBox { s with rspHead := BitVec.ofNat 64 (v.toNat % 128) } s.outbox) ∧
      (0x4000 ≤ off → off + n ≤ 0x8000 → exec (.registerWrite off ⟨n, v⟩) s =
        .next (State.flushBox { s with reqRing := spSetAll 0#8 s.reqRing ((upto (off - 0x4000) n).zip (leBytes n v.toNat)) } s.outbox)) ∧
      ((8 ≤ off ∧ off + n ≤ 0x18) ∨ (0x20 ≤ off ∧ off + n ≤ 0x4000) ∨ 0x8000 ≤ off →
        exec (.registerWrite off ⟨n, v⟩) s = .next (s.flushBox s.outbox))) ∧
    (∀ s : State, (s.readWindow 0 40).hostData = leBytes 8 s.reqTail.toNat ++ leBytes 8 s.reqHead.toNat ++ leBytes 8 s.rspTail.toNat ++
        leBytes 8 s.rspHead.toNat ++ leBytes 8 s.winState.toNat ∧
      (∀ o < 0x4000, s.windowByte (0x4000 + o) = spGet 0#8 s.reqRing o ∧ s.windowByte (0x8000 + o) = spGet 0#8 s.rspRing o) ∧
      ∀ off, (0x28 ≤ off ∧ off < 0x4000) ∨ 0xC000 ≤ off → s.windowByte off = 0#8) ∧
    (∀ (s : State) win w (off : Addr), s.hostWins[win]? = some w →
      (∀ n ps, s.windowSpan w off.toNat n = some ps →
        exec (.hostMemoryAccess win off (.read n)) s = .next { s with hostData := ps.map fun p => s.pmRead p.1 p.2 } ∧
        ps.length = n ∧ ∀ j < n, off.toNat + j < w.len ∧ ∀ ci, w.ctx = some ci →
          ∃ pa, ps[j]? = some (ctxKey ci, pa) ∧ s.homeOf ci (w.base + (off.toNat + j)) = some pa ∧ pa < memTop) ∧
      (∀ bs ps, s.windowSpan w off.toNat bs.length = some ps → exec (.hostMemoryAccess win off (.write bs)) s =
        .next ((ps.zip bs).foldl (fun s x => s.pmWrite x.1.1 x.1.2 x.2) s)) ∧
      (∀ n bs, s.windowSpan w off.toNat n = none → bs.length = n → exec (.hostMemoryAccess win off (.read n)) s = .next s ∧
        exec (.hostMemoryAccess win off (.write bs)) s = .next s) ∧
      (∀ n, w.len < off.toNat + n → s.windowSpan w off.toNat n = none)) ∧
    (∀ (s : State) win off acc, s.hostWins[win]? = none → exec (.hostMemoryAccess win off acc) s = .next s) ∧
    (∀ (s : State) ci c pa size ty x repl, s.contexts[ci]? = some c → c.stat ≠ .killed → pa + size ≤ memTop → pa % size = 0 →
      (size ∈ [1, 2, 4, 8, 16] →
        exec (.peerAccess ci pa ⟨size, ty⟩ none (some x) repl) s = .next (s.pmWriteN (ctxKey ci) pa (leBytes size x.toNat)) ∧
        exec (.peerAccess ci pa ⟨size, ty⟩ none none repl) s = .next s) ∧
      ∀ op, ((op ∈ [AtomOp.add, .min, .max] ∧ ty ∈ [Ty.i32, .n32, .i64, .n64]) ∨ (op ∈ [AtomOp.and, .or, .xor, .exch] ∧ ty ∈ [Ty.b32, .b64]) ∨
          (op = .cas ∧ ty ∈ [Ty.n32, .n64]) ∨ (op ∈ [AtomOp.fadd, .fmin, .fmax] ∧ ty = .f32)) → size = 4 * tyWords ty →
        exec (.peerAccess ci pa ⟨size, ty⟩ (some op) (some x) repl) s = .next (s.pmWriteN (ctxKey ci) pa (leBytes size
          (atomNew op ty (BitVec.ofNat 64 (leNat (s.pmReadN (ctxKey ci) pa size))) (x.setWidth 64) repl).toNat))) ∧
    (∀ (s : State) slot spare p n, sparseWf none 0 s.peers = true → spGet none s.peers slot = some p →
        n = (if p.missed ≠ 0 ∧ s.now < p.since + 1000000000 then p.missed + 1 else 1) →
      (p.lost = false → exec (.peerLost slot) s = .next (State.faultPeer { s with peers := spSet none s.peers slot (some { p with lost := true }) } slot)) ∧
      (¬(p.lost = true ∧ p.missed = 4) → n < 4 → exec (.heartbeatMiss slot spare) s =
        .next { s with peers := spSet none s.peers slot (some { p with missed := n, since := s.now }) }) ∧
      (¬(p.lost = true ∧ p.missed = 4) → 4 ≤ n → ∃ u, exec (.heartbeatMiss slot spare) s = .next u ∧
        ∀ m q, spGet none s.peers m = some q → q.device = p.device → spGet none u.peers m = some { q with lost := true, missed := 4 }) ∧
      (p.lost = true → p.missed = 4 → ∃ u : State, exec (.heartbeatMiss slot spare) s = .next u.restoreAll ∧
        ∀ m q, spGet none s.peers m = some q → spGet none u.peers m = some (if q.device = p.device then ⟨spare, false, 0, s.now⟩ else q))) ∧
    ∀ (s : State) n, s.snaps = [n] → s.liveCtx n.ctx = true → s.restoreAll.contexts[n.ctx]? = some n.cx

/-- O60. Every instruction of a Pail: integer results, loads, stores, CSRs, queues, stopping (02_describing_work.md R22,
10_memory_seen_by_programs.md R222, 10_memory_seen_by_programs.md R223, 10_memory_seen_by_programs.md R224,
10_memory_seen_by_programs.md R219, 18_traps_faults_preemption.md R375). The model's choice: the meaning of the RISC-V
base instructions (log entry 16, PRESUMED), when an exception of a Pail is judged (log entry 17, DEDUCED) and what
pqhi holds (log entry 15, DEDUCED). -/
def Obligations.PailInstructionsComplete : Prop :=
  (∀ (p : Pail) n v, p.reg 0#5 = 0#32 ∧ p.setReg 0#5 v = p ∧ (n ≠ 0#5 → sparseWf 0#32 0 p.x = true →
      (p.setReg n v).reg n = v ∧ ∀ m, m ≠ n → (p.setReg n v).reg m = p.reg m)) ∧
    (∀ (s : State) i, s.pailIss = some i →
      let x (n : BitVec 5) : Word := i.p.reg n
      let done (pc : Word) (f : Pail → Pail) : State := s.modPail i.pi fun p => { f p with pc := pc, again := false, row := [], ran := s.pailCk i + 1 }
      let next (short : Bool) : Word := i.p.pc + if short then 2#32 else 4#32
      (∀ r short rd v pc, rvResult x i.p.pc (next short) r = some (rd, v, pc) → exec (.pailInstruction r short) s = .next (done pc fun p => p.setReg rd v)) ∧
      (∀ op rd rs imm rs2 short c, s.contexts[i.p.ctx]? = some c → s.pails[i.pi]? = some i.p →
        (∀ a : Word, a = x rs + imm.signExtend 32 → 0x10000 ≤ a.toNat → a.toNat + rvSize op ≤ 0x12000 → a.toNat % rvSize op = 0 →
          exec (.pailInstruction (.load op rd rs imm) short) s = .next (done (next short) fun p => p.setReg rd (rvExtend op
            (leNat ((upto (a.toNat - 0x10000) (rvSize op)).map (spGet 0#8 i.p.dstore))))) ∧
          exec (.pailInstruction (.store op rs rs2 imm) short) s = .next (done (next short) fun p =>
            { p with dstore := spSetAll 0#8 p.dstore ((upto (a.toNat - 0x10000) (rvSize op)).zip (leBytes (rvSize op) (x rs2).toNat)) })) ∧
        (∀ a : Word, a = x rs + imm.signExtend 32 → (a.toNat % rvSize op ≠ 0 ∨ a.toNat + rvSize op ≤ 0x10000 ∨ (0x60000 ≤ a.toNat ∧ a.toNat < 0x80000000)) →
          exec (.pailInstruction (.load op rd rs imm) short) s = .next (s.haltPail i true) ∧
          exec (.pailInstruction (.store op rs rs2 imm) short) s = .next (s.haltPail i true))) ∧
      (∀ op rd rs imm rs2 short c va pa s0, s.contexts[i.p.ctx]? = some c →
        (i.target c permR (x rs + imm.signExtend 32) (rvSize op) = some (.glob va) →
          s.access i.p.ctx (some i.p.team) va .read (op == .w) = (.ok pa, s0) →
          State.isDevice (s0.fillTlb i.p.core i.p.ctx va) (c.root) va = false →
          exec (.pailInstruction (.load op rd rs imm) short) s = .next (((s0.fillTlb i.p.core i.p.ctx va).modPail i.pi fun p =>
            { p.setReg rd (rvExtend op ((s0.fillTlb i.p.core i.p.ctx va).pailRead i va pa (rvSize op))) with
              pc := next short, again := false, row := [], ran := (s0.fillTlb i.p.core i.p.ctx va).pailCk i + 1 }))) ∧
        (i.target c permW (x rs + imm.signExtend 32) (rvSize op) = some (.glob va) → s.takenMeets i.p.ctx i.p.core va (rvSize op) = false →
          s.access i.p.ctx (some i.p.team) va .write (op == .w) = (.ok pa, s0) →
          State.isDevice (s0.fillTlb i.p.core i.p.ctx va) (c.root) va = false →
          exec (.pailInstruction (.store op rs rs2 imm) short) s = .next ((((s0.fillTlb i.p.core i.p.ctx va).writePa i.p.ctx pa (rvSize op)
            (x rs2).toNat)).pailDone i (next short) id))) ∧
      (∀ op imm rd src (num : BitVec 12) short v, v = (if imm = true then src.setWidth 32 else x src) →
        (num = 0x800#12 → exec (.pailInstruction (.csr op imm rd src num) short) s = .next (done (next short) fun p =>
          ({ p with pqhi := (csrNew op (i.p.pqhi.setWidth 32) v).setWidth 25 } : Pail).setReg rd
            (i.p.pqhi.setWidth 32))) ∧
        (num = 0x801#12 → exec (.pailInstruction (.csr op imm rd src num) short) s = .next (done (next short) fun p =>
          ({ p with pqbnd := (csrNew op (i.p.pqbnd.setWidth 32) v).setWidth 8 } : Pail).setReg rd
            (i.p.pqbnd.setWidth 32))) ∧
        (num ≠ 0x800#12 → num ≠ 0x801#12 → exec (.pailInstruction (.csr op imm rd src num) short) s = .next (s.haltPail i true))) ∧
      (∀ q rs n u, i.pqEnd q false = some (n, u) →
        (u.room (s.pailCk i) = true → exec (.pqPush q rs) s = .next (((s.modQueue i.p.team n fun u => u.bindPail false).modQueue i.p.team n fun u =>
          u.enter (List.replicate 64 (x rs)) (s.pailCk i)).pailDone i (i.p.pc + 4#32) id)) ∧
        (u.room (s.pailCk i) = false → ∀ s1, s1 = (s.modQueue i.p.team n fun u => u.bindPail false) →
          exec (.pqPush q rs) s = .next (if (u.bindPail false).cgone = true then s1.haltPail i true else
            s1.modPail i.pi fun p => { p with ran := s.pailCk i + 1 })) ∧
        (u.room (s.pailCk i) = true → i.p.row = [] → ∀ c, s.contexts[i.p.ctx]? = some c → (x rs).toNat % 4 = 0 → 0x10000 ≤ (x rs).toNat →
          (x rs).toNat + 4 * i.kern.width ≤ 0x12000 → i.kern.width ≤ 64 → s.pails[i.pi]? = some i.p → ∃ t, exec (.pqRowin q rs) s = .next t ∧
            (((t.teams[i.p.team]?).bind fun t => t.queues[n]?).map fun u => u.entries) = ((s.teams[i.p.team]?).bind fun t => t.queues[n]?).map fun u =>
              u.entries ++ [(List.range 64).map fun j => if j < i.kern.width then
                w32 (leNat ((upto ((x rs).toNat - 0x10000 + 4 * j) 4).map (spGet 0#8 i.p.dstore))) else 0#32])) ∧
      (∀ q rd n u, i.pqEnd q true = some (n, u) →
        (∀ e, u.head (s.pailCk i) = some e → exec (.pqPop q rd) s = .next (((s.modQueue i.p.team n fun u => u.bindPail true).popQueue i.p.team n).pailDone i
          (i.p.pc + 4#32) fun p => p.setReg rd (e.getD 0 0#32))) ∧
        (u.head (s.pailCk i) = none → exec (.pqPop q rd) s = .next ((s.modQueue i.p.team n fun u => u.bindPail true).modPail i.pi fun p =>
          { p with ran := s.pailCk i + 1 })) ∧
        (∀ e, u.head (s.pailCk i) = some e → i.p.row = [] → ∀ c, s.contexts[i.p.ctx]? = some c → (x rd).toNat % 4 = 0 → 0x10000 ≤ (x rd).toNat →
          (x rd).toNat + 4 * i.kern.width ≤ 0x12000 → i.kern.width ≤ e.length → s.pails[i.pi]? = some i.p → sparseWf 0#8 0 i.p.dstore = true →
          ∃ t p, exec (.pqRowout q rd) s = .next t ∧ t.pails[i.pi]? = some p ∧ p.pc = i.p.pc + 4#32 ∧ ∀ j < i.kern.width,
            w32 (leNat ((upto ((x rd).toNat - 0x10000 + 4 * j) 4).map (spGet 0#8 p.dstore))) = e.getD j 0#32)) ∧
      (∀ q rd, i.kern.queues ≤ q.toNat → exec (.pqStat q rd) s = .next (s.haltPail i true)) ∧
      (∀ q rd u, q.toNat < i.kern.queues → i.t.queues[i.queueIx q.toNat]? = some u → exec (.pqStat q rd) s = .next (done (i.p.pc + 4#32) fun p =>
        p.setReg rd (w32 (u.entries.length + (if u.gone then 256 else 0) + if u.pois then 512 else 0)))) ∧
      (∀ q r, i.pqEnd q false = none → exec (.pqPush q r) s = .next (s.haltPail i true) ∧ exec (.pqRowin q r) s = .next (s.haltPail i true)) ∧
      exec (.pailStop .ecall) s = .next (s.haltPail i (x 10#5 != 0#32)) ∧ exec (.pailStop .ebreak) s = .next (s.haltPail i true) ∧
      exec (.pailStop .exception) s = .next (s.haltPail i true)) ∧
    ∀ (s : State) i fault p, s.pails[i.pi]? = some p → ((s.haltPail i fault).pails[i.pi]?).map (fun p => (p.stat, p.x, p.dstore)) =
      some (if fault then .faulted else .stopped, p.x, p.dstore)
end

