-- ==== Sys2Proof/Laws/Issue.lean ====
section
/-!
SUPPORT. What the shared operations of Machine/Issue.lean can do: an issue runs its body on the issuing run and
settles what it answers; a value instruction whose records all take a cell delivers its value at every guarded position.
-/

namespace Sys2Proof.Machine

/-- The issue of a run takes the control field it was given. -/
theorem State.iss_k {s : State} {k : Ctl} {i : Iss} (h : s.iss k = some i) : i.k = k := by
  unfold State.iss at h
  split at h
  · simp only [Option.bind_eq_some_iff, Option.map_eq_some_iff] at h
    obtain ⟨_, _, _, _, _, _, _, _, _, _, rfl⟩ := h
    rfl
  · cases h

/-- An issue runs its body. -/
theorem State.issue_ok {s s' : State} {k : Ctl} {i : Iss} {body : Iss → Except Stop State} (hi : s.iss k = some i)
    (hb : body i = .ok s') (ht : i.trial = false) : s.issue k body = .next s' := by simp [State.issue, hi, hb, ht]

/-- An instruction that does not issue is settled. -/
theorem State.issue_error {s : State} {k : Ctl} {i : Iss} {e : Stop} {body : Iss → Except Stop State}
    (hi : s.iss k = some i) (hb : body i = .error e) : s.issue k body = .next (s.settle i e) := by
  simp [State.issue, hi, hb]

/-- With an issuing run, an issue always goes on. -/
theorem State.issue_next {s : State} {k : Ctl} {i : Iss} {body : Iss → Except Stop State} (hi : s.iss k = some i) :
    ∃ t, s.issue k body = .next t := by
  unfold State.issue; rw [hi]; cases h : body i <;> simp [h]

/-- No position fails: no trap. -/
@[simp] theorem failAt_nil (cls cause : Nat) : failAt cls cause [] = .ok () := rfl

/-- A trap at some failing position. -/
theorem failAt_ok {cls cause : Nat} {bad : List Nat} (h : failAt cls cause bad = .ok ()) : bad = [] := by
  cases bad with
  | nil => rfl
  | cons k l =>
    exfalso
    have hl : ∀ (a : Nat) (l : List Nat), ∃ m, leastBy id (a :: l) = some m := by
      intro a l
      simp only [leastBy]
      cases leastBy id l with
      | none => exact ⟨a, rfl⟩
      | some b => by_cases hab : a ≤ b <;> simp [hab]
    obtain ⟨m, hm⟩ := hl k l
    simp [failAt, hm] at h

/-- The positions of the run whose guard is true, by record. -/
theorem Iss.mem_onByAge {i : Iss} {p : Nat} : p ∈ i.onByAge ↔ ∃ r ∈ i.run, p ∈ i.onIn r := by
  simp [Iss.onByAge]

theorem mem_wordsAt {val : Nat → Nat → Word} {ps : List Nat} {j : Nat} {p : Nat × Word} :
    p ∈ wordsAt val ps j ↔ p.1 ∈ ps ∧ p.2 = val p.1 j := by
  obtain ⟨a, b⟩ := p
  simp only [wordsAt, List.mem_map, Prod.mk.injEq]
  constructor
  · rintro ⟨k, hk, rfl, rfl⟩; exact ⟨hk, rfl⟩
  · rintro ⟨hk, rfl⟩; exact ⟨a, hk, rfl, rfl⟩

theorem headD_mem {ps : List Nat} (h : ps ≠ []) : ps.headD 0 ∈ ps := by
  cases ps with
  | nil => exact absurd rfl h
  | cons a l => simp

/-- Writes to a destination are writes that the instruction may make. -/
theorem ValueForm.dstWrites_ok (F : ValueForm) {i : Iss} (t : Times) (hk : F.k = i.k) {ps : List Nat} {fs : List Form}
    (hps : ∀ p ∈ ps, p ∈ i.onByAge) : ∀ w ∈ i.dstWrites F.d F.words (F.val i t) ps fs, F.writeOk i t w := by
  intro w hw
  unfold Iss.dstWrites at hw
  split at hw
  · simp at hw
  · rename_i h
    simp only [Bool.or_eq_true, not_or, Bool.not_eq_true, List.isEmpty_eq_false_iff] at h
    split at hw
    · rename_i n hd
      simp only [List.mem_map, List.mem_range] at hw
      obtain ⟨j, hj, rfl⟩ := hw
      refine ⟨n, j, hd, hj, rfl, hk ▸ h.1, fun p hp => ?_⟩
      have := mem_wordsAt.1 hp
      exact ⟨hps _ this.1, this.2⟩
    · rename_i n hd
      simp only [List.mem_map, List.mem_range] at hw
      obtain ⟨j, hj, rfl⟩ := hw
      exact ⟨n, j, hd, hj, rfl, hk ▸ h.1, ps.headD 0, hps _ (headD_mem h.2), rfl⟩
    · simp at hw

/-- Writes to a latch are writes that the instruction may make. -/
theorem ValueForm.latchWrites_ok (F : ValueForm) {i : Iss} (t : Times) (hk : F.k = i.k) {ps : List Nat} {fs : List Form}
    (hps : ∀ p ∈ ps, p ∈ i.onByAge) : ∀ w ∈ i.latchWrites F.words (F.val i t) ps fs, F.writeOk i t w := by
  intro w hw
  unfold Iss.latchWrites at hw
  split at hw
  · simp at hw
  · obtain ⟨j, hj, rfl⟩ := List.mem_mapIdx.1 hw
    refine ⟨j, by rw [hk]; exact List.getElem?_eq_getElem hj, fun p hp => ?_⟩
    have := mem_wordsAt.1 hp
    exact ⟨hps _ this.1, this.2⟩

/-- A plan writes the destination at every guarded position. -/
theorem ValueForm.dstWrites_v (F : ValueForm) {i : Iss} (t : Times) (hk : F.k = i.k) {ps : List Nat} {fs : List Form} {n : Fin 64}
    (hd : F.d = .v n) (hn : F.k.nwb = false) {p j : Nat} (hp : p ∈ ps) (hj : j < F.words) :
    ∃ vs f, RegWrite.v (n.val + j) vs f ∈ i.dstWrites F.d F.words (F.val i t) ps fs ∧ (p, F.val i t p j) ∈ vs := by
  have hne : ps ≠ [] := by rintro rfl; simp at hp
  refine ⟨wordsAt (F.val i t) ps j, fs[j]?, ?_, mem_wordsAt.2 ⟨hp, rfl⟩⟩
  rw [hk] at hn
  simp [Iss.dstWrites, hn, hne, hd]
  exact hj

theorem ValueForm.dstWrites_s (F : ValueForm) {i : Iss} (t : Times) (hk : F.k = i.k) {ps : List Nat} {fs : List Form} {n : Fin 56}
    (hd : F.d = .s n) (hn : F.k.nwb = false) {j : Nat} (hne : ps ≠ []) (hj : j < F.words) :
    ∃ w, RegWrite.s (n.val + j) w ∈ i.dstWrites F.d F.words (F.val i t) ps fs := by
  rw [hk] at hn
  refine ⟨F.val i t (ps.headD 0) j, ?_⟩
  simp [Iss.dstWrites, hn, hne, hd]
  exact hj

theorem ValueForm.latchWrites_at (F : ValueForm) {i : Iss} (t : Times) (hk : F.k = i.k) {ps : List Nat} {fs : List Form} {j l : Nat}
    (hl : (heldLatches F.k.hold.toNat F.words)[j]? = some l) {p : Nat} (hp : p ∈ ps) :
    ∃ vs f, RegWrite.hl l vs f ∈ i.latchWrites F.words (F.val i t) ps fs ∧ (p, F.val i t p j) ∈ vs := by
  have hne : ps.isEmpty = false := by cases ps <;> simp_all
  rw [hk] at hl
  obtain ⟨h, rfl⟩ := List.getElem?_eq_some_iff.1 hl
  refine ⟨wordsAt (F.val i t) ps j, fs[j]?, ?_, mem_wordsAt.2 ⟨hp, rfl⟩⟩
  simp only [Iss.latchWrites, hne, Bool.false_eq_true, if_false]
  exact List.mem_mapIdx.2 ⟨j, h, rfl⟩

/-- The records of a run whose writes are computed. -/
theorem Iss.mem_run {i : Iss} {r : Rec} : r ∈ i.run ↔ r ∈ i.g.recs ∧ i.inRun r = true := by simp [Iss.run]

theorem mem_insertRec {x y : Rec} {l : List Rec} : y ∈ insertRec x l ↔ y = x ∨ y ∈ l := by
  induction l with
  | nil => simp [insertRec]
  | cons z l ih => simp only [insertRec]; split <;> simp [ih, or_left_comm]

theorem mem_foldr_insertRec {y : Rec} {l : List Rec} : y ∈ l.foldr insertRec [] ↔ y ∈ l := by
  induction l with
  | nil => simp
  | cons z l ih => simp [mem_insertRec, ih]

/-- The order in which the records of a run issue holds each of them. -/
theorem Iss.mem_inOrder {i : Iss} {r : Rec} : r ∈ i.inOrder ↔ r ∈ i.run := by
  simp only [Iss.inOrder, Iss.orderIn, List.mem_append, mem_foldr_insertRec, Iss.ranges, Iss.lanes, List.mem_filter,
    Bool.and_eq_true, Iss.mem_run]
  cases r.lane <;> simp

/-- A plan does nothing only for a record whose results land later or that has no guarded position. -/
theorem Iss.plan_ne_nothing {i : Iss} {d : Opnd} {words : Nat} {val : Nat → Nat → Word} {r : Rec} {c : Cell}
    (hc : c ≠ .later) (ho : i.onIn r ≠ []) : i.plan d words val r c ≠ .nothing := by
  have hne : (i.onIn r).isEmpty = false := by simpa [List.isEmpty_eq_false_iff] using ho
  have hpp : ∀ fs, i.partialPlan d r fs ≠ .nothing := by
    intro fs; unfold Iss.partialPlan; split <;> [split <;> simp; simp]
  cases c with
  | later => exact absurd rfl hc
  | skip => simp [Iss.plan, hne]
  | x => simp [Iss.plan]
  | form fs => simp only [Iss.plan, hne]; exact hpp _
  | fit st =>
    simp only [Iss.plan]
    split
    · simp only [hne]; exact hpp _
    · simp

/-- Where every acting range record takes a cell and an s destination gets U results, the instruction has results, and
once its passes are known to be those of gc they deliver its value. -/
theorem ValueForm.values_ok (F : ValueForm) {i : Iss} (hk : F.k = i.k) (gc : Group) (cell : Rec → Cell) (uni : Rec → Bool)
    (hcell : ∀ r ∈ i.run, r.lane = false → i.onIn r ≠ [] → cell r ≠ .later)
    (hs : (∀ n, F.d ≠ .s n) ∨ ∀ r ∈ i.run, i.onIn r ≠ [] → i.sFails F.words (F.val i (F.times i gc)) F.d cell uni r = false)
    (hgc : ∃ sel : Rec → Bool, (∀ r, sel r = true → i.inRun r = true) ∧ gc = i.g.expand sel) :
    ∃ v, i.values F.d F.words (F.val i (F.times i gc)) cell uni = .ok v ∧ v.g.sr = i.g.sr ∧
      F.Delivers i { v with gc := gc, g := { v.g with sr := F.sr i (F.times i gc) } } := by
  generalize ht : F.times i gc = t at *
  have hbad : (if isSDst F.d = true then
      (i.run.filter (i.sFails F.words (F.val i t) F.d cell uni)).flatMap i.onIn else []) = [] := by
    rcases hs with hs | hs
    · have : isSDst F.d = false := by
        cases hd : F.d <;> simp_all [isSDst]
      simp [this]
    · split
      · rw [List.flatMap_eq_nil_iff]
        intro r hr
        by_contra hne
        have := List.mem_filter.1 hr
        simp [hs r this.1 hne] at this
      · rfl
  unfold Iss.values
  simp only [hbad, failAt_nil]
  refine ⟨_, rfl, rfl, ?_⟩
  set expands : Rec → Bool := fun r => !r.lane && i.inRun r && i.plan F.d F.words (F.val i t) r (cell r) == .expand with hex
  set ws : Rec → List RegWrite := fun r =>
    i.recWrites F.d F.words (F.val i t) (uni r) (i.plan F.d F.words (F.val i t) r (cell r)) r (i.onIn r) with hws
  have hmem : ∀ w, (w ∈ ((i.inOrder.filter fun r => !r.lane && !expands r).flatMap ws) ++
      ((i.inOrder.filter fun r => r.lane || expands r).flatMap ws)) ↔ ∃ r ∈ i.run, w ∈ ws r := by
    intro w
    simp only [List.mem_append, List.mem_flatMap, List.mem_filter, Iss.mem_inOrder]
    constructor
    · rintro (⟨r, ⟨hr, -⟩, hw⟩ | ⟨r, ⟨hr, -⟩, hw⟩) <;> exact ⟨r, hr, hw⟩
    · rintro ⟨r, hr, hw⟩
      by_cases h : (r.lane || expands r) = true
      · exact .inr ⟨r, ⟨hr, h⟩, hw⟩
      · refine .inl ⟨r, ⟨hr, ?_⟩, hw⟩
        simpa using h
  -- every record of the run writes its destination and latch at its guarded positions
  have hrec : ∀ r ∈ i.run, i.onIn r ≠ [] → ∃ fs fm, ws r =
      i.dstWrites F.d F.words (F.val i t) (i.onIn r) fs ++ i.latchWrites F.words (F.val i t) (i.onIn r) fm := by
    intro r hr hne
    simp only [hws, Iss.recWrites]
    by_cases hl : r.lane = true
    · simp only [hl, if_true]; exact ⟨_, _, rfl⟩
    · simp only [Bool.not_eq_true] at hl
      simp only [hl, Bool.false_eq_true, if_false]
      have := Iss.plan_ne_nothing (d := F.d) (words := F.words) (val := F.val i t) (hcell r hr hl hne) hne
      cases hp : i.plan F.d F.words (F.val i t) r (cell r) with
      | nothing => exact absurd hp this
      | forms fs => exact ⟨_, _, rfl⟩
      | expand => exact ⟨_, _, rfl⟩
  have honly : ∀ r ∈ i.run, ∀ w ∈ ws r, F.writeOk i t w := by
    intro r hr w hw
    have hps : ∀ p ∈ i.onIn r, p ∈ i.onByAge := fun p hp => Iss.mem_onByAge.2 ⟨r, hr, hp⟩
    by_cases hne : i.onIn r = []
    · simp only [hws, Iss.recWrites, hne, Iss.dstWrites, Iss.latchWrites] at hw
      split at hw
      · simp at hw
      · split at hw <;> simp at hw
    · obtain ⟨fs, fm, h⟩ := hrec r hr hne
      rw [h] at hw
      rcases List.mem_append.1 hw with hw | hw
      · exact F.dstWrites_ok t hk hps w hw
      · exact F.latchWrites_ok t hk hps w hw
  refine ⟨?_, ?_, ?_, ?_, hgc, ⟨expands, ?_, by rw [ht]⟩, rfl, rfl⟩
  · intro w hw
    obtain ⟨r, hr, h⟩ := (hmem w).1 hw
    exact ht ▸ honly r hr w h
  · intro n hd hn p hp j hj
    obtain ⟨r, hr, hpr⟩ := Iss.mem_onByAge.1 hp
    obtain ⟨fs, fm, h⟩ := hrec r hr (List.ne_nil_of_mem hpr)
    obtain ⟨vs, f, hw, hv⟩ := F.dstWrites_v t hk (fs := fs) hd hn hpr hj
    exact ⟨vs, f, (hmem _).2 ⟨r, hr, h ▸ List.mem_append.2 (.inl hw)⟩, ht ▸ hv⟩
  · intro n hd hn hne j hj
    obtain ⟨p, hp⟩ := List.exists_mem_of_ne_nil _ hne
    obtain ⟨r, hr, hpr⟩ := Iss.mem_onByAge.1 hp
    obtain ⟨fs, fm, h⟩ := hrec r hr (List.ne_nil_of_mem hpr)
    obtain ⟨w, hw⟩ := F.dstWrites_s t hk (fs := fs) hd hn (List.ne_nil_of_mem hpr) hj
    exact ⟨w, (hmem _).2 ⟨r, hr, h ▸ List.mem_append.2 (.inl hw)⟩⟩
  · intro j l hl p hp
    obtain ⟨r, hr, hpr⟩ := Iss.mem_onByAge.1 hp
    obtain ⟨fs, fm, h⟩ := hrec r hr (List.ne_nil_of_mem hpr)
    obtain ⟨vs, f, hw, hv⟩ := F.latchWrites_at t hk (fs := fm) hl hpr
    exact ⟨vs, f, (hmem _).2 ⟨r, hr, h ▸ List.mem_append.2 (.inr hw)⟩, ht ▸ hv⟩
  · intro r hr
    simp only [hex, Bool.and_eq_true] at hr
    exact hr.1.2

/-! Checks 6 and 7 and the classes of sources -/

/-- What checks 6 and 7 leave true: the issue is none on trial. -/
theorem Iss.check_ok {i : Iss} {ns : List Need} (h : i.check ns = .ok ()) :
    (∀ n ∈ ns, n.ok i.kern = true) ∧ i.deadAt (ns.flatMap Need.vregs) = [] ∧ i.staleLatch ns = none ∧ i.trial = false := by
  simp only [Iss.check, Iss.checkWith] at h
  split at h
  · cases h
  · split at h
    · cases h
    · rename_i _ h2
      split at h
      · cases h
      · rename_i u hf
        cases u
        split at h
        · cases h
        · rename_i hl
          split at h
          · cases h
          · rename_i ht
            simp only [Bool.not_eq_true] at ht
            have hd := failAt_ok hf
            simp only [ht, Bool.false_and, Bool.not_false, List.filter_true] at hd
            refine ⟨?_, hd, hl, ht⟩
            intro n hn
            by_contra hc
            exact h2 (List.any_eq_true.2 ⟨n, hn, by simpa using hc⟩)

/-- A record that acts reads no dead register (R40). -/
theorem Iss.check_live {i : Iss} {ns : List Need} (h : i.check ns = .ok ()) {r : Rec} (hr : r ∈ i.run)
    (ho : i.onIn r ≠ []) {n : Need} (hn : n ∈ ns) {x : Nat} (hx : x ∈ n.vregs) : (r.form x).cls ≠ .d := by
  intro hc
  have hd := (Iss.check_ok h).2.1
  unfold Iss.deadAt at hd
  rw [List.flatMap_eq_nil_iff] at hd
  refine ho (hd r (List.mem_filter.2 ⟨hr, List.any_eq_true.2 ⟨x, List.mem_flatMap.2 ⟨n, hn, hx⟩, ?_⟩⟩))
  simp [hc]

theorem mkForm_cls (c0 c1 : Word) : (mkForm c0 c1).cls ≠ .d ∧ (mkForm c0 c1).cls ≠ .l := by
  unfold mkForm; split <;> simp

/-- The fit rule gives U and A forms. -/
theorem fitForm_cls {vs : List (Nat × Word)} {f : Form} (h : fitForm vs = some f) : f.cls ≠ .d ∧ f.cls ≠ .l := by
  unfold fitForm at h
  split at h
  · cases h; simp
  · cases h; simp
  · simp only at h
    split at h
    · cases h
    · simp only [Option.map_eq_some_iff] at h
      obtain ⟨c, _, rfl⟩ := h
      exact mkForm_cls _ _

/-- Nothing expands where nothing is chosen. -/
theorem Group.expand_none (g : Group) : g.expand (fun _ => false) = g := by
  simp [Group.expand, spSetAll, List.flatMap_singleton']

/-- A value instruction whose value is word for word the model's completes where its cells serve every acting range record
and a record whose result is said to be U has a U form. -/
theorem ValueForm.valueOp_completes_eq (F : ValueForm) {s : State} {i : Iss} (val : Iss → Nat → BitVec 64)
    (cell : Iss → Rec → Cell) (uni : Iss → Rec → Bool) (hi : s.iss F.k = some i) (hc : i.check F.ns = .ok ())
    (hv : ∀ t, (fun p => word (val (t p) p)) = F.val i t) (hu : ∀ t r x, F.uni i t r x = uni (t r.b) x)
    (hsr : ∀ t, F.sr i t = i.g.sr) (hco : F.coll = false) (hcell : ∀ j x, cell j x ≠ .later)
    (hform : ∀ j x, uni j x = true → ∃ fs, cell j x = .form fs ∧ (fs.map Form.norm).any (fun f => f.cls != .u) = false)
    (hs : F.sOk i) :
    ∃ v, F.Delivers i v ∧ s.valueOp F.k F.ns F.d F.words F.lr F.ll val cell uni = .next (s.finishValues i F.ns F.lr F.ll v) := by
  set cellIn : Times → Rec → Cell := fun t r => cellAt (fun x => cell (t r.b) x) (t r.b) r with hcin
  set first : Rec → Bool := fun r => !r.lane && i.inRun r &&
    i.plan F.d F.words (F.val i (F.times i i.g)) r (cellIn (F.times i i.g) r) == .expand with hfirst
  set gc := i.g.expand first with hgc
  set t := F.times i gc with ht
  have hsel : ∀ r, first r = true → i.inRun r = true := by
    intro r hr; simp only [hfirst, Bool.and_eq_true] at hr; exact hr.1.2
  have hlater : ∀ t r, cellIn t r ≠ .later := by
    intro t r; simp only [hcin, cellAt]; split
    · exact hcell _ _
    · simp
  -- an acting record with a U result takes a U form
  have hplan : ∀ t' n, F.d = .s n → ∀ r ∈ i.run, i.onIn r ≠ [] → (∃ x, (t' r.b).recNow r = some x ∧ F.uni i t' r x = true) →
      ∃ fs, i.plan F.d F.words (F.val i t') r (cellIn t' r) = .forms fs ∧ fs.any (fun f => f.cls != .u) = false := by
    intro t' n hd r hr ho ⟨x, hx, hux⟩
    rw [hu] at hux
    obtain ⟨fs, h1, h2⟩ := hform _ _ hux
    refine ⟨fs.map Form.norm, ?_, h2⟩
    have hne : (i.onIn r).isEmpty = false := by simpa [List.isEmpty_eq_false_iff] using ho
    simp [hcin, cellAt, hx, h1, Iss.plan, hne, Iss.partialPlan, Iss.vDst, hd]
  have hfno : ∀ n, F.d = .s n → ∀ r ∈ i.run, i.onIn r ≠ [] → first r = false := by
    intro n hd r hr ho
    rcases hs with hs | hs
    · exact absurd hd (hs n)
    · have h0 := hs (fun _ => false) (by simp) r hr ho
      rw [Group.expand_none] at h0
      obtain ⟨fs, hp, -⟩ := hplan _ n hd r hr ho h0
      simp [hfirst, hp]
  obtain ⟨v, hv1, hsr1, hd⟩ := F.values_ok (State.iss_k hi).symm gc (fun r => if first r then .x else cellIn t r)
    (fun r => (((t r.b).recNow r).map (uni (t r.b))).getD (uni (t r.b) r))
    (by intro r _ _ _; split
        · simp
        · exact hlater _ _)
    (by
      by_cases hd : ∃ n, F.d = .s n
      · obtain ⟨n, hd⟩ := hd
        refine .inr fun r hr ho => ?_
        rcases hs with hs | hs
        · exact absurd hd (hs n)
        · have h1 := hs first hsel r hr ho
          rw [← hgc] at h1
          have hne : (i.onIn r).isEmpty = false := by simpa [List.isEmpty_eq_false_iff] using ho
          unfold Iss.sFails
          simp only [hne, Bool.false_eq_true, if_false]
          split
          · obtain ⟨x, hx, hux⟩ := h1
            rw [hu] at hux
            rw [← ht] at hx hux
            simp [hx, hux]
          · obtain ⟨fs, hp, hf⟩ := hplan _ n hd r hr ho h1
            rw [← ht] at hp
            rw [hfno n hd r hr ho, if_neg (by simp), ← ht, hp]
            exact hf
      · exact .inl fun n hn => hd ⟨n, hn⟩)
    ⟨first, hsel, rfl⟩
  refine ⟨_, hd, ?_⟩
  unfold State.valueOp State.valueWith
  refine State.issue_ok hi ?_ (Iss.check_ok hc).2.2.2
  have htv : i.timedValues false (readRegs F.ns) F.d F.words (fun t p => word (val (t p) p)) (fun t r x => cell (t r.b) x)
      (fun t r x => uni (t r.b) x) = .ok { v with gc := gc } := by
    unfold Iss.timedValues
    simp only [hv]
    have hti : ∀ g, i.timed false (readRegs F.ns) g = F.times i g := by intro g; simp [ValueForm.times, hco]
    simp only [hti]
    change (i.values F.d F.words (F.val i t) (fun r => if first r then .x else cellIn t r)
      (fun r => (((t r.b).recNow r).map (uni (t r.b))).getD (uni (t r.b) r))).map _ = _
    rw [hv1]; rfl
  simp only [hc, htv]
  have : ({ v.g with sr := F.sr i (F.times i gc) } : Group) = v.g := by rw [hsr, ← hsr1]
  rw [this]

/-- The latches that a result fills are those of its words (R52). -/
theorem heldLatches_lt {hold words j l : Nat} (h : (heldLatches hold words)[j]? = some l) (hw : 0 < words) : j < words := by
  obtain ⟨h, -⟩ := List.getElem?_eq_some_iff.1 h
  unfold heldLatches at h
  split at h
  · simp at h
  · split at h
    · simp only [upto, List.length_map, List.length_range] at h; exact lt_of_lt_of_le h (Nat.min_le_left _ _)
    · simp only [List.length_singleton] at h; omega

/-- What is delivered depends on the words of a value that are asked for. -/
theorem ValueForm.Delivers.congr {F G : ValueForm} {i : Iss} {v : Values} (h : G.Delivers i v)
    (hF : F = { G with val := F.val }) (hw : 0 < F.words) (hv : ∀ t p j, j < F.words → G.val i t p j = F.val i t p j) :
    F.Delivers i v := by
  have h1 : G.k = F.k := by rw [hF]
  have h2 : G.d = F.d := by rw [hF]
  have h3 : G.words = F.words := by rw [hF]
  have h4 : G.times i v.gc = F.times i v.gc := by rw [hF]; rfl
  have h5 : G.sr = F.sr := by rw [hF]
  refine ⟨?_, ?_, ?_, ?_, h.passes, ?_, h.counts⟩
  · intro w hw'
    have := h.only w hw'
    rw [h4] at this
    cases w with
    | v r vs f =>
      obtain ⟨n, j, e1, e2, e3, e4, e5⟩ := this
      rw [h3] at e2
      exact ⟨n, j, h2 ▸ e1, e2, e3, h1 ▸ e4, fun p hp => ⟨(e5 p hp).1, (e5 p hp).2.trans (hv _ _ _ e2)⟩⟩
    | s r x =>
      obtain ⟨n, j, e1, e2, e3, e4, p, hp, e5⟩ := this
      rw [h3] at e2
      exact ⟨n, j, h2 ▸ e1, e2, e3, h1 ▸ e4, p, hp, e5.trans (hv _ _ _ e2)⟩
    | hl l vs u =>
      obtain ⟨j, e1, e2⟩ := this
      rw [h1, h3] at e1
      exact ⟨j, e1, fun p hp => ⟨(e2 p hp).1, (e2 p hp).2.trans (hv _ _ _ (heldLatches_lt e1 hw))⟩⟩
    | _ => exact this
  · intro n e1 e2 p hp j hj
    obtain ⟨vs, f, e3, e4⟩ := h.vreg n (h2 ▸ e1) (h1 ▸ e2) p hp j (h3 ▸ hj)
    exact ⟨vs, f, e3, hv _ p j hj ▸ h4 ▸ e4⟩
  · intro n e1 e2 e3 j hj
    exact h.sreg n (h2 ▸ e1) (h1 ▸ e2) e3 j (h3 ▸ hj)
  · intro j l e1 p hp
    obtain ⟨vs, u, e3, e4⟩ := h.latch j l (by rw [h1, h3]; exact e1) p hp
    exact ⟨vs, u, e3, hv _ p j (heldLatches_lt e1 hw) ▸ h4 ▸ e4⟩
  · obtain ⟨sel, e1, e2⟩ := h.group
    exact ⟨sel, e1, h5 ▸ h4 ▸ e2⟩

/-- A value instruction completes where its cells serve every acting range record and a record whose result is said to be
U has a U form. -/
theorem ValueForm.valueOp_completes (F : ValueForm) {s : State} {i : Iss} (val : Iss → Nat → BitVec 64)
    (cell : Iss → Rec → Cell) (uni : Iss → Rec → Bool) (hi : s.iss F.k = some i) (hc : i.check F.ns = .ok ())
    (hv : ∀ t p j, j < F.words → word (val (t p) p) j = F.val i t p j) (hw : 0 < F.words)
    (hu : ∀ t r x, F.uni i t r x = uni (t r.b) x) (hsr : ∀ t, F.sr i t = i.g.sr) (hco : F.coll = false)
    (hcell : ∀ j x, cell j x ≠ .later)
    (hform : ∀ j x, uni j x = true → ∃ fs, cell j x = .form fs ∧ (fs.map Form.norm).any (fun f => f.cls != .u) = false)
    (hs : F.sOk i) :
    ∃ v, F.Delivers i v ∧ s.valueOp F.k F.ns F.d F.words F.lr F.ll val cell uni = .next (s.finishValues i F.ns F.lr F.ll v) := by
  obtain ⟨v, h1, h2⟩ := ValueForm.valueOp_completes_eq { F with val := fun _ t p j => word (val (t p) p) j } val cell uni hi hc
    (fun _ => rfl) hu hsr hco hcell hform hs
  exact ⟨v, h1.congr rfl hw hv, h2⟩

end Sys2Proof.Machine
end

