-- ==== Sys2Proof/Laws/Integer.lean ====
section
/-!
SUPPORT. The shared operations of Machine/Integer.lean: an integer instruction completes with its value wherever its
operands pass their checks.
-/

namespace Sys2Proof.Machine

/-- A uniform record's cell is its U form. -/
theorem Iss.affineCell_u {i : Iss} {wide : Bool} {xs : List Src} {f : List (BitVec 64) → BitVec 64} {words : Nat}
    {aff : List Form → Option Form} {r : Rec} (h : i.allU wide xs r = true) :
    i.affineCell wide xs f words aff r = .form (uniformForms (f (i.vals wide xs r.b)) words) := by
  have : i.worst wide xs r = .u := by simpa [Iss.allU] using h
  simp [Iss.affineCell, Iss.generalCell, this]

/-- A value instruction lands its results by its latency, none at a completion of its own. -/
theorem Iss.generalCell_ne_later {i : Iss} {wide : Bool} {xs : List Src} {f : List (BitVec 64) → BitVec 64} {words : Nat}
    {r : Rec} : i.generalCell wide xs f words r ≠ .later := by
  unfold Iss.generalCell; split <;> simp

theorem Iss.affineCell_ne_later {i : Iss} {wide : Bool} {xs : List Src} {f : List (BitVec 64) → BitVec 64} {words : Nat}
    {aff : List Form → Option Form} {r : Rec} : i.affineCell wide xs f words aff r ≠ .later := by
  unfold Iss.affineCell
  split
  · split
    · simp
    · split <;> simp
  · exact Iss.generalCell_ne_later

/-- U forms stay U. -/
theorem uniformForms_norm (x : BitVec 64) (n : Nat) :
    ((uniformForms x n).map Form.norm).any (fun f => f.cls != .u) = false := by
  simp [uniformForms, Form.norm]

/-- An integer instruction completes with its value. -/
theorem State.intOp_completes {s : State} {i : Iss} {k : Ctl} {ty : Ty} {d : Opnd} {xs : List Src}
    {f : List (BitVec 64) → BitVec 64} {aff : List Form → Option Form} {g : (w : Nat) → List (BitVec w) → BitVec w}
    (hi : s.iss k = some i) (hc : i.check (intForm k ty d xs g).ns = .ok ()) (hs : (intForm k ty d xs g).sOk i)
    (hf : ∀ (j : Iss) p n, n < tyWords ty → word (f (j.vals ty.wide xs p)) n = intVal ty g xs j p n) :
    ∃ v, (intForm k ty d xs g).Delivers i v ∧
      s.intOp k ty d xs f aff = .next (s.finishValues i (intForm k ty d xs g).ns 1 2 v) :=
  ValueForm.valueOp_completes (intForm k ty d xs g) _ _ _ hi hc (fun t p n hn => hf (t p) p n hn)
    (by unfold intForm tyWords; dsimp only; split <;> simp) (fun _ _ _ => rfl) (fun _ => rfl) rfl (fun _ _ => Iss.affineCell_ne_later) (fun _ _ h => ⟨_, Iss.affineCell_u h, uniformForms_norm _ _⟩) hs

/-- A count completes with its value. -/
theorem State.countOp_completes {s : State} {i : Iss} {k : Ctl} {ty : Ty} {d a : Opnd} {f : BitVec 64 → BitVec 64}
    {g : (w : Nat) → BitVec w → BitVec w} (hi : s.iss k = some i) (hc : i.check (countForm k ty d a g).ns = .ok ())
    (hs : (countForm k ty d a g).sOk i)
    (hf : ∀ t p, word (f ((t p).g.src ty.wide (.op a) p)) 0 = (countForm k ty d a g).val i t p 0) :
    ∃ v, (countForm k ty d a g).Delivers i v ∧
      s.countOp k ty d a f = .next (s.finishValues i (countForm k ty d a g).ns 1 2 v) :=
  ValueForm.valueOp_completes (countForm k ty d a g) _ _ _ hi hc (fun t p j hj => by
      have : j = 0 := by simp [countForm] at hj; exact hj
      subst this; exact hf t p) (by simp [countForm]) (fun _ _ _ => rfl) (fun _ => rfl) rfl
    (fun _ _ => Iss.generalCell_ne_later)
    (fun j x h => ⟨uniformForms (f (j.g.src ty.wide (.op a) x.b)) 1, by
      have : j.worst ty.wide [.op a] x = .u := by simpa [Iss.allU] using h
      simp [Iss.generalCell, this, Iss.vals, on1], uniformForms_norm _ _⟩) hs

end Sys2Proof.Machine
end

