-- ==== Sys2Proof/Laws/State.lean ====
section
/-!
SUPPORT. One lemma per field of the state and per named update of Machine/Ops.lean: what the update leaves as it was,
and what it writes. No later proof unfolds a record update.
-/

namespace Sys2Proof.Machine

/-! modGroup -/

@[simp] theorem State.modGroup_now (s : State) (gi : Nat) (f : Group → Group) : (s.modGroup gi f).now = s.now := rfl
@[simp] theorem State.modGroup_agenda (s : State) (gi : Nat) (f : Group → Group) : (s.modGroup gi f).agenda = s.agenda := rfl
@[simp] theorem State.modGroup_issuer (s : State) (gi : Nat) (f : Group → Group) : (s.modGroup gi f).issuer = s.issuer := rfl
@[simp] theorem State.modGroup_freeCtr (s : State) (gi : Nat) (f : Group → Group) : (s.modGroup gi f).freeCtr = s.freeCtr := rfl
@[simp] theorem State.modGroup_ord (s : State) (gi : Nat) (f : Group → Group) : (s.modGroup gi f).ord = s.ord := rfl
@[simp] theorem State.modGroup_delays (s : State) (gi : Nat) (f : Group → Group) : (s.modGroup gi f).delays = s.delays := rfl
@[simp] theorem State.modGroup_mem (s : State) (gi : Nat) (f : Group → Group) : (s.modGroup gi f).mem = s.mem := rfl
@[simp] theorem State.modGroup_units (s : State) (gi : Nat) (f : Group → Group) : (s.modGroup gi f).units = s.units := rfl
@[simp] theorem State.modGroup_creamery (s : State) (gi : Nat) (f : Group → Group) : (s.modGroup gi f).creamery = s.creamery := rfl
@[simp] theorem State.modGroup_calendar (s : State) (gi : Nat) (f : Group → Group) : (s.modGroup gi f).calendar = s.calendar := rfl
@[simp] theorem State.modGroup_tlb (s : State) (gi : Nat) (f : Group → Group) : (s.modGroup gi f).tlb = s.tlb := rfl
@[simp] theorem State.modGroup_pool (s : State) (gi : Nat) (f : Group → Group) : (s.modGroup gi f).pool = s.pool := rfl
@[simp] theorem State.modGroup_nextFrame (s : State) (gi : Nat) (f : Group → Group) : (s.modGroup gi f).nextFrame = s.nextFrame := rfl
@[simp] theorem State.modGroup_freeFrames (s : State) (gi : Nat) (f : Group → Group) : (s.modGroup gi f).freeFrames = s.freeFrames := rfl
@[simp] theorem State.modGroup_oldFrames (s : State) (gi : Nat) (f : Group → Group) : (s.modGroup gi f).oldFrames = s.oldFrames := rfl
@[simp] theorem State.modGroup_bindings (s : State) (gi : Nat) (f : Group → Group) : (s.modGroup gi f).bindings = s.bindings := rfl
@[simp] theorem State.modGroup_cores (s : State) (gi : Nat) (f : Group → Group) : (s.modGroup gi f).cores = s.cores := rfl
@[simp] theorem State.modGroup_contexts (s : State) (gi : Nat) (f : Group → Group) : (s.modGroup gi f).contexts = s.contexts := rfl
@[simp] theorem State.modGroup_tasks (s : State) (gi : Nat) (f : Group → Group) : (s.modGroup gi f).tasks = s.tasks := rfl
@[simp] theorem State.modGroup_teams (s : State) (gi : Nat) (f : Group → Group) : (s.modGroup gi f).teams = s.teams := rfl
@[simp] theorem State.modGroup_groups (s : State) (gi : Nat) (f : Group → Group) : (s.modGroup gi f).groups = modAt s.groups gi f := rfl
@[simp] theorem State.modGroup_pails (s : State) (gi : Nat) (f : Group → Group) : (s.modGroup gi f).pails = s.pails := rfl
@[simp] theorem State.modGroup_turn (s : State) (gi : Nat) (f : Group → Group) : (s.modGroup gi f).turn = s.turn := rfl
@[simp] theorem State.modGroup_trapSeq (s : State) (gi : Nat) (f : Group → Group) : (s.modGroup gi f).trapSeq = s.trapSeq := rfl
@[simp] theorem State.modGroup_reqTail (s : State) (gi : Nat) (f : Group → Group) : (s.modGroup gi f).reqTail = s.reqTail := rfl
@[simp] theorem State.modGroup_reqHead (s : State) (gi : Nat) (f : Group → Group) : (s.modGroup gi f).reqHead = s.reqHead := rfl
@[simp] theorem State.modGroup_rspTail (s : State) (gi : Nat) (f : Group → Group) : (s.modGroup gi f).rspTail = s.rspTail := rfl
@[simp] theorem State.modGroup_rspHead (s : State) (gi : Nat) (f : Group → Group) : (s.modGroup gi f).rspHead = s.rspHead := rfl
@[simp] theorem State.modGroup_winState (s : State) (gi : Nat) (f : Group → Group) : (s.modGroup gi f).winState = s.winState := rfl
@[simp] theorem State.modGroup_reqRing (s : State) (gi : Nat) (f : Group → Group) : (s.modGroup gi f).reqRing = s.reqRing := rfl
@[simp] theorem State.modGroup_rspRing (s : State) (gi : Nat) (f : Group → Group) : (s.modGroup gi f).rspRing = s.rspRing := rfl
@[simp] theorem State.modGroup_outbox (s : State) (gi : Nat) (f : Group → Group) : (s.modGroup gi f).outbox = s.outbox := rfl
@[simp] theorem State.modGroup_hostWins (s : State) (gi : Nat) (f : Group → Group) : (s.modGroup gi f).hostWins = s.hostWins := rfl
@[simp] theorem State.modGroup_hostData (s : State) (gi : Nat) (f : Group → Group) : (s.modGroup gi f).hostData = s.hostData := rfl
@[simp] theorem State.modGroup_stepCfg (s : State) (gi : Nat) (f : Group → Group) : (s.modGroup gi f).stepCfg = s.stepCfg := rfl
@[simp] theorem State.modGroup_devTime (s : State) (gi : Nat) (f : Group → Group) : (s.modGroup gi f).devTime = s.devTime := rfl
@[simp] theorem State.modGroup_islands (s : State) (gi : Nat) (f : Group → Group) : (s.modGroup gi f).islands = s.islands := rfl
@[simp] theorem State.modGroup_peers (s : State) (gi : Nat) (f : Group → Group) : (s.modGroup gi f).peers = s.peers := rfl
@[simp] theorem State.modGroup_devWrites (s : State) (gi : Nat) (f : Group → Group) : (s.modGroup gi f).devWrites = s.devWrites := rfl
@[simp] theorem State.modGroup_ckpts (s : State) (gi : Nat) (f : Group → Group) : (s.modGroup gi f).ckpts = s.ckpts := rfl
@[simp] theorem State.modGroup_snaps (s : State) (gi : Nat) (f : Group → Group) : (s.modGroup gi f).snaps = s.snaps := rfl
@[simp] theorem State.modGroup_running (s : State) (gi : Nat) (f : Group → Group) : (s.modGroup gi f).running = s.running := rfl
@[simp] theorem State.modGroup_minVersion (s : State) (gi : Nat) (f : Group → Group) : (s.modGroup gi f).minVersion = s.minVersion := rfl
@[simp] theorem State.modGroup_keyIndex (s : State) (gi : Nat) (f : Group → Group) : (s.modGroup gi f).keyIndex = s.keyIndex := rfl
@[simp] theorem State.modGroup_drives (s : State) (gi : Nat) (f : Group → Group) : (s.modGroup gi f).drives = s.drives := rfl
@[simp] theorem State.modGroup_booted (s : State) (gi : Nat) (f : Group → Group) : (s.modGroup gi f).booted = s.booted := rfl
@[simp] theorem State.modGroup_harts (s : State) (gi : Nat) (f : Group → Group) : (s.modGroup gi f).harts = s.harts := rfl
@[simp] theorem State.modGroup_sram (s : State) (gi : Nat) (f : Group → Group) : (s.modGroup gi f).sram = s.sram := rfl

/-! modTeam -/

@[simp] theorem State.modTeam_now (s : State) (ti : Nat) (f : Team → Team) : (s.modTeam ti f).now = s.now := rfl
@[simp] theorem State.modTeam_agenda (s : State) (ti : Nat) (f : Team → Team) : (s.modTeam ti f).agenda = s.agenda := rfl
@[simp] theorem State.modTeam_issuer (s : State) (ti : Nat) (f : Team → Team) : (s.modTeam ti f).issuer = s.issuer := rfl
@[simp] theorem State.modTeam_freeCtr (s : State) (ti : Nat) (f : Team → Team) : (s.modTeam ti f).freeCtr = s.freeCtr := rfl
@[simp] theorem State.modTeam_ord (s : State) (ti : Nat) (f : Team → Team) : (s.modTeam ti f).ord = s.ord := rfl
@[simp] theorem State.modTeam_delays (s : State) (ti : Nat) (f : Team → Team) : (s.modTeam ti f).delays = s.delays := rfl
@[simp] theorem State.modTeam_mem (s : State) (ti : Nat) (f : Team → Team) : (s.modTeam ti f).mem = s.mem := rfl
@[simp] theorem State.modTeam_units (s : State) (ti : Nat) (f : Team → Team) : (s.modTeam ti f).units = s.units := rfl
@[simp] theorem State.modTeam_creamery (s : State) (ti : Nat) (f : Team → Team) : (s.modTeam ti f).creamery = s.creamery := rfl
@[simp] theorem State.modTeam_calendar (s : State) (ti : Nat) (f : Team → Team) : (s.modTeam ti f).calendar = s.calendar := rfl
@[simp] theorem State.modTeam_tlb (s : State) (ti : Nat) (f : Team → Team) : (s.modTeam ti f).tlb = s.tlb := rfl
@[simp] theorem State.modTeam_pool (s : State) (ti : Nat) (f : Team → Team) : (s.modTeam ti f).pool = s.pool := rfl
@[simp] theorem State.modTeam_nextFrame (s : State) (ti : Nat) (f : Team → Team) : (s.modTeam ti f).nextFrame = s.nextFrame := rfl
@[simp] theorem State.modTeam_freeFrames (s : State) (ti : Nat) (f : Team → Team) : (s.modTeam ti f).freeFrames = s.freeFrames := rfl
@[simp] theorem State.modTeam_oldFrames (s : State) (ti : Nat) (f : Team → Team) : (s.modTeam ti f).oldFrames = s.oldFrames := rfl
@[simp] theorem State.modTeam_bindings (s : State) (ti : Nat) (f : Team → Team) : (s.modTeam ti f).bindings = s.bindings := rfl
@[simp] theorem State.modTeam_cores (s : State) (ti : Nat) (f : Team → Team) : (s.modTeam ti f).cores = s.cores := rfl
@[simp] theorem State.modTeam_contexts (s : State) (ti : Nat) (f : Team → Team) : (s.modTeam ti f).contexts = s.contexts := rfl
@[simp] theorem State.modTeam_tasks (s : State) (ti : Nat) (f : Team → Team) : (s.modTeam ti f).tasks = s.tasks := rfl
@[simp] theorem State.modTeam_teams (s : State) (ti : Nat) (f : Team → Team) : (s.modTeam ti f).teams = modAt s.teams ti f := rfl
@[simp] theorem State.modTeam_groups (s : State) (ti : Nat) (f : Team → Team) : (s.modTeam ti f).groups = s.groups := rfl
@[simp] theorem State.modTeam_pails (s : State) (ti : Nat) (f : Team → Team) : (s.modTeam ti f).pails = s.pails := rfl
@[simp] theorem State.modTeam_turn (s : State) (ti : Nat) (f : Team → Team) : (s.modTeam ti f).turn = s.turn := rfl
@[simp] theorem State.modTeam_trapSeq (s : State) (ti : Nat) (f : Team → Team) : (s.modTeam ti f).trapSeq = s.trapSeq := rfl
@[simp] theorem State.modTeam_reqTail (s : State) (ti : Nat) (f : Team → Team) : (s.modTeam ti f).reqTail = s.reqTail := rfl
@[simp] theorem State.modTeam_reqHead (s : State) (ti : Nat) (f : Team → Team) : (s.modTeam ti f).reqHead = s.reqHead := rfl
@[simp] theorem State.modTeam_rspTail (s : State) (ti : Nat) (f : Team → Team) : (s.modTeam ti f).rspTail = s.rspTail := rfl
@[simp] theorem State.modTeam_rspHead (s : State) (ti : Nat) (f : Team → Team) : (s.modTeam ti f).rspHead = s.rspHead := rfl
@[simp] theorem State.modTeam_winState (s : State) (ti : Nat) (f : Team → Team) : (s.modTeam ti f).winState = s.winState := rfl
@[simp] theorem State.modTeam_reqRing (s : State) (ti : Nat) (f : Team → Team) : (s.modTeam ti f).reqRing = s.reqRing := rfl
@[simp] theorem State.modTeam_rspRing (s : State) (ti : Nat) (f : Team → Team) : (s.modTeam ti f).rspRing = s.rspRing := rfl
@[simp] theorem State.modTeam_outbox (s : State) (ti : Nat) (f : Team → Team) : (s.modTeam ti f).outbox = s.outbox := rfl
@[simp] theorem State.modTeam_hostWins (s : State) (ti : Nat) (f : Team → Team) : (s.modTeam ti f).hostWins = s.hostWins := rfl
@[simp] theorem State.modTeam_hostData (s : State) (ti : Nat) (f : Team → Team) : (s.modTeam ti f).hostData = s.hostData := rfl
@[simp] theorem State.modTeam_stepCfg (s : State) (ti : Nat) (f : Team → Team) : (s.modTeam ti f).stepCfg = s.stepCfg := rfl
@[simp] theorem State.modTeam_devTime (s : State) (ti : Nat) (f : Team → Team) : (s.modTeam ti f).devTime = s.devTime := rfl
@[simp] theorem State.modTeam_islands (s : State) (ti : Nat) (f : Team → Team) : (s.modTeam ti f).islands = s.islands := rfl
@[simp] theorem State.modTeam_peers (s : State) (ti : Nat) (f : Team → Team) : (s.modTeam ti f).peers = s.peers := rfl
@[simp] theorem State.modTeam_devWrites (s : State) (ti : Nat) (f : Team → Team) : (s.modTeam ti f).devWrites = s.devWrites := rfl
@[simp] theorem State.modTeam_ckpts (s : State) (ti : Nat) (f : Team → Team) : (s.modTeam ti f).ckpts = s.ckpts := rfl
@[simp] theorem State.modTeam_snaps (s : State) (ti : Nat) (f : Team → Team) : (s.modTeam ti f).snaps = s.snaps := rfl
@[simp] theorem State.modTeam_running (s : State) (ti : Nat) (f : Team → Team) : (s.modTeam ti f).running = s.running := rfl
@[simp] theorem State.modTeam_minVersion (s : State) (ti : Nat) (f : Team → Team) : (s.modTeam ti f).minVersion = s.minVersion := rfl
@[simp] theorem State.modTeam_keyIndex (s : State) (ti : Nat) (f : Team → Team) : (s.modTeam ti f).keyIndex = s.keyIndex := rfl
@[simp] theorem State.modTeam_drives (s : State) (ti : Nat) (f : Team → Team) : (s.modTeam ti f).drives = s.drives := rfl
@[simp] theorem State.modTeam_booted (s : State) (ti : Nat) (f : Team → Team) : (s.modTeam ti f).booted = s.booted := rfl
@[simp] theorem State.modTeam_harts (s : State) (ti : Nat) (f : Team → Team) : (s.modTeam ti f).harts = s.harts := rfl
@[simp] theorem State.modTeam_sram (s : State) (ti : Nat) (f : Team → Team) : (s.modTeam ti f).sram = s.sram := rfl

/-! modCtx -/

@[simp] theorem State.modCtx_now (s : State) (ci : Nat) (f : Context → Context) : (s.modCtx ci f).now = s.now := rfl
@[simp] theorem State.modCtx_agenda (s : State) (ci : Nat) (f : Context → Context) : (s.modCtx ci f).agenda = s.agenda := rfl
@[simp] theorem State.modCtx_issuer (s : State) (ci : Nat) (f : Context → Context) : (s.modCtx ci f).issuer = s.issuer := rfl
@[simp] theorem State.modCtx_freeCtr (s : State) (ci : Nat) (f : Context → Context) : (s.modCtx ci f).freeCtr = s.freeCtr := rfl
@[simp] theorem State.modCtx_ord (s : State) (ci : Nat) (f : Context → Context) : (s.modCtx ci f).ord = s.ord := rfl
@[simp] theorem State.modCtx_delays (s : State) (ci : Nat) (f : Context → Context) : (s.modCtx ci f).delays = s.delays := rfl
@[simp] theorem State.modCtx_mem (s : State) (ci : Nat) (f : Context → Context) : (s.modCtx ci f).mem = s.mem := rfl
@[simp] theorem State.modCtx_units (s : State) (ci : Nat) (f : Context → Context) : (s.modCtx ci f).units = s.units := rfl
@[simp] theorem State.modCtx_creamery (s : State) (ci : Nat) (f : Context → Context) : (s.modCtx ci f).creamery = s.creamery := rfl
@[simp] theorem State.modCtx_calendar (s : State) (ci : Nat) (f : Context → Context) : (s.modCtx ci f).calendar = s.calendar := rfl
@[simp] theorem State.modCtx_tlb (s : State) (ci : Nat) (f : Context → Context) : (s.modCtx ci f).tlb = s.tlb := rfl
@[simp] theorem State.modCtx_pool (s : State) (ci : Nat) (f : Context → Context) : (s.modCtx ci f).pool = s.pool := rfl
@[simp] theorem State.modCtx_nextFrame (s : State) (ci : Nat) (f : Context → Context) : (s.modCtx ci f).nextFrame = s.nextFrame := rfl
@[simp] theorem State.modCtx_freeFrames (s : State) (ci : Nat) (f : Context → Context) : (s.modCtx ci f).freeFrames = s.freeFrames := rfl
@[simp] theorem State.modCtx_oldFrames (s : State) (ci : Nat) (f : Context → Context) : (s.modCtx ci f).oldFrames = s.oldFrames := rfl
@[simp] theorem State.modCtx_bindings (s : State) (ci : Nat) (f : Context → Context) : (s.modCtx ci f).bindings = s.bindings := rfl
@[simp] theorem State.modCtx_cores (s : State) (ci : Nat) (f : Context → Context) : (s.modCtx ci f).cores = s.cores := rfl
@[simp] theorem State.modCtx_contexts (s : State) (ci : Nat) (f : Context → Context) : (s.modCtx ci f).contexts = modAt s.contexts ci f := rfl
@[simp] theorem State.modCtx_tasks (s : State) (ci : Nat) (f : Context → Context) : (s.modCtx ci f).tasks = s.tasks := rfl
@[simp] theorem State.modCtx_teams (s : State) (ci : Nat) (f : Context → Context) : (s.modCtx ci f).teams = s.teams := rfl
@[simp] theorem State.modCtx_groups (s : State) (ci : Nat) (f : Context → Context) : (s.modCtx ci f).groups = s.groups := rfl
@[simp] theorem State.modCtx_pails (s : State) (ci : Nat) (f : Context → Context) : (s.modCtx ci f).pails = s.pails := rfl
@[simp] theorem State.modCtx_turn (s : State) (ci : Nat) (f : Context → Context) : (s.modCtx ci f).turn = s.turn := rfl
@[simp] theorem State.modCtx_trapSeq (s : State) (ci : Nat) (f : Context → Context) : (s.modCtx ci f).trapSeq = s.trapSeq := rfl
@[simp] theorem State.modCtx_reqTail (s : State) (ci : Nat) (f : Context → Context) : (s.modCtx ci f).reqTail = s.reqTail := rfl
@[simp] theorem State.modCtx_reqHead (s : State) (ci : Nat) (f : Context → Context) : (s.modCtx ci f).reqHead = s.reqHead := rfl
@[simp] theorem State.modCtx_rspTail (s : State) (ci : Nat) (f : Context → Context) : (s.modCtx ci f).rspTail = s.rspTail := rfl
@[simp] theorem State.modCtx_rspHead (s : State) (ci : Nat) (f : Context → Context) : (s.modCtx ci f).rspHead = s.rspHead := rfl
@[simp] theorem State.modCtx_winState (s : State) (ci : Nat) (f : Context → Context) : (s.modCtx ci f).winState = s.winState := rfl
@[simp] theorem State.modCtx_reqRing (s : State) (ci : Nat) (f : Context → Context) : (s.modCtx ci f).reqRing = s.reqRing := rfl
@[simp] theorem State.modCtx_rspRing (s : State) (ci : Nat) (f : Context → Context) : (s.modCtx ci f).rspRing = s.rspRing := rfl
@[simp] theorem State.modCtx_outbox (s : State) (ci : Nat) (f : Context → Context) : (s.modCtx ci f).outbox = s.outbox := rfl
@[simp] theorem State.modCtx_hostWins (s : State) (ci : Nat) (f : Context → Context) : (s.modCtx ci f).hostWins = s.hostWins := rfl
@[simp] theorem State.modCtx_hostData (s : State) (ci : Nat) (f : Context → Context) : (s.modCtx ci f).hostData = s.hostData := rfl
@[simp] theorem State.modCtx_stepCfg (s : State) (ci : Nat) (f : Context → Context) : (s.modCtx ci f).stepCfg = s.stepCfg := rfl
@[simp] theorem State.modCtx_devTime (s : State) (ci : Nat) (f : Context → Context) : (s.modCtx ci f).devTime = s.devTime := rfl
@[simp] theorem State.modCtx_islands (s : State) (ci : Nat) (f : Context → Context) : (s.modCtx ci f).islands = s.islands := rfl
@[simp] theorem State.modCtx_peers (s : State) (ci : Nat) (f : Context → Context) : (s.modCtx ci f).peers = s.peers := rfl
@[simp] theorem State.modCtx_devWrites (s : State) (ci : Nat) (f : Context → Context) : (s.modCtx ci f).devWrites = s.devWrites := rfl
@[simp] theorem State.modCtx_ckpts (s : State) (ci : Nat) (f : Context → Context) : (s.modCtx ci f).ckpts = s.ckpts := rfl
@[simp] theorem State.modCtx_snaps (s : State) (ci : Nat) (f : Context → Context) : (s.modCtx ci f).snaps = s.snaps := rfl
@[simp] theorem State.modCtx_running (s : State) (ci : Nat) (f : Context → Context) : (s.modCtx ci f).running = s.running := rfl
@[simp] theorem State.modCtx_minVersion (s : State) (ci : Nat) (f : Context → Context) : (s.modCtx ci f).minVersion = s.minVersion := rfl
@[simp] theorem State.modCtx_keyIndex (s : State) (ci : Nat) (f : Context → Context) : (s.modCtx ci f).keyIndex = s.keyIndex := rfl
@[simp] theorem State.modCtx_drives (s : State) (ci : Nat) (f : Context → Context) : (s.modCtx ci f).drives = s.drives := rfl
@[simp] theorem State.modCtx_booted (s : State) (ci : Nat) (f : Context → Context) : (s.modCtx ci f).booted = s.booted := rfl
@[simp] theorem State.modCtx_harts (s : State) (ci : Nat) (f : Context → Context) : (s.modCtx ci f).harts = s.harts := rfl
@[simp] theorem State.modCtx_sram (s : State) (ci : Nat) (f : Context → Context) : (s.modCtx ci f).sram = s.sram := rfl

/-! modPail -/

@[simp] theorem State.modPail_now (s : State) (pi : Nat) (f : Pail → Pail) : (s.modPail pi f).now = s.now := rfl
@[simp] theorem State.modPail_agenda (s : State) (pi : Nat) (f : Pail → Pail) : (s.modPail pi f).agenda = s.agenda := rfl
@[simp] theorem State.modPail_issuer (s : State) (pi : Nat) (f : Pail → Pail) : (s.modPail pi f).issuer = s.issuer := rfl
@[simp] theorem State.modPail_freeCtr (s : State) (pi : Nat) (f : Pail → Pail) : (s.modPail pi f).freeCtr = s.freeCtr := rfl
@[simp] theorem State.modPail_ord (s : State) (pi : Nat) (f : Pail → Pail) : (s.modPail pi f).ord = s.ord := rfl
@[simp] theorem State.modPail_delays (s : State) (pi : Nat) (f : Pail → Pail) : (s.modPail pi f).delays = s.delays := rfl
@[simp] theorem State.modPail_mem (s : State) (pi : Nat) (f : Pail → Pail) : (s.modPail pi f).mem = s.mem := rfl
@[simp] theorem State.modPail_units (s : State) (pi : Nat) (f : Pail → Pail) : (s.modPail pi f).units = s.units := rfl
@[simp] theorem State.modPail_creamery (s : State) (pi : Nat) (f : Pail → Pail) : (s.modPail pi f).creamery = s.creamery := rfl
@[simp] theorem State.modPail_calendar (s : State) (pi : Nat) (f : Pail → Pail) : (s.modPail pi f).calendar = s.calendar := rfl
@[simp] theorem State.modPail_tlb (s : State) (pi : Nat) (f : Pail → Pail) : (s.modPail pi f).tlb = s.tlb := rfl
@[simp] theorem State.modPail_pool (s : State) (pi : Nat) (f : Pail → Pail) : (s.modPail pi f).pool = s.pool := rfl
@[simp] theorem State.modPail_nextFrame (s : State) (pi : Nat) (f : Pail → Pail) : (s.modPail pi f).nextFrame = s.nextFrame := rfl
@[simp] theorem State.modPail_freeFrames (s : State) (pi : Nat) (f : Pail → Pail) : (s.modPail pi f).freeFrames = s.freeFrames := rfl
@[simp] theorem State.modPail_oldFrames (s : State) (pi : Nat) (f : Pail → Pail) : (s.modPail pi f).oldFrames = s.oldFrames := rfl
@[simp] theorem State.modPail_bindings (s : State) (pi : Nat) (f : Pail → Pail) : (s.modPail pi f).bindings = s.bindings := rfl
@[simp] theorem State.modPail_cores (s : State) (pi : Nat) (f : Pail → Pail) : (s.modPail pi f).cores = s.cores := rfl
@[simp] theorem State.modPail_contexts (s : State) (pi : Nat) (f : Pail → Pail) : (s.modPail pi f).contexts = s.contexts := rfl
@[simp] theorem State.modPail_tasks (s : State) (pi : Nat) (f : Pail → Pail) : (s.modPail pi f).tasks = s.tasks := rfl
@[simp] theorem State.modPail_teams (s : State) (pi : Nat) (f : Pail → Pail) : (s.modPail pi f).teams = s.teams := rfl
@[simp] theorem State.modPail_groups (s : State) (pi : Nat) (f : Pail → Pail) : (s.modPail pi f).groups = s.groups := rfl
@[simp] theorem State.modPail_pails (s : State) (pi : Nat) (f : Pail → Pail) : (s.modPail pi f).pails = modAt s.pails pi f := rfl
@[simp] theorem State.modPail_turn (s : State) (pi : Nat) (f : Pail → Pail) : (s.modPail pi f).turn = s.turn := rfl
@[simp] theorem State.modPail_trapSeq (s : State) (pi : Nat) (f : Pail → Pail) : (s.modPail pi f).trapSeq = s.trapSeq := rfl
@[simp] theorem State.modPail_reqTail (s : State) (pi : Nat) (f : Pail → Pail) : (s.modPail pi f).reqTail = s.reqTail := rfl
@[simp] theorem State.modPail_reqHead (s : State) (pi : Nat) (f : Pail → Pail) : (s.modPail pi f).reqHead = s.reqHead := rfl
@[simp] theorem State.modPail_rspTail (s : State) (pi : Nat) (f : Pail → Pail) : (s.modPail pi f).rspTail = s.rspTail := rfl
@[simp] theorem State.modPail_rspHead (s : State) (pi : Nat) (f : Pail → Pail) : (s.modPail pi f).rspHead = s.rspHead := rfl
@[simp] theorem State.modPail_winState (s : State) (pi : Nat) (f : Pail → Pail) : (s.modPail pi f).winState = s.winState := rfl
@[simp] theorem State.modPail_reqRing (s : State) (pi : Nat) (f : Pail → Pail) : (s.modPail pi f).reqRing = s.reqRing := rfl
@[simp] theorem State.modPail_rspRing (s : State) (pi : Nat) (f : Pail → Pail) : (s.modPail pi f).rspRing = s.rspRing := rfl
@[simp] theorem State.modPail_outbox (s : State) (pi : Nat) (f : Pail → Pail) : (s.modPail pi f).outbox = s.outbox := rfl
@[simp] theorem State.modPail_hostWins (s : State) (pi : Nat) (f : Pail → Pail) : (s.modPail pi f).hostWins = s.hostWins := rfl
@[simp] theorem State.modPail_hostData (s : State) (pi : Nat) (f : Pail → Pail) : (s.modPail pi f).hostData = s.hostData := rfl
@[simp] theorem State.modPail_stepCfg (s : State) (pi : Nat) (f : Pail → Pail) : (s.modPail pi f).stepCfg = s.stepCfg := rfl
@[simp] theorem State.modPail_devTime (s : State) (pi : Nat) (f : Pail → Pail) : (s.modPail pi f).devTime = s.devTime := rfl
@[simp] theorem State.modPail_islands (s : State) (pi : Nat) (f : Pail → Pail) : (s.modPail pi f).islands = s.islands := rfl
@[simp] theorem State.modPail_peers (s : State) (pi : Nat) (f : Pail → Pail) : (s.modPail pi f).peers = s.peers := rfl
@[simp] theorem State.modPail_devWrites (s : State) (pi : Nat) (f : Pail → Pail) : (s.modPail pi f).devWrites = s.devWrites := rfl
@[simp] theorem State.modPail_ckpts (s : State) (pi : Nat) (f : Pail → Pail) : (s.modPail pi f).ckpts = s.ckpts := rfl
@[simp] theorem State.modPail_snaps (s : State) (pi : Nat) (f : Pail → Pail) : (s.modPail pi f).snaps = s.snaps := rfl
@[simp] theorem State.modPail_running (s : State) (pi : Nat) (f : Pail → Pail) : (s.modPail pi f).running = s.running := rfl
@[simp] theorem State.modPail_minVersion (s : State) (pi : Nat) (f : Pail → Pail) : (s.modPail pi f).minVersion = s.minVersion := rfl
@[simp] theorem State.modPail_keyIndex (s : State) (pi : Nat) (f : Pail → Pail) : (s.modPail pi f).keyIndex = s.keyIndex := rfl
@[simp] theorem State.modPail_drives (s : State) (pi : Nat) (f : Pail → Pail) : (s.modPail pi f).drives = s.drives := rfl
@[simp] theorem State.modPail_booted (s : State) (pi : Nat) (f : Pail → Pail) : (s.modPail pi f).booted = s.booted := rfl
@[simp] theorem State.modPail_harts (s : State) (pi : Nat) (f : Pail → Pail) : (s.modPail pi f).harts = s.harts := rfl
@[simp] theorem State.modPail_sram (s : State) (pi : Nat) (f : Pail → Pail) : (s.modPail pi f).sram = s.sram := rfl

/-! modCore -/

@[simp] theorem State.modCore_now (s : State) (c : Nat) (f : Core → Core) : (s.modCore c f).now = s.now := rfl
@[simp] theorem State.modCore_agenda (s : State) (c : Nat) (f : Core → Core) : (s.modCore c f).agenda = s.agenda := rfl
@[simp] theorem State.modCore_issuer (s : State) (c : Nat) (f : Core → Core) : (s.modCore c f).issuer = s.issuer := rfl
@[simp] theorem State.modCore_freeCtr (s : State) (c : Nat) (f : Core → Core) : (s.modCore c f).freeCtr = s.freeCtr := rfl
@[simp] theorem State.modCore_ord (s : State) (c : Nat) (f : Core → Core) : (s.modCore c f).ord = s.ord := rfl
@[simp] theorem State.modCore_delays (s : State) (c : Nat) (f : Core → Core) : (s.modCore c f).delays = s.delays := rfl
@[simp] theorem State.modCore_mem (s : State) (c : Nat) (f : Core → Core) : (s.modCore c f).mem = s.mem := rfl
@[simp] theorem State.modCore_units (s : State) (c : Nat) (f : Core → Core) : (s.modCore c f).units = s.units := rfl
@[simp] theorem State.modCore_creamery (s : State) (c : Nat) (f : Core → Core) : (s.modCore c f).creamery = s.creamery := rfl
@[simp] theorem State.modCore_calendar (s : State) (c : Nat) (f : Core → Core) : (s.modCore c f).calendar = s.calendar := rfl
@[simp] theorem State.modCore_tlb (s : State) (c : Nat) (f : Core → Core) : (s.modCore c f).tlb = s.tlb := rfl
@[simp] theorem State.modCore_pool (s : State) (c : Nat) (f : Core → Core) : (s.modCore c f).pool = s.pool := rfl
@[simp] theorem State.modCore_nextFrame (s : State) (c : Nat) (f : Core → Core) : (s.modCore c f).nextFrame = s.nextFrame := rfl
@[simp] theorem State.modCore_freeFrames (s : State) (c : Nat) (f : Core → Core) : (s.modCore c f).freeFrames = s.freeFrames := rfl
@[simp] theorem State.modCore_oldFrames (s : State) (c : Nat) (f : Core → Core) : (s.modCore c f).oldFrames = s.oldFrames := rfl
@[simp] theorem State.modCore_bindings (s : State) (c : Nat) (f : Core → Core) : (s.modCore c f).bindings = s.bindings := rfl
@[simp] theorem State.modCore_cores (s : State) (c : Nat) (f : Core → Core) : (s.modCore c f).cores = spSet Core.reset s.cores c (f (s.core c)) := rfl
@[simp] theorem State.modCore_contexts (s : State) (c : Nat) (f : Core → Core) : (s.modCore c f).contexts = s.contexts := rfl
@[simp] theorem State.modCore_tasks (s : State) (c : Nat) (f : Core → Core) : (s.modCore c f).tasks = s.tasks := rfl
@[simp] theorem State.modCore_teams (s : State) (c : Nat) (f : Core → Core) : (s.modCore c f).teams = s.teams := rfl
@[simp] theorem State.modCore_groups (s : State) (c : Nat) (f : Core → Core) : (s.modCore c f).groups = s.groups := rfl
@[simp] theorem State.modCore_pails (s : State) (c : Nat) (f : Core → Core) : (s.modCore c f).pails = s.pails := rfl
@[simp] theorem State.modCore_turn (s : State) (c : Nat) (f : Core → Core) : (s.modCore c f).turn = s.turn := rfl
@[simp] theorem State.modCore_trapSeq (s : State) (c : Nat) (f : Core → Core) : (s.modCore c f).trapSeq = s.trapSeq := rfl
@[simp] theorem State.modCore_reqTail (s : State) (c : Nat) (f : Core → Core) : (s.modCore c f).reqTail = s.reqTail := rfl
@[simp] theorem State.modCore_reqHead (s : State) (c : Nat) (f : Core → Core) : (s.modCore c f).reqHead = s.reqHead := rfl
@[simp] theorem State.modCore_rspTail (s : State) (c : Nat) (f : Core → Core) : (s.modCore c f).rspTail = s.rspTail := rfl
@[simp] theorem State.modCore_rspHead (s : State) (c : Nat) (f : Core → Core) : (s.modCore c f).rspHead = s.rspHead := rfl
@[simp] theorem State.modCore_winState (s : State) (c : Nat) (f : Core → Core) : (s.modCore c f).winState = s.winState := rfl
@[simp] theorem State.modCore_reqRing (s : State) (c : Nat) (f : Core → Core) : (s.modCore c f).reqRing = s.reqRing := rfl
@[simp] theorem State.modCore_rspRing (s : State) (c : Nat) (f : Core → Core) : (s.modCore c f).rspRing = s.rspRing := rfl
@[simp] theorem State.modCore_outbox (s : State) (c : Nat) (f : Core → Core) : (s.modCore c f).outbox = s.outbox := rfl
@[simp] theorem State.modCore_hostWins (s : State) (c : Nat) (f : Core → Core) : (s.modCore c f).hostWins = s.hostWins := rfl
@[simp] theorem State.modCore_hostData (s : State) (c : Nat) (f : Core → Core) : (s.modCore c f).hostData = s.hostData := rfl
@[simp] theorem State.modCore_stepCfg (s : State) (c : Nat) (f : Core → Core) : (s.modCore c f).stepCfg = s.stepCfg := rfl
@[simp] theorem State.modCore_devTime (s : State) (c : Nat) (f : Core → Core) : (s.modCore c f).devTime = s.devTime := rfl
@[simp] theorem State.modCore_islands (s : State) (c : Nat) (f : Core → Core) : (s.modCore c f).islands = s.islands := rfl
@[simp] theorem State.modCore_peers (s : State) (c : Nat) (f : Core → Core) : (s.modCore c f).peers = s.peers := rfl
@[simp] theorem State.modCore_devWrites (s : State) (c : Nat) (f : Core → Core) : (s.modCore c f).devWrites = s.devWrites := rfl
@[simp] theorem State.modCore_ckpts (s : State) (c : Nat) (f : Core → Core) : (s.modCore c f).ckpts = s.ckpts := rfl
@[simp] theorem State.modCore_snaps (s : State) (c : Nat) (f : Core → Core) : (s.modCore c f).snaps = s.snaps := rfl
@[simp] theorem State.modCore_running (s : State) (c : Nat) (f : Core → Core) : (s.modCore c f).running = s.running := rfl
@[simp] theorem State.modCore_minVersion (s : State) (c : Nat) (f : Core → Core) : (s.modCore c f).minVersion = s.minVersion := rfl
@[simp] theorem State.modCore_keyIndex (s : State) (c : Nat) (f : Core → Core) : (s.modCore c f).keyIndex = s.keyIndex := rfl
@[simp] theorem State.modCore_drives (s : State) (c : Nat) (f : Core → Core) : (s.modCore c f).drives = s.drives := rfl
@[simp] theorem State.modCore_booted (s : State) (c : Nat) (f : Core → Core) : (s.modCore c f).booted = s.booted := rfl
@[simp] theorem State.modCore_harts (s : State) (c : Nat) (f : Core → Core) : (s.modCore c f).harts = s.harts := rfl
@[simp] theorem State.modCore_sram (s : State) (c : Nat) (f : Core → Core) : (s.modCore c f).sram = s.sram := rfl

/-! tickOrd -/

@[simp] theorem State.tickOrd_now (s : State) : (s.tickOrd).now = s.now := rfl
@[simp] theorem State.tickOrd_agenda (s : State) : (s.tickOrd).agenda = s.agenda := rfl
@[simp] theorem State.tickOrd_issuer (s : State) : (s.tickOrd).issuer = s.issuer := rfl
@[simp] theorem State.tickOrd_freeCtr (s : State) : (s.tickOrd).freeCtr = s.freeCtr := rfl
@[simp] theorem State.tickOrd_ord (s : State) : (s.tickOrd).ord = s.ord + 1 := rfl
@[simp] theorem State.tickOrd_delays (s : State) : (s.tickOrd).delays = s.delays := rfl
@[simp] theorem State.tickOrd_mem (s : State) : (s.tickOrd).mem = s.mem := rfl
@[simp] theorem State.tickOrd_units (s : State) : (s.tickOrd).units = s.units := rfl
@[simp] theorem State.tickOrd_creamery (s : State) : (s.tickOrd).creamery = s.creamery := rfl
@[simp] theorem State.tickOrd_calendar (s : State) : (s.tickOrd).calendar = s.calendar := rfl
@[simp] theorem State.tickOrd_tlb (s : State) : (s.tickOrd).tlb = s.tlb := rfl
@[simp] theorem State.tickOrd_pool (s : State) : (s.tickOrd).pool = s.pool := rfl
@[simp] theorem State.tickOrd_nextFrame (s : State) : (s.tickOrd).nextFrame = s.nextFrame := rfl
@[simp] theorem State.tickOrd_freeFrames (s : State) : (s.tickOrd).freeFrames = s.freeFrames := rfl
@[simp] theorem State.tickOrd_oldFrames (s : State) : (s.tickOrd).oldFrames = s.oldFrames := rfl
@[simp] theorem State.tickOrd_bindings (s : State) : (s.tickOrd).bindings = s.bindings := rfl
@[simp] theorem State.tickOrd_cores (s : State) : (s.tickOrd).cores = s.cores := rfl
@[simp] theorem State.tickOrd_contexts (s : State) : (s.tickOrd).contexts = s.contexts := rfl
@[simp] theorem State.tickOrd_tasks (s : State) : (s.tickOrd).tasks = s.tasks := rfl
@[simp] theorem State.tickOrd_teams (s : State) : (s.tickOrd).teams = s.teams := rfl
@[simp] theorem State.tickOrd_groups (s : State) : (s.tickOrd).groups = s.groups := rfl
@[simp] theorem State.tickOrd_pails (s : State) : (s.tickOrd).pails = s.pails := rfl
@[simp] theorem State.tickOrd_turn (s : State) : (s.tickOrd).turn = s.turn := rfl
@[simp] theorem State.tickOrd_trapSeq (s : State) : (s.tickOrd).trapSeq = s.trapSeq := rfl
@[simp] theorem State.tickOrd_reqTail (s : State) : (s.tickOrd).reqTail = s.reqTail := rfl
@[simp] theorem State.tickOrd_reqHead (s : State) : (s.tickOrd).reqHead = s.reqHead := rfl
@[simp] theorem State.tickOrd_rspTail (s : State) : (s.tickOrd).rspTail = s.rspTail := rfl
@[simp] theorem State.tickOrd_rspHead (s : State) : (s.tickOrd).rspHead = s.rspHead := rfl
@[simp] theorem State.tickOrd_winState (s : State) : (s.tickOrd).winState = s.winState := rfl
@[simp] theorem State.tickOrd_reqRing (s : State) : (s.tickOrd).reqRing = s.reqRing := rfl
@[simp] theorem State.tickOrd_rspRing (s : State) : (s.tickOrd).rspRing = s.rspRing := rfl
@[simp] theorem State.tickOrd_outbox (s : State) : (s.tickOrd).outbox = s.outbox := rfl
@[simp] theorem State.tickOrd_hostWins (s : State) : (s.tickOrd).hostWins = s.hostWins := rfl
@[simp] theorem State.tickOrd_hostData (s : State) : (s.tickOrd).hostData = s.hostData := rfl
@[simp] theorem State.tickOrd_stepCfg (s : State) : (s.tickOrd).stepCfg = s.stepCfg := rfl
@[simp] theorem State.tickOrd_devTime (s : State) : (s.tickOrd).devTime = s.devTime := rfl
@[simp] theorem State.tickOrd_islands (s : State) : (s.tickOrd).islands = s.islands := rfl
@[simp] theorem State.tickOrd_peers (s : State) : (s.tickOrd).peers = s.peers := rfl
@[simp] theorem State.tickOrd_devWrites (s : State) : (s.tickOrd).devWrites = s.devWrites := rfl
@[simp] theorem State.tickOrd_ckpts (s : State) : (s.tickOrd).ckpts = s.ckpts := rfl
@[simp] theorem State.tickOrd_snaps (s : State) : (s.tickOrd).snaps = s.snaps := rfl
@[simp] theorem State.tickOrd_running (s : State) : (s.tickOrd).running = s.running := rfl
@[simp] theorem State.tickOrd_minVersion (s : State) : (s.tickOrd).minVersion = s.minVersion := rfl
@[simp] theorem State.tickOrd_keyIndex (s : State) : (s.tickOrd).keyIndex = s.keyIndex := rfl
@[simp] theorem State.tickOrd_drives (s : State) : (s.tickOrd).drives = s.drives := rfl
@[simp] theorem State.tickOrd_booted (s : State) : (s.tickOrd).booted = s.booted := rfl
@[simp] theorem State.tickOrd_harts (s : State) : (s.tickOrd).harts = s.harts := rfl
@[simp] theorem State.tickOrd_sram (s : State) : (s.tickOrd).sram = s.sram := rfl

/-! creamWrite -/

@[simp] theorem State.creamWrite_now (s : State) (ci die off : Nat) (b : Byte) : (s.creamWrite ci die off b).now = s.now := rfl
@[simp] theorem State.creamWrite_agenda (s : State) (ci die off : Nat) (b : Byte) : (s.creamWrite ci die off b).agenda = s.agenda := rfl
@[simp] theorem State.creamWrite_issuer (s : State) (ci die off : Nat) (b : Byte) : (s.creamWrite ci die off b).issuer = s.issuer := rfl
@[simp] theorem State.creamWrite_freeCtr (s : State) (ci die off : Nat) (b : Byte) : (s.creamWrite ci die off b).freeCtr = s.freeCtr := rfl
@[simp] theorem State.creamWrite_ord (s : State) (ci die off : Nat) (b : Byte) : (s.creamWrite ci die off b).ord = s.ord := rfl
@[simp] theorem State.creamWrite_delays (s : State) (ci die off : Nat) (b : Byte) : (s.creamWrite ci die off b).delays = s.delays := rfl
@[simp] theorem State.creamWrite_mem (s : State) (ci die off : Nat) (b : Byte) : (s.creamWrite ci die off b).mem = s.mem := rfl
@[simp] theorem State.creamWrite_units (s : State) (ci die off : Nat) (b : Byte) : (s.creamWrite ci die off b).units = s.units := rfl
@[simp] theorem State.creamWrite_creamery (s : State) (ci die off : Nat) (b : Byte) : (s.creamWrite ci die off b).creamery = spSet none s.creamery (die * 2 ^ 30 + off) (some ⟨ci, b⟩) := rfl
@[simp] theorem State.creamWrite_calendar (s : State) (ci die off : Nat) (b : Byte) : (s.creamWrite ci die off b).calendar = s.calendar := rfl
@[simp] theorem State.creamWrite_tlb (s : State) (ci die off : Nat) (b : Byte) : (s.creamWrite ci die off b).tlb = s.tlb := rfl
@[simp] theorem State.creamWrite_pool (s : State) (ci die off : Nat) (b : Byte) : (s.creamWrite ci die off b).pool = s.pool := rfl
@[simp] theorem State.creamWrite_nextFrame (s : State) (ci die off : Nat) (b : Byte) : (s.creamWrite ci die off b).nextFrame = s.nextFrame := rfl
@[simp] theorem State.creamWrite_freeFrames (s : State) (ci die off : Nat) (b : Byte) : (s.creamWrite ci die off b).freeFrames = s.freeFrames := rfl
@[simp] theorem State.creamWrite_oldFrames (s : State) (ci die off : Nat) (b : Byte) : (s.creamWrite ci die off b).oldFrames = s.oldFrames := rfl
@[simp] theorem State.creamWrite_bindings (s : State) (ci die off : Nat) (b : Byte) : (s.creamWrite ci die off b).bindings = s.bindings := rfl
@[simp] theorem State.creamWrite_cores (s : State) (ci die off : Nat) (b : Byte) : (s.creamWrite ci die off b).cores = s.cores := rfl
@[simp] theorem State.creamWrite_contexts (s : State) (ci die off : Nat) (b : Byte) : (s.creamWrite ci die off b).contexts = s.contexts := rfl
@[simp] theorem State.creamWrite_tasks (s : State) (ci die off : Nat) (b : Byte) : (s.creamWrite ci die off b).tasks = s.tasks := rfl
@[simp] theorem State.creamWrite_teams (s : State) (ci die off : Nat) (b : Byte) : (s.creamWrite ci die off b).teams = s.teams := rfl
@[simp] theorem State.creamWrite_groups (s : State) (ci die off : Nat) (b : Byte) : (s.creamWrite ci die off b).groups = s.groups := rfl
@[simp] theorem State.creamWrite_pails (s : State) (ci die off : Nat) (b : Byte) : (s.creamWrite ci die off b).pails = s.pails := rfl
@[simp] theorem State.creamWrite_turn (s : State) (ci die off : Nat) (b : Byte) : (s.creamWrite ci die off b).turn = s.turn := rfl
@[simp] theorem State.creamWrite_trapSeq (s : State) (ci die off : Nat) (b : Byte) : (s.creamWrite ci die off b).trapSeq = s.trapSeq := rfl
@[simp] theorem State.creamWrite_reqTail (s : State) (ci die off : Nat) (b : Byte) : (s.creamWrite ci die off b).reqTail = s.reqTail := rfl
@[simp] theorem State.creamWrite_reqHead (s : State) (ci die off : Nat) (b : Byte) : (s.creamWrite ci die off b).reqHead = s.reqHead := rfl
@[simp] theorem State.creamWrite_rspTail (s : State) (ci die off : Nat) (b : Byte) : (s.creamWrite ci die off b).rspTail = s.rspTail := rfl
@[simp] theorem State.creamWrite_rspHead (s : State) (ci die off : Nat) (b : Byte) : (s.creamWrite ci die off b).rspHead = s.rspHead := rfl
@[simp] theorem State.creamWrite_winState (s : State) (ci die off : Nat) (b : Byte) : (s.creamWrite ci die off b).winState = s.winState := rfl
@[simp] theorem State.creamWrite_reqRing (s : State) (ci die off : Nat) (b : Byte) : (s.creamWrite ci die off b).reqRing = s.reqRing := rfl
@[simp] theorem State.creamWrite_rspRing (s : State) (ci die off : Nat) (b : Byte) : (s.creamWrite ci die off b).rspRing = s.rspRing := rfl
@[simp] theorem State.creamWrite_outbox (s : State) (ci die off : Nat) (b : Byte) : (s.creamWrite ci die off b).outbox = s.outbox := rfl
@[simp] theorem State.creamWrite_hostWins (s : State) (ci die off : Nat) (b : Byte) : (s.creamWrite ci die off b).hostWins = s.hostWins := rfl
@[simp] theorem State.creamWrite_hostData (s : State) (ci die off : Nat) (b : Byte) : (s.creamWrite ci die off b).hostData = s.hostData := rfl
@[simp] theorem State.creamWrite_stepCfg (s : State) (ci die off : Nat) (b : Byte) : (s.creamWrite ci die off b).stepCfg = s.stepCfg := rfl
@[simp] theorem State.creamWrite_devTime (s : State) (ci die off : Nat) (b : Byte) : (s.creamWrite ci die off b).devTime = s.devTime := rfl
@[simp] theorem State.creamWrite_islands (s : State) (ci die off : Nat) (b : Byte) : (s.creamWrite ci die off b).islands = s.islands := rfl
@[simp] theorem State.creamWrite_peers (s : State) (ci die off : Nat) (b : Byte) : (s.creamWrite ci die off b).peers = s.peers := rfl
@[simp] theorem State.creamWrite_devWrites (s : State) (ci die off : Nat) (b : Byte) : (s.creamWrite ci die off b).devWrites = s.devWrites := rfl
@[simp] theorem State.creamWrite_ckpts (s : State) (ci die off : Nat) (b : Byte) : (s.creamWrite ci die off b).ckpts = s.ckpts := rfl
@[simp] theorem State.creamWrite_snaps (s : State) (ci die off : Nat) (b : Byte) : (s.creamWrite ci die off b).snaps = s.snaps := rfl
@[simp] theorem State.creamWrite_running (s : State) (ci die off : Nat) (b : Byte) : (s.creamWrite ci die off b).running = s.running := rfl
@[simp] theorem State.creamWrite_minVersion (s : State) (ci die off : Nat) (b : Byte) : (s.creamWrite ci die off b).minVersion = s.minVersion := rfl
@[simp] theorem State.creamWrite_keyIndex (s : State) (ci die off : Nat) (b : Byte) : (s.creamWrite ci die off b).keyIndex = s.keyIndex := rfl
@[simp] theorem State.creamWrite_drives (s : State) (ci die off : Nat) (b : Byte) : (s.creamWrite ci die off b).drives = s.drives := rfl
@[simp] theorem State.creamWrite_booted (s : State) (ci die off : Nat) (b : Byte) : (s.creamWrite ci die off b).booted = s.booted := rfl
@[simp] theorem State.creamWrite_harts (s : State) (ci die off : Nat) (b : Byte) : (s.creamWrite ci die off b).harts = s.harts := rfl
@[simp] theorem State.creamWrite_sram (s : State) (ci die off : Nat) (b : Byte) : (s.creamWrite ci die off b).sram = s.sram := rfl

/-! arrWrite -/

@[simp] theorem State.arrWrite_now (s : State) (ci : Nat) (p : Place) (b : Byte) : (s.arrWrite ci p b).now = s.now := rfl
@[simp] theorem State.arrWrite_agenda (s : State) (ci : Nat) (p : Place) (b : Byte) : (s.arrWrite ci p b).agenda = s.agenda := rfl
@[simp] theorem State.arrWrite_issuer (s : State) (ci : Nat) (p : Place) (b : Byte) : (s.arrWrite ci p b).issuer = s.issuer := rfl
@[simp] theorem State.arrWrite_freeCtr (s : State) (ci : Nat) (p : Place) (b : Byte) : (s.arrWrite ci p b).freeCtr = s.freeCtr := rfl
@[simp] theorem State.arrWrite_ord (s : State) (ci : Nat) (p : Place) (b : Byte) : (s.arrWrite ci p b).ord = s.ord := rfl
@[simp] theorem State.arrWrite_delays (s : State) (ci : Nat) (p : Place) (b : Byte) : (s.arrWrite ci p b).delays = s.delays := rfl
@[simp] theorem State.arrWrite_mem (s : State) (ci : Nat) (p : Place) (b : Byte) : (s.arrWrite ci p b).mem = s.mem := rfl
@[simp] theorem State.arrWrite_units (s : State) (ci : Nat) (p : Place) (b : Byte) : (s.arrWrite ci p b).units = s.units := rfl
@[simp] theorem State.arrWrite_creamery (s : State) (ci : Nat) (p : Place) (b : Byte) : (s.arrWrite ci p b).creamery = s.creamery := rfl
@[simp] theorem State.arrWrite_calendar (s : State) (ci : Nat) (p : Place) (b : Byte) : (s.arrWrite ci p b).calendar = s.calendar := rfl
@[simp] theorem State.arrWrite_tlb (s : State) (ci : Nat) (p : Place) (b : Byte) : (s.arrWrite ci p b).tlb = s.tlb := rfl
@[simp] theorem State.arrWrite_pool (s : State) (ci : Nat) (p : Place) (b : Byte) : (s.arrWrite ci p b).pool = s.pool := rfl
@[simp] theorem State.arrWrite_nextFrame (s : State) (ci : Nat) (p : Place) (b : Byte) : (s.arrWrite ci p b).nextFrame = s.nextFrame := rfl
@[simp] theorem State.arrWrite_freeFrames (s : State) (ci : Nat) (p : Place) (b : Byte) : (s.arrWrite ci p b).freeFrames = s.freeFrames := rfl
@[simp] theorem State.arrWrite_oldFrames (s : State) (ci : Nat) (p : Place) (b : Byte) : (s.arrWrite ci p b).oldFrames = s.oldFrames := rfl
@[simp] theorem State.arrWrite_bindings (s : State) (ci : Nat) (p : Place) (b : Byte) : (s.arrWrite ci p b).bindings = s.bindings := rfl
@[simp] theorem State.arrWrite_contexts (s : State) (ci : Nat) (p : Place) (b : Byte) : (s.arrWrite ci p b).contexts = s.contexts := rfl
@[simp] theorem State.arrWrite_tasks (s : State) (ci : Nat) (p : Place) (b : Byte) : (s.arrWrite ci p b).tasks = s.tasks := rfl
@[simp] theorem State.arrWrite_teams (s : State) (ci : Nat) (p : Place) (b : Byte) : (s.arrWrite ci p b).teams = s.teams := rfl
@[simp] theorem State.arrWrite_groups (s : State) (ci : Nat) (p : Place) (b : Byte) : (s.arrWrite ci p b).groups = s.groups := rfl
@[simp] theorem State.arrWrite_pails (s : State) (ci : Nat) (p : Place) (b : Byte) : (s.arrWrite ci p b).pails = s.pails := rfl
@[simp] theorem State.arrWrite_turn (s : State) (ci : Nat) (p : Place) (b : Byte) : (s.arrWrite ci p b).turn = s.turn := rfl
@[simp] theorem State.arrWrite_trapSeq (s : State) (ci : Nat) (p : Place) (b : Byte) : (s.arrWrite ci p b).trapSeq = s.trapSeq := rfl
@[simp] theorem State.arrWrite_reqTail (s : State) (ci : Nat) (p : Place) (b : Byte) : (s.arrWrite ci p b).reqTail = s.reqTail := rfl
@[simp] theorem State.arrWrite_reqHead (s : State) (ci : Nat) (p : Place) (b : Byte) : (s.arrWrite ci p b).reqHead = s.reqHead := rfl
@[simp] theorem State.arrWrite_rspTail (s : State) (ci : Nat) (p : Place) (b : Byte) : (s.arrWrite ci p b).rspTail = s.rspTail := rfl
@[simp] theorem State.arrWrite_rspHead (s : State) (ci : Nat) (p : Place) (b : Byte) : (s.arrWrite ci p b).rspHead = s.rspHead := rfl
@[simp] theorem State.arrWrite_winState (s : State) (ci : Nat) (p : Place) (b : Byte) : (s.arrWrite ci p b).winState = s.winState := rfl
@[simp] theorem State.arrWrite_reqRing (s : State) (ci : Nat) (p : Place) (b : Byte) : (s.arrWrite ci p b).reqRing = s.reqRing := rfl
@[simp] theorem State.arrWrite_rspRing (s : State) (ci : Nat) (p : Place) (b : Byte) : (s.arrWrite ci p b).rspRing = s.rspRing := rfl
@[simp] theorem State.arrWrite_outbox (s : State) (ci : Nat) (p : Place) (b : Byte) : (s.arrWrite ci p b).outbox = s.outbox := rfl
@[simp] theorem State.arrWrite_hostWins (s : State) (ci : Nat) (p : Place) (b : Byte) : (s.arrWrite ci p b).hostWins = s.hostWins := rfl
@[simp] theorem State.arrWrite_hostData (s : State) (ci : Nat) (p : Place) (b : Byte) : (s.arrWrite ci p b).hostData = s.hostData := rfl
@[simp] theorem State.arrWrite_stepCfg (s : State) (ci : Nat) (p : Place) (b : Byte) : (s.arrWrite ci p b).stepCfg = s.stepCfg := rfl
@[simp] theorem State.arrWrite_devTime (s : State) (ci : Nat) (p : Place) (b : Byte) : (s.arrWrite ci p b).devTime = s.devTime := rfl
@[simp] theorem State.arrWrite_islands (s : State) (ci : Nat) (p : Place) (b : Byte) : (s.arrWrite ci p b).islands = s.islands := rfl
@[simp] theorem State.arrWrite_peers (s : State) (ci : Nat) (p : Place) (b : Byte) : (s.arrWrite ci p b).peers = s.peers := rfl
@[simp] theorem State.arrWrite_devWrites (s : State) (ci : Nat) (p : Place) (b : Byte) : (s.arrWrite ci p b).devWrites = s.devWrites := rfl
@[simp] theorem State.arrWrite_ckpts (s : State) (ci : Nat) (p : Place) (b : Byte) : (s.arrWrite ci p b).ckpts = s.ckpts := rfl
@[simp] theorem State.arrWrite_snaps (s : State) (ci : Nat) (p : Place) (b : Byte) : (s.arrWrite ci p b).snaps = s.snaps := rfl
@[simp] theorem State.arrWrite_running (s : State) (ci : Nat) (p : Place) (b : Byte) : (s.arrWrite ci p b).running = s.running := rfl
@[simp] theorem State.arrWrite_minVersion (s : State) (ci : Nat) (p : Place) (b : Byte) : (s.arrWrite ci p b).minVersion = s.minVersion := rfl
@[simp] theorem State.arrWrite_keyIndex (s : State) (ci : Nat) (p : Place) (b : Byte) : (s.arrWrite ci p b).keyIndex = s.keyIndex := rfl
@[simp] theorem State.arrWrite_drives (s : State) (ci : Nat) (p : Place) (b : Byte) : (s.arrWrite ci p b).drives = s.drives := rfl
@[simp] theorem State.arrWrite_booted (s : State) (ci : Nat) (p : Place) (b : Byte) : (s.arrWrite ci p b).booted = s.booted := rfl
@[simp] theorem State.arrWrite_harts (s : State) (ci : Nat) (p : Place) (b : Byte) : (s.arrWrite ci p b).harts = s.harts := rfl
@[simp] theorem State.arrWrite_sram (s : State) (ci : Nat) (p : Place) (b : Byte) : (s.arrWrite ci p b).sram = s.sram := rfl

/-! resumeGroup -/

@[simp] theorem State.resumeGroup_now (s : State) (gi : Nat) (pass : Bool) : (s.resumeGroup gi pass).now = s.now := rfl
@[simp] theorem State.resumeGroup_agenda (s : State) (gi : Nat) (pass : Bool) : (s.resumeGroup gi pass).agenda = s.agenda := rfl
@[simp] theorem State.resumeGroup_issuer (s : State) (gi : Nat) (pass : Bool) : (s.resumeGroup gi pass).issuer = s.issuer := rfl
@[simp] theorem State.resumeGroup_freeCtr (s : State) (gi : Nat) (pass : Bool) : (s.resumeGroup gi pass).freeCtr = s.freeCtr := rfl
@[simp] theorem State.resumeGroup_ord (s : State) (gi : Nat) (pass : Bool) : (s.resumeGroup gi pass).ord = s.ord := rfl
@[simp] theorem State.resumeGroup_delays (s : State) (gi : Nat) (pass : Bool) : (s.resumeGroup gi pass).delays = s.delays := rfl
@[simp] theorem State.resumeGroup_mem (s : State) (gi : Nat) (pass : Bool) : (s.resumeGroup gi pass).mem = s.mem := rfl
@[simp] theorem State.resumeGroup_units (s : State) (gi : Nat) (pass : Bool) : (s.resumeGroup gi pass).units = s.units := rfl
@[simp] theorem State.resumeGroup_creamery (s : State) (gi : Nat) (pass : Bool) : (s.resumeGroup gi pass).creamery = s.creamery := rfl
@[simp] theorem State.resumeGroup_calendar (s : State) (gi : Nat) (pass : Bool) : (s.resumeGroup gi pass).calendar = s.calendar := rfl
@[simp] theorem State.resumeGroup_tlb (s : State) (gi : Nat) (pass : Bool) : (s.resumeGroup gi pass).tlb = s.tlb := rfl
@[simp] theorem State.resumeGroup_pool (s : State) (gi : Nat) (pass : Bool) : (s.resumeGroup gi pass).pool = s.pool := rfl
@[simp] theorem State.resumeGroup_nextFrame (s : State) (gi : Nat) (pass : Bool) : (s.resumeGroup gi pass).nextFrame = s.nextFrame := rfl
@[simp] theorem State.resumeGroup_freeFrames (s : State) (gi : Nat) (pass : Bool) : (s.resumeGroup gi pass).freeFrames = s.freeFrames := rfl
@[simp] theorem State.resumeGroup_oldFrames (s : State) (gi : Nat) (pass : Bool) : (s.resumeGroup gi pass).oldFrames = s.oldFrames := rfl
@[simp] theorem State.resumeGroup_bindings (s : State) (gi : Nat) (pass : Bool) : (s.resumeGroup gi pass).bindings = s.bindings := rfl
@[simp] theorem State.resumeGroup_cores (s : State) (gi : Nat) (pass : Bool) : (s.resumeGroup gi pass).cores = s.cores := rfl
@[simp] theorem State.resumeGroup_contexts (s : State) (gi : Nat) (pass : Bool) : (s.resumeGroup gi pass).contexts = s.contexts := rfl
@[simp] theorem State.resumeGroup_tasks (s : State) (gi : Nat) (pass : Bool) : (s.resumeGroup gi pass).tasks = s.tasks := rfl
@[simp] theorem State.resumeGroup_teams (s : State) (gi : Nat) (pass : Bool) : (s.resumeGroup gi pass).teams = s.teams := rfl
@[simp] theorem State.resumeGroup_groups (s : State) (gi : Nat) (pass : Bool) : (s.resumeGroup gi pass).groups = modAt s.groups gi fun g => g.resume pass := rfl
@[simp] theorem State.resumeGroup_pails (s : State) (gi : Nat) (pass : Bool) : (s.resumeGroup gi pass).pails = s.pails := rfl
@[simp] theorem State.resumeGroup_turn (s : State) (gi : Nat) (pass : Bool) : (s.resumeGroup gi pass).turn = s.turn := rfl
@[simp] theorem State.resumeGroup_trapSeq (s : State) (gi : Nat) (pass : Bool) : (s.resumeGroup gi pass).trapSeq = s.trapSeq := rfl
@[simp] theorem State.resumeGroup_reqTail (s : State) (gi : Nat) (pass : Bool) : (s.resumeGroup gi pass).reqTail = s.reqTail := rfl
@[simp] theorem State.resumeGroup_reqHead (s : State) (gi : Nat) (pass : Bool) : (s.resumeGroup gi pass).reqHead = s.reqHead := rfl
@[simp] theorem State.resumeGroup_rspTail (s : State) (gi : Nat) (pass : Bool) : (s.resumeGroup gi pass).rspTail = s.rspTail := rfl
@[simp] theorem State.resumeGroup_rspHead (s : State) (gi : Nat) (pass : Bool) : (s.resumeGroup gi pass).rspHead = s.rspHead := rfl
@[simp] theorem State.resumeGroup_winState (s : State) (gi : Nat) (pass : Bool) : (s.resumeGroup gi pass).winState = s.winState := rfl
@[simp] theorem State.resumeGroup_reqRing (s : State) (gi : Nat) (pass : Bool) : (s.resumeGroup gi pass).reqRing = s.reqRing := rfl
@[simp] theorem State.resumeGroup_rspRing (s : State) (gi : Nat) (pass : Bool) : (s.resumeGroup gi pass).rspRing = s.rspRing := rfl
@[simp] theorem State.resumeGroup_outbox (s : State) (gi : Nat) (pass : Bool) : (s.resumeGroup gi pass).outbox = s.outbox := rfl
@[simp] theorem State.resumeGroup_hostWins (s : State) (gi : Nat) (pass : Bool) : (s.resumeGroup gi pass).hostWins = s.hostWins := rfl
@[simp] theorem State.resumeGroup_hostData (s : State) (gi : Nat) (pass : Bool) : (s.resumeGroup gi pass).hostData = s.hostData := rfl
@[simp] theorem State.resumeGroup_stepCfg (s : State) (gi : Nat) (pass : Bool) : (s.resumeGroup gi pass).stepCfg = s.stepCfg := rfl
@[simp] theorem State.resumeGroup_devTime (s : State) (gi : Nat) (pass : Bool) : (s.resumeGroup gi pass).devTime = s.devTime := rfl
@[simp] theorem State.resumeGroup_islands (s : State) (gi : Nat) (pass : Bool) : (s.resumeGroup gi pass).islands = s.islands := rfl
@[simp] theorem State.resumeGroup_peers (s : State) (gi : Nat) (pass : Bool) : (s.resumeGroup gi pass).peers = s.peers := rfl
@[simp] theorem State.resumeGroup_devWrites (s : State) (gi : Nat) (pass : Bool) : (s.resumeGroup gi pass).devWrites = s.devWrites := rfl
@[simp] theorem State.resumeGroup_ckpts (s : State) (gi : Nat) (pass : Bool) : (s.resumeGroup gi pass).ckpts = s.ckpts := rfl
@[simp] theorem State.resumeGroup_snaps (s : State) (gi : Nat) (pass : Bool) : (s.resumeGroup gi pass).snaps = s.snaps := rfl
@[simp] theorem State.resumeGroup_running (s : State) (gi : Nat) (pass : Bool) : (s.resumeGroup gi pass).running = s.running := rfl
@[simp] theorem State.resumeGroup_minVersion (s : State) (gi : Nat) (pass : Bool) : (s.resumeGroup gi pass).minVersion = s.minVersion := rfl
@[simp] theorem State.resumeGroup_keyIndex (s : State) (gi : Nat) (pass : Bool) : (s.resumeGroup gi pass).keyIndex = s.keyIndex := rfl
@[simp] theorem State.resumeGroup_drives (s : State) (gi : Nat) (pass : Bool) : (s.resumeGroup gi pass).drives = s.drives := rfl
@[simp] theorem State.resumeGroup_booted (s : State) (gi : Nat) (pass : Bool) : (s.resumeGroup gi pass).booted = s.booted := rfl
@[simp] theorem State.resumeGroup_harts (s : State) (gi : Nat) (pass : Bool) : (s.resumeGroup gi pass).harts = s.harts := rfl
@[simp] theorem State.resumeGroup_sram (s : State) (gi : Nat) (pass : Bool) : (s.resumeGroup gi pass).sram = s.sram := rfl

/-! freeVal -/

@[simp] theorem State.freeVal_now (s : State) : s.freeVal.2.now = s.now := rfl
@[simp] theorem State.freeVal_agenda (s : State) : s.freeVal.2.agenda = s.agenda := rfl
@[simp] theorem State.freeVal_issuer (s : State) : s.freeVal.2.issuer = s.issuer := rfl
@[simp] theorem State.freeVal_freeCtr (s : State) : s.freeVal.2.freeCtr = s.freeCtr + 1 := rfl
@[simp] theorem State.freeVal_ord (s : State) : s.freeVal.2.ord = s.ord := rfl
@[simp] theorem State.freeVal_delays (s : State) : s.freeVal.2.delays = s.delays := rfl
@[simp] theorem State.freeVal_mem (s : State) : s.freeVal.2.mem = s.mem := rfl
@[simp] theorem State.freeVal_units (s : State) : s.freeVal.2.units = s.units := rfl
@[simp] theorem State.freeVal_creamery (s : State) : s.freeVal.2.creamery = s.creamery := rfl
@[simp] theorem State.freeVal_calendar (s : State) : s.freeVal.2.calendar = s.calendar := rfl
@[simp] theorem State.freeVal_tlb (s : State) : s.freeVal.2.tlb = s.tlb := rfl
@[simp] theorem State.freeVal_pool (s : State) : s.freeVal.2.pool = s.pool := rfl
@[simp] theorem State.freeVal_nextFrame (s : State) : s.freeVal.2.nextFrame = s.nextFrame := rfl
@[simp] theorem State.freeVal_freeFrames (s : State) : s.freeVal.2.freeFrames = s.freeFrames := rfl
@[simp] theorem State.freeVal_oldFrames (s : State) : s.freeVal.2.oldFrames = s.oldFrames := rfl
@[simp] theorem State.freeVal_bindings (s : State) : s.freeVal.2.bindings = s.bindings := rfl
@[simp] theorem State.freeVal_cores (s : State) : s.freeVal.2.cores = s.cores := rfl
@[simp] theorem State.freeVal_contexts (s : State) : s.freeVal.2.contexts = s.contexts := rfl
@[simp] theorem State.freeVal_tasks (s : State) : s.freeVal.2.tasks = s.tasks := rfl
@[simp] theorem State.freeVal_teams (s : State) : s.freeVal.2.teams = s.teams := rfl
@[simp] theorem State.freeVal_groups (s : State) : s.freeVal.2.groups = s.groups := rfl
@[simp] theorem State.freeVal_pails (s : State) : s.freeVal.2.pails = s.pails := rfl
@[simp] theorem State.freeVal_turn (s : State) : s.freeVal.2.turn = s.turn := rfl
@[simp] theorem State.freeVal_trapSeq (s : State) : s.freeVal.2.trapSeq = s.trapSeq := rfl
@[simp] theorem State.freeVal_reqTail (s : State) : s.freeVal.2.reqTail = s.reqTail := rfl
@[simp] theorem State.freeVal_reqHead (s : State) : s.freeVal.2.reqHead = s.reqHead := rfl
@[simp] theorem State.freeVal_rspTail (s : State) : s.freeVal.2.rspTail = s.rspTail := rfl
@[simp] theorem State.freeVal_rspHead (s : State) : s.freeVal.2.rspHead = s.rspHead := rfl
@[simp] theorem State.freeVal_winState (s : State) : s.freeVal.2.winState = s.winState := rfl
@[simp] theorem State.freeVal_reqRing (s : State) : s.freeVal.2.reqRing = s.reqRing := rfl
@[simp] theorem State.freeVal_rspRing (s : State) : s.freeVal.2.rspRing = s.rspRing := rfl
@[simp] theorem State.freeVal_outbox (s : State) : s.freeVal.2.outbox = s.outbox := rfl
@[simp] theorem State.freeVal_hostWins (s : State) : s.freeVal.2.hostWins = s.hostWins := rfl
@[simp] theorem State.freeVal_hostData (s : State) : s.freeVal.2.hostData = s.hostData := rfl
@[simp] theorem State.freeVal_stepCfg (s : State) : s.freeVal.2.stepCfg = s.stepCfg := rfl
@[simp] theorem State.freeVal_devTime (s : State) : s.freeVal.2.devTime = s.devTime := rfl
@[simp] theorem State.freeVal_islands (s : State) : s.freeVal.2.islands = s.islands := rfl
@[simp] theorem State.freeVal_peers (s : State) : s.freeVal.2.peers = s.peers := rfl
@[simp] theorem State.freeVal_devWrites (s : State) : s.freeVal.2.devWrites = s.devWrites := rfl
@[simp] theorem State.freeVal_ckpts (s : State) : s.freeVal.2.ckpts = s.ckpts := rfl
@[simp] theorem State.freeVal_snaps (s : State) : s.freeVal.2.snaps = s.snaps := rfl
@[simp] theorem State.freeVal_running (s : State) : s.freeVal.2.running = s.running := rfl
@[simp] theorem State.freeVal_minVersion (s : State) : s.freeVal.2.minVersion = s.minVersion := rfl
@[simp] theorem State.freeVal_keyIndex (s : State) : s.freeVal.2.keyIndex = s.keyIndex := rfl
@[simp] theorem State.freeVal_drives (s : State) : s.freeVal.2.drives = s.drives := rfl
@[simp] theorem State.freeVal_booted (s : State) : s.freeVal.2.booted = s.booted := rfl
@[simp] theorem State.freeVal_harts (s : State) : s.freeVal.2.harts = s.harts := rfl
@[simp] theorem State.freeVal_sram (s : State) : s.freeVal.2.sram = s.sram := rfl
@[simp] theorem State.freeVal_fst (s : State) : s.freeVal.1 = Config.free s.freeCtr := rfl

/-! pmWrite -/

@[simp] theorem State.pmWrite_now (s : State) (key a : Nat) (b : Byte) : (s.pmWrite key a b).now = s.now := by
  unfold State.pmWrite; split <;> rfl
@[simp] theorem State.pmWrite_agenda (s : State) (key a : Nat) (b : Byte) : (s.pmWrite key a b).agenda = s.agenda := by
  unfold State.pmWrite; split <;> rfl
@[simp] theorem State.pmWrite_issuer (s : State) (key a : Nat) (b : Byte) : (s.pmWrite key a b).issuer = s.issuer := by
  unfold State.pmWrite; split <;> rfl
@[simp] theorem State.pmWrite_freeCtr (s : State) (key a : Nat) (b : Byte) : (s.pmWrite key a b).freeCtr = s.freeCtr := by
  unfold State.pmWrite; split <;> rfl
@[simp] theorem State.pmWrite_ord (s : State) (key a : Nat) (b : Byte) : (s.pmWrite key a b).ord = s.ord := by
  unfold State.pmWrite; split <;> rfl
@[simp] theorem State.pmWrite_delays (s : State) (key a : Nat) (b : Byte) : (s.pmWrite key a b).delays = s.delays := by
  unfold State.pmWrite; split <;> rfl
@[simp] theorem State.pmWrite_creamery (s : State) (key a : Nat) (b : Byte) : (s.pmWrite key a b).creamery = s.creamery := by
  unfold State.pmWrite; split <;> rfl
@[simp] theorem State.pmWrite_calendar (s : State) (key a : Nat) (b : Byte) : (s.pmWrite key a b).calendar = s.calendar := by
  unfold State.pmWrite; split <;> rfl
@[simp] theorem State.pmWrite_tlb (s : State) (key a : Nat) (b : Byte) : (s.pmWrite key a b).tlb = s.tlb := by
  unfold State.pmWrite; split <;> rfl
@[simp] theorem State.pmWrite_pool (s : State) (key a : Nat) (b : Byte) : (s.pmWrite key a b).pool = s.pool := by
  unfold State.pmWrite; split <;> rfl
@[simp] theorem State.pmWrite_nextFrame (s : State) (key a : Nat) (b : Byte) : (s.pmWrite key a b).nextFrame = s.nextFrame := by
  unfold State.pmWrite; split <;> rfl
@[simp] theorem State.pmWrite_freeFrames (s : State) (key a : Nat) (b : Byte) : (s.pmWrite key a b).freeFrames = s.freeFrames := by
  unfold State.pmWrite; split <;> rfl
@[simp] theorem State.pmWrite_oldFrames (s : State) (key a : Nat) (b : Byte) : (s.pmWrite key a b).oldFrames = s.oldFrames := by
  unfold State.pmWrite; split <;> rfl
@[simp] theorem State.pmWrite_bindings (s : State) (key a : Nat) (b : Byte) : (s.pmWrite key a b).bindings = s.bindings := by
  unfold State.pmWrite; split <;> rfl
@[simp] theorem State.pmWrite_cores (s : State) (key a : Nat) (b : Byte) : (s.pmWrite key a b).cores = s.cores := by
  unfold State.pmWrite; split <;> rfl
@[simp] theorem State.pmWrite_contexts (s : State) (key a : Nat) (b : Byte) : (s.pmWrite key a b).contexts = s.contexts := by
  unfold State.pmWrite; split <;> rfl
@[simp] theorem State.pmWrite_tasks (s : State) (key a : Nat) (b : Byte) : (s.pmWrite key a b).tasks = s.tasks := by
  unfold State.pmWrite; split <;> rfl
@[simp] theorem State.pmWrite_teams (s : State) (key a : Nat) (b : Byte) : (s.pmWrite key a b).teams = s.teams := by
  unfold State.pmWrite; split <;> rfl
@[simp] theorem State.pmWrite_groups (s : State) (key a : Nat) (b : Byte) : (s.pmWrite key a b).groups = s.groups := by
  unfold State.pmWrite; split <;> rfl
@[simp] theorem State.pmWrite_pails (s : State) (key a : Nat) (b : Byte) : (s.pmWrite key a b).pails = s.pails := by
  unfold State.pmWrite; split <;> rfl
@[simp] theorem State.pmWrite_turn (s : State) (key a : Nat) (b : Byte) : (s.pmWrite key a b).turn = s.turn := by
  unfold State.pmWrite; split <;> rfl
@[simp] theorem State.pmWrite_trapSeq (s : State) (key a : Nat) (b : Byte) : (s.pmWrite key a b).trapSeq = s.trapSeq := by
  unfold State.pmWrite; split <;> rfl
@[simp] theorem State.pmWrite_reqTail (s : State) (key a : Nat) (b : Byte) : (s.pmWrite key a b).reqTail = s.reqTail := by
  unfold State.pmWrite; split <;> rfl
@[simp] theorem State.pmWrite_reqHead (s : State) (key a : Nat) (b : Byte) : (s.pmWrite key a b).reqHead = s.reqHead := by
  unfold State.pmWrite; split <;> rfl
@[simp] theorem State.pmWrite_rspTail (s : State) (key a : Nat) (b : Byte) : (s.pmWrite key a b).rspTail = s.rspTail := by
  unfold State.pmWrite; split <;> rfl
@[simp] theorem State.pmWrite_rspHead (s : State) (key a : Nat) (b : Byte) : (s.pmWrite key a b).rspHead = s.rspHead := by
  unfold State.pmWrite; split <;> rfl
@[simp] theorem State.pmWrite_winState (s : State) (key a : Nat) (b : Byte) : (s.pmWrite key a b).winState = s.winState := by
  unfold State.pmWrite; split <;> rfl
@[simp] theorem State.pmWrite_reqRing (s : State) (key a : Nat) (b : Byte) : (s.pmWrite key a b).reqRing = s.reqRing := by
  unfold State.pmWrite; split <;> rfl
@[simp] theorem State.pmWrite_rspRing (s : State) (key a : Nat) (b : Byte) : (s.pmWrite key a b).rspRing = s.rspRing := by
  unfold State.pmWrite; split <;> rfl
@[simp] theorem State.pmWrite_outbox (s : State) (key a : Nat) (b : Byte) : (s.pmWrite key a b).outbox = s.outbox := by
  unfold State.pmWrite; split <;> rfl
@[simp] theorem State.pmWrite_hostWins (s : State) (key a : Nat) (b : Byte) : (s.pmWrite key a b).hostWins = s.hostWins := by
  unfold State.pmWrite; split <;> rfl
@[simp] theorem State.pmWrite_hostData (s : State) (key a : Nat) (b : Byte) : (s.pmWrite key a b).hostData = s.hostData := by
  unfold State.pmWrite; split <;> rfl
@[simp] theorem State.pmWrite_stepCfg (s : State) (key a : Nat) (b : Byte) : (s.pmWrite key a b).stepCfg = s.stepCfg := by
  unfold State.pmWrite; split <;> rfl
@[simp] theorem State.pmWrite_devTime (s : State) (key a : Nat) (b : Byte) : (s.pmWrite key a b).devTime = s.devTime := by
  unfold State.pmWrite; split <;> rfl
@[simp] theorem State.pmWrite_islands (s : State) (key a : Nat) (b : Byte) : (s.pmWrite key a b).islands = s.islands := by
  unfold State.pmWrite; split <;> rfl
@[simp] theorem State.pmWrite_peers (s : State) (key a : Nat) (b : Byte) : (s.pmWrite key a b).peers = s.peers := by
  unfold State.pmWrite; split <;> rfl
@[simp] theorem State.pmWrite_devWrites (s : State) (key a : Nat) (b : Byte) : (s.pmWrite key a b).devWrites = s.devWrites := by
  unfold State.pmWrite; split <;> rfl
@[simp] theorem State.pmWrite_ckpts (s : State) (key a : Nat) (b : Byte) : (s.pmWrite key a b).ckpts = s.ckpts := by
  unfold State.pmWrite; split <;> rfl
@[simp] theorem State.pmWrite_snaps (s : State) (key a : Nat) (b : Byte) : (s.pmWrite key a b).snaps = s.snaps := by
  unfold State.pmWrite; split <;> rfl
@[simp] theorem State.pmWrite_running (s : State) (key a : Nat) (b : Byte) : (s.pmWrite key a b).running = s.running := by
  unfold State.pmWrite; split <;> rfl
@[simp] theorem State.pmWrite_minVersion (s : State) (key a : Nat) (b : Byte) : (s.pmWrite key a b).minVersion = s.minVersion := by
  unfold State.pmWrite; split <;> rfl
@[simp] theorem State.pmWrite_keyIndex (s : State) (key a : Nat) (b : Byte) : (s.pmWrite key a b).keyIndex = s.keyIndex := by
  unfold State.pmWrite; split <;> rfl
@[simp] theorem State.pmWrite_drives (s : State) (key a : Nat) (b : Byte) : (s.pmWrite key a b).drives = s.drives := by
  unfold State.pmWrite; split <;> rfl
@[simp] theorem State.pmWrite_booted (s : State) (key a : Nat) (b : Byte) : (s.pmWrite key a b).booted = s.booted := by
  unfold State.pmWrite; split <;> rfl
@[simp] theorem State.pmWrite_harts (s : State) (key a : Nat) (b : Byte) : (s.pmWrite key a b).harts = s.harts := by
  unfold State.pmWrite; split <;> rfl
@[simp] theorem State.pmWrite_sram (s : State) (key a : Nat) (b : Byte) : (s.pmWrite key a b).sram = s.sram := by
  unfold State.pmWrite; split <;> rfl
@[simp] theorem State.pmWrite_mem (s : State) (key a : Nat) (b : Byte) : (s.pmWrite key a b).mem =
    spSet 0#8 (if a < linkBase ∧ (s.unit a).key = 0 then Memory.without s.mem (a / 64 * 64) (a / 64 * 64 + 64) else s.mem) a b := by
  unfold State.pmWrite; split <;> split <;> (simp_all; try omega)

end Sys2Proof.Machine
end

