-- ==== Sys2Proof/Laws/Memory.lean ====
section
/-!
SUPPORT. Sparse lists and physical memory: reading what was written, and the canonical form that every memory
operation keeps.
-/

namespace Sys2Proof.Machine

/-! Sparse lists -/

/-- A canonical list stays canonical from a lower bound on. -/
theorem sparseWf_mono {α : Type} [DecidableEq α] {d : α} {m : Sparse α} {lo lo' : Nat} (h : lo' ≤ lo)
    (hm : sparseWf d lo m = true) : sparseWf d lo' m = true := by
  cases m with
  | nil => rfl
  | cons e rest =>
    simp only [sparseWf, Bool.and_eq_true, decide_eq_true_eq] at hm ⊢
    exact ⟨⟨by omega, hm.1.2⟩, hm.2⟩

/-- A write keeps the canonical form. -/
theorem spSet_wf {α : Type} [DecidableEq α] {d : α} (m : Sparse α) {lo i : Nat} (x : α) (hi : lo ≤ i)
    (hm : sparseWf d lo m = true) : sparseWf d lo (spSet d m i x) = true := by
  induction m generalizing lo with
  | nil => unfold spSet; split <;> simp_all [sparseWf]
  | cons e rest ih =>
    obtain ⟨k, v⟩ := e
    simp only [sparseWf, Bool.and_eq_true, decide_eq_true_eq] at hm
    obtain ⟨⟨hk, hv⟩, hr⟩ := hm
    unfold spSet
    split
    · split
      · simp only [sparseWf, Bool.and_eq_true, decide_eq_true_eq]; exact ⟨⟨hk, hv⟩, hr⟩
      · simp only [sparseWf, Bool.and_eq_true, decide_eq_true_eq]; exact ⟨⟨hi, ‹_›⟩, ⟨⟨by omega, hv⟩, hr⟩⟩
    · split
      · split
        · exact sparseWf_mono (by omega) hr
        · subst i; simp only [sparseWf, Bool.and_eq_true, decide_eq_true_eq]; exact ⟨⟨hk, ‹_›⟩, hr⟩
      · simp only [sparseWf, Bool.and_eq_true, decide_eq_true_eq]
        exact ⟨⟨hk, hv⟩, ih (by omega) hr⟩

/-- Every key of a canonical list is at its lower bound or above. -/
theorem spGet_below {α : Type} [DecidableEq α] {d : α} {m : Sparse α} {lo i : Nat} (h : i < lo)
    (hm : sparseWf d lo m = true) : spGet d m i = d := by
  cases m with
  | nil => rfl
  | cons e rest =>
    simp only [sparseWf, Bool.and_eq_true, decide_eq_true_eq] at hm
    simp only [spGet]; rw [if_pos (by omega)]

/-- A canonical list reads what was written, and elsewhere what it held. -/
theorem spGet_spSet {α : Type} [DecidableEq α] {d : α} {m : Sparse α} {lo : Nat} (hm : sparseWf d lo m = true)
    (i j : Nat) (x : α) : spGet d (spSet d m i x) j = if j = i then x else spGet d m j := by
  induction m generalizing lo with
  | nil => unfold spSet; split <;> simp only [spGet] <;> split_ifs <;> first | rfl | simp_all
  | cons e rest ih =>
    obtain ⟨k, v⟩ := e
    simp only [sparseWf, Bool.and_eq_true, decide_eq_true_eq] at hm
    obtain ⟨⟨_, _⟩, hr⟩ := hm
    unfold spSet
    split
    · split
      · by_cases hj : j = i
        · subst hj; simp [spGet, *]
        · simp [hj]
      · simp only [spGet]; split_ifs <;> first | rfl | omega
    · split
      · subst i
        split
        · by_cases hj : j = k
          · subst hj; simpa [*] using spGet_below (by omega) hr
          · simp only [spGet, if_neg hj]
            split
            · exact spGet_below (by omega) hr
            · rfl
        · simp only [spGet]; split_ifs <;> first | rfl | omega
      · simp only [spGet, ih hr]; split_ifs <;> first | rfl | omega

/-- A filter keeps the canonical form. -/
theorem sparseWf_filter {α : Type} [DecidableEq α] {d : α} (f : Nat × α → Bool) {m : Sparse α} {lo : Nat}
    (hm : sparseWf d lo m = true) : sparseWf d lo (m.filter f) = true := by
  induction m generalizing lo with
  | nil => rfl
  | cons e rest ih =>
    simp only [sparseWf, Bool.and_eq_true, decide_eq_true_eq] at hm
    have := ih hm.2
    rw [List.filter_cons]
    split
    · simp only [sparseWf, Bool.and_eq_true, decide_eq_true_eq]; exact ⟨hm.1, this⟩
    · exact sparseWf_mono (by omega) this

/-! Physical memory -/

/-- Memory right after reset has the canonical form. -/
theorem State.reset_mem_wf : Memory.wf State.reset.mem = true := rfl

/-- Taking bytes away keeps the canonical form. -/
theorem Memory.without_wf {m : Memory} (lo hi : Nat) (h : m.wf = true) : (m.without lo hi).wf = true :=
  sparseWf_filter _ h

/-- A byte written keeps the canonical form. -/
theorem State.pmWrite_wf {s : State} (key a : Nat) (b : Byte) (h : s.mem.wf = true) : (s.pmWrite key a b).mem.wf = true := by
  rw [State.pmWrite_mem]
  refine spSet_wf _ _ (Nat.zero_le a) ?_
  split
  · exact Memory.without_wf _ _ h
  · exact h

/-- Bytes written keep the canonical form. -/
theorem State.pmWriteN_wf {s : State} (key a : Nat) (bs : List Byte) (h : s.mem.wf = true) :
    (s.pmWriteN key a bs).mem.wf = true := by
  unfold State.pmWriteN
  generalize bs.zip (upto a bs.length) = l
  induction l generalizing s with
  | nil => exact h
  | cons w l ih => exact ih (State.pmWrite_wf key w.2 w.1 h)

/-- A frame that enters the pool keeps the canonical form. -/
theorem State.zeroFrame_wf {s : State} (f : Nat) (h : s.mem.wf = true) : (s.zeroFrame f).mem.wf = true :=
  Memory.without_wf _ _ h

/-- A table entry written keeps the canonical form. -/
theorem State.setPte_wf {s : State} (a e : Nat) (h : s.mem.wf = true) : (s.setPte a e).mem.wf = true :=
  State.pmWriteN_wf _ _ _ h

/-- Tables made keep the canonical form. -/
theorem State.tablesFor_wf {s : State} (va : Nat) (ls : List (Nat × Nat × Bool)) (tbl : Nat) (h : s.mem.wf = true) :
    (s.tablesFor va ls tbl).1.mem.wf = true := by
  fun_induction State.tablesFor s va ls tbl with
  | case1 => exact h
  | case2 => exact h
  | case3 => exact h
  | case4 => rename_i ih; exact ih h
  | case5 => rename_i ih; exact ih (State.setPte_wf _ _ h)

/-- An entry written at a level keeps the canonical form. -/
theorem State.mapAt_wf {s : State} (root va level e : Nat) (h : s.mem.wf = true) : (s.mapAt root va level e).mem.wf = true :=
  State.setPte_wf _ _ (State.tablesFor_wf _ _ _ h)

/-- A page mapped keeps the canonical form. -/
theorem State.mapPage_wf {s : State} (root va e : Nat) (h : s.mem.wf = true) : (s.mapPage root va e).mem.wf = true :=
  State.mapAt_wf _ _ _ _ h

end Sys2Proof.Machine
end

