-- ==== Sys2Proof/Laws/Quiet.lean ====
section
/-!
SUPPORT. What the shared operations can do, said once: how an issue, a wait, a transfer and a tile instruction may
answer; and that taking a trap, landing results and finishing an issue leave memory, the clock and the identity alone.
-/

namespace Sys2Proof.Machine

/-- Memory, its units, the clock and the identity counters stand as before. -/
structure State.Quiet (s t : State) : Prop where
  mem : t.mem = s.mem
  units : t.units = s.units
  now : t.now = s.now
  devTime : t.devTime = s.devTime
  minVersion : t.minVersion = s.minVersion
  keyIndex : t.keyIndex = s.keyIndex

theorem State.quiet_refl (s : State) : s.Quiet s := by constructor <;> rfl

theorem State.Quiet.trans {s t u : State} (h : s.Quiet t) (h' : t.Quiet u) : s.Quiet u :=
  ⟨h'.mem.trans h.mem, h'.units.trans h.units, h'.now.trans h.now, h'.devTime.trans h.devTime,
    h'.minVersion.trans h.minVersion, h'.keyIndex.trans h.keyIndex⟩

/-- A fold of quiet steps is quiet. -/
theorem State.quiet_foldl {α : Type} {f : State → α → State} (hf : ∀ (s : State) a, s.Quiet (f s a)) (l : List α) (s : State) :
    s.Quiet (l.foldl f s) := by
  induction l generalizing s with
  | nil => exact s.quiet_refl
  | cons a l ih => exact (hf s a).trans (ih _)

theorem State.modGroup_quiet (s : State) (gi : Nat) (f : Group → Group) : s.Quiet (s.modGroup gi f) := by
  constructor <;> rfl

theorem State.modTeam_quiet (s : State) (ti : Nat) (f : Team → Team) : s.Quiet (s.modTeam ti f) := by
  constructor <;> rfl

theorem State.modCtx_quiet (s : State) (ci : Nat) (f : Context → Context) : s.Quiet (s.modCtx ci f) := by
  constructor <;> rfl

theorem State.modPail_quiet (s : State) (pi : Nat) (f : Pail → Pail) : s.Quiet (s.modPail pi f) := by
  constructor <;> rfl

theorem State.modCore_quiet (s : State) (c : Nat) (f : Core → Core) : s.Quiet (s.modCore c f) := by
  constructor <;> rfl

/-! Messages, stops and traps -/

theorem State.flushBox_quiet (s : State) (l : List (List Byte)) : s.Quiet (s.flushBox l) := by
  induction l generalizing s with
  | nil => constructor <;> rfl
  | cons m l ih =>
    simp only [State.flushBox]
    split
    · constructor <;> rfl
    · exact State.Quiet.trans (by constructor <;> rfl) (ih _)

theorem State.send_quiet (s : State) (m : List Byte) : s.Quiet (s.send m) := s.flushBox_quiet _

theorem State.respond_quiet (s : State) (kind status : Nat) (seq : Word) (ctx : Nat) (p : List Byte) :
    s.Quiet (s.respond kind status seq ctx p) := s.send_quiet _

theorem State.stopContext_quiet (s : State) (ci : Nat) (why : String) : s.Quiet (s.stopContext ci why) := by
  unfold State.stopContext
  split
  · split
    · exact (s.modCtx_quiet ci _).trans (State.send_quiet _ _)
    · exact s.quiet_refl
  · exact s.quiet_refl

/-- Taking a trap touches no memory. -/
theorem State.takeTrap_quiet (s : State) (gi : Nat) (t : Trap) (pc : Addr) : s.Quiet (s.takeTrap gi t pc) := by
  have h1 (f : Group → Group) : s.Quiet (State.modGroup { s with trapSeq := s.trapSeq + 1 } gi f) := by constructor <;> rfl
  unfold State.takeTrap
  split
  · exact s.quiet_refl
  · split
    · exact s.quiet_refl
    · dsimp only
      split
      · exact h1 _
      · split
        · exact h1 _
        · split
          · exact (h1 _).trans (State.send_quiet _ _)
          · exact ((h1 _).trans (State.send_quiet _ _)).trans (State.stopContext_quiet _ _ _)

/-- A trap freezes its group with the trap word, PC and AUX, and takes the next place in the order of traps (R356). -/
theorem State.takeTrap_group {s : State} {gi : Nat} {t : Trap} {pc : Addr} {g : Group} {c : Context}
    (hg : s.groups[gi]? = some g) (hc : s.contexts[g.ctx]? = some c) :
    (s.takeTrap gi t pc).groups[gi]? =
      some (g.freeze t pc (if g.serves.isSome then .kernel else c.route (s.trapRegs c gi g) t) s.trapSeq (s.groupCk g)
        (s.trapRegs c gi g).1) := by
  have hm (f : Group → Group) : (modAt s.groups gi f)[gi]? = some (f g) := by
    obtain ⟨hl, he⟩ := List.getElem?_eq_some_iff.1 hg
    simp [modAt, hl, he]
  have hf : ∀ (s : State) (l : List (List Byte)), (s.flushBox l).groups = s.groups := by
    intro s l
    induction l generalizing s with
    | nil => rfl
    | cons m l ih =>
      simp only [State.flushBox]
      split
      · rfl
      · rw [ih]
  have hsend : ∀ (s : State) (m : List Byte), (s.send m).groups = s.groups := fun s m => hf s _
  have hstop : ∀ (s : State) (ci : Nat) (why : String), (s.stopContext ci why).groups = s.groups := by
    intro s ci why
    unfold State.stopContext
    split
    · split
      · rw [hsend]; rfl
      · rfl
    · rfl
  unfold State.takeTrap
  simp only [hg, hc]
  split
  · exact hm _
  · split
    · exact hm _
    · split
      · rw [hsend]; exact hm _
      · rw [hstop, hsend]; exact hm _

/-! Landing, finishing and settling -/

theorem State.land_quiet (s : State) (gi ord : Nat) (w : RegWrite) : s.Quiet (s.land gi ord w) := by
  unfold State.land
  split
  · exact s.modTeam_quiet _ _
  · exact s.modGroup_quiet _ _
  · exact s.modGroup_quiet _ _

theorem State.landAll_quiet (s : State) (gi ord : Nat) (ws : List RegWrite) : s.Quiet (s.landAll gi ord ws) :=
  State.quiet_foldl (fun s w => s.land_quiet gi ord w) ws s

theorem State.launch_quiet (s : State) (gi ord sig last : Nat) (r : Res) : s.Quiet (s.launch gi ord sig last r) := by
  unfold State.launch
  dsimp only
  split
  · split
    · exact s.landAll_quiet _ _ _
    · exact (s.landAll_quiet _ _ _).trans (State.modGroup_quiet _ _ _)
  · split
    · exact s.quiet_refl
    · exact s.modGroup_quiet _ _

theorem State.stepped_quiet (s : State) (i : Iss) : s.Quiet (s.stepped i) := by
  unfold State.stepped
  split
  · exact s.takeTrap_quiet _ _ _
  · exact s.quiet_refl

theorem State.countPair_quiet (s : State) (i : Iss) (gc g : Group) : s.Quiet (s.countPair i gc g) := by
  unfold State.countPair
  split
  · exact s.quiet_refl
  · dsimp only
    split
    · exact s.quiet_refl
    · exact s.modCtx_quiet _ _

theorem State.loseLatches_quiet (s : State) (gi core : Nat) : s.Quiet (s.loseLatches gi core) := by constructor <;> rfl

/-- The end of an issue touches no memory. -/
theorem State.finish_quiet (s : State) (i : Iss) (gc g : Group) (regs : List Nat) (extra pend : Nat) (res : List Res)
    (move : Group → Group) : s.Quiet (s.finish i gc g regs extra pend res move) := by
  unfold State.finish
  dsimp only
  refine State.Quiet.trans ?_ (State.stepped_quiet _ i)
  refine State.Quiet.trans ?_ (State.quiet_foldl (fun s r => s.launch_quiet _ _ _ _ r) res _)
  refine State.Quiet.trans ?_ (State.countPair_quiet _ i _ _)
  split
  · exact State.Quiet.trans (by constructor <;> rfl) (State.loseLatches_quiet _ _ _)
  · exact (State.Quiet.trans (by constructor <;> rfl) (State.loseLatches_quiet _ _ _)).trans (State.modCtx_quiet _ _ _)

theorem State.passRun_quiet (s : State) (i : Iss) (ws : List RegWrite) : s.Quiet (s.passRun i ws) := s.finish_quiet ..

theorem State.blockRun_quiet (s : State) (i : Iss) (c : Cond) (dst : Option Nat) (v : Word) : s.Quiet (s.blockRun i c dst v) :=
  s.finish_quiet ..

theorem State.passAt_quiet (s : State) (i : Iss) (c : Cond) (ws : List RegWrite) : s.Quiet (s.passAt i c ws) := by
  unfold State.passAt
  split
  · exact (s.passRun_quiet i ws).trans (State.modGroup_quiet _ _ _)
  · exact s.passRun_quiet i ws

theorem State.finishValues_quiet (s : State) (i : Iss) (ns : List Need) (lr ll : Nat) (v : Values) :
    s.Quiet (s.finishValues i ns lr ll v) := s.finish_quiet ..

theorem State.finishWork_quiet (s : State) (i : Iss) (g : Group) (regs : List Nat) (n : Nat) (ws : List Work) :
    s.Quiet (s.finishWork i g regs n ws) := s.finish_quiet ..

theorem State.settle_quiet (s : State) (i : Iss) (e : Stop) : s.Quiet (s.settle i e) := by
  unfold State.settle
  split
  · exact s.takeTrap_quiet _ _ _
  · split
    · exact s.quiet_refl
    · exact s.modGroup_quiet _ _
  · constructor <;> rfl

/-! What each shared shape of an instruction can answer -/

/-- An issue answers a next state only with an issuing run: its body's state, but on trial the state as it stands, or the
settled state of its stop. -/
theorem State.issue_cases {s t : State} {k : Ctl} {body : Iss → Except Stop State} (h : s.issue k body = .next t) :
    ∃ i, s.iss k = some i ∧ ((∃ u, body i = .ok u ∧ t = if i.trial then s else u) ∨ ∃ e, body i = .error e ∧ t = s.settle i e) := by
  unfold State.issue at h
  cases hi : s.iss k with
  | none => simp [hi] at h
  | some i =>
    refine ⟨i, rfl, ?_⟩
    rw [hi] at h
    cases hb : body i with
    | ok u => simp only [hb, Host.Outcome.next.injEq] at h; exact .inl ⟨u, rfl, h.symm⟩
    | error e => simp only [hb, Host.Outcome.next.injEq] at h; exact .inr ⟨e, rfl, h.symm⟩

/-- A quiet body makes a quiet instruction. -/
theorem State.issue_quiet {s t : State} {k : Ctl} {body : Iss → Except Stop State}
    (hb : ∀ i u, body i = .ok u → s.Quiet u) (h : s.issue k body = .next t) : s.Quiet t := by
  obtain ⟨i, -, ⟨u, hu, rfl⟩ | ⟨e, -, rfl⟩⟩ := State.issue_cases h
  · split
    · exact s.quiet_refl
    · exact hb i u hu
  · exact s.settle_quiet i e

/-- A value instruction: checks and values, and their finish. -/
theorem State.valueWith_cases {s t : State} {coll : Bool} {k : Ctl} {ns : List Need} {d : Opnd} {words lr ll : Nat}
    {val : Iss → Nat → BitVec 64} {cell : Iss → Rec → Cell} {uni : Iss → Rec → Bool}
    (h0 : s.valueWith coll k ns d words lr ll val cell uni = .next t) :
    ∃ i, s.iss k = some i ∧ ((∃ e, t = s.settle i e) ∨
      ∃ v, i.check ns = .ok () ∧ i.timedValues coll (readRegs ns) d words (fun t p => word (val (t p) p))
        (fun t r x => cell (t r.b) x) (fun t r x => uni (t r.b) x) = .ok v ∧ t = s.finishValues i ns lr ll v) := by
  obtain ⟨i, hi, ⟨u, h, rfl⟩ | ⟨e, -, rfl⟩⟩ := State.issue_cases h0
  · refine ⟨i, hi, .inr ?_⟩
    split at h
    · cases h
    · rename_i hc
      have ht : i.trial = false := by
        by_contra hn
        simp only [Bool.not_eq_false] at hn
        unfold Iss.check Iss.checkWith at hc
        simp only [hn, if_true] at hc
        split at hc
        · cases hc
        · split at hc
          · cases hc
          · split at hc
            · cases hc
            · split at hc <;> cases hc
      split at h
      · cases h
      · rename_i v hv
        exact ⟨v, hc, hv, by simp only [ht]; simpa using h.symm⟩
  · exact ⟨i, hi, .inl ⟨e, rfl⟩⟩

theorem State.valueWith_quiet {s t : State} {coll : Bool} {k : Ctl} {ns : List Need} {d : Opnd} {words lr ll : Nat}
    {val : Iss → Nat → BitVec 64} {cell : Iss → Rec → Cell} {uni : Iss → Rec → Bool}
    (h : s.valueWith coll k ns d words lr ll val cell uni = .next t) : s.Quiet t := by
  obtain ⟨i, -, ⟨e, rfl⟩ | ⟨v, -, -, rfl⟩⟩ := State.valueWith_cases h
  · exact s.settle_quiet i e
  · exact s.finishValues_quiet ..

theorem State.predWith_quiet {s t : State} {coll : Bool} {k : Ctl} {ns : List Need} {p lr ll : Nat} {bit : Iss → Nat → Bool}
    (h : s.predWith coll k ns p lr ll bit = .next t) : s.Quiet t := by
  refine State.issue_quiet (fun i u h => ?_) h
  split at h
  · cases h
  · simp only [Except.ok.injEq] at h
    exact h ▸ s.finish_quiet ..

/-- A wait stops at a check, passes its run or blocks it. -/
theorem State.waitOp_quiet {s t : State} {k : Ctl} {d : Opnd} {chk : Iss → Except Stop Unit} {now : Iss → Option Word}
    {c : Iss → Cond} (h : s.waitOp k d chk now c = .next t) : s.Quiet t := by
  refine State.issue_quiet (fun i u h => ?_) h
  split at h
  · cases h
  · split at h
    · simp only [Except.ok.injEq] at h
      exact h ▸ s.passRun_quiet ..
    · split at h
      · simp only [Except.ok.injEq] at h
        exact h ▸ s.passAt_quiet ..
      · simp only [Except.ok.injEq] at h
        exact h ▸ s.blockRun_quiet ..

/-- A tile instruction stops, passes under a false guard, or starts one piece of work for the run. -/
theorem State.tileOp_quiet {s t : State} {k : Ctl} {ns : List Need} {pre : Iss → Except Stop Unit} {slices : BitVec 4}
    {watch : Iss → List (Nat × Nat × Addr × Nat)}
    {body : Iss → Except Stop (List (Nat × Nat × Word) × List (Place × Byte) × List RegWrite)} {ops early : Iss → Except Stop Unit}
    (h : s.tileOp k ns pre slices watch body ops early = .next t) : s.Quiet t := by
  refine State.issue_quiet (fun i u h => ?_) h
  simp only [bind, Except.bind] at h
  split at h
  · cases h
  · split at h
    · cases h
    · split at h
      · cases h
      · split at h
        · simp only [Except.ok.injEq] at h
          exact h ▸ s.passRun_quiet ..
        · split at h
          · cases h
          · split at h
            · cases h
            · simp only [Except.ok.injEq] at h
              exact h ▸ State.Quiet.trans (by constructor <;> rfl) (State.finishWork_quiet ..)

theorem State.sweepBarriers_quiet (s : State) (ti : Nat) : s.Quiet (s.sweepBarriers ti) := by
  unfold State.sweepBarriers
  split
  · exact s.quiet_refl
  · split
    · exact s.modTeam_quiet _ _
    · exact s.quiet_refl

theorem State.autoArrive_quiet (s : State) (gi : Nat) : s.Quiet (s.autoArrive gi) := by
  unfold State.autoArrive
  split
  · exact s.quiet_refl
  · split
    · split
      · exact s.quiet_refl
      · exact s.modTeam_quiet _ _
    · exact s.quiet_refl

theorem State.afterExit_quiet (s : State) (gi : Nat) : s.Quiet (s.afterExit gi) := by
  unfold State.afterExit
  split
  · exact s.quiet_refl
  · split
    · dsimp only
      split
      · exact (s.modGroup_quiet _ _).trans (State.modCore_quiet _ _ _)
      · exact ((s.modGroup_quiet _ _).trans (State.modTeam_quiet _ _ _)).trans (State.sweepBarriers_quiet _ _)
    · exact (s.autoArrive_quiet gi).trans (State.sweepBarriers_quiet _ _)

/-- A control transfer: a stop, or every record of the run moves. -/
theorem State.transferOp_quiet {s t : State} {k : Ctl} {ns : List Need} {pre : Iss → (Nat → Iss) → Except Stop Unit}
    {indirect always leaves : Bool} {tgt : Iss → Nat → Option Addr} {link : Opnd}
    (h : s.transferOp k ns pre indirect always leaves tgt link = .next t) : s.Quiet t := by
  refine State.issue_quiet (fun i u h => ?_) h
  split at h
  · cases h
  · dsimp only at h
    split at h
    · cases h
    · split at h
      · cases h
      · cases leaves
        · simp only [Bool.false_eq_true, if_false, Except.ok.injEq] at h
          exact h ▸ s.finish_quiet ..
        · simp only [if_true, Except.ok.injEq] at h
          exact h ▸ (State.finish_quiet ..).trans (State.afterExit_quiet _ _)

end Sys2Proof.Machine
end

