-- ==== Sys2Proof/Tests/Slice0.lean ====
section
/-!
SUPPORT. Tests: ill-formed terms that `wf` refuses, words written from the manual's tables that decode to the
instructions they stand for, states that meet the hypotheses of the statements, and single steps.
-/

open Sys2Proof Sys2Proof.Machine

set_option maxRecDepth 20000
set_option exponentiation.threshold 1000

namespace Sys2Proof.Tests

/-- Control fields that do nothing. -/
def kp : Ctl := ⟨0, 0, 0, 0, false, false, 7⟩


/-! Ill-formed terms, one for each check of WellFormed, beside the well-formed ones they are made from -/

theorem test_wf_control_fields :
    (Instr.nop kp).wf = true ∧ (Instr.nop { kp with rsv := true }).wf = false ∧ (Instr.nop { kp with sig := 13 }).wf = false ∧
    (Instr.nop { kp with guard := 15 }).wf = false ∧ (Instr.nop { kp with sig := 12, guard := 14 }).wf = true ∧
    (Instr.bra { kp with hold := 1 } 0).wf = false ∧ (Instr.bra { kp with nwb := true } 0).wf = false ∧
    (Instr.call { kp with hold := 2 } (.s 4) 0).wf = false ∧ (Instr.call { kp with nwb := true } (.s 4) 0).wf = true ∧
    (Instr.exit { kp with nwb := true }).wf = false ∧ (Instr.ret { kp with hold := 3 } (.s 4)).wf = false ∧
    (Instr.expand { kp with guard := 0 }).wf = false ∧ (Instr.rerange { kp with guard := 0 }).wf = false ∧
    (Instr.dead { kp with guard := 0 } (.v 0) 0).wf = false := by decide

theorem test_wf_types :
    (Instr.add kp .n64 (.v 0) (.v 2) (.v 4)).wf = true ∧ (Instr.add kp .b32 (.v 0) (.v 2) (.v 4)).wf = false ∧
    (Instr.shl kp .i32 (.v 0) (.v 2) (.v 4)).wf = false ∧ (Instr.sar kp .n32 (.v 0) (.v 2) (.v 4)).wf = false ∧
    (Instr.neg kp .n32 (.v 0) (.v 2)).wf = false ∧ (Instr.bfx kp .b32 (.v 0) (.v 2) 0 1).wf = false ∧
    (Instr.fadd kp .e4m3 .rne false (.v 0) (.v 2) (.v 4)).wf = false ∧ (Instr.hadd2 kp .f32 .rne false (.v 0) (.v 2) (.v 4)).wf = false ∧
    (Instr.fcmp kp .eq .e3m2 (.p 0) (.v 2) (.v 4)).wf = false ∧ (Instr.fcvt kp .kq4 .f32 .rne false (.v 0) (.v 2)).wf = false ∧
    (Instr.f2i kp .b32 .f32 .rne (.v 0) (.v 2)).wf = false ∧ (Instr.i2f kp .e4m3 .i32 .rne false (.v 0) (.v 2)).wf = false ∧
    (Instr.plsplit kp .e4m3 (.v 0) (.v 2)).wf = false ∧ (Instr.ld kp .e3m2 (.v 0) (.s 2) ⟨0, 0, false⟩).wf = false ∧
    (Instr.gred kp .add .b32 (.s 0) (.v 2)).wf = false ∧ (Instr.gred kp .xor .i32 (.s 0) (.v 2)).wf = false ∧
    (Instr.remld kp .i32 (.v 0) (.v 2) 0 0).wf = false ∧ (Instr.mma kp .f32 0 (.acc 0) (.s 2) (.s 4) (.v 0) 0 false false 0).wf = false ∧
    (Instr.mmasp kp .f16 (.acc 0) (.s 2) (.s 4) (.v 0) 0 false 0).wf = false ∧
    (Instr.accld kp .i32 (.acc 0) (.s 2) (.s 4) 0).wf = false ∧ (Instr.qenc kp .f16 .rne false (.shp 0) (.s 2) (.s 4)).wf = false := by decide

theorem test_wf_immediates :
    (Instr.addI kp .i32 (.v 0) (.v 2) 0xFFFFFFFF).wf = true ∧ (Instr.addI kp .i32 (.v 0) (.v 2) 0x100000000).wf = false ∧
    (Instr.addI kp .i64 (.v 0) (.v 2) 0x100000000).wf = true ∧ (Instr.cmp kp .lt .b32 (.p 0) (.v 2) (.v 4)).wf = false ∧
    (Instr.cmp kp .ne .b32 (.p 0) (.v 2) (.v 4)).wf = true ∧ (Instr.bfi kp .b64 (.v 0) (.v 2) (.v 4) 0 65).wf = false ∧
    (Instr.bfx kp .n64 (.v 0) (.v 2) 63 64).wf = true ∧ (Instr.formget kp (.s 0) (.v 2) 3).wf = false := by decide

theorem test_wf_atomics :
    (Instr.atoms kp .add .n64 (.v 0) (.v 2) (.v 4) (.v 0) 5 0).wf = true ∧ (Instr.atoms kp .add .b32 (.v 0) (.v 2) (.v 4) (.v 0) 5 0).wf = false ∧
    (Instr.atoms kp .cas .i32 (.v 0) (.v 2) (.v 4) (.v 6) 5 0).wf = false ∧ (Instr.atoms kp .fadd .f16 (.v 0) (.v 2) (.v 4) (.v 0) 5 0).wf = false ∧
    (Instr.atoms kp .add .n64 (.v 0) (.v 2) (.v 4) (.v 0) 6 0).wf = false ∧ (Instr.atoms kp .add .n64 (.v 0) (.v 2) (.v 4) (.v 1) 0 0).wf = false ∧
    (Instr.gatom kp .cas .n32 (.v 0) (.v 2) (.v 4) (.v 6) 0 ⟨0, 0, false⟩).wf = true ∧
    (Instr.amaxrd kp .i32 (.s 0) (.s 2) 0 ⟨0, 0, false⟩).wf = false := by decide

theorem test_wf_synchronisation :
    (Instr.bar kp 0 0).wf = false ∧ (Instr.bar kp 0 1).wf = true ∧ (Instr.bararr kp (.s 0) 0 6).wf = false ∧
    (Instr.fence kp 3 0).wf = false ∧ (Instr.fence kp 2 6).wf = false ∧ (Instr.aliasfence kp 7).wf = false ∧
    (Instr.qfence kp 6).wf = false ∧ (Instr.tinfo kp (.s 0) 15).wf = false ∧ (Instr.tinfo kp (.s 0) 14).wf = true := by decide

theorem test_wf_matrix :
    (Instr.mma kp .e4m3 1 (.acc 0) (.s 2) (.s 4) (.v 0) 0 false false 0).wf = false ∧
    (Instr.mma kp .kq4 2 (.acc 0) (.s 2) (.s 4) (.v 0) 0 false false 0).wf = true ∧
    (Instr.mma kp .kq4 3 (.acc 0) (.s 2) (.s 4) (.v 0) 0 false false 0).wf = false ∧
    (Instr.mma kp .f16 0 (.acc 0) (.s 2) (.s 4) (.shp 1) 0 false false 0).wf = false ∧
    (Instr.mma kp .e3m2 0 (.acc 0) (.s 2) (.s 4) (.s 6) 0 false false 0).wf = true ∧
    (Instr.mma kp .f16 0 (.acc 0) (.acc 1) (.s 4) (.v 0) 0 false false 1).wf = false ∧
    (Instr.mmasp kp .i8 (.acc 0) (.s 2) (.s 4) (.shp 1) 0 false 0).wf = false ∧
    (Instr.accpatch kp 3 (.acc 0) (.s 2) (.s 4)).wf = false ∧ (Instr.accnorm kp 3 0 (.acc 0) (.acc 1) (.s 4)).wf = false ∧
    (Instr.accnorm kp 0 3 (.acc 0) (.acc 1) (.s 4)).wf = false ∧ (Instr.mpoly kp 3 0 (.acc 0) (.acc 1) (.s 4)).wf = false ∧
    (Instr.miter kp 3 1 (.acc 0) (.acc 1) (.acc 2) (.s 4)).wf = false := by decide

theorem test_wf_ragged_and_system :
    (Instr.rred kp 5 false (.v 0) (.s 2) (.shp 0) (.v 0)).wf = false ∧ (Instr.rred kp 0 false (.v 0) (.s 2) (.shp 0) (.s 4)).wf = false ∧
    (Instr.rred kp 4 true (.v 0) (.s 2) (.shp 0) (.s 4)).wf = true ∧ (Instr.rnorm kp 3 0 (.s 2) (.shp 0) (.s 4)).wf = false ∧
    (Instr.qenc kp .i8 .rne true (.shp 0) (.s 2) (.s 4)).wf = false ∧ (Instr.qenc kp .kq4 .rz false (.shp 0) (.s 2) (.s 4)).wf = false ∧
    (Instr.qenc kp .e4m3 .rz true (.shp 0) (.s 2) (.s 4)).wf = true ∧
    (Instr.sysrd kp (.s 0) 0x007).wf = false ∧ (Instr.syswr kp (.s 0) 0x024).wf = false ∧ (Instr.sysrd kp (.s 0) 0x023).wf = true ∧
    (Instr.unassignedOpcode 0).wf = true ∧ (Instr.unassignedOpcode 0x000000700400000000000000).wf = false := by decide

theorem test_wf_pail_and_events :
    (Instr.pqPush 16 0).wf = false ∧ (Instr.pqStat 15 31).wf = true ∧ (Instr.pailInstruction (.jal 0 1) false).wf = false ∧
    (Instr.pailInstruction (.branch .eq 0 0 0x1000) false).wf = false ∧ (Instr.pailInstruction (.store .bu 0 0 0) false).wf = false ∧
    (Instr.pailInstruction (.opImm .sll 0 0 32) false).wf = false ∧ (Instr.pailInstruction (.opImm .add 0 0 0x800) false).wf = false ∧
    (Instr.pailInstruction (.opImm .mul 0 0 0) false).wf = false ∧ (Instr.pailInstruction .fence true).wf = false ∧
    (Instr.createContext 0 8 0 [0] false 0).wf = false ∧ (Instr.createContext 0 0 0 [0, 1, 2, 3, 0] false 0).wf = false ∧
    (Instr.placeTeam 0 2048).wf = false ∧ (Instr.resumption 0 2048).wf = false ∧ (Instr.migration 0 2048).wf = false ∧
    (Instr.refreshWindow 128).wf = false ∧ (Instr.coreAvoidance 2048 0).wf = false ∧ (Instr.avoidanceEnd 2048).wf = false ∧
    (Instr.droopEvent 2048).wf = false ∧ (Instr.islandFrequencyChange 0 810).wf = false ∧ (Instr.islandFrequencyChange 0 825).wf = true ∧
    (Instr.clockHop 128).wf = false ∧ (Instr.peerLost 256).wf = false ∧ (Instr.heartbeatMiss 256 0).wf = false := by decide
/-- Words written from the tables of R32 to R57 and of the entries. -/
theorem test_words_integer_1 :
    decodeCode (.compute 0x3801CAA00401085000000000#96) = some (.add ⟨3, 2049, 12, 2, true, false, 10⟩ .i32 (.v 0) (.s 2) (.v 20)) ∧
    decodeCode (.compute 0x000000700809105800100000#96) = some (.sub kp .n32 (.v 2) (.s 4) (.v 22)) ∧
    decodeCode (.compute 0x000000700C11186000200000#96) = some (.mul kp .i64 (.v 4) (.s 6) (.v 24)) ∧
    decodeCode (.compute 0x000000701019206800300000#96) = some (.mulhi kp .n64 (.v 6) (.s 8) (.v 26)) ∧
    decodeCode (.compute 0x000000701821287000000000#96) = some (.div kp .i32 (.v 8) (.s 10) (.v 28)) ∧
    decodeCode (.compute 0x000000701C29307800300000#96) = some (.rem kp .n64 (.v 10) (.s 12) (.v 30)) ∧
    decodeCode (.compute 0x000000702831388000100000#96) = some (.min kp .n32 (.v 12) (.s 14) (.v 32)) ∧
    decodeCode (.compute 0x000000702C39408800200000#96) = some (.max kp .i64 (.v 14) (.s 16) (.v 34)) := by decide

/-- Words written from the tables of R32 to R57 and of the entries. -/
theorem test_words_integer_2 :
    decodeCode (.compute 0x000000703041489000400000#96) = some (.shl kp .b32 (.v 16) (.s 18) (.v 36)) ∧
    decodeCode (.compute 0x000000703449509800500000#96) = some (.shr kp .b64 (.v 18) (.s 20) (.v 38)) ∧
    decodeCode (.compute 0x00000070385158A000200000#96) = some (.sar kp .i64 (.v 20) (.s 22) (.v 40)) ∧
    decodeCode (.compute 0x000000703C5960A800400000#96) = some (.andb kp .b32 (.v 22) (.s 24) (.v 42)) ∧
    decodeCode (.compute 0x00000070406168B000500000#96) = some (.orb kp .b64 (.v 24) (.s 26) (.v 44)) ∧
    decodeCode (.compute 0x00000070446970B800400000#96) = some (.xorb kp .b32 (.v 26) (.s 28) (.v 46)) ∧
    decodeCode (.compute 0xF0F01C804C7178C000500000#96) = some (.andn ⟨15, 240, 1, 3, false, false, 8⟩ .b64 (.v 28) (.s 30) (.v 48)) := by decide

/-- Words written from the tables of R32 to R57 and of the entries. -/
theorem test_words_integer_immediate_1 :
    decodeCode (.compute 0x0000007084010821D8054321#96) = some (.addI kp .i32 (.v 0) (.s 2) 0x87654321#36) ∧
    decodeCode (.compute 0x0000007088091021DC154322#96) = some (.subI kp .n32 (.v 2) (.s 4) 0x87754322#36) ∧
    decodeCode (.compute 0x000000708C111A61E0254323#96) = some (.mulI kp .i64 (.v 4) (.s 6) 0x987854323#36) ∧
    decodeCode (.compute 0x0000007090192261E4354324#96) = some (.mulhiI kp .n64 (.v 6) (.s 8) 0x987954324#36) ∧
    decodeCode (.compute 0x0000007098212821E8054325#96) = some (.divI kp .i32 (.v 8) (.s 10) 0x87A54325#36) ∧
    decodeCode (.compute 0x000000709C293261EC354326#96) = some (.remI kp .n64 (.v 10) (.s 12) 0x987B54326#36) ∧
    decodeCode (.compute 0x00000070A8313821F0154327#96) = some (.minI kp .n32 (.v 12) (.s 14) 0x87C54327#36) ∧
    decodeCode (.compute 0x00000070AC394261F4254328#96) = some (.maxI kp .i64 (.v 14) (.s 16) 0x987D54328#36) := by decide

/-- Words written from the tables of R32 to R57 and of the entries. -/
theorem test_words_integer_immediate_2 :
    decodeCode (.compute 0x00000070B0414821F8454329#96) = some (.shlI kp .b32 (.v 16) (.s 18) 0x87E54329#36) ∧
    decodeCode (.compute 0x00000070B4495261FC55432A#96) = some (.shrI kp .b64 (.v 18) (.s 20) 0x987F5432A#36) ∧
    decodeCode (.compute 0x00000070B8515A620025432B#96) = some (.sarI kp .i64 (.v 20) (.s 22) 0x98805432B#36) ∧
    decodeCode (.compute 0x00000070BC5960220445432C#96) = some (.andbI kp .b32 (.v 22) (.s 24) 0x8815432C#36) ∧
    decodeCode (.compute 0x00000070C0616A620855432D#96) = some (.orbI kp .b64 (.v 24) (.s 26) 0x98825432D#36) ∧
    decodeCode (.compute 0x00000070C46970220C45432E#96) = some (.xorbI kp .b32 (.v 26) (.s 28) 0x8835432E#36) ∧
    decodeCode (.compute 0x00000070CC717A621055432F#96) = some (.andnI kp .b64 (.v 28) (.s 30) 0x98845432F#36) := by decide

/-- Words written from the tables of R32 to R57 and of the entries. -/
theorem test_words_integer_other_1 :
    decodeCode (.compute 0x0000007014FC05DFF8100000#96) = some (.mad kp .n32 (.v 63) (.v 1) (.s 55) (.hl 2)) ∧
    decodeCode (.compute 0x000000702019200000000000#96) = some (.neg kp .i32 (.v 6) (.s 8)) ∧
    decodeCode (.compute 0x000000702419200000200000#96) = some (.abs kp .i64 (.v 6) (.s 8)) ∧
    decodeCode (.compute 0x000000704819200000400000#96) = some (.notb kp .b32 (.v 6) (.s 8)) ∧
    decodeCode (.compute 0x000000705019200000500000#96) = some (.clz kp .b64 (.v 6) (.s 8)) ∧
    decodeCode (.compute 0x000000705419200000400000#96) = some (.popc kp .b32 (.v 6) (.s 8)) ∧
    decodeCode (.compute 0x000000705819200000400000#96) = some (.brev kp .b32 (.v 6) (.s 8)) ∧
    decodeCode (.compute 0x000000706819200000500000#96) = some (.mov kp .b64 (.v 6) (.s 8)) := by decide

/-- Words written from the tables of R32 to R57 and of the entries. -/
theorem test_words_integer_other_2 :
    decodeCode (.compute 0x000000705C1920000000101F#96) = some (.bfx kp .i32 (.v 6) (.s 8) 31 64) ∧
    decodeCode (.compute 0x0000007060182028005000E8#96) = some (.bfi kp .b64 (.v 6) (.v 8) (.v 10) 40 3) ∧
    decodeCode (.compute 0x00000070641823FE4C400000#96) = some (.sel kp .b32 (.v 6) (.v 8) .zr (.p 3)) ∧
    decodeCode (.compute 0x000000706E54091000400000#96) = some (.cmp kp .eq .b32 (.p 5) (.v 2) (.s 4)) ∧
    decodeCode (.compute 0x000000706E54091001500000#96) = some (.cmp kp .ne .b64 (.p 5) (.v 2) (.s 4)) ∧
    decodeCode (.compute 0x000000706E54091002000000#96) = some (.cmp kp .lt .i32 (.p 5) (.v 2) (.s 4)) ∧
    decodeCode (.compute 0x000000706E54091003300000#96) = some (.cmp kp .ge .n64 (.p 5) (.v 2) (.s 4)) ∧
    decodeCode (.compute 0x00000070EE58083FFF1F0001#96) = some (.cmpI kp .ge .n32 (.p 6) (.v 2) 0x0FFFF0001#36) := by decide

/-- Words written from the tables of R32 to R57 and of the entries. -/
theorem test_words_integer_other_3 :
    decodeCode (.compute 0x00000071012803FB705BA987#96) = some (.movi kp .b64 (.s 10) 0xFEDCBA987#36) ∧
    decodeCode (.compute 0x000000710530000000080001#96) = some (.addpc kp (.s 12) 0x80001#20) := by decide

/-- Words written from the tables of R32 to R57 and of the entries. -/
theorem test_words_forms :
    decodeCode (.compute 0x00000071400C000002000000#96) = some (.idx kp (.v 3) 2) ∧
    decodeCode (.compute 0x00000071450C000000000003#96) = some (.rngget kp (.s 3) 3) ∧
    decodeCode (.compute 0x00000071490C240000000001#96) = some (.formget kp (.s 3) (.v 9) 1) ∧
    decodeCode (.compute 0x000000714C00000000000000#96) = some (.expand kp) ∧
    decodeCode (.compute 0x000000715000000000000000#96) = some (.rerange kp) ∧
    decodeCode (.compute 0x000000715400240000400000#96) = some (.dead kp (.v 9) 4) := by decide

/-- Words written from the tables of R32 to R57 and of the entries. -/
theorem test_words_control :
    decodeCode (.compute 0x0000007200000000000FFFFE#96) = some (.bra kp 0xFFFFE#20) ∧
    decodeCode (.compute 0x0000007204001D1000000021#96) = some (.brx kp (.v 7) (.s 4) 33) ∧
    decodeCode (.compute 0x000000720978000000012345#96) = some (.call kp (.s 30) 0x12345#20) ∧
    decodeCode (.compute 0x000000720C79200000000000#96) = some (.callx kp (.v 30) (.s 8)) ∧
    decodeCode (.compute 0x000000721001780000000000#96) = some (.ret kp (.s 30)) ∧
    decodeCode (.compute 0x000000721400000000000000#96) = some (.exit kp) ∧
    decodeCode (.compute 0x000000721800000000000000#96) = some (.nop kp) := by decide

/-- Words written from the tables of R32 to R57 and of the entries. -/
theorem test_words_predicates :
    decodeCode (.compute 0x0000007242464A4C01000000#96) = some (.pand kp (.p 1) (.p 2) (.p 3) true false) ∧
    decodeCode (.compute 0x0000007246464A4C02000000#96) = some (.por kp (.p 1) (.p 2) (.p 3) false true) ∧
    decodeCode (.compute 0x000000724A464A4C03000000#96) = some (.pxor kp (.p 1) (.p 2) (.p 3) true true) ∧
    decodeCode (.compute 0x000000724E46480000000000#96) = some (.pnot kp (.p 1) (.p 2)) ∧
    decodeCode (.compute 0x000000725245080000000000#96) = some (.pmov kp (.p 1) (.s 2)) := by decide

/-- Words written from the tables of R32 to R57 and of the entries. -/
theorem test_words_collectives :
    decodeCode (.compute 0x000000728010180403500000#96) = some (.shfl kp .b64 (.v 4) (.v 6) (.v 1) 3) ∧
    decodeCode (.compute 0x000000728512480000500000#96) = some (.vote kp .ballot64 (.s 4) (.p 2)) ∧
    decodeCode (.compute 0x000000728652480002000000#96) = some (.vote kp .all (.p 4) (.p 2)) ∧
    decodeCode (.compute 0x000000728A50000000000000#96) = some (.elect kp (.p 4)) ∧
    decodeCode (.compute 0x000000728D10180000100002#96) = some (.gred kp .max .n32 (.s 4) (.v 6)) ∧
    decodeCode (.compute 0x000000729010180001400005#96) = some (.gscan kp .xor .b32 true (.v 4) (.v 6)) := by decide

/-- Words written from the tables of R32 to R57 and of the entries. -/
theorem test_words_floats_1 :
    decodeCode (.compute 0x000000730004080C00700009#96) = some (.fadd kp .f32 .rz true (.v 1) (.v 2) (.v 3)) ∧
    decodeCode (.compute 0x000000730404080C00800004#96) = some (.fsub kp .f16 .sr false (.v 1) (.v 2) (.v 3)) ∧
    decodeCode (.compute 0x000000730804080C00900002#96) = some (.fmul kp .bf16 .ru false (.v 1) (.v 2) (.v 3)) ∧
    decodeCode (.compute 0x000000730C04080FF070000B#96) = some (.ffma kp .f32 .rd true (.v 1) (.v 2) (.v 3) (.hl 0)) ∧
    decodeCode (.compute 0x000000731004080C00700000#96) = some (.fmin kp .f32 (.v 1) (.v 2) (.v 3)) ∧
    decodeCode (.compute 0x000000731404080C00900000#96) = some (.fmax kp .bf16 (.v 1) (.v 2) (.v 3)) ∧
    decodeCode (.compute 0x000000731A44080C00B00003#96) = some (.fcmp kp .un .e5m2 (.p 1) (.v 2) (.v 3)) ∧
    decodeCode (.compute 0x00000073C004080C00800008#96) = some (.hadd2 kp .f16 .rne true (.v 1) (.v 2) (.v 3)) := by decide

/-- Words written from the tables of R32 to R57 and of the entries. -/
theorem test_words_floats_2 :
    decodeCode (.compute 0x00000073C404080C00900001#96) = some (.hmul2 kp .bf16 .rz false (.v 1) (.v 2) (.v 3)) ∧
    decodeCode (.compute 0x00000073C804080C10800000#96) = some (.hfma2 kp .f16 .rne false (.v 1) (.v 2) (.v 3) (.v 4)) ∧
    decodeCode (.compute 0x000000731C14100000700000#96) = some (.frcp kp (.v 5) (.v 4)) ∧
    decodeCode (.compute 0x000000732014100000700000#96) = some (.frsq kp (.v 5) (.v 4)) ∧
    decodeCode (.compute 0x000000732414100000700000#96) = some (.fsqrt kp (.v 5) (.v 4)) ∧
    decodeCode (.compute 0x000000732814100000700000#96) = some (.fexp2 kp (.v 5) (.v 4)) ∧
    decodeCode (.compute 0x000000732C14100000700000#96) = some (.flog2 kp (.v 5) (.v 4)) ∧
    decodeCode (.compute 0x000000733014100000700000#96) = some (.fsin kp (.v 5) (.v 4)) := by decide

/-- Words written from the tables of R32 to R57 and of the entries. -/
theorem test_words_floats_3 :
    decodeCode (.compute 0x000000733414100000700000#96) = some (.fcos kp (.v 5) (.v 4)) := by decide

/-- Words written from the tables of R32 to R57 and of the entries. -/
theorem test_words_conversions :
    decodeCode (.compute 0x000000738004080000A00088#96) = some (.fcvt kp .e4m3 .f16 .rne true (.v 1) (.v 2)) ∧
    decodeCode (.compute 0x000000738420080000200093#96) = some (.f2i kp .i64 .bf16 .rd (.v 8) (.v 2)) ∧
    decodeCode (.compute 0x000000738820080000700034#96) = some (.i2f kp .f32 .n64 .sr false (.v 8) (.v 2)) ∧
    decodeCode (.compute 0x000000738C20080000800002#96) = some (.frnd kp .f16 .ru (.v 8) (.v 2)) ∧
    decodeCode (.compute 0x000000739020080000D00000#96) = some (.fclass kp .e2m3 (.v 8) (.v 2)) ∧
    decodeCode (.compute 0x000000740020080000C00000#96) = some (.plsplit kp .e3m2 (.v 8) (.v 2)) ∧
    decodeCode (.compute 0x000000740420080C00D00000#96) = some (.pljoin kp .e2m3 (.v 8) (.v 2) (.v 3)) := by decide

/-- Words written from the tables of R32 to R57 and of the entries. -/
theorem test_words_memory_1 :
    decodeCode (.compute 0x00000075002108000050E804#96) = some (.ld kp .b64 (.v 8) (.s 2) ⟨0x804#12, 3#3, true⟩) ∧
    decodeCode (.compute 0x00000075040108200061C7FF#96) = some (.st kp .i8 (.s 2) (.v 8) ⟨0x7FF#12, 7#3, false⟩) ∧
    decodeCode (.compute 0x000000750820080000400010#96) = some (.ldp kp (.v 8) (.v 2) ⟨0x010#12, 0#3, false⟩) ∧
    decodeCode (.compute 0x000000750C00082000406010#96) = some (.stp kp (.v 2) (.v 8) ⟨0x010#12, 1#3, true⟩) ∧
    decodeCode (.compute 0x000000751010081802340FFC#96) = some (.atoms kp .max .n64 (.v 4) (.v 2) (.v 6) (.v 0) 2 0xFFC#12) ∧
    decodeCode (.compute 0x000000751010081803400000#96) = some (.atoms kp .exch .b32 (.v 4) (.v 2) (.v 6) (.v 0) 0 0#12) ∧
    decodeCode (.compute 0x0000007548100818271B2008#96) = some (.gatom kp .cas .n32 (.v 4) (.v 2) (.v 6) (.v 9) 5 ⟨0x008#12, 4#3, true⟩) ∧
    decodeCode (.compute 0x000000754BFC081802784000#96) = some (.gatom kp .fmax .f32 .zr (.v 2) (.v 6) (.v 0) 4 ⟨0#12, 1#3, false⟩) := by decide

/-- Words written from the tables of R32 to R57 and of the entries. -/
theorem test_words_memory_2 :
    decodeCode (.compute 0x000000754D1108000078800C#96) = some (.amaxrd kp .f32 (.s 4) (.s 2) 4 ⟨0x00C#12, 2#3, false⟩) ∧
    decodeCode (.compute 0x000000754011081C7C814020#96) = some (.gather kp .f16 (.v 4) (.s 2) (.v 7) 31 ⟨0x020#12, 5#3, false⟩) ∧
    decodeCode (.compute 0x000000754411081C08416020#96) = some (.scatter kp .b32 (.v 4) (.s 2) (.v 7) 2 ⟨0x020#12, 5#3, true⟩) := by decide

/-- Words written from the tables of R32 to R57 and of the entries. -/
theorem test_words_engines :
    decodeCode (.compute 0x00000075800109111BF02040#96) = some (.copy kp (.s 2) (.s 4) (.s 6) 63 true 0x040#12) ∧
    decodeCode (.compute 0x000000758400091118100FC0#96) = some (.copyw kp (.v 2) (.s 4) (.s 6) 1 false 0xFC0#12) ∧
    decodeCode (.compute 0x000000758801091274900000#96) = some (.rload kp (.s 2) (.s 4) (.shp 5) 9 false 0#12) ∧
    decodeCode (.compute 0x000000758C081000004035A3#96) = some (.remld kp .b32 (.v 2) (.v 4) 0x5A3#11 6) ∧
    decodeCode (.compute 0x00000075C00A3C0001000000#96) = some (.qpeek kp (.v 2) (.dq 15) true) ∧
    decodeCode (.compute 0x00000075C50A0C0000000000#96) = some (.qstat kp (.s 2) (.dq 3)) ∧
    decodeCode (.compute 0x00000075CBFE0C0002000000#96) = some (.qbind kp (.dq 3) 2) := by decide

/-- Words written from the tables of R32 to R57 and of the entries. -/
theorem test_words_synchronisation_1 :
    decodeCode (.compute 0x00000077000000000000001D#96) = some (.bar kp 5 3) ∧
    decodeCode (.compute 0x00000077052400000000000D#96) = some (.bararr kp (.s 9) 5 1) ∧
    decodeCode (.compute 0x000000770801240000000007#96) = some (.barwait kp (.s 9) 7) ∧
    decodeCode (.compute 0x0000007720000000010A0000#96) = some (.fence kp 1 5) ∧
    decodeCode (.compute 0x000000772400000000060000#96) = some (.aliasfence kp 3) ∧
    decodeCode (.compute 0x000000772800000000040000#96) = some (.qfence kp 2) ∧
    decodeCode (.compute 0x00000077400000000000003E#96) = some (.twait kp 62) ∧
    decodeCode (.compute 0x00000077450D200000000000#96) = some (.tfirst kp (.s 3) (.s 8)) := by decide

/-- Words written from the tables of R32 to R57 and of the entries. -/
theorem test_words_synchronisation_2 :
    decodeCode (.compute 0x000000774801F12000000000#96) = some (.bcwait kp (.bc 4) (.s 8)) ∧
    decodeCode (.compute 0x000000774C00000000000000#96) = some (.yield kp) := by decide

/-- Words written from the tables of R32 to R57 and of the entries. -/
theorem test_words_tasks :
    decodeCode (.compute 0x000000778159500000000000#96) = some (.task kp (.s 22) (.s 20)) ∧
    decodeCode (.compute 0x000000778559500000000000#96) = some (.taskwait kp (.s 22) (.s 20) false) ∧
    decodeCode (.compute 0x00000077855BFC0000100000#96) = some (.taskwait kp (.s 22) .zr true) ∧
    decodeCode (.compute 0x00000077895800000000000E#96) = some (.tinfo kp (.s 22) 14) ∧
    decodeCode (.compute 0x00000077C158000000000000#96) = some (.stepwait kp (.s 22)) := by decide

/-- Words written from the tables of R32 to R57 and of the entries. -/
theorem test_words_matrix_1 :
    decodeCode (.compute 0x00000078028D091A66EE0F80#96) = some (.mma kp .kq4 2 (.acc 3) (.s 2) (.s 6) (.shp 1) 3 true false 0xF80#12) ∧
    decodeCode (.compute 0x00000078028E911800910000#96) = some (.mma kp .bf16 0 (.acc 3) (.acc 4) (.s 6) (.v 0) 0 false true 0#12) ∧
    decodeCode (.compute 0x00000078068D091800620010#96) = some (.mmasp kp .i8 (.acc 3) (.s 2) (.s 6) (.v 0) 0 true 0x010#12) ∧
    decodeCode (.compute 0x000000782286880C01000000#96) = some (.scacc kp true (.acc 1) (.acc 2) (.v 3)) ∧
    decodeCode (.compute 0x0000007826840C0001000000#96) = some (.bscale kp true (.acc 1) (.v 3)) ∧
    decodeCode (.compute 0x0000007842BC000000000000#96) = some (.accz kp (.acc 15)) ∧
    decodeCode (.compute 0x000000784685080114800040#96) = some (.accld kp .f16 (.acc 1) (.s 2) (.s 5) 0x040#12) ∧
    decodeCode (.compute 0x0000007848010A8514700040#96) = some (.accst kp .f32 (.s 2) (.acc 1) (.s 5) 0x040#12) := by decide

/-- Words written from the tables of R32 to R57 and of the entries. -/
theorem test_words_matrix_2 :
    decodeCode (.compute 0x000000784E86880001000000#96) = some (.accmov kp true (.acc 1) (.acc 2)) ∧
    decodeCode (.compute 0x000000785006880C00000000#96) = some (.accpeek kp (.v 1) (.acc 2) (.v 3)) ∧
    decodeCode (.compute 0x000000785684080C02000000#96) = some (.accpatch kp 2 (.acc 1) (.v 2) (.v 3)) ∧
    decodeCode (.compute 0x000000785A86890C00000009#96) = some (.accnorm kp 1 2 (.acc 1) (.acc 2) (.s 3)) ∧
    decodeCode (.compute 0x000000788106DC0001000000#96) = some (.mcoef kp true (.s 1) (.c 7)) ∧
    decodeCode (.compute 0x0000007886868A8C0000001E#96) = some (.mpoly kp 2 7 (.acc 1) (.acc 2) (.acc 3)) ∧
    decodeCode (.compute 0x000000788A4A868A8C0003FD#96) = some (.miter kp 1 255 (.p 2) (.acc 1) (.acc 2) (.acc 3)) ∧
    decodeCode (.compute 0x000000788D10000000000000#96) = some (.mloopget kp (.s 4)) := by decide

/-- Words written from the tables of R32 to R57 and of the entries. -/
theorem test_words_matrix_3 :
    decodeCode (.compute 0x000000789001100000000000#96) = some (.mloopset kp (.s 4)) := by decide

/-- Words written from the tables of R32 to R57 and of the entries. -/
theorem test_words_ragged :
    decodeCode (.compute 0x00000078C265100000000000#96) = some (.shpset kp (.shp 1) (.s 4)) ∧
    decodeCode (.compute 0x00000078C401126400000000#96) = some (.shpget kp (.s 4) (.shp 1)) ∧
    decodeCode (.compute 0x00000078C800000000000000#96) = some (.shpfence kp) ∧
    decodeCode (.compute 0x00000078E2868A6D1000000B#96) = some (.rred kp 3 true (.acc 1) (.acc 2) (.shp 3) (.s 4)) ∧
    decodeCode (.compute 0x00000078E4010A6D10001400#96) = some (.rnorm kp 2 1024 (.s 2) (.shp 3) (.s 4)) ∧
    decodeCode (.compute 0x000000790004090C00B0000C#96) = some (.qenc kp .e5m2 .sr true (.v 1) (.v 2) (.s 3)) ∧
    decodeCode (.compute 0x000000790404090C00E00000#96) = some (.qdec kp .kq4 (.v 1) (.v 2) (.s 3)) ∧
    decodeCode (.compute 0x000000790804080000700003#96) = some (.kqsc kp (.v 1) (.v 2) 3) := by decide

/-- Words written from the tables of R32 to R57 and of the entries. -/
theorem test_words_system_1 :
    decodeCode (.compute 0x0000007A000000000008ABCD#96) = some (.trap kp 0xABCD true) ∧
    decodeCode (.compute 0x0000007A040000000000ABCD#96) = some (.bkpt kp 0xABCD) ∧
    decodeCode (.compute 0x0000007A0904000003000000#96) = some (.tret kp (.s 1) 3) ∧
    decodeCode (.compute 0x0000007A2001100000000006#96) = some (.wpset kp 6 (.s 4)) ∧
    decodeCode (.compute 0x0000007A2400000000000006#96) = some (.wpclr kp 6) ∧
    decodeCode (.compute 0x0000007A4110000000000023#96) = some (.sysrd kp (.s 4) 0x023#12) ∧
    decodeCode (.compute 0x0000007A4401100000000012#96) = some (.syswr kp (.s 4) 0x012#12) ∧
    decodeCode (.compute 0x0000007A6105080000000000#96) = some (.traprd kp (.s 1) (.s 2)) := by decide

/-- Words written from the tables of R32 to R57 and of the entries. -/
theorem test_words_system_2 :
    decodeCode (.compute 0x0000007A6401050800000000#96) = some (.trapwr kp (.s 1) (.s 2)) := by decide

/-- Words written from the tables of R32 to R57 and of the entries. -/
theorem test_words_hints :
    decodeCode (.compute 0x0000007F03FD100000060000#96) = some (.pref kp ⟨0xFF, 0x44, 0, 0, 0, 0x60000⟩) ∧
    decodeCode (.compute 0x0000007F21041C04080F0000#96) = some (.phase kp ⟨0x41, 7, 1, 2, 0, 0xF0000⟩) ∧
    decodeCode (.compute 0x0000007F27FC000000000000#96) = some (.phend kp ⟨0xFF, 0, 0, 0, 0, 0⟩) := by decide


/-! The words of a Pail (R222, R223) -/

/-- The five pq. instructions, and pq. words with a stray bit. -/
theorem test_words_pq :
    decodePail 0x0015000B#32 = some (.pqPush 1 10) ∧
    decodePail 0x0020158B#32 = some (.pqPop 2 11) ∧
    decodePail 0x0005200B#32 = some (.pqRowin 0 10) ∧
    decodePail 0x0035B00B#32 = some (.pqRowout 3 11) ∧
    decodePail 0x00F0450B#32 = some (.pqStat 15 10) ∧
    decodePail 0x0200000B#32 = none ∧
    decodePail 0x0000500B#32 = none ∧
    decodePail 0x0015008B#32 = none ∧
    decodePail 0x0100000B#32 = none := by decide

/-- RV32IM and Zicsr words. -/
theorem test_words_rv32 :
    decodePail 0x12345537#32 = some (.pailInstruction (.lui 10 0x12345) false) ∧
    decodePail 0x00001517#32 = some (.pailInstruction (.auipc 10 1) false) ∧
    decodePail 0x008000EF#32 = some (.pailInstruction (.jal 1 8) false) ∧
    decodePail 0xFFDFF06F#32 = some (.pailInstruction (.jal 0 0xFFFFFFFC) false) ∧
    decodePail 0x00008067#32 = some (.pailInstruction (.jalr 0 1 0) false) ∧
    decodePail 0x00B50463#32 = some (.pailInstruction (.branch .eq 10 11 8) false) ∧
    decodePail 0xFE051CE3#32 = some (.pailInstruction (.branch .ne 10 0 0xFFFFFFF8) false) ∧
    decodePail 0x00452583#32 = some (.pailInstruction (.load .w 11 10 4) false) ∧
    decodePail 0xFFF54583#32 = some (.pailInstruction (.load .bu 11 10 0xFFF) false) ∧
    decodePail 0x00B52423#32 = some (.pailInstruction (.store .w 10 11 8) false) := by decide

/-- RV32IM and Zicsr words. -/
theorem test_words_rv32_2 :
    decodePail 0xFF010113#32 = some (.pailInstruction (.opImm .add 2 2 0xFFFFFFF0) false) ∧
    decodePail 0x01F51513#32 = some (.pailInstruction (.opImm .sll 10 10 31) false) ∧
    decodePail 0x40455513#32 = some (.pailInstruction (.opImm .sra 10 10 4) false) ∧
    decodePail 0x00B50533#32 = some (.pailInstruction (.op .add 10 10 11) false) ∧
    decodePail 0x40B50533#32 = some (.pailInstruction (.op .sub 10 10 11) false) ∧
    decodePail 0x02B50533#32 = some (.pailInstruction (.op .mul 10 10 11) false) ∧
    decodePail 0x02B57533#32 = some (.pailInstruction (.op .remu 10 10 11) false) ∧
    decodePail 0x0FF0000F#32 = some (.pailInstruction (.fence) false) ∧
    decodePail 0x80051073#32 = some (.pailInstruction (.csr .rw false 0 10 0x800) false) ∧
    decodePail 0x8011E573#32 = some (.pailInstruction (.csr .rs true 10 3 0x801) false) ∧
    decodePail 0x00000073#32 = some (.pailStop .ecall) ∧
    decodePail 0x00100073#32 = some (.pailStop .ebreak) ∧
    decodePail 0xFFFFFFFF#32 = none := by decide

/-- Compressed words. -/
theorem test_words_rvc :
    decodeC 0x0505#16 = some (.pailInstruction (.opImm .add 10 10 1) true) ∧
    decodeC 0x557D#16 = some (.pailInstruction (.opImm .add 10 0 0xFFFFFFFF) true) ∧
    decodeC 0x8082#16 = some (.pailInstruction (.jalr 0 1 0) true) ∧
    decodeC 0x4502#16 = some (.pailInstruction (.load .w 10 2 0) true) ∧
    decodeC 0xC606#16 = some (.pailInstruction (.store .w 2 1 12) true) ∧
    decodeC 0x852E#16 = some (.pailInstruction (.op .add 10 0 11) true) ∧
    decodeC 0x952E#16 = some (.pailInstruction (.op .add 10 10 11) true) ∧
    decodeC 0x4188#16 = some (.pailInstruction (.load .w 10 11 0) true) ∧
    decodeC 0x7179#16 = some (.pailInstruction (.opImm .add 2 2 0xFFFFFFD0) true) ∧
    decodeC 0xA001#16 = some (.pailInstruction (.jal 0 0) true) ∧
    decodeC 0xC501#16 = some (.pailInstruction (.branch .eq 10 0 8) true) ∧
    decodeC 0x0808#16 = some (.pailInstruction (.opImm .add 10 2 16) true) ∧
    decodeC 0x8D0D#16 = some (.pailInstruction (.op .sub 10 10 11) true) ∧
    decodeC 0x8905#16 = some (.pailInstruction (.opImm .and 10 10 1) true) ∧
    decodeC 0x8105#16 = some (.pailInstruction (.opImm .srl 10 10 1) true) ∧
    decodeC 0x9002#16 = some (.pailStop .ebreak) ∧
    decodeC 0x0000#16 = none := by decide

/-! Words that a check refuses -/

/-- Check 4 of R54: a reserved field that is not zero, and a control field out of its range. -/
theorem test_words_reserved :
    decode 0x000001721800000000000000#96 = .error .reserved ∧
    decode 0x0000D0721800000000000000#96 = .error .reserved ∧
    decode 0x000000F21800000000000000#96 = .error .reserved ∧
    decode 0x000000721800000000000001#96 = .error .reserved ∧
    decode 0x000000700400081004000000#96 = .error .reserved ∧
    decode 0x000000700400081001000000#96 = .error .reserved ∧
    decode 0x000000706800081000400000#96 = .error .reserved ∧
    decode 0x000000720004000000000000#96 = .error .reserved := by decide

/-- Check 5 of R54 follows check 4. -/
theorem test_words_type :
    decode 0x000000700400081000400000#96 = .error .type ∧
    decode 0x000000700400081000F00000#96 = .error .type ∧
    decode 0x000000730000081000A00000#96 = .error .type ∧
    decode 0x000000702000080000100000#96 = .error .type ∧
    decode 0x000000754810081800600000#96 = .error .type ∧
    decode 0x000000754810081803000000#96 = .error .reserved ∧
    decode 0x000000700400081004400000#96 = .error .reserved := by decide

/-- An opcode that names nothing, with any other bits (R56, R58). -/
theorem test_words_unassigned :
    decode 0x000001000000000000000000#96 = .ok (.unassignedOpcode 0x000001000000000000000000#96) ∧
    decode 0x000001007000000000000000#96 = .ok (.unassignedOpcode 0x000001007000000000000000#96) ∧
    decode 0x0000010EFC00000000000000#96 = .ok (.unassignedOpcode 0x0000010EFC00000000000000#96) ∧
    decode 0x0000010F0400000000000000#96 = .ok (.unassignedOpcode 0x0000010F0400000000000000#96) ∧
    decode 0x0000010FFC00000000000000#96 = .ok (.unassignedOpcode 0x0000010FFC00000000000000#96) := by decide

/-! Small states -/

/-- A group of 32 at the entry 0x10000. Its registers: s2:s3 and v2:v3 name scratchpad bytes, s4:s5 global ones, s6 is 64, s8
and s10 are 1, s16:s17 name scratchpad and s24:s25 Creamery bytes; v0 is 5, v1 is 3 + 2k, v4 is binary32 1.0 and every v
register from v6 on is 1. -/
def group : Group :=
  { Group.start 0 0 0 0 0 32 0x10000#64
      [(2, 0x1000#32), (3, 0x00FF0000#32), (4, 0x20000#32), (6, 64#32), (8, 1#32), (10, 1#32), (16, 0x2000#32), (17, 0x00FF0000#32),
        (24, 0x1000#32), (25, 0x00FE0000#32)] 1#32 with
    recs := [⟨false, 0, 1, 32, 0x10000#64, none, false, [(0, ⟨.u, 5#32, 0#32⟩), (1, ⟨.a, 3#32, 2#32⟩), (2, ⟨.a, 0x100#32, 16#32⟩),
      (3, ⟨.u, 0x00FF0000#32, 0#32⟩), (4, ⟨.u, 0x3F800000#32, 0#32⟩)] ++ (upto 6 40).map fun n => (n, ⟨.u, 1#32, 0#32⟩)⟩] }

/-- One context, task and team, whose one group issues. -/
def ready : State :=
  { State.reset with
    booted := true, winState := 1#64, nextFrame := 2, contexts := [Context.fresh 0 4096 [0, 1, 2, 3] false 65536],
    tasks := [probeTask 0 (probeKernel 0x10000#64)], teams := [probeTeam 0 0 0 [0] []], groups := [group],
    issuer := some (.group 0) }

/-- The same with its group changed. -/
def readyG (f : Group → Group) : State := ready.modGroup 0 f

/-- The same with two positions. -/
def readyAt2 : State := readyG fun g => { g with recs := g.recs.map fun r => { r with n := 2 } }

/-! States that meet the hypotheses of the statements on values (O1 to O10) -/

/-- The condition on s destinations where no result is in flight: every pass finds the group as it stands. -/
abbrev sOkNow (F : ValueForm) (i : Iss) : Prop :=
  (∀ n, F.d ≠ .s n) ∨ i.g.wb = [] ∧ ∀ r ∈ i.run, i.onIn r ≠ [] → ∃ x ∈ i.recNow r, F.uni i (fun _ => i) r x = true

theorem sOkNow_ok {F : ValueForm} {i : Iss} (h : sOkNow F i) : F.sOk i := by
  refine h.imp id fun h sel _ r hr ho => ?_
  obtain ⟨x, hx, hu⟩ := h.2 r hr ho
  have ht : F.times i (i.g.expand sel) = fun _ => i := by
    funext p; simp [ValueForm.times, Iss.timed, h.1]
  exact ⟨x, by rw [ht]; exact hx, by rw [ht]; exact hu⟩

theorem meets {form : Instr → Option ValueForm} {xs : List Instr} {s : State} {P : ValueForm → Iss → Prop}
    (h : ∀ x ∈ xs, ∃ F ∈ form x, ∃ i ∈ s.iss F.k, P F i ∧ sOkNow F i) :
    ∀ x ∈ xs, ∃ F ∈ form x, ∃ i ∈ s.iss F.k, P F i ∧ F.sOk i := by
  intro x hx
  obtain ⟨F, hF, i, hi, hP, hs⟩ := h x hx
  exact ⟨F, hF, i, hi, hP, sOkNow_ok hs⟩

def intSamples : List Instr :=
  [.add kp .i32 (.v 20) (.v 0) (.v 1), .addI kp .i64 (.s 20) (.s 2) 7, .sub kp .n32 (.v 20) (.v 1) .zr, .subI kp .i32 (.v 20) (.v 1) 9,
    .mul kp .n64 (.v 20) (.v 2) (.v 6), .mulI kp .i32 (.v 20) (.v 1) 3, .mulhi kp .i32 (.v 20) (.v 1) (.v 0), .mulhiI kp .n32 (.v 20) (.v 0) 9,
    .div kp .i32 (.v 20) (.v 0) .zr, .divI kp .n32 (.v 20) (.v 1) 0, .rem kp .i32 (.v 20) (.v 0) .zr, .remI kp .n32 (.v 20) (.v 1) 3,
    .min kp .i32 (.v 20) (.v 0) (.v 1), .minI kp .n32 (.s 20) (.s 2) 3, .max kp .i32 (.v 20) (.v 0) (.v 1), .maxI kp .n32 (.s 20) (.s 2) 3] ++
  [.shl kp .b32 (.v 20) (.v 0) (.v 6), .shlI kp .b64 (.v 20) (.v 6) 63, .shr kp .b32 (.v 20) (.v 1) (.v 0), .shrI kp .b32 (.v 20) (.v 0) 31,
    .sar kp .i32 (.v 20) (.v 0) (.v 0), .sarI kp .i64 (.v 20) (.v 6) 63, .andb kp .b32 (.v 20) (.v 1) (.v 0), .andbI kp .b32 (.v 20) (.v 0) 1,
    .orb kp .b32 (.v 20) (.v 1) (.v 0), .orbI kp .b32 (.v 20) (.v 0) 1, .xorb kp .b32 (.v 20) (.v 1) (.v 0), .xorbI kp .b64 (.v 20) (.v 6) 1,
    .andn kp .b32 (.v 20) (.v 1) (.v 0), .andnI kp .b32 (.v 20) (.v 0) 1, .bfi kp .b32 (.v 20) (.v 0) (.v 6) 31 64]

def otherSamples : List Instr :=
  [.neg kp .i32 (.v 20) (.v 1), .abs kp .i64 (.v 20) (.v 6), .notb kp .b32 (.v 20) (.v 1), .brev kp .b32 (.v 20) (.v 0),
    .mov kp .b32 (.v 20) (.v 1), .clz kp .b32 (.v 20) (.v 1), .popc kp .b64 (.v 20) (.v 6), .mad kp .i32 (.v 20) (.v 0) (.v 1) (.v 0),
    .bfx kp .i32 (.v 20) (.v 0) 0 64, .movi kp .b64 (.s 20) 0xFFFFFFFFF, .sel kp .b32 (.v 20) (.v 0) (.v 1) (.p 7), .addpc kp (.s 20) 1]

def formSamples : List Instr :=
  [.idx kp (.v 20) 0, .rngget kp (.s 20) 3, .formget kp (.s 20) (.v 1) 1, .tinfo kp (.s 20) 14, .qstat kp (.s 20) (.dq 3), .pmov kp (.v 20) (.p 7)]

def collectiveSamples : List Instr :=
  [.shfl kp .b32 (.v 20) (.v 1) (.v 0) 1, .vote kp .ballot32 (.s 20) (.p 7), .vote kp .ballot64 (.s 20) (.p 7), .gred kp .add .i32 (.s 20) (.v 1),
    .gscan kp .max .n32 true (.v 20) (.v 1)]

def floatSamples : List Instr :=
  [.fadd kp .f32 .rne false (.v 20) (.v 4) (.v 4), .fsub kp .f16 .rz true (.v 20) (.v 4) (.v 4), .fmul kp .bf16 .sr false (.v 20) (.v 1) (.v 4),
    .ffma kp .f32 .rd false (.v 20) (.v 4) (.v 4) .zr, .hadd2 kp .f16 .rne false (.v 20) (.v 4) (.v 4),
    .hmul2 kp .bf16 .ru false (.v 20) (.v 4) (.v 4), .hfma2 kp .f16 .sr false (.v 20) (.v 4) (.v 4) (.v 4)]

def conversionSamples : List Instr :=
  [.fmin kp .f32 (.v 20) (.v 4) (.v 0), .fmax kp .bf16 (.s 20) (.v 4) .zr, .fcvt kp .e4m3 .f32 .rne true (.v 20) (.v 4), .f2i kp .i64 .f32 .rz (.v 20) (.v 4),
    .i2f kp .f32 .i32 .rne false (.v 20) (.v 1), .frnd kp .f32 .sr (.v 20) (.v 4), .fclass kp .f32 (.v 20) (.v 4), .plsplit kp .e3m2 (.v 20) (.v 6),
    .pljoin kp .e2m3 (.v 20) (.v 6) (.v 7)]

def transcSamples : List Instr :=
  [.frcp kp (.v 20) (.v 4), .frsq kp (.v 20) (.v 4), .fsqrt kp (.v 20) (.v 4), .fexp2 kp (.v 20) (.v 4), .flog2 kp (.v 20) (.v 4), .fsin kp (.v 20) (.v 4),
    .fcos kp (.s 20) (.s 8)]

/-- O1, O9, O10 on instructions of two integer sources. -/
theorem test_meets_integer_two : ∀ x ∈ intSamples, ∃ F ∈ intTwo x, ∃ i ∈ ready.iss F.k, (i.g.sound = true ∧ i.g0.step = none ∧
    i.check F.ns = .ok ()) ∧ F.sOk i := meets (by decide)

/-- O1 on the other integer instructions. -/
theorem test_meets_integer_other : ∀ x ∈ otherSamples, ∃ F ∈ intOther x, ∃ i ∈ ready.iss F.k,
    i.check F.ns = .ok () ∧ F.sOk i := meets (by decide)

/-- O2. -/
theorem test_meets_forms : ∀ x ∈ formSamples, ∃ F ∈ formValue x, ∃ i ∈ ready.iss F.k,
    i.check F.ns = .ok () ∧ F.sOk i := meets (by decide)

/-- O3. -/
theorem test_meets_collectives : ∀ x ∈ collectiveSamples, ∃ F ∈ collective x, ∃ i ∈ ready.iss F.k,
    i.check F.ns = .ok () ∧ F.sOk i := meets (by decide)

/-- O4. -/
theorem test_meets_float_arithmetic : ∀ x ∈ floatSamples, ∃ F ∈ floatArith x, ∃ i ∈ ready.iss F.k,
    i.check F.ns = .ok () ∧ F.sOk i := meets (by decide)

/-- O5. -/
theorem test_meets_float_conversion : ∀ x ∈ conversionSamples, ∃ F ∈ floatOther x, ∃ i ∈ ready.iss F.k,
    i.check F.ns = .ok () ∧ F.sOk i := meets (by decide)

/-- O6, its values for a NaN, a negative word and the first large argument of fsin and fcos among them. -/
theorem test_meets_transcendentals : (∀ x ∈ transcSamples, ∃ F ∈ transc x, ∃ i ∈ ready.iss F.k,
    i.check F.ns = .ok () ∧ F.sOk i) ∧
    (0x7F800000#32 < (0xFF800001#32 &&& 0x7FFFFFFF#32)) ∧
    ((0x80000001#32).msb = true ∧ (0x80000001#32 &&& 0x7FFFFFFF#32) ≠ 0#32 ∧ (0xFF800000#32 &&& 0x7FFFFFFF#32) ≤ 0x7F800000#32) ∧
    0x49800000#32 < (0xC9800001#32 &&& 0x7FFFFFFF#32) ∧ (0xC9800001#32 &&& 0x7FFFFFFF#32) < 0x7F800000#32 :=
  ⟨meets (by decide), by decide⟩

def predSamples : List Instr :=
  [.cmp kp .lt .i32 (.p 1) (.v 1) (.v 0), .cmpI kp .ne .n32 (.p 1) (.v 1) 3, .fcmp kp .un .f32 (.p 1) (.v 4) (.v 4), .pand kp (.p 1) (.p 7) (.p 2) true false,
    .por kp (.p 1) (.p 2) (.p 3) false true, .pxor kp (.p 7) (.p 2) (.p 3) false false, .pnot kp (.p 1) (.p 2), .pmov kp (.p 1) (.p 2), .pmov kp (.p 1) (.v 0),
    .vote kp .any (.p 1) (.p 2), .vote kp .all (.p 1) (.p 2), .elect kp (.p 1)]

/-- O7. -/
theorem test_meets_predicates : ∀ x ∈ predSamples, ∃ F ∈ predForm x, ∃ i ∈ ready.iss F.k, i.check F.ns = .ok () ∧ i.onByAge ≠ [] := by decide

/-- A group of two positions whose s2:s3 names its entry. -/
def readyAt : State := readyG fun g => { g with s := [(2, 0x10000#32), (4, 1#32)], recs := g.recs.map fun r => { r with n := 2 } }

/-- O8. -/
theorem test_meets_transfers : ∀ x ∈ [Instr.bra kp 1, .bra kp 2, .call kp (.s 20) 2, .callx kp (.v 20) (.s 2), .ret kp (.s 2)],
    ∃ F ∈ transferForm x, ∃ i ∈ readyAt.iss F.k, i.check F.ns = .ok () ∧
      (∀ p ∈ i.onByAge, targetInRange i.ctx.bounded (F.goal i p) = true ∧ ((F.goal i p).map fun a => readyAt.targetOk i.ci i.ctx a) = some true) ∧
      readyAt.atEnd i.ci i.ctx i.pc = false := by decide

/-- O8 for `brx`, and O15's index past the table of one entry. -/
theorem test_meets_brx : (∃ i ∈ readyAt.iss kp, i.check [src1 .zr, ⟨.s 4, [.s], 1, 0⟩] = .ok () ∧
      (4 + 1 ≤ 56 ∧ ∀ p ∈ i.onByAge, (i.g.word .zr p).toNat < 1) ∧ i.onByAge ≠ []) ∧
    ∃ i ∈ readyAt.iss kp, i.check [src1 (.v 1), ⟨.s 4, [.s], 1, 0⟩] = .ok () ∧
      (i.onByAge.find? fun q => decide ((5#6).toNat ≤ (i.g.word (.v 1) q).toNat)) = some 1 := by decide

/-- Two positions at a PC of the line at 0x10000, which the tables from 0x10000 map to the frame at 0x60000; byte 1 of its line
word is given. -/
def lineOn (lw : Byte) (pc : Addr) : State :=
  { readyG fun g => { g with s := [(2, 0x10000#32)], recs := g.recs.map fun r => { r with n := 2, pc := pc } } with
    mem := [(0x10000, 1#8), (0x10002, 2#8), (0x20000, 1#8), (0x20002, 3#8), (0x30000, 1#8), (0x30002, 4#8), (0x40000, 1#8), (0x40002, 5#8),
      (0x50008, 0x4F#8), (0x5000A, 6#8), (0x6003D, lw)],
    units := [(0x400, ⟨kernelKey, 0#64⟩), (0x800, ⟨kernelKey, 0#64⟩), (0xC00, ⟨kernelKey, 0#64⟩), (0x1000, ⟨kernelKey, 0#64⟩),
      (0x1400, ⟨kernelKey, 0#64⟩), (0x1800, ⟨ctxKey 0, 0#64⟩)] }

/-- O14 and O15: exit and call in slot 4 of an END line, with every position guarded and with none. -/
theorem test_meets_line_end :
    (∃ i ∈ (lineOn 1#8 0x10030#64).iss kp, (lineOn 1#8 0x10030#64).atEnd i.ci i.ctx i.pc = true ∧ (∀ p ∈ i.allByAge, p ∈ i.on) ∧ i.on ≠ [] ∧
      i.g0.step = none ∧ i.g.stat = .live ∧ (∀ r ∈ i.g.recs, i.inRun r = true) ∧ i.check [dstVS (.s 20) 2] = .ok () ∧
      i.allByAge.head? = some 0 ∧ targetInRange i.ctx.bounded (slotPc i.pc (slotNum i.pc + 1)) = true) ∧
    ∃ i ∈ (lineOn 1#8 0x10030#64).iss { kp with guard := 1 }, (lineOn 1#8 0x10030#64).atEnd i.ci i.ctx i.pc = true ∧
      (i.allByAge.find? fun q => !i.on.contains q) = some 0 := by decide

/-- O15: a target that is no slot, and one that is no TARGET. -/
theorem test_meets_transfer_traps :
    (∃ F ∈ transferForm (.ret kp (.s 8)), ∃ i ∈ ready.iss kp, i.check F.ns = .ok () ∧
      (i.onByAge.find? fun q => !targetInRange i.ctx.bounded (F.goal i q)) = some 0) ∧
    (∃ F ∈ transferForm (.ret kp (.s 2)), ∃ i ∈ (lineOn 0x10#8 0x10000#64).iss kp, i.check F.ns = .ok () ∧
      (lineOn 0x10#8 0x10000#64).atEnd i.ci i.ctx i.pc = false ∧ (∀ q ∈ i.onByAge, targetInRange i.ctx.bounded (F.goal i q) = true) ∧
      (i.allByAge.find? fun q => i.on.contains q && ((F.goal i q).map fun a => !(lineOn 0x10#8 0x10000#64).targetOk i.ci i.ctx a).getD false) = some 0) := by decide

/-- One lane record for each of two positions, whose v20 is the position plus 1. -/
def lanes (g : Group) : Group :=
  { g with lanes := [(20, 1#32), (84, 2#32)],
           recs := g.recs.flatMap fun r => (List.range 2).map fun p => { r with lane := true, b := p, n := 1, forms := [(20, ⟨.l, 0#32, 0#32⟩)] } }

/-- O16: a record whose s destination would get different values, at whatever passes. -/
theorem test_meets_non_uniform : ∃ F ∈ intTwo (.add kp .i32 (.s 20) (.v 20) (.v 20)), ∃ i ∈ (readyG lanes).iss kp,
    i.check F.ns = .ok () ∧ i.g.sound = true ∧ ∃ r ∈ i.run, r.lane = true ∧ i.onIn r ≠ [] ∧
      ∀ sel : Rec → Bool, ∃ x, (F.times i (i.g.expand sel) r.b).recNow r = some x ∧ F.uni i (F.times i (i.g.expand sel)) r x = false := by
  have h : ∃ F ∈ intTwo (.add kp .i32 (.s 20) (.v 20) (.v 20)), ∃ i ∈ (readyG lanes).iss kp,
      i.check F.ns = .ok () ∧ i.g.sound = true ∧ i.g.wb = [] ∧ ∃ r ∈ i.run, r.lane = true ∧ i.onIn r ≠ [] ∧
        ∃ x ∈ i.recNow r, F.uni i (fun _ => i) r x = false := by decide
  obtain ⟨F, hF, i, hi, hc, hs, hw, r, hr, hl, ho, x, hx, hu⟩ := h
  refine ⟨F, hF, i, hi, hc, hs, r, hr, hl, ho, fun sel => ?_⟩
  have ht : F.times i (i.g.expand sel) = fun _ => i := by funext p; simp [ValueForm.times, Iss.timed, hw]
  exact ⟨x, by rw [ht]; exact hx, by rw [ht]; exact hu⟩

/-- O11 to O13: a sound group with a live register, of which a position is read; `dead` up to v63, and past it. -/
theorem test_meets_record_rewrites : (∃ i ∈ ready.iss kp, i.g.sound = true ∧ 31 ∈ i.allByAge ∧
    (i.g.recAt 31).map (fun r => (r.form 1).cls) = some .a) ∧ 63 + (0#6).toNat ≤ 63 ∧ 63 < 63 + (1#6).toNat := by decide

/-! Accesses, commands and queues (O17 to O24) -/

/-- O17: two positions read the scratchpad at their own addresses, one address for an s register, and global memory. -/
theorem test_meets_loads :
    (∀ x ∈ [((.v 20, .v 2, 0) : Opnd × Opnd × BitVec 12), (.s 20, .s 2, 0xFFC#12), (.zr, .s 4, 0x7FC#12)], ∃ i ∈ readyAt2.iss kp, i.g.sound = true ∧
      queueOf x.1 = none ∧ i.check [dstVS x.1, pairN x.2.1] = .ok () ∧
      (∀ p ∈ i.onByAge, i.accessFault permR (plainApers false) 4 (i.memAddr (readRegs [pairN x.2.1]) x.2.1 x.2.2 4 p) = none) ∧
      ((∀ n, x.1 ≠ .s n) ∨ ∀ r ∈ i.run, i.onIn r ≠ [] → classAt (i.memTimes (readRegs [pairN x.2.1]) x.2.1 x.2.2 4) true (.op x.2.1) r = .u ∧
        i.stackOnly (i.memAddr (readRegs [pairN x.2.1]) x.2.1 x.2.2 4) r = false) ∧
      (∀ p ∈ i.onByAge, ∀ kd ∈ [watchRead], i.ctx.watchHit (readyAt2.shape i.g i.t) kd (i.memAddr (readRegs [pairN x.2.1]) x.2.1 x.2.2 4 p) 4 = none) ∧
      ((∀ l ∈ i.g.oplog, l.num ≠ 0) ∧ (spGet 0#32 i.g.bc 7).toNat + 64 * 4 ≤ 0x7FFFFFFF) ∧
      i.readHeld (i.withAddr (i.memAddr (readRegs [pairN x.2.1]) x.2.1 x.2.2 4)) 4 = false) ∧
    ∃ i ∈ readyAt2.iss kp, i.check [dstVS (.v 20) 4, pairN (.s 2)] = .ok () ∧
      ∀ p ∈ i.onByAge, i.accessFault permR (plainApers false) 16 (i.memAddr (readRegs [pairN (.s 2)]) (.s 2) 0x010#12 16 p) = none := by decide

/-- O18: the same addresses, written. -/
theorem test_meets_stores :
    (∀ x ∈ [((.v 2, .v 0, 0) : Opnd × Opnd × BitVec 12), (.s 2, .bc 1, 4), (.s 4, .zr, 0x7FC#12)], ∃ i ∈ readyAt2.iss kp, i.g.sound = true ∧
      i.check [pairN x.1, storeSrc x.2.1 1 false] = .ok () ∧
      (let A := i.memAddr (readRegs [pairN x.1, storeSrc x.2.1 1 false]) x.1 x.2.2 4
       ∀ p ∈ i.onByAge, i.accessFault permW (plainApers false) 4 (A p) = none ∧
        ∀ kd ∈ i.storeKinds (A p), i.ctx.watchHit (readyAt2.shape i.g i.t) kd (A p) 4 = none) ∧
      (∀ l ∈ i.g.oplog, l.num ≠ 0) ∧ (spGet 0#32 i.g.bc 0).toNat + 64 * 4 ≤ 0x7FFFFFFF) ∧
    ∃ i ∈ readyAt2.iss kp, i.check [pairN (.s 2), storeSrc (.v 20) 4 false] = .ok () ∧
      ∀ p ∈ i.onByAge, i.accessFault permW (plainApers false) 16
        (i.memAddr (readRegs [pairN (.s 2), storeSrc (.v 20) 4 false]) (.s 2) 0x010#12 16 p) = none := by decide

/-- O19: atomics, gathers, scatters and a remote load of the first and last core of the cluster. -/
theorem test_meets_engine_accesses :
    (∀ x ∈ [Instr.gatom kp .cas .n32 (.v 20) (.s 4) (.v 0) (.v 6) 4 ⟨0, 1, true⟩, .gather kp .b32 (.v 20) (.s 16) (.v 6) 2 ⟨0x020#12, 0, false⟩,
        .scatter kp .b64 (.v 20) (.s 4) (.v 6) 31 ⟨0, 7, true⟩, .remld kp .b32 (.v 20) .zr 0 3, .remld kp .b64 (.v 20) .zr 99 3],
      ∃ F ∈ engineForm x, ∃ i ∈ readyAt2.iss F.k, i.g.sound = true ∧ i.check F.ns = .ok () ∧ (∀ n, F.d ≠ .s n) ∧
        (∀ p ∈ i.onByAge, F.fault i (F.at_ i p) = none) ∧
        (∀ p ∈ i.onByAge, ∀ kd ∈ F.kinds, i.ctx.watchHit (readyAt2.shape i.g i.t) kd (F.at_ i p) F.size = none) ∧ i.onByAge ≠ [] ∧
        (∀ l ∈ i.g.oplog, l.num ≠ 0) ∧ (spGet 0#32 i.g.bc F.cq).toNat + 64 * F.size ≤ 0x7FFFFFFF) ∧
    (∃ i ∈ readyAt2.iss kp, (∀ r ∈ i.run, i.onIn r ≠ [] → i.g.srcCls true r (.op (.s 4)) = .u ∧ i.g.srcCls true r (.op (.s 16)) = .u) ∧
      coreCluster 0 = coreCluster i.g.core ∧ coreCluster 99 = coreCluster i.g.core ∧
      i.check [dstT .f32 (.s 20), pairN (.s 4)] = .ok () ∧ i.on.head? = some 0 ∧
      i.accessFault permA [.global] 4 (i.addr (.s 4) 0#12 0) = none ∧
      ∀ kd ∈ [watchRead, watchWrite], i.ctx.watchHit (readyAt2.shape i.g i.t) kd (i.addr (.s 4) 0#12 0) 4 = none) := by decide

/-- O20, each clause at the edges of the footprint, the stack carve, the tiles and the apertures: in order an address outside
the bound, an aperture not admitted, a misaligned address, and the last that fits and the first that does not. -/
theorem test_meets_access_traps : ∃ i ∈ readyAt2.iss kp,
    i.ctx.boundOk permR 0x0100000000000000#64 4 = false ∧
    (i.ctx.boundOk permR 0x20000#64 4 = true ∧ (i.aper 0x20000#64).1 ∉ [Aper.spad]) ∧
    ((i.aper 0x20002#64).1 ∈ [Aper.global] ∧ ¬4 ∣ (0x20002#64).toNat) ∧
    ((i.aper 0x00FF00000000FFFC#64).1 = .spad ∧ (i.aper 0x00FF00000000FFFC#64).2 + 4 ≤ i.seat.footLen ∧
      (i.aper 0x00FF000000010000#64).1 = .spad ∧ ¬(i.aper 0x00FF000000010000#64).2 + 4 ≤ i.seat.footLen ∧ (4 ∣ (0x00FF000000010000#64).toNat)) ∧
    ((i.aper 0x00FF000000040000#64).1 = .partner ∧ i.kern.paired = false) ∧
    ((i.aper 0x00FF00010000003C#64).1 = .stack ∧ (i.aper 0x00FF00010000003C#64).2 + 4 ≤ i.stackBytes ∧
      (i.aper 0x00FF000100000040#64).1 = .unassigned) ∧
    ((i.aper 0x00FF00020000FFFC#64).1 = .acc ∧ (i.aper 0x00FF00020000FFFC#64).2 + 4 ≤ 4096 * i.kern.acc) ∧
    (i.aper 0x00FDFFFFFFFFFFFC#64).1 = .global ∧ (i.aper 0x00FE000000000000#64).1 = .creamery ∧
    ((i.onByAge.find? fun q => (i.accessFault permR (plainApers false) 4 (i.memAddr (readRegs [pairN (.s 24)]) (.s 24) 0 4 q)).isSome) = some 0 ∧
      (i.onByAge.find? fun q => (i.accessFault permW (plainApers false) 4
        (i.memAddr (readRegs [pairN (.s 24), storeSrc (.v 0) 1 false]) (.s 24) 0 4 q)).isSome) = some 0 ∧
      i.check [dstVS (.v 20), pairN (.s 24)] = .ok () ∧ i.check [pairN (.s 24), storeSrc (.v 0) 1 false] = .ok ()) := by decide

/-- O21. -/
theorem test_meets_atomics : ∃ i ∈ readyAt2.iss kp, i.g.sound = true ∧ i.check (atomNeeds .cas .n32 (.v 20) (.v 2) (.v 0) (.v 6)) = .ok () ∧
    i.onByAge ≠ [] ∧
    let T := i.timedBy (i.sched (i.expandMany (.v 20)) (readRegs (atomNeeds .cas .n32 (.v 20) (.v 2) (.v 0) (.v 6))) (i.rounds (atomWords (.v 2) 0 4)))
    ∀ p ∈ i.onByAge, i.accessFault permA [.spad, .partner] 4 ((T p).addr (.v 2) 0 p) = none ∧
      ∀ kd ∈ [watchRead, watchWrite], i.ctx.watchHit (readyAt2.shape i.g i.t) kd ((T p).addr (.v 2) 0 p) 4 = none := by decide

/-- O22: copy and copyw of the largest and the least count that the rule admits; a tag that is set, and one that is not. -/
theorem test_meets_commands :
    let s := (readyG fun g => { g with s := spSetAll 0#32 g.s [(12, 0x400000#32), (2, 0x20000#32), (3, 0#32), (4, 0x800000#32)], recs := g.recs.map fun r => { r with n := 2 } }).modTeam 0 fun t => { t with tagBits := 1#128 }
    ∃ i ∈ s.iss kp, i.g.serves = none ∧ i.check [pairN (.s 2), pairN (.s 4), ⟨.s 12, [.v, .s, .zr], 1, 1⟩] = .ok () ∧
      i.check [pairN (.s 24), pairN (.s 4), ⟨.s 12, [.v, .s, .zr], 1, 1⟩] = .ok () ∧
      i.check [pairN (.s 2), pairN (.s 4), ⟨.shp 0, [.shp], 1, 0⟩] = .ok () ∧ 63 < i.kern.tags ∧
      (∀ r ∈ i.run, i.onIn r ≠ [] → i.g.srcCls true r (.op (.s 2)) = .u ∧ i.g.srcCls false r (.op (.s 12)) = .u) ∧ i.on ≠ [] ∧
      i.t.tagBit (i.tagIx 0) = true ∧ i.t.tagBit (i.tagIx 63) = false ∧
      (i.uword (.s 12)).toNat = 0x400000 ∧ 64 ∣ (i.uword (.s 12)).toNat ∧ 64 ∣ (i.upair (.s 24)).toNat ∧ 4 ∣ (i.upair (.s 2)).toNat ∧
      (i.ctx.boundOk permW (i.upair (.s 2)) 0x400000 = true ∧ (i.aper (i.upair (.s 2))).1 = .global ∧
        (i.aper (i.upair (.s 2))).2 + 0x400000 ≤ i.rowEnd .global) ∧
      ((i.aper (i.upair (.s 24))).1 = .creamery ∧ (i.aper (i.upair (.s 24))).2 + 0x400000 ≤ i.rowEnd .creamery) ∧
      i.ctx.watchHit (s.shape i.g i.t) watchRead (i.upair (.s 4)) 0x400000 = none ∧
      i.ctx.watchHit (s.shape i.g i.t) watchWrite (i.upair (.s 2)) 0x400000 = none ∧ i.g.freeSlot = some 0 := by decide

/-- O22: an `rload` of one curd of one row. The table at s16:s17 holds 4, 4 and the address 0x20000. -/
theorem test_meets_rload :
    let x := 4#640 <<< 64 ||| 1#640 <<< 144 ||| 1#640 <<< 112 ||| 1#640 <<< 16
    let s := ((readyG fun g => { g with recs := g.recs.map fun r => { r with n := 2 } }).modTeam 0 fun t =>
      { t with tagBits := 1#128, shps := t.shps.set 0 [(0, x)] }).modCore 0 fun c =>
        { c with spad := [(0x2000, some ⟨0, 4#8⟩), (0x2001, some ⟨0, 0#8⟩), (0x2002, some ⟨0, 0#8⟩), (0x2003, some ⟨0, 0#8⟩), (0x2004, some ⟨0, 4#8⟩),
          (0x2005, some ⟨0, 0#8⟩), (0x2006, some ⟨0, 0#8⟩), (0x2007, some ⟨0, 0#8⟩), (0x2008, some ⟨0, 0#8⟩), (0x2009, some ⟨0, 0#8⟩),
          (0x200A, some ⟨0, 2#8⟩), (0x200B, some ⟨0, 0#8⟩), (0x200C, some ⟨0, 0#8⟩), (0x200D, some ⟨0, 0#8⟩), (0x200E, some ⟨0, 0#8⟩), (0x200F, some ⟨0, 0#8⟩)] }
    ∃ i ∈ s.iss kp, i.g.serves = none ∧ i.check [pairN (.s 2), pairN (.s 16), ⟨.shp 0, [.shp], 1, 0⟩] = .ok () ∧
      i.ctx.watchHit (s.shape i.g i.t) watchRead 0x20000#64 4 = none ∧ i.ctx.watchHit (s.shape i.g i.t) watchWrite (i.upair (.s 2)) 4 = none ∧
      i.g.atomPending (i.placeOf (i.upair (.s 16)) 0) 16 (s.ord + 1) = false ∧ 8 ∣ (i.upair (.s 16)).toNat ∧ s.shape i.g i.t 0 = x ∧ shpCols x = false ∧ shpNc x = 1 ∧
      (i.aper (i.upair (.s 16))).2 + 16 ≤ i.rowEnd .spad ∧
      s.readPlace i.g (i.placeOf (i.upair (.s 16)) 0) 4 (s.ord + 1) = 4 ∧ 4 ≤ shpPitch x ∧
      s.readPlace i.g (i.placeOf (i.upair (.s 16) + 8) 0) 8 (s.ord + 1) = 0x20000 ∧
      rloadRows x (i.upair (.s 2)) 4 4 (fun _ => 0x20000#64) = [(i.upair (.s 2), 0x20000#64, 4)] ∧
      (i.aper 0x20000#64).1 = .global ∧ (i.aper (i.upair (.s 2))).1 = .spad ∧ (i.aper (i.upair (.s 2))).2 + 4 ≤ i.rowEnd .spad ∧
      i.g.freeSlot = some 0 := by decide

/-- Two positions, and a team with one queue changed. -/
def withQueue (n : Nat) (q : Queue) : State := readyAt2.modTeam 0 fun t => { t with queues := t.queues.set n q }

/-- O23 and O24: a queue with one entry, pushed before this ck, and one with two pushed in it; no position guarded. -/
theorem test_meets_queue_entry :
    (∀ q ∈ [{ Queue.empty with entries := [List.replicate 64 7#32], cons := .group 0 },
        { Queue.empty with entries := List.replicate 3 (List.replicate 64 7#32), lastPush := 1, pushed := 2 }],
      ∃ i ∈ ({ withQueue 15 q with now := 1 }).iss kp, i.g.serves = none ∧ i.g.sound = true ∧
        i.check [dstVS (.v 20), ⟨.dq 15, [.dq], 1, 0⟩] = .ok () ∧ i.on ≠ [] ∧ 15 < i.kern.queues ∧
        (i.queue 15 = some q ∧ (q.cons = .unbound ∨ q.cons = .group i.g.g) ∧ q.entries = List.replicate 64 7#32 :: q.entries.drop 1 ∧
          (if q.lastPush = i.now then q.pushed else 0) < q.entries.length) ∧
        i.check [pairN (.s 2), storeSrc (.dq 15) 1 true] = .ok () ∧ i.check [pairN (.v 2), storeSrc (.dq 15) 1 true] = .ok ()) ∧
    ∃ i ∈ readyAt2.iss { kp with guard := 1 }, i.on = [] ∧ i.g.serves = none := by decide

/-- O23 and O24: an empty queue in each of its states. -/
theorem test_meets_empty_queue : ∀ q ∈ [Queue.empty, { Queue.empty with gone := true }, { Queue.empty with pois := true }],
    ∃ i ∈ (withQueue 0 q).iss kp, i.queue 0 = some q ∧ q.entries = [] ∧ q.flight = 0 ∧ q.cons = .unbound ∧ q.prod = .unbound ∧ i.g.sound = true ∧
      (if q.lastPop = i.now then q.popped else 0) < 16 ∧ i.trial = false ∧
      i.check [⟨.dq 0, [.v, .s, .dq, .zr], 1, 0⟩, pairN (.v 2)] = .ok () ∧ i.check [dstVS (.v 20), ⟨.dq 0, [.dq], 1, 0⟩] = .ok () ∧
      (let A := i.memAddr (readRegs [pairN (.v 2)]) (.v 2) 0 4
       (∀ p ∈ i.onByAge, i.accessFault permR (plainApers true) 4 (A p) = none ∧ i.ctx.watchHit ((withQueue 0 q).shape i.g i.t) watchRead (A p) 4 = none) ∧
        i.readHeld (i.withAddr A) 4 = false) := by decide

/-- O23: ends held by the group, by another and by a Pail. -/
theorem test_meets_queue_ends : ∀ e ∈ [QEnd.group 0, .group 1, .pail],
    ∃ i ∈ (withQueue 3 { Queue.empty with prod := e, cons := e }).iss kp, i.trial = false ∧ (i.queue 3).map (fun p => (p.prod, p.cons)) = some (e, e) ∧ i.on ≠ [] := by
  decide

/-- O25: a token of the last phase and one of this phase; a tag set and clear; masks; counts at and above the limit. -/
theorem test_meets_waits :
    (let s := readyAt2.modTeam 0 fun t => { t with tagBits := 1#128, barriers := t.barriers.set 2 ⟨1#32, [0], []⟩ }
     ∃ i ∈ s.iss kp, i.g.serves = none ∧ i.check [uReg (.s 8)] = .ok () ∧ i.check [uReg (.bc 7)] = .ok () ∧ i.check [] = .ok () ∧ i.on ≠ [] ∧
      i.tokenAhead .zr 2 < 0 ∧ (i.tokenAhead (.s 8) 2 = 0 ∧ i.g.g ∈ (i.barrier 2).marks) ∧
      (∀ r ∈ i.run, i.onIn r ≠ [] → i.g.srcCls false r (.op (.s 8)) = .u) ∧
      i.t.tagBits.getLsbD (i.tagIx 0) = true ∧ i.t.tagBits.getLsbD (i.tagIx 63) = false ∧ 63 < i.kern.tags ∧
      i.check [⟨.s 20, [.s, .zr], 1, 0⟩, ⟨.s 10, [.s, .zr], 2, 2⟩] = .ok () ∧ (i.upair (.s 10)).toNat < 2 ^ i.kern.tags ∧
      i.upair (.s 10) = 1#64 ∧ i.upair (.s 12) = 0#64 ∧
      i.check [⟨.bc 7, [.bc, .zr], 1, 1⟩, uReg (.s 8)] = .ok () ∧ i.check [⟨.zr, [.bc, .zr], 1, 1⟩, uReg (.bc 7)] = .ok () ∧ i.g.word (.bc 7) 0 ≤ i.uword (.s 8)) ∧
    ∃ i ∈ (readyG fun g => { g with bc := [(7, 2#32)] }).iss kp, ¬i.g.word (.bc 7) 0 ≤ i.uword (.s 8) := by decide

/-- O26: a barrier at which the only live group has arrived, and one at which it has not. -/
theorem test_meets_barriers : ready.liveGroups 0 ≠ [] ∧ (∀ g ∈ ready.liveGroups 0, g.g ∈ (⟨7#32, [0], []⟩ : Barrier).marks) ∧
    (∃ g ∈ ready.liveGroups 0, g.g ∉ (⟨7#32, [], []⟩ : Barrier).marks) ∧
    (∀ h ∈ (⟨7#32, [0], []⟩ : Barrier).held, ∀ g ∈ ready.liveGroups 0, g.g = h.1 → g.earlierDone fenceRel h.2.1 false h.2.2 = true) ∧
    ∃ i ∈ ready.iss kp, i.trial = false ∧ i.g.serves = none ∧ i.on ≠ [] ∧ i.check [⟨.s 20, [.s, .zr], 1, 0⟩] = .ok () := by decide

/-- O27: nothing earlier is open, and a global store is. -/
theorem test_meets_fences :
    (∃ i ∈ ready.iss kp, i.trial = false ∧ i.on ≠ [] ∧ i.g.earlierDone 2 5 i.kern.paired (ready.ord + 1) = true) ∧
    ∃ i ∈ (readyG fun g => { g with storeq := [.glob 0], oplog := [⟨0, 0, 0#64, .nop kp, .store, [mkElem [0] 0x20000#64 4 0#128], 4, some 0, 0, 1,
        .none, 0, 1, 0, false, none, 0, none, []⟩] }).iss kp, i.on ≠ [] ∧ i.g.earlierDone 2 4 i.kern.paired 1 = false := by decide

/-- O28: a submission within the quota; handles refused, ahead, past, and of a task that has not committed; ticks on and off. -/
theorem test_meets_tasks :
    let other : Task := { probeTask 0 (probeKernel 0x10000#64) with serial := 1 }
    let s := ({ ready with tasks := ready.tasks ++ [other] }.modCtx 0 fun c => { c with serial := 2 }).modGroup 0 fun g =>
      { g with s := spSetAll 0#32 g.s [(20, 0x80000000#32), (21, 5#32), (22, 0x3FFFFFFF#32)] }
    ∃ i ∈ s.iss kp, i.g.serves = none ∧ i.on ≠ [] ∧ i.check [⟨.s 30, [.s, .zr], 1, 0⟩, ⟨.s 4, [.s, .zr], 2, 2⟩] = .ok () ∧
      s.entriesHeld 0 + ((s.groups.filter fun g => g.ctx == 0 && g.stat != .ended).map fun g => g.submit.length).sum < i.ctx.quota ∧
      i.check [⟨.s 30, [.s, .zr], 1, 0⟩, ⟨.s 20, [.s, .zr], 1, 1⟩] = .ok () ∧ (i.uword (.s 20)).getLsbD 31 = true ∧
      (i.uword (.s 21)).getLsbD 31 = false ∧ serialAhead ((i.uword (.s 21)).toNat % 2 ^ 30) i.ctx.serial = true ∧
      serialAhead ((i.uword (.s 22)).toNat % 2 ^ 30) i.ctx.serial = false ∧ s.taskIndex 0 ((i.uword (.s 22)).toNat % 2 ^ 30) = none ∧
      serialAhead ((i.uword (.s 8)).toNat % 2 ^ 30) i.ctx.serial = false ∧ s.taskIndex 0 ((i.uword (.s 8)).toNat % 2 ^ 30) = some 1 ∧
      s.waitsOn i.t.task 2 1 = false ∧ s.taskCommitted 0 ((i.uword (.s 8)).toNat % 2 ^ 30) = false ∧
      ready.otherTasks i = [] ∧ s.otherTasks i = [1] ∧ stepPeriod 0#32 = 0 ∧ stepPeriod 0x400000#32 ≠ 0 := by decide

/-- O29: fields within and outside the limits of each hint. -/
theorem test_meets_hints : prefOk ⟨0xFF, 0x44, 0, 0, 0, 0x60000⟩ = true ∧ prefOk ⟨0xFF, 0x44, 0, 0, 0, 0x70000⟩ = false ∧
    phaseOk ⟨0x41, 7, 0, 1, 0, 0xF0000⟩ = true ∧ phaseOk ⟨0x41, 7, 0, 0, 0, 0xF0000⟩ = false ∧ isHintOp (Fields.unpack (0x3F0#96 <<< 58)).op = true ∧
    isHintOp (Fields.unpack 0#96).op = false ∧ (∃ i ∈ ready.iss (Fields.unpack 0#96).k, i.pc = 0x10000#64) ∧
    ∃ i ∈ ready.iss kp, i.trial = false ∧ i.g.serves = none ∧ i.on ≠ [] ∧ ready.grantedAfter i.g = false ∧
      (i.upair (Opnd.ofCode 0x44)).toNat = 0x20000 := by decide

/-! Matrix, ragged and loop instructions (O30 to O34) -/

/-- One quarter of positions; no watchpoint is set. -/
def quarter : State := readyG fun g => { g with recs := g.recs.map fun r => { r with n := 8 } }

/-- O30: operands, tiles and sizes at the ends of their ranges. -/
theorem test_meets_tile_instructions : ∃ i ∈ quarter.iss kp, i.on ≠ [] ∧ i.ctx.watches.all Option.isNone = true ∧
    i.check [accN (.acc 0), accN (.acc 15), src1 (.v 4)] = .ok () ∧ i.tileOk true (.acc 0) = true ∧ i.tileOk true (.acc 15) = true ∧
    i.check [accN (.acc 0), pairN (.s 2), ⟨.s 12, [.s, .zr], 1, 1⟩] = .ok () ∧
    i.check [accN (.acc 0), src1 (.v 6), src1 (.v 4)] = .ok () ∧ (∀ p ∈ i.onByAge, (i.g.word (.v 6) p).toNat < 1024) ∧
    (2#2 ≠ 3#2) ∧ i.check [accN (.acc 0), accN (.acc 1), src1 (.s 8)] = .ok () ∧
    (∀ r ∈ i.run, i.onIn r ≠ [] → i.g.srcCls false r (.op (.s 8)) = .u) ∧
    i.check [⟨.s 20, [.s, .zr], 1, 0⟩, ⟨.c 7, [.c], 1, 0⟩] = .ok () ∧ i.check [⟨.c 7, [.c], 1, 0⟩, src1 (.s 8)] = .ok () ∧ 7 < i.kern.coef ∧
    i.check [accN (.acc 0), accN (.acc 1), accN (.acc 2)] = .ok () ∧ i.g.serves = none := by decide

/-- O30: `accld` and `accst` at the least pitch, and `bscale.hi` at width 16. -/
theorem test_meets_tile_ranges :
    (∃ i ∈ (readyG fun g => { g with s := spSet 0#32 g.s 12 128#32 }).iss kp, i.accRangeCheck permR .f32 (.s 2) (.s 12) 0xFFC#12 = .ok () ∧
      i.accRangeCheck permW .f16 (.s 2) (.s 12) 0#12 = .ok ()) ∧
    ∃ i ∈ (readyG fun g => { g with width := 16, recs := g.recs.map fun r => { r with n := 16 } }).iss kp, i.g.width = 16 ∧
      (∀ p ∈ i.on, p < 16) ∧ i.tileOk true (.acc 3) = true := by decide

/-- O31. -/
theorem test_meets_quantisation : ∀ x ∈ [Instr.qenc kp .e5m2 .sr true (.v 20) (.v 4) (.v 4), .qdec kp .kq4 (.v 20) (.v 6) (.v 4),
      .kqsc kp (.v 20) (.v 6) 3, .mloopget kp (.s 20)],
    ∃ F ∈ laterForm x, ∃ i ∈ ready.iss F.1.k, (i.check F.1.ns = .ok () ∧ i.on ≠ []) ∧ F.1.sOk i := by
  have h : ∀ x ∈ [Instr.qenc kp .e5m2 .sr true (.v 20) (.v 4) (.v 4), .qdec kp .kq4 (.v 20) (.v 6) (.v 4),
      .kqsc kp (.v 20) (.v 6) 3, .mloopget kp (.s 20)],
      ∃ F ∈ laterForm x, ∃ i ∈ ready.iss F.1.k, (i.check F.1.ns = .ok () ∧ i.on ≠ []) ∧ sOkNow F.1 i := by decide
  intro x hx
  obtain ⟨F, hF, i, hi, hc, hs⟩ := h x hx
  exact ⟨F, hF, i, hi, hc, sOkNow_ok hs⟩

/-- O32: a quarter operation on fed-back tiles with one quarter, and a run that cuts a quarter. -/
theorem test_meets_quarter_instructions : ∃ q ∈ quadOf (.mma kp .bf16 0 (.acc 0) (.acc 2) (.acc 4) (.v 0) 0 true false 0),
    (∃ i ∈ quarter.iss q.1, quarter.quadCheck i q.2 = .ok () ∧ quarter.quadAccess i q.2 0#640 = .ok () ∧
      (∀ r ∈ i.run, i.wholeQuarters r = true) ∧ i.ctx.watches.all Option.isNone = true ∧
      ∀ r ∈ i.actRecs, (quarter.columns i q.2 r).isSome = true) ∧
    ∃ i ∈ readyAt2.iss q.1, readyAt2.quadCheck i q.2 = .ok () ∧ readyAt2.quadAccess i q.2 0#640 = .ok () ∧
      (i.run.find? fun r => !i.wholeQuarters r).isSome = true := by decide

/-- A valid shape of two curds: rows 0 to 2 and 2 to 8, of 64 bytes, .f32. -/
def shape2 : BitVec 640 := 7#640 ||| 2#640 <<< 16 ||| 64#640 <<< 64 ||| 8#640 <<< 112 ||| 2#640 <<< 144 ||| 8#640 <<< 160

/-- O33: the bytes at s16:s17 hold that shape, and so does shp7. -/
theorem test_meets_shapes :
    let bytes := leBytes 80 shape2.toNat
    let s := (quarter.modTeam 0 fun t => { t with shps := t.shps.set 7 [(0, shape2)] }).modCore 0 fun c =>
      { c with spad := (upto 0x2000 80).zip (bytes.map fun b => some ⟨0, b⟩) }
    ∃ i ∈ s.iss kp, i.check [⟨.shp 7, [.shp], 1, 0⟩, pairN (.s 16)] = .ok () ∧ i.check [pairN (.s 16), ⟨.shp 7, [.shp], 1, 0⟩] = .ok () ∧
      i.on ≠ [] ∧ (∀ r ∈ i.run, i.onIn r ≠ [] → i.g.srcCls true r (.op (.s 16)) = .u ∧ i.g.srcCls false r (.op (.s 8)) = .u) ∧
      i.ctx.boundOk permR (i.upair (.s 16)) 80 = true ∧ (i.aper (i.upair (.s 16))).1 = .spad ∧ (i.aper (i.upair (.s 16))).2 + 80 ≤ i.rowEnd .spad ∧
      16 ∣ (i.upair (.s 16)).toNat ∧ i.g.atomPending (i.placeOf (i.upair (.s 16)) 0) 80 (s.ord + 1) = false ∧
      BitVec.ofNat 640 (leNat (s.ownBytes i (i.upair (.s 16)) 80)) = shape2 ∧ shpValid shape2 = true ∧ s.shape i.g i.t 7 = shape2 ∧
      i.check ([accN (.acc 0), accN (.acc 1), ⟨.shp 7, [.shp], 1, 0⟩] ++ [⟨.s 8, [.s, .zr], 1, 1⟩]) = .ok () ∧ (rredCurds shape2 (some (i.uword (.s 8)))).isOk = true ∧
      (rredCurds shape2 none).isOk = true ∧ i.check [pairN (.s 16), ⟨.shp 7, [.shp], 1, 0⟩, src1 (.s 8)] = .ok () ∧
      shpCols shape2 = false ∧ rnormTy (shpFmt shape2) = some .f32 ∧ (16#11).toNat * accWidth .f32 ≤ shpPitch shape2 ∧
      ∀ p ∈ (curdRows shape2).flatten, i.rowCheck 16 (accWidth .f32) (i.upair (.s 16) + BitVec.ofNat 64 (p * shpPitch shape2)) = none := by decide

/-- O34: elements 0 and 1023, loop words of each phase, counts below the cap and at it. -/
theorem test_meets_loops :
    (∃ i ∈ (readyG fun g => { g with s := spSet 0#32 g.s 12 1023#32 }).iss kp, i.check [dstVS (.v 20), accN (.acc 0), src1 (.s 12)] = .ok () ∧
      (∀ p ∈ i.onByAge, (i.g.word (.s 12) p).toNat < 1024) ∧ i.g.sound = true ∧ i.ctx.watches.all Option.isNone = true ∧
      i.check [⟨.s 8, [.v, .s, .zr], 2, 2⟩] = .ok () ∧ (∀ r ∈ i.run, i.onIn r ≠ [] → i.g.srcCls true r (.op (.s 14)) = .u) ∧
      (Mls.of i.g.mls).phase = 0 ∧ mlsOk (i.upair (.s 14)) = true ∧ i.check [dstVS (.s 20) 2] = .ok () ∧
      i.check [predN (.p 1), accN (.acc 0), accN (.acc 1), accN (.acc 2)] = .ok () ∧ 8 ≤ i.kern.coef) ∧
    (Mls.of ({ Mls.of 0#64 with phase := 2, count := 4 } : Mls).bits).count = 4 ∧ 4 < (5#8).toNat ∧ (4#8).toNat ≤ 4 := by decide

/-! Traps and system instructions (O35 to O42) -/

/-- Group 0 frozen with a trap of class 0x04, and a handler that serves it as group 1 and issues. -/
def handler : State :=
  { ready with
    groups := [{ group with stat := .frozen, trap := some ⟨0x04010000#32, 0x10000#64, 0xFF#32, 0#32, .handler, 0, none, 0#64⟩ },
      { group with serves := some 0 }], issuer := some (.group 1), booted := true }

/-- O35: a live context whose mask routes class 4 to a handler of an object, and one without a handler. -/
theorem test_meets_trap_entry : (∃ g ∈ ready.groups[0]?, ∃ c ∈ ready.contexts[g.ctx]?, c.stat = .live ∧ c.debugger = false ∧ g.serves = none ∧
      c.routeSpec 0#64 0#32 0x04 false = .kernel) ∧
    ∃ g ∈ handler.groups[1]?, g.serves = some 0 ∧ (handler.contexts[g.ctx]?).isSome = true := by decide

/-- O36. -/
theorem test_meets_trap_instructions : (∃ i ∈ ready.iss kp, i.on ≠ [] ∧ i.trial = false) ∧
    ∃ i ∈ ready.iss { kp with guard := 1 }, i.on = [] ∧ i.trial = false := by decide

/-- O37: a frozen group that may resume, and one for each refusal code. -/
theorem test_meets_tret :
    (∃ i ∈ handler.iss kp, i.g.serves = some 0 ∧ i.on ≠ [] ∧ i.check [⟨.s 20, [.s, .zr], 1, 0⟩] = .ok () ∧
      ∃ g ∈ handler.groups[0]?, handler.tretCheck g = none ∧ i.g.earlierDone fenceRel 4 i.kern.paired 1 = true ∧ i.g.work = []) ∧
    (let two (f : Rec → Rec) : Group := { group with recs := group.recs ++ group.recs.map f }
     ¬(allPositions (two id).recs).Nodup ∧
     (allPositions (two fun r => { r with b := 32, n := 1 }).recs).Nodup ∧ (∃ p ∈ allPositions (two fun r => { r with b := 32, n := 1 }).recs, group.width ≤ p)) ∧
    (∀ n ∈ [0, 1], ∃ r ∈ (group.recs.map fun r => { r with n := n, s := if n = 0 then 1 else 32 }), r.lane = false ∧ (r.n = 0 ∨ r.s = 0 ∨ group.width ≤ r.s)) ∧
    (∃ r ∈ group.recs.map fun r => { r with pc := 0x10004#64 }, r.pc.toNat % 64 ∉ [0, 12, 24, 36, 48]) ∧
    (∀ r ∈ group.recs, r.pc.toNat % 64 ∈ [0, 12, 24, 36, 48]) ∧ group.rangeCount ≤ group.guarantee ∧
    ∀ r ∈ group.recs, ∀ e ∈ r.forms, if r.lane = true then e.2.cls ≠ .a else e.2.cls ≠ .l := by decide

/-- O38. -/
theorem test_meets_trap_state : ∃ i ∈ handler.iss kp, i.g.serves = some 0 ∧ i.check [dstVS (.s 20), uReg (.s 8)] = .ok () ∧
    i.check [uReg (.s 8), uReg (.s 10)] = .ok () ∧ (∀ r ∈ i.run, i.onIn r ≠ [] → i.g.srcCls false r (.op (.s 8)) = .u) ∧
    ∃ g ∈ handler.groups[0]?, g.trap.isSome = true ∧ g.underHandler = true := by decide

/-- O39: STEP with ENABLE and the record 0, and a record past the last. -/
theorem test_meets_single_step :
    ((0x80#32).getLsbD 7 = true ∧ (0x80#32).toNat % 128 < group.recs.length ∧ ¬(0x81#32).toNat % 128 < group.recs.length ∧ group.sound = true) ∧
    ∃ F ∈ valueForm (.add kp .i32 (.v 20) (.v 0) (.v 1)), ∃ i ∈ (readyG fun g => { g with step := some 0 }).iss F.k, i.g0.step = some 0 ∧
      i.check F.ns = .ok () ∧ ∀ n, F.d ≠ .s n := by decide

/-- O40: registers of one word and of two, and a number that is none. -/
theorem test_meets_system_registers : sysWidth 0x000 = some 1 ∧ sysWidth 0x011 = some 2 ∧ sysWidth 0x007 = none ∧ sysWidth 0x024 = none ∧
    ∃ i ∈ ready.iss kp, i.check [dstVS (.s 20) 2] = .ok () ∧ i.check [⟨.s 4, [.v, .s, .zr], 2, 2⟩] = .ok () ∧
      ∀ r ∈ i.run, i.onIn r ≠ [] → i.g.srcCls true r (.op (.s 4)) = .u := by decide

/-- O41: the bytes at s16:s17 hold a descriptor of one watched row. -/
theorem test_meets_watchpoints :
    let bytes := leBytes 32 (0x20000 + 64 * 2 ^ 64 + 2 ^ 160 + 3 * 2 ^ 192)
    let s := quarter.modCore 0 fun c => { c with spad := (upto 0x2000 32).zip (bytes.map fun b => some ⟨0, b⟩) }
    (∃ i ∈ s.iss kp, i.trial = false ∧ i.check [⟨.s 16, [.s, .zr], 2, 2⟩] = .ok () ∧ i.on ≠ [] ∧ i.accessFault permR [.spad] 32 (i.upair (.s 16)) = none ∧
      i.g.atomPending (i.placeOf (i.upair (.s 16)) 0) 32 (s.ord + 1) = false ∧
      (i.upair (.s 16)).toNat % 4 = 0 ∧ (Watch.ofBytes (s.ownBytes i (i.upair (.s 16)) 32) fun x => shpNc (s.shape i.g i.t x)).isSome = true) ∧
    ((ready.modCtx 0 fun c => { c with watchQ := [⟨7, none, 0, 1, 1⟩] }).contexts.map fun c => c.watchQ.length) = [1] := by decide

/-- O42. -/
theorem test_meets_privilege : (∃ i ∈ handler.iss kp, i.g.serves.isSome = true) ∧ (∃ i ∈ ready.iss kp, i.g.serves = none) ∧
    handlerForbids (.mpoly kp 0 0 (.acc 0) (.acc 1) (.acc 2)) = some kp ∧ handlerOnly (.tret kp .zr 0) = some kp := by decide

/-- O44 and O48: a group that may issue, and the words of its line; bits set in the parity, at the reserved bit of a word, and
END with a word in slot 4 that is no transfer. -/
theorem test_meets_step : (State.reset.withFetchWord 96 0x000000708408040000000100).mayIssue (.group 0) =
      some (.issue (.addI kp .i32 (.v 2) (.v 1) 0x100#36)) := by decide

/-! Decoding, memory, events (O46 to O58) -/

/-- O46 and O47: a compute word and a Pail word, both ways. -/
theorem test_meets_round_trips :
    ((Instr.addI kp .i32 (.v 2) (.v 1) 0x100#36).wf = true ∧ encode (.addI kp .i32 (.v 2) (.v 1) 0x100#36) = some (.compute 0x000000708408040000000100#96)) ∧
    ((Instr.pqPop 2 11).wf = true ∧ encode (.pqPop 2 11) = some (.pail 0x0020158B#32)) ∧
    (decode 0x000000708408040000000100#96).toOption = some (.addI kp .i32 (.v 2) (.v 1) 0x100#36) ∧
    isHintOp (Fields.unpack 0x000000708408040000000100#96).op = false ∧ decodePail 0x0020158B#32 = some (.pqPop 2 11) := by decide

/-- O48: a line with a wrong parity bit; one with END, a word of zeros in slot 4 and right parity; PCs of no slot; words with
GUARD 15 and with a type that `add` does not admit. -/
theorem test_meets_line_checks : parityOk 1 = false ∧ parityOk (2 ^ 488) = true ∧ ((0x10004#64).toNat % 64 ∉ [0, 12, 24, 36, 48]) ∧
    (0x10030#64).toNat % 64 = 48 ∧ lineEnd (lineWord (2 ^ 488)) = true ∧ transferOp (Fields.unpack (slotWord (2 ^ 488) 4)).op = false ∧
    (0x10000#64).toNat % 64 ∈ [0, 12, 24, 36] ∧
    (opcodeNamed (Fields.unpack 0x000000F00400000000000000#96).op = true ∧ ctlOk (Fields.unpack 0x000000F00400000000000000#96).k = false) ∧
    decode 0x000000700400000000400000#96 = .error .type ∧ lineReserved (lineWord (2 ^ 488)) = false ∧ lineReserved (lineWord (2 ^ 480)) = true := by decide

/-- O49 to O52: canonical memory, the first and the last byte below the link aperture, sound records, and a step that goes on. -/
theorem test_meets_invariants : (lineOn 1#8 0x10000#64).mem.wf = true ∧ sparseWf ⟨0, 0#64⟩ 0 (lineOn 1#8 0x10000#64).units = true ∧ 0 < linkBase ∧
    linkBase - 1 < linkBase ∧ ctxKey 0 ≠ 0 ∧ kernelKey ≠ 0 ∧ (∀ g ∈ (lineOn 1#8 0x10000#64).allGroups, g.shaped = true ∧ (g.stat = .live → g.sound = true)) ∧
    goesOn (step (lineOn 1#8 0x10000#64)) = true := by decide

/-- O53: two due results, oldest first; a value for a register; predicates 0, 6 and 7. -/
theorem test_meets_landing :
    let a : Inflight := ⟨0, 0, 1, 1, 1, [.v 5 [(0, 1#32)] none]⟩
    let b : Inflight := ⟨0, 0, 2, 2, 1, [.s 5 1#32]⟩
    ({ group with wb := [a, b] } : Group).nextLanding 0 = some a ∧ group.sound = true ∧
      (∀ p ∈ [0, 31], ∃ r ∈ group.recs, p ∈ r.positions) ∧ sparseWf 0#32 0 group.s = true ∧ sparseWf 0#64 0 group.p = true ∧
      (∀ p ∈ [(0, 5#32), (31, 36#32)], (⟨.a, 5#32, 1#32⟩ : Form).norm.at p.1 = p.2) := by decide

/-- A slot of the operand log at 0x10000 of one position. -/
def slot (ord : Nat) (op : SlotOp) (taken : Option Nat) : Slot :=
  ⟨0, ord, 0x10000#64, .nop kp, op, [mkElem [0] 0x10000#64 4 0#128], 4, some 0, 0, 1, .v 20, 0, 1, 0, false, taken, 0, none, []⟩

/-- O54: store queue heads on chip and global, a load and a store that may be performed, a gather on chip. -/
theorem test_meets_memory_events :
    (∃ i ∈ (readyG fun g => { g with storeq := [.chip 0 1 [(⟨0, .spad, 0x1000⟩, 5#8)] 0 1] }).view 0,
      (∃ e ∈ i.g.storeq.head?, e = .chip 0 1 [(⟨0, .spad, 0x1000⟩, 5#8)] 0 1) ∧ i.gatherOpen 1 [⟨0, .spad, 0x1000⟩] = false) ∧
    (∃ i ∈ (readyG fun g => { g with storeq := [.glob 1], oplog := [slot 1 .store none] }).view 0, i.g.storeq = [.glob 1] ∧
      (i.g.oplog.find? fun m => m.ord == 1 && m.isStore) = some (slot 1 .store none) ∧ i.g.readsDone 1 = true ∧ (slot 1 .store none).qord = false) ∧
    (let s (l : Slot) : State := (lineOn 1#8 0x10000#64).modGroup 0 fun g => { g with oplog := [l] }
     let x := mkElem [0] 0x10000#64 4 0#128
     ∃ i ∈ (s (slot 1 .store (some 0))).view 0, (s (slot 1 .store (some 0))).mayBegin i (slot 1 .store (some 0)) x = true ∧
      (s (slot 1 .load none)).mayBegin i (slot 1 .load none) x = true ∧ i.isGlobal 0x10000#64 = true ∧ (slot 1 .load none).isCommand = false ∧
      (slot 1 .store (some 0)).olderElem 0 x = false ∧ (s (slot 1 .store (some 0))).olderWrite i (slot 1 .store (some 0)) x 0 = false ∧
      i.g.olderOpen (slot 1 .store (some 0)) x = false ∧ (s (slot 1 .load none)).isDevice i.ctx.root 0x10000 = false) ∧
    (let l : Slot := { slot 1 .gather none with elems := [mkElem [0] 0x00FF000000001000#64 4 0#128] }
     ∃ i ∈ (readyG fun g => { g with oplog := [l] }).view 0, i.isGlobal 0x00FF000000001000#64 = false ∧
      (readyG fun g => { g with oplog := [l] }).mayBegin i l (mkElem [0] 0x00FF000000001000#64 4 0#128) = true) := by decide

/-- O54: the translations of such accesses: one that has a frame, one that has none. -/
theorem test_meets_accesses : ((lineOn 1#8 0x10000#64).access 0 (some 0) 0x10000 .read false).1 = .ok 0x60000 ∧
    ((lineOn 1#8 0x10000#64).access 0 (some 0) 0x10004 .write false).1 = .ok 0x60004 ∧
    (ready.access 0 (some 0) 0x10000 .read false).1 = .fault .notPresent "unmapped access" := by decide

/-- O54: an engine command of one move on chip, work that has run its occupancy, and a loop at each of its outcomes. -/
theorem test_meets_command_work_loop :
    (let x : Elem := { mkElem [] 0x00FF000000001000#64 4 0#128 with src := 0x00FF000000002000#64 }
     let l : Slot := { slot 1 .copy none with elems := [x] }
     let s : State := readyG fun g => { g with oplog := [l] }
     ∃ i ∈ s.view 0, s.commandReady i l = true ∧ x.src.toNat % 65536 + x.len ≤ 65536 ∧ (s.endOf i x.src .read).2 = s ∧
      (∀ k ∈ [TKind.notPresent, .permission, .device], (s.endOf i x.src .read).1 ≠ .fault k ∧ (s.endOf i x.va .write).1 ≠ .fault k) ∧
      s.pieceWaits i l x = false) ∧
    (∃ g ∈ (readyG fun g => { g with work := [⟨1, 0, 1, [], [], [], 0, true, 0⟩] }).groups[0]?, (g.work[0]?).map (fun w => w.left) = some 0) ∧
    (let l : Loop := ⟨1, 0, 1, 2, 8, 5, List.replicate 8 0#32, 0, 1#64, true, 0⟩
     ∃ i ∈ (readyG fun g => { g with loop := some l }).view 0, i.g.loop = some l ∧ l.left = 0 ∧ i.g.stat = .live ∧ i.t.preempt = false ∧
      i.ctx.watches.all Option.isNone = true) ∧
    ((f32Val 0x3F800000#32).finite = true ∧ (f32Val 0x40000000#32).lt (f32Val 0x3F800000#32) = false ∧ (f32Val 0x7FC00000#32).isNan = true ∧
      (f32Val 0x7F800000#32).finite = false) := by decide

/-- The group of a state blocked on a wait. -/
def blocked (c : Cond) : State :=
  readyG fun g => { g with recs := g.recs.map fun r => { r with wait := some ⟨c, false, 1, 1, some 5, 0#32, 1, 0, []⟩ } }

/-- O55: a wait whose condition is met; a fence hold that is over; 256 issues of others; phases before and at their ends; a
release that has passed. -/
theorem test_meets_group_events :
    (∃ g ∈ (blocked (.count 0 0#32)).groups[0]?, ∃ t ∈ (blocked (.count 0 0#32)).teams[0]?, ((g.recs[0]?).bind Rec.wait).isSome = true ∧
      (blocked (.count 0 0#32)).canWake g = true ∧ (blocked (.count 0 0#32)).condMet g t (.count 0 0#32) = true ∧ t.preempt = false ∧
      sparseWf 0 0 g.cf = true) ∧
    (∃ i ∈ (readyG fun g => { g with fences := [⟨0, 5, 1, 1, 1⟩] }).view 0, i.fenceOver ⟨0, 5, 1, 1, 1⟩ = true) ∧
    (∃ g ∈ (readyG fun g => { g with strag := 256 }).groups[0]?, 256 ≤ g.strag) ∧
    (∃ g ∈ (readyG fun g => { g with phase := some ⟨0, 1, 16, 0, 0, false⟩ }).groups[0]?, g.phase = some ⟨0, 1, 16, 0, 0, false⟩ ∧
      0 ≤ ready.groupCk g ∧ 0 + 1 + 256 ≤ ({ ready with now := 322 } : State).groupCk g ∧ ready.groupCk g < 0 + 1 + 256) ∧
    (∃ g ∈ (blocked (.release 0)).groups[0]?, g.recs.length = 1 ∧ 0 ≤ (blocked (.release 0)).devTime) := by decide

/-- O55: a group that waits for a handler of its context, whose slots are free. -/
theorem test_meets_handler_start :
    let k : Kernel := { probeKernel 0x20000#64 with handler := true, acc := 0, tags := 0, queues := 0, shapes := 0, stack := 0 }
    let s := ({ handler with groups := handler.groups.take 1 } : State).modCtx 0 fun c =>
      { c with trapVec := 0x20000#64, objs := [⟨0, 0, 0, [], 0, [k], [], 0, []⟩] }
    ∃ g ∈ s.groups[0]?, ∃ c ∈ s.contexts[g.ctx]?, g.trap.isSome = true ∧ ((s.core g.core).handlers.findIdx? fun h => h == none) = some 0 ∧
      s.waitsHandler 0 g = true ∧ s.firstInLine 0 g = true ∧ g.work = [] ∧ g.loop = none ∧ c.stat = .live := by decide

/-- O55: submissions with and without a destination, whose earlier accesses are performed; a record at a misaligned address. -/
theorem test_meets_submission :
    let s := readyG fun g => { g with submit := [⟨0x20004#64, 1, 1, none, 0, [0], 1⟩, ⟨0x20000#64, 1, 1, some 5, 0, [0], 2⟩] }
    ∃ g ∈ s.groups[0]?, ∃ c ∈ s.contexts[0]?, ∃ t ∈ s.teams[0]?, c.ending = false ∧ g.earlierDone fenceRel 4 (s.pairedTeam t) 1 = true ∧
      s.entriesHeld 0 < c.quota ∧ (0x20004#64).toNat % 64 ≠ 0 := by decide

/-- O55: a group that waits on an empty queue whose producer end it holds itself. -/
theorem test_meets_wait_cycle :
    ((blocked (.qEntry 0)).modTeam 0 fun t => { t with queues := t.queues.set 0 { Queue.empty with prod := .group 0 } }).cycleVictim 0 = some 0 := by decide

/-- O56: fetches of a mapped line, of an unmapped one and of a line outside the bounds; a walk that ends in a leaf. -/
theorem test_meets_fetch_events :
    let s := lineOn 0#8 0x10000#64
    ∃ g ∈ s.groups[0]?, ∃ c ∈ s.contexts[0]?, g.stat = .live ∧ (g.pick.map fun p => p.1) = some 0x10000#64 ∧
      c.lineBound 0x10000#64 = true ∧ s.codeWalk c (lineOf 0x10000#64) = some (0x50008, 0x6004F, 0x60000) ∧ lineFetched 0x6004F = true ∧
      (ready.fetchWalk c (lineOf 0x10000#64)).2 = none ∧ ({ c with bounded := true } : Context).lineBound 0x10000#64 = false ∧
      s.walk c.root 0x10000 = .leaf 0x50008 0x6004F 16 ∧ pteGrants 0x6004F .read = true := by decide

/-- O56: lines ahead that the TLBs reach and that they do not, and one that is not ahead; a copy that is upset and none. -/
theorem test_meets_speculative_fetch :
    let s := lineOn 0#8 0x10000#64
    let t := (s.fillTlb 0 0 0x10000).modCore 0 fun c => { c with trace := [⟨0, 0x60000, false, true⟩] }
    ∃ g ∈ s.groups[0]?, ∃ c ∈ s.contexts[0]?, g.headPc = some 0x10000#64 ∧
      (lineOf 0x10040#64 ∈ s.prefetchLines g c 0x10000#64 ∧ lineOf 0x20000#64 ∉ s.prefetchLines g c 0x10000#64) ∧
      (lineOf 0x10040#64 ∈ t.prefetchLines g c 0x10000#64 ∧ t.tlbHolds 0 0 (lineOf 0x10040#64) = true ∧
        c.lineBound (BitVec.ofNat 64 (lineOf 0x10040#64)) = true ∧ (t.codeWalk c (lineOf 0x10040#64)).map (fun w => w.2.2) = some 0x60040) ∧
      s.tlbHolds 0 0 (lineOf 0x10040#64) = false ∧ ((s.core 0).copyOf 0 0x60000 false).map TraceEnt.upset = none ∧
      ((t.core 0).copyOf 0 0x60000 false).map TraceEnt.upset = some true ∧ sparseWf [] 0 t.tlb = true := by decide

/-- O56: a fetch of an anonymous page that the Skimmer can serve. -/
theorem test_meets_anonymous_fetch :
    let s : State := { lineOn 0#8 0x10000#64 with
      pool := 1, nextFrame := 6,
      mem := [(0x10000, 1#8), (0x10002, 2#8), (0x20000, 1#8), (0x20002, 3#8), (0x30000, 1#8), (0x30002, 4#8), (0x40000, 1#8), (0x40002, 5#8),
        (0x50008, 8#8), (0x50009, 1#8)] }
    ∃ c ∈ s.contexts[0]?, s.walk c.root 0x10000 = .anon 0x50008 ∧
      ((s.skim 0x50008).bind fun t => (t.codeWalk c 0x10000).map fun w => w.2.2) = some 0x60000 := by decide

/-- O56: a record of the first touch of a page, and one past its budget. -/
theorem test_meets_faults :
    let r : FaultRec := ⟨0x20000#64, 0x10000#64, 0#32, 0#32, 1, 0, 0, 0, 0#32, .group 0, 0, false⟩
    let s := ({ ready with now := 10000001 } : State).modCtx 0 fun c => { c with faults := [r] }
    ∃ c ∈ s.contexts[0]?, c.faults = [r] ∧ c.stat = .live ∧ s.stopStatus 0 r ≠ "peer lost" ∧ s.recTeam r = some 0 ∧
      r.since + c.faultBudget * 1000 < s.now ∧ 10000000 ≤ r.since + c.faultBudget * 1000 := by decide

/-- A team ready to be placed on an empty device. -/
def readyTeam (f : Team → Team) : State :=
  { ready with teams := [f { Team.fresh 0 0 0 with stat := .ready }], groups := [], issuer := none }

/-- O57: a team to place on the first core, one to retire, one to evict, resume, migrate or cut, at their points. -/
theorem test_meets_team_events :
    (∃ t ∈ (readyTeam id).teams[0]?, ∃ k ∈ (readyTeam id).tasks[t.task]?, (readyTeam id).nextPlacement = some 0 ∧
      (readyTeam id).admits 0 k.kern 0 = true ∧ ((readyTeam id).layout k.kern 0).isSome = true ∧ (readyTeam id).admits 0 k.kern 2047 = true) ∧
    (∃ t ∈ ((readyTeam id).modTeam 0 fun t => { t with stat := .evicted }).teams[0]?, ∃ k ∈ (readyTeam id).kernelOf t,
      ((readyTeam id).modTeam 0 fun t => { t with stat := .evicted }).takesBack t k 1 = true ∧ (readyTeam id).outranked t = false) := by decide

/-- O57. -/
theorem test_meets_team_ends :
    (∃ t ∈ (readyG fun g => { g with stat := .ended, recs := [] }).teams[0]?, (readyG fun g => { g with stat := .ended, recs := [] }).canRetire t = true) ∧
    (∃ t ∈ ((blocked .yield).modTeam 0 fun t => { t with preempt := true, cut := some 0 }).teams[0]?, t.stat = .running ∧ t.preempt = true ∧
      (blocked .yield).atPoints t = true ∧ (blocked .yield).canCut t = true ∧ (blocked .yield).ctxLive t.ctx = true ∧ t.atomic = false ∧
      ((blocked .yield).kernelOf t).isSome = true ∧ (∀ g ∈ (blocked .yield).groupsOf t, g.oplog = []) ∧ (∃ g ∈ (blocked .yield).groupsOf t, g.stat ≠ .ended)) ∧
    (∃ t ∈ (ready.modTeam 0 fun t => { t with stat := .retired, versions := [⟨2, 9, false⟩] }).teams[0]?, t.stat = .retired ∧
      (t.versions.find? fun v => v.tile == 2) = some ⟨2, 9, false⟩ ∧ ready.earlierCommitted t 2 = true ∧
      (ready.contexts[t.ctx]?).map (fun c => c.ending) = some false) := by decide

/-- O58: cores 0 and 2047, clusters 0 and 127, frequencies at the ends of the range and outside. -/
theorem test_meets_power_events : sparseWf 0 0 ready.calendar = true ∧ sparseWf Core.reset 0 ready.cores = true ∧
    sparseWf Island.reset 0 ready.islands = true ∧ (400 ≤ 400 ∧ 400 % 25 = 0 ∧ 1000 ≤ 1000 ∧ 1000 % 25 = 0) ∧ ¬(400 ≤ 399) ∧
    coreCluster 2047 = 127 ∧
    (let x : Island := { Island.reset with target := 400 }
     x.hop = none ∧ x.target ≠ x.mhz ∧ x.target ≤ x.safe) ∧ (let x : Island := { Island.reset with target := 1000 }; x.safe < x.target) ∧
    (let x : Island := { Island.reset with hop := some 400 }; x.hop = some 400 ∧ x.since ≤ ready.now) ∧
    ({ Island.reset with since := 0 } : Island).ckAt 7 = ({ Island.reset with since := 0 } : Island).ckAt 6 + 1 := by decide

/-- A slot of the request ring: KIND, SEQ, context, and 16 bytes of payload from offset 16. -/
def request (kind seq ci arg : Nat) : State :=
  { ready with reqTail := 1#64, reqRing := spSetAll 0#8 [] ((upto 0 24).zip (leBytes 24 (kind + seq * 2 ^ 32 + ci * 2 ^ 64 + arg * 2 ^ 128))) }

/-- O59: a request of each KIND at the head of the ring, KIND 0 and 9 among them, on a context and on none; quotas within 16384 and past. -/
theorem test_meets_requests : (∀ kind ∈ [0, 1, 2, 3, 4, 5, 6, 7, 8, 9],
      (request kind 7 0 0x20000).booted = true ∧ (request kind 7 0 0x20000).reqIs kind 7#32 = true ∧ (request kind 7 0 0x20000).reqField 8 4 = 0 ∧
      (request kind 7 0 0x20000).ctxBusy 0 = false ∧ (request kind 7 0 0x20000).liveCtx 0 = true) ∧
    (request 3 7 0 0x20000).reqField 16 8 = 0x20000 ∧ (request 2 7 1 0).liveCtx 1 = false ∧ createOk 7 [0, 3] 0x10000 = true ∧
    ready.quotas + 12288 ≤ 16384 ∧ 16384 < ready.quotas + 12289 ∧ ready.entriesHeld 0 < 4096 ∧ (readyTeam id).ctxGroups 0 = [] ∧
    State.reset.booted = false ∧ ((2#64).getLsbD 1 = true) := by decide

/-- O59: killing, attestation at the ends of its counter, checkpoints, debug acts, peers. -/
theorem test_meets_device_requests :
    (∃ c ∈ ({ ready with now := 1000000 }.modCtx 0 fun c => { c with kill := some (7#32, 0) }).contexts[0]?, c.kill = some (7#32, 0)) ∧
    2 ^ 20 - 1 < 2 ^ 20 ∧ (readyTeam id).runningTeams 0 = [] ∧
    (ready.homeOf 0 (va56 0x10000#64) = none ∧ (lineOn 1#8 0x10000#64).homeOf 0 (va56 0x10000#64) = some 0x60000) ∧
    ready.workRuns 0 = false ∧ (readyG fun g => { g with work := [⟨1, 0, 1, [], [], [], 0, true, 0⟩] }).workRuns 0 = true ∧ linkBase - 4 < linkBase ∧ (linkBase - 4) % 4 = 0 ∧ 3 ≤ 3 ∧ 2 < 3 := by decide

/-- A Pail at its first instruction, with data-store bytes and a team's queues. -/
def pail (storer : Bool) (x : Sparse Word) (q : Queue) : State :=
  { ready with
    teams := [{ probeTeam 0 0 0 [0] [0] with queues := List.replicate 16 q }],
    pails := [{ Pail.start 0 0 0 0 storer ⟨[], [], 0⟩ with x := x }], issuer := some (.pail 0) }

/-- O60: a loader and a storer, addresses at both ends of the data store and outside, queues with and without an entry. -/
theorem test_meets_pails :
    (∃ i ∈ (pail false [(10, 0x10000#32), (11, 0x11FFC#32)] Queue.empty).pailIss, i.p.storer = false ∧
      (i.pqEnd 15 false).map (fun e => e.2.room 1) = some true ∧ i.pqEnd 0 true = none ∧ i.kern.queues = 16 ∧ i.p.row = [] ∧
      0x10000 ≤ (i.p.reg 10).toNat ∧ (i.p.reg 11).toNat + 4 ≤ 0x12000 ∧ (i.p.reg 11).toNat % 4 = 0 ∧
      (i.p.reg 10).toNat + 4 * i.kern.width ≤ 0x12000 ∧ i.kern.width ≤ 64 ∧ (i.t.queues[i.queueIx 15]?).isSome = true) ∧
    (∃ i ∈ ({ pail true [(10, 0x10000#32)] { Queue.empty with entries := [List.replicate 64 7#32] } with now := 1 }).pailIss,
      (i.pqEnd 0 true).map (fun e => e.2.head 1) = some (some (List.replicate 64 7#32)) ∧ i.pqEnd 0 false = none ∧ sparseWf 0#8 0 i.p.dstore = true) ∧
    (∃ i ∈ (pail true [] Queue.empty).pailIss, (i.pqEnd 0 true).map (fun e => e.2.head 1) = some none) ∧
    sparseWf 0#32 0 [((10 : Nat), 0x10000#32)] = true ∧ (0x5FFFF#32).toNat % 2 ≠ 0 ∧ 0x60000 ≤ (0x60000#32).toNat := by decide

/-- O60: an access through PQHI and PQBND that has a frame. -/
theorem test_meets_pail_memory :
    let s : State := { pail true [(10, 0x80010000#32)] Queue.empty with
      mem := (lineOn 1#8 0x10000#64).mem, units := (lineOn 1#8 0x10000#64).units }
    ∃ i ∈ s.pailIss, ∃ c ∈ s.contexts[i.p.ctx]?, i.target c permR (i.p.reg 10) 4 = some (.glob 0x10000) ∧ i.target c permW (i.p.reg 10) 4 = some (.glob 0x10000) ∧
      (s.access i.p.ctx (some i.p.team) 0x10000 .read true).1 = .ok 0x60000 ∧ (s.access i.p.ctx (some i.p.team) 0x10000 .write true).1 = .ok 0x60000 ∧
      s.takenMeets i.p.ctx i.p.core 0x10000 4 = false ∧
      State.isDevice ((s.access i.p.ctx (some i.p.team) 0x10000 .read true).2.fillTlb i.p.core i.p.ctx 0x10000) c.root 0x10000 = false := by decide

/-! Further clauses: edges, second arms and negated conditions -/

/-- O19, O21 and O22 with no guarded position. -/
theorem test_meets_nothing_guarded : ∃ i ∈ ready.iss { kp with guard := 1 }, i.on = [] ∧ i.onByAge = [] ∧ i.g.sound = true ∧ i.g.serves = none ∧
    i.check [dstT .f32 (.s 20), pairN (.s 4)] = .ok () ∧ i.check (atomNeeds .add .i64 (.v 20) (.v 2) (.v 6) .zr) = .ok () ∧
    i.check [pairN (.s 2), pairN (.s 4), ⟨.s 12, [.v, .s, .zr], 1, 1⟩] = .ok () := by decide

/-- O26: an arrival whose accesses are not performed, and a team of which no group is left. -/
theorem test_meets_held_arrivals :
    (let s := readyG fun g => { g with storeq := [.chip 5 1 [(⟨0, .spad, 0x1000⟩, 5#8)] 0 1] }
     ∃ h ∈ (⟨7#32, [0], [(0, 1, 2)]⟩ : Barrier).held, ∃ g ∈ s.liveGroups 0, g.g = h.1 ∧ g.earlierDone fenceRel h.2.1 false h.2.2 = false) ∧
    (readyG fun g => { g with stat := .ended, recs := [] }).liveGroups 0 = [] := by decide

/-- O28: a task that has committed and still stands, one that waits on the waiter, and the tick that follows. -/
theorem test_meets_task_answers :
    (let s := ({ ready with tasks := ready.tasks ++ [{ probeTask 0 (probeKernel 0x10000#64) with serial := 1, committed := true }] }.modCtx 0 fun c =>
       { c with serial := 2 })
     s.taskIndex 0 1 = some 1 ∧ s.waitsOn 0 2 1 = false ∧ s.taskCommitted 0 1 = true ∧ serialAhead 1 2 = false) ∧
    (let tk (n : Nat) (w : Bool) : Task := { probeTask 0 (probeKernel 0x10000#64) with serial := n, ranges := [⟨w, 2, 1, false, false, 0⟩] }
     let s : State := { ready with tasks := [tk 0 true, tk 1 false], teams := ready.teams ++ [{ Team.fresh 0 1 0 with stat := .ready }] }.modCtx 0 fun c =>
       { c with serial := 2 }
     s.taskIndex 0 1 = some 1 ∧ s.waitsOn 0 2 1 = true ∧ ∃ i ∈ s.iss kp, ∃ m ∈ s.otherTasks i, s.waitsOn i.t.task (m + 1) m = true) ∧
    (let s := { ready with stepCfg := 0x400000#32 }
     ∀ n ∈ [1], s.devTime + s.ckRest 0 < n * stepPeriod s.stepCfg + stepOffset s.stepCfg ∧
       ∀ m < n, m * stepPeriod s.stepCfg + stepOffset s.stepCfg ≤ s.devTime + s.ckRest 0) := by decide

/-- O35: trap registers that another group wrote in this ck and before it, and that the trapping group wrote itself. -/
theorem test_meets_trap_registers : ∃ g ∈ handler.groups[0]?,
    ((handler.island (coreCluster g.core)).ckAt 0 = handler.groupCk g ∧ (1 : Nat) ≠ 0) ∧
    ((({ handler with now := 9 } : State).island (coreCluster g.core)).ckAt 0 ≠ ({ handler with now := 9 } : State).groupCk g) := by decide

/-- O37: an edited state for each refusal code, and one record of one position whose step is 0. -/
theorem test_meets_tret_codes :
    let g : Group := group
    let two : List Rec := g.recs.map (fun r => { r with n := 16 }) ++ g.recs.map fun r => { r with b := 16, n := 16 }
    (two.Pairwise fun r q => ∀ p ∈ r.positions, p ∉ q.positions) ∧
    (¬(g.recs ++ g.recs).Pairwise fun r q => ∀ p ∈ r.positions, p ∉ q.positions) ∧
    (∃ p ∈ allPositions (g.recs.map fun r => { r with b := 1 }), g.width ≤ p) ∧
    (∃ r ∈ g.recs.map fun r => { r with s := 0 }, r.lane = false ∧ ¬(r.n = 1 ∨ 1 < r.n ∧ r.s ≠ 0 ∧ r.s < g.width)) ∧
    (∀ r ∈ g.recs.map fun r => { r with s := 0, n := 1 }, r.n = 1 ∨ 1 < r.n ∧ r.s ≠ 0 ∧ r.s < g.width) ∧
    (∃ r ∈ g.recs.map fun r => { r with pc := 0x1003C#64 }, r.pc.toNat % 64 ∉ [0, 12, 24, 36, 48]) ∧
    (∃ r ∈ g.recs.map fun r => { r with lane := true }, ∃ e ∈ r.forms, e.2.cls = .a) ∧
    (∃ r ∈ g.recs.map fun r => r.setForm 5 ⟨.l, 0#32, 0#32⟩, ∃ e ∈ r.forms, r.lane = false ∧ e.2.cls = .l) := by decide

/-- O46 and O47: compressed Pail words; two words of one instruction. -/
theorem test_meets_compressed_words :
    decodeC 0x0001#16 = some (.pailInstruction (.opImm .add 0 0 0) true) ∧ decodeC 0x4505#16 = some (.pailInstruction (.opImm .add 10 0 1) true) ∧
    (Instr.pailInstruction (.opImm .add 10 0 1) true).wf = true ∧ encode (.pailInstruction (.opImm .add 10 0 1) true) = some (.half 0x4505#16) ∧
    decodeC 0x852E#16 = some (.pailInstruction (.op .add 10 0 11) true) ∧ decodeC 0x0000#16 = none ∧
    (Instr.pailInstruction (.opImm .add 10 0 0x800) true).wf = false := by decide

/-- O52: a time lock that sets device time back. -/
theorem test_meets_time_lock : ({ ready with devTime := 9, issuer := none, agenda := [.event (.deviceTimeLock (some 4))] } : State).agenda =
      .event (.deviceTimeLock (some 4)) :: [] ∧
    (match step ({ ready with devTime := 9, issuer := none, agenda := [.event (.deviceTimeLock (some 4))] } : State) with
      | .next t => t.devTime
      | _ => 9) = 4 := by decide

/-- O54: remote loads inside and outside every footprint, a command that has landed, and the outcomes of a loop. -/
theorem test_meets_more_memory_events :
    (ready.remotePlace 0 0 0 4 = some ⟨0, .spad, 0⟩ ∧ ready.remotePlace 0 1 0 4 = none ∧ ready.remotePlace 0 0 0xFFFF 4 = none) ∧
    (let l : Slot := { slot 1 .copy none with landed := some 0, elems := [{ mkElem [] 0x00FF000000001000#64 4 0#128 with st := .done }] }
     ∃ i ∈ ({ readyG fun g => { g with oplog := [l] } with now := 5 } : State).view 0, (i.g.oplog.filter fun m => m.num == 0) = [l] ∧ l.isCommand = true ∧ 0 < i.now) ∧
    ((f32Val 0x7F800000#32).finite = false) ∧
    ((f32Val 0x3F800000#32).finite = true ∧ ((f32Val 0x7FC00000#32).isNan = true ∨ (f32Val 0#32).lt (f32Val 0x3F800000#32) = true) ∧
      (f32Val 0x3F000000#32).lt (f32Val 0x3F800000#32) = true ∧ (f32Val 0x40000000#32).lt (f32Val 0x3F800000#32) = false) ∧
    (∃ g ∈ (blocked .loopEnd).groups[0]?, (g.recs.findIdx? fun r => (r.wait.map Wait.cond) == some .loopEnd) = some 0) ∧
    ((⟨0#32, 0, 0, 2, 1, 0, 1⟩ : Mls).iterated 0x3F800000#32).rise = 0 ∧ ((⟨0#32, 0, 4, 2, 1, 0, 1⟩ : Mls).iterated 0x3F800000#32).rise = 3 ∧
    ((⟨0#32, 0, 4, 2, 1, 0, 1⟩ : Mls).iterated 0x3F800000#32).count = 5 := by decide

/-- O54: the access of an element that has no frame, and one of a gather that is older than none. -/
theorem test_meets_faulting_access :
    let l := slot 1 .gather none
    let x := mkElem [0] 0x10000#64 4 0#128
    ∃ i ∈ (readyG fun g => { g with oplog := [l] }).view 0, (readyG fun g => { g with oplog := [l] }).mayBegin i l x = true ∧ i.isGlobal x.va = true ∧
      l.acc = .read ∧ ((readyG fun g => { g with oplog := [l] }).access i.ci i.g.accTeam (va56 x.va) l.acc l.wordOp).1 = .fault .notPresent "unmapped access" := by decide

/-- O55: a wait whose flag falls later, one that holds its value in a latch, and one that goes over its instruction again. -/
theorem test_meets_wakes : (Cond.release 0).late = true ∧ (Cond.count 0 0#32).late = false ∧
    (let w : Wait := ⟨.release 0, true, 1, 1, some 5, 7#32, 1, 2, [0, 31]⟩
     sparseWf none 0 group.latches = true ∧ w.hold ≠ 0 ∧ 31 ∈ w.ps ∧ w.again = true ∧ w.dst = some 5) := by decide

/-- O56: a page of which the resident kernel holds the contents, one that it maps anonymously, and records that it cannot serve. -/
theorem test_meets_held_pages :
    let s := lineOn 1#8 0x10000#64
    (∃ c ∈ s.contexts[0]?, s.homeOf 0 0x10000 = some 0x60000 ∧ 0x60000 < memTop ∧
      s.resolvable { c with heldPages := [(3, some 9)] } 3 = true ∧ s.resolvable c 3 = false ∧ s.resolvable c 1 = false ∧ s.resolvable c creameryTile = false) ∧
    ∀ r ∈ [(⟨0x20000#64, 0x10000#64, 0#32, 0#32, 1, 0, 0, 0, 0#32, .group 0, 0, false⟩ : FaultRec)], s.ownerTeam r = some 0 ∧ r.kind = 1 ∧
      s.now ≤ r.since + 10000 * 1000 := by decide

/-- O57: a running team whose groups have all ended is not evicted; nothing outranks the only team of a device. -/
theorem test_meets_eviction_limits :
    (∃ t ∈ ready.teams[0]?, ready.evictable t = true ∧ ready.higherReady t = false) ∧
    (∃ t ∈ (readyG fun g => { g with stat := .ended, recs := [] }).teams[0]?,
      (readyG fun g => { g with stat := .ended, recs := [] }).evictable t = false ∧
      ∀ g ∈ (readyG fun g => { g with stat := .ended, recs := [] }).groupsOf t, g.stat = .ended) ∧
    (ready.modCore 0 fun c => { c with fwd := [⟨0, 0, 0, 0, 16, [3]⟩] } : State).ctxLive 0 = true := by decide

/-- O58: a core at 88, 89 and 95 degrees, a hop up while a lower target is asked for, and cores that have rested. -/
theorem test_meets_heat : ¬88 < 88 ∧ 88 < 89 ∧ ¬95 ≤ 94 ∧ 95 ≤ 95 ∧
    (let x : Island := { Island.reset with hop := some 1000, safe := 1000, target := 500 }
     x.mhz ≤ x.safe ∧ ∀ f, x.hop = some f → f ≤ x.safe) ∧
    (let s := { ready with now := 60000000 }.modCore 5 fun c => { c with avoided := true, lastHot := 10000000, droops := [10000000] }
     (s.core 5).avoided = true ∧ (s.core 5).hot = false ∧ (s.core 5).lastHot + 50000000 ≤ s.now ∧ ∀ d ∈ (s.core 5).droops, d + 50000000 ≤ s.now) := by decide

/-- O59: windows over a mapped page and beyond their end; none; peers that answer and that do not; a context of a snapshot. -/
theorem test_meets_windows_and_peers :
    (let s := { lineOn 1#8 0x10000#64 with hostWins := [⟨some 0, 0x10000, 64⟩, ⟨none, 0x2000, 16⟩] }
     (s.windowSpan ⟨some 0, 0x10000, 64⟩ 60 4).map List.length = some 4 ∧ s.windowSpan ⟨some 0, 0x10000, 64⟩ 61 4 = none ∧
       (s.windowSpan ⟨none, 0x2000, 16⟩ 0 16).isSome = true ∧ s.hostWins[2]? = none) ∧
    sparseWf none 0 [((3 : Nat), some (⟨7, false, 0, 0⟩ : Peer))] = true ∧
    (∀ p ∈ [(⟨7, false, 3, 0⟩ : Peer)], (if p.missed ≠ 0 ∧ 5 < p.since + 1000000000 then p.missed + 1 else 1) = 4 ∧
      (if p.missed ≠ 0 ∧ 1000000000 < p.since + 1000000000 then p.missed + 1 else 1) < 4 ∧ ¬(p.lost = true ∧ p.missed = 4)) ∧
    (⟨7, true, 4, 0⟩ : Peer).lost = true ∧ ready.liveCtx 0 = true ∧ memTop - 16 + 16 ≤ memTop ∧ (memTop - 16) % 16 = 0 ∧ 8 = 4 * tyWords .i64 := by decide

/-- O59: a checkpoint before its copies, with a team on its core and none, and after them; acts on a frozen and a running group. -/
theorem test_meets_checkpoints :
    ready.runningTeams 0 = [0] ∧ (readyTeam id).runningTeams 0 = [] ∧ (∀ t ∈ (readyTeam id).teams, t.ctx = 0 → (readyTeam id).canResume t = false) ∧
    (∃ t ∈ ((readyTeam id).modTeam 0 fun t => { t with stat := .evicted }).teams, t.ctx = 0 ∧
      ((readyTeam id).modTeam 0 fun t => { t with stat := .evicted }).canResume t = true) ∧
    (∃ g ∈ handler.groups[0]?, g.ctx = 0 ∧ g.stat = .frozen) ∧
    (∀ g ∈ ready.groups, g.ctx = 0 → g.stat ≠ .frozen ∧ (g.stat = .live → (ready.contexts[0]?).map Context.stat ≠ some .stopped)) ∧
    State.reset.winState.getLsbD 1 = false := by decide

/-- An atomic float addition: 1 + 2 is 3 (R232, R190). -/
theorem test_fadd_is_float_addition : atomNew .fadd .f32 0x3F800000#64 0x40000000#64 0#64 = 0x40400000#64 := by decide

/-! One step each; the expected results are the manual's worked examples, or worked by hand from its tables -/

/-- The state after an instruction. -/
def out (x : Instr) (s : State) : State :=
  match exec x s with
  | .next t => t
  | _ => State.reset

/-- The first group of a state. -/
def g0 (s : State) : Group := (s.groups[0]?).getD group

/-- Register n at position p, landed or in flight. -/
def vOut (s : State) (n p : Nat) : Word :=
  (((g0 s).wb.flatMap Inflight.ws).findSome? fun w =>
    match w with
    | .v r vs _ => if r = n then (vs.find? fun v => v.1 == p).map fun v => v.2 else none
    | _ => none).getD ((g0 s).vAt n p)

/-- An affine sum stays a form (R120): 5 + (3 + 2k). -/
theorem test_add_affine : vOut (out (.add kp .i32 (.v 20) (.v 0) (.v 1)) ready) 20 31 = 70#32 ∧
    ((g0 (out (.add kp .i32 (.v 20) (.v 0) (.v 1)) ready)).recs.map fun r => r.form 20) = [⟨.a, 8#32, 2#32⟩] := by decide

/-- A 64-bit sum carries into its high word (R131). -/
theorem test_add_carry : vOut (out (.addI kp .i64 (.v 20) (.v 6) 0xFFFFFFFFF) ready) 21 0 = 1#32 ∧
    vOut (out (.addI kp .i64 (.v 20) (.v 6) 0xFFFFFFFFF) ready) 20 0 = 0#32 := by decide

/-- Division by zero gives all ones, its remainder the dividend (R132). -/
theorem test_div_by_zero : vOut (out (.div kp .i32 (.v 20) (.v 0) .zr) ready) 20 0 = 0xFFFFFFFF#32 ∧
    vOut (out (.rem kp .i32 (.v 20) (.v 0) .zr) ready) 20 0 = 5#32 := by decide

/-- A destination that is also a source reads its old value. -/
theorem test_sub_same_register : vOut (out (.sub kp .n32 (.v 1) (.v 1) (.v 0)) ready) 1 0 = 0xFFFFFFFE#32 := by decide

/-- Shift counts are taken modulo the width. -/
theorem test_shift_count : vOut (out (.shlI kp .b32 (.v 20) (.v 0) 33) ready) 20 0 = 10#32 := by decide

/-- The table of R196. -/
theorem test_f2i_table : ([Rm.rne, .rz, .ru, .rd].map fun rm => (f2iSpec .i32 .f32 rm [0xC0200000#64] 1#32).1) =
      [0xFFFFFFFE#64, 0xFFFFFFFE#64, 0xFFFFFFFE#64, 0xFFFFFFFD#64] ∧
    vOut (out (.f2i kp .i32 .f32 .ru (.v 20) (.v 7)) (readyG fun g => { g with recs := g.recs.map fun r => r.setForm 7 ⟨.u, 0x40600000#32, 0#32⟩ })) 20 0 = 4#32 ∧
    vOut (out (.f2i kp .i32 .f32 .rne (.v 20) (.v 7)) (readyG fun g => { g with recs := g.recs.map fun r => r.setForm 7 ⟨.u, 0x4F32D05E#32, 0#32⟩ })) 20 0 =
      0x7FFFFFFF#32 := by decide

/-- The worked example of R168 to R174: four positions draw in turn. -/
theorem test_stochastic_rounding :
    let s := out (.fcvt kp .bf16 .f32 .sr false (.v 20) (.v 7)) (readyG fun g => { g with recs := g.recs.map fun r => { r.setForm 7 ⟨.u, 0x3F80C000#32, 0#32⟩ with n := 4 } })
    [0, 1, 2, 3].map (vOut s 20) = [0x3F81#32, 0x3F80#32, 0x3F81#32, 0x3F81#32] ∧ (g0 s).sr = 0xB02C0003#32 := by decide

/-- The worked example of R177. -/
theorem test_accumulate : accumulate 0x3F800000#32 (List.replicate 8 (.fin false 1 (2 ^ 24))) = 0x3F800004#32 := by decide

/-- The worked example of R200, both ways. -/
theorem test_planes :
    let s := out (.plsplit kp .e3m2 (.v 20) (.v 8)) (readyG fun g => { g with recs := g.recs.map fun r => (r.setForm 8 ⟨.u, 0#32, 0#32⟩).setForm 9 ⟨.u, 0x2E00#32, 0#32⟩ })
    vOut s 20 0 = 0x00B00000#32 ∧ vOut s 21 0 = 0x0800#32 ∧ pljoinSpec [0x00B00000#64, 0x0800#64] = 0x00002E0000000000#64 := by decide

/-- The worked example of R164 to R166. -/
theorem test_block_scale : blockScale 0x3F000000#32 0x3F = 0x3E000000#32 ∧ blockScale 0x3F000000#32 0xFF = 0x3F000000#32 := by decide

/-- The worked example of R295. -/
theorem test_kq4_codes : kq4Code (.fin false 24 100) = 0xA ∧ kq4Code (.fin false 87 1024) = 0x8 ∧ kq4Code (.fin true 16 10) = 0 := by decide

/-- The worked example of R293: the sum of a curd. -/
theorem test_rred_sum : rredOver 0 [0x3F800000#32, 0x40000000#32, 0x40800000#32] = 0x40E00000#32 ∧ rredOver 0 [] = 0#32 := by decide

/-- The worked example of R209. -/
theorem test_calendar : calendarWord 0x1480 = 0x00451480#32 := by decide

/-- The worked example of R146: outcomes of period 2 split a record in two. -/
theorem test_brx_splits :
    let w : List (Nat × Word) := [(20, 8#32), (21, 16#32), (22, 8#32), (23, 16#32)]
    let s := readyG fun g => { g with s := w, recs := g.recs.map fun r => { r.setForm 9 ⟨.a, 0#32, 1#32⟩ with n := 4 } }
    ((g0 (out (.brx kp (.v 9) (.s 20) 5) s)).recs.map fun r => (r.lane, r.b, r.s, r.n)) = [(false, 0, 2, 2), (false, 1, 2, 2)] := by decide

/-- A guard of period 4 splits a range record in four (R96, R97). -/
theorem test_bra_splits :
    let f (g : Group) : Group := { g with p := [(2, 0xCCCCCCCC#64)] }
    ((g0 (out (.bra { kp with guard := 2 } 100) (readyG f))).recs.map fun r => (r.lane, r.b, r.s, r.n)) =
      [(false, 0, 4, 8), (false, 1, 4, 8), (false, 2, 4, 8), (false, 3, 4, 8)] := by decide

/-- A misaligned load traps with its class and cause and freezes the group at the load (R202, R353). -/
theorem test_misaligned_trap : (((g0 (out (.ld kp .b32 (.v 20) (.v 2) ⟨2, 0, false⟩) ready)).trap.map fun t => (t.word, t.pc))) =
    some (0x04020000#32, 0x10000#64) ∧ (g0 (out (.ld kp .b32 (.v 20) (.v 2) ⟨2, 0, false⟩) ready)).stat = .frozen := by decide

/-- A store is queued and its bytes are written when it is performed (R302). -/
theorem test_store_performed :
    let s := { out (.st kp .i8 (.s 2) (.v 0) ⟨1, 0, false⟩) readyAt2 with now := 100 }
    spGet none (s.core 0).spad 0x1001 = none ∧ (spGet none ((out (.storePerformed 0) s).core 0).spad 0x1001).map (fun o => o.byte) = some 5#8 := by decide

/-- `lui` and `addi` of a Pail (R222). -/
theorem test_pail_lui : ((out (.pailInstruction (.lui 5 0x12345) false) (pail false [] Queue.empty)).pails.map fun p => (p.reg 5, p.pc)) =
    [(0x12345000#32, 4#32)] := by decide

end Sys2Proof.Tests
end

section
/-!
SUPPORT. What the operations of Machine/Pail.lean do: lists changed at one entry, rows of words of the data store,
the integer results of RV32IM against the RISC-V manual's, and one rule per instruction of a Pail; the statement O60.
-/

namespace Sys2Proof.Machine

/-! Lists changed at one entry -/

/-- The changed entry is the function of the old one. -/
@[simp] theorem getElem?_modAt_self {α : Type} (l : List α) (i : Nat) (f : α → α) : (modAt l i f)[i]? = l[i]?.map f := by
  cases h : l[i]? with
  | none => simp [modAt, h]
  | some a => obtain ⟨hi, rfl⟩ := List.getElem?_eq_some_iff.mp h; simp [modAt, hi]

/-- Two changes of one entry are one change. -/
theorem modAt_modAt {α : Type} (l : List α) (i : Nat) (f g : α → α) : modAt (modAt l i f) i g = modAt l i fun a => g (f a) := by
  cases h : l[i]? with
  | none => simp [modAt, h]
  | some a => obtain ⟨hi, rfl⟩ := List.getElem?_eq_some_iff.mp h; simp [modAt, hi]

/-- A change that keeps the entry keeps the list. -/
theorem modAt_id {α : Type} (l : List α) (i : Nat) : modAt l i (fun a => a) = l := by
  unfold modAt
  split
  · next h => obtain ⟨hi, rfl⟩ := List.getElem?_eq_some_iff.mp h; exact List.set_getElem_self hi
  · rfl

/-- Two changes of one Pail are one change. -/
theorem State.modPail_modPail (s : State) (pi : Nat) (f g : Pail → Pail) :
    (s.modPail pi f).modPail pi g = s.modPail pi fun p => g (f p) := by
  simp [State.modPail, modAt_modAt]

/-- A change that keeps the Pail keeps the state. -/
theorem State.modPail_id (s : State) (pi : Nat) : s.modPail pi (fun p => p) = s := by
  simp [State.modPail, modAt_id]

/-- A queue of a team. -/
def State.queueAt (s : State) (ti n : Nat) : Option Queue := (s.teams[ti]?).bind fun t => t.queues[n]?

/-- A changed queue is the function of the old one. -/
@[simp] theorem State.queueAt_modQueue (s : State) (ti n : Nat) (f : Queue → Queue) :
    (s.modQueue ti n f).queueAt ti n = (s.queueAt ti n).map f := by
  cases h : s.teams[ti]? <;> simp [State.queueAt, State.modQueue, h]

/-- A change of a Pail keeps every queue. -/
@[simp] theorem State.queueAt_modPail (s : State) (pi : Nat) (f : Pail → Pail) (ti n : Nat) :
    (s.modPail pi f).queueAt ti n = s.queueAt ti n := rfl

/-- The bytes of a value make the value, as far as they reach. -/
theorem leNat_leBytes (n x : Nat) : leNat (leBytes n x) = x % 256 ^ n := by
  induction n generalizing x with
  | zero => simp [leBytes, leNat, Nat.mod_one]
  | succ n ih =>
    have h8 : (BitVec.ofNat 8 (x % 256)).toNat = x % 256 := by simp
    rw [leBytes, leNat, ih, h8, pow_succ', Nat.mod_mul]

@[simp] theorem leBytes_length (n x : Nat) : (leBytes n x).length = n := by
  induction n generalizing x with
  | zero => rfl
  | succ n ih => simp [leBytes, ih]

@[simp] theorem upto_length (lo n : Nat) : (upto lo n).length = n := by simp [upto]

theorem mem_upto {lo n a : Nat} : a ∈ upto lo n ↔ lo ≤ a ∧ a < lo + n := by
  simp only [upto, List.mem_map, List.mem_range]
  exact ⟨by rintro ⟨k, hk, rfl⟩; omega, fun h => ⟨a - lo, by omega, by omega⟩⟩

/-- Ascending numbers differ. -/
theorem upto_pairwise_ne (lo n : Nat) : (upto lo n).Pairwise (· ≠ ·) :=
  List.pairwise_map.mpr (List.pairwise_lt_range.imp fun h => by omega)

/-! Several entries written to a sparse list -/

section
variable {α : Type} [DecidableEq α] {d : α}

/-- Several writes keep what stands under other keys. -/
theorem spGet_spSetAll_of_ne {m : Sparse α} {ws : List (Nat × α)} {k : Nat} (hm : sparseWf d 0 m = true)
    (hk : ∀ w ∈ ws, k ≠ w.1) : spGet d (spSetAll d m ws) k = spGet d m k := by
  induction ws generalizing m with
  | nil => rfl
  | cons w ws ih =>
    obtain ⟨hw, hws⟩ := List.forall_mem_cons.mp hk
    calc spGet d (spSetAll d (spSet d m w.1 w.2) ws) k
        = spGet d (spSet d m w.1 w.2) k := ih (spSet_wf m w.2 (Nat.zero_le _) hm) hws
      _ = spGet d m k := by rw [spGet_spSet hm, if_neg hw]

/-- Several writes under different keys leave each value under its key. -/
theorem spGet_spSetAll_of_mem {m : Sparse α} {ws : List (Nat × α)} (hm : sparseWf d 0 m = true)
    (hd : ws.Pairwise fun v w => v.1 ≠ w.1) {w : Nat × α} (hw : w ∈ ws) : spGet d (spSetAll d m ws) w.1 = w.2 := by
  induction ws generalizing m with
  | nil => simp at hw
  | cons v ws ih =>
    obtain ⟨hv, hd⟩ := List.pairwise_cons.mp hd
    have hm' := spSet_wf m v.2 (Nat.zero_le v.1) hm
    rcases List.mem_cons.mp hw with rfl | hw
    · calc spGet d (spSetAll d (spSet d m w.1 w.2) ws) w.1
          = spGet d (spSet d m w.1 w.2) w.1 := spGet_spSetAll_of_ne hm' hv
        _ = w.2 := by rw [spGet_spSet hm, if_pos rfl]
    · exact ih hm' hd hw

end

/-! Words of a Pail's data store -/

/-- The word that stands at an offset of a data store. -/
def dstoreWord (m : Sparse Byte) (o : Nat) : Word := w32 (leNat ((upto o 4).map (spGet 0#8 m)))

/-- The byte writes of words at offsets. -/
def wordBytes (ws : List (Nat × Word)) : List (Nat × Byte) := ws.flatMap fun w => (upto w.1 4).zip (leBytes 4 w.2.toNat)

/-- A list reads through a function as the values paired with its entries. -/
theorem map_eq_of_zip {α β : Type} {f : α → β} {l : List α} {bs : List β} (hl : l.length = bs.length)
    (h : ∀ p ∈ l.zip bs, f p.1 = p.2) : l.map f = bs :=
  calc l.map f = ((l.zip bs).map Prod.fst).map f := by rw [List.map_fst_zip hl.le]
    _ = (l.zip bs).map Prod.snd := by rw [List.map_map]; exact List.map_congr_left h
    _ = bs := List.map_snd_zip hl.ge

/-- Words written to places apart from one another write different bytes. -/
theorem wordBytes_pairwise {ws : List (Nat × Word)} (h : ws.Pairwise fun v w => v.1 + 4 ≤ w.1) :
    (wordBytes ws).Pairwise fun v w => v.1 ≠ w.1 := by
  refine List.pairwise_flatMap.mpr ⟨fun w _ => ?_, h.imp fun {v w} hvw a ha b hb => ?_⟩
  · refine List.pairwise_map.mp ?_
    rw [List.map_fst_zip (by simp)]
    exact upto_pairwise_ne _ _
  · have hav := mem_upto.mp (List.of_mem_zip ha).1
    have hbw := mem_upto.mp (List.of_mem_zip hb).1
    omega

/-- Of words written to places apart from one another, each stands at its place. -/
theorem dstoreWord_spSetAll {m : Sparse Byte} {ws : List (Nat × Word)} (hm : sparseWf 0#8 0 m = true)
    (hd : ws.Pairwise fun v w => v.1 + 4 ≤ w.1) {w : Nat × Word} (hw : w ∈ ws) :
    dstoreWord (spSetAll 0#8 m (wordBytes ws)) w.1 = w.2 := by
  have hbytes : (upto w.1 4).map (spGet 0#8 (spSetAll 0#8 m (wordBytes ws))) = leBytes 4 w.2.toNat :=
    map_eq_of_zip (by simp) fun p hp =>
      spGet_spSetAll_of_mem hm (wordBytes_pairwise hd) (List.mem_flatMap.mpr ⟨w, hw, hp⟩)
  rw [dstoreWord, hbytes, leNat_leBytes]
  exact BitVec.eq_of_toNat_eq (by simp [w32]; omega)

/-! Registers -/

theorem Pail.reg_zero (p : Pail) : p.reg 0#5 = 0#32 := rfl

@[simp] theorem Pail.setReg_zero (p : Pail) (v : Word) : p.setReg 0#5 v = p := rfl

/-- A register other than x0 reads what was written to it, and the others what they held. -/
theorem Pail.reg_setReg {p : Pail} {n : BitVec 5} (hn : n ≠ 0#5) (hx : sparseWf 0#32 0 p.x = true) (v : Word) (m : BitVec 5) :
    (p.setReg n v).reg m = if m = n then v else p.reg m := by
  by_cases hm : m = 0#5
  · subst hm; rw [if_neg hn.symm]; rfl
  · simp only [Pail.reg, Pail.setReg, if_neg hn, if_neg hm, spGet_spSet hx, BitVec.toNat_inj]

/-! The arithmetic of RV32IM -/

/-- The high word of a 64-bit product is that of the exact product. -/
theorem setWidth_ofInt_ushiftRight (z : Int) : ((BitVec.ofInt 64 z) >>> 32).setWidth 32 = BitVec.ofInt 32 (z / 2 ^ 32) := by
  refine BitVec.eq_of_toNat_eq ?_
  simp only [BitVec.toNat_setWidth, BitVec.toNat_ushiftRight, BitVec.toNat_ofInt, Nat.shiftRight_eq_div_pow]
  omega

theorem signExtend_eq_ofInt (a : Word) : a.signExtend 64 = BitVec.ofInt 64 a.toInt := rfl

theorem zeroExtend_eq_ofInt (a : Word) : a.zeroExtend 64 = BitVec.ofInt 64 (a.toNat : Int) := by
  rw [BitVec.ofInt_natCast, BitVec.ofNat_toNat]

/-- The model's arithmetic is the RISC-V manual's. -/
theorem rvAlu_eq_rvSpec (op : RvOp) (a b : Word) : rvAlu op a b = rvSpec op a b := by
  cases op with
  | add | sub | sll | xor | srl | or | and | divu | remu => rfl
  | slt => simp [rvAlu, rvSpec, BitVec.slt]
  | sltu => simp [rvAlu, rvSpec, BitVec.ult]
  | sra => simp [rvAlu, rvSpec, BitVec.sshiftRight, Int.shiftRight_eq_div_pow]
  | mul => simp [rvAlu, rvSpec, BitVec.ofNat_mul]
  | mulh | mulhsu | mulhu =>
    simp only [rvAlu, rvSpec, signExtend_eq_ofInt, zeroExtend_eq_ofInt, ← BitVec.ofInt_mul, setWidth_ofInt_ushiftRight]
  | div =>
    have h : BitVec.ofInt 32 (a.toInt.tdiv b.toInt) = a.sdiv b :=
      BitVec.eq_of_toInt_eq (by rw [BitVec.toInt_ofInt, BitVec.toInt_sdiv])
    simp only [rvAlu, rvSpec, h]
  | rem =>
    have h : BitVec.ofInt 32 (a.toInt.tmod b.toInt) = a.srem b := by rw [← BitVec.toInt_srem, BitVec.ofInt_toInt]
    simp only [rvAlu, rvSpec, h]

/-- A branch writes nothing and goes where its condition says. -/
theorem rvResult_branch (x : BitVec 5 → Word) (pc next : Word) (op : RvBr) (a b : BitVec 5) (off : Word) :
    rvResult x pc next (.branch op a b off) = some (0#5, 0#32, if rvTaken op (x a) (x b) then pc + off else next) := by
  unfold rvResult
  cases op with
  | eq | ne => simp [rvTaken]
  | lt | ge => simp [rvTaken, BitVec.slt]
  | ltu | geu => simp [rvTaken, BitVec.ult]

/-! Which instruction of a Pail does what -/

section
variable {s : State} {i : PIss}

/-- An instruction of the step's Pail answers its next state. -/
theorem State.onPail_next (hi : s.pailIss = some i) {f : PIss → State} {t : State} (h : f i = t) : s.onPail f = .next t := by
  simp [State.onPail, hi, h]

/-- A RISC-V instruction answers what its run makes. -/
theorem exec_pailInstruction (hi : s.pailIss = some i) {r : RvInstr} {short : Bool} {t : State} (h : s.pailRun i r short = t) :
    exec (.pailInstruction r short) s = .next t := State.onPail_next hi h

/-- An integer instruction writes the register and takes the pc that the RISC-V manual gives it. -/
theorem State.pailRun_of_rvResult {r : RvInstr} {short : Bool} {rd : BitVec 5} {v pc : Word}
    (h : rvResult i.p.reg i.p.pc (i.p.pc + if short then 2#32 else 4#32) r = some (rd, v, pc)) :
    s.pailRun i r short = s.pailDone i pc fun p => p.setReg rd v := by
  cases r with
  | lui | auipc | jal | jalr | fence => cases h; rfl
  | branch op a b off => rw [rvResult_branch] at h; cases h; rfl
  | opImm op rd rs1 imm => cases h; rw [← rvAlu_eq_rvSpec]; rfl
  | op op rd rs1 rs2 => cases h; rw [← rvAlu_eq_rvSpec]; rfl
  | load | store | csr => cases h

/-! The Pail address map -/

theorem rvSize_pos (wd : RvMem) : 0 < rvSize wd := by cases wd <;> decide

/-- An aligned access of the data store's window reaches the data store. -/
theorem PIss.target_data {c : Context} {perm : Nat} {a : Word} {size : Nat} (hal : a.toNat % size = 0)
    (hlo : 0x10000 ≤ a.toNat) (hhi : a.toNat + size ≤ 0x12000) :
    i.target c perm a size = some (.data (a.toNat - 0x10000)) := by
  simp [PIss.target, hal, hlo, hhi]

/-- A misaligned access and one outside the windows reach nothing. -/
theorem PIss.target_none {c : Context} {perm : Nat} {a : Word} {size : Nat} (hs : 0 < size)
    (h : a.toNat % size ≠ 0 ∨ a.toNat + size ≤ 0x10000 ∨ (0x60000 ≤ a.toNat ∧ a.toNat < 0x80000000)) :
    i.target c perm a size = none := by
  by_cases hal : a.toNat % size = 0
  · have hout := h.resolve_left (not_not_intro hal)
    have hdata : ¬(0x10000 ≤ a.toNat ∧ a.toNat + size ≤ 0x12000) := by omega
    have hfoot : ¬(0x20000 ≤ a.toNat ∧ a.toNat + size ≤ 0x60000) := by omega
    have hglob : ¬0x80000000 ≤ a.toNat := by omega
    simp only [PIss.target, hal, if_neg hdata, if_neg hfoot, if_neg hglob]
    rfl
  · simp [PIss.target, hal]

/-- A map that answers at every entry answers the list. -/
theorem mapM_eq_some_map {α β : Type} {f : α → Option β} {g : α → β} {l : List α} (h : ∀ a ∈ l, f a = some (g a)) :
    l.mapM f = some (l.map g) := by
  induction l with
  | nil => rfl
  | cons a l ih =>
    obtain ⟨ha, hl⟩ := List.forall_mem_cons.mp h
    simp [List.mapM_cons, ha, ih hl]

/-- The targets of a row of words that lies in the data store's window. -/
theorem PIss.rowTargets_data {c : Context} {perm : Nat} {a : Word} (hal : a.toNat % 4 = 0) (hlo : 0x10000 ≤ a.toNat)
    (hhi : a.toNat + 4 * i.kern.width ≤ 0x12000) :
    i.rowTargets c perm a = some ((List.range i.kern.width).map fun j => .data (a.toNat - 0x10000 + 4 * j)) := by
  refine mapM_eq_some_map fun j hj => ?_
  have hj := List.mem_range.mp hj
  have haddr : (a + w32 (4 * j)).toNat = a.toNat + 4 * j := by
    simp only [w32, BitVec.toNat_add, BitVec.toNat_ofNat]; omega
  rw [PIss.target_data (by omega) (by omega) (by omega), haddr, Nat.sub_add_comm hlo]

/-! One access of a Pail -/

/-- A read of the data store leaves the state. -/
theorem State.pailAccess_data_read {p : Pail} (hp : s.pails[i.pi]? = some p) (o size : Nat) (word : Bool) :
    s.pailAccess i (.data o) size none word = (.done (leNat ((upto o size).map (spGet 0#8 p.dstore))), s) := by
  simp [State.pailAccess, hp]

/-- A write of the data store changes its bytes. -/
theorem State.pailAccess_data_write (o size : Nat) (d : Word) (word : Bool) :
    s.pailAccess i (.data o) size (some d) word = (.done 0, s.modPail i.pi fun p =>
      { p with dstore := spSetAll 0#8 p.dstore ((upto o size).zip (leBytes size d.toNat)) }) := rfl

section
variable {c : Context} {va pa size : Nat} {word : Bool} {s0 : State} (hc : s.contexts[i.p.ctx]? = some c)
  (hdev : State.isDevice (s0.fillTlb i.p.core i.p.ctx va) c.root va = false)
include hc hdev

/-- A read of global memory that translates reads at its physical address. -/
theorem State.pailAccess_glob_read (hacc : s.access i.p.ctx (some i.p.team) va .read word = (.ok pa, s0)) :
    s.pailAccess i (.glob va) size none word =
      (.done ((s0.fillTlb i.p.core i.p.ctx va).pailRead i va pa size), s0.fillTlb i.p.core i.p.ctx va) := by
  simp [State.pailAccess, hc, hacc, hdev]

/-- A write of global memory that translates, and that no taken store delays, writes at its physical address. -/
theorem State.pailAccess_glob_write (htaken : s.takenMeets i.p.ctx i.p.core va size = false)
    (hacc : s.access i.p.ctx (some i.p.team) va .write word = (.ok pa, s0)) (d : Word) :
    s.pailAccess i (.glob va) size (some d) word =
      (.done 0, (s0.fillTlb i.p.core i.p.ctx va).writePa i.p.ctx pa size d.toNat) := by
  simp [State.pailAccess, hc, hacc, hdev, htaken]

end

/-! Loads and stores -/

section
variable {c : Context} {next a : Word} {wd : RvMem} (hc : s.contexts[i.p.ctx]? = some c)
include hc

/-- A load goes on with the value that its access reads. -/
theorem State.pailLoad_done {tgt : PTarget} {v : Nat} {s1 : State} {rd : BitVec 5}
    (ht : i.target c permR a (rvSize wd) = some tgt)
    (hacc : s.pailAccess i tgt (rvSize wd) none (wd == .w) = (.done v, s1)) :
    s.pailLoad i next wd rd a = s1.pailDone i next fun p => p.setReg rd (rvExtend wd v) := by
  simp [State.pailLoad, hc, ht, hacc]

/-- A store goes on once its access is performed. -/
theorem State.pailStore_done {tgt : PTarget} {v : Nat} {s1 : State} {data : Word}
    (ht : i.target c permW a (rvSize wd) = some tgt)
    (hacc : s.pailAccess i tgt (rvSize wd) (some data) (wd == .w) = (.done v, s1)) :
    s.pailStore i next wd a data = s1.pailDone i next id := by
  simp [State.pailStore, hc, ht, hacc]

/-- A load whose address reaches nothing stops the Pail. -/
theorem State.pailLoad_fault (rd : BitVec 5) (ht : i.target c permR a (rvSize wd) = none) :
    s.pailLoad i next wd rd a = s.haltPail i true := by
  simp [State.pailLoad, hc, ht]

/-- A store whose address reaches nothing stops the Pail. -/
theorem State.pailStore_fault (data : Word) (ht : i.target c permW a (rvSize wd) = none) :
    s.pailStore i next wd a data = s.haltPail i true := by
  simp [State.pailStore, hc, ht]

end

/-! CSRs -/

/-- A CSR instruction of a CSR that the Pail has. -/
theorem State.pailCsr_some {next v old : Word} {op : RvCsr} {rd : BitVec 5} {num : BitVec 12} (h : i.p.csrRead num = some old) :
    s.pailCsr i next op rd v num = s.pailDone i next fun p => (p.csrWrite num (csrNew op old v)).setReg rd old := by
  simp only [State.pailCsr, h]
  rfl

/-- A CSR instruction of pqhi. -/
theorem State.pailCsr_pqhi {next v : Word} {op : RvCsr} {rd : BitVec 5} :
    s.pailCsr i next op rd v 0x800#12 = s.pailDone i next fun p =>
      ({ p with pqhi := (csrNew op (i.p.pqhi.setWidth 32) v).setWidth 25 } : Pail).setReg rd (i.p.pqhi.setWidth 32) :=
  State.pailCsr_some rfl

/-- A CSR instruction of pqbnd. -/
theorem State.pailCsr_pqbnd {next v : Word} {op : RvCsr} {rd : BitVec 5} :
    s.pailCsr i next op rd v 0x801#12 = s.pailDone i next fun p =>
      ({ p with pqbnd := (csrNew op (i.p.pqbnd.setWidth 32) v).setWidth 8 } : Pail).setReg rd (i.p.pqbnd.setWidth 32) :=
  State.pailCsr_some rfl

/-- A CSR instruction of any other number stops the Pail. -/
theorem State.pailCsr_none {next v : Word} {op : RvCsr} {rd : BitVec 5} {num : BitVec 12} (h : i.p.csrRead num = none) :
    s.pailCsr i next op rd v num = s.haltPail i true := by
  simp only [State.pailCsr, h]

/-! Queues -/

@[simp] theorem Queue.bindPail_entries (q : Queue) (storer : Bool) : (q.bindPail storer).entries = q.entries := by
  unfold Queue.bindPail; split_ifs <;> rfl

@[simp] theorem Queue.enter_entries (q : Queue) (e : List Word) (now : Nat) : (q.enter e now).entries = q.entries ++ [e] := rfl

section
variable {q : BitVec 5} {n : Nat} {u : Queue} {go : State → Nat → State} {take : State → Nat → List Word → State}

/-- A push to a queue with room binds its end and goes on. -/
theorem State.pqPushWith_room (hq : i.pqEnd q false = some (n, u)) (hr : u.room (s.pailCk i) = true) :
    s.pqPushWith i q go = go (s.modQueue i.p.team n fun u => u.bindPail false) n := by
  simp [State.pqPushWith, hq, hr]

/-- A push to a full queue waits, or stops the Pail where the consumer is gone. -/
theorem State.pqPushWith_full (hq : i.pqEnd q false = some (n, u)) (hr : u.room (s.pailCk i) = false) :
    s.pqPushWith i q go =
      if (u.bindPail false).cgone = true then (s.modQueue i.p.team n fun u => u.bindPail false).haltPail i true
      else (s.modQueue i.p.team n fun u => u.bindPail false).pailWait i := by
  simp [State.pqPushWith, hq, hr]

/-- A push that the queue's end is not for stops the Pail. -/
theorem State.pqPushWith_none (hq : i.pqEnd q false = none) : s.pqPushWith i q go = s.haltPail i true := by
  simp [State.pqPushWith, hq]

/-- A pop of a queue with an entry binds its end and goes on with the entry. -/
theorem State.pqPopWith_head (hq : i.pqEnd q true = some (n, u)) {e : List Word} (he : u.head (s.pailCk i) = some e) :
    s.pqPopWith i q take = take (s.modQueue i.p.team n fun u => u.bindPail true) n e := by
  simp [State.pqPopWith, hq, he]

/-- A pop of an empty queue waits. -/
theorem State.pqPopWith_empty (hq : i.pqEnd q true = some (n, u)) (he : u.head (s.pailCk i) = none) :
    s.pqPopWith i q take = (s.modQueue i.p.team n fun u => u.bindPail true).pailWait i := by
  simp [State.pqPopWith, hq, he]

end

/-! Rows of the data store -/

/-- The words of a row that lies in the data store are read in order. -/
theorem State.readRow_data {p : Pail} (hp : s.pails[i.pi]? = some p) (os : List Nat) :
    s.readRow i (os.map .data) = (true, s.modPail i.pi fun q => { q with row := q.row ++ os.map (dstoreWord p.dstore) }) := by
  induction os generalizing s p with
  | nil => simp [State.readRow, State.modPail_id]
  | cons o os ih =>
    have hp' : (s.modPail i.pi fun q => { q with row := q.row ++ [dstoreWord p.dstore o] }).pails[i.pi]? =
        some { p with row := p.row ++ [dstoreWord p.dstore o] } := by simp [hp]
    simp only [List.map_cons, State.readRow, State.pailAccess_data_read hp]
    rw [← dstoreWord, ih hp', State.modPail_modPail]
    simp

/-- The words of a row that lies in the data store are written in order. -/
theorem State.writeRow_data (ws : List (Nat × Word)) :
    s.writeRow i (ws.map fun w => (.data w.1, w.2)) = (true, s.modPail i.pi fun p =>
      { p with dstore := spSetAll 0#8 p.dstore (wordBytes ws), row := p.row.drop ws.length }) := by
  induction ws generalizing s with
  | nil => simp [State.writeRow, wordBytes, spSetAll, State.modPail_id]
  | cons w ws ih =>
    simp only [List.map_cons, State.writeRow, State.pailAccess_data_write, ih, State.modPail_modPail]
    simp [wordBytes, spSetAll, Nat.add_comm]

end

/-! Rows through a queue -/

/-- The ck of a Pail's core does not depend on the queues. -/
@[simp] theorem State.pailCk_modQueue (s : State) (ti n : Nat) (f : Queue → Queue) (i : PIss) :
    (s.modQueue ti n f).pailCk i = s.pailCk i := rfl

@[simp] theorem State.modQueue_pails (s : State) (ti n : Nat) (f : Queue → Queue) : (s.modQueue ti n f).pails = s.pails := rfl

/-- The ck of a Pail's core does not depend on the Pails. -/
@[simp] theorem State.pailCk_modPail (s : State) (pi : Nat) (f : Pail → Pail) (i : PIss) :
    (s.modPail pi f).pailCk i = s.pailCk i := rfl

section
variable {s : State} {i : PIss} {q r : BitVec 5} {n : Nat} {u : Queue} {c : Context}

/-- A row and the zeros behind it. -/
theorem map_range_append_replicate {α : Type} {w m : Nat} (hw : w ≤ m) (f : Nat → α) (d : α) :
    (List.range w).map f ++ List.replicate (m - w) d = (List.range m).map fun j => if j < w then f j else d := by
  refine List.ext_getElem (by simp [hw]) fun j hj _ => ?_
  simp [List.getElem_append]

/-- `pq.rowin` from the data store: one entry enters, the words of the row and zeros behind them. -/
theorem exec_pqRowin_data (hi : s.pailIss = some i) (hq : i.pqEnd q false = some (n, u)) (hr : u.room (s.pailCk i) = true)
    (hrow : i.p.row = []) (hc : s.contexts[i.p.ctx]? = some c) (hal : (i.p.reg r).toNat % 4 = 0)
    (hlo : 0x10000 ≤ (i.p.reg r).toNat) (hhi : (i.p.reg r).toNat + 4 * i.kern.width ≤ 0x12000) (hw : i.kern.width ≤ 64)
    (hp : s.pails[i.pi]? = some i.p) :
    ∃ t : State, exec (.pqRowin q r) s = .next t ∧
      (t.queueAt i.p.team n).map Queue.entries = (s.queueAt i.p.team n).map fun u => u.entries ++ [(List.range 64).map fun j =>
        if j < i.kern.width then dstoreWord i.p.dstore ((i.p.reg r).toNat - 0x10000 + 4 * j) else 0#32] := by
  refine ⟨_, State.onPail_next hi rfl, ?_⟩
  have hp1 : (s.modQueue i.p.team n fun u => u.bindPail false).pails[i.pi]? = some i.p := hp
  have hc1 : (s.modQueue i.p.team n fun u => u.bindPail false).contexts[i.p.ctx]? = some c := hc
  rw [State.pqPushWith_room hq hr, ← map_range_append_replicate hw]
  simp only [hc1, Option.bind_some, PIss.rowTargets_data hal hlo hhi, hrow, List.length_nil, List.drop_zero]
  rw [← Function.comp_def PTarget.data, ← List.map_map, State.readRow_data hp1]
  simp [State.pailDone, hp, hrow, Function.comp_def]

/-- The words of an entry as far as a row reaches. -/
theorem take_eq_map_getD {α : Type} {e : List α} {w : Nat} (hw : w ≤ e.length) (d : α) :
    e.take w = (List.range w).map fun j => e.getD j d := by
  refine List.ext_getElem (by simp [hw]) fun j hj _ => ?_
  have hj : j < e.length := by simp at hj; omega
  simp [hj]

/-- A whole row is written to the data store in one go. -/
theorem State.putRow_data (o : Nat → Nat) (v : Nat → Word) :
    s.putRow i ((List.range i.kern.width).map fun j => .data (o j)) ((List.range i.kern.width).map v) =
      (s.modPail i.pi fun p => { p with
        dstore := spSetAll 0#8 p.dstore (wordBytes ((List.range i.kern.width).map fun j => (o j, v j))),
        row := p.row.drop i.kern.width }).pailDone i (i.p.pc + 4#32) id := by
  have hzip : ((List.range i.kern.width).map fun j => PTarget.data (o j)).zip ((List.range i.kern.width).map v) =
      ((List.range i.kern.width).map fun j => (o j, v j)).map fun w => (.data w.1, w.2) := by
    rw [List.zip_map', List.map_map, Function.comp_def]
  simp only [State.putRow, List.length_map, List.length_range, Nat.sub_self, List.drop_zero, hzip, State.writeRow_data]

/-- `pq.rowout` to the data store: the words of the entry's row stand there. -/
theorem exec_pqRowout_data (hi : s.pailIss = some i) (hq : i.pqEnd q true = some (n, u)) {e : List Word}
    (he : u.head (s.pailCk i) = some e) (hrow : i.p.row = []) (hc : s.contexts[i.p.ctx]? = some c)
    (hal : (i.p.reg r).toNat % 4 = 0) (hlo : 0x10000 ≤ (i.p.reg r).toNat)
    (hhi : (i.p.reg r).toNat + 4 * i.kern.width ≤ 0x12000) (hw : i.kern.width ≤ e.length) (hp : s.pails[i.pi]? = some i.p)
    (hwf : sparseWf 0#8 0 i.p.dstore = true) :
    ∃ (t : State) (p : Pail), exec (.pqRowout q r) s = .next t ∧ t.pails[i.pi]? = some p ∧ p.pc = i.p.pc + 4#32 ∧
      ∀ j < i.kern.width, dstoreWord p.dstore ((i.p.reg r).toNat - 0x10000 + 4 * j) = e.getD j 0#32 := by
  refine ⟨_, { i.p with
    dstore := spSetAll 0#8 i.p.dstore (wordBytes ((List.range i.kern.width).map fun j =>
      ((i.p.reg r).toNat - 0x10000 + 4 * j, e.getD j 0#32))),
    pc := i.p.pc + 4#32, again := false, row := [], ran := s.pailCk i + 1 }, State.onPail_next hi rfl, ?_, rfl, fun j hj => ?_⟩
  · simp only [hc, Option.bind_some, PIss.rowTargets_data hal hlo hhi, hrow, List.isEmpty_nil, if_true,
      State.pqPopWith_head hq he, take_eq_map_getD hw 0#32, State.putRow_data]
    simp [State.pailDone, Pail.past, State.popQueue, hp]
  · refine dstoreWord_spSetAll hwf (List.pairwise_map.mpr (List.pairwise_lt_range.imp fun h => ?_))
      (List.mem_map.mpr ⟨j, List.mem_range.mpr hj, rfl⟩)
    omega

end

/-! A stop -/

/-- A stopped Pail keeps its registers and its data store. -/
theorem State.haltPail_pails (s : State) (i : PIss) (fault : Bool) :
    (s.haltPail i fault).pails[i.pi]? = (s.pails[i.pi]?).map fun p =>
      { p with stat := if fault then .faulted else .stopped, again := false, row := [] } := by
  simp [State.haltPail]

/-! The statement -/

/-- Settles O60: one rule per instruction of a Pail, the integer results through the RISC-V manual's arithmetic, the rows
of words through the accesses they are made of. -/
theorem pailInstructionsComplete : Obligations.PailInstructionsComplete := by
  unfold Obligations.PailInstructionsComplete
  refine ⟨fun p n v => ⟨p.reg_zero, p.setReg_zero v, fun hn hx => ⟨?_, fun m hm => ?_⟩⟩, fun s i hi => ?_, fun s i fault p hp => ?_⟩
  · rw [Pail.reg_setReg hn hx, if_pos rfl]
  · rw [Pail.reg_setReg hn hx, if_neg hm]
  · refine ⟨?integer, ?store, ?global, ?csr, ?push, ?pop, ?statNone, ?stat, ?pushNone, ?ecall, ?ebreak, ?exception⟩
    case integer => exact fun r short rd v pc h => exec_pailInstruction hi (State.pailRun_of_rvResult h)
    case store =>
      intro op rd rs imm rs2 short c hc hp
      refine ⟨?_, ?_⟩ <;> rintro a rfl
      · intro hlo hhi hal
        have ht {perm : Nat} := PIss.target_data (i := i) (c := c) (perm := perm) hal hlo hhi
        exact ⟨exec_pailInstruction hi (State.pailLoad_done hc ht (State.pailAccess_data_read hp _ _ _)),
          exec_pailInstruction hi ((State.pailStore_done hc ht (State.pailAccess_data_write _ _ _ _)).trans
            (State.modPail_modPail _ _ _ _))⟩
      · intro hout
        have ht {perm : Nat} := PIss.target_none (i := i) (c := c) (perm := perm) (rvSize_pos op) hout
        exact ⟨exec_pailInstruction hi (State.pailLoad_fault hc rd ht),
          exec_pailInstruction hi (State.pailStore_fault hc _ ht)⟩
    case global =>
      intro op rd rs imm rs2 short c va pa s0 hc
      exact ⟨fun ht hacc hdev => exec_pailInstruction hi (State.pailLoad_done hc ht (State.pailAccess_glob_read hc hdev hacc)),
        fun ht htaken hacc hdev =>
          exec_pailInstruction hi (State.pailStore_done hc ht (State.pailAccess_glob_write hc hdev htaken hacc _))⟩
    case csr =>
      rintro op imm rd src num short v rfl
      refine ⟨?_, ?_, fun h0 h1 => ?_⟩
      · rintro rfl; exact exec_pailInstruction hi State.pailCsr_pqhi
      · rintro rfl; exact exec_pailInstruction hi State.pailCsr_pqbnd
      · exact exec_pailInstruction hi (State.pailCsr_none (by simp [Pail.csrRead, h0, h1]))
    case push =>
      intro q rs n u hq
      refine ⟨fun hr => State.onPail_next hi (State.pqPushWith_room hq hr), ?_, ?_⟩
      · rintro hr s1 rfl
        exact State.onPail_next hi (State.pqPushWith_full hq hr)
      · exact fun hr hrow c hc hal hlo hhi hw hp => exec_pqRowin_data hi hq hr hrow hc hal hlo hhi hw hp
    case pop =>
      intro q rd n u hq
      exact ⟨fun e he => State.onPail_next hi (State.pqPopWith_head hq he),
        fun he => State.onPail_next hi (State.pqPopWith_empty hq he),
        fun e he hrow c hc hal hlo hhi hw hp hwf => exec_pqRowout_data hi hq he hrow hc hal hlo hhi hw hp hwf⟩
    case statNone => exact fun q rd hq => State.onPail_next hi (by simp [Nat.not_lt.mpr hq])
    case stat =>
      intro q rd u hq hu
      refine State.onPail_next hi ?_
      simp only [if_pos hq, hu]
      rfl
    case pushNone =>
      exact fun q r hq => ⟨State.onPail_next hi (State.pqPushWith_none hq), State.onPail_next hi (State.pqPushWith_none hq)⟩
    case ecall => exact State.onPail_next hi rfl
    case ebreak => exact State.onPail_next hi rfl
    case exception => exact State.onPail_next hi rfl
  · rw [State.haltPail_pails, hp]
    rfl

end Sys2Proof.Machine
end

section
/-!
SUPPORT. Fields of words: what a field reads as in a word put together from fields, and when such a word is a given one.
The widths in the statements are marked no_index because Lean writes a sum of literal widths as one number.
-/

namespace Sys2Proof

/-- A field that lies in the low part of a word. -/
@[simp] theorem extractLsb'_append_low {m n s l : Nat} (a : BitVec m) (b : BitVec n) (h : s + l ≤ n) :
    BitVec.extractLsb' (n := no_index (m + n)) s l
      (@HAppend.hAppend (BitVec m) (BitVec n) (BitVec (no_index (m + n))) _ a b) = b.extractLsb' s l :=
  BitVec.extractLsb'_append_eq_of_add_le h

/-- A field that lies in the high part of a word. -/
@[simp] theorem extractLsb'_append_high {m n s l : Nat} (a : BitVec m) (b : BitVec n) (h : n ≤ s) :
    BitVec.extractLsb' (n := no_index (m + n)) s l
      (@HAppend.hAppend (BitVec m) (BitVec n) (BitVec (no_index (m + n))) _ a b) = a.extractLsb' (s - n) l :=
  BitVec.extractLsb'_append_eq_of_le h

/-- A field of a field is a field of the word. -/
@[simp] theorem extractLsb'_extractLsb'_add {w s n t m : Nat} (x : BitVec w) (h : t + m ≤ n) :
    (x.extractLsb' s n).extractLsb' t m = x.extractLsb' (s + t) m := by
  ext j hj
  simp [show t + j < n by omega, Nat.add_assoc]

/-- A word put together from two parts is the word that has these parts. -/
@[simp] theorem append_eq_iff_parts {m n : Nat} (a : BitVec m) (b : BitVec n) (x : BitVec (no_index (m + n))) :
    @Eq (BitVec (no_index (m + n))) (@HAppend.hAppend (BitVec m) (BitVec n) (BitVec (no_index (m + n))) _ a b) x ↔
      a = x.extractLsb' n m ∧ b = x.extractLsb' 0 n := by
  constructor
  · rintro rfl
    exact ⟨BitVec.extractLsb'_append_eq_left.symm, BitVec.extractLsb'_append_eq_right.symm⟩
  · rintro ⟨rfl, rfl⟩
    exact BitVec.extractLsb'_append_extractLsb'

/-- Two neighbouring fields of a word are one field of it. -/
@[simp] theorem extractLsb'_append_neighbour {w s t m n : Nat} (x : BitVec w) (h : t = s + n) :
    @HAppend.hAppend (BitVec m) (BitVec n) (BitVec (no_index (m + n))) _ (x.extractLsb' t m) (x.extractLsb' s n) =
      x.extractLsb' s (m + n) :=
  BitVec.extractLsb'_append_extractLsb'_eq_extractLsb' h

/-- A field of a sign-extended value that lies in the value. -/
@[simp] theorem extractLsb'_signExtend {w v s l : Nat} (x : BitVec w) (h : s + l ≤ w) (hv : s + l ≤ v) :
    (x.signExtend v).extractLsb' s l = x.extractLsb' s l := by
  ext j hj
  simp [BitVec.getElem_signExtend, show s + j < v by omega, show s + j < w by omega]

/-- A sign-extended value cut back to its width. -/
@[simp] theorem setWidth_signExtend {w v : Nat} (x : BitVec w) (h : w ≤ v) : (x.signExtend v).setWidth w = x := by
  ext j hj
  simp [BitVec.getElem_signExtend, show j < v by omega, hj]

/-- A sign-extended value sign-extended further. -/
@[simp] theorem signExtend_signExtend {w v u : Nat} (x : BitVec w) (h : w ≤ v) :
    (x.signExtend v).signExtend u = x.signExtend u := by
  rw [BitVec.signExtend.eq_def _ (x.signExtend v), BitVec.toInt_signExtend_of_le h, BitVec.signExtend.eq_def]

/-- The low field of a sign-extended value. -/
@[simp] theorem extractLsb'_low_signExtend {w v m : Nat} (x : BitVec w) (hv : m ≤ v) :
    (x.signExtend v).extractLsb' 0 m = x.signExtend m := by
  ext j hj
  simp [BitVec.getElem_signExtend, show j < v by omega]

/-- A value sign-extended is zero where it is. -/
theorem signExtend_eq_zero {w v : Nat} {x : BitVec w} (h : w ≤ v) : x.signExtend v = 0#v ↔ x = 0#w :=
  ⟨fun hx => by rw [← setWidth_signExtend x h, hx, BitVec.setWidth_zero],
    fun hx => by rw [hx]; exact BitVec.eq_of_toInt_eq (by rw [BitVec.toInt_signExtend_of_le h, BitVec.toInt_zero, BitVec.toInt_zero])⟩

/-- A value extended by zeros has no sign. -/
theorem signExtend_setWidth_of_lt {w v u : Nat} {x : BitVec w} (h : w < v) : (x.setWidth v).signExtend u = x.setWidth u := by
  have hmsb : (x.setWidth v).msb = false := by
    rw [BitVec.msb_eq_getLsbD_last, BitVec.getLsbD_setWidth, BitVec.getLsbD_of_ge _ _ (by omega), Bool.and_false]
  have hx : (x.setWidth v).toNat = x.toNat := by
    rw [BitVec.toNat_setWidth, Nat.mod_eq_of_lt (x.isLt.trans (Nat.pow_lt_pow_right (by omega) h))]
  rw [BitVec.signExtend_eq_setWidth_of_msb_false hmsb]
  exact BitVec.eq_of_toNat_eq (by rw [BitVec.toNat_setWidth, hx, BitVec.toNat_setWidth])

/-- A value whose high field is zero is its low field. -/
theorem setWidth_extractLsb'_of_high {w n m : Nat} {x : BitVec w} (hw : w ≤ n + m) (h : x.extractLsb' n m = 0#m) :
    (x.extractLsb' 0 n).setWidth w = x := by
  ext j hj
  by_cases hn : j < n
  · simp [hn, BitVec.getLsbD_eq_getElem hj]
  · have hb := congrArg (fun y => y.getLsbD (j - n)) h
    simp only [BitVec.getLsbD_extractLsb', BitVec.getLsbD_zero, show j - n < m by omega, show n + (j - n) = j by omega] at hb
    simpa [hn, BitVec.getLsbD_eq_getElem hj] using hb.symm

/-- A flag as a bit, read back. -/
@[simp] theorem ofBool_beq_one (v : Bool) : (BitVec.ofBool v == 1#1) = v := by cases v <;> rfl

/-- A bit as a flag, written back. -/
@[simp] theorem ofBool_of_beq_one (x : BitVec 1) : BitVec.ofBool (x == 1#1) = x := by revert x; decide

/-- A field has a number where it is the word of that number. -/
theorem toNat_eq_iff_eq_ofNat {w n : Nat} (x : BitVec w) (h : n < 2 ^ w) : x.toNat = n ↔ x = BitVec.ofNat w n :=
  ⟨fun hx => BitVec.eq_of_toNat_eq (by rw [hx, BitVec.toNat_ofNat, Nat.mod_eq_of_lt h]),
    fun hx => by rw [hx, BitVec.toNat_ofNat, Nat.mod_eq_of_lt h]⟩

end Sys2Proof
end

section
/-!
SUPPORT. The codes of a compute word (R38, R42, R133, R154, R156, R167, R192, R232): a code is read back as what it was
written for, and what a code names is written as that code.
-/

namespace Sys2Proof

/-! Operands, types and modifiers -/

@[simp] theorem Opnd.ofCode_code (o : Opnd) : Opnd.ofCode o.code = o := by
  cases o with
  | zr => rfl
  | v n | s n | bc n | dq n | p n | shp n | acc n | c n | reserved n | hl n => revert n; decide

@[simp] theorem Opnd.code_ofCode (b : BitVec 8) : (Opnd.ofCode b).code = b := by revert b; decide

@[simp] theorem Opnd.ofCode_eq_zr (b : BitVec 8) : Opnd.ofCode b = .zr ↔ b = 0xFF#8 := by revert b; decide

@[simp] theorem Opnd.code_eq_zr (o : Opnd) : o.code = 0xFF#8 ↔ o = .zr := by
  rw [← Opnd.ofCode_eq_zr, Opnd.ofCode_code]

@[simp] theorem Ty.ofCode_code (ty : Ty) : Ty.ofCode ty.code = some ty := by cases ty <;> rfl

@[simp] theorem Ty.ofCode_eq_some (b : BitVec 4) (ty : Ty) : Ty.ofCode b = some ty ↔ b = ty.code :=
  ⟨by revert b ty; decide, by rintro rfl; exact ty.ofCode_code⟩

@[simp] theorem Rm.ofCode_code (rm : Rm) : Rm.ofCode rm.code = some rm := by cases rm <;> rfl

@[simp] theorem Rm.ofCode_eq_some (b : BitVec 3) (rm : Rm) : Rm.ofCode b = some rm ↔ b = rm.code :=
  ⟨by revert b; cases rm <;> decide, by rintro rfl; exact rm.ofCode_code⟩

@[simp] theorem Cc.ofCode_code (cc : Cc) : Cc.ofCode cc.code = cc := by cases cc <;> rfl

@[simp] theorem Cc.code_ofCode (b : BitVec 2) : (Cc.ofCode b).code = b := by revert b; decide

@[simp] theorem Fcc.ofCode_code (cc : Fcc) : Fcc.ofCode cc.code = some cc := by cases cc <;> rfl

@[simp] theorem Fcc.ofCode_eq_some (b : BitVec 3) (cc : Fcc) : Fcc.ofCode b = some cc ↔ b = cc.code :=
  ⟨by revert b; cases cc <;> decide, by rintro rfl; exact cc.ofCode_code⟩

@[simp] theorem RedOp.ofCode_code (op : RedOp) : RedOp.ofCode op.code = some op := by cases op <;> rfl

@[simp] theorem RedOp.ofCode_eq_some (b : BitVec 3) (op : RedOp) : RedOp.ofCode b = some op ↔ b = op.code :=
  ⟨by revert b; cases op <;> decide, by rintro rfl; exact op.ofCode_code⟩

@[simp] theorem VoteMode.ofCode_code (m : VoteMode) : VoteMode.ofCode m.code = .ok m := by cases m <;> rfl

@[simp] theorem VoteMode.ofCode_eq_ok (b : BitVec 6) (m : VoteMode) : VoteMode.ofCode b = .ok m ↔ b = m.code :=
  ⟨by revert b; cases m <;> decide, by rintro rfl; exact m.ofCode_code⟩

@[simp] theorem Mem.ofCode_code (m : Mem) : Mem.ofCode m.code = m := by simp [Mem.code, Mem.ofCode]

/-- The bit between QORD and the offset is reserved (R36). -/
@[simp] theorem Mem.code_reserved (m : Mem) : m.code.extractLsb' 12 1 = 0#1 := by simp [Mem.code]

@[simp] theorem Mem.code_ofCode {b : BitVec 17} (h : b.extractLsb' 12 1 = 0#1) : (Mem.ofCode b).code = b := by
  simp [Mem.code, Mem.ofCode, h]

/-! Atomic operations -/

/-- A code names the admitted pair that it is the code of. -/
@[simp] theorem atomOfCode_eq_ok (b : BitVec 6) (op : AtomOp) (ty : Ty) :
    atomOfCode b = .ok (op, ty) ↔ b = atomCode op ty ∧ atomOk op ty = true := by
  constructor
  · intro h
    have hall : ∀ b : BitVec 6, (atomOfCode b).toOption.all (fun p => b == atomCode p.1 p.2 && atomOk p.1 p.2) = true := by
      decide
    have hb := hall b
    rw [h] at hb
    simpa [Except.toOption] using hb
  · rintro ⟨rfl, h⟩
    revert h; cases op <;> cases ty <;> decide

/-- SRCC of an admitted operation lies within the check of its field. -/
theorem casField_atomCode {op : AtomOp} {ty : Ty} {c : Opnd} (h : atomOk op ty = true) (hc : op = .cas ∨ c = .v 0) :
    casField (atomCode op ty) c = true := by
  rcases hc with rfl | rfl
  · have hty : ty = .n32 ∨ ty = .n64 := by simpa [atomOk] using h
    rcases hty with rfl | rfl <;> simp [casField, atomCode, AtomOp.code]
  · simp [casField]

/-! Fields that are judged on the type code -/

@[simp] theorem immRaw_code (ty : Ty) (imm : BitVec 36) : immRaw ty.code imm = immOk ty imm := by simp [immRaw]

@[simp] theorem mmaRaw_code (ty : Ty) (a c : Opnd) (role : BitVec 2) (off : BitVec 12) :
    mmaRaw ty.code a c role off = mmaFieldsOk ty a c role off := by simp [mmaRaw]

@[simp] theorem qencRaw_code (ty : Ty) (rm : Rm) (sat : Bool) : qencRaw ty.code rm sat = qencFieldsOk ty rm sat := by
  simp [qencRaw]

/-! Control fields and whole words -/

@[simp] theorem Ctl.ofCode_code (k : Ctl) : Ctl.ofCode k.code = k := by simp [Ctl.code, Ctl.ofCode]

@[simp] theorem Ctl.code_ofCode (b : BitVec 28) : (Ctl.ofCode b).code = b := by simp [Ctl.code, Ctl.ofCode]

@[simp] theorem Fields.unpack_pack (f : Fields) : Fields.unpack f.pack = f := by simp [Fields.pack, Fields.unpack]

@[simp] theorem Fields.pack_unpack (w : IWord) : (Fields.unpack w).pack = w := by simp [Fields.pack, Fields.unpack]

end Sys2Proof
end

section
/-!
SUPPORT. The rows of the opcode map (R57): each row's decoder gives an instruction only where the fields are those that
encode it, and gives every well-formed instruction back from its fields.
-/

namespace Sys2Proof

/-! What makes a decoder answer -/

/-- A check that the answer has passed. -/
@[simp] theorem ite_error_eq_ok {ε α : Type} {c : Prop} [Decidable c] {x : Except ε α} {e : ε} {a : α} :
    (if c then x else .error e) = .ok a ↔ c ∧ x = .ok a := by
  split <;> simp [*]

/-- A code that names something. -/
@[simp] theorem elim_error_eq_ok {ε α β : Type} {o : Option β} {g : β → Except ε α} {e : ε} {a : α} :
    o.elim (.error e) g = .ok a ↔ ∃ b, o = some b ∧ g b = .ok a := by
  cases o <;> simp

/-- A code that names something or says what it breaks. -/
@[simp] theorem except_bind_eq_ok {ε α β : Type} {o : Except ε β} {g : β → Except ε α} {a : α} :
    o.bind g = .ok a ↔ ∃ b, o = .ok b ∧ g b = .ok a := by
  cases o <;> simp [Except.bind]

/-! Each row answers only for the fields of its answer -/

/-- A decoder of the row of opcode n answers only with an instruction that encodes to the fields it read, and that is well
formed where its control fields are. -/
def RowSound (n : Nat) (d : Fields → Except DecErr Instr) : Prop :=
  ∀ k dst a b c md imm i, d ⟨k, BitVec.ofNat 10 n, dst, a, b, c, md, imm⟩ = .ok i →
    encodeFields i = some ⟨k, BitVec.ofNat 10 n, dst, a, b, c, md, imm⟩ ∧ (ctlOk k = true → i.wf = true)

theorem rows0_sound : ∀ r ∈ rows0, RowSound r.1 r.2 := by
  simp only [rows0, List.forall_mem_cons, List.not_mem_nil, false_imp_iff, implies_true, and_true]
  and_intros
  all_goals
    intro k dst a b c md imm i
    -- the checks that the row makes, then the fields that they leave
    simp [-List.contains_eq_mem, -List.contains_cons,
      decAdd, decSub, decMul, decMulhi, decMad, decDiv, decRem, decNeg, decAbs, decMin, decMax, decShl, decShr,
        decSar, decAndb, decOrb, decXorb, decNotb, decAndn, decClz]
    intros
    subst_vars
    refine ⟨congrArg some ?_, fun _ => ?_⟩ <;> simp_all [Instr.wf, -List.contains_eq_mem, -List.contains_cons]

theorem rows1_sound : ∀ r ∈ rows1, RowSound r.1 r.2 := by
  simp only [rows1, List.forall_mem_cons, List.not_mem_nil, false_imp_iff, implies_true, and_true]
  and_intros
  all_goals
    intro k dst a b c md imm i
    -- the checks that the row makes, then the fields that they leave
    simp [-List.contains_eq_mem, -List.contains_cons,
      decPopc, decBrev, decBfx, decBfi, decSel, decMov, decCmp, decAddI, decSubI, decMulI, decMulhiI, decDivI,
        decRemI, decMinI, decMaxI, decShlI, decShrI, decSarI, decAndbI, decOrbI]
    intros
    subst_vars
    refine ⟨congrArg some ?_, fun _ => ?_⟩ <;> simp_all [Instr.wf, -List.contains_eq_mem, -List.contains_cons]

theorem rows2_sound : ∀ r ∈ rows2, RowSound r.1 r.2 := by
  simp only [rows2, List.forall_mem_cons, List.not_mem_nil, false_imp_iff, implies_true, and_true]
  and_intros
  all_goals
    intro k dst a b c md imm i
    -- the checks that the row makes, then the fields that they leave
    simp [-List.contains_eq_mem, -List.contains_cons,
      decXorbI, decAndnI, decCmpI, decMovi, decAddpc, decIdx, decRngget, decFormget, decExpand, decRerange, decDead,
        decBra, decBrx, decCall, decCallx, decRet, decExit, decNop, decPand, decPor]
    intros
    subst_vars
    refine ⟨congrArg some ?_, fun _ => ?_⟩ <;> simp_all [Instr.wf, -List.contains_eq_mem, -List.contains_cons]

theorem rows3_sound : ∀ r ∈ rows3, RowSound r.1 r.2 := by
  simp only [rows3, List.forall_mem_cons, List.not_mem_nil, false_imp_iff, implies_true, and_true]
  and_intros
  all_goals
    intro k dst a b c md imm i
    -- the checks that the row makes, then the fields that they leave
    simp [-List.contains_eq_mem, -List.contains_cons,
      decPxor, decPnot, decPmov, decShfl, decVote, decElect, decGred, decGscan, decFadd, decFsub, decFmul, decFfma,
        decFmin, decFmax, decFcmp, decFrcp, decFrsq, decFsqrt, decFexp2, decFlog2]
    intros
    subst_vars
    refine ⟨congrArg some ?_, fun _ => ?_⟩ <;> simp_all [Instr.wf, -List.contains_eq_mem, -List.contains_cons]

theorem rows4_sound : ∀ r ∈ rows4, RowSound r.1 r.2 := by
  simp only [rows4, List.forall_mem_cons, List.not_mem_nil, false_imp_iff, implies_true, and_true]
  and_intros
  all_goals
    intro k dst a b c md imm i
    -- the checks that the row makes, then the fields that they leave
    simp [-List.contains_eq_mem, -List.contains_cons,
      decFsin, decFcos, decFcvt, decF2i, decI2f, decFrnd, decFclass, decHadd2, decHmul2, decHfma2, decPlsplit,
        decPljoin, decLd, decSt, decLdp, decStp, decAtoms, decGather, decScatter, decGatom]
    intros
    subst_vars
    refine ⟨congrArg some ?_, fun _ => ?_⟩ <;> simp_all [Instr.wf, -List.contains_eq_mem, -List.contains_cons]

theorem rows5_sound : ∀ r ∈ rows5, RowSound r.1 r.2 := by
  simp only [rows5, List.forall_mem_cons, List.not_mem_nil, false_imp_iff, implies_true, and_true]
  and_intros
  all_goals
    intro k dst a b c md imm i
    -- the checks that the row makes, then the fields that they leave
    simp [-List.contains_eq_mem, -List.contains_cons,
      decAmaxrd, decCopy, decCopyw, decRload, decRemld, decQpeek, decQstat, decQbind, decBar, decBararr, decBarwait,
        decFence, decAliasfence, decQfence, decTwait, decTfirst, decBcwait, decYield, decTask, decTaskwait]
    intros
    subst_vars
    refine ⟨congrArg some ?_, fun _ => ?_⟩ <;> simp_all [Instr.wf, -List.contains_eq_mem, -List.contains_cons]

theorem rows6_sound : ∀ r ∈ rows6, RowSound r.1 r.2 := by
  simp only [rows6, List.forall_mem_cons, List.not_mem_nil, false_imp_iff, implies_true, and_true]
  and_intros
  all_goals
    intro k dst a b c md imm i
    -- the checks that the row makes, then the fields that they leave
    simp [-List.contains_eq_mem, -List.contains_cons,
      decTinfo, decStepwait, decMma, decMmasp, decScacc, decBscale, decAccz, decAccld, decAccst, decAccmov,
        decAccpeek, decAccpatch, decAccnorm, decMcoef, decMpoly, decMiter, decMloopget, decMloopset, decShpset,
        decShpget]
    intros
    subst_vars
    refine ⟨congrArg some ?_, fun _ => ?_⟩ <;> simp_all [Instr.wf, -List.contains_eq_mem, -List.contains_cons]

theorem rows7_sound : ∀ r ∈ rows7, RowSound r.1 r.2 := by
  simp only [rows7, List.forall_mem_cons, List.not_mem_nil, false_imp_iff, implies_true, and_true]
  and_intros
  all_goals
    intro k dst a b c md imm i
    -- the checks that the row makes, then the fields that they leave
    simp [-List.contains_eq_mem, -List.contains_cons,
      decShpfence, decRred, decRnorm, decQenc, decQdec, decKqsc, decTrap, decBkpt, decTret, decWpset, decWpclr,
        decSysrd, decSyswr, decTraprd, decTrapwr, decHint]
    intros
    subst_vars
    refine ⟨congrArg some ?_, fun _ => ?_⟩ <;> simp_all [Instr.wf, -List.contains_eq_mem, -List.contains_cons]

/-! Each row gives back what it encodes -/

/-- A word whose row gives an instruction decodes to it. -/
theorem decode_pack {f : Fields} {d : Fields → Except DecErr Instr} {i : Instr} (hd : rowOf f.op rows = some d)
    (hk : (isHintOp f.op || ctlOk f.k) = true) (h : d f = .ok i) : decode f.pack = .ok i := by
  simp [decode, hd, hk, h]


/-- The row of an opcode in two lists of rows. -/
theorem rowOf_append (op : BitVec 10) (l m : List (Nat × (Fields → Except DecErr Instr))) :
    rowOf op (l ++ m) = (rowOf op l).or (rowOf op m) := by
  induction l with
  | nil => rfl
  | cons r l ih => by_cases h : r.1 == op.toNat <;> simp [rowOf, h, ih]

/-- The row of an opcode, list by list of the map. -/
theorem rowOf_rows (op : BitVec 10) : rowOf op rows =
    (((((((rowOf op rows0).or (rowOf op rows1)).or (rowOf op rows2)).or (rowOf op rows3)).or (rowOf op rows4)).or
      (rowOf op rows5)).or (rowOf op rows6)).or (rowOf op rows7) := by
  simp only [rows, rowOf_append]

/-- The row of a well-formed instruction gives it back from its fields. -/
theorem row_of_encodeFields {i : Instr} {f : Fields} (hw : i.wf = true) (h : encodeFields i = some f) :
    ∃ d, rowOf f.op rows = some d ∧ (isHintOp f.op || ctlOk f.k) = true ∧ d f = .ok i := by
  cases i with
  | add | addI | sub | subI | mul | mulI | mulhi | mulhiI | div | divI | rem | remI | min | minI | max | maxI | shl |
  shlI | shr | shrI | sar | sarI | andb | andbI | orb | orbI | xorb | xorbI | andn | andnI | mad | neg | abs | notb
  | clz | popc | brev | mov | bfx | bfi | sel | cmp | cmpI | movi | addpc =>
    cases h
    simp only [Instr.wf, Bool.and_eq_true] at hw
    exact ⟨_, (rowOf_rows _).trans rfl, by simp [hw], by simp [-List.contains_eq_mem, -List.contains_cons, hw,
        decAdd, decAddI, decSub, decSubI, decMul, decMulI, decMulhi, decMulhiI, decDiv, decDivI, decRem, decRemI,
          decMin, decMinI, decMax, decMaxI, decShl, decShlI, decShr, decShrI, decSar, decSarI, decAndb, decAndbI,
          decOrb, decOrbI, decXorb, decXorbI, decAndn, decAndnI, decMad, decNeg, decAbs, decNotb, decClz, decPopc,
          decBrev, decMov, decBfx, decBfi, decSel, decCmp, decCmpI, decMovi, decAddpc]⟩
  | idx | rngget | formget | expand | rerange | dead | bra | brx | call | callx | ret | exit | nop | pand | por | pxor
  | pnot | pmov | shfl | vote | elect | gred | gscan =>
    cases h
    simp only [Instr.wf, Bool.and_eq_true] at hw
    exact ⟨_, (rowOf_rows _).trans rfl, by simp [hw], by simp [-List.contains_eq_mem, -List.contains_cons, hw,
        decIdx, decRngget, decFormget, decExpand, decRerange, decDead, decBra, decBrx, decCall, decCallx, decRet,
          decExit, decNop, decPand, decPor, decPxor, decPnot, decPmov, decShfl, decVote, decElect, decGred, decGscan]⟩
  | fadd | fsub | fmul | ffma | fmin | fmax | fcmp | frcp | frsq | fsqrt | fexp2 | flog2 | fsin | fcos | fcvt | f2i |
  i2f | frnd | fclass | hadd2 | hmul2 | hfma2 | plsplit | pljoin =>
    cases h
    simp only [Instr.wf, Bool.and_eq_true] at hw
    exact ⟨_, (rowOf_rows _).trans rfl, by simp [hw], by simp [-List.contains_eq_mem, -List.contains_cons, hw,
        decFadd, decFsub, decFmul, decFfma, decFmin, decFmax, decFcmp, decFrcp, decFrsq, decFsqrt, decFexp2, decFlog2,
          decFsin, decFcos, decFcvt, decF2i, decI2f, decFrnd, decFclass, decHadd2, decHmul2, decHfma2, decPlsplit,
          decPljoin]⟩
  | ld | st | ldp | stp | gather | scatter | amaxrd | copy | copyw | rload | remld | qpeek | qstat | qbind =>
    cases h
    simp only [Instr.wf, Bool.and_eq_true] at hw
    exact ⟨_, (rowOf_rows _).trans rfl, by simp [hw], by simp [-List.contains_eq_mem, -List.contains_cons, hw,
        decLd, decSt, decLdp, decStp, decGather, decScatter, decAmaxrd, decCopy, decCopyw, decRload, decRemld,
          decQpeek, decQstat, decQbind]⟩
  | bar | bararr | barwait | fence | aliasfence | qfence | twait | tfirst | bcwait | yield | task | tinfo | stepwait =>
    cases h
    simp only [Instr.wf, Bool.and_eq_true] at hw
    exact ⟨_, (rowOf_rows _).trans rfl, by simp [hw], by simp [-List.contains_eq_mem, -List.contains_cons, hw,
        decBar, decBararr, decBarwait, decFence, decAliasfence, decQfence, decTwait, decTfirst, decBcwait, decYield,
          decTask, decTinfo, decStepwait]⟩
  | mma | mmasp | scacc | bscale | accz | accld | accst | accmov | accpeek | accpatch | accnorm | mcoef | mpoly |
  miter | mloopget | mloopset | shpset | shpget | shpfence | rred | rnorm | qenc | qdec | kqsc =>
    cases h
    simp only [Instr.wf, Bool.and_eq_true] at hw
    exact ⟨_, (rowOf_rows _).trans rfl, by simp [hw], by simp [-List.contains_eq_mem, -List.contains_cons, hw,
        decMma, decMmasp, decScacc, decBscale, decAccz, decAccld, decAccst, decAccmov, decAccpeek, decAccpatch,
          decAccnorm, decMcoef, decMpoly, decMiter, decMloopget, decMloopset, decShpset, decShpget, decShpfence,
          decRred, decRnorm, decQenc, decQdec, decKqsc]⟩
  | trap | bkpt | tret | wpset | wpclr | sysrd | syswr | traprd | trapwr =>
    cases h
    simp only [Instr.wf, Bool.and_eq_true] at hw
    exact ⟨_, (rowOf_rows _).trans rfl, by simp [hw], by simp [-List.contains_eq_mem, -List.contains_cons, hw,
        decTrap, decBkpt, decTret, decWpset, decWpclr, decSysrd, decSyswr, decTraprd, decTrapwr]⟩
  | pref | phase | phend =>
    cases h
    exact ⟨_, (rowOf_rows _).trans rfl, rfl, rfl⟩
  | atoms | gatom =>
    cases h
    simp only [Instr.wf, Bool.and_eq_true, Bool.or_eq_true, beq_iff_eq] at hw
    obtain ⟨⟨⟨hk, ha⟩, hs⟩, hc⟩ := hw
    exact ⟨_, (rowOf_rows _).trans rfl, by simp [hk], by
      simp [decAtoms, decGatom, atomOfCode_eq_ok, ha, hc, casField_atomCode ha hc, of_decide_eq_true hs]⟩
  | taskwait k d a all =>
    cases h
    simp only [Instr.wf, Bool.and_eq_true] at hw
    exact ⟨_, (rowOf_rows _).trans rfl, by simp [hw], by cases all <;> simp_all [decTaskwait]⟩
  | _ => cases h

end Sys2Proof
end

section
/-!
SUPPORT. Compute words: the decoder and the encoder over the whole opcode map, named opcodes and others (R54-R58).
-/

namespace Sys2Proof

/-! The row of an opcode -/

/-- The row that an opcode has stands in the list. -/
theorem mem_of_rowOf {op : BitVec 10} {l : List (Nat × (Fields → Except DecErr Instr))} {d : Fields → Except DecErr Instr}
    (h : rowOf op l = some d) : (op.toNat, d) ∈ l := by
  induction l with
  | nil => cases h
  | cons r l ih =>
    obtain ⟨n, e⟩ := r
    by_cases hn : n = op.toNat
    · subst hn; simp_all [rowOf]
    · simp_all [rowOf]

/-- An opcode has no row where no row has its number. -/
theorem rowOf_eq_none {op : BitVec 10} {l : List (Nat × (Fields → Except DecErr Instr))} :
    rowOf op l = none ↔ op.toNat ∉ l.map Prod.fst := by
  induction l with
  | nil => simp [rowOf]
  | cons r l ih => by_cases h : r.1 = op.toNat <;> simp [rowOf, h, ih, Ne.symm]

/-- The rows of the map are those of the named opcodes. -/
theorem rows_opcodes : rows.map Prod.fst = namedOpcodes := by
  simp [rows, rows0, rows1, rows2, rows3, rows4, rows5, rows6, rows7, namedOpcodes]

/-- The opcodes without a row are those that R57 does not name. -/
theorem rowOf_rows_eq_none {op : BitVec 10} : rowOf op rows = none ↔ opcodeNamed op = false := by
  simp [rowOf_eq_none, rows_opcodes, opcodeNamed]

/-- Every row of the map is sound. -/
theorem rows_sound : ∀ r ∈ rows, RowSound r.1 r.2 := by
  simp only [rows, List.forall_mem_append]
  exact ⟨⟨⟨⟨⟨⟨⟨rows0_sound, rows1_sound⟩, rows2_sound⟩, rows3_sound⟩, rows4_sound⟩, rows5_sound⟩, rows6_sound⟩, rows7_sound⟩

/-! The decoder and the encoder -/

/-- A word whose opcode R57 does not name is the unassigned opcode's. -/
theorem decode_unnamed {w : IWord} (h : opcodeNamed (Fields.unpack w).op = false) : decode w = .ok (.unassignedOpcode w) := by
  simp [decode, rowOf_rows_eq_none.mpr h]

/-- A well-formed instruction decodes from the word of its fields. -/
theorem decode_encodeFields {i : Instr} {f : Fields} (hw : i.wf = true) (h : encodeFields i = some f) :
    decode f.pack = .ok i := by
  obtain ⟨d, hd, hk, hi⟩ := row_of_encodeFields hw h
  simp [decode, hd, hk, hi]

/-- An instruction with fields is encoded by them. -/
theorem encode_of_encodeFields {i : Instr} {f : Fields} (h : encodeFields i = some f) : encode i = some (.compute f.pack) := by
  cases i
  case unassignedOpcode => cases h
  all_goals simp only [encode, h]

/-- What a word with a row decodes to encodes to its fields, and is well formed unless the word is a hint. -/
theorem encodeFields_of_decode {w : IWord} {i : Instr} {d : Fields → Except DecErr Instr}
    (hd : rowOf (Fields.unpack w).op rows = some d) (h : decode w = .ok i) :
    encodeFields i = some (Fields.unpack w) ∧ (isHintOp (Fields.unpack w).op = false → i.wf = true) := by
  have hs := rows_sound _ (mem_of_rowOf hd)
  generalize hf : Fields.unpack w = f at *
  obtain ⟨k, op, dst, a, b, c, md, imm⟩ := f
  simp only [decode, hf, hd, ite_error_eq_ok, Bool.or_eq_true] at h
  obtain ⟨hk, h⟩ := h
  have hrow := hs k dst a b c md imm i
  simp only [BitVec.ofNat_toNat, BitVec.setWidth_eq] at hrow
  obtain ⟨he, hw⟩ := hrow h
  exact ⟨he, fun hn => hw (hk.resolve_left (by simp [hn]))⟩

/-- A compute word that decodes gives an instruction that encodes to it and is well formed unless it is a hint. -/
theorem encode_of_decode {w : IWord} {i : Instr} (h : decode w = .ok i) :
    encode i = some (.compute w) ∧ (isHintOp (Fields.unpack w).op = false → i.wf = true) := by
  cases hd : rowOf (Fields.unpack w).op rows with
  | none =>
    have hn := rowOf_rows_eq_none.mp hd
    rw [decode_unnamed hn] at h
    cases h
    have hw : opcodeNamed (w.extractLsb' 58 10) = false := hn
    exact ⟨rfl, fun _ => by simp [Instr.wf, hw]⟩
  | some d =>
    obtain ⟨he, hw⟩ := encodeFields_of_decode hd h
    exact ⟨by rw [encode_of_encodeFields he, Fields.pack_unpack], hw⟩

end Sys2Proof
end

section
/-!
SUPPORT. The 32-bit words of a Pail (R22, R222, R223): RV32IM with Zicsr and the `pq.` extension.
-/

namespace Sys2Proof

/-! What a word decodes to encodes to it -/

/-- funct7 and funct3 name the operation that they are the code of. -/
theorem decodeRvOp_eq_some (f7 : BitVec 7) (f3 : BitVec 3) (op : RvOp) :
    decodeRvOp f7 f3 = some op ↔ f7 = op.code.1 ∧ f3 = op.code.2 :=
  ⟨by revert f7 f3; cases op <;> decide, by rintro ⟨rfl, rfl⟩; cases op <;> rfl⟩

/-- A field with a number is the field of that number. -/
theorem field_eq_of_toNat {w s l n : Nat} {x : BitVec w} (h : (x.extractLsb' s l).toNat = n) :
    x.extractLsb' s l = BitVec.ofNat l n := by
  rw [← h, BitVec.ofNat_toNat, BitVec.setWidth_eq]

/-- A custom-0 word that decodes is the word of a well-formed `pq.` instruction (R223). -/
theorem decodePq_sound {w : BitVec 32} {i : Instr} (hop : w.extractLsb' 0 7 = 0x0B#7) (h : decodePq w = some i) :
    i.wf = true ∧ encodePail i = some w := by
  simp only [decodePq, Option.ite_none_right_eq_some, Bool.and_eq_true, beq_iff_eq] at h
  obtain ⟨⟨hf, hq⟩, h⟩ := h
  split at h
  case h_6 => cases h
  all_goals
    next hf3 =>
      obtain ⟨hr, h⟩ := Option.ite_none_right_eq_some.mp h
      cases h
      exact ⟨hq, by simp [encodePail, rvR, hop, hf, hr, field_eq_of_toNat hf3]⟩

/-- A shift amount of five bits. -/
theorem setWidth_lt_32 (sh : BitVec 5) : (sh.setWidth 32).toNat < 32 := by
  have := sh.isLt
  rw [BitVec.toNat_setWidth]; omega

/-- A three-bit field with none of the first seven values has the eighth. -/
theorem eq_seven_of_ne {f3 : BitVec 3} (h : f3.toNat ≠ 0 ∧ f3.toNat ≠ 1 ∧ f3.toNat ≠ 2 ∧ f3.toNat ≠ 3 ∧ f3.toNat ≠ 4 ∧
    f3.toNat ≠ 5 ∧ f3.toNat ≠ 6) : f3 = 7#3 := by
  revert h; revert f3; decide

/-- A register-immediate word that decodes is the word of an instruction with an encoding. -/
theorem decodeRvOpImm_sound {w : BitVec 32} {r : RvInstr} (hop : w.extractLsb' 0 7 = 0x13#7)
    (h : decodeRvOpImm w = some r) : rvOk r = true ∧ r.encode = w := by
  simp only [decodeRvOpImm, beq_iff_eq] at h
  split at h
  case h_2 hf3 =>
    obtain ⟨hf, h⟩ := Option.ite_none_right_eq_some.mp h
    cases h
    exact ⟨decide_eq_true (setWidth_lt_32 _), by simp [RvInstr.encode, rvR, RvOp.code, BitVec.extractLsb'_setWidth_of_le, hop, hf, field_eq_of_toNat hf3]⟩
  case h_6 hf3 =>
    split_ifs at h with hf hf
    all_goals
      cases h
      exact ⟨decide_eq_true (setWidth_lt_32 _), by simp [RvInstr.encode, rvR, RvOp.code, BitVec.extractLsb'_setWidth_of_le, hop, hf, field_eq_of_toNat hf3]⟩
  case h_8 h0 h1 h2 h3 h4 h5 h6 =>
    have hf3 := eq_seven_of_ne (f3 := w.extractLsb' 12 3) ⟨h0, h1, h2, h3, h4, h5, h6⟩
    cases h
    exact ⟨by simp [rvOk], by simp [RvInstr.encode, rvI, rvImmI, RvOp.code, hop, hf3]⟩
  all_goals
    next hf3 =>
      cases h
      exact ⟨by simp [rvOk], by simp [RvInstr.encode, rvI, rvImmI, RvOp.code, hop, field_eq_of_toNat hf3]⟩

/-- A SYSTEM word that decodes is the word of a stop or of a Zicsr instruction. -/
theorem decodeRvSystem_sound {w : BitVec 32} {i : Instr} (hop : w.extractLsb' 0 7 = 0x73#7)
    (h : decodeRvSystem w = some i) : i.wf = true ∧ encodePail i = some w := by
  simp only [decodeRvSystem] at h
  split at h
  case h_1 =>
    split_ifs at h with hw hw
    all_goals
      cases h
      exact ⟨rfl, congrArg some (beq_iff_eq.mp hw).symm⟩
  case h_8 => cases h
  all_goals
    next hf3 =>
      cases h
      exact ⟨rfl, congrArg some (by simp [RvInstr.encode, rvI, RvCsr.code, hop, field_eq_of_toNat hf3])⟩

/-- A RISC-V instruction with an encoding is well formed in a Pail and encodes to its word. -/
theorem wf_encodePail_of_rvOk {w : BitVec 32} {r : RvInstr} {i : Instr} (h : some (.pailInstruction r false) = some i)
    (hr : rvOk r = true ∧ r.encode = w) :
    i.wf = true ∧ encodePail i = some w := by
  cases h
  exact ⟨by simp [Instr.wf, hr.1], by simp [encodePail, hr.2]⟩

/-- A 32-bit Pail word that decodes is the word of a well-formed instruction, but for `fence`. -/
theorem encodePail_of_decodePail {w : BitVec 32} {i : Instr} (h : decodePail w = some i) :
    i.wf = true ∧ (i ≠ .pailInstruction .fence false → encodePail i = some w) := by
  have weaken (h : i.wf = true ∧ encodePail i = some w) :
      i.wf = true ∧ (i ≠ .pailInstruction .fence false → encodePail i = some w) := ⟨h.1, fun _ => h.2⟩
  simp only [decodePail] at h
  split at h
  case h_1 hop => exact weaken (decodePq_sound (field_eq_of_toNat hop) h)
  case h_2 hop | h_3 hop => exact weaken (wf_encodePail_of_rvOk h (by simp [rvOk, RvInstr.encode, field_eq_of_toNat hop]))
  case h_4 hop => exact weaken (wf_encodePail_of_rvOk h (by simp [rvOk, RvInstr.encode, rvImmJ, field_eq_of_toNat hop]))
  case h_5 hop =>
    obtain ⟨hf3, h⟩ := Option.ite_none_right_eq_some.mp h
    exact weaken (wf_encodePail_of_rvOk h (by simp [rvOk, RvInstr.encode, rvI, rvImmI, field_eq_of_toNat hop, field_eq_of_toNat hf3]))
  case h_6 hop =>
    split at h
    case h_7 => cases h
    all_goals
      next hf3 =>
        exact weaken (wf_encodePail_of_rvOk h
          (by simp [rvOk, RvInstr.encode, RvBr.code, rvImmB, field_eq_of_toNat hop, field_eq_of_toNat hf3]))
  case h_7 hop =>
    split at h
    case h_6 => cases h
    all_goals
      next hf3 =>
        exact weaken (wf_encodePail_of_rvOk h
          (by simp [rvOk, RvInstr.encode, rvI, RvMem.code, rvImmI, field_eq_of_toNat hop, field_eq_of_toNat hf3]))
  case h_8 hop =>
    split at h
    case h_4 => cases h
    all_goals
      next hf3 =>
        exact weaken (wf_encodePail_of_rvOk h
          (by simp [rvOk, RvInstr.encode, RvMem.code, rvImmS, field_eq_of_toNat hop, field_eq_of_toNat hf3]))
  case h_9 hop =>
    obtain ⟨r, hr, h⟩ := Option.bind_eq_some_iff.mp h
    exact weaken (wf_encodePail_of_rvOk h (decodeRvOpImm_sound (field_eq_of_toNat hop) hr))
  case h_10 hop =>
    obtain ⟨op, hr, h⟩ := Option.bind_eq_some_iff.mp h
    obtain ⟨hf7, hf3⟩ := (decodeRvOp_eq_some _ _ _).mp hr
    exact weaken (wf_encodePail_of_rvOk h (by simp [rvOk, RvInstr.encode, rvR, field_eq_of_toNat hop, hf7, hf3]))
  case h_11 hop =>
    obtain ⟨-, h⟩ := Option.ite_none_right_eq_some.mp h
    cases h
    exact ⟨rfl, fun hf => absurd rfl hf⟩
  case h_12 hop => exact weaken (decodeRvSystem_sound (field_eq_of_toNat hop) h)
  case h_13 => cases h

/-! What the encoder writes decodes -/

theorem decodeRvOp_code (op : RvOp) : decodeRvOp op.code.1 op.code.2 = some op :=
  (decodeRvOp_eq_some _ _ _).mpr ⟨rfl, rfl⟩

/-- A shift amount is its low five bits. -/
theorem setWidth_extractLsb'_of_lt {imm : BitVec 32} (h : imm.toNat < 32) : (imm.extractLsb' 0 5).setWidth 32 = imm :=
  BitVec.eq_of_toNat_eq (by simp; omega)

/-- The offset of a jump is written with its bits permuted and read back whole. -/
theorem rvImmJ_encode {rd : BitVec 5} {off : BitVec 32} (h0 : off.extractLsb' 0 1 = 0#1)
    (hs : (off.extractLsb' 0 21).signExtend 32 = off) : rvImmJ (RvInstr.encode (.jal rd off)) = off := by
  have hparts : off.extractLsb' 1 20 ++ 0#1 = off.extractLsb' 0 21 := by simp [h0]
  simp [rvImmJ, RvInstr.encode, hparts, hs]

/-- The offset of a branch is written with its bits permuted and read back whole. -/
theorem rvImmB_encode {op : RvBr} {rs1 rs2 : BitVec 5} {off : BitVec 32} (h0 : off.extractLsb' 0 1 = 0#1)
    (hs : (off.extractLsb' 0 13).signExtend 32 = off) : rvImmB (RvInstr.encode (.branch op rs1 rs2 off)) = off := by
  have hparts : off.extractLsb' 1 12 ++ 0#1 = off.extractLsb' 0 13 := by simp [h0]
  simp [rvImmB, RvInstr.encode, hparts, hs]

theorem decodePail_encode_opImm {op : RvOp} {rd rs1 : BitVec 5} {imm : BitVec 32}
    (h : rvOk (.opImm op rd rs1 imm) = true) :
    decodePail (RvInstr.encode (.opImm op rd rs1 imm)) = some (.pailInstruction (.opImm op rd rs1 imm) false) := by
  cases op with
  | sll | srl | sra =>
    have himm := setWidth_extractLsb'_of_lt (of_decide_eq_true h)
    simp [decodePail, decodeRvOpImm, RvInstr.encode, rvR, RvOp.code, himm]
  | add | slt | sltu | xor | or | and =>
    have himm : (imm.extractLsb' 0 12).signExtend 32 = imm := beq_iff_eq.mp h
    simp [decodePail, decodeRvOpImm, RvInstr.encode, rvI, RvOp.code, rvImmI, himm]
  | _ => cases h

/-- The word of a RISC-V instruction with an encoding decodes to it. -/
theorem decodePail_encode {r : RvInstr} (h : rvOk r = true) : decodePail r.encode = some (.pailInstruction r false) := by
  cases r with
  | lui | auipc | jalr => simp [decodePail, RvInstr.encode, rvI, rvImmI]
  | jal rd off =>
    simp only [rvOk, Bool.and_eq_true, beq_iff_eq] at h
    obtain ⟨h0, hs⟩ := h
    simp only [decodePail, rvImmJ_encode h0 hs]
    simp [RvInstr.encode]
  | branch op rs1 rs2 off =>
    simp only [rvOk, Bool.and_eq_true, beq_iff_eq] at h
    obtain ⟨h0, hs⟩ := h
    simp only [decodePail, rvImmB_encode h0 hs]
    cases op <;> simp [RvInstr.encode, RvBr.code]
  | load wd => cases wd <;> simp [decodePail, RvInstr.encode, rvI, rvImmI, RvMem.code]
  | store wd =>
    cases wd with
    | bu | hu => cases h
    | b | h | w => simp [decodePail, RvInstr.encode, rvImmS, RvMem.code]
  | opImm => exact decodePail_encode_opImm h
  | op => simp [decodePail, RvInstr.encode, rvR, decodeRvOp_code]
  | fence => rfl
  | csr op imm => cases op <;> cases imm <;> simp [decodePail, decodeRvSystem, RvInstr.encode, rvI, RvCsr.code]

/-- The 32-bit word of a well-formed Pail instruction decodes to it. -/
theorem decodePail_encodePail {i : Instr} {w : BitVec 32} (hw : i.wf = true) (h : encodePail i = some w) :
    decodePail w = some i := by
  cases i with
  | pqPush q | pqPop q | pqRowin q | pqRowout q | pqStat q =>
    cases h
    have hq : q.toNat < 16 := of_decide_eq_true hw
    simp [decodePail, decodePq, rvR, hq]
  | pailStop why => cases why <;> cases h <;> rfl
  | pailInstruction r short =>
    cases short <;> cases h
    exact decodePail_encode (by simpa [Instr.wf] using hw)
  | _ => cases h

end Sys2Proof
end

section
/-!
SUPPORT. Compressed Pail words (R222): the word that the encoder writes decodes to its instruction, and what a word
decodes to has one.
-/

namespace Sys2Proof

/-! Registers and immediates of the compressed forms -/

@[simp] theorem rvcReg_eq_some (r : BitVec 5) (x : BitVec 3) : rvcReg r = some x ↔ r = rvc3 x := by revert r x; decide

@[simp] theorem rvcReg_rvc3 (x : BitVec 3) : rvcReg (rvc3 x) = some x := by simp

theorem isSome_rvcReg (r : BitVec 5) : (rvcReg r).isSome = rvcNamed r := by
  cases h : rvcNamed r <;> simp [rvcReg, h]

theorem rvcNamed_iff (r : BitVec 5) : rvcNamed r = true ↔ ∃ x, r = rvc3 x := by revert r; decide

@[simp] theorem rvcNamed_rvc3 (x : BitVec 3) : rvcNamed (rvc3 x) = true := (rvcNamed_iff _).mpr ⟨x, rfl⟩

/-- The three-bit fields do not name x2. -/
theorem rvc3_ne_two (x : BitVec 3) : rvc3 x ≠ 2#5 := by revert x; decide

@[simp] theorem fitsSigned_signExtend {n : Nat} (x : BitVec n) (hn : n ≤ 32) : fitsSigned n (x.signExtend 32) = true := by
  simp [fitsSigned, hn]

/-- A value fits n signed bits where it is a value of n bits, sign-extended. -/
theorem fitsSigned_iff {n : Nat} {v : BitVec 32} (hn : n ≤ 32) : fitsSigned n v = true ↔ ∃ x : BitVec n, v = x.signExtend 32 :=
  ⟨fun h => ⟨v.setWidth n, (beq_iff_eq.mp h).symm⟩, by rintro ⟨x, rfl⟩; exact fitsSigned_signExtend x hn⟩

/-! What the encoder writes decodes -/

/-- The immediate of c.addi16sp is written with its bits permuted; where it does not fit six bits, its field is not zero. -/
theorem rvcImm6_addi16sp_ne {x : BitVec 10} (hl : x.extractLsb' 0 4 = 0#4) (hx : x ≠ 0#10) :
    rvcImm6 (3#3 ++ x.extractLsb' 9 1 ++ 2#5 ++ x.extractLsb' 4 1 ++ x.extractLsb' 6 1 ++ x.extractLsb' 7 2 ++
      x.extractLsb' 5 1 ++ 1#2) ≠ 0#6 := by
  intro hz
  have field (s l : Nat) := congrArg (BitVec.extractLsb' s l) hz
  have h9 := field 5 1
  have h4 := field 4 1
  have h6 := field 3 1
  have h7 := field 1 2
  have h5 := field 0 1
  simp [rvcImm6] at h9 h4 h6 h7 h5
  have hparts : x.extractLsb' 9 1 ++ x.extractLsb' 7 2 ++ x.extractLsb' 6 1 ++ x.extractLsb' 5 1 ++ x.extractLsb' 4 1 ++
    x.extractLsb' 0 4 = x := by simp
  rw [h9, h7, h6, h5, h4, hl] at hparts
  exact hx hparts.symm

theorem decodeC_encodeCAddi {rd rs1 : BitVec 5} {imm : BitVec 32} {w : BitVec 16} (h : encodeCAddi rd rs1 imm = some w) :
    decodeC w = some (.pailInstruction (.opImm .add rd rs1 imm) true) := by
  simp only [encodeCAddi, Bool.and_eq_true, beq_iff_eq, bne_iff_ne] at h
  split_ifs at h with haddi hli h16 h4
  · rw [fitsSigned_iff (by omega)] at haddi
    obtain ⟨rfl, x, rfl⟩ := haddi
    cases h
    simp [decodeC, decodeC1, rvcI, rvcImm6]
  · rw [fitsSigned_iff (by omega)] at hli
    obtain ⟨rfl, x, rfl⟩ := hli
    cases h
    simp [decodeC, decodeC1, rvcI, rvcImm6]
  · rw [fitsSigned_iff (by omega)] at h16
    obtain ⟨⟨⟨rfl, rfl⟩, x, rfl⟩, hl⟩ := h16
    cases h
    rw [extractLsb'_signExtend x (by omega) (by omega)] at hl
    have hx : x ≠ 0#10 := by rintro rfl; exact haddi ⟨rfl, by decide⟩
    have hparts : x.extractLsb' 4 6 ++ 0#4 = x := by simp [hl]
    simp [decodeC, decodeC1, hparts, rvcImm6_addi16sp_ne hl hx]
  · obtain ⟨⟨⟨rfl, hh⟩, hl⟩, h0⟩ := h4
    obtain ⟨r, hr, rfl⟩ := Option.map_eq_some_iff.mp h
    obtain rfl := (rvcReg_eq_some _ _).mp hr
    have himm : (imm.extractLsb' 2 8 ++ 0#2).setWidth 32 = imm := by
      have hparts : imm.extractLsb' 2 8 ++ 0#2 = imm.extractLsb' 0 10 := by simp [hl]
      rw [hparts, setWidth_extractLsb'_of_high (by omega) hh]
    have hn : imm.extractLsb' 2 8 ++ 0#2 ≠ 0#10 := fun hz => h0 (by rw [← himm, hz]; rfl)
    simp [decodeC, decodeC0, hn, himm]

theorem decodeC_encodeCJ {f3 : BitVec 3} {rd : BitVec 5} {o : BitVec 32} {w : BitVec 16}
    (hf : f3 = 5#3 ∧ rd = 0#5 ∨ f3 = 1#3 ∧ rd = 1#5) (h : encodeCJ f3 o = some w) :
    decodeC w = some (.pailInstruction (.jal rd o) true) := by
  simp only [encodeCJ, Option.ite_none_right_eq_some, Bool.and_eq_true, beq_iff_eq, fitsSigned_iff (show 12 ≤ 32 by omega)] at h
  obtain ⟨⟨⟨x, rfl⟩, h0⟩, h⟩ := h
  cases h
  rw [extractLsb'_signExtend x (by omega) (by omega)] at h0
  have hparts : x.extractLsb' 1 11 ++ 0#1 = x := by simp [h0]
  rcases hf with ⟨rfl, rfl⟩ | ⟨rfl, rfl⟩ <;> simp [decodeC, decodeC1, rvcJ, hparts]

theorem decodeC_encodeCOp {f : RvOp} {rd rs1 rs2 : BitVec 5} {w : BitVec 16} (h : encodeCOp f rd rs1 rs2 = some w) :
    decodeC w = some (.pailInstruction (.op f rd rs1 rs2) true) := by
  cases f with
  | add =>
    simp only [encodeCOp] at h
    split_ifs at h with h0 h1 h2
    all_goals
      cases h
      simp_all [decodeC, decodeC2]
  | sub | xor | or | and =>
    simp only [encodeCOp, Option.ite_none_right_eq_some, beq_iff_eq, Option.bind_eq_some_iff, Option.map_eq_some_iff,
      rvcReg_eq_some] at h
    obtain ⟨rfl, r, rfl, r2, rfl, rfl⟩ := h
    simp [decodeC, decodeC1, decodeC1Arith, rvcA]
  | _ => cases h

theorem decodeC_encodeC_opImm {f : RvOp} {rd rs1 : BitVec 5} {imm : BitVec 32} {w : BitVec 16}
    (h : RvInstr.encodeC (.opImm f rd rs1 imm) = some w) :
    decodeC w = some (.pailInstruction (.opImm f rd rs1 imm) true) := by
  cases f with
  | add => exact decodeC_encodeCAddi h
  | sll =>
    simp only [RvInstr.encodeC, Option.ite_none_right_eq_some, Bool.and_eq_true, beq_iff_eq] at h
    obtain ⟨⟨rfl, hi⟩, h⟩ := h
    cases h
    simp [decodeC, decodeC2, setWidth_extractLsb'_of_high (by omega) hi]
  | srl | sra =>
    simp only [RvInstr.encodeC, Option.ite_none_right_eq_some, Bool.and_eq_true, beq_iff_eq, Option.map_eq_some_iff,
      rvcReg_eq_some] at h
    obtain ⟨⟨rfl, hi⟩, r, rfl, rfl⟩ := h
    simp [decodeC, decodeC1, decodeC1Arith, rvcA, setWidth_extractLsb'_of_high (by omega) hi]
  | and =>
    simp only [RvInstr.encodeC, Option.ite_none_right_eq_some, Bool.and_eq_true, beq_iff_eq, Option.map_eq_some_iff,
      rvcReg_eq_some, fitsSigned_iff (show 6 ≤ 32 by omega)] at h
    obtain ⟨⟨rfl, x, rfl⟩, r, rfl, rfl⟩ := h
    simp [decodeC, decodeC1, decodeC1Arith, rvcA, rvcImm6]
  | _ => cases h

theorem decodeC_encodeC_load {rd rs1 : BitVec 5} {off : BitVec 12} {w : BitVec 16}
    (h : RvInstr.encodeC (.load .w rd rs1 off) = some w) : decodeC w = some (.pailInstruction (.load .w rd rs1 off) true) := by
  simp only [RvInstr.encodeC, Bool.and_eq_true, beq_iff_eq, bne_iff_ne] at h
  split_ifs at h with hsp hreg
  · obtain ⟨⟨⟨rfl, hrd⟩, hh⟩, hl⟩ := hsp
    cases h
    simp [decodeC, decodeC2, hh, hl, hrd]
  · obtain ⟨hh, hl⟩ := hreg
    simp only [Option.bind_eq_some_iff, Option.map_eq_some_iff, rvcReg_eq_some] at h
    obtain ⟨r, rfl, r2, rfl, rfl⟩ := h
    simp [decodeC, decodeC0, rvcMem, hh, hl]

theorem decodeC_encodeC_store {rs1 rs2 : BitVec 5} {off : BitVec 12} {w : BitVec 16}
    (h : RvInstr.encodeC (.store .w rs1 rs2 off) = some w) :
    decodeC w = some (.pailInstruction (.store .w rs1 rs2 off) true) := by
  simp only [RvInstr.encodeC, Bool.and_eq_true, beq_iff_eq] at h
  split_ifs at h with hsp hreg
  · obtain ⟨⟨rfl, hh⟩, hl⟩ := hsp
    cases h
    simp [decodeC, decodeC2, hh, hl]
  · obtain ⟨hh, hl⟩ := hreg
    simp only [Option.bind_eq_some_iff, Option.map_eq_some_iff, rvcReg_eq_some] at h
    obtain ⟨r, rfl, r2, rfl, rfl⟩ := h
    simp [decodeC, decodeC0, rvcMem, hh, hl]

/-- The compressed word of an instruction decodes to it. -/
theorem decodeC_encodeC {r : RvInstr} {w : BitVec 16} (h : r.encodeC = some w) : decodeC w = some (.pailInstruction r true) := by
  cases r with
  | opImm => exact decodeC_encodeC_opImm h
  | op => exact decodeC_encodeCOp h
  | lui rd imm =>
    simp only [RvInstr.encodeC, Option.ite_none_right_eq_some, Bool.and_eq_true, beq_iff_eq, bne_iff_ne] at h
    obtain ⟨⟨⟨hrd, h0⟩, hi⟩, h⟩ := h
    cases h
    have hx : imm.setWidth 6 ≠ 0#6 := fun hx => h0 (by rw [← hi, hx]; rfl)
    simp [decodeC, decodeC1, rvcI, rvcImm6, hx, hi, hrd]
  | jal rd o =>
    simp only [RvInstr.encodeC, beq_iff_eq] at h
    split_ifs at h with h0 h1
    · exact decodeC_encodeCJ (.inl ⟨rfl, h0⟩) h
    · exact decodeC_encodeCJ (.inr ⟨rfl, h1⟩) h
  | jalr rd rs1 imm =>
    simp only [RvInstr.encodeC, Option.ite_none_right_eq_some, Bool.and_eq_true, beq_iff_eq, bne_iff_ne] at h
    obtain ⟨⟨rfl, h0⟩, h⟩ := h
    split_ifs at h with h1 h2
    all_goals
      cases h
      simp [decodeC, decodeC2, *]
  | branch c rs1 rs2 o =>
    simp only [RvInstr.encodeC, Option.ite_none_right_eq_some, Bool.and_eq_true, beq_iff_eq,
      fitsSigned_iff (show 9 ≤ 32 by omega)] at h
    obtain ⟨⟨⟨rfl, x, rfl⟩, h0⟩, h⟩ := h
    rw [extractLsb'_signExtend x (by omega) (by omega)] at h0
    have hparts : x.extractLsb' 1 8 ++ 0#1 = x := by simp [h0]
    cases c with
    | eq | ne =>
      obtain ⟨r, hr, rfl⟩ := Option.map_eq_some_iff.mp h
      obtain rfl := (rvcReg_eq_some _ _).mp hr
      simp [decodeC, decodeC1, rvcB, hparts]
    | _ => cases h
  | load wd =>
    cases wd with
    | w => exact decodeC_encodeC_load h
    | _ => cases h
  | store wd =>
    cases wd with
    | w => exact decodeC_encodeC_store h
    | _ => cases h
  | _ => cases h

/-! What has a compressed word -/

theorem isSome_encodeC_opImm {f : RvOp} {rd rs1 : BitVec 5} {imm : BitVec 32} (hk : rvOk (.opImm f rd rs1 imm) = true)
    (hs : rvShort (.opImm f rd rs1 imm) = true) : (RvInstr.encodeC (.opImm f rd rs1 imm)).isSome := by
  cases f with
  | add =>
    simp only [rvShort, Bool.or_eq_true, Bool.and_eq_true] at hs
    simp only [RvInstr.encodeC, encodeCAddi, Bool.and_eq_true]
    split_ifs with haddi hli h16 h4
    · rfl
    · rfl
    · rfl
    · rw [Option.isSome_map, isSome_rvcReg]; grind
    · grind
  | sll | srl | sra =>
    have hi : imm.extractLsb' 5 27 = 0#27 := by
      have hlt : imm.toNat < 32 := of_decide_eq_true hk
      exact BitVec.eq_of_toNat_eq (by simp [Nat.shiftRight_eq_div_pow]; omega)
    simp_all [rvShort, RvInstr.encodeC, isSome_rvcReg]
  | and => simp_all [rvShort, RvInstr.encodeC, isSome_rvcReg]
  | _ => cases hs

/-- Every instruction that the short forms allow has a compressed word. -/
theorem isSome_encodeC {r : RvInstr} (hk : rvOk r = true) (hs : rvShort r = true) : r.encodeC.isSome := by
  cases r with
  | opImm => exact isSome_encodeC_opImm hk hs
  | op f rd rs1 rs2 =>
    cases f with
    | add =>
      simp only [rvShort, Bool.and_eq_true, Bool.or_eq_true, beq_iff_eq, bne_iff_ne] at hs
      obtain ⟨hrs, h0⟩ := hs
      simp only [RvInstr.encodeC, encodeCOp, beq_iff_eq, if_neg h0]
      split_ifs with h1 h2
      · rfl
      · rfl
      · exact absurd hrs (by simp [h1, h2])
    | sub | xor | or | and =>
      simp only [rvShort, Bool.and_eq_true, beq_iff_eq, rvcNamed_iff] at hs
      obtain ⟨⟨rfl, x, rfl⟩, y, rfl⟩ := hs
      simp [RvInstr.encodeC, encodeCOp]
    | _ => cases hs
  | lui => simp_all [rvShort, RvInstr.encodeC]
  | jal rd o =>
    simp only [rvShort, rvOk, Bool.and_eq_true, Bool.or_eq_true, beq_iff_eq] at hs hk
    obtain ⟨rfl | rfl, hf⟩ := hs <;> simp [RvInstr.encodeC, encodeCJ, hf, hk]
  | jalr rd rs1 imm =>
    simp only [rvShort, Bool.and_eq_true, Bool.or_eq_true, beq_iff_eq, bne_iff_ne] at hs
    obtain ⟨⟨rfl | rfl, h0⟩, rfl⟩ := hs <;> simp [RvInstr.encodeC, h0]
  | branch c rs1 rs2 o =>
    cases c with
    | eq | ne =>
      simp only [rvShort, rvOk, Bool.and_eq_true, beq_iff_eq] at hs hk
      simp [RvInstr.encodeC, hs, hk, isSome_rvcReg]
    | _ => cases hs
  | load wd rd rs1 off =>
    cases wd with
    | w =>
      simp only [rvShort, Bool.and_eq_true, Bool.or_eq_true, beq_iff_eq, bne_iff_ne, rvcNamed_iff] at hs
      obtain ⟨hl, ⟨⟨rfl, hrd⟩, hh⟩ | ⟨⟨⟨x, rfl⟩, y, rfl⟩, hh⟩⟩ := hs
      · simp [RvInstr.encodeC, hl, hrd, hh]
      · simp [RvInstr.encodeC, hl, hh, rvc3_ne_two]
    | _ => cases hs
  | store wd rs1 rs2 off =>
    cases wd with
    | w =>
      simp only [rvShort, Bool.and_eq_true, Bool.or_eq_true, beq_iff_eq, rvcNamed_iff] at hs
      obtain ⟨hl, ⟨rfl, hh⟩ | ⟨⟨⟨x, rfl⟩, y, rfl⟩, hh⟩⟩ := hs
      · simp [RvInstr.encodeC, hl, hh]
      · simp [RvInstr.encodeC, hl, hh, rvc3_ne_two]
    | _ => cases hs
  | _ => cases hs

/-! What a compressed word decodes to -/

/-- An instruction that the well-formedness of a compressed form admits. -/
def ShortOk (r : RvInstr) : Prop := rvOk r = true ∧ rvShort r = true

/-- c.addi4spn has an instruction that its form admits. -/
theorem shortOk_addi4spn {rd : BitVec 5} {n : BitVec 10} (hrd : rvcNamed rd = true) (hl : n.extractLsb' 0 2 = 0#2)
    (hn : n ≠ 0#10) : ShortOk (.opImm .add rd 2#5 (n.setWidth 32)) := by
  have hlow : (n.setWidth 32).extractLsb' 0 12 = n.setWidth 12 := by
    ext j hj
    simp [show j < 32 by omega]
  have hhigh : (n.setWidth 32).extractLsb' 10 22 = 0#22 := by
    ext j hj
    simp [show 10 + j < 32 by omega, BitVec.getLsbD_of_ge]
  have hne : n.setWidth 32 ≠ 0#32 := fun h => hn (by simpa using congrArg (BitVec.setWidth 10) h)
  refine ⟨?_, ?_⟩
  · simp [rvOk, hlow, signExtend_setWidth_of_lt]
  · simp only [rvShort, Bool.or_eq_true, Bool.and_eq_true, beq_iff_eq, bne_iff_ne]
    exact .inr ⟨⟨⟨⟨hrd, trivial⟩, hhigh⟩, by simpa [BitVec.extractLsb'_setWidth_of_le] using hl⟩, hne⟩

theorem decodeC0_shortOk {w : BitVec 16} {r : RvInstr} (h : decodeC0 w = some r) : ShortOk r := by
  simp only [decodeC0] at h
  split at h
  case h_1 =>
    split_ifs at h with h0
    cases h
    exact shortOk_addi4spn (rvcNamed_rvc3 _) (by simp) (by simpa using h0)
  case h_2 | h_3 =>
    cases h
    exact ⟨rfl, by simp [rvShort]⟩
  case h_4 => cases h

theorem decodeC1Arith_shortOk {w : BitVec 16} {r : RvInstr} (h : decodeC1Arith w = some r) : ShortOk r := by
  simp only [decodeC1Arith] at h
  split at h
  case h_1 | h_2 =>
    split_ifs at h
    cases h
    exact ⟨decide_eq_true (setWidth_lt_32 _), by simp [rvShort]⟩
  case h_3 =>
    cases h
    exact ⟨by simp [rvOk], by simp [rvShort]⟩
  case h_4 =>
    split_ifs at h
    split at h
    all_goals
      cases h
      exact ⟨rfl, by simp [rvShort]⟩

theorem decodeC1_shortOk {w : BitVec 16} {r : RvInstr} (h : decodeC1 w = some r) : ShortOk r := by
  simp only [decodeC1, beq_iff_eq] at h
  split at h
  case h_1 | h_3 =>
    cases h
    exact ⟨by simp [rvOk], by simp [rvShort]⟩
  case h_2 | h_6 =>
    cases h
    exact ⟨by simp [rvOk, rvcJ], by simp [rvShort, rvcJ]⟩
  case h_4 =>
    split_ifs at h with h0 h2
    all_goals cases h
    · exact ⟨by simp [rvOk], by simp [rvShort]⟩
    · exact ⟨rfl, by simp [rvShort, signExtend_eq_zero, h0, h2]⟩
  case h_5 => exact decodeC1Arith_shortOk h
  case h_7 | h_8 =>
    cases h
    exact ⟨by simp [rvOk, rvcB], by simp [rvShort, rvcB]⟩

/-- A word of quadrant 2 is c.ebreak or has an instruction that its form admits. -/
theorem decodeC2_shortOk {w : BitVec 16} {i : Instr} (h : decodeC2 w = some i) :
    i = .pailStop .ebreak ∨ ∃ r, i = .pailInstruction r true ∧ ShortOk r := by
  simp only [decodeC2, beq_iff_eq] at h
  split at h
  case h_1 =>
    split_ifs at h
    cases h
    exact .inr ⟨_, rfl, decide_eq_true (setWidth_lt_32 _), by simp [rvShort]⟩
  case h_2 =>
    split_ifs at h with h0
    cases h
    exact .inr ⟨_, rfl, rfl, by simp [rvShort, h0]⟩
  case h_3 =>
    split_ifs at h with hhi hrs hrd hrs hrd
    all_goals cases h
    · exact .inl rfl
    all_goals exact .inr ⟨_, rfl, rfl, by simp [rvShort, *]⟩
  case h_4 =>
    cases h
    exact .inr ⟨_, rfl, rfl, by simp [rvShort]⟩
  case h_5 => cases h

/-- A compressed word that decodes is c.ebreak or has an instruction that its form admits. -/
theorem decodeC_shortOk {w : BitVec 16} {i : Instr} (h : decodeC w = some i) :
    i = .pailStop .ebreak ∨ ∃ r, i = .pailInstruction r true ∧ ShortOk r := by
  simp only [decodeC] at h
  split at h
  case h_1 =>
    obtain ⟨r, hr, h⟩ := Option.bind_eq_some_iff.mp h
    cases h
    exact .inr ⟨r, rfl, decodeC0_shortOk hr⟩
  case h_2 =>
    obtain ⟨r, hr, h⟩ := Option.bind_eq_some_iff.mp h
    cases h
    exact .inr ⟨r, rfl, decodeC1_shortOk hr⟩
  case h_3 => exact decodeC2_shortOk h
  case h_4 => cases h

end Sys2Proof
end

section
/-!
SUPPORT. Decoding and encoding agree (R32, R54, R57, R222, R223): the statements O46 and O47.
-/

namespace Sys2Proof

/-- A compressed word that decodes gives a well-formed instruction with a compressed word that decodes to it. -/
theorem encodeC_of_decodeC {w : BitVec 16} {i : Instr} (h : decodeC w = some i) :
    i.wf = true ∧ ∃ w', encodeC i = some w' ∧ decodeC w' = some i := by
  rcases decodeC_shortOk h with rfl | ⟨r, rfl, hk, hs⟩
  · exact ⟨rfl, 0x9002#16, rfl, rfl⟩
  · obtain ⟨w', hw'⟩ := Option.isSome_iff_exists.mp (isSome_encodeC hk hs)
    exact ⟨by simp [Instr.wf, hk, hs], w', hw', decodeC_encodeC hw'⟩

/-- Settles O46: a row of the opcode map gives an instruction back from the fields that encode it, and each Pail form from
its word. -/
theorem encodeThenDecode : Obligations.EncodeThenDecode := by
  unfold Obligations.EncodeThenDecode
  intro i w hw h
  unfold encode at h
  split at h
  case h_1 v =>
    cases h
    have hn : opcodeNamed (v.extractLsb' 58 10) = false := by simpa [Instr.wf] using hw
    rw [decodeCode, decode_unnamed hn]
    rfl
  case h_2 =>
    split at h
    case h_1 f hf =>
      cases h
      rw [decodeCode, decode_encodeFields hw hf]
      rfl
    case h_2 =>
      split at h
      case h_1 r _ =>
        obtain ⟨v, hv, rfl⟩ := Option.map_eq_some_iff.mp h
        exact decodeC_encodeC hv
      case h_2 =>
        obtain ⟨v, hv, rfl⟩ := Option.map_eq_some_iff.mp h
        exact decodePail_encodePail hw hv

/-- Settles O47: each decoder answers only where the word is that of its answer, or has an answer that the short forms
allow. -/
theorem decodedInstructionsAreWellFormed : Obligations.DecodedInstructionsAreWellFormed := by
  unfold Obligations.DecodedInstructionsAreWellFormed
  exact ⟨fun _ _ => encode_of_decode, fun _ _ => encodePail_of_decodePail, fun _ _ => encodeC_of_decodeC⟩

end Sys2Proof
end

section
/-!
SUPPORT. Words that the manual writes out (R33, R35, R133, R145, R223): the statement O45.
-/

namespace Sys2Proof
open Sys2Proof.Machine

/-- Settles O45: each worked compute word is the one that the encoder writes for its well-formed instruction, and decodes to it
by O46. -/
theorem specWordsDecode : Obligations.SpecWordsDecode := by
  unfold Obligations.SpecWordsDecode
  refine ⟨?_, ?_, ?_, ?_, ?_, ?_, ?_, ?_, ?_, ?_, ?_, ?_, ?_, rfl, rfl⟩ <;>
    exact encodeThenDecode _ _ rfl rfl

end Sys2Proof
end

section
/-!
SUPPORT. The checks of a line and a word before it issues (R54, checks 1 to 5) and the step that carries the
instruction out (R51, R54): the statements O48 and O44.
-/

namespace Sys2Proof
open Sys2Proof.Machine

/-! The checks of a line and a word -/

/-- The legal PCs stand at the five slots of a line. -/
theorem pcLegal_iff {pc : Addr} : pcLegal pc = true ↔ pc.toNat % 64 ∈ [0, 12, 24, 36, 48] := by
  simp [pcLegal]

/-- The last slot stands at byte 48 of its line. -/
theorem slotOf_of_mod {pc : Addr} {n : Nat} (h : pc.toNat % 64 = n) : slotOf pc = n / 12 := by rw [slotOf, h]

/-- A word of a named opcode outside the hint space whose control fields hold a reserved value does not decode. -/
theorem decode_reserved {w : IWord} (hn : opcodeNamed (Fields.unpack w).op = true) (hh : isHintOp (Fields.unpack w).op = false)
    (hk : ctlOk (Fields.unpack w).k = false) : decode w = .error .reserved := by
  cases hd : rowOf (Fields.unpack w).op rows with
  | none => rw [rowOf_rows_eq_none.mp hd] at hn; cases hn
  | some d => simp [decode, hd, hh, hk]

variable {line : Nat} {pc : Addr}

/-- Check 1: parity. -/
theorem wordChecks_parity (hp : parityOk line = false) : wordChecks line pc = .error 1 := by simp [wordChecks, hp]

/-- Check 2: the PC. -/
theorem wordChecks_pc (hp : parityOk line = true) (hpc : pcLegal pc = false) : wordChecks line pc = .error 2 := by
  simp [wordChecks, hp, hpc]

/-- Check 3: the last slot of an END line. -/
theorem wordChecks_end (hp : parityOk line = true) (hpc : pcLegal pc = true) (he : lineEnd (lineWord line) = true)
    (hs : slotOf pc = 4) (ht : transferOp (Fields.unpack (slotWord line 4)).op = false) : wordChecks line pc = .error 3 := by
  simp [wordChecks, hp, hpc, he, hs, ht]

/-- Check 4: a reserved field of the word. -/
theorem wordChecks_reserved (hp : parityOk line = true) (hpc : pcLegal pc = true) (hs : slotOf pc ≠ 4)
    (hd : decode (slotWord line (slotOf pc)) = .error .reserved) : wordChecks line pc = .error 5 := by
  simp [wordChecks, hp, hpc, hs, hd]

/-- Check 5: a type code that the entry does not allow. -/
theorem wordChecks_type (hp : parityOk line = true) (hpc : pcLegal pc = true) (hs : slotOf pc ≠ 4)
    (hd : decode (slotWord line (slotOf pc)) = .error .type) (hr : lineReserved (lineWord line) = false) :
    wordChecks line pc = .error 6 := by
  simp [wordChecks, hp, hpc, hs, hd, hr]

/-- Check 4: a reserved field of the line word. -/
theorem wordChecks_lineReserved {i : Instr} (hp : parityOk line = true) (hpc : pcLegal pc = true) (hs : slotOf pc ≠ 4)
    (hh : isHintOp (Fields.unpack (slotWord line (slotOf pc))).op = false)
    (hd : decode (slotWord line (slotOf pc)) = .ok i) (hi : ∀ w, i ≠ .unassignedOpcode w)
    (hr : lineReserved (lineWord line) = true) : wordChecks line pc = .error 5 := by
  simp only [wordChecks, hp, hpc, hd, hr, hh]
  split <;> simp_all

/-- A check that passes. -/
theorem ite_error_left_eq_ok {ε α : Type} {c : Prop} [Decidable c] {x : Except ε α} {e : ε} {a : α} :
    (if c then .error e else x) = .ok a ↔ ¬c ∧ x = .ok a := by
  split <;> simp [*]

/-- A word that passes the checks is one that decodes. -/
theorem decode_of_wordChecks {i : Instr} (h : wordChecks line pc = .ok i) : decode (slotWord line (slotOf pc)) = .ok i := by
  simp only [wordChecks, ite_error_left_eq_ok] at h
  obtain ⟨-, -, -, h⟩ := h
  split at h
  case h_1 hd => cases h; exact hd
  case h_2 hd => rw [ite_error_left_eq_ok] at h; cases h.2; exact hd
  case h_3 => cases h
  case h_4 => rw [ite_error_left_eq_ok] at h; cases h.2

/-- A trap that a group's line or word offers is the illegal-instruction trap at its PC (R54). -/
theorem perform_trap {s : State} {gi : Nat} {g : Group} (hg : s.groups[gi]? = some g) (cause : Nat) :
    s.perform (.group gi) (.trap cause pc) =
      .next ({ s with issuer := none }.takeTrap gi ⟨0x01, cause, 0#32, g.recordAt pc, false⟩ pc) := by
  simp [State.perform, hg]

/-- Settles O48: each check fails with its cause where none before it fails. -/
theorem lineChecksTrap : Obligations.LineChecksTrap := by
  unfold Obligations.LineChecksTrap
  refine ⟨fun _ _ => wordChecks_parity, fun line pc hp hpc => ?_, fun line pc hp hpc he ht => ?_, fun line pc hp hpc hh => ?_,
    fun s gi g cause pc hg => perform_trap hg cause⟩
  · exact wordChecks_pc hp (Bool.eq_false_iff.mpr fun h => hpc (pcLegal_iff.mp h))
  · exact wordChecks_end hp (pcLegal_iff.mpr (by simp [hpc])) he (slotOf_of_mod hpc) ht
  · have hs : slotOf pc ≠ 4 := by
      simp only [List.mem_cons, List.not_mem_nil, or_false] at hpc
      rcases hpc with h | h | h | h <;> simp [slotOf_of_mod h]
    have hl : pcLegal pc = true := pcLegal_iff.mpr (List.mem_append_left [48] hpc)
    exact ⟨fun hn hk => wordChecks_reserved hp hl hs (decode_reserved hn hh hk), wordChecks_type hp hl hs,
      fun i hd hi => wordChecks_lineReserved hp hl hs hh hd hi⟩

/-! The step that carries an instruction out -/

/-- The issuer that stands ready carries its instruction out. -/
theorem step_of_issuer {s : State} {who : Issuer} {i : Instr} (hw : s.issuer = some who)
    (hi : s.mayIssue who = some (.issue i)) : step s = endStep (exec i (s.issuing who)) := by
  simp [step, State.nextTurn, hw, hi, State.perform]

/-- A state in which nobody stands ready takes the first turn of its agenda. -/
theorem step_of_agenda {s : State} {t : Turn} {rest : List Turn} (hn : s.issuer = none) (ha : s.agenda = t :: rest) :
    step s = State.takeTurn { s with agenda := rest } t := by
  cases s
  dsimp only at hn ha
  subst hn ha
  rfl

/-- The turn of an issuer that may issue carries its instruction out. -/
theorem takeTurn_issue {s : State} {who : Issuer} {i : Instr} (hi : s.mayIssue who = some (.issue i)) :
    s.takeTurn (.issue who) = endStep (exec i (s.issuing who)) := by
  simp [State.takeTurn, hi, State.perform]

/-- Where every copy of the line that a run needs is sound, no class of the run lacks its copy. -/
theorem find?_unsound_eq_none {s : State} {g : Group} {pc : Addr} {pa : Nat}
    (h : ∀ lane ∈ g.runClasses pc, ((s.core g.core).copyOf g.ctx pa lane).map TraceEnt.upset = some false) :
    ((g.runClasses pc).find? fun lane =>
      !(((s.core g.core).copyOf g.ctx pa lane).map fun x => !x.upset).getD false) = none := by
  rw [List.find?_eq_none]
  intro lane hl
  obtain ⟨x, hx, hu⟩ := Option.map_eq_some_iff.mp (h lane hl)
  simp [hx, hu]

/-- A group whose line is bound, fetched and traced offers what its word decodes to. -/
theorem offer_eq_offerOf {s : State} {gi : Nat} {g : Group} {c : Context} {pc : Addr} {sel : List Nat} {at_ e pa : Nat} {i : Instr}
    (hg : s.groups[gi]? = some g) (hc : s.contexts[g.ctx]? = some c) (hr : s.groupReady gi g c = true)
    (hp : g.pick = some (pc, sel)) (hb : c.lineBound pc = true) (hw : s.codeWalk c (lineOf pc) = some (at_, e, pa))
    (hf : lineFetched e = true)
    (hl : ∀ lane ∈ g.runClasses pc, ((s.core g.core).copyOf g.ctx pa lane).map TraceEnt.upset = some false)
    (hi : wordChecks (s.lineBits g.ctx pa) pc = .ok i) :
    s.offer gi = s.offerOf gi g (Fields.unpack (slotWord (s.lineBits g.ctx pa) (slotOf pc))) i sel := by
  simp [State.offer, hg, hc, hr, hp, hb, hw, hf, find?_unsound_eq_none hl, hi]

/-- An instruction that takes the trap of check 6 or 7 issues; so does one that check 8 lets through. -/
theorem offerOf_issues {s : State} {gi : Nat} {g : Group} {f : Fields} {i : Instr} {sel : List Nat}
    (h : s.tryFails gi i = true ∨ s.distMet g f.k = true ∧ g.lateFor (s.groupCk g) f.k i = false ∧
      g.waitMet f.k.wait = true ∧ s.flagFits gi g f i sel = true) :
    s.offerOf gi g f i sel = some (.issue i) := by
  unfold State.offerOf
  rcases h with h | ⟨hd, hl, hw, hf⟩
  · simp [h]
  · simp [hd, hl, hw, hf]

/-- A Pail at an even PC whose store holds a 32-bit word there fetches the instruction that it decodes to. -/
theorem fetch_of_decodePail {p : Pail} {i : Instr} (he : p.pc.toNat % 2 = 0) (hb : p.pc.toNat + 4 ≤ 0x4000)
    (hw : spGet 0#8 p.istore p.pc.toNat &&& 3#8 = 3#8)
    (hd : decodePail (spGet 0#8 p.istore (p.pc.toNat + 3) ++ spGet 0#8 p.istore (p.pc.toNat + 2) ++
      spGet 0#8 p.istore (p.pc.toNat + 1) ++ spGet 0#8 p.istore p.pc.toNat) = some i) : p.fetch = i := by
  have hlow : (spGet 0#8 p.istore (p.pc.toNat + 1) ++ spGet 0#8 p.istore p.pc.toNat).extractLsb' 0 2 = 3#2 := by
    rw [extractLsb'_append_low _ _ (by decide)]
    have h := congrArg (BitVec.extractLsb' 0 2) hw
    rw [BitVec.extractLsb'_and, show (3#8).extractLsb' 0 2 = BitVec.allOnes 2 from rfl, BitVec.and_allOnes] at h
    exact h
  have hword : ∀ b3 b2 b1 b0 : Byte, (b3 ++ b2 ++ (b1 ++ b0) : BitVec 32) = b3 ++ b2 ++ b1 ++ b0 := by
    intro b3 b2 b1 b0
    simp
  simp [Pail.fetch, he, hlow, hword, hd, show ¬ 0x4000 < p.pc.toNat + 2 by omega, show ¬ 0x4000 < p.pc.toNat + 4 by omega]

/-- Settles O44: an issuer's turn performs what it offers, and a group offers what its line word decodes to once the checks of
the line pass. -/
theorem stepRunsTheDecodedInstruction : Obligations.StepRunsTheDecodedInstruction := by
  unfold Obligations.StepRunsTheDecodedInstruction
  refine ⟨fun _ _ _ => step_of_issuer, fun s who i t h => by rw [h, endStep], 
    fun s who i rest hn ha hi => by rw [step_of_agenda hn ha, takeTurn_issue hi], ?_,
    fun _ _ _ => decode_of_wordChecks, fun _ _ => fetch_of_decodePail⟩
  intro s gi g c pc sel at_ e pa i hg hc hr hp hb hw hf hl hi h
  rw [offer_eq_offerOf hg hc hr hp hb hw hf hl hi]
  refine offerOf_issues (h.imp_right ?_)
  rintro ⟨f, rfl, h⟩
  exact h

end Sys2Proof
end

section
/-!
SUPPORT. Hints and opcodes that R57 does not name (R56, R58, R246, R341, R344): the statement O29.
-/

namespace Sys2Proof
open Sys2Proof.Machine

/-! Results told by the writes of the records -/

/-- Results deliver a value where their writes are those of the run's records, each a destination write and a latch write at
the record's guarded positions. -/
theorem delivers_of_records {F : ValueForm} {i : Iss} {v : Values} (hk : F.k = i.k)
    (honly : ∀ w ∈ v.range ++ v.lane, ∃ r ∈ i.run, ∃ fs, w ∈ i.dstWrites F.d F.words (F.val i (F.times i v.gc)) (i.onIn r) fs ++
      i.latchWrites F.words (F.val i (F.times i v.gc)) (i.onIn r) fs)
    (hall : ∀ r ∈ i.run, i.onIn r ≠ [] → ∃ fs, i.dstWrites F.d F.words (F.val i (F.times i v.gc)) (i.onIn r) fs ++
      i.latchWrites F.words (F.val i (F.times i v.gc)) (i.onIn r) fs ⊆ v.range ++ v.lane)
    (hpasses : ∃ sel : Rec → Bool, (∀ r, sel r = true → i.inRun r = true) ∧ v.gc = i.g.expand sel)
    (hgroup : ∃ sel : Rec → Bool, (∀ r, sel r = true → i.inRun r = true) ∧
      v.g = { i.g.expand sel with sr := F.sr i (F.times i v.gc) })
    (hcounts : v.nRange = (i.ranges v.g).length ∧ v.nLane = (i.lanes v.g).length) : F.Delivers i v where
  only w hw := by
    obtain ⟨r, hr, fs, h⟩ := honly w hw
    have hps : ∀ p ∈ i.onIn r, p ∈ i.onByAge := fun p hp => Iss.mem_onByAge.mpr ⟨r, hr, hp⟩
    rcases List.mem_append.mp h with h | h
    · exact F.dstWrites_ok _ hk hps w h
    · exact F.latchWrites_ok _ hk hps w h
  vreg n hd hn p hp j hj := by
    obtain ⟨r, hr, hpr⟩ := Iss.mem_onByAge.mp hp
    obtain ⟨fs, hsub⟩ := hall r hr (List.ne_nil_of_mem hpr)
    obtain ⟨vs, f, hw, hv⟩ := F.dstWrites_v (F.times i v.gc) hk (fs := fs) hd hn hpr hj
    exact ⟨vs, f, hsub (List.mem_append_left _ hw), hv⟩
  sreg n hd hn hne j hj := by
    obtain ⟨p, hp⟩ := List.exists_mem_of_ne_nil _ hne
    obtain ⟨r, hr, hpr⟩ := Iss.mem_onByAge.mp hp
    obtain ⟨fs, hsub⟩ := hall r hr (List.ne_nil_of_mem hpr)
    obtain ⟨w, hw⟩ := F.dstWrites_s (F.times i v.gc) hk (fs := fs) hd hn (List.ne_nil_of_mem hpr) hj
    exact ⟨w, hsub (List.mem_append_left _ hw)⟩
  latch j l hl p hp := by
    obtain ⟨r, hr, hpr⟩ := Iss.mem_onByAge.mp hp
    obtain ⟨fs, hsub⟩ := hall r hr (List.ne_nil_of_mem hpr)
    obtain ⟨vs, f, hw, hv⟩ := F.latchWrites_at (F.times i v.gc) hk (fs := fs) hl hpr
    exact ⟨vs, f, hsub (List.mem_append_right _ hw), hv⟩
  passes := hpasses
  group := hgroup
  counts := hcounts

/-! The word of a hint -/

/-- A hint's word as a value form: U at every position, at latency 1. -/
def hintForm (k : Ctl) (d : Opnd) (w : Word) : ValueForm := uForm k [] d 1 1 1 fun _ _ _ => w

/-- No record keeps a hint's word from an s destination: the word is U. -/
theorem sFails_hint {i : Iss} {d : Opnd} {w : Word} {r : Rec} {n : Fin 56} (hd : d = .s n) :
    i.sFails 1 (fun _ _ => w) d (fun _ => .form [⟨.u, w, 0#32⟩]) (fun _ => true) r = false := by
  subst hd
  by_cases ho : (i.onIn r).isEmpty <;>
    simp [Iss.sFails, Iss.plan, ho, Iss.partialPlan, Iss.vDst, Form.norm]

/-- The writes of a record that issues a hint's word in its form are a destination write and a latch write. -/
theorem recWrites_hint {i : Iss} {d : Opnd} {w : Word} {r : Rec}
    (h : r.lane = true ∨ i.onIn r = [] ∨ i.partialPlan d r [⟨.u, w, 0#32⟩] = .forms [⟨.u, w, 0#32⟩]) :
    i.recWrites d 1 (fun _ _ => w) true (i.plan d 1 (fun _ _ => w) r (.form [⟨.u, w, 0#32⟩])) r (i.onIn r) =
      i.dstWrites d 1 (fun _ _ => w) (i.onIn r) [⟨.u, w, 0#32⟩] ++ i.latchWrites 1 (fun _ _ => w) (i.onIn r) [⟨.u, w, 0#32⟩] := by
  by_cases hl : r.lane = true
  · simp [Iss.recWrites, hl, wordForms]
  · by_cases ho : i.onIn r = []
    · simp [Iss.recWrites, hl, Iss.plan, ho, Iss.dstWrites, Iss.latchWrites]
    · have hp := (h.resolve_left hl).resolve_left ho
      simp [Iss.recWrites, hl, Iss.plan, ho, hp, Form.norm]

/-- A range record takes a hint's word in its form, or expands. -/
theorem partialPlan_cases (i : Iss) (d : Opnd) (r : Rec) (fs : List Form) :
    i.partialPlan d r fs = .expand ∨ i.partialPlan d r fs = .forms fs := by
  unfold Iss.partialPlan
  split
  · split <;> simp
  · exact .inr rfl

/-- A range record of the run that expands for a hint's word: its guard is true at some of its positions only. -/
def hintExpands (i : Iss) (d : Opnd) (w : Word) (r : Rec) : Bool :=
  !r.lane && i.inRun r && i.plan d 1 (fun _ _ => w) r (.form [⟨.u, w, 0#32⟩]) == .expand

/-- The writes of a record that issues a hint's word. -/
def hintWrites (i : Iss) (d : Opnd) (w : Word) (r : Rec) : List RegWrite :=
  i.dstWrites d 1 (fun _ _ => w) (i.onIn r) [⟨.u, w, 0#32⟩] ++ i.latchWrites 1 (fun _ _ => w) (i.onIn r) [⟨.u, w, 0#32⟩]

/-- A record without a guarded position writes nothing. -/
theorem hintWrites_of_empty {i : Iss} {d : Opnd} {w : Word} {r : Rec} (h : i.onIn r = []) : hintWrites i d w r = [] := by
  simp [hintWrites, h, Iss.dstWrites, Iss.latchWrites]

/-- The results of a hint: those of its range records and, as U again, those of its lane records and of the records that
expand. -/
theorem hintValues_eq (i : Iss) (d : Opnd) (w : Word) : i.hintValues d w = .ok
    { gc := i.g.expand (hintExpands i d w), g := i.g.expand (hintExpands i d w),
      range := (i.inOrder.filter fun r => !r.lane && !hintExpands i d w r).flatMap fun r =>
        i.recWrites d 1 (fun _ _ => w) true (i.plan d 1 (fun _ _ => w) r (.form [⟨.u, w, 0#32⟩])) r (i.onIn r),
      nRange := (i.ranges (i.g.expand (hintExpands i d w))).length,
      lane := (i.inOrder.filter fun r => r.lane || i.partialPlan d r [⟨.u, w, 0#32⟩] == .expand).flatMap (hintWrites i d w),
      nLane := (i.lanes (i.g.expand (hintExpands i d w))).length } := by
  have hbad : (if isSDst d = true then (i.run.filter (i.sFails 1 (fun _ _ => w) d (fun _ => .form [⟨.u, w, 0#32⟩])
      fun _ => true)).flatMap i.onIn else []) = [] := by
    cases d
    case s n => simp [sFails_hint rfl]
    all_goals rfl
  unfold Iss.hintValues Iss.values
  simp only [hbad, failAt_nil]
  rfl

/-- The results of a hint deliver its word. -/
theorem hintValues_delivers {i : Iss} {k : Ctl} (hk : i.k = k) (d : Opnd) (w : Word) :
    ∃ v, i.hintValues d w = .ok v ∧ (hintForm k d w).Delivers i v := by
  refine ⟨_, hintValues_eq i d w, ?_⟩
  have hsel : ∀ r, hintExpands i d w r = true → i.inRun r = true := by
    intro r h
    simp only [hintExpands, Bool.and_eq_true] at h
    exact h.1.2
  have hform : ∀ r ∈ i.run, (!r.lane && !hintExpands i d w r) = true →
      i.recWrites d 1 (fun _ _ => w) true (i.plan d 1 (fun _ _ => w) r (.form [⟨.u, w, 0#32⟩])) r (i.onIn r) = hintWrites i d w r := by
    intro r hr h
    refine recWrites_hint (or_iff_not_imp_left.mpr fun hl => or_iff_not_imp_left.mpr fun ho => ?_)
    refine (partialPlan_cases i d r _).resolve_left fun he => ?_
    simp [hintExpands, hl, (Iss.mem_run.mp hr).2, Iss.plan, ho, Form.norm, he] at h
  have hmem : ∀ {r}, r ∈ i.inOrder ↔ r ∈ i.run := Iss.mem_inOrder
  refine delivers_of_records hk.symm ?_ ?_ ⟨_, hsel, rfl⟩ ⟨_, hsel, rfl⟩ ⟨rfl, rfl⟩
  · intro x hx
    simp only [List.mem_append, List.mem_flatMap, List.mem_filter, hmem] at hx
    rcases hx with ⟨r, ⟨hr, h⟩, hx⟩ | ⟨r, ⟨hr, -⟩, hx⟩
    · exact ⟨r, hr, _, hform r hr h ▸ hx⟩
    · exact ⟨r, hr, _, hx⟩
  · intro r hr ho
    refine ⟨[⟨.u, w, 0#32⟩], fun x hx => ?_⟩
    change x ∈ hintWrites i d w r at hx
    simp only [List.mem_append, List.mem_flatMap, List.mem_filter, hmem]
    by_cases h : (!r.lane && !hintExpands i d w r) = true
    · exact .inl ⟨r, ⟨hr, h⟩, (hform r hr h).symm ▸ hx⟩
    · refine .inr ⟨r, ⟨hr, ?_⟩, hx⟩
      rcases Bool.eq_false_or_eq_true r.lane with hl | hl
      · simp [hl]
      · have he : hintExpands i d w r = true := by simpa [hl] using h
        simpa [hintExpands, hl, (Iss.mem_run.mp hr).2, Iss.plan, ho, Form.norm] using he

/-! The hints -/

/-- A run acts where its guard is true somewhere. -/
theorem acts_iff {i : Iss} : i.acts = true ↔ i.on ≠ [] := by simp [Iss.acts]

variable {s : State} {i : Iss} {k : Ctl} {f : HintFields}

/-- A hint that loads no translations completes as it stands. -/
theorem execPref_eq (hi : s.iss k = some i) (ht : i.trial = false) : execPref k f s =
    .next ((s.fillL2 (coreCluster i.g.core) (i.prefEnts s f)).finish i i.g i.g [] 0 0 [⟨1, i.run.length, []⟩] i.advance) :=
  State.issue_ok hi rfl ht

/-- A `pref` that breaks its limits, or whose guard is false everywhere, loads nothing. -/
theorem prefEnts_eq_nil (h : prefOk f = false ∨ i.on = []) : i.prefEnts s f = [] := by
  rcases h with h | h <;> simp [Iss.prefEnts, Iss.acts, h]

/-- The translations of a `pref` that keeps its limits. -/
theorem prefEnts_eq (h : prefOk f = true) (ho : i.on ≠ []) : i.prefEnts s f =
    s.prefPages i.ci i.ctx ((prefAddr i f).toNat / 2 ^ 56) (2 ^ (f.imm >>> 16).toNat) ((prefAddr i f).toNat % 2 ^ 56) := by
  simp [Iss.prefEnts, h, acts_iff.mpr ho]

/-- The fields of a `phend` word that ends a phase. -/
def phendOk (f : HintFields) : Prop := f.dst = 0xFF#8 ∧ f.a = 0#8 ∧ f.b = 0#8 ∧ f.c = 0#8 ∧ f.md = 0#6 ∧ f.imm = 0#20

/-- A `phend` that acts ends the phase. -/
theorem execPhend_ends (hi : s.iss k = some i) (ht : i.trial = false) (hf : phendOk f) (ho : i.on ≠ []) : execPhend k f s =
    .next (s.finish i i.g { i.g with phase := none } [] 0 0 [⟨1, i.run.length, []⟩] i.advance) := by
  obtain ⟨h1, h2, h3, h4, h5, h6⟩ := hf
  refine State.issue_ok hi ?_ ht
  simp [h1, h2, h3, h4, h5, h6, acts_iff.mpr ho]

/-- A `phend` that is broken, or whose guard is false everywhere, changes no phase. -/
theorem execPhend_keeps (hi : s.iss k = some i) (ht : i.trial = false) (h : ¬ phendOk f ∨ i.on = []) : execPhend k f s =
    .next (s.finish i i.g i.g [] 0 0 [⟨1, i.run.length, []⟩] i.advance) := by
  refine State.issue_ok hi ?_ ht
  have hn : ((f.dst == 0xFF#8 && f.a == 0#8 && f.b == 0#8 && f.c == 0#8 && f.md == 0#6 && f.imm == 0#20) && i.acts) = false := by
    rcases h with h | h
    · rw [Bool.eq_false_iff]
      intro hc
      simp only [Bool.and_eq_true, beq_iff_eq] at hc
      exact h ⟨hc.1.1.1.1.1.1, hc.1.1.1.1.1.2, hc.1.1.1.1.2, hc.1.1.1.2, hc.1.1.2, hc.1.2⟩
    · simp [Iss.acts, h]
  simp [hn]

/-- A hint that is not carried out delivers its default. -/
theorem hintDefault_delivers (hk : i.k = k) (d : Opnd) (c : BitVec 16) : ∃ v, (hintForm k d (c.setWidth 32)).Delivers i v ∧
    s.hintDefault i d c = .ok (s.finishValues i [] 1 1 v) := by
  obtain ⟨v, hv, hd⟩ := hintValues_delivers hk d (c.setWidth 32)
  exact ⟨v, hd, by rw [State.hintDefault, hv]; rfl⟩

/-- A `phase` that breaks its limits, or in a handler, delivers its default. -/
theorem execPhase_default (hi : s.iss k = some i) (ht : i.trial = false) (h : phaseOk f = false ∨ i.g.serves.isSome = true) :
    ∃ v, (hintForm k (hintDst f) ((f.imm.setWidth 16).setWidth 32)).Delivers i v ∧
      execPhase k f s = .next (s.finishValues i [] 1 1 v) := by
  obtain ⟨v, hd, hv⟩ := hintDefault_delivers (s := s) (State.iss_k hi) (hintDst f) (f.imm.setWidth 16)
  refine ⟨v, hd, State.issue_ok hi ?_ ht⟩
  have hb : (!phaseOk f || i.g.serves.isSome) = true := by simpa using h
  simp only [hb, if_true, hv]

/-- The offset that the islands of a core grant to a `phase` (R342). -/
def grantedOffset (s : State) (i : Iss) (f : HintFields) : Nat :=
  grantOffset (s.schedule i.g.core i.gi) (i.now + f.a.toNat) (phaseInt f)

/-- The results with the phase that a granted `phase` opens, where its guard is true somewhere. -/
def withPhase (i : Iss) (f : HintFields) (o : Nat) (v : Values) : Values :=
  if i.on = [] then v else { v with g := { v.g with phase := some (newPhase i.now f.a.toNat (phaseLen f) (phaseInt f) o) } }

/-- A `phase` that is granted delivers its offset and opens its phase. -/
theorem execPhase_granted (hi : s.iss k = some i) (ht : i.trial = false) (hf : phaseOk f = true) (hs : i.g.serves = none)
    (hg : i.on = [] ∨ s.grantedAfter i.g = false) :
    ∃ v, (hintForm k (hintDst f) (w32 (grantedOffset s i f))).Delivers i v ∧
      execPhase k f s = .next (s.finishValues i [] 1 1 (withPhase i f (grantedOffset s i f) v)) := by
  obtain ⟨v, hv, hd⟩ := hintValues_delivers (State.iss_k hi) (hintDst f) (w32 (grantedOffset s i f))
  refine ⟨v, hd, State.issue_ok hi ?_ ht⟩
  have hw : (i.acts && s.grantedAfter i.g) = false := by rcases hg with h | h <;> simp [Iss.acts, h]
  rw [grantedOffset] at hv
  simp only [hf, hs, hw, hv, withPhase, grantedOffset]
  by_cases ho : i.on = []
  · simp [ho, Iss.acts]; rfl
  · simp [ho, Iss.acts]; rfl

/-- An opcode of the hint space that R57 does not name delivers IMM[15:0]. -/
theorem execUnassignedOpcode_hint {w : IWord} (hi : s.iss (Fields.unpack w).k = some i) (ht : i.trial = false)
    (hh : isHintOp (Fields.unpack w).op = true) :
    ∃ v, (hintForm (Fields.unpack w).k (hintDst (hintOf w)) (((Fields.unpack w).imm.setWidth 16).setWidth 32)).Delivers i v ∧
      execUnassignedOpcode w s = .next (s.finishValues i [] 1 1 v) := by
  obtain ⟨v, hd, hv⟩ := hintDefault_delivers (s := s) (State.iss_k hi) (hintDst (hintOf w)) ((Fields.unpack w).imm.setWidth 16)
  exact ⟨v, hd, State.issue_ok hi (by simp only [hh, if_true, hv]) ht⟩

/-- Another opcode that R57 does not name takes the illegal-instruction trap with cause 4. -/
theorem execUnassignedOpcode_illegal {w : IWord} (hi : s.iss (Fields.unpack w).k = some i)
    (hh : isHintOp (Fields.unpack w).op = false) : execUnassignedOpcode w s =
      .next (s.takeTrap i.gi ⟨0x01, 4, 0#32, i.trapRecord none, false⟩ i.pc) := by
  rw [execUnassignedOpcode, State.issue_error hi (e := illegal 4) (by simp [hh])]
  rfl

/-- Settles O29: each hint by what its fields and the run's guard allow, and an unnamed opcode by the space it lies in. -/
theorem hintsAndUnassignedOpcodes : Obligations.HintsAndUnassignedOpcodes := by
  unfold Obligations.HintsAndUnassignedOpcodes
  refine ⟨fun k f s i hi ht => ⟨fun h => ?_, fun h ho va hva => ?_, fun h => execPhend_ends hi ht h, fun h => execPhend_keeps hi ht h,
    fun w F hF => ⟨fun h hw => ?_, fun h hs hg o ho hw => ?_⟩⟩,
    fun w s i hi => ⟨fun hh ht => execUnassignedOpcode_hint hi ht hh, execUnassignedOpcode_illegal hi⟩⟩
  · refine (execPref_eq hi ht).trans ?_
    rw [prefEnts_eq_nil h]
    rfl
  · subst hva
    refine (execPref_eq hi ht).trans ?_
    rw [prefEnts_eq h ho]
    rfl
  · subst hF hw
    exact execPhase_default hi ht h
  · subst hF hw ho
    exact execPhase_granted hi ht h hs hg

end Sys2Proof
end

section
/-!
SUPPORT. The frame of a value instruction (R48, R99, R112): the statement O10, which fails where the s registers of a
group do not stand in their canonical order.
-/

namespace Sys2Proof
open Sys2Proof.Machine

/-! A group whose s registers are listed out of order: s3 before s1, so that s1 reads 0 until s3 is written 0. -/

/-- No guard, no flag, no latch. -/
def plainCtl : Ctl := ⟨0, 0, 0, 0, false, false, 7⟩

/-- A group of 16 at its start, with its s registers out of order. -/
def unorderedGroup : Group := Group.start 0 0 0 0 0 16 0#64 [(3, 1#32), (1, 1#32)] 1#32

/-- The context of the group. -/
def unorderedCtx : Context := Context.fresh 0 4096 [0] false 0
/-- Its task. -/
def unorderedTask : Task := probeTask 0 (probeKernel 0#64)
/-- Its team. -/
def unorderedTeam : Team := probeTeam 0 0 0 [0] []

/-- The device with that group alone, which issues next. -/
def unorderedState : State :=
  { State.reset with
    contexts := [unorderedCtx], tasks := [unorderedTask], teams := [unorderedTeam], groups := [unorderedGroup],
    issuer := some (.group 0) }

/-- The issue of its run. -/
def unorderedIss : Iss :=
  { gi := 0, g0 := unorderedGroup, g := unorderedGroup, k := plainCtl, pc := 0#64, sel := List.range 16, ci := 0,
    ctx := unorderedCtx, ti := 0, t := unorderedTeam, task := unorderedTask, kern := probeKernel 0#64, now := 0, trial := false }

/-- `movi` of 0 to s3. -/
def clearS3 : Instr := .movi plainCtl .i32 (.s 3) 0#36

/-- What O1 says of it. -/
def clearS3Form : ValueForm := intForm plainCtl .i32 (.s 3) [immSrc .i32 0#36] (of1 fun _ x => x)

/-- The issuing run is the group's one record. -/
theorem iss_unordered : unorderedState.iss plainCtl = some unorderedIss := rfl

/-- Its records are sound. -/
theorem sound_unordered : unorderedIss.g.sound = true := rfl

/-- Its operands pass their checks. -/
theorem check_unordered : unorderedIss.check clearS3Form.ns = .ok () := rfl

/-- The word of an immediate is U in every record. -/
theorem sOk_unordered : clearS3Form.sOk unorderedIss := by
  refine .inr fun sel _ r hr _ => ?_
  have hr : r = ⟨false, 0, 1, 16, 0#64, none, false, []⟩ := List.mem_singleton.mp hr
  subst hr
  exact ⟨_, rfl, rfl⟩

/-- The instruction lists s1 again: it read 0 before and reads 1 after. -/
theorem exec_unordered : ∃ t, exec clearS3 unorderedState = .next t ∧
    (t.groups[0]?).map (fun g => spGet 0#32 g.s 1) = some 1#32 := ⟨_, rfl, rfl⟩

/-- s1 is no destination of it. -/
theorem not_dstS_unordered : ¬ clearS3Form.dstS 1 := by
  rintro ⟨d, j, hd, -, -, h⟩
  cases hd
  simp at h
  omega

/-- Refutes O10: `Group.sound` does not ask that the s registers are listed in canonical order, and where s3 is listed before s1
a write of 0 to s3 changes what s1 reads. (The statement wants `sparseWf 0#32 0 i.g.s`, as O53 has it.) -/
theorem not_valueInstructionFrame : ¬ Obligations.ValueInstructionFrame := by
  unfold Obligations.ValueInstructionFrame
  intro h
  obtain ⟨t, ht, h1⟩ := exec_unordered
  obtain ⟨-, g', hg, -, -, -, -, -, -, -, -, -, hs, -⟩ :=
    h clearS3 clearS3Form unorderedState unorderedIss t rfl iss_unordered sound_unordered rfl check_unordered sOk_unordered ht
  have hg : t.groups[0]? = some g' := hg
  rw [hg, Option.map_some, Option.some_inj, hs 1 not_dstS_unordered] at h1
  exact absurd h1 (by decide)

end Sys2Proof
end

section
/-!
SUPPORT. What the end of an issue counts, and a record with a position that no guard and no predicate mask reaches: the
statement O2, which fails where a record holds such a position (R85, R89).
-/

namespace Sys2Proof.Machine

/-! The stamp of an issue -/

/-- What each step of a fold keeps, the fold keeps. -/
theorem foldl_keeps {σ α β : Type} {f : σ → α → σ} {π : σ → β} (hf : ∀ s a, π (f s a) = π s) (l : List α) (s : σ) :
    π (l.foldl f s) = π s := by
  induction l generalizing s with
  | nil => rfl
  | cons a l ih => exact (ih _).trans (hf s a)

theorem State.land_ord (s : State) (gi ord : Nat) (w : RegWrite) : (s.land gi ord w).ord = s.ord := by
  unfold State.land
  split <;> rfl

theorem State.landAll_ord (s : State) (gi ord : Nat) (ws : List RegWrite) : (s.landAll gi ord ws).ord = s.ord :=
  foldl_keeps (π := State.ord) (fun s w => s.land_ord gi ord w) ws s

theorem State.launch_ord (s : State) (gi ord sig last : Nat) (r : Res) : (s.launch gi ord sig last r).ord = s.ord := by
  unfold State.launch
  dsimp only
  split
  · split
    · exact s.landAll_ord _ _ _
    · exact s.landAll_ord _ _ _
  · split <;> rfl

theorem State.countPair_ord (s : State) (i : Iss) (gc g : Group) : (s.countPair i gc g).ord = s.ord := by
  unfold State.countPair
  split
  · rfl
  · dsimp only
    split <;> rfl

/-- The issue of a group that is not single-stepped takes the next stamp of the program order. -/
theorem State.finish_ord {i : Iss} (h : i.g0.step = none) (s : State) (gc g : Group) (regs : List Nat) (extra pend : Nat)
    (res : List Res) (move : Group → Group) : (s.finish i gc g regs extra pend res move).ord = s.ord + 1 := by
  unfold State.finish State.stepped
  simp only [h]
  refine (foldl_keeps (π := State.ord) (fun s r => s.launch_ord _ _ _ _ r) res _).trans ?_
  rw [State.countPair_ord]
  split <;> rfl

end Sys2Proof.Machine

namespace Sys2Proof
open Sys2Proof.Machine

/-! A record with a stray position -/

/-- A range record of the positions 0 and 64 of a group of 32. -/
def strayRec : Rec := ⟨false, 0, 64, 2, 0#64, none, false, []⟩

/-- A group that holds that record alone. -/
def strayGroup : Group := { Group.start 0 0 0 0 0 32 0#64 [] 1#32 with recs := [strayRec] }

/-- The device with that group alone, which issues next. -/
def strayState : State := { unorderedState with groups := [strayGroup] }

/-- The issue of its run. -/
def strayIss : Iss := { unorderedIss with g0 := strayGroup, g := strayGroup, sel := [0, 64] }

/-- `pmov` of p7, which reads true, to s0. -/
def moveP7 : Instr := .pmov plainCtl (.s 0) (.p 7)

/-- The values that O2 gives it: 1 at every position. -/
def moveP7Val : Iss → Times → Nat → Nat → Word := own fun i p _ => if predAt (.p 7) i p then 1#32 else 0#32

/-- What O2 says of it. -/
def moveP7Form : ValueForm :=
  { k := plainCtl, ns := [dstVS (.s 0), predS (.p 7)], d := .s 0, words := 1, lr := 1, ll := 2, val := moveP7Val,
    uni := sameIn 1 moveP7Val }

/-- The issuing run is the group's one record. -/
theorem iss_stray : strayState.iss plainCtl = some strayIss := rfl

/-- Its operands pass their checks. -/
theorem check_stray : strayIss.check moveP7Form.ns = .ok () := rfl

/-- Nothing is in flight, so each position finds the issue itself. -/
theorem times_stray (gc : Group) : moveP7Form.times strayIss gc = fun _ => strayIss := rfl

/-- By the form the s destination gets a U result: p7 reads true at both positions. -/
theorem sOk_stray : moveP7Form.sOk strayIss := by
  refine .inr fun sel _ r hr _ => ?_
  have hr : r = strayRec := List.mem_singleton.mp hr
  subst hr
  rw [times_stray]
  exact ⟨strayRec, rfl, rfl⟩

/-- The model reads p7 through a mask of 64 positions, so that the two results differ and the s destination traps (R90): no
issue is counted. -/
theorem exec_stray : ∃ t, exec moveP7 strayState = .next t ∧ t.ord = 0 := ⟨_, rfl, rfl⟩

/-- An issue of a sound group that meets what O2 asks, and whose instruction does not complete. -/
theorem exists_sound_pmov_traps : ∃ x F s i, formValue x = some F ∧ s.iss F.k = some i ∧ i.g.sound = true ∧
    i.check F.ns = .ok () ∧ F.sOk i ∧ ∀ v, exec x s ≠ .next (s.finishValues i F.ns F.lr F.ll v) := by
  refine ⟨moveP7, moveP7Form, strayState, strayIss, rfl, iss_stray, rfl, check_stray, sOk_stray, fun v hv => ?_⟩
  obtain ⟨t, ht, hord⟩ := exec_stray
  rw [hv] at ht
  cases ht
  have hfin : (strayState.finishValues strayIss moveP7Form.ns moveP7Form.lr moveP7Form.ll v).ord = 1 := State.finish_ord rfl ..
  exact absurd (hfin.symm.trans hord) (by decide)

/-- Refutes O2: in a record with a position beyond 63, `pmov` of p7 to an s register traps where its form says that it
completes. (`Group.sound` sets no limit on positions, so the statement wants that every position lies below 64, R85.) -/
theorem not_formAndLaunchResults : ¬ Obligations.FormAndLaunchResults := by
  unfold Obligations.FormAndLaunchResults
  intro h
  obtain ⟨x, F, s, i, hF, hi, -, hc, hs, hne⟩ := exists_sound_pmov_traps
  obtain ⟨v, -, hv⟩ := h x F hF s i hi hc hs
  exact hne v hv

end Sys2Proof
end

section
/-!
SUPPORT. What a task instruction answers (R64, R74, R351): a submission, a status or a block, and the least tick whose
release falls after a time; the statement O28.
-/

namespace Sys2Proof.Machine

/-! What a wait finds at once (R74) -/

section
variable {s : State} {i : Iss} {h : Word}

/-- A handle with bit 31 set is an error handle. -/
theorem State.handleStatus_error (hb : h.getLsbD 31 = true) : s.handleStatus i h = some 3#32 := by
  simp [State.handleStatus, hb]

/-- A serial ahead of the newest one has not been issued. -/
theorem State.handleStatus_ahead (hb : h.getLsbD 31 = false) (ha : serialAhead (h.toNat % 2 ^ 30) i.ctx.serial = true) :
    s.handleStatus i h = some 1#32 := by
  simp only [State.handleStatus, hb, ha]
  rfl

/-- A handle of a task that the Churn no longer lists is committed. -/
theorem State.handleStatus_unlisted (hb : h.getLsbD 31 = false) (ha : serialAhead (h.toNat % 2 ^ 30) i.ctx.serial = false)
    (hm : s.taskIndex i.ci (h.toNat % 2 ^ 30) = none) : s.handleStatus i h = some 0#32 := by
  simp only [State.handleStatus, hb, ha, hm]
  rfl

/-- A handle of a listed task: a wait that would not end, a committed task, or one to block on. -/
theorem State.handleStatus_listed {m : Nat} (hb : h.getLsbD 31 = false)
    (ha : serialAhead (h.toNat % 2 ^ 30) i.ctx.serial = false) (hm : s.taskIndex i.ci (h.toNat % 2 ^ 30) = some m) :
    s.handleStatus i h = if s.waitsOn i.t.task (m + 1) m then some 2#32
      else if s.taskCommitted i.ci (h.toNat % 2 ^ 30) then some 0#32 else none := by
  simp only [State.handleStatus, hb, ha, hm]
  rfl

/-- No other task of the context is open. -/
theorem State.allStatus_nil (hn : s.otherTasks i = []) : s.allStatus i = some 0#32 := by simp [State.allStatus, hn]

/-- One of the other tasks waits on the waiter's own. -/
theorem State.allStatus_circular (hm : ∃ m ∈ s.otherTasks i, s.waitsOn i.t.task (m + 1) m = true) :
    s.allStatus i = some 2#32 := by
  have hany : ((s.otherTasks i).any fun m => s.waitsOn i.t.task (m + 1) m) = true := List.any_eq_true.mpr hm
  simp only [State.allStatus, hany]
  rfl

/-- Other tasks are open and none of them waits on the waiter's own. -/
theorem State.allStatus_open (hn : s.otherTasks i ≠ []) (hm : ∀ m ∈ s.otherTasks i, s.waitsOn i.t.task (m + 1) m = false) :
    s.allStatus i = none := by
  have hany : ((s.otherTasks i).any fun m => s.waitsOn i.t.task (m + 1) m) = false := by simpa using hm
  simp [State.allStatus, hany, hn]

end

/-! The tick that a `stepwait` waits for (R351) -/

/-- The tick whose release is the first after a time. -/
theorem nextTick_eq {w : Word} {t n : Nat} (hn : t < n * stepPeriod w + stepOffset w)
    (hmin : ∀ m < n, m * stepPeriod w + stepOffset w ≤ t) : nextTick w t = n := by
  unfold nextTick
  cases n with
  | zero => simp at hn; simp [hn]
  | succ n =>
    have h0 := hmin 0 (by omega)
    have hlast := hmin n (by omega)
    rw [if_neg (by omega), Nat.add_right_cancel_iff]
    rw [Nat.succ_mul] at hn
    exact Nat.div_eq_of_lt_le (by omega) (by rw [Nat.succ_mul]; omega)

/-! The instructions -/

/-- An issue whose operands pass their checks is none on trial. -/
theorem Iss.check_trial {i : Iss} {ns : List Need} (h : i.check ns = .ok ()) : i.trial = false := by
  obtain ⟨-, -, -, ht⟩ := Iss.check_ok h
  exact ht

section
variable {s : State} {i : Iss} {k : Ctl} {d a : Opnd} {all : Bool}

/-- The operands of a `taskwait`. -/
def waitNeeds (d a : Opnd) (all : Bool) : List Need :=
  [⟨d, [.s, .zr], 1, 0⟩] ++ if all then [] else [⟨a, [.s, .zr], 1, 1⟩]

/-- What a `taskwait` finds at once. -/
def State.waitStatus (s : State) (i : Iss) (a : Opnd) (all : Bool) : Option Word :=
  if all then s.allStatus i else s.handleStatus i (i.uword a)

theorem State.waitStatus_all : s.waitStatus i a true = s.allStatus i := by
  unfold State.waitStatus
  exact if_pos rfl

theorem State.waitStatus_handle : s.waitStatus i a false = s.handleStatus i (i.uword a) := by
  unfold State.waitStatus
  exact if_neg Bool.false_ne_true

section
variable (hi : s.iss k = some i) (hs : i.g.serves = none)
include hi hs

/-- A `task` without a guarded position goes on. -/
theorem execTask_skips (hc : i.check [⟨d, [.s, .zr], 1, 0⟩, ⟨a, [.s, .zr], 2, 2⟩] = .ok ()) (ho : i.on = []) :
    execTask k d a s = .next (s.passRun i []) := by
  refine State.issue_ok hi ?_ (Iss.check_trial hc)
  simp [Iss.notInHandler, hs, hc, Iss.acts, ho, bind, Except.bind]

/-- A `task` with quota left submits its record. -/
theorem execTask_submits (hc : i.check [⟨d, [.s, .zr], 1, 0⟩, ⟨a, [.s, .zr], 2, 2⟩] = .ok ()) (ho : i.on ≠ [])
    (hq : s.entriesHeld i.ci + ((s.groups.filter fun g => g.ctx == i.ci && g.stat != .ended).map fun g => g.submit.length).sum <
      i.ctx.quota) :
    execTask k d a s = .next (s.finish i i.g
      { i.g with submit := i.g.submit ++ [⟨i.upair a, k.sig.toNat, i.run.length, i.sDst d, k.hold.toNat, i.on, s.ord + 1⟩] }
      [] 0 i.run.length [] i.advance) := by
  refine State.issue_ok hi ?_ (Iss.check_trial hc)
  simp only [Iss.notInHandler, hs, hc, acts_iff.mpr ho, bind, Except.bind]
  exact if_neg (Nat.not_le.mpr hq)

/-- A `taskwait` without a guarded position goes on. -/
theorem execTaskwait_skips (hc : i.check (waitNeeds d a all) = .ok ()) (ho : i.on = []) :
    execTaskwait k d a all s = .next (s.passRun i []) := by
  refine State.issue_ok hi ?_ (Iss.check_trial hc)
  rw [waitNeeds] at hc
  have hacts : i.acts = false := by simp [Iss.acts, ho]
  simp only [Iss.notInHandler, hs, hc, hacts, bind, Except.bind]
  rfl

/-- A `taskwait` that finds an error, a serial ahead or a circular wait writes its status. -/
theorem execTaskwait_fails {v : Word} (hc : i.check (waitNeeds d a all) = .ok ()) (ho : i.on ≠ [])
    (hw : s.waitStatus i a all = some v) (hv : v ≠ 0#32) : execTaskwait k d a all s = .next (s.passRun i (i.sWrite d v)) := by
  refine State.issue_ok hi ?_ (Iss.check_trial hc)
  rw [waitNeeds] at hc
  rw [State.waitStatus] at hw
  simp only [Iss.notInHandler, hs, hc, acts_iff.mpr ho, hw, bind, Except.bind]
  exact congrArg _ (if_neg hv)

/-- A `taskwait` that finds its tasks committed writes 0 and acquires. -/
theorem execTaskwait_acquires (hc : i.check (waitNeeds d a all) = .ok ()) (ho : i.on ≠ [])
    (hw : s.waitStatus i a all = some 0#32) : execTaskwait k d a all s =
      .next ((s.passRun i (i.sWrite d 0#32)).modGroup i.gi fun g => g.acquire (s.passRun i (i.sWrite d 0#32)).ord) := by
  refine State.issue_ok hi ?_ (Iss.check_trial hc)
  rw [waitNeeds] at hc
  rw [State.waitStatus] at hw
  simp only [Iss.notInHandler, hs, hc, acts_iff.mpr ho, hw, bind, Except.bind]
  rfl

/-- A `taskwait` on open tasks blocks its run until their commit. -/
theorem execTaskwait_blocks {c : Cond} (hc : i.check (waitNeeds d a all) = .ok ()) (ho : i.on ≠ [])
    (hw : s.waitStatus i a all = none)
    (hcond : (if all then .tasks ((s.otherTasks i).map s.serialOf) else .task ((i.uword a).toNat % 2 ^ 30)) = c) :
    execTaskwait k d a all s = .next (s.blockRun i c (i.sDst d) 0#32) := by
  refine State.issue_ok hi ?_ (Iss.check_trial hc)
  rw [waitNeeds] at hc
  rw [State.waitStatus] at hw
  simp only [Iss.notInHandler, hs, hc, acts_iff.mpr ho, hw, hcond, bind, Except.bind]
  rfl

section
variable (hc : i.check [⟨d, [.s, .zr], 1, 0⟩] = .ok ())
include hc

/-- A `stepwait` without a guarded position goes on. -/
theorem execStepwait_skips (ho : i.on = []) : execStepwait k d s = .next (s.passRun i []) := by
  refine State.issue_ok hi ?_ (Iss.check_trial hc)
  simp [Iss.notInHandler, hs, hc, Iss.acts, ho, bind, Except.bind]

/-- A `stepwait` without a period writes the greatest word. -/
theorem execStepwait_noPeriod (ho : i.on ≠ []) (hp : stepPeriod s.stepCfg = 0) :
    execStepwait k d s = .next (s.passRun i (i.sWrite d 0xFFFFFFFF#32)) := by
  refine State.issue_ok hi ?_ (Iss.check_trial hc)
  simp [Iss.notInHandler, hs, hc, acts_iff.mpr ho, hp, bind, Except.bind]

/-- A `stepwait` with a period blocks its run until the release of the next tick. -/
theorem execStepwait_blocks (ho : i.on ≠ []) (hp : stepPeriod s.stepCfg ≠ 0) {n : Nat} (hn : s.nextStep i.g.core = n) :
    execStepwait k d s = .next (s.blockRun i (.release (stepRelease s.stepCfg n)) (i.sDst d) (w32 n)) := by
  refine State.issue_ok hi ?_ (Iss.check_trial hc)
  simp [Iss.notInHandler, hs, hc, acts_iff.mpr ho, hp, hn, bind, Except.bind]

end
end
end

end Sys2Proof.Machine

namespace Sys2Proof
open Sys2Proof.Machine

/-- Settles O28: each instruction by its guard, its quota, what its wait finds at once and the least later release. -/
theorem taskInstructionsComplete : Obligations.TaskInstructionsComplete := by
  unfold Obligations.TaskInstructionsComplete
  intro k d a s i hi hs hc
  refine ⟨fun hca => ⟨execTask_skips hi hs hca, execTask_submits hi hs hca⟩, fun hca => ?handle,
    fun ho => ⟨execTaskwait_skips (all := true) hi hs hc ho, execStepwait_skips hi hs hc ho⟩, ?none, ?opened, ?circular,
    execStepwait_noPeriod hi hs hc, fun ho hp n hn hmin => execStepwait_blocks hi hs hc ho hp (nextTick_eq hn hmin)⟩
  case handle =>
    have hca : i.check (waitNeeds d a false) = .ok () := hca
    have hst := State.waitStatus_handle (s := s) (i := i) (a := a)
    refine ⟨execTaskwait_skips hi hs hca, fun ho hb => ?_, fun ho hb ha => ?_, fun ho hb ha hm => ?_,
      fun m ho hb ha hm hw => ?_, fun m ho hb ha hm hw ht => ?_⟩
    · exact execTaskwait_fails hi hs hca ho (hst.trans (State.handleStatus_error hb)) (by decide)
    · exact execTaskwait_fails hi hs hca ho (hst.trans (State.handleStatus_ahead hb ha)) (by decide)
    · refine execTaskwait_acquires hi hs hca ho (hst.trans ?_)
      rcases hm with hm | ⟨m, hm, hw, ht⟩
      · exact State.handleStatus_unlisted hb ha hm
      · rw [State.handleStatus_listed hb ha hm, hw, ht]
        rfl
    · refine execTaskwait_fails hi hs hca ho (hst.trans ?_) (show 2#32 ≠ 0#32 by decide)
      rw [State.handleStatus_listed hb ha hm, hw]
      rfl
    · refine execTaskwait_blocks hi hs hca ho (hst.trans ?_) (if_neg Bool.false_ne_true)
      rw [State.handleStatus_listed hb ha hm, hw, ht]
      rfl
  case none =>
    exact fun ho hn => execTaskwait_acquires (all := true) hi hs hc ho (State.waitStatus_all.trans (State.allStatus_nil hn))
  case opened =>
    exact fun ho hn hm =>
      execTaskwait_blocks (all := true) hi hs hc ho (State.waitStatus_all.trans (State.allStatus_open hn hm)) (if_pos rfl)
  case circular =>
    exact fun ho hm =>
      execTaskwait_fails (all := true) hi hs hc ho (State.waitStatus_all.trans (State.allStatus_circular hm)) (by decide)

end Sys2Proof
end

section
/-!
SUPPORT. Where the bytes of a team stand after it moves (R80): reads of sparse lists in any form, cores, and the bytes
that a move saves and puts.
-/

namespace Sys2Proof.Machine

/-! Sparse lists in any form -/

section
variable {α : Type} [DecidableEq α] {d : α}

/-- A written value that is not the default is read back, and other keys keep what they held, in whatever order the list
stands. -/
theorem spGet_spSet_of_ne_default (m : Sparse α) {x : α} (hx : x ≠ d) (i j : Nat) :
    spGet d (spSet d m i x) j = if j = i then x else spGet d m j := by
  induction m with
  | nil => simp only [spSet, spGet, if_neg hx]; grind
  | cons e rest ih =>
    obtain ⟨k, v⟩ := e
    simp only [spSet, if_neg hx]
    rcases lt_trichotomy i k with hik | rfl | hik
    · rw [if_pos hik]; simp only [spGet]; grind
    · simp only [lt_irrefl, if_false, if_true, spGet]; grind
    · rw [if_neg (by omega), if_neg (by omega)]; simp only [spGet, ih]; grind

omit [DecidableEq α] in
/-- What a list reads as is listed, unless it is the default. -/
theorem mem_of_spGet {m : Sparse α} {i : Nat} {x : α} (h : spGet d m i = x) (hx : x ≠ d) : (i, x) ∈ m := by
  induction m with
  | nil => exact absurd h.symm hx
  | cons e rest ih =>
    obtain ⟨k, v⟩ := e
    simp only [spGet] at h
    split_ifs at h with h1 h2
    · exact absurd h.symm hx
    · simp [h2, h]
    · exact List.mem_cons_of_mem _ (ih h)

/-- A canonical list reads as what it lists. -/
theorem spGet_of_mem {m : Sparse α} {lo i : Nat} {x : α} (hm : sparseWf d lo m = true) (h : (i, x) ∈ m) :
    lo ≤ i ∧ spGet d m i = x := by
  induction m generalizing lo with
  | nil => simp at h
  | cons e rest ih =>
    obtain ⟨k, v⟩ := e
    simp only [sparseWf, Bool.and_eq_true, decide_eq_true_eq] at hm
    obtain ⟨⟨hk, -⟩, hr⟩ := hm
    rcases List.mem_cons.mp h with h | h
    · cases h
      exact ⟨hk, by simp [spGet]⟩
    · obtain ⟨hi, hx⟩ := ih hr h
      exact ⟨by omega, by simp only [spGet]; rw [if_neg (by omega), if_neg (by omega), hx]⟩

end

/-! A core whose arrays hold a byte -/

/-- A replaced array, and the others as they stood. -/
@[simp] theorem Core.arr_setArr (c : Core) (a b : Arr) (m : Sparse (Option Owned)) :
    (c.setArr a m).arr b = if b = a then m else c.arr b := by
  cases a <;> cases b <;> rfl

/-- A core with a byte in an array is not as after reset. -/
theorem Core.setArr_ne_reset (c : Core) (a : Arr) (m : Sparse (Option Owned)) (o : Nat) (w : Owned) :
    c.setArr a (spSet none m o (some w)) ≠ Core.reset := by
  intro h
  have harr := congrArg (fun c => spGet none (c.arr a) o) h
  cases a <;> simp [spGet_spSet_of_ne_default, Core.arr, Core.reset, Core.setArr, spGet] at harr

/-- A changed core that is not as after reset stands as it was changed. -/
theorem State.core_modCore_self {s : State} {c : Nat} {f : Core → Core} (h : f (s.core c) ≠ Core.reset) :
    (s.modCore c f).core c = f (s.core c) :=
  (spGet_spSet_of_ne_default s.cores h c c).trans (if_pos rfl)

/-! The bytes that a move puts -/

/-- A byte of a team put at its place in a seat on a core. -/
def State.putByte (core : Nat) (x : Seat) (s : State) (b : Arr × Nat × Owned) : State :=
  s.modCore core fun c => c.setArr b.1 (spSet none (c.arr b.1) (x.offset b.1 b.2.1) (some b.2.2))

/-- Bytes are put one by one, once the new place is cleared. -/
theorem State.putBytes_eq (s : State) (t : Team) (k : Kernel) (core : Nat) (bs : List (Arr × Nat × Owned)) :
    ∃ s1 : State, s.putBytes t k core bs = bs.foldl (State.putByte core (t.seat core)) s1 := ⟨_, rfl⟩

/-- A put byte is read at its place of the scratchpad, and the other places keep what they held. -/
theorem State.spad_putByte (core : Nat) (x : Seat) (s : State) (b : Arr × Nat × Owned) (o : Nat) :
    spGet none ((s.putByte core x b).core core).spad o =
      if b.1 = .spad ∧ o = x.foot + b.2.1 then some b.2.2 else spGet none (s.core core).spad o := by
  obtain ⟨a, n, w⟩ := b
  rw [State.putByte, State.core_modCore_self (Core.setArr_ne_reset _ _ _ _ _)]
  cases a with
  | spad => simp [Core.setArr, Core.arr, Seat.offset, spGet_spSet_of_ne_default]
  | stack | acc => simp [Core.setArr]

/-- Of bytes put where none disagrees on an offset of the footprint, the one at that offset stands there. -/
theorem State.spad_putByte_foldl {core : Nat} {x : Seat} {o : Nat} {w : Owned} (bs : List (Arr × Nat × Owned)) (s : State)
    (hone : ∀ v, (Arr.spad, o, v) ∈ bs → v = w)
    (h : (Arr.spad, o, w) ∈ bs ∨ spGet none (s.core core).spad (x.foot + o) = some w) :
    spGet none ((bs.foldl (State.putByte core x) s).core core).spad (x.foot + o) = some w := by
  induction bs generalizing s with
  | nil => exact h.resolve_left (by simp)
  | cons b bs ih =>
    refine ih _ (fun v hv => hone v (List.mem_cons_of_mem _ hv)) ?_
    rw [State.spad_putByte]
    by_cases hb : b.1 = .spad ∧ x.foot + o = x.foot + b.2.1
    · obtain ⟨a, n, v⟩ := b
      obtain ⟨rfl, ho⟩ := hb
      obtain rfl : o = n := Nat.add_left_cancel ho
      exact .inr (by rw [if_pos ⟨rfl, rfl⟩, hone v (List.mem_cons_self ..)])
    · rw [if_neg hb]
      refine h.imp_left fun h => (List.mem_cons.mp h).resolve_left ?_
      rintro rfl
      exact hb ⟨rfl, rfl⟩

/-- The bytes of a team's footprint as they move are those of its scratchpad. -/
theorem State.mem_teamBytes_spad {s : State} {t : Team} {k : Kernel} {core o : Nat} {w : Owned} :
    (Arr.spad, o, w) ∈ s.teamBytes t k core ↔
      o < (t.seat core).footLen ∧ ((t.seat core).foot + o, some w) ∈ (s.core core).spad := by
  simp only [State.teamBytes, Core.arr, List.mem_append, List.mem_filterMap, List.mem_filter, List.mem_flatten,
    List.mem_mapIdx, Bool.and_eq_true, decide_eq_true_eq, Option.map_eq_some_iff, Prod.mk.injEq]
  constructor
  · rintro ((⟨e, ⟨he, hlo, hhi⟩, b, hb, -, ho, rfl⟩ | ⟨-, -, -, -, h, -⟩) | ⟨l, ⟨n, hn, rfl⟩, h⟩)
    · obtain ⟨n, v⟩ := e
      obtain rfl : v = some b := hb
      obtain rfl : (t.seat core).foot + o = n := by simp at hlo ho; omega
      exact ⟨by simpa using hhi, he⟩
    · cases h
    · simp at h
  · rintro ⟨ho, he⟩
    exact .inl (.inl ⟨_, ⟨he, by simp, by simpa using ho⟩, w, rfl, trivial, by simp, rfl⟩)

/-! The move of a team on one core -/

/-- A move of a team on one core ends with its bytes put: what follows, of its groups and Pails, changes no core. -/
theorem State.moveTeam_cores {s : State} {ti core : Nat} {t : Team} {k : Kernel} {sl : List Nat} {x : Seat} {st : TStat}
    (ht : s.teams[ti]? = some t) (hk : s.kernelOf t = some k) (hp : k.paired = false) : ∃ s0 : State,
      (s.moveTeam ti core [(sl, x)] st).cores = ((s.teamBytes t k t.core).foldl (State.putByte core x) s0).cores := by
  simp only [State.moveTeam, ht, hk, coresFor, hp, Bool.false_eq_true, if_false, List.map_cons, List.map_nil,
    List.zip_cons_cons, List.zip_nil_right, List.foldl_cons, List.foldl_nil]
  obtain ⟨s0, h0⟩ := State.putBytes_eq (s.modTeam ti fun _ => _) _ k core (s.teamBytes t k t.core)
  refine ⟨s0, (foldl_keeps (π := State.cores) ?pails _ _).trans ((foldl_keeps (π := State.cores) ?groups _ _).trans ?_)⟩
  case pails => exact fun _ _ => rfl
  case groups => exact fun _ _ => rfl
  rw [h0]
  simp [Team.seat]

/-- A byte of the footprint of a team that stands on one core is at its place on the core that the team moves to (R80). -/
theorem State.spad_moveTeam {s : State} {ti core : Nat} {t : Team} {k : Kernel} {sl : List Nat} {x y : Seat} {st : TStat}
    {o : Nat} {w : Owned} (ht : s.teams[ti]? = some t) (hk : s.kernelOf t = some k) (hp : k.paired = false)
    (hy : t.seats = [y]) (hwf : sparseWf none 0 (s.core t.core).spad = true) (ho : o < y.footLen)
    (hw : spGet none (s.core t.core).spad (y.foot + o) = some w) :
    spGet none ((s.moveTeam ti core [(sl, x)] st).core core).spad (x.foot + o) = some w := by
  obtain ⟨s0, hc⟩ := State.moveTeam_cores (core := core) (sl := sl) (x := x) (st := st) ht hk hp
  have hseat : t.seat t.core = y := by simp [Team.seat, hy]
  rw [State.core, hc]
  refine State.spad_putByte_foldl _ s0 (fun v hv => ?_) (.inl (State.mem_teamBytes_spad.mpr ?_))
  · obtain ⟨-, hv⟩ := State.mem_teamBytes_spad.mp hv
    rw [hseat] at hv
    obtain ⟨-, hv⟩ := spGet_of_mem hwf hv
    exact Option.some_inj.mp (hv.symm.trans hw)
  · rw [hseat]
    exact ⟨ho, mem_of_spGet hw (by simp)⟩

end Sys2Proof.Machine
end

section
/-!
SUPPORT. What the operations on teams do (R63, R69, R72, R373, R386): a start, a commit and a cut, and what they leave
unchanged.
-/

namespace Sys2Proof.Machine

/-! Reports to the host and the sweeps after a commit, a retirement or a cut -/

/-- A state has the teams, groups, memory and cores of another, and its contexts with the same commits. -/
structure State.SameWork (s u : State) : Prop where
  teams : u.teams = s.teams
  groups : u.groups = s.groups
  mem : u.mem = s.mem
  cores : u.cores = s.cores
  commits : ∀ ci : Nat, (u.contexts[ci]?).map Context.commits = (s.contexts[ci]?).map Context.commits

theorem State.SameWork.trans {s t u : State} (h : s.SameWork t) (h' : t.SameWork u) : s.SameWork u :=
  ⟨h'.teams.trans h.teams, h'.groups.trans h.groups, h'.mem.trans h.mem, h'.cores.trans h.cores,
    fun ci => (h'.commits ci).trans (h.commits ci)⟩

/-- Waiting messages that enter the ring change no work. -/
theorem State.sameWork_flushBox (s : State) (l : List (List Byte)) : s.SameWork (s.flushBox l) := by
  induction l generalizing s with
  | nil => exact ⟨rfl, rfl, rfl, rfl, fun _ => rfl⟩
  | cons m l ih =>
    simp only [State.flushBox]
    split
    · exact ⟨rfl, rfl, rfl, rfl, fun _ => rfl⟩
    · refine State.SameWork.trans ?_ (ih _)
      exact ⟨rfl, rfl, rfl, rfl, fun _ => rfl⟩

theorem State.sameWork_send (s : State) (m : List Byte) : s.SameWork (s.send m) := s.sameWork_flushBox _

/-- A change at one entry that keeps a part of it keeps that part of every entry. -/
theorem getElem?_map_modAt {α β : Type} (l : List α) (i : Nat) (f : α → α) (π : α → β) (h : ∀ a, π (f a) = π a) (j : Nat) :
    ((modAt l i f)[j]?).map π = (l[j]?).map π := by
  unfold modAt
  split
  · next a ha =>
    rw [List.getElem?_set]
    split_ifs with hij hi
    · subst hij
      simp [ha, h]
    · simp [List.getElem?_eq_none (not_lt.mp hi), ← hij]
    · rfl
  · rfl

/-- The report of an idle context changes no work. -/
theorem State.sameWork_idleCheck (s : State) (ci : Nat) : s.SameWork (s.idleCheck ci) := by
  have hrefl : s.SameWork s := ⟨rfl, rfl, rfl, rfl, fun _ => rfl⟩
  unfold State.idleCheck
  split
  · split
    · refine State.SameWork.trans ?_ (State.sameWork_send _ _)
      refine ⟨rfl, rfl, rfl, rfl, fun cj => ?_⟩
      exact getElem?_map_modAt s.contexts ci (fun c => { c with held := false }) Context.commits (fun _ => rfl) cj
    · exact hrefl
  · exact hrefl

/-- The commit of a task changes no team, group or byte. -/
theorem State.sameWork_commitTask (s : State) (n : Nat) : s.SameWork (s.commitTask n) := by
  have hrefl : s.SameWork s := ⟨rfl, rfl, rfl, rfl, fun _ => rfl⟩
  unfold State.commitTask
  split
  · split
    · refine State.SameWork.trans ?_ (State.sameWork_idleCheck _ _)
      exact ⟨rfl, rfl, rfl, rfl, fun _ => rfl⟩
    · exact hrefl
  · exact hrefl

theorem State.sameWork_returnFrames (s : State) (fs : List Nat) : s.SameWork (s.returnFrames fs) :=
  ⟨rfl, rfl, rfl, rfl, fun _ => rfl⟩

theorem State.sameWork_sweepFrames (s : State) : s.SameWork s.sweepFrames := ⟨rfl, rfl, rfl, rfl, fun _ => rfl⟩

theorem State.sameWork_retireFrame (s : State) (ci : Nat) (old : Option Nat) : s.SameWork (s.retireFrame ci old) := by
  unfold State.retireFrame
  split <;> exact ⟨rfl, rfl, rfl, rfl, fun _ => rfl⟩

/-! The start of a team (R63, R68) -/

@[simp] theorem State.pmWriteN_groups (s : State) (key a : Nat) (bs : List Byte) : (s.pmWriteN key a bs).groups = s.groups :=
  foldl_keeps (f := fun (s : State) (w : Byte × Nat) => s.pmWrite key w.2 w.1) (π := State.groups)
    (fun s w => s.pmWrite_groups key w.2 w.1) _ _

@[simp] theorem State.pmWriteN_teams (s : State) (key a : Nat) (bs : List Byte) : (s.pmWriteN key a bs).teams = s.teams :=
  foldl_keeps (f := fun (s : State) (w : Byte × Nat) => s.pmWrite key w.2 w.1) (π := State.teams)
    (fun s w => s.pmWrite_teams key w.2 w.1) _ _

theorem State.takeFrame_groups_teams (s : State) : s.takeFrame.2.groups = s.groups ∧ s.takeFrame.2.teams = s.teams := by
  unfold State.takeFrame
  split <;> exact ⟨rfl, rfl⟩

theorem length_modAt {α : Type} (l : List α) (i : Nat) (f : α → α) : (modAt l i f).length = l.length := by
  unfold modAt
  split <;> simp

/-- A version is given by taking a frame, filling it where the tile has PART, and listing it. -/
theorem State.giveVersion_eq (s : State) (ti : Nat) (t : Team) (tile : Nat) (part : Bool) : ∃ (s1 : State) (f : Team → Team),
    s.giveVersion ti t tile part = s1.modTeam ti f ∧
      (s1 = s.takeFrame.2 ∨ ∃ key a bs, s1 = s.takeFrame.2.pmWriteN key a bs) := by
  unfold State.giveVersion
  generalize s.takeFrame = fs
  obtain ⟨f, s1⟩ := fs
  refine ⟨_, _, rfl, ?_⟩
  split_ifs
  · cases s.tileSource t.ctx tile with
    | none => exact .inl rfl
    | some pa => exact .inr ⟨_, _, _, rfl⟩
  · exact .inl rfl

/-- A version given to a team changes no group, and no team is added or taken away. -/
theorem State.giveVersion_frame (s : State) (ti : Nat) (t : Team) (tile : Nat) (part : Bool) :
    (s.giveVersion ti t tile part).groups = s.groups ∧ (s.giveVersion ti t tile part).teams.length = s.teams.length := by
  obtain ⟨hg, ht⟩ := s.takeFrame_groups_teams
  obtain ⟨s1, f, h, rfl | ⟨key, a, bs, rfl⟩⟩ := s.giveVersion_eq ti t tile part <;> rw [h] <;> simp [length_modAt, hg, ht]

theorem State.giveVersions_frame (s : State) (ti : Nat) (t : Team) (es : List (Nat × Bool)) :
    (es.foldl (fun s e => s.giveVersion ti t e.1 e.2) s).groups = s.groups ∧
      (es.foldl (fun s e => s.giveVersion ti t e.1 e.2) s).teams.length = s.teams.length :=
  ⟨foldl_keeps (f := fun (s : State) (e : Nat × Bool) => s.giveVersion ti t e.1 e.2) (π := State.groups)
      (fun s e => (s.giveVersion_frame ti t e.1 e.2).1) es s,
    foldl_keeps (f := fun (s : State) (e : Nat × Bool) => s.giveVersion ti t e.1 e.2) (π := fun s => s.teams.length)
      (fun s e => (s.giveVersion_frame ti t e.1 e.2).2) es s⟩

/-- Starting a team puts it on its core with one group per W of its size, in order after the groups that were there. -/
theorem State.startTeam_spec {s : State} {ti core : Nat} {l : Layout} {t : Team} {task : Task} {c : Context}
    (ht : s.teams[ti]? = some t) (hk : s.tasks[t.task]? = some task) (hc : s.contexts[t.ctx]? = some c) : ∃ t',
      (s.startTeam ti core l).teams[ti]? = some t' ∧ t'.stat = .running ∧ t'.core = core ∧ t'.seats = l.map (fun x => x.2) ∧
      t'.groups = upto s.groups.length (groupCount task.kern) ∧
      (s.startTeam ti core l).groups = s.groups ++ startGroups s ti t task l core c.srSeed := by
  have hframe := s.giveVersions_frame ti t (ordinaryTiles task t.t)
  unfold State.startTeam
  simp only [ht, hk, hc]
  generalize (ordinaryTiles task t.t).foldl (fun s e => s.giveVersion ti t e.1 e.2) s = s1 at hframe ⊢
  obtain ⟨hg, hl⟩ := hframe
  have hti : ti < s1.teams.length := hl ▸ (List.getElem?_eq_some_iff.mp ht).1
  rw [State.modTeam_teams, getElem?_modAt_self, List.getElem?_eq_getElem hti, State.modTeam_groups]
  refine ⟨_, rfl, rfl, rfl, rfl, ?_, ?_⟩
  · simp [hg, startGroups]
  · simp [hg]

/-- A group of a starting team: at the entry in one range record, with the arguments in s0 to s7 and its seed. -/
theorem startGroups_get (s : State) (ti : Nat) (t : Team) (task : Task) (l : Layout) (core : Nat) (seed : Word) {n : Nat}
    (hn : n < groupCount task.kern) : ∃ g, (startGroups s ti t task l core seed)[n]? = some g ∧ g.stat = .live ∧
      g.width = task.kern.width ∧ g.g = n ∧ g.recs = [⟨false, 0, 1, task.kern.width, task.kern.entry, none, false, []⟩] ∧
      (∀ j < 8, spGet 0#32 g.s j = task.args.getD j 0#32) ∧ g.sr = srSeed seed (w32 t.t) (w32 n) := by
  have hargs : ∀ j < 8, spGet 0#32 (spSetAll 0#32 [] ((List.range 8).map fun j => (j, task.args.getD j 0#32))) j =
      task.args.getD j 0#32 := fun j hj =>
    spGet_spSetAll_of_mem (w := (j, task.args.getD j 0#32)) rfl
      (List.pairwise_map.mpr (List.pairwise_lt_range.imp fun h => Nat.ne_of_lt h)) (List.mem_map_of_mem (List.mem_range.mpr hj))
  simp only [startGroups, List.getElem?_map, List.getElem?_range hn, Option.map_some]
  refine ⟨_, rfl, rfl, rfl, rfl, rfl, ?_, rfl⟩
  dsimp only [Group.start]
  exact hargs

/-! The layout of a team (R76) -/

/-- A core that admits a team is one of the device, even for a pair, and none that the team takes is avoided. -/
theorem State.admits_cores {s : State} {ci core : Nat} {k : Kernel} (h : s.admits ci k core = true) :
    core < 2048 ∧ (k.paired = true → core % 2 = 0) ∧ ∀ c ∈ coresFor k core, (s.core c).avoided = false := by
  simp only [State.admits, Bool.and_eq_true, Bool.or_eq_true, decide_eq_true_eq, List.all_eq_true, Bool.not_eq_true',
    beq_iff_eq] at h
  obtain ⟨⟨⟨⟨⟨hcore, heven⟩, havoid⟩, -⟩, -⟩, -⟩ := h
  exact ⟨hcore, fun hp => heven.resolve_left (by simp [hp]), havoid⟩

theorem length_of_mapM_id {α : Type} {l : List (Option α)} {m : List α} (h : l.mapM id = some m) : m.length = l.length := by
  induction l generalizing m with
  | nil => cases h; rfl
  | cons a l ih =>
    simp only [List.mapM_cons, Option.bind_eq_bind, Option.bind_eq_some_iff, Option.pure_def, Option.some_inj] at h
    obtain ⟨x, -, xs, hxs, rfl⟩ := h
    simp [ih hxs]

/-- A layout has a seat for each core of the team. -/
theorem State.length_layout {s : State} {k : Kernel} {core : Nat} {l : Layout} (h : s.layout k core = some l) :
    l.length = if k.paired then 2 else 1 := by
  rw [State.layout] at h
  rw [length_of_mapM_id h, List.length_mapIdx, coresFor]
  split <;> rfl

/-! The cut of a team (R72, R73) -/

/-- A change at one entry leaves the others. -/
theorem getElem?_modAt_of_ne {α : Type} (l : List α) {i j : Nat} (f : α → α) (h : i ≠ j) : (modAt l i f)[j]? = l[j]? := by
  unfold modAt
  split
  · exact List.getElem?_set_ne h
  · rfl

theorem State.teams_modTeam_self {s : State} {ti : Nat} {t : Team} (ht : s.teams[ti]? = some t) (f : Team → Team) :
    (s.modTeam ti f).teams[ti]? = some (f t) :=
  (getElem?_modAt_self s.teams ti f).trans (congrArg (Option.map f) ht)

/-- A group that has been cut holds no record, access or store. -/
def Group.cutDown (g : Group) : Prop := g.stat = .ended ∧ g.recs = [] ∧ g.oplog = [] ∧ g.storeq = []

theorem Group.cutDown_discard (g : Group) : g.discard.cutDown := ⟨rfl, rfl, rfl, rfl⟩

/-- Cutting the groups of a list cuts each of them. -/
theorem State.cutDown_foldl {gis : List Nat} {s : State} {gi : Nat} {g : Group}
    (h : gi ∈ gis ∨ ∀ g, s.groups[gi]? = some g → g.cutDown)
    (hg : (gis.foldl (fun s gi => s.modGroup gi Group.discard) s).groups[gi]? = some g) : g.cutDown := by
  induction gis generalizing s with
  | nil => exact (h.resolve_left (by simp)) g hg
  | cons gj gis ih =>
    refine ih ?_ hg
    by_cases hj : gi = gj
    · subst hj
      refine .inr fun g hg => ?_
      rw [State.modGroup_groups, getElem?_modAt_self, Option.map_eq_some_iff] at hg
      obtain ⟨g0, -, rfl⟩ := hg
      exact g0.cutDown_discard
    · refine h.imp (fun h => (List.mem_cons.mp h).resolve_left hj) fun h g hg => h g ?_
      rwa [State.modGroup_groups, getElem?_modAt_of_ne _ _ (Ne.symm hj)] at hg

/-- Stopping the Pails of a team changes its Pails alone. -/
theorem State.stopPails_frame (s : State) (t : Team) : (s.stopPails t).teams = s.teams ∧ (s.stopPails t).groups = s.groups ∧
    (s.stopPails t).mem = s.mem ∧ (s.stopPails t).cores = s.cores := by
  unfold State.stopPails
  refine ⟨?_, ?_, ?_, ?_⟩
  · exact foldl_keeps (π := State.teams) (by exact fun _ _ => rfl) _ _
  · exact foldl_keeps (π := State.groups) (by exact fun _ _ => rfl) _ _
  · exact foldl_keeps (π := State.mem) (by exact fun _ _ => rfl) _ _
  · exact foldl_keeps (π := State.cores) (by exact fun _ _ => rfl) _ _

/-- Ending the handlers of a team changes no team and no byte of memory. -/
theorem State.endHandlers_frame (s : State) (t : Team) :
    (s.endHandlers t).teams = s.teams ∧ (s.endHandlers t).mem = s.mem := by
  unfold State.endHandlers
  constructor
  · refine foldl_keeps (π := State.teams) (fun s j => ?_) _ _
    split <;> rfl
  · refine foldl_keeps (π := State.mem) (fun s j => ?_) _ _
    split <;> rfl

/-- Ending a team cuts its groups and changes no team and no byte of memory. -/
theorem State.endTeam_spec (s : State) (t : Team) : (s.endTeam t).teams = s.teams ∧ (s.endTeam t).mem = s.mem ∧
    ∀ gi ∈ t.groups, ∀ g, (s.endTeam t).groups[gi]? = some g → g.cutDown := by
  obtain ⟨hteams, hgroups, hmem, -⟩ :=
    (t.groups.foldl (fun s gi => s.modGroup gi Group.discard) (s.endHandlers t)).stopPails_frame t
  obtain ⟨hteams', hmem'⟩ := s.endHandlers_frame t
  refine ⟨hteams.trans (.trans ?_ hteams'), hmem.trans (.trans ?_ hmem'), fun gi hgi g hg => ?_⟩
  · exact foldl_keeps (π := State.teams) (by exact fun _ _ => rfl) _ _
  · exact foldl_keeps (π := State.mem) (by exact fun _ _ => rfl) _ _
  · rw [State.endTeam, hgroups] at hg
    exact State.cutDown_foldl (.inl hgi) hg

/-- The abort of a team that has written an atomic tile is refused, and stops its context (R73). -/
theorem State.abortTeam_atomic {s : State} {ti : Nat} {t : Team} (ht : s.teams[ti]? = some t) (ha : t.atomic = true) :
    s.abortTeam ti = (s.modTeam ti fun t => { t with cut := none }).stopContext t.ctx "abort refused" := by
  simp only [State.abortTeam, ht, ha]
  rfl

/-- An abort that is carried out requeues the team as not started, without its versions, and cuts its groups. -/
theorem State.abortTeam_spec {s : State} {ti : Nat} {t : Team} (ht : s.teams[ti]? = some t) (ha : t.atomic = false) : ∃ t',
    (s.abortTeam ti).teams[ti]? = some t' ∧ t'.stat = .ready ∧ t'.t = t.t ∧ t'.versions = [] ∧ t'.requeues = t.requeues + 1 ∧
      (s.abortTeam ti).mem = s.mem ∧ ∀ gi ∈ t.groups, ∀ g, (s.abortTeam ti).groups[gi]? = some g → g.cutDown := by
  obtain ⟨hteams, hmem, hcut⟩ := s.endTeam_spec t
  simp only [State.abortTeam, ht, ha, Bool.false_eq_true, if_false]
  have hteam : (s.endTeam t).teams[ti]? = some t := hteams ▸ ht
  exact ⟨_, State.teams_modTeam_self hteam _, rfl, rfl, rfl, rfl, hmem, hcut⟩

/-- A team whose abort was asked for is aborted at its blocking points or after 1 ms. -/
theorem exec_abortCutTimeout {s : State} {ti since : Nat} {t : Team} (ht : s.teams[ti]? = some t) (hcut : t.cut = some since)
    (hlive : s.ctxLive t.ctx = true) (h : s.canCut t = true ∨ since + 1000000 ≤ s.now) :
    exec (.abortCutTimeout ti) s = .next (s.abortTeam ti) := by
  have hdue : (s.canCut t || decide (since + millisecond ≤ s.now)) = true := by
    rw [Bool.or_eq_true, decide_eq_true_eq]
    exact h
  change execAbortCutTimeout ti s = _
  simp only [execAbortCutTimeout, ht, hcut, hlive, hdue]
  rfl

/-! Retirement and commit (R69, R386) -/

/-- A team that has retired: off its cores, with its versions. -/
def Team.retire (t : Team) : Team :=
  { t with stat := .retired, seats := [], tagBits := BitVec.allOnes 128, queues := [], shps := [], barriers := [],
           preempt := false, cut := none }

/-- Retirement releases the team's cores and keeps its versions for their commits. -/
theorem exec_teamRetirement {s : State} {ti : Nat} {t : Team} (ht : s.teams[ti]? = some t) (hr : s.canRetire t = true) :
    ∃ u, exec (.teamRetirement ti) s = .next u ∧ u.teams[ti]? = some t.retire ∧ u.groups = s.groups ∧ u.mem = s.mem ∧
      u.cores = s.cores := by
  obtain ⟨hteams, hgroups, hmem, hcores⟩ := s.stopPails_frame t
  have hteam : (s.stopPails t).teams[ti]? = some t := hteams ▸ ht
  have hw := (State.sameWork_sweepFrames ((s.stopPails t).modTeam ti Team.retire)).trans (State.sameWork_commitTask _ t.task)
  have hexec : exec (.teamRetirement ti) s =
      .next (((s.stopPails t).modTeam ti Team.retire).sweepFrames.commitTask t.task) := by
    change execTeamRetirement ti s = _
    simp only [execTeamRetirement, ht, hr]
    rfl
  exact ⟨_, hexec, (congrArg (·[ti]?) hw.teams).trans (State.teams_modTeam_self hteam _), hw.groups.trans hgroups,
    hw.mem.trans hmem, hw.cores.trans hcores⟩

/-- The version of a tile is committed. -/
def Team.commitVersion (tile : Nat) (t : Team) : Team :=
  { t with versions := t.versions.map fun w => if w.tile == tile then { w with committed := true } else w }

/-- A commit puts the version in place of the tile's translation, and teams that read the one before keep it. -/
theorem exec_versionCommit {s : State} {ti tile : Nat} {t : Team} {v : Version} {c : Context} (ht : s.teams[ti]? = some t)
    (hr : t.stat = .retired) (hv : (t.versions.find? fun v => v.tile == tile) = some v) (hn : v.committed = false)
    (hc : s.contexts[t.ctx]? = some c) (he : c.ending = false) (hs : s.earlierCommitted t tile = true) :
    ∃ u c', exec (.versionCommit ti tile) s = .next u ∧ u.contexts[t.ctx]? = some c' ∧
      c'.commits = spSet none c.commits tile (some v.frame) ∧ u.mem = s.mem ∧
      u.teams = modAt (s.teams.map (keepReadVersion t.ctx t.task tile (spGet none c.commits tile) s.tasks)) ti
        (Team.commitVersion tile) := by
  set s3 : State := (({ s with teams := s.teams.map (keepReadVersion t.ctx t.task tile (spGet none c.commits tile) s.tasks) } :
    State).modCtx t.ctx fun c => { c with commits := spSet none c.commits tile (some v.frame) }).modTeam ti
      (Team.commitVersion tile) with hs3
  have hexec : exec (.versionCommit ti tile) s =
      .next (((s3.retireFrame t.ctx (spGet none c.commits tile)).sweepFrames).commitTask t.task) := by
    have hgone : t.gone = true := by simp [Team.gone, hr]
    change execVersionCommit ti tile s = _
    simp only [execVersionCommit, ht, hv, hc, hgone, hn, he, hs]
    rfl
  have hw := ((s3.sameWork_retireFrame t.ctx (spGet none c.commits tile)).trans (State.sameWork_sweepFrames _)).trans
    (State.sameWork_commitTask _ t.task)
  have hcommits : (s3.contexts[t.ctx]?).map Context.commits = some (spSet none c.commits tile (some v.frame)) := by
    rw [hs3, State.modTeam_contexts, State.modCtx_contexts, getElem?_modAt_self, hc]
    rfl
  obtain ⟨c', hc', hcm⟩ := Option.map_eq_some_iff.mp ((hw.commits t.ctx).trans hcommits)
  exact ⟨_, c', hexec, hc', hcm, hw.mem, hw.teams⟩

/-- A team of the commit's task, or of an earlier one, that may read the tile keeps the version before the commit. -/
theorem mem_readVers_keepReadVersion {ci task tile : Nat} {old : Option Nat} {tasks : List Task} {a : Team} (hctx : a.ctx = ci)
    (htask : a.task ≤ task) (hlive : a.stat ≠ .retired) (hreads : (tasks[a.task]?).map (fun k => k.reads a.t tile) = some true)
    (hnew : ∀ x ∈ a.readVers, x.1 ≠ tile) : (tile, old) ∈ (keepReadVersion ci task tile old tasks a).readVers := by
  have hany : (a.readVers.any fun v => v.1 == tile) = false := by simpa using hnew
  simp [keepReadVersion, hctx, htask, Team.gone, hlive, hreads, hany]

end Sys2Proof.Machine
end

section
/-!
SUPPORT. The events of a team's life, each by what it answers (R63, R69, R72, R76, R80, R81, R373, R386): the statement O57.
-/

namespace Sys2Proof.Machine

/-! Placement (R63, R76) -/

theorem getElem?_upto (lo : Nat) {m n : Nat} (h : n < m) : (upto lo m)[n]? = some (lo + n) := by
  simp [upto, h]

/-- The Parlour starts the team whose turn it is at a core that admits it. -/
theorem exec_placeTeam {s : State} {ti core : Nat} {t : Team} {task : Task} {l : Layout} (ht : s.teams[ti]? = some t)
    (hk : s.tasks[t.task]? = some task) (hn : s.nextPlacement = some ti) (ha : s.admits t.ctx task.kern core = true)
    (hl : s.layout task.kern core = some l) : exec (.placeTeam ti core) s = .next (s.startTeam ti core l) := by
  change execPlaceTeam ti core s = _
  simp [execPlaceTeam, State.kernelOf, ht, hk, hn, ha, hl]

/-! Pre-emption, eviction, resumption and migration (R80, R373) -/

section
variable {s : State} {ti core : Nat} {t : Team} {k : Kernel} {l : Layout}

/-- A running team with a group that has not ended can be evicted. -/
theorem State.evictable_of_running (hr : t.stat = .running) (hg : ∃ g ∈ s.groupsOf t, g.stat ≠ .ended) :
    s.evictable t = true := by
  simpa [State.evictable, hr] using hg

/-- A team whose groups have all ended stays to retire (R387). -/
theorem State.evictable_eq_false (hg : ∀ g ∈ s.groupsOf t, g.stat = .ended) : s.evictable t = false := by
  have hany : ((s.groupsOf t).any fun g => g.stat != .ended) = false := by simpa using hg
  simp [State.evictable, hany]

theorem exec_preemptionRequest (ht : s.teams[ti]? = some t) (he : s.evictable t = true) :
    exec (.preemptionRequest ti) s = .next (s.modTeam ti fun t => { t with preempt := true }) := by
  change execPreemptionRequest ti s = _
  simp only [execPreemptionRequest, ht, he]
  rfl

theorem exec_eviction (ht : s.teams[ti]? = some t) (hp : t.preempt = true) (he : s.evictable t = true)
    (ha : s.atPoints t = true) :
    exec (.eviction ti) s = .next ((s.closePhases t).moveTeam ti (saveCore ti) (s.seatsNow t) .evicted) := by
  change execEviction ti s = _
  simp only [execEviction, ht, hp, he, ha]
  rfl

theorem exec_eviction_stays (ht : s.teams[ti]? = some t) (he : s.evictable t = false) : exec (.eviction ti) s = .next s := by
  change execEviction ti s = _
  simp [execEviction, ht, he]

theorem exec_resumption (ht : s.teams[ti]? = some t) (hk : s.kernelOf t = some k) (hr : t.stat = .evicted)
    (hb : s.takesBack t k core = true) (hh : s.higherReady t = false)
    (hc : ((s.contexts[t.ctx]?).map fun c => c.stat) = some .live) (hl : s.layout k core = some l) :
    exec (.resumption ti core) s = .next ((s.moveTeam ti core l .running).reopenPhases ti) := by
  obtain ⟨c, hc, hlive⟩ := Option.map_eq_some_iff.mp hc
  change execResumption ti core s = _
  simp [execResumption, ht, hk, hr, hb, hh, hc, hlive, hl]

/-- A team with no command under way leaves no forwarding entry behind. -/
theorem exec_migration (ht : s.teams[ti]? = some t) (hk : s.kernelOf t = some k) (he : s.evictable t = true)
    (ha : s.atPoints t = true) (hne : core ≠ t.core) (hb : s.takesBack t k core = true) (hl : s.layout k core = some l)
    (hq : ∀ g ∈ s.groupsOf t, g.oplog = []) :
    exec (.migration ti core) s = .next (((s.closePhases t).moveTeam ti core l .running).reopenPhases ti) := by
  have hpending : ((s.groupsOf t).flatMap fun g => g.oplog.map fun x => x.ord) = [] :=
    List.flatMap_eq_nil_iff.mpr fun g hg => by rw [hq g hg]; rfl
  change execMigration ti core s = _
  simp [execMigration, ht, hk, he, ha, hne, hb, hl, hpending]

end

/-- The messages of a forwarding entry that have passed leave it, and an entry with none left is gone (R81). -/
theorem exec_forwardedMessage {s : State} {core n : Nat} {f : Forward} {left : List Nat} (hf : (s.core core).fwd[n]? = some f)
    (hleft : left = f.msgs.filter fun m =>
      (((s.teams[f.team]?).map fun t => (s.groupsOf t).flatMap fun g => g.oplog.map fun x => x.ord).getD []).contains m) :
    exec (.forwardedMessage core n) s = .next (s.modCore core fun c =>
      { c with fwd := if left = [] then c.fwd.eraseIdx n else c.fwd.set n { f with msgs := left } }) := by
  change execForwardedMessage core n s = _
  simp only [execForwardedMessage, hf, ← hleft, List.isEmpty_iff]

end Sys2Proof.Machine

namespace Sys2Proof
open Sys2Proof.Machine

/-- Settles O57: each event of a team's life by what it does to the team, its groups and its bytes. -/
theorem teamEventsComplete : Obligations.TeamEventsComplete := by
  unfold Obligations.TeamEventsComplete
  refine ⟨?place, ?retire, ?commit, ?preempt, ?move, ?bytes, ?cores, ?forward, ?cut⟩
  case place =>
    intro s ti core t task c l k ht hk hc hkern hn ha hl
    subst hkern
    obtain ⟨t', ht', hstat, hcore, hseats, hgroups, hall⟩ := State.startTeam_spec (core := core) (l := l) ht hk hc
    refine ⟨_, t', exec_placeTeam ht hk hn ha hl, ht', hstat, hcore, hseats, by rw [hgroups, upto_length]; rfl, fun n hn => ?_⟩
    obtain ⟨g, hg, hrest⟩ := startGroups_get s ti t task l core c.srSeed hn
    refine ⟨s.groups.length + n, g, ?_, ?_, hrest⟩
    · exact (congrArg (·[n]?) hgroups).trans (getElem?_upto _ hn)
    · rw [hall, List.getElem?_append_right (Nat.le_add_right ..), Nat.add_sub_cancel_left, hg]
  case retire =>
    intro s ti t ht hr
    obtain ⟨u, hu, ht', hgroups, hmem, hcores⟩ := exec_teamRetirement ht hr
    exact ⟨u, _, hu, ht', rfl, rfl, rfl, rfl, hgroups, hmem, hcores⟩
  case commit =>
    intro s ti tile t v c ht hr hv hn hc he hs
    obtain ⟨u, c', hu, hc', hcommits, hmem, hteams⟩ := exec_versionCommit ht hr hv hn hc he hs
    refine ⟨u, c', hu, hc', ?_, hmem, fun n a b ha hb hctx htask hlive hreads hnew => ?_⟩
    · rw [hcommits, spGet_spSet_of_ne_default _ (by simp), if_pos rfl]
    · have hreadVers := getElem?_map_modAt (s.teams.map (keepReadVersion t.ctx t.task tile (spGet none c.commits tile) s.tasks)) ti
        (Team.commitVersion tile) Team.readVers (fun _ => rfl) n
      rw [← hteams, hb, List.getElem?_map, ha] at hreadVers
      rw [Option.some_inj.mp hreadVers]
      exact mem_readVers_keepReadVersion hctx htask hlive hreads hnew
  case preempt =>
    exact fun s ti t ht => ⟨fun hr hg => exec_preemptionRequest ht (State.evictable_of_running hr hg), rfl⟩
  case move =>
    intro s ti t k core l ht hk
    refine ⟨fun hr hp ha hg => exec_eviction ht hp (State.evictable_of_running hr hg) ha,
      fun hg => exec_eviction_stays ht (State.evictable_eq_false hg), fun hb hl => ⟨fun hr hh hc => ?_, fun hr ha hg hne hq => ?_⟩⟩
    · exact exec_resumption ht hk hr hb hh hc hl
    · exact exec_migration ht hk (State.evictable_of_running hr hg) ha hne hb hl hq
  case bytes => exact fun s ti t k core sl x y st o b ht hk hp hy hwf ho hb => State.spad_moveTeam ht hk hp hy hwf ho hb
  case cores => exact fun s core k ctx ha => ⟨fun l hl => State.length_layout hl, State.admits_cores ha⟩
  case forward => exact fun s core n f hf left hleft => exec_forwardedMessage hf hleft
  case cut =>
    intro s ti t since ht hcut hlive hdue
    have hexec := exec_abortCutTimeout ht hcut hlive hdue
    refine ⟨fun ha => hexec.trans ?_, fun ha => ?_⟩
    · rw [State.abortTeam_atomic ht ha]
    · obtain ⟨t', ht', hstat, hnum, hversions, hrequeues, hmem, hgroups⟩ := State.abortTeam_spec ht ha
      exact ⟨_, t', hexec, ht', hstat, hnum, hversions, hrequeues, hmem, hgroups⟩

end Sys2Proof
end

section
/-!
SUPPORT. The records of a group (R82 to R88): when a group is sound, and the record and value at a position.
-/

namespace Sys2Proof.Machine

/-! Sound records -/

/-- No number stands twice. -/
theorem distinct_iff_nodup {l : List Nat} : distinct l = true ↔ l.Nodup := by
  induction l with
  | nil => simp [distinct]
  | cons a l ih => simp [distinct, ih]

/-- What `Group.shaped` asks of a record: a lane record is one position, its forms are canonical and of v0 to v63. -/
structure Rec.Shaped (r : Rec) : Prop where
  one : r.lane = true → r.n = 1
  wf : sparseWf Form.dead 0 r.forms = true
  below : ∀ e ∈ r.forms, e.1 < 64

/-- The c1 of a U form is zero (R86). -/
def Rec.Uniform (r : Rec) : Prop := ∀ e ∈ r.forms, e.2.cls = .u → e.2.c1 = 0#32

/-- What `Group.sound` asks of a list of records: no position stands twice, and the records are of the right form. -/
structure SoundRecs (rs : List Rec) : Prop where
  nodup : (allPositions rs).Nodup
  shaped : ∀ r ∈ rs, r.Shaped
  uniform : ∀ r ∈ rs, r.Uniform

/-- A fetch trap is the resident kernel's (R357). -/
def fetchTrapOk (t : Option TrapState) : Bool :=
  (t.map fun (t : TrapState) => (t.word >>> 24).toNat != 0x0F || t.route == .kernel).getD true

theorem Group.shaped_iff {g : Group} : g.shaped = true ↔
    sparseWf 0#32 0 g.lanes = true ∧ fetchTrapOk g.trap = true ∧ ∀ r ∈ g.recs, r.Shaped := by
  have hrec : ∀ r : Rec, ((!r.lane || r.n == 1) && sparseWf Form.dead 0 r.forms && r.forms.all fun e => decide (e.1 < 64)) = true ↔
      r.Shaped := by
    intro r
    simp only [Bool.and_eq_true, Bool.or_eq_true, Bool.not_eq_true', beq_iff_eq, List.all_eq_true, decide_eq_true_eq]
    exact ⟨fun ⟨⟨h1, h2⟩, h3⟩ => ⟨fun hl => by simp_all, h2, h3⟩, fun h => ⟨⟨by cases hl : r.lane <;> simp_all [h.one], h.wf⟩, h.below⟩⟩
  simp only [Group.shaped, Bool.and_eq_true, List.all_eq_true, fetchTrapOk, and_assoc]
  simp only [← hrec, Bool.and_eq_true, and_assoc, List.all_eq_true]

theorem Group.sound_iff {g : Group} : g.sound = true ↔
    sparseWf 0#32 0 g.lanes = true ∧ fetchTrapOk g.trap = true ∧ SoundRecs g.recs := by
  have hrec : ∀ r : Rec, (∀ e ∈ r.forms, (e.2.cls != .u || e.2.c1 == 0#32) = true) ↔ r.Uniform := by
    intro r
    simp only [Bool.or_eq_true, bne_iff_ne, beq_iff_eq, Rec.Uniform, ne_eq, Decidable.imp_iff_not_or]
  simp only [Group.sound, Bool.and_eq_true, Group.shaped_iff, distinct_iff_nodup, List.all_eq_true, hrec]
  exact ⟨fun ⟨⟨⟨h1, h2, h3⟩, h4⟩, h5⟩ => ⟨h1, h2, h4, h3, h5⟩, fun ⟨h1, h2, h3⟩ => ⟨⟨⟨h1, h2, h3.shaped⟩, h3.nodup⟩, h3.uniform⟩⟩

/-! Positions -/

@[simp] theorem allPositions_nil : allPositions [] = [] := rfl
@[simp] theorem allPositions_cons (r : Rec) (rs : List Rec) : allPositions (r :: rs) = r.positions ++ allPositions rs := rfl
@[simp] theorem allPositions_append (rs rs' : List Rec) : allPositions (rs ++ rs') = allPositions rs ++ allPositions rs' := by
  simp [allPositions]

theorem mem_allPositions {rs : List Rec} {k : Nat} : k ∈ allPositions rs ↔ ∃ r ∈ rs, k ∈ r.positions := by
  simp [allPositions]

theorem Rec.mem_positions {r : Rec} {k : Nat} : k ∈ r.positions ↔ ∃ j < r.n, r.b + r.s * j = k := by
  simp [Rec.positions]

theorem Rec.positions_of_one {r : Rec} (h : r.n = 1) : r.positions = [r.b] := by
  simp [Rec.positions, h, List.range_succ]

theorem Rec.Shaped.positions_lane {r : Rec} (h : r.Shaped) (hl : r.lane = true) : r.positions = [r.b] :=
  Rec.positions_of_one (h.one hl)

@[simp] theorem Rec.length_positions (r : Rec) : r.positions.length = r.n := by simp [Rec.positions]

/-- The positions of a record with a step are its own. -/
theorem Rec.nodup_positions {r : Rec} (h : r.n ≤ 1 ∨ r.s ≠ 0) : r.positions.Nodup := by
  rcases h with h | h
  · rw [List.nodup_iff_injective_get]
    intro a b _
    have ha := a.2
    have hb := b.2
    simp only [Rec.length_positions] at ha hb
    exact Fin.ext (by omega)
  · refine List.Nodup.map (fun a b hab => ?_) List.nodup_range
    have : r.s * a = r.s * b := by simpa using hab
    exact Nat.eq_of_mul_eq_mul_left (Nat.pos_of_ne_zero h) this

/-- A record of more than one position, each once, has a step. -/
theorem Rec.step_ne_zero {r : Rec} (h : r.positions.Nodup) (hn : 2 ≤ r.n) : r.s ≠ 0 := by
  intro hs
  have h01 : r.positions[0]'(by simp; omega) = r.positions[1]'(by simp; omega) := by simp [Rec.positions, hs]
  exact absurd ((List.Nodup.getElem_inj_iff h).mp h01) (by omega)

/-- Each record of a list without shared positions has its own. -/
theorem nodup_positions_of_mem {rs : List Rec} (h : (allPositions rs).Nodup) {r : Rec} (hr : r ∈ rs) : r.positions.Nodup :=
  (List.nodup_flatMap.mp h).1 r hr

/-- Two records of such a list that share a position are one. -/
theorem eq_of_mem_positions {rs : List Rec} (h : (allPositions rs).Nodup) {r x : Rec} (hr : r ∈ rs) (hx : x ∈ rs) {k : Nat}
    (hkr : k ∈ r.positions) (hkx : k ∈ x.positions) : r = x := by
  induction rs with
  | nil => simp at hr
  | cons y rs ih =>
    obtain ⟨-, hrest, hdis⟩ := List.nodup_append'.mp (by simpa using h)
    have hno : ∀ z ∈ rs, k ∈ z.positions → k ∈ y.positions → False := fun z hz hk hy =>
      hdis hy (mem_allPositions.mpr ⟨z, hz, hk⟩)
    rcases List.mem_cons.mp hr with rfl | hr' <;> rcases List.mem_cons.mp hx with rfl | hx'
    · rfl
    · exact (hno x hx' hkx hkr).elim
    · exact (hno r hr' hkr hkx).elim
    · exact ih hrest hr' hx'

/-! The record and the value at a position -/

theorem Rec.covers_iff {r : Rec} {k : Nat} : r.covers k = true ↔ k ∈ r.positions := by simp [Rec.covers]

theorem Group.recAt_mem {g : Group} {k : Nat} {r : Rec} (h : g.recAt k = some r) : r ∈ g.recs ∧ k ∈ r.positions :=
  ⟨List.mem_of_find?_eq_some h, Rec.covers_iff.mp (List.find?_some (p := fun r : Rec => r.covers k) h)⟩

theorem Group.recAt_eq_none {g : Group} {k : Nat} : g.recAt k = none ↔ k ∉ allPositions g.recs := by
  simp [Group.recAt, mem_allPositions, Rec.covers_iff]

/-- Where no position stands twice, the record at a position is the one that has it. -/
theorem Group.recAt_of_mem {g : Group} (h : (allPositions g.recs).Nodup) {r : Rec} (hr : r ∈ g.recs) {k : Nat}
    (hk : k ∈ r.positions) : g.recAt k = some r := by
  cases hx : g.recAt k with
  | none => exact absurd (mem_allPositions.mpr ⟨r, hr, hk⟩) (Group.recAt_eq_none.mp hx)
  | some x =>
    obtain ⟨hxm, hkx⟩ := Group.recAt_mem hx
    rw [eq_of_mem_positions h hr hxm hk hkx]

theorem Group.vAt_of_mem {g : Group} (h : (allPositions g.recs).Nodup) {r : Rec} (hr : r ∈ g.recs) {n k : Nat}
    (hk : k ∈ r.positions) : g.vAt n k = g.valueIn r n k := by
  simp [Group.vAt, Group.recAt_of_mem h hr hk]

/-- A group that covers the positions of another, with records that read the same there, reads the same. -/
theorem Group.vAt_eq_of_records {g h : Group} {n : Nat} (hg : (allPositions g.recs).Nodup) (hh : (allPositions h.recs).Nodup)
    (hpos : ∀ k, k ∈ allPositions h.recs ↔ k ∈ allPositions g.recs)
    (hval : ∀ x ∈ h.recs, ∀ k ∈ x.positions, ∃ r ∈ g.recs, k ∈ r.positions ∧ h.valueIn x n k = g.valueIn r n k) (k : Nat) :
    h.vAt n k = g.vAt n k := by
  by_cases hk : k ∈ allPositions h.recs
  · obtain ⟨x, hx, hkx⟩ := mem_allPositions.mp hk
    obtain ⟨r, hr, hkr, heq⟩ := hval x hx k hkx
    rw [Group.vAt_of_mem hh hx hkx, Group.vAt_of_mem hg hr hkr, heq]
  · have h1 := Group.recAt_eq_none.mpr hk
    have h2 := Group.recAt_eq_none.mpr fun hc => hk ((hpos k).mpr hc)
    simp [Group.vAt, h1, h2]

/-- What a record's register holds depends on its form, and on a lane register where the form is L. -/
theorem Group.valueIn_congr {g h : Group} {r x : Rec} {n k : Nat} (hf : h.lane k n = g.lane k n ∨ (r.form n).cls ≠ .l)
    (hform : x.form n = r.form n) : h.valueIn x n k = g.valueIn r n k := by
  unfold Group.valueIn
  rw [hform]
  cases hc : (r.form n).cls <;> simp_all

/-- Forms of registers past v63 are dead. -/
theorem Rec.Shaped.form_of_le {r : Rec} (h : r.Shaped) {n : Nat} (hn : 64 ≤ n) : r.form n = Form.dead := by
  by_contra hne
  exact absurd (h.below _ (mem_of_spGet rfl hne)) (by omega)

/-- A listed form is the register's. -/
theorem Rec.Shaped.form_of_mem {r : Rec} (h : r.Shaped) {e : Nat × Form} (he : e ∈ r.forms) : r.form e.1 = e.2 :=
  (spGet_of_mem h.wf he).2

end Sys2Proof.Machine
end

section
/-!
SUPPORT. Records replaced one by one (R96 to R99): what keeps a list of records sound, and the expansion of range records
into lane records with their values.
-/

namespace Sys2Proof.Machine

/-! Replacement of records in their age places (R88) -/

/-- Records that may replace a record: they take some of its positions, each once, and are of the right form. -/
structure Rec.ReplacedBy (r : Rec) (out : List Rec) : Prop where
  nodup : r.positions.Nodup → (allPositions out).Nodup
  sub : ∀ k ∈ allPositions out, k ∈ r.positions
  shaped : r.Shaped → ∀ x ∈ out, x.Shaped
  uniform : r.Uniform → ∀ x ∈ out, x.Uniform

/-- Each record of a list is replaced in its place. -/
inductive Replaced : List Rec → List Rec → Prop
  | nil : Replaced [] []
  | cons {r : Rec} {out rs rs' : List Rec} : r.ReplacedBy out → Replaced rs rs' → Replaced (r :: rs) (out ++ rs')

theorem Replaced.sub {rs rs' : List Rec} (h : Replaced rs rs') : ∀ k ∈ allPositions rs', k ∈ allPositions rs := by
  induction h with
  | nil => simp
  | cons hr _ ih =>
    intro k hk
    simp only [allPositions_append, allPositions_cons, List.mem_append] at hk ⊢
    exact hk.imp (hr.sub k) (ih k)

theorem Replaced.nodup {rs rs' : List Rec} (h : Replaced rs rs') (hn : (allPositions rs).Nodup) : (allPositions rs').Nodup := by
  induction h with
  | nil => exact hn
  | cons hr hrest ih =>
    obtain ⟨h1, h2, hdis⟩ := List.nodup_append'.mp (by simpa using hn)
    rw [allPositions_append]
    exact List.nodup_append'.mpr ⟨hr.nodup h1, ih h2, fun _ ha hb => hdis (hr.sub _ ha) (hrest.sub _ hb)⟩

theorem Replaced.shaped {rs rs' : List Rec} (h : Replaced rs rs') (hs : ∀ r ∈ rs, r.Shaped) : ∀ x ∈ rs', x.Shaped := by
  induction h with
  | nil => exact hs
  | cons hr _ ih =>
    obtain ⟨h1, h2⟩ := List.forall_mem_cons.mp hs
    exact List.forall_mem_append.mpr ⟨hr.shaped h1, ih h2⟩

theorem Replaced.uniform {rs rs' : List Rec} (h : Replaced rs rs') (hs : ∀ r ∈ rs, r.Uniform) : ∀ x ∈ rs', x.Uniform := by
  induction h with
  | nil => exact hs
  | cons hr _ ih =>
    obtain ⟨h1, h2⟩ := List.forall_mem_cons.mp hs
    exact List.forall_mem_append.mpr ⟨hr.uniform h1, ih h2⟩

theorem Replaced.sound {rs rs' : List Rec} (h : Replaced rs rs') (hs : SoundRecs rs) : SoundRecs rs' :=
  ⟨h.nodup hs.nodup, h.shaped hs.shaped, h.uniform hs.uniform⟩

theorem replaced_flatMap {f : Rec → List Rec} {rs : List Rec} (h : ∀ r ∈ rs, r.ReplacedBy (f r)) : Replaced rs (rs.flatMap f) := by
  induction rs with
  | nil => exact .nil
  | cons r rs ih =>
    obtain ⟨h1, h2⟩ := List.forall_mem_cons.mp h
    exact .cons h1 (ih h2)

theorem replaced_map {f : Rec → Rec} {rs : List Rec} (h : ∀ r ∈ rs, r.ReplacedBy [f r]) : Replaced rs (rs.map f) := by
  rw [List.map_eq_flatMap]
  exact replaced_flatMap h

/-- A record may be replaced by one with the same positions whose forms are as good as its own. -/
theorem Rec.replacedBy_one {r x : Rec} (hl : x.lane = r.lane) (hb : x.b = r.b) (hs : x.s = r.s) (hn : x.n = r.n)
    (hwf : r.Shaped → sparseWf Form.dead 0 x.forms = true ∧ ∀ e ∈ x.forms, e.1 < 64) (hu : r.Uniform → x.Uniform) :
    r.ReplacedBy [x] := by
  have hp : x.positions = r.positions := by simp [Rec.positions, hb, hs, hn]
  refine ⟨fun h => by simpa [hp] using h, fun k hk => by simpa [hp] using hk, fun h => ?_, fun h => by simpa using hu h⟩
  simpa using ⟨fun h1 => hn.trans (h.one (hl ▸ h1)), (hwf h).1, (hwf h).2⟩

/-- A record whose PC, wait or mark alone changes. -/
theorem Rec.replacedBy_same {r x : Rec} (hl : x.lane = r.lane) (hb : x.b = r.b) (hs : x.s = r.s) (hn : x.n = r.n)
    (hf : x.forms = r.forms) : r.ReplacedBy [x] :=
  Rec.replacedBy_one hl hb hs hn (fun h => hf ▸ ⟨h.wf, h.below⟩) fun h => by rw [Rec.Uniform, hf]; exact h

theorem Rec.replacedBy_self (r : Rec) : r.ReplacedBy [r] := Rec.replacedBy_same rfl rfl rfl rfl rfl

/-- The records of single positions of a record. -/
theorem Rec.replacedBy_singles {r : Rec} {ks : List Nat} {f : Nat → Rec} (hks : ks.Sublist r.positions)
    (hp : ∀ k ∈ ks, (f k).positions = [k]) (hs : r.Shaped → ∀ k ∈ ks, (f k).Shaped) (hu : r.Uniform → ∀ k ∈ ks, (f k).Uniform) :
    r.ReplacedBy (ks.map f) := by
  have hall : allPositions (ks.map f) = ks := by
    clear hks hs hu
    induction ks with
    | nil => rfl
    | cons k ks ih =>
      obtain ⟨h1, h2⟩ := List.forall_mem_cons.mp hp
      simp [h1, ih h2]
  refine ⟨fun h => by rw [hall]; exact h.sublist hks, fun k hk => hks.subset (by rwa [hall] at hk), fun h x hx => ?_, fun h x hx => ?_⟩
  · obtain ⟨k, hk, rfl⟩ := List.mem_map.mp hx; exact hs h k hk
  · obtain ⟨k, hk, rfl⟩ := List.mem_map.mp hx; exact hu h k hk

/-! Forms written and changed -/

theorem mem_spSet {α : Type} [DecidableEq α] {d : α} {m : Sparse α} {i : Nat} {x : α} {e : Nat × α} (h : e ∈ spSet d m i x) :
    e ∈ m ∨ e = (i, x) ∧ x ≠ d := by
  induction m with
  | nil => unfold spSet at h; split at h <;> simp_all
  | cons a rest ih =>
    obtain ⟨k, v⟩ := a
    unfold spSet at h
    split_ifs at h with h1 h2 h3 h4
    · exact .inl h
    · rcases List.mem_cons.mp h with h | h
      · exact .inr ⟨h, h2⟩
      · exact .inl h
    · exact .inl (List.mem_cons_of_mem _ h)
    · rcases List.mem_cons.mp h with h | h
      · exact .inr ⟨h, h4⟩
      · exact .inl (List.mem_cons_of_mem _ h)
    · rcases List.mem_cons.mp h with h | h
      · exact .inl (h ▸ List.mem_cons_self)
      · exact (ih h).imp (List.mem_cons_of_mem _) id

theorem spSetAll_wf {α : Type} [DecidableEq α] {d : α} {m : Sparse α} (ws : List (Nat × α)) (hm : sparseWf d 0 m = true) :
    sparseWf d 0 (spSetAll d m ws) = true := by
  induction ws generalizing m with
  | nil => exact hm
  | cons w ws ih => exact ih (spSet_wf m w.2 (Nat.zero_le _) hm)

/-- A form written to a register of v0 to v63. -/
theorem Rec.replacedBy_setForm (r : Rec) {n : Nat} (hn : n < 64) {f : Form} (hf : f.cls = .u → f.c1 = 0#32) :
    r.ReplacedBy [r.setForm n f] := by
  refine Rec.replacedBy_one rfl rfl rfl rfl (fun h => ⟨spSet_wf _ _ (Nat.zero_le _) h.wf, fun e he => ?_⟩) fun h e he => ?_
  · rcases mem_spSet he with he | ⟨rfl, -⟩
    · exact h.below e he
    · exact hn
  · rcases mem_spSet he with he | ⟨rfl, -⟩
    · exact h e he
    · exact hf

theorem Rec.ReplacedBy.trans_one {r x : Rec} {out : List Rec} (h : r.ReplacedBy [x]) (h' : x.ReplacedBy out) : r.ReplacedBy out where
  nodup hn := h'.nodup (by simpa using h.nodup hn)
  sub k hk := h.sub k (by simpa using h'.sub k hk)
  shaped hs := h'.shaped (h.shaped hs x (by simp))
  uniform hu := h'.uniform (h.uniform hu x (by simp))

section
variable {α : Type} [DecidableEq α] {d : α} {f : α → α}

omit [DecidableEq α] in
/-- A list whose values are changed reads as the changed value. -/
theorem spGet_map_snd (hd : f d = d) (m : Sparse α) (i : Nat) : spGet d (m.map fun e => (e.1, f e.2)) i = f (spGet d m i) := by
  induction m with
  | nil => exact hd.symm
  | cons e rest ih => simp only [List.map_cons, spGet, ih]; split_ifs <;> simp [hd]

theorem sparseWf_map_snd (hd : ∀ x, x ≠ d → f x ≠ d) {m : Sparse α} {lo : Nat} (hm : sparseWf d lo m = true) :
    sparseWf d lo (m.map fun e => (e.1, f e.2)) = true := by
  induction m generalizing lo with
  | nil => rfl
  | cons e rest ih =>
    simp only [sparseWf, Bool.and_eq_true, decide_eq_true_eq, List.map_cons] at hm ⊢
    exact ⟨⟨hm.1.1, hd _ hm.1.2⟩, ih hm.2⟩

end

/-! Expansion (R99) -/

/-- What a form becomes in a lane record: A becomes L. -/
def Form.toLane (f : Form) : Form := if f.cls = .a then ⟨.l, 0#32, 0#32⟩ else f

theorem Rec.laneOf_forms (r : Rec) (k : Nat) : (r.laneOf k).forms = r.forms.map fun e => (e.1, e.2.toLane) := by
  refine List.map_congr_left fun e _ => ?_
  by_cases h : e.2.cls = .a <;> simp [Form.toLane, h]

@[simp] theorem Rec.form_laneOf (r : Rec) (k n : Nat) : (r.laneOf k).form n = (r.form n).toLane := by
  simp only [Rec.form, Rec.laneOf_forms]
  exact spGet_map_snd rfl _ _

@[simp] theorem Rec.positions_laneOf (r : Rec) (k : Nat) : (r.laneOf k).positions = [k] := Rec.positions_of_one rfl

theorem Form.toLane_ne_dead {f : Form} (h : f ≠ Form.dead) : f.toLane ≠ Form.dead := by
  unfold Form.toLane
  split
  · decide
  · exact h

theorem Rec.Shaped.laneOf {r : Rec} (h : r.Shaped) (k : Nat) : (r.laneOf k).Shaped where
  one _ := rfl
  wf := by rw [Rec.laneOf_forms]; exact sparseWf_map_snd (fun _ => Form.toLane_ne_dead) h.wf
  below e he := by
    rw [Rec.laneOf_forms] at he
    obtain ⟨x, hx, rfl⟩ := List.mem_map.mp he
    exact h.below x hx

theorem Rec.Uniform.laneOf {r : Rec} (h : r.Uniform) (k : Nat) : (r.laneOf k).Uniform := by
  intro e he hc
  rw [Rec.laneOf_forms] at he
  obtain ⟨x, hx, rfl⟩ := List.mem_map.mp he
  dsimp only [Form.toLane] at hc ⊢
  split_ifs at hc ⊢ with ha
  exact h x hx hc

/-- A record may be replaced by its lane records. -/
theorem Rec.replacedBy_lanes (r : Rec) : r.ReplacedBy (r.positions.map r.laneOf) :=
  Rec.replacedBy_singles (List.Sublist.refl _) (fun _ _ => by simp) (fun h k _ => h.laneOf k) fun h k _ => h.laneOf k

theorem Rec.mem_laneWrites {r : Rec} {w : Nat × Word} : w ∈ r.laneWrites ↔
    ∃ k ∈ r.positions, ∃ e ∈ r.forms, e.2.cls = .a ∧ w = (64 * k + e.1, e.2.at k) := by
  simp only [Rec.laneWrites, List.mem_flatMap, List.mem_map, List.mem_filter, decide_eq_true_eq]
  exact exists_congr fun k => and_congr_right fun _ => exists_congr fun e =>
    ⟨fun ⟨⟨h1, h2⟩, h3⟩ => ⟨h1, h2, h3.symm⟩, fun ⟨h1, h2, h3⟩ => ⟨⟨h1, h2⟩, h3.symm⟩⟩

/-- The forms of a canonical list stand under different numbers. -/
theorem sparseWf_pairwise {α : Type} [DecidableEq α] {d : α} {m : Sparse α} {lo : Nat} (hm : sparseWf d lo m = true) :
    m.Pairwise fun a b => a.1 ≠ b.1 := by
  induction m generalizing lo with
  | nil => exact .nil
  | cons e rest ih =>
    simp only [sparseWf, Bool.and_eq_true, decide_eq_true_eq] at hm
    refine .cons (fun b hb => ?_) (ih hm.2)
    have := (spGet_of_mem (i := b.1) (x := b.2) hm.2 hb).1
    omega

/-- Lane registers of different positions or numbers are different. -/
theorem laneKey_inj {k k' n n' : Nat} (hn : n < 64) (hn' : n' < 64) (h : 64 * k + n = 64 * k' + n') : k = k' ∧ n = n' := by omega

/-- The expansion of records of one list writes no lane register twice. -/
theorem laneWrites_pairwise {xs : List Rec} (hp : (allPositions xs).Nodup) (hs : ∀ r ∈ xs, r.Shaped) :
    (xs.flatMap Rec.laneWrites).Pairwise fun v w => v.1 ≠ w.1 := by
  have hpos := List.nodup_flatMap.mp hp
  refine List.pairwise_flatMap.mpr ⟨fun r hr => ?_, ?_⟩
  · refine List.pairwise_flatMap.mpr ⟨fun k _ => ?_, (hpos.1 r hr).imp fun {k k'} hne v hv w hw => ?_⟩
    · refine List.pairwise_map.mpr (((sparseWf_pairwise (hs r hr).wf).filter _).imp fun {a b} hab => by omega)
    · simp only [List.mem_map, List.mem_filter] at hv hw
      obtain ⟨e, ⟨he, -⟩, rfl⟩ := hv
      obtain ⟨e', ⟨he', -⟩, rfl⟩ := hw
      exact fun h => hne (laneKey_inj ((hs r hr).below e he) ((hs r hr).below e' he') h).1
  · refine List.Pairwise.imp_of_mem (fun {r x} hr hx hdis v hv w hw => ?_) hpos.2
    obtain ⟨k, hk, e, he, -, rfl⟩ := Rec.mem_laneWrites.mp hv
    obtain ⟨k', hk', e', he', -, rfl⟩ := Rec.mem_laneWrites.mp hw
    intro h
    obtain ⟨rfl, -⟩ := laneKey_inj ((hs r hr).below e he) ((hs x hx).below e' he') h
    exact hdis hk hk'

section
variable {g : Group} {xs : List Rec} (hs : SoundRecs g.recs) (hl : sparseWf 0#32 0 g.lanes = true) (hxs : xs.Sublist g.recs)
include hs hl hxs

/-- The lane register of an A form of an expanded record holds the form's value. -/
theorem lane_of_expanded {r : Rec} (hr : r ∈ xs) {k n : Nat} (hk : k ∈ r.positions) (ha : (r.form n).cls = .a) :
    spGet 0#32 (spSetAll 0#32 g.lanes (xs.flatMap Rec.laneWrites)) (64 * k + n) = (r.form n).at k := by
  have hmem : (n, r.form n) ∈ r.forms := mem_of_spGet rfl fun h => by rw [h] at ha; cases ha
  have hsub : (allPositions xs).Sublist (allPositions g.recs) := hxs.flatMap _
  exact spGet_spSetAll_of_mem (w := (64 * k + n, (r.form n).at k)) hl
    (laneWrites_pairwise (hs.nodup.sublist hsub) fun x hx => hs.shaped x (hxs.subset hx))
    (List.mem_flatMap.mpr ⟨r, hr, Rec.mem_laneWrites.mpr ⟨k, hk, _, hmem, ha, rfl⟩⟩)

/-- Other lane registers stand as they were. -/
theorem lane_of_not_expanded {r : Rec} (hr : r ∈ g.recs) {k n : Nat} (hk : k ∈ r.positions) (hn : n < 64)
    (h : r ∉ xs ∨ (r.form n).cls ≠ .a) :
    spGet 0#32 (spSetAll 0#32 g.lanes (xs.flatMap Rec.laneWrites)) (64 * k + n) = g.lane k n := by
  refine spGet_spSetAll_of_ne hl fun w hw heq => ?_
  obtain ⟨x, hx, hw⟩ := List.mem_flatMap.mp hw
  obtain ⟨k', hk', e, he, ha, rfl⟩ := Rec.mem_laneWrites.mp hw
  have hxs' := hs.shaped x (hxs.subset hx)
  obtain ⟨rfl, rfl⟩ := laneKey_inj hn (hxs'.below e he) heq
  obtain rfl := eq_of_mem_positions hs.nodup hr (hxs.subset hx) hk hk'
  rcases h with h | h
  · exact h hx
  · exact h (hxs'.form_of_mem he ▸ ha)

/-- Once some records have expanded, a record with the forms of one that did not, or of the lane record of one that did,
reads as that one read. -/
theorem valueIn_expanded {h : Group} (hh : h.lanes = spSetAll 0#32 g.lanes (xs.flatMap Rec.laneWrites)) {r x : Rec} (hr : r ∈ g.recs)
    {k : Nat} (hk : k ∈ r.positions) (hx : r ∉ xs ∧ x.forms = r.forms ∨ r ∈ xs ∧ x.forms = (r.laneOf k).forms) (n : Nat) :
    h.valueIn x n k = g.valueIn r n k := by
  have hsr := hs.shaped r hr
  have hlane : ∀ n < 64, (r ∉ xs ∨ (r.form n).cls ≠ .a) → h.lane k n = g.lane k n := fun n hn hc => by
    rw [Group.lane, hh]; exact lane_of_not_expanded hs hl hxs hr hk hn hc
  rcases lt_or_ge n 64 with hn | hn
  · rcases hx with ⟨hx, hf⟩ | ⟨hx, hf⟩
    · exact Group.valueIn_congr (.inl (hlane n hn (.inl hx))) (by rw [Rec.form, Rec.form, hf])
    · have hform : x.form n = (r.form n).toLane := by rw [← Rec.form_laneOf r k, Rec.form, Rec.form, hf]
      by_cases ha : (r.form n).cls = .a
      · have hval : h.lane k n = (r.form n).at k := by rw [Group.lane, hh]; exact lane_of_expanded hs hl hxs hx hk ha
        simp [Group.valueIn, hform, Form.toLane, ha, hval, Form.at]
      · exact Group.valueIn_congr (.inl (hlane n hn (.inr ha))) (by rw [hform, Form.toLane, if_neg ha])
  · refine Group.valueIn_congr (.inr (by rw [hsr.form_of_le hn]; decide)) ?_
    rcases hx with ⟨-, hf⟩ | ⟨-, hf⟩
    · rw [Rec.form, Rec.form, hf]
    · have : x.form n = (r.laneOf k).form n := by rw [Rec.form, Rec.form, hf]
      rw [this, Rec.form_laneOf, hsr.form_of_le hn]; rfl

end

/-- The records of an expansion replace those of the group. -/
theorem Group.replaced_expand (g : Group) (sel : Rec → Bool) : Replaced g.recs (g.expand sel).recs := by
  refine replaced_flatMap fun r _ => ?_
  split
  · exact r.replacedBy_lanes
  · exact r.replacedBy_self

theorem Group.mem_allPositions_expand (g : Group) (sel : Rec → Bool) (k : Nat) :
    k ∈ allPositions (g.expand sel).recs ↔ k ∈ allPositions g.recs := by
  refine ⟨(g.replaced_expand sel).sub k, fun hk => ?_⟩
  obtain ⟨r, hr, hk⟩ := mem_allPositions.mp hk
  by_cases hx : (!r.lane && sel r) = true
  · exact mem_allPositions.mpr ⟨r.laneOf k, List.mem_flatMap.mpr ⟨r, hr, by rw [if_pos hx]; exact List.mem_map_of_mem hk⟩, by simp⟩
  · exact mem_allPositions.mpr ⟨r, List.mem_flatMap.mpr ⟨r, hr, by rw [if_neg hx]; simp⟩, hk⟩

/-- Expansion keeps every value (R99). -/
theorem Group.vAt_expand {g : Group} (h : g.sound = true) (sel : Rec → Bool) (n k : Nat) : (g.expand sel).vAt n k = g.vAt n k := by
  obtain ⟨hl, -, hs⟩ := Group.sound_iff.mp h
  refine Group.vAt_eq_of_records hs.nodup ((g.replaced_expand sel).nodup hs.nodup) (g.mem_allPositions_expand sel) (fun x hx k hk => ?_) k
  obtain ⟨r, hr, hx⟩ := List.mem_flatMap.mp hx
  by_cases hxs : (!r.lane && sel r) = true
  · rw [if_pos hxs] at hx
    obtain ⟨k', hk', rfl⟩ := List.mem_map.mp hx
    obtain rfl : k = k' := by simpa using hk
    exact ⟨r, hr, hk', valueIn_expanded hs hl List.filter_sublist rfl hr hk' (.inr ⟨List.mem_filter.mpr ⟨hr, hxs⟩, rfl⟩) n⟩
  · rw [if_neg hxs, List.mem_singleton] at hx
    subst hx
    exact ⟨x, hr, hk, valueIn_expanded hs hl List.filter_sublist rfl hr hk (.inl ⟨fun hc => hxs (List.mem_filter.mp hc).2, rfl⟩) n⟩

end Sys2Proof.Machine
end

section
/-!
SUPPORT. Merging (R100 to R103): the merged record stands at the positions of its two, in equal steps, and its live registers
hold what both held.
-/

namespace Sys2Proof.Machine

/-! Sorted positions in equal steps -/

theorem insertNat_eq_orderedInsert (x : Nat) (l : List Nat) : insertNat x l = l.orderedInsert (· ≤ ·) x := by
  induction l with
  | nil => rfl
  | cons y l ih => simp only [insertNat, List.orderedInsert_cons, ih]

theorem sortNat_eq_insertionSort (l : List Nat) : sortNat l = l.insertionSort (· ≤ ·) := by
  induction l with
  | nil => rfl
  | cons x l ih =>
    have : sortNat (x :: l) = insertNat x (sortNat l) := rfl
    rw [this, ih, insertNat_eq_orderedInsert, List.insertionSort_cons]

theorem sortNat_perm (l : List Nat) : (sortNat l).Perm l := by
  rw [sortNat_eq_insertionSort]; exact List.perm_insertionSort _ l

theorem sortNat_sorted (l : List Nat) : (sortNat l).Pairwise (· ≤ ·) := by
  rw [sortNat_eq_insertionSort]; exact List.pairwise_insertionSort _ l

/-- Ascending numbers with one step between neighbours are an arithmetic progression. -/
theorem progression_of_steps {d : Nat} {a : Nat} {l : List Nat} (hs : (a :: l).Pairwise (· ≤ ·))
    (h : ((a :: l).zip l).all (fun p => p.2 - p.1 == d) = true) : a :: l = (List.range (l.length + 1)).map fun j => a + d * j := by
  induction l generalizing a with
  | nil => simp [List.range_succ]
  | cons b l ih =>
    simp only [List.zip_cons_cons, List.all_cons, Bool.and_eq_true, beq_iff_eq] at h
    obtain ⟨hab, hrest⟩ := List.pairwise_cons.mp hs
    have hb : b = a + d := by have := hab b (by simp); omega
    rw [List.length_cons, List.range_succ_eq_map, List.map_cons, List.map_map, ih hrest h.2]
    refine congrArg (a :: ·) (List.map_congr_left fun j _ => ?_)
    simp only [Function.comp, hb, Nat.mul_succ]
    omega

theorem progression_of_spacing {d b : Nat} {l : List Nat} (hs : (b :: l).Pairwise (· ≤ ·)) (h : spacing (b :: l) = some d) :
    b :: l = (List.range (b :: l).length).map fun j => b + d * j := by
  cases l with
  | nil => simp [spacing] at h
  | cons c l =>
    simp only [spacing] at h
    split_ifs at h with hall
    simp only [Option.some.injEq] at h
    refine progression_of_steps hs ?_
    rw [List.zip_cons_cons, List.all_cons, hall.symm, h]
    simp

/-! Two records merged -/

/-- The forms that a merged record keeps are those that both records hold. -/
theorem mergeRecs_spec {x y m : Rec} (h : mergeRecs x y = some m) :
    m.lane = x.lane ∧ m.positions.Perm (x.positions ++ y.positions) ∧
      m.forms = (x.forms.filter fun e => (y.form e.1).cls != .d) ∧ formsAgree x y = true := by
  unfold mergeRecs at h
  dsimp only at h
  have hsort := sortNat_sorted (x.positions ++ y.positions)
  have hperm := sortNat_perm (x.positions ++ y.positions)
  generalize sortNat (x.positions ++ y.positions) = ps at h hsort hperm
  split at h
  · rename_i d b l hd
    split_ifs at h with ha
    obtain rfl := Option.some.inj h
    refine ⟨rfl, ?_, rfl, ha⟩
    rw [progression_of_spacing hsort hd] at hperm
    exact hperm
  · cases h

theorem mergeRecs_form {x y m : Rec} (h : mergeRecs x y = some m) (hx : x.Shaped) {n : Nat} (hn : (m.form n).cls ≠ .d) :
    m.form n = x.form n ∧ m.form n = y.form n := by
  obtain ⟨-, -, hforms, hagree⟩ := mergeRecs_spec h
  have hmem : (n, m.form n) ∈ m.forms := mem_of_spGet rfl fun hc => hn (by rw [hc]; rfl)
  rw [hforms, List.mem_filter] at hmem
  obtain ⟨hmx, hy⟩ := hmem
  have hxn : x.form n = m.form n := hx.form_of_mem hmx
  have hkey : n ∈ formKeys x y := List.mem_append_left _ (List.mem_map.mpr ⟨_, hmx, rfl⟩)
  have := List.all_eq_true.mp hagree n hkey
  have hxy : x.form n = y.form n := by
    simp only [Bool.or_eq_true, beq_iff_eq] at this
    rcases this with (hd | hd) | heq
    · exact absurd hd (hxn ▸ hn)
    · simp [hd] at hy
    · exact heq
  exact ⟨hxn.symm, hxn.symm.trans hxy⟩

/-! Lists of records merged -/

/-- Some records of a list have merged: every position stands where it stood before, and what a record holds live there the
old one held. -/
structure MergedTo (rs rs' : List Rec) : Prop where
  perm : (allPositions rs').Perm (allPositions rs)
  shaped : (∀ r ∈ rs, r.Shaped) → ∀ x ∈ rs', x.Shaped
  uniform : (∀ r ∈ rs, r.Uniform) → ∀ x ∈ rs', x.Uniform
  live : (∀ r ∈ rs, r.Shaped) → ∀ x ∈ rs', ∀ k ∈ x.positions, ∃ r ∈ rs, k ∈ r.positions ∧
    ∀ n, (x.form n).cls ≠ .d → x.form n = r.form n

theorem MergedTo.of_perm {rs rs' : List Rec} (h : rs'.Perm rs) : MergedTo rs rs' where
  perm := h.flatMap_right _
  shaped hs x hx := hs x (h.mem_iff.mp hx)
  uniform hs x hx := hs x (h.mem_iff.mp hx)
  live _ x hx _ hk := ⟨x, h.mem_iff.mp hx, hk, fun _ _ => rfl⟩

theorem MergedTo.refl (rs : List Rec) : MergedTo rs rs := .of_perm (.refl _)

theorem MergedTo.trans {rs rs' rs'' : List Rec} (h : MergedTo rs rs') (h' : MergedTo rs' rs'') : MergedTo rs rs'' where
  perm := h'.perm.trans h.perm
  shaped hs := h'.shaped (h.shaped hs)
  uniform hs := h'.uniform (h.uniform hs)
  live hs x hx k hk := by
    obtain ⟨y, hy, hky, hform⟩ := h'.live (h.shaped hs) x hx k hk
    obtain ⟨r, hr, hkr, hform'⟩ := h.live hs y hy k hky
    exact ⟨r, hr, hkr, fun n hn => by rw [hform n hn, hform' n (hform n hn ▸ hn)]⟩

theorem MergedTo.cons {rs rs' : List Rec} (y : Rec) (h : MergedTo rs rs') : MergedTo (y :: rs) (y :: rs') where
  perm := h.perm.append_left _
  shaped hs := by
    obtain ⟨h1, h2⟩ := List.forall_mem_cons.mp hs
    exact List.forall_mem_cons.mpr ⟨h1, h.shaped h2⟩
  uniform hs := by
    obtain ⟨h1, h2⟩ := List.forall_mem_cons.mp hs
    exact List.forall_mem_cons.mpr ⟨h1, h.uniform h2⟩
  live hs x hx k hk := by
    rcases List.mem_cons.mp hx with rfl | hx
    · exact ⟨x, by simp, hk, fun _ _ => rfl⟩
    · obtain ⟨r, hr, hrest⟩ := h.live (List.forall_mem_cons.mp hs).2 x hx k hk
      exact ⟨r, List.mem_cons_of_mem _ hr, hrest⟩

/-- Two range records of a list merge. -/
theorem MergedTo.of_mergeRecs {x y m : Rec} {rest : List Rec} (h : mergeRecs x y = some m) (hx : x.lane = false) :
    MergedTo (x :: y :: rest) (m :: rest) := by
  obtain ⟨hlane, hperm, hforms, -⟩ := mergeRecs_spec h
  refine ⟨?_, fun hs => ?_, fun hs => ?_, fun hs z hz k hk => ?_⟩
  · simpa using hperm.append_right (allPositions rest)
  · refine List.forall_mem_cons.mpr ⟨⟨fun hl => ?_, ?_, fun e he => ?_⟩, fun z hz => hs z (by simp [hz])⟩
    · rw [hlane, hx] at hl; cases hl
    · rw [hforms]; exact sparseWf_filter _ (hs x (by simp)).wf
    · rw [hforms] at he; exact (hs x (by simp)).below e (List.mem_filter.mp he).1
  · refine List.forall_mem_cons.mpr ⟨fun e he => ?_, fun z hz => hs z (by simp [hz])⟩
    rw [hforms] at he
    exact hs x (by simp) e (List.mem_filter.mp he).1
  · rcases List.mem_cons.mp hz with rfl | hz
    · have hform := fun n => mergeRecs_form (n := n) h (hs x (by simp))
      rcases List.mem_append.mp (hperm.mem_iff.mp hk) with hk | hk
      · exact ⟨x, by simp, hk, fun n hn => (hform n hn).1⟩
      · exact ⟨y, by simp, hk, fun n hn => (hform n hn).2⟩
    · exact ⟨z, by simp [hz], hk, fun _ _ => rfl⟩

theorem mergedTo_mergeWith {sel : Rec → Bool} {x m : Rec} {l rest : List Rec} (hx : x.lane = false)
    (h : mergeWith sel x l = some (m, rest)) : MergedTo (x :: l) (m :: rest) := by
  induction l generalizing rest with
  | nil => cases h
  | cons y l ih =>
    unfold mergeWith at h
    split at h
    · rename_i m' hm
      simp only [Option.some.injEq, Prod.mk.injEq] at h
      obtain ⟨rfl, rfl⟩ := h
      split_ifs at hm
      exact .of_mergeRecs hm hx
    · obtain ⟨⟨m', rest'⟩, hw, hp⟩ := Option.map_eq_some_iff.mp h
      obtain ⟨rfl, rfl⟩ := Prod.mk.inj hp
      exact (MergedTo.of_perm (.swap x y l)).trans (((ih hw).cons y).trans (.of_perm (.swap y m' rest')))

theorem mergedTo_mergeOnce {sel : Rec → Bool} {rs rs' : List Rec} (h : mergeOnce sel rs = some rs') : MergedTo rs rs' := by
  induction rs generalizing rs' with
  | nil => cases h
  | cons x rs ih =>
    unfold mergeOnce at h
    split at h
    · rename_i m rest hw
      obtain rfl := Option.some.inj h
      split_ifs at hw with hx
      exact mergedTo_mergeWith (by simp_all) hw
    · obtain ⟨rest, hr, rfl⟩ := Option.map_eq_some_iff.mp h
      exact (ih hr).cons x

theorem mergedTo_mergeAll (sel : Rec → Bool) (fuel : Nat) (rs : List Rec) : MergedTo rs (mergeAll sel fuel rs) := by
  induction fuel generalizing rs with
  | zero => exact .refl rs
  | succ n ih =>
    unfold mergeAll
    split
    · rename_i rs' h
      exact (mergedTo_mergeOnce h).trans (ih rs')
    · exact .refl rs

theorem MergedTo.sound {rs rs' : List Rec} (h : MergedTo rs rs') (hs : SoundRecs rs) : SoundRecs rs' :=
  ⟨h.perm.nodup_iff.mpr hs.nodup, h.shaped hs.shaped, h.uniform hs.uniform⟩

/-- A register that the merged record of a position holds live has the value it had (R103). -/
theorem Group.vAt_merged {g : Group} {rs : List Rec} (h : MergedTo g.recs rs) (hs : SoundRecs g.recs) {k n : Nat} {r : Rec}
    (hr : ({ g with recs := rs } : Group).recAt k = some r) (hn : (r.form n).cls ≠ .d) :
    ({ g with recs := rs } : Group).vAt n k = g.vAt n k := by
  obtain ⟨hmem, hk⟩ := Group.recAt_mem hr
  obtain ⟨x, hx, hkx, hform⟩ := h.live hs.shaped r hmem k hk
  rw [Group.vAt_of_mem (h.sound hs).nodup hmem hk, Group.vAt_of_mem hs.nodup hx hkx]
  exact Group.valueIn_congr (.inl rfl) (hform n hn)

end Sys2Proof.Machine
end

section
/-!
SUPPORT. Control transfer of a run (R96 to R98): the pieces of a divergent record, and where each position and its registers go.
-/

namespace Sys2Proof.Machine

/-! Pieces of a divergent range record -/

/-- Pieces of a record, each with one outcome: together they stand at its positions, with its forms. -/
structure Rec.SplitInto (r : Rec) (dest : Nat → Dest) (ps : List (Rec × Dest)) : Prop where
  nodup : (ps.flatMap fun p => p.1.positions).Nodup
  mem : ∀ k, k ∈ r.positions ↔ ∃ p ∈ ps, k ∈ p.1.positions
  goal : ∀ p ∈ ps, ∀ k ∈ p.1.positions, dest k = p.2
  kept : ∀ p ∈ ps, p.1.forms = r.forms ∧ p.1.lane = r.lane

theorem Rec.SplitInto.perm {r : Rec} {dest : Nat → Dest} {ps qs : List (Rec × Dest)} (h : r.SplitInto dest ps) (hp : qs.Perm ps) :
    r.SplitInto dest qs where
  nodup := (hp.flatMap_right _).nodup_iff.mpr h.nodup
  mem k := (h.mem k).trans (exists_congr fun _ => and_congr_left fun _ => hp.mem_iff.symm)
  goal p hm := h.goal p (hp.mem_iff.mp hm)
  kept p hm := h.kept p (hp.mem_iff.mp hm)

/-- The runs of equal outcome, written out, are the outcomes. -/
theorem outcomeRuns_flatMap (ds : List Dest) : ((outcomeRuns ds).flatMap fun x => List.replicate x.1 x.2) = ds := by
  induction ds with
  | nil => rfl
  | cons d ds ih =>
    unfold outcomeRuns
    split
    · rename_i n e more h
      rw [h] at ih
      split
      · rename_i hde
        rw [← ih, hde, List.flatMap_cons, List.flatMap_cons, List.replicate_succ, List.cons_append]
      · rw [← ih]; simp
    · rename_i h
      rw [h] at ih
      simp [← ih]

/-- The position of a record at an index. -/
def Rec.posAt (r : Rec) (j : Nat) : Nat := r.b + r.s * j

theorem Rec.positions_eq (r : Rec) : r.positions = (List.range r.n).map r.posAt := rfl

/-- The positions of n indices of a record from j on: the step of one position does not matter. -/
theorem positions_interval (r : Rec) (j n : Nat) (d : Nat) (hd : n ≠ 1 → d = r.s) :
    (List.range n).map (fun i => r.b + r.s * j + d * i) = (List.range n).map fun i => r.posAt (j + i) := by
  refine List.map_congr_left fun i hi => ?_
  have hi' := List.mem_range.mp hi
  by_cases h1 : n = 1
  · have : i = 0 := by omega
    simp [this, Rec.posAt]
  · rw [hd h1, Rec.posAt, Nat.mul_add, Nat.add_assoc]

theorem intervalPieces_positions (r : Rec) (j : Nat) (runs : List (Nat × Dest)) :
    ((intervalPieces r j runs).flatMap fun p => p.1.positions) =
      (List.range (runs.flatMap fun x => List.replicate x.1 x.2).length).map fun i => r.posAt (j + i) := by
  induction runs generalizing j with
  | nil => rfl
  | cons x runs ih =>
    obtain ⟨n, d⟩ := x
    simp only [intervalPieces, List.flatMap_cons, ih, List.length_append, List.length_replicate, List.range_add, List.map_append,
      List.map_map]
    congr 1
    · exact positions_interval r j n _ fun h => if_neg h
    · exact List.map_congr_left fun i _ => by simp only [Function.comp, Nat.add_assoc]

theorem intervalPieces_goal {r : Rec} {j : Nat} {runs : List (Nat × Dest)} {p : Rec × Dest} (hp : p ∈ intervalPieces r j runs) :
    p.1.forms = r.forms ∧ p.1.lane = r.lane ∧
      ∀ k ∈ p.1.positions, ∃ i, k = r.posAt (j + i) ∧ (runs.flatMap fun x => List.replicate x.1 x.2)[i]? = some p.2 := by
  induction runs generalizing j with
  | nil => simp [intervalPieces] at hp
  | cons x runs ih =>
    obtain ⟨n, d⟩ := x
    rcases List.mem_cons.mp hp with rfl | hp
    · refine ⟨rfl, rfl, fun k hk => ?_⟩
      have hk : k ∈ (List.range n).map fun i => r.posAt (j + i) := positions_interval r j n _ (fun h => if_neg h) ▸ hk
      obtain ⟨i, hi, rfl⟩ := List.mem_map.mp hk
      refine ⟨i, rfl, ?_⟩
      have hi' := List.mem_range.mp hi
      rw [List.flatMap_cons, List.getElem?_append_left (by simpa using hi')]
      simp [hi']
    · obtain ⟨hf, hl, hgoal⟩ := ih hp
      refine ⟨hf, hl, fun k hk => ?_⟩
      obtain ⟨i, rfl, hi⟩ := hgoal k hk
      refine ⟨n + i, by rw [Nat.add_assoc], ?_⟩
      rw [List.flatMap_cons, List.getElem?_append_right (by simp)]
      simpa using hi

/-- The outcomes of a record by index. -/
theorem outcome_getElem? {r : Rec} {dest : Nat → Dest} {i : Nat} {d : Dest} (h : (r.positions.map dest)[i]? = some d) :
    i < r.n ∧ dest (r.posAt i) = d := by
  rw [Rec.positions_eq, List.map_map, List.getElem?_map, Option.map_eq_some_iff] at h
  obtain ⟨a, ha, rfl⟩ := h
  obtain ⟨hi, rfl⟩ := List.getElem?_eq_some_iff.mp ha
  simp at hi
  exact ⟨hi, by simp⟩

/-- The interval case (R96). -/
theorem splitInto_interval {r : Rec} {dest : Nat → Dest} (hn : r.positions.Nodup) :
    r.SplitInto dest (intervalPieces r 0 (outcomeRuns (r.positions.map dest))) := by
  have hpos := intervalPieces_positions r 0 (outcomeRuns (r.positions.map dest))
  simp only [outcomeRuns_flatMap, List.length_map, Rec.length_positions, Nat.zero_add] at hpos
  refine ⟨by rw [hpos]; exact hn, fun k => ?_, fun p hp k hk => ?_, fun p hp => ?_⟩
  · rw [← List.mem_flatMap, hpos, Rec.positions_eq]
  · obtain ⟨i, rfl, hi⟩ := (intervalPieces_goal hp).2.2 k hk
    rw [outcomeRuns_flatMap] at hi
    rw [Nat.zero_add]
    exact (outcome_getElem? hi).2
  · exact ⟨(intervalPieces_goal hp).1, (intervalPieces_goal hp).2.1⟩

/-- The number of indices below n that are q modulo p. -/
theorem lt_residueCount {n q p i : Nat} (hp : 0 < p) (hq : q < n) : i < (n - q + p - 1) / p ↔ q + p * i < n := by
  rw [Nat.lt_iff_add_one_le, Nat.le_div_iff_mul_le hp, Nat.add_mul, Nat.mul_comm i p]
  omega

/-- The piece of a record at the indices that are q modulo p. -/
def Rec.residue (r : Rec) (p q : Nat) : Rec :=
  { r with b := r.b + r.s * q, s := if (r.n - q + p - 1) / p = 1 then 1 else r.s * p, n := (r.n - q + p - 1) / p }

theorem Rec.mem_residue {r : Rec} {p q k : Nat} (hp : 0 < p) (hq : q < r.n) :
    k ∈ (r.residue p q).positions ↔ ∃ i, q + p * i < r.n ∧ k = r.posAt (q + p * i) := by
  have hpos : (r.residue p q).positions = (List.range ((r.n - q + p - 1) / p)).map fun i => r.posAt (q + p * i) := by
    refine List.map_congr_left fun i hi => ?_
    have hi' : i < (r.n - q + p - 1) / p := List.mem_range.mp hi
    dsimp only [Rec.residue]
    by_cases h1 : (r.n - q + p - 1) / p = 1
    · have : i = 0 := by omega
      simp [this, Rec.posAt]
    · rw [if_neg h1, Rec.posAt, Nat.mul_add, Nat.mul_assoc, Nat.add_assoc]
  simp only [hpos, List.mem_map, List.mem_range, lt_residueCount hp hq]
  exact exists_congr fun i => and_congr_right fun _ => eq_comm

theorem Rec.nodup_residue {r : Rec} {p q : Nat} (hs : r.s ≠ 0) (hp : 0 < p) : (r.residue p q).positions.Nodup := by
  refine Rec.nodup_positions ?_
  dsimp only [Rec.residue]
  split_ifs with h1
  · exact .inl h1.le
  · exact .inr (Nat.mul_ne_zero hs hp.ne')

theorem periodicPiece_eq {r : Rec} {p q : Nat} {ds : List Dest} {x : Rec × Dest}
    (h : (if q < r.n then (ds[q]?).map fun d => (r.residue p q, d) else none) = some x) :
    q < r.n ∧ ds[q]? = some x.2 ∧ x.1 = r.residue p q := by
  split_ifs at h with hq
  obtain ⟨d, hd, rfl⟩ := Option.map_eq_some_iff.mp h
  exact ⟨hq, hd, rfl⟩

theorem mem_periodicPieces {r : Rec} {p : Nat} {ds : List Dest} {x : Rec × Dest} :
    x ∈ periodicPieces r p ds ↔ ∃ q < p, q < r.n ∧ ds[q]? = some x.2 ∧ x.1 = r.residue p q := by
  refine List.mem_filterMap.trans ⟨fun ⟨q, hq, h⟩ => ⟨q, List.mem_range.mp hq, periodicPiece_eq h⟩, fun ⟨q, hq, hqn, hd, hx⟩ => ?_⟩
  refine ⟨q, List.mem_range.mpr hq, ?_⟩
  dsimp only
  rw [if_pos hqn, hd]
  exact congrArg some (Prod.ext hx.symm rfl)

/-- The periodic case (R96). -/
theorem splitInto_periodic {r : Rec} {dest : Nat → Dest} {p : Nat} (hs : r.s ≠ 0) (hp : 0 < p)
    (h : periodicIn p (r.positions.map dest) = true) : r.SplitInto dest (periodicPieces r p (r.positions.map dest)) := by
  have hinj : ∀ {i j}, r.posAt i = r.posAt j → i = j := fun {i j} hij =>
    Nat.eq_of_mul_eq_mul_left (Nat.pos_of_ne_zero hs) (Nat.add_left_cancel hij)
  have hper : ∀ i < r.n, (r.positions.map dest)[i]? = (r.positions.map dest)[i % p]? := fun i hi => by
    simpa using List.all_eq_true.mp h i (by simpa using hi)
  refine ⟨List.nodup_flatMap.mpr ⟨fun x hx => ?_, ?_⟩, fun k => ⟨fun hk => ?_, ?_⟩, fun x hx k hk => ?_, fun x hx => ?_⟩
  · obtain ⟨q, -, -, -, hxq⟩ := mem_periodicPieces.mp hx
    exact hxq ▸ Rec.nodup_residue hs hp
  · refine List.pairwise_filterMap.mpr (List.Pairwise.imp_of_mem (fun {q q'} hq hq' hne x hx y hy => ?_) List.pairwise_lt_range)
    obtain ⟨hqn, -, hxq⟩ := periodicPiece_eq hx
    obtain ⟨hqn', -, hyq⟩ := periodicPiece_eq hy
    intro k hk hk'
    dsimp only at hk hk'
    rw [hxq] at hk
    rw [hyq] at hk'
    obtain ⟨i, -, rfl⟩ := (Rec.mem_residue hp hqn).mp hk
    obtain ⟨j, -, hij⟩ := (Rec.mem_residue hp hqn').mp hk'
    have hmod := congrArg (· % p) (hinj hij)
    simp only [Nat.add_mul_mod_self_left, Nat.mod_eq_of_lt (List.mem_range.mp hq), Nat.mod_eq_of_lt (List.mem_range.mp hq')] at hmod
    omega
  · obtain ⟨i, hi, rfl⟩ := Rec.mem_positions.mp hk
    have hq := Nat.mod_lt i hp
    have hqn : i % p < r.n := lt_of_le_of_lt (Nat.mod_le i p) hi
    have hd : (r.positions.map dest)[i % p]? = some (dest (r.posAt i)) := by
      rw [← hper i hi]; simp [Rec.positions_eq, hi]
    exact ⟨(r.residue p (i % p), dest (r.posAt i)), mem_periodicPieces.mpr ⟨_, hq, hqn, hd, rfl⟩,
      (Rec.mem_residue hp hqn).mpr ⟨i / p, by rwa [Nat.mod_add_div], by rw [Nat.mod_add_div]; rfl⟩⟩
  · rintro ⟨x, hx, hk⟩
    obtain ⟨q, -, hqn, -, hxq⟩ := mem_periodicPieces.mp hx
    obtain ⟨i, hi, rfl⟩ := (Rec.mem_residue hp hqn).mp (hxq ▸ hk)
    exact Rec.mem_positions.mpr ⟨_, hi, rfl⟩
  · obtain ⟨q, hq, hqn, hd, hxq⟩ := mem_periodicPieces.mp hx
    obtain ⟨i, hi, rfl⟩ := (Rec.mem_residue hp hqn).mp (hxq ▸ hk)
    have h1 := hper _ hi
    rw [Nat.add_mul_mod_self_left, Nat.mod_eq_of_lt hq, hd] at h1
    exact (outcome_getElem? h1).2
  · obtain ⟨q, -, -, -, hxq⟩ := mem_periodicPieces.mp hx
    exact hxq ▸ ⟨rfl, rfl⟩

/-- The pieces of a split (R96). -/
theorem splitInto_splitPieces {r : Rec} {dest : Nat → Dest} {ps : List (Rec × Dest)} (hn : r.positions.Nodup) (h2 : 2 ≤ r.n)
    (h : splitPieces r (r.positions.map dest) = some ps) : r.SplitInto dest ps := by
  unfold splitPieces at h
  dsimp only at h
  split at h
  · obtain rfl := Option.some.inj h
    exact splitInto_interval hn
  · obtain ⟨p, hp, rfl⟩ := Option.map_eq_some_iff.mp h
    have hmem := List.mem_of_find?_eq_some hp
    have hpos : 0 < p := by simp at hmem; omega
    exact splitInto_periodic (Rec.step_ne_zero hn h2) hpos (List.find?_some (p := fun p => periodicIn p (r.positions.map dest)) hp)

theorem insertPiece_perm (x : Rec × Dest) (l : List (Rec × Dest)) : (insertPiece x l).Perm (x :: l) := by
  induction l with
  | nil => exact .refl _
  | cons y l ih =>
    unfold insertPiece
    split
    · exact .refl _
    · exact (ih.cons y).trans (.swap x y l)

theorem foldr_insertPiece_perm (ps : List (Rec × Dest)) : (ps.foldr insertPiece []).Perm ps := by
  induction ps with
  | nil => exact .refl _
  | cons x ps ih => exact (insertPiece_perm x _).trans (ih.cons x)

/-! One record at a transfer -/

/-- What stands for a record of the run after a transfer: each position that does not leave, at its destination, with the
record's forms, or, where the record has expanded, those of its lane records. -/
structure Rec.Transferred (r : Rec) (dest : Nat → Dest) (out : List Rec) (expanded : Bool) : Prop where
  replaced : r.positions.Nodup → r.ReplacedBy out
  goal : ∀ x ∈ out, ∀ k ∈ x.positions, dest k = some x.pc
  mem : ∀ k ∈ r.positions, dest k ≠ none → k ∈ allPositions out
  forms : ∀ x ∈ out, ∀ k ∈ x.positions, x.forms = if expanded then (r.laneOf k).forms else r.forms

theorem moveRec_eq_some {p : Rec × Dest} {x : Rec} (h : moveRec p = some x) :
    ∃ pc, p.2 = some pc ∧ x = { p.1 with pc := pc } := by
  obtain ⟨pc, hpc, rfl⟩ := Option.map_eq_some_iff.mp h
  exact ⟨pc, hpc, rfl⟩

/-- The pieces of a split, moved. -/
theorem Rec.SplitInto.transferred {r : Rec} {dest : Nat → Dest} {ps : List (Rec × Dest)} (h : r.SplitInto dest ps)
    (hl : r.lane = false) : r.Transferred dest (ps.filterMap moveRec) false := by
  have hmem : ∀ x ∈ ps.filterMap moveRec, ∃ p ∈ ps, ∃ pc, p.2 = some pc ∧ x = { p.1 with pc := pc } := fun x hx => by
    obtain ⟨p, hp, hx⟩ := List.mem_filterMap.mp hx
    exact ⟨p, hp, moveRec_eq_some hx⟩
  refine ⟨fun _ => ⟨fun _ => ?_, fun k hk => ?_, fun hs x hx => ?_, fun hu x hx => ?_⟩, fun x hx k hk => ?_, fun k hk hd => ?_,
    fun x hx k hk => ?_⟩
  · have hsub : ∀ qs : List (Rec × Dest), (allPositions (qs.filterMap moveRec)).Sublist (qs.flatMap fun p => p.1.positions) := by
      intro qs
      induction qs with
      | nil => exact .slnil
      | cons p qs ih =>
        rw [List.filterMap_cons]
        split
        · exact ih.trans (List.sublist_append_right _ _)
        · rename_i x hx
          obtain ⟨pc, -, rfl⟩ := moveRec_eq_some hx
          exact (List.Sublist.refl _).append ih
    exact h.nodup.sublist (hsub ps)
  · obtain ⟨x, hx, hk⟩ := mem_allPositions.mp hk
    obtain ⟨p, hp, pc, -, rfl⟩ := hmem x hx
    exact (h.mem k).mpr ⟨p, hp, hk⟩
  · obtain ⟨p, hp, pc, -, rfl⟩ := hmem x hx
    obtain ⟨hf, hpl⟩ := h.kept p hp
    exact ⟨fun hc => (by rw [show p.1.lane = false from hpl.trans hl] at hc; cases hc), hf ▸ hs.wf, hf ▸ hs.below⟩
  · obtain ⟨p, hp, pc, -, rfl⟩ := hmem x hx
    intro e he
    exact hu e ((h.kept p hp).1 ▸ he)
  · obtain ⟨p, hp, pc, hpc, rfl⟩ := hmem x hx
    exact (h.goal p hp k hk).trans hpc
  · obtain ⟨p, hp, hkp⟩ := (h.mem k).mp hk
    obtain ⟨pc, hpc⟩ := Option.ne_none_iff_exists'.mp (h.goal p hp k hkp ▸ hd)
    exact mem_allPositions.mpr ⟨{ p.1 with pc := pc }, List.mem_filterMap.mpr ⟨p, hp, by simp [moveRec, hpc]⟩, hkp⟩
  · obtain ⟨p, hp, pc, -, rfl⟩ := hmem x hx
    exact (h.kept p hp).1

/-- A record whose positions all have one outcome. -/
theorem Rec.transferred_whole {r : Rec} {dest : Nat → Dest} {d : Dest} (h : ∀ k ∈ r.positions, dest k = d) :
    r.Transferred dest (moveRec (r, d)).toList false := by
  cases d with
  | none => exact ⟨fun _ => ⟨fun _ => .nil, by simp [moveRec], by simp [moveRec], by simp [moveRec]⟩, by simp [moveRec],
      fun k hk hd => absurd (h k hk) hd, by simp [moveRec]⟩
  | some pc =>
    refine ⟨fun _ => Rec.replacedBy_same rfl rfl rfl rfl rfl, fun x hx k hk => ?_, fun k hk _ => ?_, fun x hx k _ => ?_⟩
    · obtain rfl : x = { r with pc := pc } := by simpa [moveRec] using hx
      exact h k hk
    · exact mem_allPositions.mpr ⟨{ r with pc := pc }, by simp [moveRec], hk⟩
    · obtain rfl : x = { r with pc := pc } := by simpa [moveRec] using hx
      rfl

/-- A record that expands. -/
theorem Rec.transferred_lanes (r : Rec) (dest : Nat → Dest) :
    r.Transferred dest (r.positions.filterMap fun k => moveRec (r.laneOf k, dest k)) true := by
  have heq : (r.positions.filterMap fun k => moveRec (r.laneOf k, dest k)) =
      (r.positions.filter fun k => (dest k).isSome).map fun k => { r.laneOf k with pc := (dest k).getD 0#64 } := by
    induction r.positions with
    | nil => rfl
    | cons k ks ih => cases hd : dest k <;> simp [hd, moveRec, ← ih]
  have hmem : ∀ x ∈ r.positions.filterMap fun k => moveRec (r.laneOf k, dest k), ∃ k ∈ r.positions, dest k = some x.pc ∧
      x = { r.laneOf k with pc := x.pc } := fun x hx => by
    obtain ⟨k, hk, hx⟩ := List.mem_filterMap.mp hx
    obtain ⟨pc, hpc, rfl⟩ := moveRec_eq_some hx
    exact ⟨k, hk, hpc, rfl⟩
  have hone : ∀ k pc, Rec.positions { r.laneOf k with pc := pc } = [k] := fun k pc => r.positions_laneOf k
  refine ⟨fun _ => ?_, fun x hx k hk => ?_, fun k hk hd => ?_, fun x hx k hk => ?_⟩
  · rw [heq]
    exact Rec.replacedBy_singles List.filter_sublist (fun k _ => hone k _)
      (fun hs k _ => ⟨(hs.laneOf k).one, (hs.laneOf k).wf, (hs.laneOf k).below⟩) fun hu k _ => hu.laneOf k
  · obtain ⟨k', hk', hd, hx⟩ := hmem x hx
    rw [hx, hone, List.mem_singleton] at hk
    exact hk ▸ hd
  · obtain ⟨pc, hpc⟩ := Option.ne_none_iff_exists'.mp hd
    refine mem_allPositions.mpr ⟨{ r.laneOf k with pc := pc }, List.mem_filterMap.mpr ⟨k, hk, by simp [moveRec, hpc]⟩, ?_⟩
    simp [hone]
  · obtain ⟨k', hk', -, hx⟩ := hmem x hx
    rw [hx, hone, List.mem_singleton] at hk
    rw [hx, hk]
    rfl

/-- What a transfer does to a record of the run (R96 to R98). -/
theorem Rec.transferred (r : Rec) (dest : Nat → Dest) (avail : Nat) (hs : r.Shaped) (hn : r.positions.Nodup) :
    r.Transferred dest (transferRec r dest avail).1 (transferRec r dest avail).2 := by
  unfold transferRec
  dsimp only
  split
  · rename_i h
    have hnil : r.positions = [] := by simpa using h
    exact ⟨fun _ => ⟨fun _ => .nil, by simp, by simp, by simp⟩, by simp, by simp [hnil], by simp⟩
  · rename_i d rest h
    split_ifs with hw
    · refine Rec.transferred_whole fun k hk => ?_
      rcases Bool.or_eq_true_iff.mp hw with hl | hall
      · have hp := hs.positions_lane hl
        rw [hp] at h hk
        simp only [List.map_cons, List.map_nil, List.cons.injEq] at h
        rw [List.mem_singleton.mp hk, h.1]
      · have hmem : dest k ∈ r.positions.map dest := List.mem_map_of_mem hk
        rw [h] at hmem
        rcases List.mem_cons.mp hmem with he | hr
        · exact he
        · simpa using List.all_eq_true.mp hall _ hr
    · simp only [Bool.or_eq_true, not_or, Bool.not_eq_true] at hw
      split
      · exact r.transferred_lanes dest
      · rename_i ps hsp
        have h2 : 2 ≤ r.n := by
          have hlen := congrArg List.length h
          cases rest with
          | nil => simp at hw
          | cons a rest => simp at hlen; omega
        split_ifs
        · exact ((splitInto_splitPieces hn h2 (h ▸ hsp)).perm (foldr_insertPiece_perm ps)).transferred hw.1
        · exact r.transferred_lanes dest

/-! The run at a transfer -/

/-- The records of a run at a transfer, one after another, with those that expanded. -/
inductive TransferredTo (sel : Rec → Bool) (dest : Nat → Dest) : List Rec → List Rec → List Rec → Prop
  | nil : TransferredTo sel dest [] [] []
  | skip {r : Rec} {rs out xs : List Rec} : sel r = false → TransferredTo sel dest rs out xs →
      TransferredTo sel dest (r :: rs) (r :: out) xs
  | move {r : Rec} {rs o out xs : List Rec} {b : Bool} : sel r = true → r.Transferred dest o b → TransferredTo sel dest rs out xs →
      TransferredTo sel dest (r :: rs) (o ++ out) (if b then r :: xs else xs)

theorem transferredTo_transferAll {sel : Rec → Bool} {dest : Nat → Dest} {rs : List Rec} (hs : ∀ r ∈ rs, r.Shaped)
    (hn : (allPositions rs).Nodup) (avail : Nat) :
    ∃ xs, xs.Sublist rs ∧ (transferAll sel dest avail rs).2 = xs.flatMap Rec.laneWrites ∧
      TransferredTo sel dest rs (transferAll sel dest avail rs).1 xs := by
  induction rs generalizing avail with
  | nil => exact ⟨[], .slnil, rfl, .nil⟩
  | cons r rs ih =>
    obtain ⟨hsr, hsrs⟩ := List.forall_mem_cons.mp hs
    obtain ⟨hnr, hnrs, -⟩ := List.nodup_append'.mp (by simpa using hn)
    unfold transferAll
    split_ifs with hsel
    · obtain ⟨xs, hxs, hw, ht⟩ := ih hsrs hnrs (drawAfter r (transferRec r dest avail).1 avail)
      refine ⟨_, ?_, ?_, .move hsel (r.transferred dest avail hsr hnr) ht⟩
      · split
        · exact hxs.cons_cons r
        · exact hxs.cons r
      · dsimp only
        rw [hw]
        split <;> simp
    · obtain ⟨xs, hxs, hw, ht⟩ := ih hsrs hnrs avail
      exact ⟨xs, hxs.cons r, hw, .skip (by simpa using hsel) ht⟩

section
variable {sel : Rec → Bool} {dest : Nat → Dest} {rs out xs : List Rec}

theorem TransferredTo.replaced (h : TransferredTo sel dest rs out xs) (hn : (allPositions rs).Nodup) : Replaced rs out := by
  induction h with
  | nil => exact .nil
  | skip _ _ ih =>
    obtain ⟨-, hnrs, -⟩ := List.nodup_append'.mp (by simpa using hn)
    exact .cons (Rec.replacedBy_self _) (ih hnrs)
  | move _ hr _ ih =>
    obtain ⟨hnr, hnrs, -⟩ := List.nodup_append'.mp (by simpa using hn)
    exact .cons (hr.replaced hnr) (ih hnrs)

theorem TransferredTo.mem_of_not_sel (h : TransferredTo sel dest rs out xs) {r : Rec} (hr : r ∈ rs) (hs : sel r = false) : r ∈ out := by
  induction h with
  | nil => exact hr
  | skip _ _ ih => exact (List.mem_cons.mp hr).elim (fun he => he ▸ List.mem_cons_self) fun hr => List.mem_cons_of_mem _ (ih hr)
  | move hsel _ _ ih =>
    rcases List.mem_cons.mp hr with rfl | hr
    · simp [hs] at hsel
    · exact List.mem_append_right _ (ih hr)

theorem TransferredTo.mem_allPositions (h : TransferredTo sel dest rs out xs) {r : Rec} (hr : r ∈ rs) (hs : sel r = true) {k : Nat}
    (hk : k ∈ r.positions) (hd : dest k ≠ none) : k ∈ allPositions out := by
  induction h with
  | nil => simp at hr
  | skip hsel _ ih =>
    rcases List.mem_cons.mp hr with rfl | hr
    · simp [hs] at hsel
    · simp [ih hr]
  | move _ ht _ ih =>
    rcases List.mem_cons.mp hr with rfl | hr
    · simp [ht.mem k hk hd]
    · simp [ih hr]

theorem TransferredTo.subset (h : TransferredTo sel dest rs out xs) : ∀ x ∈ xs, x ∈ rs := by
  induction h with
  | nil => simp
  | skip _ _ ih => exact fun x hx => List.mem_cons_of_mem _ (ih x hx)
  | move _ _ _ ih =>
    intro x hx
    split at hx
    · exact (List.mem_cons.mp hx).elim (fun he => he ▸ List.mem_cons_self) fun hx => List.mem_cons_of_mem _ (ih x hx)
    · exact List.mem_cons_of_mem _ (ih x hx)

/-- Where a record that a transfer leaves comes from. -/
theorem TransferredTo.origin (h : TransferredTo sel dest rs out xs) (hn : (allPositions rs).Nodup) {x : Rec} (hx : x ∈ out) {k : Nat}
    (hk : k ∈ x.positions) : ∃ r ∈ rs, k ∈ r.positions ∧ (sel r = true → dest k = some x.pc) ∧
      (r ∉ xs ∧ x.forms = r.forms ∨ r ∈ xs ∧ x.forms = (r.laneOf k).forms) := by
  induction h with
  | nil => simp at hx
  | @skip r rs out xs hsel ht ih =>
    obtain ⟨-, hnrs, hdis⟩ := List.nodup_append'.mp (by simpa using hn)
    rcases List.mem_cons.mp hx with rfl | hx
    · refine ⟨x, by simp, hk, fun hc => by simp [hsel] at hc, .inl ⟨fun hc => ?_, rfl⟩⟩
      exact hdis hk (Machine.mem_allPositions.mpr ⟨x, ht.subset x hc, hk⟩)
    · obtain ⟨y, hy, hrest⟩ := ih hnrs hx
      exact ⟨y, List.mem_cons_of_mem _ hy, hrest⟩
  | @move r rs o out xs b hsel hr ht ih =>
    obtain ⟨hnr, hnrs, hdis⟩ := List.nodup_append'.mp (by simpa using hn)
    have hno : ∀ y ∈ rs, ∀ j ∈ r.positions, j ∈ y.positions → False := fun y hy j hj hjy =>
      hdis hj (Machine.mem_allPositions.mpr ⟨y, hy, hjy⟩)
    rcases List.mem_append.mp hx with hx | hx
    · have hkr := (hr.replaced hnr).sub k (Machine.mem_allPositions.mpr ⟨x, hx, hk⟩)
      refine ⟨r, by simp, hkr, fun _ => hr.goal x hx k hk, ?_⟩
      have hf := hr.forms x hx k hk
      cases b with
      | true => exact .inr ⟨by simp, hf⟩
      | false => exact .inl ⟨fun hc => hno r (ht.subset r hc) k hkr hkr, hf⟩
    · obtain ⟨y, hy, hky, hgoal, hforms⟩ := ih hnrs hx
      refine ⟨y, List.mem_cons_of_mem _ hy, hky, hgoal, ?_⟩
      have hyr : y ≠ r := fun he => hno y hy k (he ▸ hky) hky
      cases b with
      | true => simpa [hyr] using hforms
      | false => exact hforms

end

end Sys2Proof.Machine
end

section
/-!
SUPPORT. A transfer of the run (R96 to R98, R144): every position goes to its destination with its registers; the statement O13.
-/

namespace Sys2Proof.Machine

section
variable (s : State) (i : Iss) (dest : Nat → Dest) {g : Group} (h : SoundRecs g.recs)
include h

/-- The records and lane registers of a moved run. -/
theorem State.moveRun_transferred : ∃ xs, xs.Sublist g.recs ∧
    (s.moveRun i dest g).lanes = spSetAll 0#32 g.lanes (xs.flatMap Rec.laneWrites) ∧
    TransferredTo i.inRun dest g.recs (s.moveRun i dest g).recs xs := by
  obtain ⟨xs, hxs, hw, ht⟩ := transferredTo_transferAll (sel := i.inRun) (dest := dest) h.shaped h.nodup (s.avail i)
  exact ⟨xs, hxs, congrArg (spSetAll 0#32 g.lanes) hw, ht⟩

theorem State.replaced_moveRun : Replaced g.recs (s.moveRun i dest g).recs := by
  obtain ⟨xs, -, -, ht⟩ := s.moveRun_transferred i dest h
  exact ht.replaced h.nodup

/-- A position of the run that has a destination stands there and reads what it read. -/
theorem State.recAt_moveRun (hl : sparseWf 0#32 0 g.lanes = true) {k : Nat} {r : Rec} (hr : r ∈ g.recs) (hsel : i.inRun r = true)
    (hk : k ∈ r.positions) {a : Addr} (ha : dest k = some a) :
    ∃ x, (s.moveRun i dest g).recAt k = some x ∧ x.pc = a ∧ ∀ n, (s.moveRun i dest g).vAt n k = g.vAt n k := by
  obtain ⟨xs, hxs, hlanes, ht⟩ := s.moveRun_transferred i dest h
  have hn := (ht.replaced h.nodup).nodup h.nodup
  obtain ⟨x, hx, hkx⟩ := mem_allPositions.mp (ht.mem_allPositions hr hsel hk (by simp [ha]))
  obtain ⟨y, hy, hky, hgoal, hforms⟩ := ht.origin h.nodup hx hkx
  obtain rfl := eq_of_mem_positions h.nodup hr hy hk hky
  refine ⟨x, Group.recAt_of_mem hn hx hkx, ?_, fun n => ?_⟩
  · exact (Option.some.inj (ha.symm.trans (hgoal hsel))).symm
  · rw [Group.vAt_of_mem hn hx hkx, Group.vAt_of_mem h.nodup hr hk]
    exact valueIn_expanded h hl hxs hlanes hr hk hforms n

/-- A position of the run that leaves stands in no record. -/
theorem State.recAt_moveRun_none {k : Nat} {r : Rec} (hr : r ∈ g.recs) (hsel : i.inRun r = true) (hk : k ∈ r.positions)
    (hd : dest k = none) : (s.moveRun i dest g).recAt k = none := by
  obtain ⟨xs, -, -, ht⟩ := s.moveRun_transferred i dest h
  refine Group.recAt_eq_none.mpr fun hc => ?_
  obtain ⟨x, hx, hkx⟩ := mem_allPositions.mp hc
  obtain ⟨y, hy, hky, hgoal, -⟩ := ht.origin h.nodup hx hkx
  obtain rfl := eq_of_mem_positions h.nodup hr hy hk hky
  simp [hd] at hgoal
  simp [hsel] at hgoal

/-- A position outside the run stands where it stood. -/
theorem State.recAt_moveRun_of_not_mem {k : Nat} (hk : ∀ r ∈ g.recs, i.inRun r = true → k ∉ r.positions) :
    (s.moveRun i dest g).recAt k = g.recAt k := by
  obtain ⟨xs, -, -, ht⟩ := s.moveRun_transferred i dest h
  cases hx : g.recAt k with
  | none =>
    exact Group.recAt_eq_none.mpr fun hc => Group.recAt_eq_none.mp hx ((ht.replaced h.nodup).sub k hc)
  | some r =>
    obtain ⟨hr, hkr⟩ := Group.recAt_mem hx
    exact Group.recAt_of_mem ((ht.replaced h.nodup).nodup h.nodup)
      (ht.mem_of_not_sel hr (by simpa using fun hc => hk r hr hc hkr)) hkr

end

end Sys2Proof.Machine

namespace Sys2Proof
open Sys2Proof.Machine

/-- Settles O13: each record of the run is replaced by pieces, or by its lane records, at the destinations of their positions. -/
theorem transfersMoveEveryPosition : Obligations.TransfersMoveEveryPosition := by
  unfold Obligations.TransfersMoveEveryPosition
  intro s i dest p hg
  obtain ⟨hl, -, hs⟩ := Group.sound_iff.mp hg
  have hrun : p ∈ i.allByAge ↔ ∃ r ∈ i.g.recs, i.inRun r = true ∧ p ∈ r.positions := by
    simp [Iss.allByAge, mem_allPositions, Iss.mem_run, and_assoc]
  refine ⟨fun hp a ha => ?_, fun hp hd => ?_, fun hp => ?_⟩
  · obtain ⟨r, hr, hsel, hk⟩ := hrun.mp hp
    exact s.recAt_moveRun i dest hs hl hr hsel hk ha
  · obtain ⟨r, hr, hsel, hk⟩ := hrun.mp hp
    exact s.recAt_moveRun_none i dest hs hr hsel hk hd
  · exact s.recAt_moveRun_of_not_mem i dest hs fun r hr hsel hk => hp (hrun.mpr ⟨r, hr, hsel, hk⟩)

end Sys2Proof
end

section
/-!
SUPPORT. `rerange` (R104): its pieces are lane records in equal steps whose values lie on the forms of the piece; what takes their
place reads as they read. The statement O12.
-/

namespace Sys2Proof.Machine

/-! The forms of a piece -/

/-- A form that two values fix. -/
theorem valueIn_mkForm {g : Group} {x : Rec} {n k : Nat} {c0 c1 : Word} (h : x.form n = mkForm c0 c1) :
    g.valueIn x n k = c0 + c1 * w32 k := by
  unfold Group.valueIn mkForm at *
  rw [h]
  by_cases h1 : c1 = 0#32 <;> simp [h1]

theorem valueIn_of_dead {g : Group} {x : Rec} {n k : Nat} (h : (x.form n).cls = .d) : g.valueIn x n k = 0#32 := by
  simp [Group.valueIn, h]

theorem mkForm_ne_dead (c0 c1 : Word) : mkForm c0 c1 ≠ Form.dead := fun h => (mkForm_cls c0 c1).1 (h ▸ rfl)

theorem mkForm_u {c0 c1 : Word} (h : (mkForm c0 c1).cls = .u) : (mkForm c0 c1).c1 = 0#32 := by
  unfold mkForm at *; split_ifs at *; simp_all

/-- The step of a register between two positions (step 3). -/
theorem rerangeC1_mul {v1 v2 c1 : Word} {d : Nat} (h : rerangeC1 v1 v2 d = some c1) : c1 * w32 d = v2 - v1 := by
  unfold rerangeC1 at h
  dsimp only at h
  split_ifs at h with hd
  obtain rfl := Option.some.inj h
  have hw : w32 d = BitVec.ofInt 32 d := by rw [w32, BitVec.ofInt_natCast]
  rw [hw, ← BitVec.ofInt_mul, Int.ediv_mul_cancel (Int.dvd_of_emod_eq_zero hd), BitVec.ofInt_toInt]

/-- What `pieceForms` says of a register: live in both records, on the form that their two values fix. -/
def Group.pieceForm (g : Group) (x y : Rec) (e : Nat × Form) : Prop :=
  ∃ c1, (x.form e.1).cls ≠ .d ∧ rerangeC1 (g.valueIn x e.1 x.b) (g.valueIn y e.1 y.b) (y.b - x.b) = some c1 ∧
    e.2 = mkForm (g.valueIn x e.1 x.b - c1 * w32 x.b) c1

/-- The step of the fold of `pieceForms`. -/
def Group.addForm (g : Group) (x y : Rec) (n : Nat) (acc : Option (Sparse Form)) : Option (Sparse Form) :=
  match acc with
  | none => none
  | some fs =>
    if (x.form n).cls == .d || (y.form n).cls == .d then none
    else
      let v1 := g.valueIn x n x.b
      (rerangeC1 v1 (g.valueIn y n y.b) (y.b - x.b)).map fun c1 => (n, mkForm (v1 - c1 * w32 x.b) c1) :: fs

theorem addForm_foldr {g : Group} {x y : Rec} {ks : List Nat} {lo : Nat} {fs : Sparse Form} (hks : ks.Pairwise (· < ·))
    (hlo : ∀ n ∈ ks, lo ≤ n) (h : ks.foldr (g.addForm x y) (some []) = some fs) :
    sparseWf Form.dead lo fs = true ∧ fs.map Prod.fst = ks ∧ ∀ e ∈ fs, g.pieceForm x y e := by
  induction ks generalizing lo fs with
  | nil => obtain rfl : [] = fs := Option.some.inj h; simp [sparseWf]
  | cons n ks ih =>
    obtain ⟨hn, hks⟩ := List.pairwise_cons.mp hks
    rw [List.foldr_cons] at h
    cases hrest : ks.foldr (g.addForm x y) (some []) with
    | none => rw [hrest] at h; cases h
    | some fs' =>
      obtain ⟨hwf, hkeys, hpf⟩ := ih hks (fun m hm => hn m hm) hrest
      rw [hrest] at h
      simp only [Group.addForm] at h
      split_ifs at h with hd
      obtain ⟨c1, hc1, rfl⟩ := Option.map_eq_some_iff.mp h
      simp only [Bool.or_eq_true, beq_iff_eq, not_or] at hd
      refine ⟨?_, by simp [hkeys], List.forall_mem_cons.mpr ⟨⟨c1, hd.1, hc1, rfl⟩, hpf⟩⟩
      simp only [sparseWf, Bool.and_eq_true, decide_eq_true_eq]
      exact ⟨⟨hlo n (by simp), mkForm_ne_dead _ _⟩, hwf⟩

/-- The registers that a piece holds live. -/
def pieceKeys (x y : Rec) : List Nat := (List.range 64).filter fun n => (x.form n).cls != .d || (y.form n).cls != .d

theorem pieceForms_spec {g : Group} {x y : Rec} {fs : Sparse Form} (h : pieceForms g x y = some fs) :
    sparseWf Form.dead 0 fs = true ∧ fs.map Prod.fst = pieceKeys x y ∧ ∀ e ∈ fs, g.pieceForm x y e := by
  refine addForm_foldr (List.pairwise_lt_range.filter _) (fun n _ => Nat.zero_le n) ?_
  rw [← h, pieceForms]
  rfl

/-! What a piece reads -/

/-- A lane record's values lie on some forms. -/
def Group.readsAs (g : Group) (fs : Sparse Form) (r : Rec) : Prop :=
  ∀ x : Rec, x.forms = fs → ∀ n, g.valueIn x n r.b = g.valueIn r n r.b

section
variable {g : Group} {x y : Rec} {fs : Sparse Form} (h : pieceForms g x y = some fs)
include h

theorem pieceForms_get (n : Nat) : (spGet Form.dead fs n = Form.dead ∧ n ∉ pieceKeys x y) ∨ g.pieceForm x y (n, spGet Form.dead fs n) := by
  obtain ⟨hwf, hkeys, hpf⟩ := pieceForms_spec h
  by_cases hd : spGet Form.dead fs n = Form.dead
  · refine .inl ⟨hd, fun hn => ?_⟩
    rw [← hkeys, List.mem_map] at hn
    obtain ⟨e, he, rfl⟩ := hn
    obtain ⟨c1, -, -, hf⟩ := hpf e he
    exact mkForm_ne_dead _ _ (hf ▸ (spGet_of_mem (i := e.1) (x := e.2) hwf he).2 ▸ hd)
  · exact .inr (hpf _ (mem_of_spGet rfl hd))

theorem pieceForms_forms : sparseWf Form.dead 0 fs = true ∧ ∀ e ∈ fs, e.1 < 64 ∧ (e.2.cls = .u → e.2.c1 = 0#32) := by
  obtain ⟨hwf, hkeys, hpf⟩ := pieceForms_spec h
  refine ⟨hwf, fun e he => ⟨?_, fun hu => ?_⟩⟩
  · have : e.1 ∈ pieceKeys x y := hkeys ▸ List.mem_map_of_mem he
    exact List.mem_range.mp (List.mem_filter.mp this).1
  · obtain ⟨c1, -, -, hf⟩ := hpf e he
    rw [hf] at hu ⊢
    exact mkForm_u hu

theorem dead_of_not_mem_pieceKeys {r : Rec} (hr : r = x ∨ r = y) (hs : r.Shaped) {n : Nat} (hn : n ∉ pieceKeys x y) :
    (r.form n).cls = .d := by
  rcases lt_or_ge n 64 with h64 | h64
  · simp only [pieceKeys, List.mem_filter, List.mem_range, h64, true_and, Bool.or_eq_true, bne_iff_ne, not_or, not_not, ne_eq] at hn
    rcases hr with rfl | rfl
    · exact hn.1
    · exact hn.2
  · rw [hs.form_of_le h64]; rfl

theorem readsAs_first (hx : x.Shaped) : g.readsAs fs x := by
  intro z hz n
  rcases pieceForms_get h n with ⟨hd, hn⟩ | ⟨c1, -, -, hf⟩
  · rw [valueIn_of_dead (dead_of_not_mem_pieceKeys h (.inl rfl) hx hn), valueIn_of_dead (by rw [Rec.form, hz, hd]; rfl)]
  · rw [valueIn_mkForm (x := z) (by rw [Rec.form, hz]; exact hf)]
    exact BitVec.sub_add_cancel _ _

theorem readsAs_second (hy : y.Shaped) (hlt : x.b < y.b) : g.readsAs fs y := by
  intro z hz n
  rcases pieceForms_get h n with ⟨hd, hn⟩ | ⟨c1, -, hc1, hf⟩
  · rw [valueIn_of_dead (dead_of_not_mem_pieceKeys h (.inr rfl) hy hn), valueIn_of_dead (by rw [Rec.form, hz, hd]; rfl)]
  · rw [valueIn_mkForm (x := z) (by rw [Rec.form, hz]; exact hf)]
    have hyb : w32 y.b = w32 x.b + w32 (y.b - x.b) := by
      rw [w32, w32, w32, ← BitVec.ofNat_add]; congr 1; omega
    rw [hyb, BitVec.mul_add, rerangeC1_mul hc1, ← BitVec.add_assoc, BitVec.sub_add_cancel, BitVec.add_comm, BitVec.sub_add_cancel]

theorem readsAs_onPiece {r : Rec} (hr : r.Shaped) (hon : onPiece g fs r = true) : g.readsAs fs r := by
  intro z hz n
  have hform : z.form n = spGet Form.dead fs n := by rw [Rec.form, hz]
  rcases lt_or_ge n 64 with h64 | h64
  · have hn := List.all_eq_true.mp hon n (List.mem_range.mpr h64)
    dsimp only at hn
    split_ifs at hn with hd
    · rw [valueIn_of_dead (x := r) (by simpa using hn), valueIn_of_dead (x := z) (by rw [hform]; simpa using hd)]
    · simp only [Bool.and_eq_true, beq_iff_eq] at hn
      rcases pieceForms_get h n with ⟨hdead, -⟩ | ⟨c1, -, -, hf⟩
      · rw [hdead] at hd; exact absurd rfl hd
      · rw [hn.2, valueIn_mkForm (hform.trans hf)]
        dsimp only at hf
        rw [hf, Form.at]
        unfold mkForm
        split_ifs with h0 <;> simp [h0]
  · rcases pieceForms_get h n with ⟨hdead, -⟩ | ⟨c1, -, hc1, hf⟩
    · rw [valueIn_of_dead (by rw [hform, hdead]; rfl), valueIn_of_dead (by rw [hr.form_of_le h64]; rfl)]
    · have := (pieceForms_forms h).2 _ (mem_of_spGet rfl (hf ▸ mkForm_ne_dead _ _))
      omega

end

/-! The positions of a piece -/

theorem extendPiece_spec (g : Group) (fs : Sparse Form) (d : Nat) (free : List Rec) (fuel k : Nat) :
    (∃ m, extendPiece g fs d free fuel k = (List.range m).map fun j => k + d * (j + 1)) ∧
      ∀ q ∈ extendPiece g fs d free fuel k, ∃ r ∈ free, r.b = q ∧ onPiece g fs r = true := by
  induction fuel generalizing k with
  | zero => exact ⟨⟨0, rfl⟩, by simp [extendPiece]⟩
  | succ n ih =>
    unfold extendPiece
    split
    · rename_i r hf
      split_ifs with hon
      · obtain ⟨⟨m, hm⟩, hmem⟩ := ih (k + d)
        refine ⟨⟨m + 1, ?_⟩, List.forall_mem_cons.mpr ⟨⟨r, List.mem_of_find?_eq_some hf, ?_, hon⟩, hmem⟩⟩
        · rw [hm, List.range_succ_eq_map, List.map_cons, List.map_map]
          congr 1
          · simp
          · exact List.map_congr_left fun j _ => by simp only [Function.comp, Nat.mul_succ]; omega
        · exact beq_iff_eq.mp (List.find?_some (p := fun r : Rec => r.b == k + d) hf)
      · exact ⟨⟨0, rfl⟩, by simp⟩
    · exact ⟨⟨0, rfl⟩, by simp⟩

/-- A piece over some lane records: it stands at positions of theirs, and one of several positions goes in equal steps and has forms
on which their values lie. -/
structure PieceOf (g : Group) (free : List Rec) (p : List Nat × Sparse Form) : Prop where
  sub : ∀ k ∈ p.1, ∃ r ∈ free, r.b = k
  steps : 2 ≤ p.1.length → ∃ b d, 0 < d ∧ p.1 = (List.range p.1.length).map fun j => b + d * j
  forms : 2 ≤ p.1.length → sparseWf Form.dead 0 p.2 = true ∧ ∀ e ∈ p.2, e.1 < 64 ∧ (e.2.cls = .u → e.2.c1 = 0#32)
  reads : 2 ≤ p.1.length → ∀ r ∈ free, r.b ∈ p.1 → g.readsAs p.2 r

theorem PieceOf.single (g : Group) {free : List Rec} {x : Rec} (hx : x ∈ free) (fs : Sparse Form) : PieceOf g free ([x.b], fs) :=
  ⟨by simpa using ⟨x, hx, rfl⟩, by simp, by simp, by simp⟩

/-- Lane records in ascending order of position. -/
def Ascending (free : List Rec) : Prop := free.Pairwise fun x y => x.b < y.b

theorem Ascending.eq_of_b {free : List Rec} (h : Ascending free) {x y : Rec} (hx : x ∈ free) (hy : y ∈ free) (hb : x.b = y.b) : x = y := by
  by_contra hne
  have : Std.Symm fun x y : Rec => x.b ≠ y.b := ⟨fun _ _ h => h.symm⟩
  have hpw : free.Pairwise fun x y => x.b ≠ y.b := h.imp fun hlt => by omega
  exact hpw.forall hx hy hne hb

theorem PieceOf.mono {g : Group} {free free' : List Rec} {p : List Nat × Sparse Form} (h : PieceOf g free' p)
    (hsub : ∀ r ∈ free', r ∈ free) (hasc : Ascending free) : PieceOf g free p where
  sub k hk := by
    obtain ⟨r, hr, hb⟩ := h.sub k hk
    exact ⟨r, hsub r hr, hb⟩
  steps := h.steps
  forms := h.forms
  reads hl r hr hb := by
    obtain ⟨r', hr', hb'⟩ := h.sub r.b hb
    obtain rfl := hasc.eq_of_b hr (hsub r' hr') hb'.symm
    exact h.reads hl r hr' hb

/-- The piece that two lane records open. -/
theorem pieceOf_opened {g : Group} {x y : Rec} {rest : List Rec} {fs : Sparse Form} (hasc : Ascending (x :: y :: rest))
    (hs : ∀ r ∈ x :: y :: rest, r.Shaped) (h : pieceForms g x y = some fs) :
    PieceOf g (x :: y :: rest) (x.b :: y.b :: extendPiece g fs (y.b - x.b) rest 64 y.b, fs) := by
  have hlt : x.b < y.b := (List.pairwise_cons.mp hasc).1 y (by simp)
  obtain ⟨⟨m, hm⟩, hmem⟩ := extendPiece_spec g fs (y.b - x.b) rest 64 y.b
  refine ⟨fun k hk => ?_, fun _ => ⟨x.b, y.b - x.b, by omega, ?_⟩, fun _ => pieceForms_forms h, fun _ r hr hb => ?_⟩
  · rcases List.mem_cons.mp hk with rfl | hk
    · exact ⟨x, by simp, rfl⟩
    · rcases List.mem_cons.mp hk with rfl | hk
      · exact ⟨y, by simp, rfl⟩
      · obtain ⟨r, hr, hb, -⟩ := hmem k hk
        exact ⟨r, by simp [hr], hb⟩
  · dsimp only
    rw [hm]
    simp only [List.length_cons, List.length_map, List.length_range, List.range_succ_eq_map, List.map_cons, List.map_map]
    refine List.cons_eq_cons.mpr ⟨by simp, List.cons_eq_cons.mpr ⟨by simp; omega, List.map_congr_left fun j _ => ?_⟩⟩
    simp only [Function.comp, Nat.mul_succ]
    omega
  · rcases List.mem_cons.mp hb with hb | hb
    · obtain rfl := hasc.eq_of_b hr (by simp) hb
      exact readsAs_first h (hs r hr)
    · rcases List.mem_cons.mp hb with hb | hb
      · obtain rfl := hasc.eq_of_b hr (by simp) hb
        exact readsAs_second h (hs r hr) hlt
      · obtain ⟨r', hr', hb', hon⟩ := hmem r.b hb
        obtain rfl := hasc.eq_of_b hr (by simp [hr']) hb'.symm
        exact readsAs_onPiece h (hs r hr) hon

theorem rerangePieces_spec (g : Group) (fuel : Nat) (free : List Rec) (hasc : Ascending free) (hs : ∀ r ∈ free, r.Shaped) :
    (∀ p ∈ rerangePieces g fuel free, PieceOf g free p) ∧ (rerangePieces g fuel free).Pairwise fun p q => p.1.Disjoint q.1 := by
  fun_induction rerangePieces g fuel free with
  | case1 => simp
  | case2 => simp
  | case3 fuel x => simpa using PieceOf.single g (by simp) []
  | case4 fuel x y rest hnone ih =>
    obtain ⟨hx, hrest⟩ := List.pairwise_cons.mp hasc
    obtain ⟨hp, hdis⟩ := ih hrest (List.forall_mem_cons.mp hs).2
    refine ⟨List.forall_mem_cons.mpr ⟨PieceOf.single g (by simp) [], fun p hm => (hp p hm).mono (fun r hr => List.mem_cons_of_mem _ hr) hasc⟩,
      List.pairwise_cons.mpr ⟨fun q hq k hk hkq => ?_, hdis⟩⟩
    obtain ⟨r, hr, hb⟩ := (hp q hq).sub k hkq
    have := hx r hr
    simp only [List.mem_singleton] at hk
    omega
  | case5 fuel x y rest fs hfs ps ih =>
    have hsub : ∀ r ∈ rest.filter fun r => !ps.contains r.b, r ∈ x :: y :: rest := fun r hr => by simp [(List.mem_filter.mp hr).1]
    obtain ⟨hp, hdis⟩ := ih (hasc.sublist ((List.filter_sublist.cons y).cons x)) fun r hr => hs r (hsub r hr)
    refine ⟨List.forall_mem_cons.mpr ⟨pieceOf_opened hasc hs hfs, fun p hm => (hp p hm).mono hsub hasc⟩,
      List.pairwise_cons.mpr ⟨fun q hq k hk hkq => ?_, hdis⟩⟩
    obtain ⟨r, hr, rfl⟩ := (hp q hq).sub k hkq
    have hno := (List.mem_filter.mp hr).2
    simp only [Bool.not_eq_true', List.contains_eq_mem, decide_eq_false_iff_not] at hno
    exact hno hk

theorem servePieces_spec (avail : Nat) (ps : List (List Nat × Sparse Form)) :
    (servePieces avail ps).Sublist ps ∧ ∀ p ∈ servePieces avail ps, 2 ≤ p.1.length := by
  induction ps generalizing avail with
  | nil => exact ⟨.slnil, by simp [servePieces]⟩
  | cons p ps ih =>
    unfold servePieces
    split_ifs with h
    · obtain ⟨h1, h2⟩ := ih (avail - 1)
      simp only [Bool.and_eq_true, decide_eq_true_eq] at h
      exact ⟨h1.cons_cons p, List.forall_mem_cons.mpr ⟨h.1, h2⟩⟩
    · obtain ⟨h1, h2⟩ := ih avail
      exact ⟨h1.cons p, h2⟩

/-! The records of the pieces -/

/-- The pieces that take the place of lane records. -/
structure ServedPieces (g : Group) (recs : List Rec) (ps : List (List Nat × Sparse Form)) : Prop where
  piece : ∀ p ∈ ps, PieceOf g (recs.filter Rec.lane) p
  long : ∀ p ∈ ps, 2 ≤ p.1.length
  disjoint : ps.Pairwise fun p q => p.1.Disjoint q.1

section
variable {g : Group} {recs : List Rec} {ps : List (List Nat × Sparse Form)} (hp : ServedPieces g recs ps) {p q : List Nat × Sparse Form}
include hp

theorem ServedPieces.positions (hm : p ∈ ps) (r : Rec) : (pieceRec r p.1 p.2).positions = p.1 := by
  obtain ⟨b, d, -, h⟩ := (hp.piece p hm).steps (hp.long p hm)
  have hlen := hp.long p hm
  obtain ⟨n, hn⟩ : ∃ n, p.1.length = n + 2 := ⟨p.1.length - 2, by omega⟩
  rw [hn] at h
  have h0 : p.1.headD 0 = b := by rw [h]; simp [List.range_succ_eq_map]
  have h1 : p.1.getD 1 0 = b + d := by rw [h]; simp [List.range_succ_eq_map]
  simp only [Rec.positions, pieceRec, hn, h0, h1, Nat.add_sub_cancel_left]
  exact h.symm

theorem ServedPieces.nodup (hm : p ∈ ps) : p.1.Nodup := by
  obtain ⟨b, d, hd, h⟩ := (hp.piece p hm).steps (hp.long p hm)
  rw [h]
  exact List.Nodup.map (fun i j hij => Nat.eq_of_mul_eq_mul_left hd (Nat.add_left_cancel hij)) List.nodup_range

theorem ServedPieces.head_mem (hm : p ∈ ps) : p.1.headD 0 ∈ p.1 :=
  headD_mem fun h => by have := hp.long p hm; simp [h] at this

theorem ServedPieces.eq_of_mem (hm : p ∈ ps) (hq : q ∈ ps) {k : Nat} (hk : k ∈ p.1) (hk' : k ∈ q.1) : p = q := by
  by_contra hne
  have : Std.Symm fun p q : List Nat × Sparse Form => p.1.Disjoint q.1 := ⟨fun _ _ h => h.symm⟩
  exact hp.disjoint.forall hm hq hne hk hk'

/-- A position of a piece is that of a lane record. -/
theorem ServedPieces.origin (hm : p ∈ ps) {k : Nat} (hk : k ∈ p.1) : ∃ r ∈ recs, r.lane = true ∧ r.b = k ∧ g.readsAs p.2 r := by
  obtain ⟨r, hr, hb⟩ := (hp.piece p hm).sub k hk
  exact ⟨r, (List.mem_filter.mp hr).1, (List.mem_filter.mp hr).2, hb, (hp.piece p hm).reads (hp.long p hm) r hr (hb ▸ hk)⟩

end

/-- What stands after the pieces are placed: a record that no piece takes, or a piece. -/
theorem mem_placePieces {ps : List (List Nat × Sparse Form)} {done : List Nat} {rs : List Rec} {x : Rec}
    (h : x ∈ placePieces ps done rs) : (x ∈ rs ∧ (x.lane = true → ∀ p ∈ ps, x.b ∉ p.1)) ∨
      ∃ r ∈ rs, ∃ p ∈ ps, p.1.headD 0 ∉ done ∧ x = pieceRec r p.1 p.2 := by
  induction rs generalizing done with
  | nil => simp [placePieces] at h
  | cons r rs ih =>
    have hrest : ∀ {done'}, (∀ k ∈ done, k ∈ done') → x ∈ placePieces ps done' rs →
        (x ∈ r :: rs ∧ (x.lane = true → ∀ p ∈ ps, x.b ∉ p.1)) ∨
          ∃ r' ∈ r :: rs, ∃ p ∈ ps, p.1.headD 0 ∉ done ∧ x = pieceRec r' p.1 p.2 := fun hsub hx => by
      rcases ih hx with ⟨hx, hno⟩ | ⟨r', hr', p, hp, hd, hx⟩
      · exact .inl ⟨List.mem_cons_of_mem _ hx, hno⟩
      · exact .inr ⟨r', List.mem_cons_of_mem _ hr', p, hp, fun hc => hd (hsub _ hc), hx⟩
    unfold placePieces at h
    split_ifs at h with hl
    · rcases List.mem_cons.mp h with rfl | h
      · exact .inl ⟨by simp, fun hc => by simp [hc] at hl⟩
      · exact hrest (fun _ => id) h
    · split at h
      · rename_i hf
        rcases List.mem_cons.mp h with rfl | h
        · exact .inl ⟨by simp, fun _ p hp => by simpa using List.find?_eq_none.mp hf p hp⟩
        · exact hrest (fun _ => id) h
      · rename_i p hf
        split_ifs at h with hd
        · exact hrest (fun _ => id) h
        · rcases List.mem_cons.mp h with rfl | h
          · exact .inr ⟨r, by simp, p, List.mem_of_find?_eq_some hf, by simpa using hd, rfl⟩
          · exact hrest (fun _ => List.mem_cons_of_mem _) h

section
variable {g : Group} {recs : List Rec} {ps : List (List Nat × Sparse Form)} (hp : ServedPieces g recs ps) (hn : (allPositions recs).Nodup)
  (hs : ∀ r ∈ recs, r.Shaped)
include hp hn hs

/-- A record that has a position of a piece is the lane record there. -/
theorem ServedPieces.lane_of_mem {p : List Nat × Sparse Form} (hm : p ∈ ps) {k : Nat} (hk : k ∈ p.1) {r : Rec} (hr : r ∈ recs)
    (hkr : k ∈ r.positions) : r.lane = true ∧ r.b = k := by
  obtain ⟨x, hx, hl, hb, -⟩ := hp.origin hm hk
  obtain rfl := eq_of_mem_positions hn hr hx hkr (by rw [(hs x hx).positions_lane hl, hb]; simp)
  exact ⟨hl, hb⟩

theorem nodup_placePieces {done : List Nat} {rs : List Rec} (hrs : ∀ r ∈ rs, r ∈ recs) (hnrs : (allPositions rs).Nodup) :
    (allPositions (placePieces ps done rs)).Nodup := by
  induction rs generalizing done with
  | nil => simp [placePieces]
  | cons r rs ih =>
    obtain ⟨hr, hrs⟩ := List.forall_mem_cons.mp hrs
    obtain ⟨hnr, hnrs, hdis⟩ := List.nodup_append'.mp (by simpa using hnrs)
    have keep : ∀ {done'}, (r.lane = true → ∀ p ∈ ps, r.b ∉ p.1) → (allPositions (r :: placePieces ps done' rs)).Nodup := by
      intro done' hno
      refine List.nodup_append'.mpr ⟨hnr, ih hrs hnrs, fun k hk hk' => ?_⟩
      obtain ⟨x, hx, hkx⟩ := mem_allPositions.mp hk'
      rcases mem_placePieces hx with ⟨hx, -⟩ | ⟨r', -, p, hm, -, rfl⟩
      · exact hdis hk (mem_allPositions.mpr ⟨x, hx, hkx⟩)
      · rw [hp.positions hm] at hkx
        obtain ⟨hl, hb⟩ := hp.lane_of_mem hn hs hm hkx hr hk
        exact hno hl p hm (hb ▸ hkx)
    unfold placePieces
    split_ifs with hl
    · exact keep fun hc => by simp [hc] at hl
    · split
      · rename_i hf
        exact keep fun _ p hm => by simpa using List.find?_eq_none.mp hf p hm
      · rename_i p hf
        have hm := List.mem_of_find?_eq_some hf
        split_ifs with hd
        · exact ih hrs hnrs
        · refine List.nodup_append'.mpr ⟨by rw [hp.positions hm]; exact hp.nodup hm, ih hrs hnrs, fun k hk hk' => ?_⟩
          rw [hp.positions hm] at hk
          obtain ⟨x, hx, hkx⟩ := mem_allPositions.mp hk'
          rcases mem_placePieces hx with ⟨hx, hno⟩ | ⟨r', -, q, hq, hqd, rfl⟩
          · obtain ⟨hxl, hxb⟩ := hp.lane_of_mem hn hs hm hk (hrs x hx) hkx
            exact hno hxl p hm (hxb ▸ hk)
          · rw [hp.positions hq] at hkx
            obtain rfl := hp.eq_of_mem hm hq hk hkx
            simp at hqd

omit hn in
theorem mem_allPositions_placePieces {done : List Nat} {rs : List Rec} (hrs : ∀ r ∈ rs, r ∈ recs) {k : Nat} (hk : k ∈ allPositions rs) :
    k ∈ allPositions (placePieces ps done rs) ∨ ∃ p ∈ ps, k ∈ p.1 ∧ p.1.headD 0 ∈ done := by
  induction rs generalizing done with
  | nil => simp at hk
  | cons r rs ih =>
    obtain ⟨hr, hrs⟩ := List.forall_mem_cons.mp hrs
    rw [allPositions_cons, List.mem_append] at hk
    have keep : k ∈ allPositions (r :: placePieces ps done rs) ∨ ∃ p ∈ ps, k ∈ p.1 ∧ p.1.headD 0 ∈ done := by
      rcases hk with hk | hk
      · exact .inl (by simp [hk])
      · exact (ih hrs hk).imp_left fun hk => by simp [hk]
    unfold placePieces
    split_ifs with hl
    · exact keep
    · split
      · exact keep
      · rename_i p hf
        have hm := List.mem_of_find?_eq_some hf
        have hrp : r.b ∈ p.1 := by simpa using List.find?_some (p := fun p : List Nat × Sparse Form => p.1.contains r.b) hf
        have hone : k ∈ r.positions → k ∈ p.1 := fun hk => by
          rw [(hs r hr).positions_lane (by simpa using hl), List.mem_singleton] at hk
          exact hk ▸ hrp
        split_ifs with hd
        · rcases hk with hk | hk
          · exact .inr ⟨p, hm, hone hk, by simpa using hd⟩
          · exact ih hrs hk
        · have here : k ∈ p.1 → k ∈ allPositions (pieceRec r p.1 p.2 :: placePieces ps (p.1.headD 0 :: done) rs) := fun hk => by
            rw [allPositions_cons, hp.positions hm]; simp [hk]
          rcases hk with hk | hk
          · exact .inl (here (hone hk))
          · rcases ih hrs hk with hk | ⟨q, hq, hkq, hqd⟩
            · exact .inl (by rw [allPositions_cons]; exact List.mem_append_right _ hk)
            · rcases List.mem_cons.mp hqd with hqd | hqd
              · obtain rfl := hp.eq_of_mem hq hm (hp.head_mem hq) (hqd ▸ hp.head_mem hm)
                exact .inl (here hkq)
              · exact .inr ⟨q, hq, hkq, hqd⟩

end

/-! The whole -/

theorem insertRec_perm (x : Rec) (l : List Rec) : (insertRec x l).Perm (x :: l) := by
  induction l with
  | nil => exact .refl _
  | cons y l ih =>
    unfold insertRec
    split
    · exact .refl _
    · exact (ih.cons y).trans (.swap x y l)

theorem foldr_insertRec_perm (l : List Rec) : (l.foldr insertRec []).Perm l := by
  induction l with
  | nil => exact .refl _
  | cons x l ih => exact (insertRec_perm x _).trans (ih.cons x)

theorem insertRec_sorted {x : Rec} {l : List Rec} (h : l.Pairwise fun x y => x.b ≤ y.b) : (insertRec x l).Pairwise fun x y => x.b ≤ y.b := by
  induction l with
  | nil => simp [insertRec]
  | cons y l ih =>
    obtain ⟨hy, hl⟩ := List.pairwise_cons.mp h
    unfold insertRec
    split_ifs with hxy
    · refine List.pairwise_cons.mpr ⟨fun z hz => ?_, h⟩
      rcases List.mem_cons.mp hz with rfl | hz
      · exact hxy
      · exact hxy.trans (hy z hz)
    · refine List.pairwise_cons.mpr ⟨fun z hz => ?_, ih hl⟩
      rcases mem_insertRec.mp hz with rfl | hz
      · omega
      · exact hy z hz

theorem foldr_insertRec_sorted (l : List Rec) : (l.foldr insertRec []).Pairwise fun x y => x.b ≤ y.b := by
  induction l with
  | nil => exact .nil
  | cons x l ih => exact insertRec_sorted ih

/-- Lane records without shared positions, sorted, ascend. -/
theorem ascending_foldr_insertRec {rs : List Rec} (hn : (allPositions rs).Nodup) (hs : ∀ r ∈ rs, r.Shaped)
    (hl : ∀ r ∈ rs, r.lane = true) : Ascending (rs.foldr insertRec []) := by
  have hpw : rs.Pairwise fun x y => x.b ≠ y.b := by
    refine List.Pairwise.imp_of_mem (fun {x y} hx hy hdis hb => ?_) (List.nodup_flatMap.mp hn).2
    exact hdis (a := x.b) (by simp [(hs x hx).positions_lane (hl x hx)]) (by simp [(hs y hy).positions_lane (hl y hy), hb])
  have hpw' := ((foldr_insertRec_perm rs).pairwise_iff fun {_ _} hne => Ne.symm hne).mpr hpw
  exact (foldr_insertRec_sorted rs).imp₂ (fun _ _ h1 h2 => lt_of_le_of_ne h1 h2) hpw'

/-- The pieces of a `rerange`. -/
def Group.pieces (g : Group) (sel : Rec → Bool) (avail : Nat) : List (List Nat × Sparse Form) :=
  servePieces avail (rerangePieces g 65 ((g.recs.filter fun r => r.lane && sel r).foldr insertRec []))

theorem Group.rerange_recs (g : Group) (sel : Rec → Bool) (avail : Nat) :
    (g.rerange sel avail).recs = placePieces (g.pieces sel avail) [] g.recs := rfl

theorem Group.servedPieces {g : Group} (h : SoundRecs g.recs) (sel : Rec → Bool) (avail : Nat) :
    ServedPieces g g.recs (g.pieces sel avail) := by
  have hmem : ∀ r ∈ g.recs.filter fun r => r.lane && sel r, r ∈ g.recs ∧ r.lane = true := fun r hr => by
    obtain ⟨h1, h2⟩ := List.mem_filter.mp hr
    exact ⟨h1, (Bool.and_eq_true_iff.mp h2).1⟩
  have hasc : Ascending ((g.recs.filter fun r => r.lane && sel r).foldr insertRec []) :=
    ascending_foldr_insertRec (h.nodup.sublist (List.filter_sublist.flatMap _)) (fun r hr => h.shaped r (hmem r hr).1) fun r hr => (hmem r hr).2
  obtain ⟨hp, hdis⟩ := rerangePieces_spec g 65 _ hasc fun r hr => h.shaped r (hmem r (mem_foldr_insertRec.mp hr)).1
  obtain ⟨hsub, hlong⟩ := servePieces_spec avail (rerangePieces g 65 ((g.recs.filter fun r => r.lane && sel r).foldr insertRec []))
  refine ⟨fun p hm => ?_, hlong, hdis.sublist hsub⟩
  have hpo := hp p (hsub.subset hm)
  refine ⟨fun k hk => ?_, hpo.steps, hpo.forms, fun hl r hr hb => ?_⟩
  · obtain ⟨r, hr, hb⟩ := hpo.sub k hk
    exact ⟨r, List.mem_filter.mpr (hmem r (mem_foldr_insertRec.mp hr)), hb⟩
  · obtain ⟨x, hx, hxb⟩ := hpo.sub r.b hb
    obtain ⟨hxr, hxl⟩ := hmem x (mem_foldr_insertRec.mp hx)
    obtain ⟨hrr, hrl⟩ := List.mem_filter.mp hr
    obtain rfl := eq_of_mem_positions (k := r.b) h.nodup hrr hxr (by simp [(h.shaped r hrr).positions_lane hrl])
      (by simp [(h.shaped x hxr).positions_lane hxl, hxb])
    exact hpo.reads hl r hx hb

section
variable {g : Group} (h : SoundRecs g.recs) (sel : Rec → Bool) (avail : Nat)
include h

/-- A record that stands after `rerange` reads, at each of its positions, as the one that stood there. -/
theorem Group.rerange_origin {x : Rec} (hx : x ∈ (g.rerange sel avail).recs) {k : Nat} (hk : k ∈ x.positions) :
    ∃ r ∈ g.recs, k ∈ r.positions ∧ ∀ n, (g.rerange sel avail).valueIn x n k = g.valueIn r n k := by
  rw [Group.rerange_recs] at hx
  have hp := g.servedPieces h sel avail
  rcases mem_placePieces hx with ⟨hx, -⟩ | ⟨r, -, p, hm, -, rfl⟩
  · exact ⟨x, hx, hk, fun n => Group.valueIn_congr (.inl rfl) rfl⟩
  · rw [hp.positions hm] at hk
    obtain ⟨y, hy, hl, rfl, hreads⟩ := hp.origin hm hk
    exact ⟨y, hy, by simp [(h.shaped y hy).positions_lane hl], hreads _ rfl⟩

theorem Group.nodup_rerange : (allPositions (g.rerange sel avail).recs).Nodup :=
  nodup_placePieces (g.servedPieces h sel avail) h.nodup h.shaped (fun _ => id) h.nodup

theorem Group.mem_allPositions_rerange (k : Nat) : k ∈ allPositions (g.rerange sel avail).recs ↔ k ∈ allPositions g.recs := by
  refine ⟨fun hk => ?_, fun hk => ?_⟩
  · obtain ⟨x, hx, hk⟩ := mem_allPositions.mp hk
    obtain ⟨r, hr, hkr, -⟩ := g.rerange_origin h sel avail hx hk
    exact mem_allPositions.mpr ⟨r, hr, hkr⟩
  · rw [Group.rerange_recs]
    exact (mem_allPositions_placePieces (g.servedPieces h sel avail) h.shaped (fun _ => id) hk).resolve_right (by simp)

theorem Group.soundRecs_rerange : SoundRecs (g.rerange sel avail).recs := by
  have hp := g.servedPieces h sel avail
  refine ⟨g.nodup_rerange h sel avail, fun x hx => ?_, fun x hx => ?_⟩
  · rcases mem_placePieces (g.rerange_recs sel avail ▸ hx) with ⟨hx, -⟩ | ⟨r, -, p, hm, -, rfl⟩
    · exact h.shaped x hx
    · obtain ⟨hwf, hforms⟩ := (hp.piece p hm).forms (hp.long p hm)
      exact ⟨fun (hc : false = true) => Bool.noConfusion hc, hwf, fun e he => (hforms e he).1⟩
  · rcases mem_placePieces (g.rerange_recs sel avail ▸ hx) with ⟨hx, -⟩ | ⟨r, -, p, hm, -, rfl⟩
    · exact h.uniform x hx
    · exact fun e he => (((hp.piece p hm).forms (hp.long p hm)).2 e he).2

/-- `rerange` keeps every value (R104). -/
theorem Group.vAt_rerange (n k : Nat) : (g.rerange sel avail).vAt n k = g.vAt n k :=
  Group.vAt_eq_of_records h.nodup (g.nodup_rerange h sel avail) (g.mem_allPositions_rerange h sel avail) (fun x hx k hk => by
    obtain ⟨r, hr, hkr, hval⟩ := g.rerange_origin h sel avail hx hk
    exact ⟨r, hr, hkr, hval n⟩) k

end

end Sys2Proof.Machine

namespace Sys2Proof
open Sys2Proof.Machine

/-- Settles O12: expansion moves A values into lane registers, `rerange` takes forms on which the values lie, and merging keeps a
form where both records hold it. -/
theorem recordRewritesKeepValues : Obligations.RecordRewritesKeepValues := by
  unfold Obligations.RecordRewritesKeepValues
  intro g hg
  obtain ⟨-, -, hs⟩ := Group.sound_iff.mp hg
  refine ⟨fun sel n p => Group.vAt_expand hg sel n p, fun sel avail n p => Group.vAt_rerange hs sel avail n p,
    fun sel fuel n p r hr hn => Group.vAt_merged (mergedTo_mergeAll sel fuel g.recs) hs hr hn, fun sel fuel avail p => ⟨?_, ?_, ?_⟩⟩
  · exact g.mem_allPositions_expand sel p
  · exact Group.mem_allPositions_rerange hs sel avail p
  · exact (mergedTo_mergeAll sel fuel g.recs).perm.mem_iff

end Sys2Proof
end

section
/-!
SUPPORT. `exit` (R105, R150): where every position leaves, the group has no record left and ends; the statement O14.
-/

namespace Sys2Proof.Machine

/-! A group without a record -/

/-- A group of the state runs and has no record left. -/
def State.emptied (s : State) (gi : Nat) : Prop := ∃ g, s.groups[gi]? = some g ∧ g.recs = [] ∧ g.stat = .live

theorem State.emptied.modGroup {s : State} {gi : Nat} (h : s.emptied gi) {f : Group → Group}
    (hf : ∀ g, (f g).recs = g.recs ∧ (f g).stat = g.stat) : (s.modGroup gi f).emptied gi := by
  obtain ⟨g, hg, hr, hs⟩ := h
  exact ⟨f g, by simp [hg], (hf g).1.trans hr, (hf g).2.trans hs⟩

theorem Group.sigUp_recs_stat (g : Group) (sig n : Nat) : (g.sigUp sig n).recs = g.recs ∧ (g.sigUp sig n).stat = g.stat := by
  unfold Group.sigUp; split <;> exact ⟨rfl, rfl⟩

theorem Group.restStrag_recs_stat (g : Group) : g.restStrag.recs = g.recs ∧ g.restStrag.stat = g.stat := by
  unfold Group.restStrag; split <;> exact ⟨rfl, rfl⟩

theorem Group.countStrag_recs_stat (g : Group) (pc : Addr) : (g.countStrag pc).recs = g.recs ∧ (g.countStrag pc).stat = g.stat := by
  unfold Group.countStrag; split_ifs <;> exact ⟨rfl, rfl⟩

/-- Results that write nothing keep a group empty. -/
theorem State.emptied.launch {s : State} {gi : Nat} (h : s.emptied gi) (ord sig last lat cnt : Nat) :
    (s.launch gi ord sig last ⟨lat, cnt, []⟩).emptied gi := by
  have hup : ∀ (e : Inflight) (g : Group), ({ g.sigUp sig cnt with wb := g.wb ++ [e] } : Group).recs = g.recs ∧
      ({ g.sigUp sig cnt with wb := g.wb ++ [e] } : Group).stat = g.stat := fun _ g => g.sigUp_recs_stat sig cnt
  unfold State.launch
  dsimp only
  split
  · exact h
  · split
    · exact h
    · exact h.modGroup (hup _)

theorem State.emptied.loseLatches {s : State} {gi : Nat} (h : s.emptied gi) (core : Nat) : (s.loseLatches gi core).emptied gi := by
  obtain ⟨g, hg, hr, hs⟩ := h
  exact ⟨g, by simp [State.loseLatches, hg], hr, hs⟩

theorem State.emptied.of_groups {s t : State} {gi : Nat} (h : s.emptied gi) (ht : t.groups = s.groups) : t.emptied gi := by
  unfold State.emptied; rw [ht]; exact h

theorem State.countPair_groups (s : State) (i : Iss) (gc g : Group) : (s.countPair i gc g).groups = s.groups := by
  unfold State.countPair
  split
  · rfl
  · dsimp only
    split <;> rfl

/-- The records of a group as its issue leaves them to its moves: those of the run have lost their mark (R366). -/
def Iss.seen (i : Iss) (g : Group) : List Rec := g.recs.map fun r => if i.inRun r then { r with noWatch := false } else r

/-- The group that an issue hands to its moves. -/
def Iss.closing (i : Iss) (g : Group) (passes lost ck : Nat) : Group :=
  { Group.countStrag { g with recs := i.seen g } i.pc with
    nextAt := i.now + passes, lostAt := lost, lastIssue := ck, windows := i.nextWindows }

theorem Iss.close_eq (i : Iss) (g : Group) (passes lost ck : Nat) (move : Group → Group) :
    i.close g passes lost ck move = (move (i.closing g passes lost ck)).restStrag := rfl

/-- An issue whose moves leave no record, and whose results write nothing, leaves the group empty. -/
theorem State.emptied_finish {s : State} {i : Iss} {gc g : Group} {regs : List Nat} {extra pend : Nat} {res : List Res}
    {move : Group → Group} (hgi : i.gi < s.groups.length) (hstep : i.g0.step = none) (hw : ∀ r ∈ res, r.ws = [])
    (hmove : ∀ h : Group, h.recs = i.seen g → h.stat = g.stat → (move h).recs = [] ∧ (move h).stat = .live) :
    (s.finish i gc g regs extra pend res move).emptied i.gi := by
  have hclose : ∀ passes lost ck, (i.close g passes lost ck move).recs = [] ∧ (i.close g passes lost ck move).stat = .live := by
    intro passes lost ck
    rw [Iss.close_eq]
    obtain ⟨h1, h2⟩ := (move (i.closing g passes lost ck)).restStrag_recs_stat
    obtain ⟨h3, h4⟩ := Group.countStrag_recs_stat { g with recs := i.seen g } i.pc
    obtain ⟨h5, h6⟩ := hmove (i.closing g passes lost ck) h3 h4
    exact ⟨h1.trans h5, h2.trans h6⟩
  have hfold : ∀ (l : List Res) (u : State) (ord last : Nat), (∀ r ∈ l, r.ws = []) → u.emptied i.gi →
      (l.foldl (fun s r => s.launch i.gi ord i.k.sig.toNat last r) u).emptied i.gi := by
    intro l
    induction l with
    | nil => exact fun _ _ _ _ hu => hu
    | cons r l ih =>
      intro u ord last hl hu
      obtain ⟨hr, hl⟩ := List.forall_mem_cons.mp hl
      refine ih _ ord last hl ?_
      obtain ⟨lat, cnt, ws⟩ := r
      obtain rfl : ws = [] := hr
      exact hu.launch ..
  unfold State.finish State.stepped
  simp only [hstep]
  refine hfold res _ _ _ hw (State.emptied.of_groups ?_ (State.countPair_groups ..))
  split
  all_goals
    refine State.emptied.of_groups (State.emptied.loseLatches (s := State.modCore _ _ _) ?_ _) rfl
    obtain ⟨h1, h2⟩ := hclose (i.cost gc regs extra) ((s.core g.core).lost + i.conflicts gc regs) (i.now + 1)
    obtain ⟨h3, h4⟩ := Group.sigUp_recs_stat (i.close g (i.cost gc regs extra) ((s.core g.core).lost + i.conflicts gc regs) (i.now + 1) move)
      i.k.sig.toNat pend
    exact ⟨_, by simp [hgi], h3.trans h1, h4.trans h2⟩

/-- A group that its moves have emptied has ended (R105). -/
theorem State.emptied.afterExit {s : State} {gi : Nat} (h : s.emptied gi) :
    ∃ g, (s.afterExit gi).groups[gi]? = some g ∧ g.recs = [] ∧ g.stat = .ended := by
  obtain ⟨g, hg, hr, hs⟩ := h
  have hsweep : ∀ (u : State) ti, (u.sweepBarriers ti).groups = u.groups := by
    intro u ti
    unfold State.sweepBarriers
    split
    · rfl
    · split <;> rfl
  have hcond : (g.recs.isEmpty && g.stat != .ended) = true := by rw [hr, hs]; rfl
  refine ⟨{ g with stat := .ended }, ?_, hr, rfl⟩
  unfold State.afterExit
  simp only [hg, hcond, if_true]
  split <;> simp [hsweep, hg]

/-! Transfers that every position leaves -/

theorem transferAll_leaving {sel : Rec → Bool} {dest : Nat → Dest} {rs : List Rec} (h : ∀ r ∈ rs, sel r = true ∧ ∀ k ∈ r.positions, dest k = none)
    (avail : Nat) : (transferAll sel dest avail rs).1 = [] := by
  induction rs generalizing avail with
  | nil => rfl
  | cons r rs ih =>
    obtain ⟨⟨hsel, hd⟩, hrs⟩ := List.forall_mem_cons.mp h
    have hnone : (transferRec r dest avail).1 = [] := by
      have hds : ∀ d ∈ r.positions.map dest, d = none := fun d hm => by
        obtain ⟨k, hk, rfl⟩ := List.mem_map.mp hm
        exact hd k hk
      unfold transferRec
      dsimp only
      split
      · rfl
      · rename_i d rest heq
        rw [heq] at hds
        obtain ⟨rfl, hrest⟩ := List.forall_mem_cons.mp hds
        rw [if_pos (by simpa using .inr hrest)]
        rfl
    simp only [transferAll, hsel, if_true, hnone, List.nil_append]
    exact ih hrs _

/-- The issue's group is one of the state's. -/
theorem State.iss_gi_lt {s : State} {k : Ctl} {i : Iss} (h : s.iss k = some i) : i.gi < s.groups.length := by
  unfold State.iss at h
  split at h
  · simp only [Option.bind_eq_some_iff, Option.map_eq_some_iff] at h
    obtain ⟨g, hg, _, _, _, _, _, _, _, _, rfl⟩ := h
    exact (List.getElem?_eq_some_iff.mp hg).1
  · cases h

/-- An instruction of no operand passes its checks unless it is only tried. -/
theorem Iss.check_nil {i : Iss} (ht : i.trial = false) : i.check [] = .ok () := by
  simp [Iss.check, Iss.checkWith, Iss.deadAt, Iss.staleLatch, ht]

@[simp] theorem Iss.linkWrites_zr (i : Iss) (rs : List Rec) : i.linkWrites .zr rs = [] := by
  unfold Iss.linkWrites; split <;> rfl

/-- Where a position of the run goes at `exit`. -/
def Iss.exitDest (i : Iss) (p : Nat) : Dest := if i.on.contains p then none else some (nextPc i.pc)

/-- The end of an `exit`, before what follows it. -/
def State.exitRun (s : State) (i : Iss) : State :=
  s.finish i i.g i.g [] 0 0 [⟨1, (i.ranges i.g).length, []⟩, ⟨2, (i.lanes i.g).length, []⟩] (s.moveRun i i.exitDest)

theorem execExit_eq {s : State} {k : Ctl} {i : Iss} (hi : s.iss k = some i) (ht : i.trial = false)
    (hend : s.atEnd i.ci i.ctx i.pc = true → ∀ p ∈ i.allByAge, p ∈ i.on) : exec (.exit k) s = .next ((s.exitRun i).afterExit i.gi) := by
  have hnone : s.endTarget i false (fun _ => none) = .ok () := by
    unfold State.endTarget
    dsimp only
    split
    · rename_i p hf
      have hmem := List.mem_of_find?_eq_some hf
      have hp := List.find?_some hf
      by_cases hat : s.atEnd i.ci i.ctx i.pc = true
      · have := hend hat p hmem
        simp [fallDest, this] at hp
      · simp [hat] at hp
    · rfl
  change execExit k s = _
  unfold execExit State.transferOp
  refine State.issue_ok hi ?_ ht
  simp only [Iss.check_nil ht, if_true, hnone, Iss.linkWrites_zr]
  rfl

theorem State.emptied_exitRun {s : State} {k : Ctl} {i : Iss} (hi : s.iss k = some i) (hstep : i.g0.step = none) (hlive : i.g.stat = .live)
    (hrun : ∀ r ∈ i.g.recs, i.inRun r = true) (hon : ∀ p ∈ i.allByAge, p ∈ i.on) : (s.exitRun i).emptied i.gi := by
  refine State.emptied_finish (State.iss_gi_lt hi) hstep (by simp) fun h hrecs hstat => ⟨?_, hstat.trans hlive⟩
  refine transferAll_leaving (fun r hr => ?_) _
  rw [hrecs] at hr
  obtain ⟨x, hx, rfl⟩ := List.mem_map.mp hr
  rw [if_pos (hrun x hx)]
  refine ⟨hrun x hx, fun p hp => ?_⟩
  have : p ∈ i.on := hon p (mem_allPositions.mpr ⟨x, Iss.mem_run.mpr ⟨hx, hrun x hx⟩, hp⟩)
  simp [Iss.exitDest, this]

end Sys2Proof.Machine

namespace Sys2Proof
open Sys2Proof.Machine

/-- Settles O14: `exit` moves the run, its guarded positions out of the group, and ends a group that has no record left. -/
theorem exitCompletes : Obligations.ExitCompletes := by
  unfold Obligations.ExitCompletes
  intro k s i hi ht hend
  have hexec := execExit_eq hi ht hend
  refine ⟨hexec, fun hstep hlive hrun hon => ?_⟩
  obtain ⟨g, hg⟩ := (State.emptied_exitRun hi hstep hlive hrun hon).afterExit
  exact ⟨_, g, hexec, hg⟩

end Sys2Proof
end

section
/-!
SUPPORT. An s destination with a result that is not uniform (R90, R124): the statement O16.
-/

namespace Sys2Proof.Machine

theorem leastBy_spec {α : Type} (f : α → Nat) {l : List α} (h : l ≠ []) : ∃ a ∈ l, leastBy f l = some a := by
  induction l with
  | nil => exact absurd rfl h
  | cons a l ih =>
    unfold leastBy
    split
    · exact ⟨a, by simp, rfl⟩
    · rename_i b hb
      have hbl : b ∈ l := by
        by_cases hl : l = []
        · subst hl; cases hb
        · obtain ⟨c, hc, hcl⟩ := ih hl
          rw [hb] at hcl
          exact Option.some.inj hcl ▸ hc
      split
      · exact ⟨a, by simp, rfl⟩
      · exact ⟨b, by simp [hbl], rfl⟩

/-- Where a position fails, the trap names positions that fail. -/
theorem failAt_error {cls cause : Nat} {bad : List Nat} (h : bad ≠ []) :
    ∃ p ∈ bad, ∃ q ∈ bad, failAt cls cause bad = .error (.trap cls cause (w32 p) (some q)) := by
  obtain ⟨m, hm, hl⟩ := leastBy_spec id h
  cases bad with
  | nil => exact absurd rfl h
  | cons k bad => exact ⟨m, hm, k, by simp, by simp only [failAt, hl]⟩

/-- An s destination fails at an acting lane record whose result is not uniform. -/
theorem Iss.values_not_uniform {i : Iss} {d : Opnd} {words : Nat} {val : Nat → Nat → Word} {cell : Rec → Cell} {uni : Rec → Bool}
    (hd : isSDst d = true) {r : Rec} (hr : r ∈ i.run) (hl : r.lane = true) (ho : i.onIn r ≠ []) (hu : uni r = false) :
    ∃ p ∈ i.onByAge, ∃ q ∈ i.onByAge, i.values d words val cell uni = .error (.trap 0x02 2 (w32 p) (some q)) := by
  have hfail : i.sFails words val d cell uni r = true := by simp [Iss.sFails, ho, hl, hu]
  have hbad : ((i.run.filter (i.sFails words val d cell uni)).flatMap i.onIn) ≠ [] := fun h =>
    ho (List.flatMap_eq_nil_iff.mp h r (List.mem_filter.mpr ⟨hr, hfail⟩))
  have hsub : ∀ p ∈ (i.run.filter (i.sFails words val d cell uni)).flatMap i.onIn, p ∈ i.onByAge := fun p hp => by
    obtain ⟨x, hx, hp⟩ := List.mem_flatMap.mp hp
    exact Iss.mem_onByAge.mpr ⟨x, (List.mem_filter.mp hx).1, hp⟩
  obtain ⟨p, hp, q, hq, herr⟩ := failAt_error (cls := 0x02) (cause := 2) hbad
  refine ⟨p, hsub p hp, q, hsub q hq, ?_⟩
  unfold Iss.values
  simp only [hd, if_true, herr]

/-- Whether a record's result is uniform at its pass. -/
def uniAt (uni : Iss → Rec → Bool) (t : Times) (r : Rec) : Bool := (((t r.b).recNow r).map (uni (t r.b))).getD (uni (t r.b) r)

/-- The range records of a run that expand before its passes are counted. -/
def ValueForm.expandsFirst (F : ValueForm) (i : Iss) (val : Iss → Nat → BitVec 64) (cell : Iss → Rec → Cell) (r : Rec) : Bool :=
  !r.lane && i.inRun r && i.plan F.d F.words (fun p => word (val (F.times i i.g p) p)) r
    (cellAt (cell (F.times i i.g r.b)) (F.times i i.g r.b) r) == .expand

/-- A value instruction with an s destination traps at an acting lane record whose result is not uniform at its pass. -/
theorem ValueForm.valueOp_not_uniform (F : ValueForm) {s : State} {i : Iss} (val : Iss → Nat → BitVec 64) (cell : Iss → Rec → Cell)
    (uni : Iss → Rec → Bool) (hi : s.iss F.k = some i) (hc : i.check F.ns = .ok ()) (hd : isSDst F.d = true)
    (hu : ∀ t r x, F.uni i t r x = uni (t r.b) x) (hco : F.coll = false) {r : Rec} (hr : r ∈ i.run) (hl : r.lane = true)
    (ho : i.onIn r ≠ [])
    (hx : ∀ sel : Rec → Bool, (∀ x, sel x = true → i.inRun x = true) → ∃ x,
      (F.times i (i.g.expand sel) r.b).recNow r = some x ∧ F.uni i (F.times i (i.g.expand sel)) r x = false) :
    ∃ p ∈ i.onByAge, ∃ q ∈ i.onByAge, s.valueOp F.k F.ns F.d F.words F.lr F.ll val cell uni =
      .next (s.settle i (.trap 0x02 2 (w32 p) (some q))) := by
  have hvalues : ∃ p ∈ i.onByAge, ∃ q ∈ i.onByAge, i.timedValues false (readRegs F.ns) F.d F.words (fun t p => word (val (t p) p))
      (fun t r x => cell (t r.b) x) (fun t r x => uni (t r.b) x) = .error (.trap 0x02 2 (w32 p) (some q)) := by
    unfold Iss.timedValues
    dsimp only
    have hti : ∀ g, i.timed false (readRegs F.ns) g = F.times i g := fun g => by simp [ValueForm.times, hco]
    simp only [hti]
    obtain ⟨x, hnow, hux⟩ := hx (F.expandsFirst i val cell) fun x hsel => by
      simp only [ValueForm.expandsFirst, Bool.and_eq_true] at hsel; exact hsel.1.2
    rw [hu] at hux
    obtain ⟨p, hp, q, hq, herr⟩ := Iss.values_not_uniform (uni := uniAt uni (F.times i (i.g.expand (F.expandsFirst i val cell)))) hd hr hl ho
      (by simp [uniAt, hnow, hux])
    exact ⟨p, hp, q, hq, congrArg (Except.map _) herr⟩
  obtain ⟨p, hp, q, hq, herr⟩ := hvalues
  refine ⟨p, hp, q, hq, State.issue_error hi ?_⟩
  simp only [hc, herr]

/-- The integer instructions of two sources are of one shape. -/
theorem exec_intTwo {x : Instr} {F : ValueForm} (h : intTwo x = some F) : ∃ (ty : Ty) (d : Opnd) (xs : List Src)
    (f : List (BitVec 64) → BitVec 64) (aff : List Form → Option Form) (k : Ctl) (g : (w : Nat) → List (BitVec w) → BitVec w),
    F = intForm k ty d xs g ∧ ∀ s, exec x s = s.intOp k ty d xs f aff := by
  unfold intTwo at h
  split at h
  case h_32 => cases h
  all_goals exact ⟨_, _, _, _, _, _, _, (Option.some.inj h).symm, fun _ => rfl⟩

end Sys2Proof.Machine

namespace Sys2Proof
open Sys2Proof.Machine

/-- Settles O16: an acting lane record whose result is not uniform fails the s destination, and the trap names a guarded position. -/
theorem nonUniformSDestinationTraps : Obligations.NonUniformSDestinationTraps := by
  unfold Obligations.NonUniformSDestinationTraps
  intro x F s i n r hF hd hi hc hr hl ho hx
  obtain ⟨ty, d, xs, f, aff, k, g, rfl, hexec⟩ := exec_intTwo hF
  rw [hexec]
  exact ValueForm.valueOp_not_uniform (intForm k ty d xs g) _ _ _ hi hc (by rw [hd]; rfl) (fun _ _ _ => rfl) rfl hr hl ho hx

end Sys2Proof
end

section
/-!
SUPPORT. A debugger's `trapwr` on a live group of a stopped context (R357, R364, R392): the statement O51, which fails there.
-/

namespace Sys2Proof.Machine

/-- A record of sixteen positions from b. -/
def sixteenFrom (b : Nat) : Rec := ⟨false, b, 1, 16, 0#64, none, false, []⟩

/-- A live group with two such records. -/
def halvesGroup (b0 b1 : Nat) : Group :=
  { Group.start 0 0 0 0 0 32 0#64 [] 1#32 with recs := [sixteenFrom b0, sixteenFrom b1] }

/-- The item of record 1's b (R363). -/
def secondBase : Word := 0x10000101#32

/-- The debugger writes 0 to it. -/
def editSecond : Instr := .debugAct 0#32 0 0 (.trapwr secondBase 0#32)

/-- The device with that group alone, in a context that has stopped, the debugger's request at the head of the ring (R391). -/
def haltedState : State :=
  { State.reset with
    booted := true, reqRing := [(0, 8#8)], reqTail := 1#64, agenda := [.event editSecond],
    contexts := [{ Context.fresh 0 4096 [0] false 0 with stat := .stopped, why := "unhandled trap" }],
    tasks := [probeTask 0 (probeKernel 0#64)], teams := [probeTeam 0 0 0 [0] []], groups := [halvesGroup 0 16] }

/-- Its records are positions 0 to 15 and 16 to 31. -/
theorem recordsSound_halted : haltedState.recordsSound := by
  have hall : haltedState.allGroups = [halvesGroup 0 16] := rfl
  have hsound : (halvesGroup 0 16).sound = true := by decide
  have hshaped : (halvesGroup 0 16).shaped = true := by decide
  unfold State.recordsSound
  rw [hall]
  simp only [List.mem_singleton, forall_eq]
  exact ⟨hshaped, fun _ => hsound⟩

/-- The edit of the group. -/
theorem trapWrite_secondBase : (halvesGroup 0 16).trapWrite secondBase 0#32 = halvesGroup 0 0 := by decide

/-- A stopped context's live group counts as frozen for the debugger, and stays live. -/
theorem step_halted : ∃ t, step haltedState = .next t ∧ t.groups = [(halvesGroup 0 16).trapWrite secondBase 0#32] :=
  ⟨_, rfl, rfl⟩

/-- Both records then hold positions 0 to 15. -/
theorem not_sound_halves : (halvesGroup 0 0).sound = false := by decide

end Sys2Proof.Machine

namespace Sys2Proof
open Sys2Proof.Machine

/-- Refutes O51: `DEBUG_ACT` lets a debugger edit not only a frozen group but also a live group of a stopped context (R357), and
writing 0 to the b of its second record leaves it live with positions 0 to 15 in two records. (The statement would have to leave
out the live groups of stopped contexts: no `tret` checks such an edit, since none of them waits for one, R366.) -/
theorem not_recordsStaySound : ¬ Obligations.RecordsStaySound := by
  unfold Obligations.RecordsStaySound
  intro h
  obtain ⟨t, ht, hg⟩ := step_halted
  rw [trapWrite_secondBase] at hg
  have hmem : halvesGroup 0 0 ∈ t.allGroups := by simp [State.allGroups, hg]
  have hsound : (halvesGroup 0 0).sound = true := (h haltedState t recordsSound_halted ht _ hmem).2 rfl
  exact absurd hsound (by rw [not_sound_halves]; decide)

end Sys2Proof
end

section
/-!
SUPPORT. Values that land in a v register (R113, R416): what becomes of a record and of its lane registers, and what the
group then reads.
-/

namespace Sys2Proof.Machine

/-! Values by position -/

/-- The value that a write brings to a position, where it brings one. -/
def valueAt (vals : List (Nat × Word)) (k : Nat) : Option Word := (vals.find? fun p => p.1 == k).map Prod.snd

theorem valueAt_eq_none {vals : List (Nat × Word)} {k : Nat} : valueAt vals k = none ↔ k ∉ vals.map fun p => p.1 := by
  simp only [valueAt, Option.map_eq_none_iff, List.find?_eq_none, beq_iff_eq, List.mem_map, not_exists, not_and]

/-- A write brings each position the value that it lists for it. -/
theorem valueAt_of_mem {vals : List (Nat × Word)} (hn : (vals.map fun p => p.1).Nodup) {p : Nat × Word} (hp : p ∈ vals) :
    valueAt vals p.1 = some p.2 := by
  induction vals with
  | nil => simp at hp
  | cons q vals ih =>
    obtain ⟨hq, hn⟩ := List.nodup_cons.mp hn
    rcases List.mem_cons.mp hp with rfl | hp
    · simp [valueAt]
    · have hne : (q.1 == p.1) = false := beq_false_of_ne fun h => hq (List.mem_map.mpr ⟨p, hp, h.symm⟩)
      rw [valueAt, List.find?_cons_of_neg (by simp [hne])]
      exact ih hn hp

theorem mem_of_valueAt {vals : List (Nat × Word)} {k : Nat} {v : Word} (h : valueAt vals k = some v) : (k, v) ∈ vals := by
  obtain ⟨p, hp, rfl⟩ := Option.map_eq_some_iff.mp h
  have hk : p.1 = k := by simpa using List.find?_some hp
  exact hk ▸ List.mem_of_find?_eq_some hp

/-- Where a record has as many positions as values reach it, it has a value at each. -/
theorem Rec.valueAt_of_length {r : Rec} {vals : List (Nat × Word)} (hn : (vals.map fun p => p.1).Nodup)
    (hlen : (vals.filter fun p => r.covers p.1).length = r.n) {k : Nat} (hk : k ∈ r.positions) : valueAt vals k ≠ none := by
  set hits := vals.filter fun p => r.covers p.1 with hhits
  have hsub : (hits.map fun p => p.1) ⊆ r.positions := fun a ha => by
    obtain ⟨p, hp, rfl⟩ := List.mem_map.mp ha
    exact Rec.covers_iff.mp (List.mem_filter.mp hp).2
  have hnd : (hits.map fun p => p.1).Nodup := hn.sublist (List.filter_sublist.map _)
  have hperm : (hits.map fun p => p.1).Perm r.positions :=
    (hnd.subperm hsub).perm_of_length_le (by simp [hlen])
  obtain ⟨p, hp, rfl⟩ := List.mem_map.mp (hperm.mem_iff.mpr hk)
  rw [valueAt_of_mem hn (List.mem_filter.mp hp).1]
  exact Option.some_ne_none _

/-! Forms that hold given values -/

/-- What the fit rule finds holds the values (R123). -/
theorem fitForm_holds {vs : List (Nat × Word)} {f : Form} (h : fitForm vs = some f) :
    ∃ c0 c1, f = mkForm c0 c1 ∧ ∀ p ∈ vs, c0 + c1 * w32 p.1 = p.2 := by
  unfold fitForm at h
  split at h
  · exact ⟨0#32, 0#32, by cases h; simp [mkForm], by simp⟩
  · next k v => exact ⟨v, 0#32, by cases h; simp [mkForm], by simp⟩
  · dsimp only at h
    split_ifs at h
    obtain ⟨c1, hc, rfl⟩ := Option.map_eq_some_iff.mp h
    refine ⟨_, c1, rfl, fun p hp => ?_⟩
    have hfits := List.find?_some hc
    exact eq_of_beq (List.all_eq_true.mp hfits p hp)

/-- A U or A form is what its coefficients give (R86). -/
theorem Form.norm_holds {f : Form} (h : f.cls = .u ∨ f.cls = .a) :
    ∃ c0 c1, f.norm = mkForm c0 c1 ∧ ∀ k, f.norm.at k = c0 + c1 * w32 k := by
  rcases h with h | h
  · exact ⟨f.c0, 0#32, by simp [Form.norm, h, mkForm], fun k => by simp [Form.norm, h, Form.at]⟩
  · refine ⟨f.c0, f.c1, by simp [Form.norm, h, mkForm], fun k => ?_⟩
    by_cases h1 : f.c1 = 0#32 <;> simp [Form.norm, h, Form.at, h1]

theorem Rec.Shaped.form_setForm {r : Rec} (h : r.Shaped) (n m : Nat) (f : Form) :
    (r.setForm n f).form m = if m = n then f else r.form m := spGet_spSet h.wf n m f

@[simp] theorem Rec.positions_setForm (r : Rec) (n : Nat) (f : Form) : (r.setForm n f).positions = r.positions := rfl

theorem Group.valueIn_lane {g : Group} {r : Rec} {n k : Nat} (h : (r.form n).cls = .l) : g.valueIn r n k = g.lane k n := by
  simp [Group.valueIn, h]

/-! What becomes of a record -/

/-- Records and lane writes that stand for a record once values of a register have landed at its positions: they keep the
positions, write lane registers of those alone, and read as the values where there are any, elsewhere as before. -/
structure Group.Landed (g : Group) (reg : Nat) (vals : List (Nat × Word)) (r : Rec) (out : List Rec × List (Nat × Word)) : Prop where
  replaced : r.ReplacedBy out.1
  kept : ∀ k ∈ r.positions, k ∈ allPositions out.1
  writes : ∀ w ∈ out.2, ∃ k ∈ r.positions, ∃ n < 64, w.1 = 64 * k + n
  reads : ∀ h : Group, (∀ k ∈ r.positions, ∀ n < 64, h.lane k n = spGet 0#32 (spSetAll 0#32 g.lanes out.2) (64 * k + n)) →
    ∀ x ∈ out.1, ∀ k ∈ x.positions, ∀ n < 64,
      h.valueIn x n k = if n = reg then (valueAt vals k).getD (g.valueIn r n k) else g.valueIn r n k

section
variable {g : Group} {reg : Nat} {vals : List (Nat × Word)} {r : Rec} (hs : r.Shaped) (hreg : reg < 64)

/-- A record that no value reaches stands as it was. -/
theorem Group.landed_unreached (h : ∀ k ∈ r.positions, valueAt vals k = none) : g.Landed reg vals r ([r], []) where
  replaced := r.replacedBy_self
  kept k hk := by simpa using hk
  writes w hw := by simp at hw
  reads h' hlane x hx k hk n hn := by
    obtain rfl := List.mem_singleton.mp hx
    rw [Group.valueIn_congr (.inl (hlane k hk n hn)) rfl]
    simp [h k hk]

include hs hreg in
/-- A record that takes a form, which holds the values at the positions that they reach and stood already elsewhere. -/
theorem Group.landed_form {c0 c1 : Word}
    (h : ∀ k ∈ r.positions, valueAt vals k = some (c0 + c1 * w32 k) ∨ valueAt vals k = none ∧ r.form reg = mkForm c0 c1) :
    g.Landed reg vals r ([r.setForm reg (mkForm c0 c1)], []) where
  replaced := r.replacedBy_setForm hreg mkForm_u
  kept k hk := by simpa using hk
  writes w hw := by simp at hw
  reads h' hlane x hx k hk n hn := by
    obtain rfl := List.mem_singleton.mp hx
    by_cases hnr : n = reg
    · subst hnr
      rw [valueIn_mkForm (c0 := c0) (c1 := c1) (by rw [hs.form_setForm, if_pos rfl]), if_pos rfl]
      rcases h k hk with hv | ⟨hv, hf⟩
      · simp [hv]
      · simp [hv, valueIn_mkForm hf]
    · rw [if_neg hnr]
      exact Group.valueIn_congr (.inl (hlane k hk n hn)) (by rw [hs.form_setForm, if_neg hnr])

include hs hreg in
/-- A lane record takes its value in the lane register. -/
theorem Group.landed_lane (hl : sparseWf 0#32 0 g.lanes = true) (hlane : r.lane = true) {k : Nat} {v : Word} (hk : k ∈ r.positions)
    (hv : valueAt vals k = some v) :
    g.Landed reg vals r ([r.setForm reg ⟨.l, 0#32, 0#32⟩], [(64 * k + reg, v)]) where
  replaced := r.replacedBy_setForm hreg (fun h => by cases h)
  kept k hk := by simpa using hk
  writes w hw := ⟨k, hk, reg, hreg, by rw [List.mem_singleton.mp hw]⟩
  reads h' hread x hx k' hk' n hn := by
    obtain rfl := List.mem_singleton.mp hx
    have hkk : k' = k := by
      rw [Rec.positions_setForm, hs.positions_lane hlane] at hk'
      rw [hs.positions_lane hlane] at hk
      rw [List.mem_singleton.mp hk', List.mem_singleton.mp hk]
    subst hkk
    have hat : h'.lane k' n = if n = reg then v else g.lane k' n := by
      rw [hread k' hk n hn]
      simp only [spSetAll, List.foldl_cons, List.foldl_nil, spGet_spSet hl, Nat.add_left_cancel_iff]
      rfl
    by_cases hnr : n = reg
    · subst hnr
      rw [Group.valueIn_lane (by rw [hs.form_setForm, if_pos rfl]), hat, if_pos rfl, if_pos rfl, hv]
      rfl
    · rw [if_neg hnr] at hat ⊢
      exact Group.valueIn_congr (.inl hat) (by rw [hs.form_setForm, if_neg hnr])


/-- The values that reach a record, as writes of lane registers. -/
def Rec.hitWrites (r : Rec) (reg : Nat) (vals : List (Nat × Word)) : List (Nat × Word) :=
  (vals.filter fun p => r.covers p.1).map fun p => (64 * p.1 + reg, p.2)

/-- The lane record of a position of a record, where values of a register land in lane registers. -/
def Rec.landedLane (r : Rec) (reg : Nat) (vals : List (Nat × Word)) (k : Nat) : Rec :=
  if (vals.filter fun p => r.covers p.1).any fun p => p.1 == k then (r.laneOf k).setForm reg ⟨.l, 0#32, 0#32⟩ else r.laneOf k

theorem Rec.landedLane_eq {k : Nat} (hk : k ∈ r.positions) : r.landedLane reg vals k =
    if valueAt vals k = none then r.laneOf k else (r.laneOf k).setForm reg ⟨.l, 0#32, 0#32⟩ := by
  have hiff : ((vals.filter fun p => r.covers p.1).any fun p => p.1 == k) = true ↔ ¬ valueAt vals k = none := by
    rw [valueAt_eq_none, not_not]
    simp only [List.any_eq_true, List.mem_filter, List.mem_map, beq_iff_eq]
    exact ⟨fun ⟨p, ⟨hp, _⟩, he⟩ => ⟨p, hp, he⟩, fun ⟨p, hp, he⟩ => ⟨p, ⟨hp, Rec.covers_iff.mpr (he ▸ hk)⟩, he⟩⟩
  unfold Rec.landedLane
  by_cases h : valueAt vals k = none
  · rw [if_pos h, if_neg fun hc => hiff.mp hc h]
  · rw [if_neg h, if_pos (hiff.mpr h)]

include hreg in
theorem Rec.landedLane_spec {k : Nat} (hk : k ∈ r.positions) : (r.laneOf k).ReplacedBy [r.landedLane reg vals k] := by
  rw [Rec.landedLane_eq hk]
  split
  · exact Rec.replacedBy_self _
  · exact Rec.replacedBy_setForm _ hreg (fun h => by cases h)

theorem Rec.positions_landedLane {k : Nat} (hk : k ∈ r.positions) : (r.landedLane reg vals k).positions = [k] := by
  rw [Rec.landedLane_eq hk]
  split <;> simp

include hreg in
/-- The lane registers once the values that reach a record are written there. -/
theorem spGet_hitWrites {m : Sparse Word} (hm : sparseWf 0#32 0 m = true) (hn : (vals.map fun p => p.1).Nodup) {k n : Nat}
    (hk : k ∈ r.positions) (hn64 : n < 64) : spGet 0#32 (spSetAll 0#32 m (r.hitWrites reg vals)) (64 * k + n) =
      if n = reg then (valueAt vals k).getD (spGet 0#32 m (64 * k + n)) else spGet 0#32 m (64 * k + n) := by
  have hpair : (r.hitWrites reg vals).Pairwise fun v w => v.1 ≠ w.1 :=
    List.pairwise_map.mpr ((List.pairwise_map.mp (hn.sublist (List.filter_sublist.map _))).imp fun {a b} hab => by omega)
  by_cases hv : n = reg ∧ valueAt vals k ≠ none
  · obtain ⟨rfl, hv⟩ := hv
    obtain ⟨v, hv⟩ := Option.ne_none_iff_exists'.mp hv
    rw [if_pos rfl, hv, Option.getD_some]
    exact spGet_spSetAll_of_mem (w := (64 * k + n, v)) hm hpair
      (List.mem_map.mpr ⟨(k, v), List.mem_filter.mpr ⟨mem_of_valueAt hv, Rec.covers_iff.mpr hk⟩, rfl⟩)
  · have hkeep : spGet 0#32 (spSetAll 0#32 m (r.hitWrites reg vals)) (64 * k + n) = spGet 0#32 m (64 * k + n) := by
      refine spGet_spSetAll_of_ne hm fun w hw heq => hv ?_
      obtain ⟨p, hp, rfl⟩ := List.mem_map.mp hw
      obtain ⟨rfl, rfl⟩ := laneKey_inj hn64 hreg heq
      exact ⟨rfl, fun h => valueAt_eq_none.mp h (List.mem_map_of_mem (List.mem_filter.mp hp).1)⟩
    rw [hkeep]
    by_cases hnr : n = reg
    · rw [if_pos hnr, not_not.mp fun h => hv ⟨hnr, h⟩, Option.getD_none]
    · rw [if_neg hnr]

end

theorem spSetAll_append {α : Type} [DecidableEq α] (d : α) (m : Sparse α) (ws ws' : List (Nat × α)) :
    spSetAll d m (ws ++ ws') = spSetAll d (spSetAll d m ws) ws' := List.foldl_append

section
variable {g : Group} {reg : Nat} {vals : List (Nat × Word)} {r : Rec} (hs : SoundRecs g.recs) (hl : sparseWf 0#32 0 g.lanes = true)
  (hr : r ∈ g.recs) (hreg : reg < 64) (hn : (vals.map fun p => p.1).Nodup)
include hs hl hr hreg hn

/-- A range record that expands takes its values in lane registers. -/
theorem Group.landed_lanes :
    g.Landed reg vals r (r.positions.map (r.landedLane reg vals), r.laneWrites ++ r.hitWrites reg vals) where
  replaced := by
    refine Rec.replacedBy_singles (List.Sublist.refl _) (fun k hk => Rec.positions_landedLane hk) (fun h k hk => ?_) fun h k hk => ?_
    · exact (Rec.landedLane_spec hreg hk).shaped (h.laneOf k) _ (List.mem_singleton_self _)
    · exact (Rec.landedLane_spec hreg hk).uniform (h.laneOf k) _ (List.mem_singleton_self _)
  kept k hk := mem_allPositions.mpr ⟨_, List.mem_map_of_mem hk, by simp [Rec.positions_landedLane hk]⟩
  writes w hw := by
    rcases List.mem_append.mp hw with hw | hw
    · obtain ⟨k, hk, e, he, -, rfl⟩ := Rec.mem_laneWrites.mp hw
      exact ⟨k, hk, e.1, (hs.shaped r hr).below e he, rfl⟩
    · obtain ⟨p, hp, rfl⟩ := List.mem_map.mp hw
      exact ⟨p.1, Rec.covers_iff.mp (List.mem_filter.mp hp).2, reg, hreg, rfl⟩
  reads h hread x hx k hk n hn64 := by
    obtain ⟨k', hk', rfl⟩ := List.mem_map.mp hx
    obtain rfl : k = k' := by simpa [Rec.positions_landedLane hk'] using hk
    set mid : Group := { g with lanes := spSetAll 0#32 g.lanes r.laneWrites } with hmid
    have hbase : mid.valueIn (r.laneOf k) n k = g.valueIn r n k :=
      valueIn_expanded hs hl (xs := [r]) (List.singleton_sublist.mpr hr) (by simp [hmid]) hr hk' (.inr ⟨by simp, rfl⟩) n
    have hlane : h.lane k n = if n = reg then (valueAt vals k).getD (mid.lane k n) else mid.lane k n := by
      rw [hread k hk' n hn64, spSetAll_append]
      exact spGet_hitWrites hreg (spSetAll_wf _ hl) hn hk' hn64
    have hshaped := (hs.shaped r hr).laneOf k
    rw [Rec.landedLane_eq hk', ← hbase]
    by_cases hnr : n = reg
    · subst hnr
      rw [if_pos rfl] at hlane ⊢
      cases hv : valueAt vals k with
      | none =>
        rw [hv] at hlane
        rw [if_pos rfl]
        exact Group.valueIn_congr (.inl hlane) rfl
      | some v =>
        rw [hv] at hlane
        rw [if_neg (by simp), Group.valueIn_lane (by rw [hshaped.form_setForm, if_pos rfl])]
        exact hlane
    · rw [if_neg hnr] at hlane ⊢
      refine Group.valueIn_congr (.inl hlane) ?_
      split
      · rfl
      · rw [hshaped.form_setForm, if_neg hnr]

/-- What becomes of a record where values of a form, or of any kind, land (R121, R123, R416). -/
theorem Group.landed_landRec {form : Option Form}
    (hform : ∀ f, form = some f → (f.cls = .u ∨ f.cls = .a) ∧ ∀ p ∈ vals, f.norm.at p.1 = p.2) :
    g.Landed reg vals r (landRec reg vals form r) := by
  have hsr := hs.shaped r hr
  unfold landRec
  dsimp only
  split
  · next hnone =>
    refine Group.landed_unreached fun k hk => valueAt_eq_none.mpr fun hmem => ?_
    obtain ⟨p, hp, rfl⟩ := List.mem_map.mp hmem
    exact List.filter_eq_nil_iff.mp hnone p hp (Rec.covers_iff.mpr hk)
  · next k v rest hhits =>
    obtain ⟨hkv, hk⟩ := List.mem_filter.mp (hhits ▸ List.mem_cons_self : (k, v) ∈ vals.filter fun p => r.covers p.1)
    have hk := Rec.covers_iff.mp hk
    have hv : valueAt vals k = some v := valueAt_of_mem hn hkv
    split
    · next hlane =>
      split
      · have := Group.landed_form (g := g) (vals := vals) hsr hreg (c0 := v) (c1 := 0#32) fun k' hk' => .inl (by
          rw [hsr.positions_lane hlane] at hk hk'
          rw [List.mem_singleton.mp hk', ← List.mem_singleton.mp hk, hv]
          simp)
        simpa [mkForm] using this
      · exact Group.landed_lane hsr hreg hl hlane hk hv
    · split
      · next f hf =>
        split_ifs at hf with hcond
        cases form with
        | none =>
          obtain ⟨c0, c1, rfl, hfit⟩ := fitForm_holds hf
          have hlen : (vals.filter fun p => r.covers p.1).length = r.n := by simpa using hcond
          refine Group.landed_form hsr hreg fun k' hk' => .inl ?_
          obtain ⟨v', hv'⟩ := Option.ne_none_iff_exists'.mp (Rec.valueAt_of_length hn hlen hk')
          have hmem : (k', v') ∈ vals.filter fun p => r.covers p.1 := List.mem_filter.mpr ⟨mem_of_valueAt hv', Rec.covers_iff.mpr hk'⟩
          obtain ⟨p, hp, rfl⟩ := Option.map_eq_some_iff.mp (valueAt_of_mem (hn.sublist (List.filter_sublist.map _)) hmem)
          have hpk : p.1 = k' := by simpa using List.find?_some hp
          rw [hv', ← hfit p (List.mem_filterMap.mpr ⟨k', hk', hp⟩), hpk]
        | some f0 =>
          obtain rfl := Option.some.inj hf
          obtain ⟨hcls, hvals⟩ := hform f0 rfl
          obtain ⟨c0, c1, hnorm, hat⟩ := Form.norm_holds hcls
          rw [hnorm]
          refine Group.landed_form hsr hreg fun k' hk' => ?_
          cases hv' : valueAt vals k' with
          | some v' =>
            refine .inl ?_
            rw [← hat, hvals _ (mem_of_valueAt hv')]
          | none =>
            refine .inr ⟨rfl, ?_⟩
            simp only [Option.map_some, Option.getD_some, Bool.or_eq_true, decide_eq_true_eq, beq_iff_eq] at hcond
            rcases hcond with hlen | hstands
            · exact absurd hv' (Rec.valueAt_of_length hn hlen hk')
            · rw [hstands, hnorm]
      · exact Group.landed_lanes hs hl hr hreg hn

end

/-! The records of the group -/

/-- What several writes leave under a key depends on what stood there before, not on the rest of the list. -/
theorem spGet_spSetAll_congr {α : Type} [DecidableEq α] {d : α} {m m' : Sparse α} (ws : List (Nat × α)) {k : Nat}
    (hm : sparseWf d 0 m = true) (hm' : sparseWf d 0 m' = true) (h : spGet d m k = spGet d m' k) :
    spGet d (spSetAll d m ws) k = spGet d (spSetAll d m' ws) k := by
  induction ws generalizing m m' with
  | nil => exact h
  | cons w ws ih =>
    refine ih (spSet_wf _ _ (Nat.zero_le _) hm) (spSet_wf _ _ (Nat.zero_le _) hm') ?_
    rw [spGet_spSet hm, spGet_spSet hm', h]

/-- Where each record of a group writes lane registers of its own positions, those of a record's position are as that record
writes them. -/
theorem spGet_spSetAll_flatMap {recs : List Rec} (hnd : (allPositions recs).Nodup) {m : Sparse Word} (hm : sparseWf 0#32 0 m = true)
    {W : Rec → List (Nat × Word)} (hW : ∀ x ∈ recs, ∀ w ∈ W x, ∃ k ∈ x.positions, ∃ n < 64, w.1 = 64 * k + n)
    {r : Rec} (hr : r ∈ recs) {k n : Nat} (hk : k ∈ r.positions) (hn : n < 64) :
    spGet 0#32 (spSetAll 0#32 m (recs.flatMap W)) (64 * k + n) = spGet 0#32 (spSetAll 0#32 m (W r)) (64 * k + n) := by
  obtain ⟨pre, post, rfl⟩ := List.append_of_mem hr
  have hother : ∀ rs ⊆ pre ++ r :: post, k ∉ allPositions rs → ∀ w ∈ rs.flatMap W, 64 * k + n ≠ w.1 := fun rs hsub hnot w hw heq => by
    obtain ⟨x, hx, hw⟩ := List.mem_flatMap.mp hw
    obtain ⟨k', hk', n', hn', hw⟩ := hW x (hsub hx) w hw
    obtain ⟨rfl, -⟩ := laneKey_inj hn hn' (heq.trans hw)
    exact hnot (mem_allPositions.mpr ⟨x, hx, hk'⟩)
  rw [allPositions_append, allPositions_cons] at hnd
  obtain ⟨-, hnd, hpre⟩ := List.nodup_append'.mp hnd
  obtain ⟨-, -, hpost⟩ := List.nodup_append'.mp hnd
  have hne_pre := hother pre (by simp) fun hc => hpre hc (List.mem_append_left _ hk)
  have hne_post := hother post (fun a ha => by simp [ha]) (hpost hk)
  rw [List.flatMap_append, List.flatMap_cons, spSetAll_append, spSetAll_append]
  calc spGet 0#32 (spSetAll 0#32 (spSetAll 0#32 (spSetAll 0#32 m (pre.flatMap W)) (W r)) (post.flatMap W)) (64 * k + n)
      = spGet 0#32 (spSetAll 0#32 (spSetAll 0#32 m (pre.flatMap W)) (W r)) (64 * k + n) :=
        spGet_spSetAll_of_ne (spSetAll_wf _ (spSetAll_wf _ hm)) hne_post
    _ = spGet 0#32 (spSetAll 0#32 m (W r)) (64 * k + n) :=
        spGet_spSetAll_congr _ (spSetAll_wf _ hm) hm (spGet_spSetAll_of_ne hm hne_pre)

theorem Group.landV_recs (g : Group) {reg : Nat} (hreg : reg < 64) (vals : List (Nat × Word)) (form : Option Form) :
    (g.landV reg vals form).recs = g.recs.flatMap fun r => (landRec reg vals form r).1 := by
  rw [Group.landV, if_neg (by omega)]
  exact List.flatMap_map ..

theorem Group.landV_lanes (g : Group) {reg : Nat} (hreg : reg < 64) (vals : List (Nat × Word)) (form : Option Form) :
    (g.landV reg vals form).lanes = spSetAll 0#32 g.lanes (g.recs.flatMap fun r => (landRec reg vals form r).2) := by
  rw [Group.landV, if_neg (by omega)]
  exact congrArg _ (List.flatMap_map ..)

/-- Values that land in a v register are read at their positions, and everything else reads as before (R416). -/
theorem Group.vAt_landV {g : Group} {reg : Nat} {vals : List (Nat × Word)} {form : Option Form} (h : g.sound = true) (hreg : reg < 64)
    (hn : (vals.map fun p => p.1).Nodup) (hcov : ∀ p ∈ vals, ∃ r ∈ g.recs, p.1 ∈ r.positions)
    (hform : ∀ f, form = some f → (f.cls = .u ∨ f.cls = .a) ∧ ∀ p ∈ vals, f.norm.at p.1 = p.2) {n : Nat} (hn64 : n < 64) (k : Nat) :
    (g.landV reg vals form).vAt n k = if n = reg then (valueAt vals k).getD (g.vAt n k) else g.vAt n k := by
  obtain ⟨hl, -, hs⟩ := Group.sound_iff.mp h
  have hland : ∀ r ∈ g.recs, g.Landed reg vals r (landRec reg vals form r) := fun r hr => Group.landed_landRec hs hl hr hreg hn hform
  have hrep : Replaced g.recs (g.landV reg vals form).recs := by
    rw [Group.landV_recs g hreg]
    exact replaced_flatMap fun r hr => (hland r hr).replaced
  by_cases hk : k ∈ allPositions g.recs
  · obtain ⟨r, hr, hkr⟩ := mem_allPositions.mp hk
    obtain ⟨x, hx, hkx⟩ := mem_allPositions.mp ((hland r hr).kept k hkr)
    have hxmem : x ∈ (g.landV reg vals form).recs := by
      rw [Group.landV_recs g hreg]
      exact List.mem_flatMap.mpr ⟨r, hr, hx⟩
    rw [Group.vAt_of_mem (hrep.nodup hs.nodup) hxmem hkx, Group.vAt_of_mem hs.nodup hr hkr]
    refine (hland r hr).reads _ (fun k' hk' n' hn' => ?_) x hx k hkx n hn64
    rw [Group.lane, Group.landV_lanes g hreg]
    exact spGet_spSetAll_flatMap hs.nodup hl (fun y hy => (hland y hy).writes) hr hk' hn'
  · have hnone : valueAt vals k = none := valueAt_eq_none.mpr fun hmem => by
      obtain ⟨p, hp, rfl⟩ := List.mem_map.mp hmem
      exact hk (mem_allPositions.mpr (hcov p hp))
    have h0 : ∀ h : Group, k ∉ allPositions h.recs → h.vAt n k = 0#32 := fun h hc => by
      simp [Group.vAt, Group.recAt_eq_none.mpr hc]
    rw [h0 _ fun hc => hk (hrep.sub k hc), h0 g hk, hnone]
    simp

/-! Predicates, and the result that lands next -/

/-- p7 reads true whatever is written to it, and a write of another predicate leaves the others (R41). -/
theorem Group.pmask_setP {g : Group} {n : Nat} (hp : sparseWf 0#64 0 g.p = true) (hn : n < 8) (mask bits : BitVec 64) (m : Nat) :
    (g.setP n mask bits).pmask m = if m = n ∧ n ≠ 7 then (g.pmask n &&& ~~~mask) ||| (bits &&& mask) else g.pmask m := by
  by_cases h7 : n = 7
  · simp [Group.setP, h7]
  · have hset : g.setP n mask bits = { g with p := spSet 0#64 g.p n ((g.pmask n &&& ~~~mask) ||| (bits &&& mask)) } := by
      rw [Group.setP, if_neg (by simp only [noPred]; omega)]
    rw [hset]
    by_cases hm : m = n
    · subst hm
      rw [if_pos ⟨rfl, h7⟩]
      simp only [Group.pmask, if_neg h7, show ¬ m = noPred by simp only [noPred]; omega, if_false]
      rw [spGet_spSet hp, if_pos rfl]
    · rw [if_neg fun h => hm h.1]
      simp only [Group.pmask, spGet_spSet hp, if_neg hm]

/-- The least element is one of the list, and none is less. -/
theorem leastBy_some {α : Type} {f : α → Nat} {l : List α} {a : α} (h : leastBy f l = some a) : a ∈ l ∧ ∀ x ∈ l, f a ≤ f x := by
  induction l generalizing a with
  | nil => cases h
  | cons b l ih =>
    unfold leastBy at h
    split at h
    · next hnone =>
      obtain rfl := Option.some.inj h
      have hl : l = [] := by
        by_contra hne
        obtain ⟨c, -, hc⟩ := leastBy_spec f hne
        rw [hc] at hnone
        cases hnone
      simp [hl]
    · next c hc =>
      obtain ⟨hmem, hle⟩ := ih hc
      split at h <;> obtain rfl := Option.some.inj h
      · next hbc => exact ⟨by simp, by simpa using fun x hx => hbc.trans (hle x hx)⟩
      · next hbc => exact ⟨by simp [hmem], by simpa using ⟨by omega, hle⟩⟩

/-- The result that lands next is due, may land, and is the oldest of those that may (R112, R113). -/
theorem Group.nextLanding_some {g : Group} {now : Nat} {e : Inflight} (h : g.nextLanding now = some e) :
    e ∈ g.wb ∧ e.due ≤ now ∧ ∀ x ∈ g.wb, g.canLand now x = true → e.due ≤ x.due := by
  obtain ⟨hmem, hle⟩ := leastBy_some h
  obtain ⟨hwb, hcan⟩ := List.mem_filter.mp hmem
  refine ⟨hwb, ?_, fun x hx hc => hle x (List.mem_filter.mpr ⟨hx, hc⟩)⟩
  simp only [Group.canLand, Bool.and_eq_true, decide_eq_true_eq] at hcan
  exact hcan.1

/-- `RESULT_WRITEBACK` writes the results of the entry and counts its issues down (R112). -/
theorem exec_resultWriteback {s : State} {gi : Nat} {g : Group} {e : Inflight} (hg : s.groups[gi]? = some g)
    (he : g.nextLanding (s.groupCk g) = some e) : exec (.resultWriteback gi) s =
      .next ((State.landAll (s.modGroup gi fun g => { g with wb := g.wb.erase e }) gi e.ord e.ws).modGroup gi
        fun g => g.sigDown e.sig e.cnt) := by
  change execResultWriteback gi s = _
  simp only [execResultWriteback, hg, he]

end Sys2Proof.Machine

namespace Sys2Proof
open Sys2Proof.Machine

/-- Settles O53: the entry of least due ck is the one that lands; a record that values reach takes their form or their lane registers, and
the group reads them there and nothing else changed. -/
theorem resultsLandAtTheirLatency : Obligations.ResultsLandAtTheirLatency := by
  unfold Obligations.ResultsLandAtTheirLatency
  refine ⟨fun s gi g e hg he => ?_, fun g reg vals form h hreg hn hcov hform => ?_, fun g n v hs => ?_, fun g n mask bits k hn hk hp => ?_⟩
  · obtain ⟨hmem, hdue, hleast⟩ := Group.nextLanding_some he
    exact ⟨hmem, hdue, hleast, exec_resultWriteback hg he⟩
  · constructor
    · intro p hp
      rw [Group.vAt_landV h hreg hn hcov hform hreg, if_pos rfl, valueAt_of_mem hn hp, Option.getD_some]
    · intro n k hn64 _ hother
      rw [Group.vAt_landV h hreg hn hcov hform hn64]
      split
      · next hnr => rw [valueAt_eq_none.mpr (hother.resolve_left fun hc => hc hnr), Option.getD_none]
      · rfl
  · have hread : ∀ m, spGet 0#32 (g.setS n v).s m = if m = n then v else spGet 0#32 g.s m := fun m => spGet_spSet hs n m v
    exact ⟨by rw [hread, if_pos rfl], fun m hm => by rw [hread, if_neg hm]⟩
  · refine ⟨fun m => ⟨by simp [Group.pmask], fun hm => ?_⟩, fun h7 => ?_⟩
    · rw [Group.pmask_setP hp hn, if_neg fun hc => hm hc.1]
    · rw [Group.pmask_setP hp hn, if_pos ⟨rfl, h7⟩]
      simp only [BitVec.getLsbD_or, BitVec.getLsbD_and, BitVec.getLsbD_not]
      cases mask.getLsbD k <;> simp [hk]

end Sys2Proof
end

section
/-!
SUPPORT. Fetches, TLBs and the table entries that the resident kernel writes (R108 to R111, R211, R212): what each event
does, by the ways in which it can end.
-/

namespace Sys2Proof.Machine

/-! Demand fetches (R108, R109, R213) -/

/-- A line that can be fetched needs no service of the Skimmer. -/
theorem State.fetchWalk_of_codeWalk {s : State} {c : Context} {line : Nat} {w : Nat × Nat × Nat} (h : s.codeWalk c line = some w) :
    s.fetchWalk c line = (s, some w) := by
  have hleaf : ∀ a, s.walk c.root line ≠ .anon a := fun a ha => by simp [State.codeWalk, ha] at h
  unfold State.fetchWalk
  split
  · next a ha => exact absurd ha (hleaf a)
  · rw [h]

/-- An anonymous page is served before its line is translated. -/
theorem State.fetchWalk_anon {s s1 : State} {c : Context} {line a : Nat} (hw : s.walk c.root line = .anon a) (hs : s.skim a = some s1) :
    s.fetchWalk c line = (s1, s1.codeWalk c line) := by
  simp only [State.fetchWalk, hw, hs]

section
variable {s : State} {gi : Nat} {g : Group} {c : Context} {pc : Addr} {sel : List Nat} (hg : s.groups[gi]? = some g)
  (hc : s.contexts[g.ctx]? = some c) (hl : g.stat = .live) (hp : g.pick = some (pc, sel))
include hg hc hl hp

theorem exec_demandFetch_bound (hb : c.lineBound pc = false) : exec (.demandFetch gi) s =
    .next (s.takeTrap gi ⟨0x04, causeBound, w32 ((g.readyAt pc).headD 0xFF), g.recordAt pc, false⟩ pc) := by
  change execDemandFetch gi s = _
  simp [execDemandFetch, hg, hc, hl, Group.nextLine, hp, hb]

theorem exec_demandFetch_walk (hb : c.lineBound pc = true) {s1 : State} {a e pa : Nat}
    (hw : s.fetchWalk c (lineOf pc) = (s1, some (a, e, pa))) :
    exec (.demandFetch gi) s = .next ((s1.touch a e .exec).fillTlb g.core g.ctx (lineOf pc)) := by
  change execDemandFetch gi s = _
  simp [execDemandFetch, hg, hc, hl, Group.nextLine, hp, hb, hw]

theorem exec_demandFetch_trap (hb : c.lineBound pc = true) {s1 : State} (hw : s.fetchWalk c (lineOf pc) = (s1, none)) :
    exec (.demandFetch gi) s = .next (s1.takeTrap gi ⟨0x0F, 0, 0#32, g.recordAt pc, false⟩ pc) := by
  change execDemandFetch gi s = _
  simp [execDemandFetch, hg, hc, hl, Group.nextLine, hp, hb, hw]

/-- A fetched line enters the trace cache, and a copy that failed its check is counted (R44, R111). -/
theorem exec_traceCacheFill (lane : Bool) (hb : c.lineBound pc = true) {a e pa : Nat}
    (hw : s.codeWalk c (lineOf pc) = some (a, e, pa)) (hf : lineFetched e = true) {s1 : State}
    (hs : s1 = (s.fillTlb g.core g.ctx (lineOf pc)).modCore g.core fun k => k.fillLine g.ctx pa lane) :
    exec (.traceCacheFill gi lane) s =
      .next (if ((s.core g.core).copyOf g.ctx pa lane).map TraceEnt.upset = some true then
        s1.modCtx g.ctx fun c => { c with fetchDrop := c.fetchDrop + 1#64 } else s1) := by
  have hfail : ∀ o : Option Bool, o.getD false = true ↔ o = some true := fun o => by cases o <;> simp
  change execTraceCacheFill gi lane s = _
  simp only [execTraceCacheFill, hg, hc, Group.nextLine, hp, Option.map_some, hw, hl, hb, hf, decide_true, Bool.and_self, if_true, hfail,
    ← hs]

end

/-! Speculative fetches (R108, R110) -/

section
variable {s : State} {gi : Nat} {g : Group} {c : Context} {pc line : Addr} (hg : s.groups[gi]? = some g)
  (hc : s.contexts[g.ctx]? = some c) (hl : g.stat = .live) (hp : g.headPc = some pc)
include hg hc hl hp

theorem exec_speculativeFetch_line (hm : lineOf line ∈ s.prefetchLines g c pc) {pa : Nat} (hs : s.specLine g c pc (lineOf line) = some pa) :
    exec (.speculativeFetch gi line) s =
      .next (s.modCore g.core fun k => (dedup (g.recs.map Rec.lane)).foldl (fun k lane => k.fillLine g.ctx pa lane) k) := by
  change execSpeculativeFetch gi line s = _
  simp [execSpeculativeFetch, hg, hc, hl, hp, hm, hs]

theorem exec_speculativeFetch_drop (hm : lineOf line ∈ s.prefetchLines g c pc) (hs : s.specLine g c pc (lineOf line) = none) :
    exec (.speculativeFetch gi line) s = .next (s.modCtx g.ctx fun c => { c with fetchDrop := c.fetchDrop + 1#64 }) := by
  change execSpeculativeFetch gi line s = _
  simp [execSpeculativeFetch, hg, hc, hl, hp, hm, hs]

omit hl in
theorem exec_speculativeFetch_elsewhere (hm : lineOf line ∉ s.prefetchLines g c pc) :
    exec (.speculativeFetch gi line) s = .next s := by
  change execSpeculativeFetch gi line s = _
  simp [execSpeculativeFetch, hg, hc, hp, hm]

end

theorem State.specLine_eq_none {s : State} {g : Group} {c : Context} {pc : Addr} {line : Nat}
    (h : s.tlbHolds g.core g.ctx line = false ∨ c.lineBound (BitVec.ofNat 64 (pc.toNat / 2 ^ 56 * 2 ^ 56 + line)) = false ∨
      s.codeWalk c line = none) : s.specLine g c pc line = none := by
  unfold State.specLine
  rcases h with h | h | h <;> rw [h]
  · rfl
  · rw [Bool.and_false]
    rfl
  · exact ite_self none

theorem State.specLine_eq_some {s : State} {g : Group} {c : Context} {pc : Addr} {line pa : Nat}
    (ht : s.tlbHolds g.core g.ctx line = true) (hb : c.lineBound (BitVec.ofNat 64 (pc.toNat / 2 ^ 56 * 2 ^ 56 + line)) = true)
    (hw : (s.codeWalk c line).map (fun w => w.2.2) = some pa) : s.specLine g c pc line = some pa := by
  unfold State.specLine
  rw [ht, hb]
  exact hw

/-! The trace cache (R111) -/

theorem TraceEnt.isCopy_iff {e : TraceEnt} {ctx line : Nat} {lane : Bool} :
    e.isCopy ctx line lane = true ↔ e.ctx = ctx ∧ e.line = line ∧ e.lane = lane := by
  simp [TraceEnt.isCopy, and_assoc]

/-- Copies of other sets stay. -/
theorem Core.mem_putCopy_of_set {c : Core} {ent x : TraceEnt} (hx : x ∈ c.trace) (hset : traceSet x.line ≠ traceSet ent.line) :
    x ∈ (c.putCopy ent).trace := by
  have hcopy : x.isCopy ent.ctx ent.line ent.lane = false := by
    by_contra h
    exact hset (by rw [(TraceEnt.isCopy_iff.mp (Bool.of_not_eq_false h)).2.1])
  refine List.mem_cons_of_mem _ (List.mem_filter.mpr ⟨List.mem_filter.mpr ⟨hx, by simp [hcopy]⟩, ?_⟩)
  simp only [Bool.not_eq_true', List.contains_eq_mem, decide_eq_false_iff_not]
  exact fun hout => hset (by simpa using (List.mem_filter.mp (List.mem_of_mem_drop hout)).2)

/-- A trace cache holds the new copy and copies that it held. -/
theorem Core.mem_putCopy {c : Core} {ent x : TraceEnt} (hx : x ∈ (c.putCopy ent).trace) : x = ent ∨ x ∈ c.trace :=
  (List.mem_cons.mp hx).imp_right fun h => (List.mem_filter.mp (List.mem_filter.mp h).1).1

theorem Core.copyOf_fillLine (c : Core) (ctx line : Nat) (lane : Bool) :
    (c.fillLine ctx line lane).copyOf ctx line lane = some ⟨ctx, line, lane, false⟩ :=
  List.find?_cons_of_pos (TraceEnt.isCopy_iff.mpr ⟨rfl, rfl, rfl⟩)

/-! TLBs (R212) -/

/-- A walk that grants the access enters the L2 TLB. -/
theorem exec_pageWalk {s : State} {ci cluster : Nat} {c : Context} {va : Addr} {kind : Acc} {a e sh : Nat}
    (hc : s.contexts[ci]? = some c) (hw : s.walk c.root (va56 va) = .leaf a e sh) (hk : pteGrants e kind = true) :
    exec (.pageWalk ci cluster va kind) s = .next (s.fillL2 cluster [⟨ci, va56 va / 2 ^ sh * 2 ^ sh / 65536, sh⟩]) := by
  have hva : va56 va % 2 ^ 56 = va56 va := Nat.mod_mod _ _
  change execPageWalk ci cluster va kind s = _
  simp only [execPageWalk, hc, hw, hk, if_true, State.tlbEnt, hva, Option.toList_some]

/-- What a cluster's L2 TLB holds once an entry has entered it. -/
theorem State.spGet_fillL2 {s : State} (ht : sparseWf [] 0 s.tlb = true) (cluster : Nat) (e : TlbEnt) (n : Nat) :
    spGet [] (s.fillL2 cluster [e]).tlb n = if n = cluster then tlbPut l2Size e (spGet [] s.tlb cluster) else spGet [] s.tlb n :=
  spGet_spSet ht cluster n _

theorem head?_tlbPut {n : Nat} (hn : n ≠ 0) (e : TlbEnt) (l : List TlbEnt) : (tlbPut n e l).head? = some e := by
  simp [tlbPut, List.head?_take, hn]

theorem length_tlbPut_le (n : Nat) (e : TlbEnt) (l : List TlbEnt) : (tlbPut n e l).length ≤ n := List.length_take_le ..

theorem State.mem_mapCores {s : State} {f : Core → Core} {k : Nat × Core} (h : k ∈ (s.mapCores f).cores) :
    ∃ x ∈ s.cores, k = (x.1, f x.2) := by
  obtain ⟨x, hx, rfl⟩ := List.mem_map.mp (List.mem_filter.mp h).1
  exact ⟨x, hx, rfl⟩

/-- No entry that a test names stays in an L2 TLB. -/
theorem State.tlb_dropTlb {s : State} {out : TlbEnt → Bool} {x : Nat × List TlbEnt} (hx : x ∈ (s.dropTlb out).tlb) {e : TlbEnt}
    (he : e ∈ x.2) : out e = false := by
  obtain ⟨y, -, rfl⟩ := List.mem_map.mp (List.mem_filter.mp hx).1
  simpa using (List.mem_filter.mp he).2

/-- Nor does one in an L1 TLB. -/
theorem State.coreTlb_dropTlb {s : State} {out : TlbEnt → Bool} {k : Nat × Core} (hk : k ∈ (s.dropTlb out).cores) {e : TlbEnt}
    (he : e ∈ k.2.tlb) : out e = false := by
  obtain ⟨x, -, rfl⟩ := State.mem_mapCores hk
  simpa using (List.mem_filter.mp he).2

/-! Table entries that the resident kernel writes (R210, R212, R379) -/

@[simp] theorem State.setPte_groups (s : State) (a e : Nat) : (s.setPte a e).groups = s.groups := State.pmWriteN_groups ..

@[simp] theorem State.setPte_contexts (s : State) (a e : Nat) : (s.setPte a e).contexts = s.contexts :=
  foldl_keeps (f := fun (s : State) (w : Byte × Nat) => s.pmWrite kernelKey w.2 w.1) (π := State.contexts)
    (fun s w => s.pmWrite_contexts kernelKey w.2 w.1) _ _

/-- The tables made for an address change no group and no context. -/
theorem State.tablesFor_frame (s : State) (va : Nat) (ls : List (Nat × Nat × Bool)) (tbl : Nat) :
    (s.tablesFor va ls tbl).1.groups = s.groups ∧ (s.tablesFor va ls tbl).1.contexts = s.contexts := by
  fun_induction State.tablesFor s va ls tbl with
  | case1 => exact ⟨rfl, rfl⟩
  | case2 => exact ⟨rfl, rfl⟩
  | case3 => exact ⟨rfl, rfl⟩
  | case4 => rename_i ih; exact ih
  | case5 => rename_i ih; simpa using ih

theorem State.mapAt_frame (s : State) (root va level e : Nat) :
    (s.mapAt root va level e).groups = s.groups ∧ (s.mapAt root va level e).contexts = s.contexts := by
  simp [State.mapAt, State.tablesFor_frame]

theorem State.pmWriteN_modCtx (s : State) (ci : Nat) (f : Context → Context) (key a : Nat) (bs : List Byte) :
    (s.modCtx ci f).pmWriteN key a bs = (s.pmWriteN key a bs).modCtx ci f := by
  have hone : ∀ (s : State) a b, (s.modCtx ci f).pmWrite key a b = (s.pmWrite key a b).modCtx ci f := fun s a b => by
    unfold State.pmWrite
    split <;> rfl
  unfold State.pmWriteN
  generalize bs.zip (upto a bs.length) = ws
  induction ws generalizing s with
  | nil => rfl
  | cons w ws ih => rw [List.foldl_cons, List.foldl_cons, hone, ih]

theorem State.setPte_modCtx (s : State) (ci : Nat) (f : Context → Context) (a e : Nat) :
    (s.modCtx ci f).setPte a e = (s.setPte a e).modCtx ci f := s.pmWriteN_modCtx ci f ..

theorem State.pte_modCtx (s : State) (ci : Nat) (f : Context → Context) (a : Nat) : (s.modCtx ci f).pte a = s.pte a := rfl

theorem State.tablesFor_modCtx (s : State) (ci : Nat) (f : Context → Context) (va : Nat) (ls : List (Nat × Nat × Bool)) (tbl : Nat) :
    (s.modCtx ci f).tablesFor va ls tbl = ((s.tablesFor va ls tbl).1.modCtx ci f, (s.tablesFor va ls tbl).2) := by
  fun_induction State.tablesFor s va ls tbl with
  | case1 => rfl
  | case2 => rfl
  | case3 s sh n _ rest tbl hne at_ e h0 hleaf =>
    rw [State.tablesFor, State.pte_modCtx, if_pos h0, if_pos hleaf]
    exact hne
  | case4 s sh n _ rest tbl hne at_ e h0 hptr ih =>
    rw [State.tablesFor, State.pte_modCtx, if_pos h0, if_neg hptr]
    · exact ih
    · exact hne
  | case5 s sh n _ rest tbl hne at_ e h0 base ih =>
    have hset := State.setPte_modCtx { s with nextFrame := s.nextFrame + 1 } ci f at_ (base + 1)
    rw [State.tablesFor, State.pte_modCtx, if_neg h0]
    · exact (congrArg (fun u : State => u.tablesFor va rest base) hset).trans ih
    · exact hne

/-- Table entries and contexts do not touch one another. -/
theorem State.mapAt_modCtx (s : State) (ci : Nat) (f : Context → Context) (root va level e : Nat) :
    (s.modCtx ci f).mapAt root va level e = (s.mapAt root va level e).modCtx ci f := by
  simp only [State.mapAt, State.tablesFor_modCtx, State.setPte_modCtx]

@[simp] theorem State.moveFrame_contexts (s : State) (a b : Nat) : (s.moveFrame a b).contexts = s.contexts := by
  unfold State.moveFrame
  split <;> rfl

/-- A context whose contents of a page the resident kernel holds in a frame (R379). -/
def Context.hold (page f : Nat) (c : Context) : Context := { c with heldPages := spSet none c.heldPages page (some f) }

/-- A page in the device's own memory moves to a frame that the resident kernel keeps. -/
theorem State.holdPage_eq {s : State} {ci va pa : Nat} (hh : s.homeOf ci (va / 65536 * 65536) = some pa) (hpa : pa < memTop) (f : Nat) :
    s.holdPage ci va f = (s.moveFrame (pa / 65536) f).modCtx ci (Context.hold (va / 65536) f) := by
  simp only [State.holdPage, hh, if_neg (Nat.not_le.mpr hpa)]
  rfl

end Sys2Proof.Machine
end

section
/-!
SUPPORT. Table entries and faults as events (R211, R212, R371): an invalidation and its frame, a resolution and the budget;
the statement O56.
-/

namespace Sys2Proof.Machine

/-! Invalidation (R110, R212, R379) -/

/-- The entries that an invalidation takes out of the TLBs: those that serve the address, and those of the pages that the
written entry maps (R212). -/
def TlbEnt.invalid (ci : Nat) (va : Addr) (level : Nat) (e : TlbEnt) : Bool :=
  e.covers ci (va56 va) || (e.ctx == ci && e.page * 65536 / 2 ^ levelShift level == va56 va / 2 ^ levelShift level)

theorem TlbEnt.of_not_invalid {ci level : Nat} {va : Addr} {e : TlbEnt} (h : e.invalid ci va level = false) :
    e.covers ci (va56 va) = false ∧ (e.ctx = ci → e.page * 65536 / 2 ^ levelShift level ≠ va56 va / 2 ^ levelShift level) := by
  simp only [TlbEnt.invalid, Bool.or_eq_false_iff, Bool.and_eq_false_imp, beq_iff_eq, beq_eq_false_iff_ne] at h
  exact h

/-- What an invalidation leaves of a state whose entry is written: the translations that the context's commits gave, the
TLBs' entries and the decoded lines go. -/
def State.invalidated (s : State) (ci : Nat) (va : Addr) (level : Nat) : State :=
  ((s.modCtx ci fun c => { c with
      commits := c.commits.filter fun e => !(e.1 * 65536 / 2 ^ levelShift level == va56 va / 2 ^ levelShift level) }).dropTlb
    (TlbEnt.invalid ci va level)).mapCores fun c => { c with trace := c.trace.filter fun e => e.ctx != ci }

theorem exec_tlbInvalidation {s : State} {ci : Nat} {c : Context} (hc : s.contexts[ci]? = some c) (va : Addr) (level : Nat)
    (pte : BitVec 64) (hold : Option Nat) : exec (.tlbInvalidation ci va ⟨level, pte, hold⟩) s =
      .next ((((hold.map (s.holdPage ci (va56 va))).getD s).mapAt c.root (va56 va) level pte.toNat).invalidated ci va level) := by
  change execTlbInvalidation ci va ⟨level, pte, hold⟩ s = _
  simp only [execTlbInvalidation, hc]
  rfl

@[simp] theorem State.invalidated_mem (s : State) (ci : Nat) (va : Addr) (level : Nat) : (s.invalidated ci va level).mem = s.mem := rfl
@[simp] theorem State.invalidated_groups (s : State) (ci : Nat) (va : Addr) (level : Nat) :
    (s.invalidated ci va level).groups = s.groups := rfl

/-- No TLB keeps a translation that was invalidated, and no trace cache a decoded line of the context. -/
theorem State.invalidated_tlb (s : State) (ci : Nat) (va : Addr) (level : Nat) :
    (∀ x ∈ (s.invalidated ci va level).tlb, ∀ e ∈ x.2, e.invalid ci va level = false) ∧
    ∀ k ∈ (s.invalidated ci va level).cores, (∀ e ∈ k.2.tlb, e.invalid ci va level = false) ∧ ∀ e ∈ k.2.trace, e.ctx ≠ ci := by
  refine ⟨fun x hx e he => State.tlb_dropTlb hx he, fun k hk => ?_⟩
  obtain ⟨x, hx, rfl⟩ := State.mem_mapCores hk
  exact ⟨fun e he => State.coreTlb_dropTlb hx he, fun e he => by simpa using (List.mem_filter.mp he).2⟩

/-- A context after an invalidation holds the pages that it held. -/
theorem State.invalidated_heldPages {s : State} {ci : Nat} {c : Context} (hc : s.contexts[ci]? = some c) (va : Addr) (level : Nat) :
    ∃ d, (s.invalidated ci va level).contexts[ci]? = some d ∧ d.heldPages = c.heldPages := by
  exact ⟨_, (getElem?_modAt_self s.contexts ci _).trans (congrArg _ hc), rfl⟩

/-- An invalidation that first moves the page out, and the context that then holds it (R379). -/
theorem exec_tlbInvalidation_hold {s : State} {ci : Nat} {c : Context} {va : Addr} {pa : Nat} (hc : s.contexts[ci]? = some c)
    (hh : s.homeOf ci (va56 va / 65536 * 65536) = some pa) (hpa : pa < memTop) (level : Nat) (pte : BitVec 64) (f : Nat) :
    let t := ((((s.moveFrame (pa / 65536) f).mapAt c.root (va56 va) level pte.toNat).modCtx ci
      (Context.hold (va56 va / 65536) f)).invalidated ci va level)
    ∃ d, exec (.tlbInvalidation ci va ⟨level, pte, some f⟩) s = .next t ∧ t.contexts[ci]? = some d ∧
      d.heldPages = spSet none c.heldPages (va56 va / 65536) (some f) := by
  intro t
  have hexec := exec_tlbInvalidation hc va level pte (some f)
  rw [Option.map_some, Option.getD_some, State.holdPage_eq hh hpa, State.mapAt_modCtx] at hexec
  have hctx : (((s.moveFrame (pa / 65536) f).mapAt c.root (va56 va) level pte.toNat).modCtx ci
      (Context.hold (va56 va / 65536) f)).contexts[ci]? = some (c.hold (va56 va / 65536) f) := by
    rw [State.modCtx_contexts, getElem?_modAt_self, (State.mapAt_frame ..).2, State.moveFrame_contexts, hc, Option.map_some]
  obtain ⟨d, hd, hheld⟩ := State.invalidated_heldPages hctx va level
  exact ⟨d, hexec, hd, hheld⟩

/-! Faults resolved (R371) -/

section
variable {s : State} {ci : Nat} {c : Context} {r : FaultRec} {rest : List FaultRec} (hc : s.contexts[ci]? = some c)
  (hf : c.faults = r :: rest)
include hc hf

theorem exec_faultResolution_none : exec (.faultResolution ci none) s = .next (s.stopContext ci (s.stopStatus ci r)) := by
  change execFaultResolution ci none s = _
  simp only [execFaultResolution, hc, hf]

theorem exec_faultResolution_not_live (f : Nat) (hl : c.stat ≠ .live) : exec (.faultResolution ci (some f)) s = .next s := by
  change execFaultResolution ci (some f) s = _
  simp only [execFaultResolution, hc, hf, if_pos hl]

/-- A page that the kernel can serve becomes resident, and its records are served. -/
theorem exec_faultResolution_served (f : Nat) (hl : c.stat = .live) (hk : r.kind = 1) (hlost : s.stopStatus ci r ≠ "peer lost")
    (hr : s.resolvable c (va56 r.addr / 65536) = true) : exec (.faultResolution ci (some f)) s =
      .next (((c.onPage (va56 r.addr / 65536)).foldl (fun s x => s.replay (va56 r.addr / 65536) x)
        (s.makeResident ci c (va56 r.addr / 65536) f)).modCtx ci fun c => c.serve (va56 r.addr / 65536)) := by
  change execFaultResolution ci (some f) s = _
  simp only [execFaultResolution, hc, hf, if_neg (not_not.mpr hl), if_pos (⟨hk, beq_false_of_ne hlost, hr⟩ : _ ∧ _ ∧ _)]

/-- A record that cannot be served stops the context. -/
theorem exec_faultResolution_stop (f : Nat) (hl : c.stat = .live)
    (h : r.kind ≠ 1 ∨ s.stopStatus ci r = "peer lost" ∨ s.resolvable c (va56 r.addr / 65536) = false) :
    exec (.faultResolution ci (some f)) s = .next (s.stopContext ci (s.stopStatus ci r)) := by
  have hno : ¬(r.kind = 1 ∧ (s.stopStatus ci r == "peer lost") = false ∧ s.resolvable c (va56 r.addr / 65536) = true) := by
    rintro ⟨hk, hlost, hr⟩
    rcases h with h | h | h
    · exact h hk
    · exact beq_eq_false_iff_ne.mp hlost h
    · exact Bool.false_ne_true (h.symm.trans hr)
  change execFaultResolution ci (some f) s = _
  simp only [execFaultResolution, hc, hf, if_neg (not_not.mpr hl), if_neg hno]

theorem exec_faultBudgetExpiry_abort {ti : Nat} (ho : s.ownerTeam r = some ti) (hb : r.since + c.faultBudget * 1000 < s.now)
    (hl : c.stat = .live) : exec (.faultBudgetExpiry ci) s =
      .next ((s.askAbort ti).modCtx ci fun c => c.serveIf fun q => s.ownerTeam q == some ti) := by
  change execFaultBudgetExpiry ci s = _
  simp only [execFaultBudgetExpiry, hc, hf, if_pos (⟨hb, hl⟩ : _ ∧ _), ho]

theorem exec_faultBudgetExpiry_stays (h : s.now ≤ r.since + c.faultBudget * 1000 ∨ c.stat ≠ .live) :
    exec (.faultBudgetExpiry ci) s = .next s := by
  have hno : ¬(r.since + c.faultBudget * 1000 < s.now ∧ c.stat = .live) := fun ⟨hb, hl⟩ => h.elim (fun h => by omega) fun h => h hl
  change execFaultBudgetExpiry ci s = _
  simp only [execFaultBudgetExpiry, hc, hf, if_neg hno]

end

end Sys2Proof.Machine

namespace Sys2Proof
open Sys2Proof.Machine

/-- Settles O56: each event by the ways in which it can end, the caches by what enters and leaves them. -/
theorem fetchTranslationAndFaultEvents : Obligations.FetchTranslationAndFaultEvents := by
  unfold Obligations.FetchTranslationAndFaultEvents
  refine ⟨fun s gi g c pc sel hg hc hl hp => ⟨?_, ?_, ?_, ?_, ?_⟩, fun s gi g c pc line hg hc hl hp => ⟨fun hm => ⟨?_, ?_⟩, ?_⟩,
    fun c ent => ⟨rfl, ?_, ?_, ?_⟩, ?_, fun s cluster e ht => ⟨?_, ?_, ?_⟩, fun s ci c va level pte hc => ?_,
    fun s ci c va level pte f pa hc hh hpa => ?_, ?_, fun s ci c r rest hc hf => ⟨?_, ?_, ?_, ?_, ?_⟩⟩
  -- a demand fetch: a line that can be translated, one that cannot, one past the bound, an anonymous page
  · exact fun a e pa hb hw => exec_demandFetch_walk hg hc hl hp hb (State.fetchWalk_of_codeWalk hw)
  · exact fun s1 hb hw => exec_demandFetch_trap hg hc hl hp hb hw
  · exact fun hb => exec_demandFetch_bound hg hc hl hp hb
  · exact fun a s1 a' e pa hb hw hs hcw => exec_demandFetch_walk hg hc hl hp hb ((State.fetchWalk_anon hw hs).trans (by rw [hcw]))
  · intro lane a e pa hb hw hf s1 hs1
    rw [exec_traceCacheFill hg hc hl hp lane hb hw hf hs1]
    exact ⟨fun h => by rw [if_neg h], fun h => by rw [if_pos h]⟩
  -- a speculative fetch
  · exact fun pa ht hb hw => exec_speculativeFetch_line hg hc hl hp hm (State.specLine_eq_some ht hb hw)
  · exact fun h => exec_speculativeFetch_drop hg hc hl hp hm (State.specLine_eq_none h)
  · exact fun hm => exec_speculativeFetch_elsewhere hg hc hp hm
  -- the trace cache
  · exact fun x hx hset => Core.mem_putCopy_of_set hx hset
  · exact fun x hx => Core.mem_putCopy hx
  · exact c.copyOf_fillLine
  -- a walk, and the L2 TLB
  · exact fun s ci c cluster va kind a e sh hc hw hk => exec_pageWalk hc hw hk
  · rw [State.spGet_fillL2 ht, if_pos rfl]
    exact head?_tlbPut (by decide) _ _
  · exact fun n hn => by rw [State.spGet_fillL2 ht, if_neg hn]
  · rw [State.spGet_fillL2 ht, if_pos rfl]
    exact length_tlbPut_le _ _ _
  -- an invalidation, and one that moves the page out
  · have hexec := exec_tlbInvalidation hc va level pte none
    rw [Option.map_none, Option.getD_none] at hexec
    refine ⟨_, hexec, State.invalidated_mem .., (State.invalidated_groups ..).trans (s.mapAt_frame ..).1, ?_, ?_⟩
    · exact fun x hx e he => TlbEnt.of_not_invalid ((State.invalidated_tlb _ ci va level).1 x hx e he)
    · intro k hk
      obtain ⟨htlb, htrace⟩ := (State.invalidated_tlb _ ci va level).2 k hk
      exact ⟨fun e he => (TlbEnt.of_not_invalid (htlb e he)).1, htrace⟩
  · obtain ⟨d, hexec, hd, hheld⟩ := exec_tlbInvalidation_hold hc hh hpa level pte f
    exact ⟨_, d, hexec, (State.invalidated_mem ..).trans (State.modCtx_mem ..), hd, hheld⟩
  -- a resolution, and the budget
  · exact fun s ci c r rest f hc hf hk hlost hl hr => exec_faultResolution_served hc hf f hl hk hlost hr
  · exact exec_faultResolution_none hc hf
  · exact fun f hl h => exec_faultResolution_stop hc hf f hl h
  · exact fun f hl => exec_faultResolution_not_live hc hf f hl
  · exact fun ti ho hb hl => exec_faultBudgetExpiry_abort hc hf ho hb hl
  · exact fun h => exec_faultBudgetExpiry_stays hc hf h

end Sys2Proof
end

section
/-!
SUPPORT. A value instruction that a trap keeps from completing in a record with a position that no predicate mask reaches (R85,
R89): the statements O1 and O9, which fail there as O2 does.
-/

namespace Sys2Proof
open Sys2Proof.Machine

/-- An instruction that counts no issue in the device of the stray position does not complete there. -/
theorem exec_stray_ne_finish {x : Instr} (h : ∃ t, exec x strayState = .next t ∧ t.ord = 0) (F : ValueForm) (v : Values) :
    exec x strayState ≠ .next (strayState.finishValues strayIss F.ns F.lr F.ll v) := fun hv => by
  obtain ⟨t, ht, hord⟩ := h
  rw [hv] at ht
  cases ht
  have hfin : (strayState.finishValues strayIss F.ns F.lr F.ll v).ord = 1 := State.finish_ord rfl ..
  exact absurd (hfin.symm.trans hord) (by decide)

/-! `sel` -/

/-- `sel` to s0 between zero and zero by p7, which reads true. -/
def selP7 : Instr := .sel plainCtl .i32 (.s 0) .zr .zr (.p 7)

/-- What O1 says of it. -/
def selP7Form : ValueForm := (intOther selP7).get rfl

/-- Its operands pass their checks. -/
theorem check_selP7 : strayIss.check selP7Form.ns = .ok () := rfl

/-- By the form the s destination gets a U result: p7 picks one source at both positions, and the source is U. -/
theorem sOk_selP7 : selP7Form.sOk strayIss := by
  refine .inr fun sel _ r hr _ => ?_
  have hr : r = strayRec := List.mem_singleton.mp hr
  subst hr
  have htimes : selP7Form.times strayIss (strayIss.g.expand sel) = fun _ => strayIss := rfl
  rw [htimes]
  exact ⟨strayRec, rfl, rfl⟩

/-- The model reads p7 through a mask of 64 positions, picks two sources, and traps for the s destination (R90). -/
theorem exec_selP7 : ∃ t, exec selP7 strayState = .next t ∧ t.ord = 0 := ⟨_, rfl, rfl⟩

/-- Refutes O1: in a record with a position beyond 63, `sel` by p7 to an s register traps where its form says that it completes.
(No hypothesis limits the positions of a record, so the statement wants that each lies below 64, R85.) -/
theorem not_integerResults : ¬ Obligations.IntegerResults := by
  unfold Obligations.IntegerResults
  rintro ⟨-, h⟩
  obtain ⟨v, -, hv⟩ := h selP7 selP7Form rfl strayState strayIss iss_stray check_selP7 sOk_selP7
  exact exec_stray_ne_finish exec_selP7 selP7Form v hv

/-- Refutes O9: the group of the stray position is sound, since `Group.sound` sets no limit on positions, and `pmov` of p7 to an s
register traps there where its form says that it completes. -/
theorem not_rangeFormsAreExact : ¬ Obligations.RangeFormsAreExact := by
  unfold Obligations.RangeFormsAreExact
  intro h
  obtain ⟨v, -, hv, -⟩ := h moveP7 moveP7Form strayState strayIss rfl iss_stray rfl check_stray sOk_stray
  exact exec_stray_ne_finish exec_stray moveP7Form v hv

end Sys2Proof
end

section
/-!
SUPPORT. Instructions that reshape the records of the run (R136, R140, R141, R151): the statement O11.
-/

namespace Sys2Proof.Machine

/-! A kill (R141) -/

/-- A canonical list without some of its numbers reads the default there, and elsewhere what it held. -/
theorem spGet_filter_fst {α : Type} [DecidableEq α] {d : α} {m : Sparse α} {lo : Nat} (hm : sparseWf d lo m = true) (q : Nat → Bool)
    (i : Nat) : spGet d (m.filter fun e => q e.1) i = if q i then spGet d m i else d := by
  by_contra hne
  by_cases hd : spGet d (m.filter fun e => q e.1) i = d
  · -- the number is kept and was listed, so it still is
    have hq : q i = true := by by_contra hq; simp [hq, hd] at hne
    rw [if_pos hq, hd] at hne
    have hmem : (i, spGet d m i) ∈ m.filter fun e => q e.1 := List.mem_filter.mpr ⟨mem_of_spGet rfl (Ne.symm hne), hq⟩
    exact hne (hd.symm.trans (spGet_of_mem (sparseWf_filter (fun e => q e.1) hm) hmem).2)
  · -- the number is still listed, so it is kept and was
    obtain ⟨hmem, hq⟩ := List.mem_filter.mp (mem_of_spGet rfl hd)
    exact hne (by rw [if_pos hq, (spGet_of_mem hm hmem).2])

/-- A kill makes its registers dead and leaves the others. -/
theorem Rec.form_kill {r : Rec} (h : sparseWf Form.dead 0 r.forms = true) (n cnt m : Nat) :
    (r.kill n cnt).form m = if n ≤ m ∧ m < n + cnt then Form.dead else r.form m := by
  refine (spGet_filter_fst h (fun x => x < n || n + cnt ≤ x) m).trans ?_
  have hkept : (m < n ∨ n + cnt ≤ m) ↔ ¬(n ≤ m ∧ m < n + cnt) := by omega
  simp only [Bool.or_eq_true, decide_eq_true_eq, hkept, ite_not]
  rfl

/-! The checks of `dead` -/

/-- A v register is an operand of `dead`. -/
theorem needOk_dead (kern : Kernel) (n : Fin 64) : Need.ok kern ⟨.v n, [.v], 1, 0⟩ = true := by
  simp [Need.ok, opKind, inAllot, Nat.mod_one]

theorem Iss.check_dead {i : Iss} (ht : i.trial = false) (n : Fin 64) : i.check [⟨.v n, [.v], 1, 0⟩] = .ok () := by
  simp [Iss.check, Iss.checkWith, needOk_dead, Iss.deadAt, Iss.staleLatch, Need.vregs, upto, opKind, ht]

/-- A breach of R40 that concerns several fields is an illegal operand. -/
theorem Iss.check_badNeed {i : Iss} {ns : List Need} (hq : ns.any (fun n => opKind n.o == .dq) = false) (hb : badNeed ∈ ns) :
    i.check ns = .error (badOperand 0) := by
  have hbad : ns.any (fun n => !n.ok i.kern) = true := List.any_eq_true.mpr ⟨badNeed, hb, rfl⟩
  simp [Iss.check, Iss.checkWith, hq, hbad]

/-! The instructions -/

section
variable {s : State} {k : Ctl} {i : Iss} {chk : Iss → Except Stop Unit} {f : Iss → Group → Group} (hi : s.iss k = some i)
include hi

/-- A reshaping instruction whose check passes finishes its issue with the records reshaped. -/
theorem State.reshape_ok (ht : i.trial = false) (hc : chk i = .ok ()) : s.reshape k chk f =
    .next (s.finish i i.g i.g [] 0 0 [⟨1, i.run.length, []⟩] fun g => i.advance (f i g)) := by
  unfold State.reshape
  exact State.issue_ok hi (by simp only [hc]) ht

/-- One whose check fails is settled. -/
theorem State.reshape_error {e : Stop} (hc : chk i = .error e) : s.reshape k chk f = .next (s.settle i e) := by
  unfold State.reshape
  exact State.issue_error hi (by simp only [hc])

/-- `dead` up to v63 finishes with its registers killed in every record of the run. -/
theorem execDead_kills (ht : i.trial = false) {n : Fin 64} {cnt : BitVec 6} (h : n.val + cnt.toNat ≤ 63) :
    execDead k (.v n) cnt s = .next (s.finish i i.g i.g [] 0 0 [⟨1, i.run.length, []⟩] fun g =>
      i.advance { g with recs := g.recs.map fun r => if i.inRun r then r.kill n.val (cnt.toNat + 1) else r }) := by
  refine State.reshape_ok hi ht ?_
  rw [if_pos (show opNum (.v n) + cnt.toNat ≤ 63 from h)]
  exact Iss.check_dead ht n

/-- `dead` past v63 is an illegal operand. -/
theorem execDead_traps {n : Fin 64} {cnt : BitVec 6} (h : 63 < n.val + cnt.toNat) :
    execDead k (.v n) cnt s = .next (s.settle i (badOperand 0)) := by
  refine State.reshape_error hi ?_
  rw [if_neg (show ¬ opNum (.v n) + cnt.toNat ≤ 63 from Nat.not_le.mpr h)]
  exact Iss.check_badNeed rfl (by simp)

end

end Sys2Proof.Machine

namespace Sys2Proof
open Sys2Proof.Machine

/-- Settles O11: each instruction is one reshaping of the run's records; a kill filters the forms of a record, and past v63 the
operand check fails. -/
theorem recordInstructions : Obligations.RecordInstructions := by
  unfold Obligations.RecordInstructions
  refine ⟨fun k s i hi ht => ⟨?_, ?_, ?_, fun n cnt h => execDead_kills hi ht h⟩, fun r n cnt m h => Rec.form_kill h n cnt m,
    fun k s i n cnt hi h => execDead_traps hi h⟩
  · exact State.reshape_ok hi ht (Iss.check_nil ht)
  · exact State.reshape_ok hi ht (Iss.check_nil ht)
  · exact State.reshape_ok hi ht (Iss.check_nil ht)

end Sys2Proof
end

section
/-!
SUPPORT. The positions of a run, guarded or not (R48, R89, R92), and what the checks of an instruction ask (R54).
-/

namespace Sys2Proof.Machine

/-! Positions of the run -/

variable {i : Iss} {p : Nat}

theorem Iss.mem_onIn {r : Rec} : p ∈ i.onIn r ↔ p ∈ r.positions ∧ (i.g0.guardMask i.k.guard).getLsbD p = true := by
  simp [Iss.onIn]

theorem Iss.mem_on : p ∈ i.on ↔ p ∈ i.sel ∧ (i.g0.guardMask i.k.guard).getLsbD p = true := by
  simp [Iss.on, (sortNat_perm i.sel).mem_iff]

theorem Iss.on_sorted : i.on.Pairwise (· ≤ ·) := (sortNat_sorted i.sel).filter _

/-- A guard is true at positions below 64 only. -/
theorem Iss.lt_of_mem_on (h : p ∈ i.on) : p < 64 := by
  by_contra hp
  have := (Iss.mem_on.mp h).2
  rw [BitVec.getLsbD_of_ge _ _ (by omega)] at this
  cases this

/-- The positions of a record of the run are positions of the run. -/
theorem Iss.mem_sel_of_run {r : Rec} (hr : r ∈ i.run) (hp : p ∈ r.positions) : p ∈ i.sel := by
  have := (Iss.mem_run.mp hr).2
  simp only [Iss.inRun, Bool.and_eq_true, List.all_eq_true, List.contains_iff_mem] at this
  exact this.2 p hp

theorem Iss.mem_onIn_iff {r : Rec} (hr : r ∈ i.run) : p ∈ i.onIn r ↔ p ∈ r.positions ∧ p ∈ i.on := by
  rw [Iss.mem_onIn, Iss.mem_on]
  exact ⟨fun ⟨h, hg⟩ => ⟨h, Iss.mem_sel_of_run hr h, hg⟩, fun ⟨h, _, hg⟩ => ⟨h, hg⟩⟩

/-- The guarded positions by record are the positions by record whose guard is true. -/
theorem Iss.mem_onByAge_iff : p ∈ i.onByAge ↔ p ∈ i.allByAge ∧ p ∈ i.on := by
  rw [Iss.mem_onByAge, Iss.allByAge, mem_allPositions]
  constructor
  · rintro ⟨r, hr, hp⟩
    obtain ⟨hp, ho⟩ := (Iss.mem_onIn_iff hr).mp hp
    exact ⟨⟨r, hr, hp⟩, ho⟩
  · rintro ⟨⟨r, hr, hp⟩, ho⟩
    exact ⟨r, hr, (Iss.mem_onIn_iff hr).mpr ⟨hp, ho⟩⟩

/-- A record of the run is a range record of it or a lane record. -/
theorem Iss.mem_ranges_or_lanes {r : Rec} : r ∈ i.ranges i.g ∨ r ∈ i.lanes i.g ↔ r ∈ i.run := by
  simp only [Iss.ranges, Iss.lanes, List.mem_filter, Bool.and_eq_true, Bool.not_eq_true', Iss.mem_run]
  cases r.lane <;> simp

/-! The issue at a pass (R112) -/

/-- A pass finds the issue with the register values of its ck. -/
theorem Iss.timed_eq (i : Iss) (coll : Bool) (regs : List Nat) (gc : Group) (p : Nat) :
    i.timed coll regs gc p = { i with g := (i.timed coll regs gc p).g } := by
  unfold Iss.timed Iss.at
  split_ifs <;> rfl

theorem Iss.timed_pc (i : Iss) (coll : Bool) (regs : List Nat) (gc : Group) (p : Nat) : (i.timed coll regs gc p).pc = i.pc := by
  rw [Iss.timed_eq]

/-! What a check asks -/

/-- Checks 6 and 7 of an instruction that is not only tried. -/
theorem Iss.check_iff {ns : List Need} : i.check ns = .ok () ↔
    ((i.g.serves.isSome && ns.any fun n => opKind n.o == .dq) = false) ∧ (∀ n ∈ ns, n.ok i.kern = true) ∧
      i.deadAt (ns.flatMap Need.vregs) = [] ∧ i.staleLatch ns = none ∧ i.trial = false := by
  constructor
  · intro h
    refine ⟨?_, Iss.check_ok h⟩
    by_contra hq
    rw [Iss.check, Iss.checkWith, if_pos (by simpa using hq)] at h
    cases h
  · rintro ⟨hq, hok, hd, hl, ht⟩
    have hbad : ns.any (fun n => !n.ok i.kern) = false := by simpa using hok
    simp [Iss.check, Iss.checkWith, hq, hbad, hd, hl, ht]

/-- A need for an s register names no v register and no latch, so the needs before it pass by themselves. -/
theorem Iss.check_of_append_s {ns : List Need} {t : Fin 56} {ks : List Kind} {mult reads : Nat}
    (h : i.check (ns ++ [⟨.s t, ks, mult, reads⟩]) = .ok ()) : i.check ns = .ok () := by
  obtain ⟨hq, hok, hd, hl, ht⟩ := Iss.check_iff.mp h
  refine Iss.check_iff.mpr ⟨?_, fun n hn => hok n (by simp [hn]), ?_, ?_, ht⟩
  · simpa [opKind] using hq
  · simpa [Need.vregs] using hd
  · simpa [Iss.staleLatch] using hl

end Sys2Proof.Machine
end

section
/-!
SUPPORT. Control transfers (R144 to R149): the order of their checks, their links, and where they send the run; the statements O8
and O15.
-/

namespace Sys2Proof.Machine

/-! Traps at positions -/

/-- The trap of an illegal instruction stands at the first position that fails. -/
theorem illegalAt_filter {l : List Nat} {q : Nat → Bool} {p : Nat} (cause : Nat) (h : l.find? q = some p) :
    illegalAt cause (l.filter q) = .error (.trap 0x01 cause 0#32 (some p)) := by
  obtain ⟨rest, hl⟩ := List.head?_eq_some_iff.mp (List.head?_filter.trans h)
  rw [hl]
  rfl

/-- The trap at some failing positions names the first and the lowest. -/
theorem failAt_filter {l : List Nat} {q : Nat → Bool} {p : Nat} (cls cause : Nat) (h : l.find? q = some p) :
    ∃ m ∈ l, q m = true ∧ (∀ x ∈ l, q x = true → m ≤ x) ∧
      failAt cls cause (l.filter q) = .error (.trap cls cause (w32 m) (some p)) := by
  obtain ⟨rest, hl⟩ := List.head?_eq_some_iff.mp (List.head?_filter.trans h)
  obtain ⟨m, -, hm⟩ := leastBy_spec id (l := l.filter q) (by simp [hl])
  obtain ⟨hmem, hle⟩ := leastBy_some hm
  refine ⟨m, (List.mem_filter.mp hmem).1, (List.mem_filter.mp hmem).2, fun x hx hq => hle x (List.mem_filter.mpr ⟨hx, hq⟩), ?_⟩
  rw [hl] at hm ⊢
  simp only [failAt, hm]

/-! The checks of targets (R46, R47, R144) -/

section
variable {s : State} {i : Iss} {indirect always : Bool} {tgt : Nat → Option Addr} {p : Nat}

/-- A target that is out of range or on no slot is an illegal instruction before anything else. -/
theorem State.checkTargets_range (h : (i.onByAge.find? fun q => !targetInRange i.ctx.bounded (tgt q)) = some p) :
    s.checkTargets i indirect always tgt = .error (.trap 0x01 2 0#32 (some p)) := by
  simp only [State.checkTargets, illegalAt_filter 2 h]

theorem targetInRange_isSome {b : Bool} {t : Option Addr} (h : targetInRange b t = true) : ∃ a, t = some a := by
  cases t with
  | none => cases h
  | some a => exact ⟨a, rfl⟩

/-- With every target in range and inside its bound, "end" and TARGET decide. -/
theorem State.checkTargets_eq (hr : ∀ q ∈ i.onByAge, targetInRange i.ctx.bounded (tgt q) = true)
    (hb : i.ctx.bounded = true → indirect = true → ∀ q ∈ i.onByAge, ∀ a, tgt q = some a → i.ctx.boundOk permX a 12 = true) :
    s.checkTargets i indirect always tgt = s.endTarget i always tgt := by
  have hrange : (i.onByAge.filter fun k => !targetInRange i.ctx.bounded (tgt k)) = [] := by
    simpa [List.filter_eq_nil_iff] using hr
  have hbound : (if i.ctx.bounded && indirect then
      i.onByAge.filter fun k => !i.ctx.boundOk permX ((tgt k).getD 0#64) 12 else []) = [] := by
    split
    · rename_i h
      obtain ⟨h1, h2⟩ := Bool.and_eq_true_iff.mp h
      refine List.filter_eq_nil_iff.mpr fun q hq => ?_
      obtain ⟨a, ha⟩ := targetInRange_isSome (hr q hq)
      simp [ha, hb h1 h2 q hq a ha]
    · rfl
  unfold State.checkTargets
  rw [hrange]
  dsimp only [illegalAt]
  rw [hbound]
  rfl

/-- No position fails "end" or TARGET. -/
theorem State.endTarget_ok (ht : ∀ q ∈ i.allByAge, q ∈ i.on → ∀ a, tgt q = some a → s.targetOk i.ci i.ctx a = true)
    (he : s.atEnd i.ci i.ctx i.pc = true → always = false ∧ ∀ q ∈ i.allByAge, q ∈ i.on ∧ tgt q ≠ some (nextPc i.pc)) :
    s.endTarget i always tgt = .ok () := by
  unfold State.endTarget
  dsimp only
  split
  · exfalso
    rename_i q hf
    have hq := List.mem_of_find?_eq_some hf
    have hbad := List.find?_some hf
    rw [Bool.or_eq_true, Bool.and_eq_true, Bool.and_eq_true] at hbad
    rcases hbad with ⟨hat, hbad⟩ | ⟨hon, hbad⟩
    · obtain ⟨ha, hall⟩ := he hat
      obtain ⟨hon, hne⟩ := hall q hq
      simp [ha, hon, fallDest, hne] at hbad
    · cases htq : tgt q with
      | none => simp [htq] at hbad
      | some a => simp [htq, ht q hq (by simpa using hon) a htq] at hbad
  · rfl

/-- Away from an END line the eldest guarded position whose target is no TARGET fails. -/
theorem State.endTarget_target (hat : s.atEnd i.ci i.ctx i.pc = false)
    (h : (i.allByAge.find? fun q => i.on.contains q && ((tgt q).map fun a => !s.targetOk i.ci i.ctx a).getD false) = some p) :
    s.endTarget i always tgt = .error (.trap 0x01 7 0#32 (some p)) := by
  unfold State.endTarget
  dsimp only
  split
  · rename_i q hf
    simp only [hat, Bool.false_and, Bool.false_or] at hf
    have hpq : some q = some p := by
      rw [← hf, ← h]
      congr 1
      funext k
      cases tgt k <;> rfl
    cases hpq
    simp [hat, illegalAt]
  · rename_i hf
    rw [List.find?_eq_none] at hf
    have hp := hf p (List.mem_of_find?_eq_some h)
    have hbad := List.find?_some h
    revert hp hbad
    cases tgt p <;> simp [hat]

/-- On an END line a transfer that always goes on fails at the eldest position. -/
theorem State.endTarget_always (hat : s.atEnd i.ci i.ctx i.pc = true) {rest : List Nat} (h : i.allByAge = p :: rest) :
    s.endTarget i true tgt = .error (.trap 0x01 3 0#32 (some p)) := by
  simp [State.endTarget, hat, h, illegalAt]

/-- On an END line positions that leave fail where one of the run stays behind. -/
theorem State.endTarget_leaves (hat : s.atEnd i.ci i.ctx i.pc = true) (h : (i.allByAge.find? fun q => !i.on.contains q) = some p) :
    s.endTarget i false (fun _ => none) = .error (.trap 0x01 3 0#32 (some p)) := by
  have hp : (!i.on.contains p) = true := List.find?_some (p := fun q => !i.on.contains q) h
  have hnone : ((none : Option Addr) == fallDest i.pc) = false := rfl
  unfold State.endTarget
  simp only [hat, hnone, Bool.true_and, Bool.false_or, Bool.or_false, Bool.and_false, h, hp]
  rfl

end

/-! A transfer whole -/

section
variable {s : State} {k : Ctl} {i : Iss} {ns : List Need} {pre : Iss → (Nat → Iss) → Except Stop Unit} {indirect always leaves : Bool}
  {tgt : Iss → Nat → Option Addr} {link : Opnd} (hi : s.iss k = some i) (hc : i.check ns = .ok ())
include hi hc

/-- A transfer whose own conditions fail is settled. -/
theorem State.transferOp_pre_error {e : Stop} (hp : pre i (i.timed false (readRegs ns) i.g) = .error e) :
    s.transferOp k ns pre indirect always leaves tgt link = .next (s.settle i e) := by
  unfold State.transferOp
  exact State.issue_error hi (by simp only [hc, hp])

variable (hp : pre i (i.timed false (readRegs ns) i.g) = .ok ())
include hp

/-- A transfer whose targets fail is settled. -/
theorem State.transferOp_error {e : Stop}
    (ht : s.checkTargets i indirect always (fun p => tgt (i.timed false (readRegs ns) i.g p) p) = .error e) :
    s.transferOp k ns pre indirect always false tgt link = .next (s.settle i e) := by
  unfold State.transferOp
  exact State.issue_error hi (by simp only [hc, hp, Bool.false_eq_true, if_false, ht])

/-- An instruction of positions that leave is settled where one stays behind at an END line. -/
theorem State.transferOp_leaves_error {e : Stop} (ht : s.endTarget i always (fun _ => none) = .error e) :
    s.transferOp k ns pre indirect always true tgt link = .next (s.settle i e) := by
  unfold State.transferOp
  exact State.issue_error hi (by simp only [hc, hp, if_true, ht])

/-- A transfer whose targets pass writes its link and moves its run. -/
theorem State.transferOp_ok
    (ht : s.checkTargets i indirect always (fun p => tgt (i.timed false (readRegs ns) i.g p) p) = .ok ()) :
    s.transferOp k ns pre indirect always false tgt link = .next (s.finish i i.g i.g (readRegs ns) 0 0
      [⟨1, (i.ranges i.g).length, i.linkWrites link (i.ranges i.g)⟩, ⟨2, (i.lanes i.g).length, i.linkWrites link (i.lanes i.g)⟩]
      (s.moveRun i fun p => if i.on.contains p then tgt (i.timed false (readRegs ns) i.g p) p else some (nextPc i.pc))) := by
  unfold State.transferOp
  refine State.issue_ok hi ?_ (Iss.check_ok hc).2.2.2
  simp only [hc, hp, Bool.false_eq_true, if_false, ht]
  rfl

end

/-! The transfers that stay in the group -/

/-- The table of `brx` that its form asks for. -/
theorem brxTableOk_iff {t : Fin 56} {n : BitVec 6} : brxTableOk (.s t) n.toNat = true ↔ n ≠ 0#6 ∧ t.val + n.toNat ≤ 56 := by
  simp [brxTableOk, BitVec.toNat_eq]

/-- A position that admits s registers alone holds one. -/
theorem Need.eq_s_of_ok {kern : Kernel} {b : Opnd} {mult reads : Nat} (h : Need.ok kern ⟨b, [.s], mult, reads⟩ = true) :
    ∃ t, b = .s t := by
  cases b with
  | s t => exact ⟨t, rfl⟩
  | _ => cases h

section
variable {x : Instr} {F : TransferForm} {s : State} {i : Iss} (h : transferForm x = some F) (hc : i.check F.ns = .ok ())
include h hc

/-- Where the operands and the form's own conditions hold, the instruction is a transfer of that form. -/
theorem exec_transferForm {t : Times} (hp : F.pre i t) : ∃ ns pre, i.check ns = .ok () ∧ readRegs ns = readRegs F.ns ∧
    pre i t = .ok () ∧ ∀ s, exec x s = s.transferOp F.k ns pre F.indirect F.always false F.tgt F.link := by
  unfold transferForm at h
  split at h
  case h_2 k a b n =>
    obtain rfl := Option.some.inj h
    obtain ⟨t, rfl⟩ := Need.eq_s_of_ok ((Iss.check_ok hc).1 ⟨b, [.s], 1, 0⟩ (by simp))
    obtain ⟨hn, htab, hidx⟩ := hp
    have htable : brxTableOk (.s t) n.toNat = true := brxTableOk_iff.mpr ⟨hn, htab⟩
    refine ⟨_, fun i t => failAt 0x08 0 (i.onByAge.filter fun p => decide (n.toNat ≤ ((t p).g.word a p).toNat)), ?_, ?_, ?_,
      fun _ => rfl⟩
    · rw [if_pos htable, List.append_nil]
      exact Iss.check_of_append_s (ns := [src1 a]) hc
    · rw [if_pos htable]; rfl
    · dsimp only
      rw [List.filter_eq_nil_iff.mpr fun p hp => by simpa using hidx p hp]; rfl
  case h_6 => cases h
  all_goals
    obtain rfl := Option.some.inj h
    exact ⟨_, fun _ _ => .ok (), hc, rfl, rfl, fun _ => rfl⟩

variable (hi : s.iss F.k = some i) (hp : F.pre i (F.times i))
include hi hp

/-- A transfer whose targets fail is settled. -/
theorem TransferForm.exec_error {e : Stop} (ht : s.checkTargets i F.indirect F.always (F.goal i) = .error e) :
    exec x s = .next (s.settle i e) := by
  obtain ⟨ns, pre, hns, hregs, hpre, hexec⟩ := exec_transferForm h hc hp
  rw [hexec]
  refine State.transferOp_error hi hns ?_ ?_
  · rw [hregs]; exact hpre
  · rw [hregs]; exact ht

/-- A transfer whose targets pass writes its link and moves its run. -/
theorem TransferForm.exec_ok (ht : s.checkTargets i F.indirect F.always (F.goal i) = .ok ()) :
    exec x s = .next (s.finish i i.g i.g (readRegs F.ns) 0 0
      [⟨1, (i.ranges i.g).length, i.linkWrites F.link (i.ranges i.g)⟩, ⟨2, (i.lanes i.g).length, i.linkWrites F.link (i.lanes i.g)⟩]
      (s.moveRun i (F.dest i))) := by
  obtain ⟨ns, pre, hns, hregs, hpre, hexec⟩ := exec_transferForm h hc hp
  rw [hexec, State.transferOp_ok hi hns (by rw [hregs]; exact hpre) (by rw [hregs]; exact ht), hregs]
  rfl

end

/-- Where a transfer's form allows its targets, they pass. -/
theorem TransferForm.checkTargets_of_allowed {F : TransferForm} {s : State} {i : Iss} (h : F.allowed s i) :
    s.checkTargets i F.indirect F.always (F.goal i) = .ok () := by
  obtain ⟨htgt, hend⟩ := h
  rw [State.checkTargets_eq]
  · refine State.endTarget_ok (fun q hq hon a ha => ?_) fun hat => ⟨(hend hat).1, fun q hq => ?_⟩
    · obtain ⟨b, hb, -, -, hok⟩ := htgt q (Iss.mem_onByAge_iff.mpr ⟨hq, hon⟩)
      rw [hb] at ha
      exact Option.some.inj ha ▸ hok
    · obtain ⟨hon, hne⟩ := (hend hat).2 q hq
      exact ⟨(Iss.mem_onByAge_iff.mp hon).2, hne⟩
  · intro q hq
    obtain ⟨b, hb, hr, -⟩ := htgt q hq
    rw [hb]
    exact hr
  · intro hbd hind q hq a ha
    obtain ⟨b, hb, -, hbound, -⟩ := htgt q hq
    rw [hb] at ha
    exact Option.some.inj ha ▸ hbound hbd hind

/-! Links (R147, R148) -/

section
variable {i : Iss} {d : Opnd} {rs : List Rec}

/-- The link writes of some records of the run write the next slot's PC at positions of the run. -/
theorem Iss.linkWrites_only (hrs : ∀ r ∈ rs, r ∈ i.run) {w : RegWrite} (hw : w ∈ i.linkWrites d rs) : i.k.nwb = false ∧
    ((∃ n j vs f, d = .v n ∧ j < 2 ∧ w = .v (n.val + j) vs f ∧ ∀ q ∈ vs, q.1 ∈ i.allByAge ∧ q.2 = word (nextPc i.pc) j) ∨
      ∃ n j, d = .s n ∧ j < 2 ∧ w = .s (n.val + j) (word (nextPc i.pc) j)) := by
  unfold Iss.linkWrites at hw
  split at hw
  · cases hw
  · rename_i hne
    refine ⟨by simp_all, ?_⟩
    dsimp only at hw
    split at hw
    · rename_i n
      obtain ⟨j, hj, rfl⟩ := List.mem_map.mp hw
      refine .inl ⟨n, j, _, _, rfl, List.mem_range.mp hj, rfl, fun q hq => ?_⟩
      obtain ⟨hq, hv⟩ := mem_wordsAt.mp hq
      obtain ⟨r, hr, hp⟩ := mem_allPositions.mp hq
      exact ⟨mem_allPositions.mpr ⟨r, hrs r hr, hp⟩, hv⟩
    · rename_i n
      obtain ⟨j, hj, rfl⟩ := List.mem_map.mp hw
      exact .inr ⟨n, j, rfl, List.mem_range.mp hj, rfl⟩
    · cases hw

/-- Where results are written, the link is written at every position of the records. -/
theorem Iss.linkWrites_v (hn : i.k.nwb = false) (n : Fin 64) {r : Rec} (hr : r ∈ rs) {p : Nat} (hp : p ∈ r.positions) {j : Nat}
    (hj : j < 2) : ∃ vs f, RegWrite.v (n.val + j) vs f ∈ i.linkWrites (.v n) rs ∧ (p, word (nextPc i.pc) j) ∈ vs := by
  have hne : rs.isEmpty = false := by cases rs <;> simp_all
  refine ⟨wordsAt (fun _ => word (nextPc i.pc)) (allPositions rs) j, (uniformForms (nextPc i.pc) 2)[j]?, ?_,
    mem_wordsAt.mpr ⟨mem_allPositions.mpr ⟨r, hr, hp⟩, rfl⟩⟩
  unfold Iss.linkWrites
  rw [hn, hne]
  exact List.mem_map.mpr ⟨j, List.mem_range.mpr hj, rfl⟩

theorem Iss.linkWrites_s (hn : i.k.nwb = false) (n : Fin 56) {r : Rec} (hr : r ∈ rs) {j : Nat} (hj : j < 2) :
    RegWrite.s (n.val + j) (word (nextPc i.pc) j) ∈ i.linkWrites (.s n) rs := by
  have hne : rs.isEmpty = false := by cases rs <;> simp_all
  unfold Iss.linkWrites
  rw [hn, hne]
  exact List.mem_map.mpr ⟨j, List.mem_range.mpr hj, rfl⟩

/-- The link writes of the range records and of the lane records of a run are its link. -/
theorem Iss.linkWrites_linkOk (i : Iss) (d : Opnd) :
    linkOk i.k d i (i.linkWrites d (i.ranges i.g) ++ i.linkWrites d (i.lanes i.g)) := by
  refine ⟨fun w hw => ?_, fun hn j hj => ⟨?_, ?_⟩⟩
  · rcases List.mem_append.mp hw with hw | hw
    · exact Iss.linkWrites_only (fun r hr => Iss.mem_ranges_or_lanes.mp (.inl hr)) hw
    · exact Iss.linkWrites_only (fun r hr => Iss.mem_ranges_or_lanes.mp (.inr hr)) hw
  · rintro n rfl p hp
    obtain ⟨r, hr, hp⟩ := mem_allPositions.mp hp
    rcases Iss.mem_ranges_or_lanes.mpr hr with hr | hr
    · obtain ⟨vs, f, hw, hv⟩ := Iss.linkWrites_v hn n hr hp hj
      exact ⟨vs, f, List.mem_append_left _ hw, hv⟩
    · obtain ⟨vs, f, hw, hv⟩ := Iss.linkWrites_v hn n hr hp hj
      exact ⟨vs, f, List.mem_append_right _ hw, hv⟩
  · rintro n rfl hne
    obtain ⟨r, hr⟩ := List.exists_mem_of_ne_nil _ hne
    rcases Iss.mem_ranges_or_lanes.mpr hr with hr | hr
    · exact List.mem_append_left _ (Iss.linkWrites_s hn n hr hj)
    · exact List.mem_append_right _ (Iss.linkWrites_s hn n hr hj)

end

/-! Instructions that trap -/

section
variable {s : State} {k : Ctl} {i : Iss} {p : Nat} (hi : s.iss k = some i)
include hi

/-- `brx` traps where an index lies past its table. -/
theorem execBrx_index {a : Opnd} {t : Fin 56} {n : BitVec 6} (hc : i.check [src1 a, ⟨.s t, [.s], 1, 0⟩] = .ok ()) (hn : n ≠ 0#6)
    (ht : t.val + n.toNat ≤ 56)
    (h : (i.onByAge.find? fun q => decide (n.toNat ≤ ((i.timed false (readRegs [src1 a]) i.g q).g.word a q).toNat)) = some p) :
    ∃ m ∈ i.onByAge, n.toNat ≤ ((i.timed false (readRegs [src1 a]) i.g m).g.word a m).toNat ∧
      (∀ q ∈ i.onByAge, n.toNat ≤ ((i.timed false (readRegs [src1 a]) i.g q).g.word a q).toNat → m ≤ q) ∧
      execBrx k a (.s t) n s = .next (s.settle i (.trap 0x08 0 (w32 m) (some p))) := by
  obtain ⟨m, hm, hbad, hle, hfail⟩ := failAt_filter 0x08 0 h
  refine ⟨m, hm, of_decide_eq_true hbad, fun q hq hb => hle q hq (decide_eq_true hb), ?_⟩
  unfold execBrx
  rw [if_pos (brxTableOk_iff.mpr ⟨hn, ht⟩), List.append_nil]
  exact State.transferOp_pre_error hi (Iss.check_of_append_s (ns := [src1 a]) hc) hfail

/-- `call` in the last slot of an END line traps at the eldest position. -/
theorem execCall_end (hat : s.atEnd i.ci i.ctx i.pc = true) {d : Opnd} {disp : BitVec 20} {rest : List Nat}
    (hc : i.check [dstVS d 2] = .ok ()) (hall : i.allByAge = p :: rest)
    (hr : i.onByAge = [] ∨ targetInRange i.ctx.bounded (slotPc i.pc (slotNum i.pc + disp.toInt)) = true) :
    execCall k d disp s = .next (s.settle i (.trap 0x01 3 0#32 (some p))) := by
  refine State.transferOp_error hi hc rfl ?_
  rw [State.checkTargets_eq, State.endTarget_always hat hall]
  · intro q hq
    rcases hr with hr | hr
    · rw [hr] at hq; cases hq
    · rw [Iss.timed_pc]; exact hr
  · intro _ h; cases h

/-- `exit` in the last slot of an END line traps at the eldest position that stays. -/
theorem execExit_end (hat : s.atEnd i.ci i.ctx i.pc = true) (ht : i.trial = false)
    (h : (i.allByAge.find? fun q => !i.on.contains q) = some p) :
    execExit k s = .next (s.settle i (.trap 0x01 3 0#32 (some p))) :=
  State.transferOp_leaves_error hi (Iss.check_nil ht) rfl (State.endTarget_leaves hat h)

end

end Sys2Proof.Machine

namespace Sys2Proof
open Sys2Proof.Machine

/-- Settles O8: where the checks of its targets pass, a transfer writes its link at every position of the run and moves the run. -/
theorem transferResults : Obligations.TransferResults := by
  unfold Obligations.TransferResults
  intro x F hF s i hi hc hp hallow
  refine ⟨i.linkWrites F.link (i.ranges i.g), i.linkWrites F.link (i.lanes i.g), ?_,
    TransferForm.exec_ok hF hc hi hp (TransferForm.checkTargets_of_allowed hallow)⟩
  rw [← State.iss_k hi]
  exact i.linkWrites_linkOk F.link

/-- Settles O15: the checks of a transfer in their order, each trap at the first position that fails its check. -/
theorem transferTraps : Obligations.TransferTraps := by
  unfold Obligations.TransferTraps
  refine ⟨⟨?_, fun x F s i hF hi hc hp => ⟨fun p h => ?_, fun hr hb hat p h => ?_⟩⟩, fun k s i hi hat => ⟨?_, fun p ht h => ?_⟩⟩
  · rintro k a t n s i p hi hc hn ht T rfl h
    exact execBrx_index hi hc hn ht h
  · exact TransferForm.exec_error hF hc hi hp (State.checkTargets_range h)
  · refine TransferForm.exec_error hF hc hi hp (e := .trap 0x01 7 0#32 (some p)) ?_
    rw [State.checkTargets_eq hr hb]
    exact State.endTarget_target hat h
  · exact fun d disp p rest hc hall hr => execCall_end hi hat hc hall hr
  · exact execExit_end hi hat ht h

end Sys2Proof
end

section
/-!
SUPPORT. Integers of a width (R119), masks of positions (R89), and predicate results (R133, R142, R154, R155, R192): the statement O7.
-/

namespace Sys2Proof.Machine

/-! Integers of a width -/

/-- A w-bit value as an integer is that of its low w bits. -/
theorem asInt_eq {w : Nat} (hw : 0 < w) (hw' : w ≤ 64) (sg : Bool) (x : BitVec 64) :
    asInt sg w x = if sg then (x.setWidth w).toInt else ((x.setWidth w).toNat : Int) := by
  have hpow : 2 ^ w = 2 * 2 ^ (w - 1) := by rw [← Nat.pow_succ']; congr 1; omega
  have hlt : x.toNat % 2 ^ w < 2 ^ w := Nat.mod_lt _ (Nat.two_pow_pos w)
  cases sg with
  | false => simp [asInt, BitVec.toNat_setWidth]
  | true =>
    rw [if_pos rfl, BitVec.toInt_eq_toNat_cond, BitVec.toNat_setWidth]
    simp only [asInt, Bool.true_and, decide_eq_true_eq]
    push_cast
    split_ifs <;> omega

/-- `cmp` of integers is `cmp` of the words they stand for. -/
theorem cmpBit_eq {w : Nat} {ty : Ty} (hw : tyBits ty = w) (cc : Cc) (a b : BitVec 64) :
    cmpBit cc ty a b = cmpSpec cc (tySigned ty) w (a.setWidth w) (b.setWidth w) := by
  have h1 : 0 < w ∧ w ≤ 64 := by rw [← hw, tyBits]; split <;> omega
  simp only [cmpBit, hw, asInt_eq h1.1 h1.2]
  generalize a.setWidth w = x
  generalize b.setWidth w = y
  rw [Bool.eq_iff_iff]
  cases tySigned ty with
  | true => cases cc <;> simp [cmpSpec, BitVec.slt, BitVec.toInt_inj]
  | false => cases cc <;> simp [cmpSpec, BitVec.ult, BitVec.toNat_inj]

theorem cmpAt_eq (cc : Cc) (ty : Ty) (x y : Src) (i : Iss) (p : Nat) :
    cmpBit cc ty (i.g.src ty.wide x p) (i.g.src ty.wide y p) = cmpAt cc ty x y i p := by
  unfold cmpAt
  split
  · rename_i h
    rw [cmpBit_eq (w := 64) (by rw [tyBits, if_pos h]), h, BitVec.setWidth_eq, BitVec.setWidth_eq]
  · rename_i h
    rw [cmpBit_eq (w := 32) (by rw [tyBits, if_neg h]), Bool.eq_false_of_not_eq_true h]

/-! `fcmp` (R192) -/

/-- No comparison with a NaN holds. -/
theorem FVal.lt_of_isNan {a b : FVal} (h : a.isNan = true ∨ b.isNan = true) : a.lt b = false := by
  cases a <;> cases b <;> simp_all [FVal.lt, FVal.isNan]

theorem fcmpBit_eq (cc : Fcc) (a b : FVal) : fcmpBit cc a b = fcmpSpec cc a b := by
  by_cases h : a.isNan = true ∨ b.isNan = true
  · have hn : (a.isNan || b.isNan) = true := by simpa using h
    cases cc <;> simp [fcmpBit, fcmpSpec, hn, FVal.lt_of_isNan h, FVal.lt_of_isNan h.symm]
  · have hn : (a.isNan || b.isNan) = false := by simpa using h
    cases cc <;> simp [fcmpBit, fcmpSpec, hn]

/-! Masks of positions -/

@[simp] theorem getLsbD_maskOf (ps : List Nat) (p : Nat) : (maskOf ps).getLsbD p = decide (p < 64 ∧ p ∈ ps) := by
  have h : ∀ m : BitVec 64, (ps.foldl (fun m k => m ||| BitVec.twoPow 64 k) m).getLsbD p =
      (m.getLsbD p || decide (p < 64 ∧ p ∈ ps)) := by
    induction ps with
    | nil => simp
    | cons k ps ih =>
      intro m
      rw [List.foldl_cons, ih, BitVec.getLsbD_or, BitVec.getLsbD_twoPow, Bool.or_assoc]
      congr 1
      rw [Bool.eq_iff_iff]
      simp only [Bool.or_eq_true, Bool.and_eq_true, decide_eq_true_eq, List.mem_cons]
      grind
  exact (h 0#64).trans (by rw [BitVec.getLsbD_zero, Bool.false_or])

@[simp] theorem getLsbD_maskBits (ps : List (Nat × Bool)) (p : Nat) : (maskBits ps).getLsbD p = decide (p < 64 ∧ (p, true) ∈ ps) := by
  simp [maskBits]

/-- A predicate operand's mask holds its bit at each of the 64 positions. -/
theorem getLsbD_pmask_predNum (i : Iss) (o : Opnd) {p : Nat} (hp : p < 64) : (i.g.pmask (predNum o)).getLsbD p = predAt o i p := by
  cases o with
  | p n =>
    have hn : n.val ≠ noPred := by have := n.isLt; unfold noPred; omega
    by_cases h7 : n.val = 7
    · simp only [Group.pmask, predNum, predAt, h7, if_true, BitVec.getLsbD_allOnes, hp, decide_true, beq_self_eq_true, Bool.true_or]
    · simp [Group.pmask, predNum, predAt, h7, hn]
  | _ => simp [Group.pmask, predNum, predAt, noPred]

/-! Predicate writes -/

section
variable {i : Iss} {rs : List Rec} {n : Nat} {bit : Nat → Bool}

/-- The predicate write of some records of the run: a bit at each of their guarded positions. -/
theorem Iss.mem_predWrites {w : RegWrite} (hw : w ∈ i.predWrites n bit rs) : i.k.nwb = false ∧ ∃ m b, w = .p n m b ∧
    ∀ p, m.getLsbD p = true → (∃ r ∈ rs, p ∈ i.onIn r) ∧ b.getLsbD p = bit p := by
  unfold Iss.predWrites at hw
  dsimp only at hw
  split at hw
  · cases hw
  · rename_i h
    obtain rfl := List.mem_singleton.mp hw
    refine ⟨by simp_all, _, _, rfl, fun p hp => ?_⟩
    rw [getLsbD_maskOf, decide_eq_true_eq, List.mem_flatMap] at hp
    obtain ⟨hlt, r, hr, hp⟩ := hp
    refine ⟨⟨r, hr, hp⟩, ?_⟩
    have hmem : p ∈ rs.flatMap i.onIn := List.mem_flatMap.mpr ⟨r, hr, hp⟩
    rw [getLsbD_maskBits, Bool.eq_iff_iff, decide_eq_true_eq, List.mem_map]
    exact ⟨fun ⟨_, q, _, hq⟩ => by rw [Prod.mk.injEq] at hq; exact hq.1 ▸ hq.2, fun hb => ⟨hlt, p, hmem, by rw [hb]⟩⟩

/-- Where results are written, each guarded position of the records is reached. -/
theorem Iss.predWrites_reach (hn : i.k.nwb = false) {r : Rec} (hr : r ∈ rs) {p : Nat} (hp : p ∈ i.onIn r) (hlt : p < 64) :
    ∃ m b, RegWrite.p n m b ∈ i.predWrites n bit rs ∧ m.getLsbD p = true := by
  have hmem : p ∈ rs.flatMap i.onIn := List.mem_flatMap.mpr ⟨r, hr, hp⟩
  have hne : (rs.flatMap i.onIn).isEmpty = false := by
    rw [List.isEmpty_eq_false_iff]; exact List.ne_nil_of_mem hmem
  refine ⟨maskOf (rs.flatMap i.onIn), maskBits ((rs.flatMap i.onIn).map fun k => (k, bit k)), ?_, by simp [hlt, hmem]⟩
  simp [Iss.predWrites, hne, hn]

end

/-- The writes of the range records and of the lane records of a run are those of the form. -/
theorem PredForm.writesOk_predWrites (F : PredForm) {i : Iss} (hk : i.k = F.k) {bit : Nat → Bool}
    (hbit : ∀ p ∈ i.onByAge, bit p = F.bit (F.times i p) p) :
    F.writesOk i (i.predWrites (predNum F.d) bit (i.ranges i.g) ++ i.predWrites (predNum F.d) bit (i.lanes i.g)) := by
  have honly : ∀ rs, (∀ r ∈ rs, r ∈ i.run) → ∀ w ∈ i.predWrites (predNum F.d) bit rs, ∃ m b, w = .p (predNum F.d) m b ∧
      F.k.nwb = false ∧ ∀ p, m.getLsbD p = true → p ∈ i.onByAge ∧ b.getLsbD p = F.bit (F.times i p) p := fun rs hrs w hw => by
    obtain ⟨hn, m, b, rfl, hb⟩ := Iss.mem_predWrites hw
    refine ⟨m, b, rfl, hk ▸ hn, fun p hp => ?_⟩
    obtain ⟨⟨r, hr, hon⟩, hval⟩ := hb p hp
    have hmem : p ∈ i.onByAge := Iss.mem_onByAge.mpr ⟨r, hrs r hr, hon⟩
    exact ⟨hmem, hval.trans (hbit p hmem)⟩
  refine ⟨fun w hw => ?_, fun hn p hp hlt => ?_⟩
  · rcases List.mem_append.mp hw with hw | hw
    · exact honly _ (fun r hr => Iss.mem_ranges_or_lanes.mp (.inl hr)) w hw
    · exact honly _ (fun r hr => Iss.mem_ranges_or_lanes.mp (.inr hr)) w hw
  · obtain ⟨r, hr, hp⟩ := Iss.mem_onByAge.mp hp
    rw [← hk] at hn
    rcases Iss.mem_ranges_or_lanes.mpr hr with hr | hr
    · obtain ⟨m, b, hw, hm⟩ := Iss.predWrites_reach (n := predNum F.d) (bit := bit) hn hr hp hlt
      exact ⟨m, b, List.mem_append_left _ hw, hm⟩
    · obtain ⟨m, b, hw, hm⟩ := Iss.predWrites_reach (n := predNum F.d) (bit := bit) hn hr hp hlt
      exact ⟨m, b, List.mem_append_right _ hw, hm⟩

/-! Predicate instructions -/

/-- A predicate instruction whose bit is the form's at each of the 64 positions completes. -/
theorem PredForm.completes_of_predWith (F : PredForm) {x : Instr} {bit : Iss → Nat → Bool}
    (hexec : ∀ s, exec x s = s.predWith F.coll F.k F.ns (predNum F.d) F.lr F.ll bit)
    (hbit : ∀ i p, p < 64 → bit i p = F.bit i p) : F.Completes x := by
  intro s i hi hc
  refine ⟨_, _, F.writesOk_predWrites (State.iss_k hi)
    fun p hp => hbit (F.times i p) p (Iss.lt_of_mem_on (Iss.mem_onByAge_iff.mp hp).2), ?_⟩
  rw [hexec]
  unfold State.predWith
  refine State.issue_ok hi ?_ (Iss.check_ok hc).2.2.2
  simp only [hc]
  rfl

/-- The votes of R154: the participants stand below 64. -/
theorem any_on_pmask (i : Iss) (a : Opnd) : (i.on.any fun q => (i.g.pmask (predNum a)).getLsbD q) = i.on.any (predAt a i) := by
  rw [Bool.eq_iff_iff, List.any_eq_true, List.any_eq_true]
  exact exists_congr fun q => and_congr_right fun hq => by rw [getLsbD_pmask_predNum i a (Iss.lt_of_mem_on hq)]

theorem all_on_pmask (i : Iss) (a : Opnd) : (i.on.all fun q => (i.g.pmask (predNum a)).getLsbD q) = i.on.all (predAt a i) := by
  rw [Bool.eq_iff_iff, List.all_eq_true, List.all_eq_true]
  exact forall₂_congr fun q hq => by rw [getLsbD_pmask_predNum i a (Iss.lt_of_mem_on hq)]

/-- The head of an ascending list is its lowest element. -/
theorem head?_eq_some_iff_le {l : List Nat} (hl : l.Pairwise (· ≤ ·)) (p : Nat) :
    l.head? = some p ↔ p ∈ l ∧ ∀ q ∈ l, p ≤ q := by
  cases l with
  | nil => simp
  | cons a l =>
    obtain ⟨ha, -⟩ := List.pairwise_cons.mp hl
    constructor
    · rintro h
      cases h
      exact ⟨by simp, List.forall_mem_cons.mpr ⟨le_rfl, ha⟩⟩
    · rintro ⟨hp, hle⟩
      have hpa := hle a (by simp)
      rcases List.mem_cons.mp hp with rfl | hp
      · rfl
      · have := ha p hp
        simp; omega

/-- `elect` picks the lowest participant (R155). -/
theorem elect_eq (i : Iss) (p : Nat) : (i.on.head? == some p) = (i.isPart p && i.on.all fun q => decide (p ≤ q)) := by
  rw [Bool.eq_iff_iff, beq_iff_eq, head?_eq_some_iff_le Iss.on_sorted]
  simp [Iss.isPart]

/-- A predicate source, negated or not, at one of the 64 positions. -/
theorem Iss.pbit_eq (i : Iss) (o : Opnd) (neg : Bool) {p : Nat} (hp : p < 64) : i.pbit o neg p = (predAt o i p ^^ neg) := by
  simp [Iss.pbit, getLsbD_pmask_predNum i o hp]

/-- `pmov` to a predicate copies a predicate, or tests a register. -/
theorem execPmov_completes {k : Ctl} {d a : Opnd} {F : PredForm} (h : predForm (.pmov k d a) = some F) : F.Completes (.pmov k d a) := by
  unfold predForm at h
  dsimp only at h
  split_ifs at h with hd ha
  · obtain rfl := Option.some.inj h
    refine PredForm.completes_of_predWith _ (bit := fun i p => i.pbit a false p) (fun s => ?_)
      fun i p hp => by simp only [Iss.pbit_eq _ _ _ hp, Bool.xor_false]
    change execPmov k d a s = _
    unfold execPmov
    rw [hd, ha]
    rfl
  · obtain rfl := Option.some.inj h
    refine PredForm.completes_of_predWith _ (bit := fun i p => i.g.word a p != 0#32) (fun s => ?_) fun _ _ _ => rfl
    change execPmov k d a s = _
    unfold execPmov
    rw [hd, Bool.eq_false_of_not_eq_true ha]
    rfl

theorem predForm_completes {x : Instr} {F : PredForm} (h : predForm x = some F) : F.Completes x := by
  unfold predForm at h
  split at h
  case h_1 k cc ty d a b => -- cmp
    obtain rfl := Option.some.inj h
    exact PredForm.completes_of_predWith _ (bit := fun i p => cmpBit cc ty (i.g.src ty.wide (.op a) p) (i.g.src ty.wide (.op b) p))
      (fun _ => rfl) fun i p _ => cmpAt_eq ..
  case h_2 k cc ty d a m => -- cmpI
    obtain rfl := Option.some.inj h
    exact PredForm.completes_of_predWith _ (bit := fun i p => cmpBit cc ty (i.g.src ty.wide (.op a) p) (i.g.src ty.wide (immSrc ty m) p))
      (fun _ => rfl) fun i p _ => cmpAt_eq ..
  case h_3 k cc ty d a b => -- fcmp
    obtain rfl := Option.some.inj h
    exact PredForm.completes_of_predWith _
      (bit := fun i p => fcmpBit cc (tyVal ty (i.g.word a p).toNat) (tyVal ty (i.g.word b p).toNat)) (fun _ => rfl)
      fun i p _ => fcmpBit_eq ..
  case h_4 k d a b na nb => -- pand
    obtain rfl := Option.some.inj h
    exact PredForm.completes_of_predWith _ (bit := fun i p => i.pbit a na p && i.pbit b nb p) (fun _ => rfl)
      fun i p hp => by simp only [Iss.pbit_eq _ _ _ hp]
  case h_5 k d a b na nb => -- por
    obtain rfl := Option.some.inj h
    exact PredForm.completes_of_predWith _ (bit := fun i p => i.pbit a na p || i.pbit b nb p) (fun _ => rfl)
      fun i p hp => by simp only [Iss.pbit_eq _ _ _ hp]
  case h_6 k d a b na nb => -- pxor
    obtain rfl := Option.some.inj h
    exact PredForm.completes_of_predWith _ (bit := fun i p => i.pbit a na p != i.pbit b nb p) (fun _ => rfl)
      fun i p hp => by simp only [Iss.pbit_eq _ _ _ hp, Bool.bne_eq_xor]
  case h_7 k d a => -- pnot
    obtain rfl := Option.some.inj h
    exact PredForm.completes_of_predWith _ (bit := fun i p => i.pbit a true p) (fun _ => rfl)
      fun i p hp => by simp only [Iss.pbit_eq _ _ _ hp, Bool.xor_true]
  case h_8 k d a => exact execPmov_completes h
  case h_9 k d a => -- vote any
    obtain rfl := Option.some.inj h
    exact PredForm.completes_of_predWith _ (bit := fun i _ => i.on.any fun q => (i.g.pmask (predNum a)).getLsbD q) (fun _ => rfl)
      fun i p _ => any_on_pmask i a
  case h_10 k d a => -- vote all
    obtain rfl := Option.some.inj h
    exact PredForm.completes_of_predWith _ (bit := fun i _ => i.on.all fun q => (i.g.pmask (predNum a)).getLsbD q) (fun _ => rfl)
      fun i p _ => all_on_pmask i a
  case h_11 k d => -- elect
    obtain rfl := Option.some.inj h
    exact PredForm.completes_of_predWith _ (bit := fun i p => i.on.head? == some p) (fun _ => rfl) fun i p _ => elect_eq i p
  case h_12 => cases h

end Sys2Proof.Machine

namespace Sys2Proof
open Sys2Proof.Machine

/-- Settles O7: a predicate instruction writes its bit at the guarded positions of the run's records, and the model's bit is the
form's at each position that a guard can reach. -/
theorem predicateResults : Obligations.PredicateResults := by
  unfold Obligations.PredicateResults
  exact fun x F h => predForm_completes h

end Sys2Proof
end

section
/-!
SUPPORT. When the results of a value instruction of a collective are delivered, and the values of the collectives (R152 to R157): the
statement O3.
-/

namespace Sys2Proof.Machine

/-! Results of a value instruction -/

section
variable (F : ValueForm) (i : Iss) (val : Iss → Nat → BitVec 64) (cell : Iss → Rec → Cell) (uni : Iss → Rec → Bool)

/-- What the model plans for a range record of the run at its pass. -/
def ValueForm.planAt (t : Times) (r : Rec) : Plan :=
  i.plan F.d F.words (fun p => word (val (t p) p)) r (cellAt (cell (t r.b)) (t r.b) r)

/-- The model gives a record a U result: of a lane record it says so, a range record takes U forms. -/
def ValueForm.GivesU (t : Times) (r x : Rec) : Prop :=
  if r.lane then uni (t r.b) x = true
  else ∃ fs, i.plan F.d F.words (fun p => word (val (t p) p)) r (cell (t r.b) x) = .forms fs ∧ ∀ f ∈ fs, f.cls = .u

end

section
variable {F : ValueForm} {i : Iss} {val : Iss → Nat → BitVec 64} {cell : Iss → Rec → Cell} {uni : Iss → Rec → Bool} {t : Times} {r x : Rec}

/-- A range record that is given a U result does not expand. -/
theorem ValueForm.GivesU.planAt (h : F.GivesU i val cell uni t r x) (hl : r.lane = false) (hx : (t r.b).recNow r = some x) :
    ∃ fs, F.planAt i val cell t r = .forms fs ∧ ∀ f ∈ fs, f.cls = .u := by
  rw [ValueForm.GivesU, hl, if_neg (by simp)] at h
  simpa only [ValueForm.planAt, cellAt, hx] using h

/-- A record that is given a U result does not fail an s destination. -/
theorem ValueForm.GivesU.not_sFails (h : F.GivesU i val cell uni t r x) (hx : (t r.b).recNow r = some x)
    {c : Rec → Cell} (hc : c r = cellAt (cell (t r.b)) (t r.b) r) :
    i.sFails F.words (fun p => word (val (t p) p)) F.d c (uniAt uni t) r = false := by
  unfold Iss.sFails
  by_cases ho : (i.onIn r).isEmpty = true
  · rw [if_pos ho]
  · rw [if_neg ho, hc]
    cases hl : r.lane with
    | true =>
      rw [ValueForm.GivesU, if_pos hl] at h
      simp [uniAt, hx, h]
    | false =>
      obtain ⟨fs, hp, hu⟩ := h.planAt hl hx
      rw [ValueForm.planAt] at hp
      simpa [hp] using hu

end

/-- A value instruction delivers the model's value where its cells serve every acting range record and a record whose result is said
to be U is given one. -/
theorem ValueForm.valueWith_delivers {F : ValueForm} {s : State} {i : Iss} {val : Iss → Nat → BitVec 64} {cell : Iss → Rec → Cell}
    {uni : Iss → Rec → Bool} (hi : s.iss F.k = some i) (hc : i.check F.ns = .ok ())
    (hv : ∀ t, (fun p => word (val (t p) p)) = F.val i t) (hsr : ∀ t, F.sr i t = i.g.sr) (hcell : ∀ j x, cell j x ≠ .later)
    (hu : ∀ n, F.d = .s n → ∀ t, ∀ r ∈ i.run, i.onIn r ≠ [] → ∀ x, F.uni i t r x = true → F.GivesU i val cell uni t r x)
    (hs : F.sOk i) :
    ∃ v, F.Delivers i v ∧ s.valueWith F.coll F.k F.ns F.d F.words F.lr F.ll val cell uni = .next (s.finishValues i F.ns F.lr F.ll v) := by
  set first := F.expandsFirst i val cell with hfirst
  set gc := i.g.expand first with hgc
  have hsel : ∀ r, first r = true → i.inRun r = true := fun r hr => by
    simp only [hfirst, ValueForm.expandsFirst, Bool.and_eq_true] at hr
    exact hr.1.2
  -- for an s destination each acting record is given a U result, whichever records expand
  have hgives : ∀ n, F.d = .s n → ∀ sel : Rec → Bool, (∀ r, sel r = true → i.inRun r = true) → ∀ r ∈ i.run, i.onIn r ≠ [] →
      ∃ x, (F.times i (i.g.expand sel) r.b).recNow r = some x ∧ F.GivesU i val cell uni (F.times i (i.g.expand sel)) r x :=
    fun n hd sel hsel r hr ho => by
      obtain ⟨x, hx, hux⟩ := hs.resolve_left (fun h => h n hd) sel hsel r hr ho
      exact ⟨x, hx, hu n hd _ r hr ho x hux⟩
  have hstays : ∀ n, F.d = .s n → ∀ r ∈ i.run, i.onIn r ≠ [] → first r = false := fun n hd r hr ho => by
    obtain ⟨x, hx, hg⟩ := hgives n hd (fun _ => false) (by simp) r hr ho
    rw [Group.expand_none] at hx hg
    cases hl : r.lane with
    | true => simp [hfirst, ValueForm.expandsFirst, hl]
    | false =>
      obtain ⟨fs, hp, -⟩ := hg.planAt hl hx
      rw [ValueForm.planAt] at hp
      simp [hfirst, ValueForm.expandsFirst, hp]
  have hlater : ∀ (t : Times) r, cellAt (cell (t r.b)) (t r.b) r ≠ .later := fun t r => by
    unfold cellAt
    split
    · exact hcell _ _
    · simp
  obtain ⟨v, hval, hvsr, hd⟩ := F.values_ok (State.iss_k hi).symm gc
    (fun r => if first r then .x else cellAt (cell (F.times i gc r.b)) (F.times i gc r.b) r) (uniAt uni (F.times i gc))
    (fun r _ _ _ => by
      split
      · simp
      · exact hlater _ _)
    (by
      by_cases hd : ∃ n, F.d = .s n
      · obtain ⟨n, hd⟩ := hd
        refine .inr fun r hr ho => ?_
        obtain ⟨x, hx, hg⟩ := hgives n hd first hsel r hr ho
        rw [← hv]
        exact hg.not_sFails hx (by simp [hstays n hd r hr ho, hgc])
      · exact .inl fun n hn => hd ⟨n, hn⟩)
    ⟨first, hsel, rfl⟩
  refine ⟨_, hd, ?_⟩
  have htimed : i.timedValues F.coll (readRegs F.ns) F.d F.words (fun t p => word (val (t p) p)) (fun t r x => cell (t r.b) x)
      (fun t r x => uni (t r.b) x) = .ok { v with gc := gc } := by
    rw [← hv] at hval
    exact congrArg (Except.map fun v => { v with gc := gc }) hval
  have hg : ({ v.g with sr := F.sr i (F.times i gc) } : Group) = v.g := by rw [hsr, ← hvsr]
  unfold State.valueWith
  refine State.issue_ok hi ?_ (Iss.check_ok hc).2.2.2
  simp only [hc, htimed, hg]

/-- An instruction of this shape completes where the words that its destination takes are the form's. -/
theorem ValueForm.completes_of_valueWith (F : ValueForm) {x : Instr} {val : Iss → Nat → BitVec 64} {cell : Iss → Rec → Cell}
    {uni : Iss → Rec → Bool} (hexec : ∀ s, exec x s = s.valueWith F.coll F.k F.ns F.d F.words F.lr F.ll val cell uni)
    (hv : ∀ i t p j, j < F.words → word (val (t p) p) j = F.val i t p j) (hw : 0 < F.words) (hsr : ∀ i t, F.sr i t = i.g.sr)
    (hcell : ∀ j x, cell j x ≠ .later)
    (hu : ∀ n, F.d = .s n → ∀ (i : Iss) (t : Times) r x, i.onIn r ≠ [] → F.uni i t r x = true → F.GivesU i val cell uni t r x) :
    F.Completes x := by
  intro s i hi hc hs
  obtain ⟨v, hd, hfin⟩ := ValueForm.valueWith_delivers (F := { F with val := fun _ t p j => word (val (t p) p) j }) hi hc
    (fun _ => rfl) (hsr i) hcell (fun n hd t r _ ho x => hu n hd i t r x ho) hs
  exact ⟨v, hd.congr rfl hw (hv i), (hexec s).trans hfin⟩

/-! Forms of equal values (R123) -/

/-- A search over numbers from 0 ends at once where 0 meets it. -/
theorem find?_map_range_zero {α : Type} {g : Nat → α} {q : α → Bool} {m : Nat} (hm : 0 < m) (h : q (g 0) = true) :
    ((List.range m).map g).find? q = some (g 0) := by
  obtain ⟨n, rfl⟩ := Nat.exists_eq_succ_of_ne_zero hm.ne'
  rw [List.range_succ_eq_map, List.map_cons, List.find?_cons_of_pos h]

/-- Values that are all the same fit a U form: they differ by 0, so 0 is the first c1 that is tried, and it fits. -/
theorem fitForm_of_same {c : Word} {vs : List (Nat × Word)} (h : ∀ p ∈ vs, p.2 = c) : ∃ f, fitForm vs = some f ∧ f.cls = .u := by
  match vs, h with
  | [], _ => exact ⟨_, rfl, rfl⟩
  | [(_, v)], _ => exact ⟨_, rfl, rfl⟩
  | (k1, v1) :: (k2, v2) :: rest, h =>
    obtain rfl : v1 = c := h (k1, v1) (by simp)
    obtain rfl : v2 = v1 := h (k2, v2) (by simp)
    have hfit : fits (v2 - 0#32 * w32 k1) 0#32 ((k1, v2) :: (k2, v2) :: rest) = true :=
      List.all_eq_true.mpr fun p hp => by simp [h p hp]
    refine ⟨mkForm (v2 - 0#32 * w32 k1) 0#32, ?_, rfl⟩
    simp only [fitForm, BitVec.sub_self, BitVec.toNat_zero, Nat.zero_mod, Nat.zero_div, bne_self_eq_false, Bool.false_eq_true, if_false]
    rw [find?_map_range_zero (Nat.two_pow_pos _) (by simpa [w32] using hfit)]
    simp [w32]

/-- Where a range record has one value at all its positions, the fit rule gives U forms. -/
theorem fitWords_of_same {val : Nat → Nat → Word} {words : Nat} {r : Rec}
    (h : ∀ p ∈ r.positions, ∀ j < words, val p j = val r.b j) :
    ∃ fs, fitWords val words r [] = some fs ∧ ∀ f ∈ fs, f.cls = .u := by
  have hper : ∀ j : Nat, ∃ f, j < words → fitForm (wordsAt val r.positions j) = some f ∧ f.cls = .u := fun j => by
    by_cases hj : j < words
    · obtain ⟨f, hf⟩ := fitForm_of_same (c := val r.b j) (vs := wordsAt val r.positions j) fun p hp => by
        obtain ⟨hp, hv⟩ := mem_wordsAt.mp hp
        exact hv.trans (h _ hp j hj)
      exact ⟨f, fun _ => hf⟩
    · exact ⟨Form.dead, fun h => absurd h hj⟩
  choose g hg using hper
  have hmap : (List.range words).filterMap (fun j => fitForm (wordsAt val r.positions j)) = (List.range words).map g := by
    rw [← List.filterMap_eq_map]
    exact List.filterMap_congr fun j hj => (hg j (List.mem_range.mp hj)).1
  refine ⟨(List.range words).map g, ?_, fun f hf => ?_⟩
  · simp [fitWords, hmap]
  · obtain ⟨j, hj, rfl⟩ := List.mem_map.mp hf
    exact (hg j (List.mem_range.mp hj)).2

/-! U results -/

section
variable {F : ValueForm} {i : Iss} {val : Iss → Nat → BitVec 64} {cell : Iss → Rec → Cell} {uni : Iss → Rec → Bool} {t : Times} {r x : Rec}
  {n : Fin 56} (hd : F.d = .s n) (ho : i.onIn r ≠ [])
include hd ho

/-- An acting record with a uniform cell and a uniform lane result is given a U result. -/
theorem ValueForm.givesU_of_uniform {y : BitVec 64} (hcell : cell (t r.b) x = .form (uniformForms y F.words))
    (huni : uni (t r.b) x = true) : F.GivesU i val cell uni t r x := by
  unfold ValueForm.GivesU
  split
  · exact huni
  · have hnorm := uniformForms_norm y F.words
    refine ⟨(uniformForms y F.words).map Form.norm, ?_, by simpa using hnorm⟩
    simp [hcell, Iss.plan, ho, Iss.partialPlan, Iss.vDst, hd]

/-- An acting range record that takes the fit rule's form of one value is given a U result. -/
theorem ValueForm.givesU_of_fit (hl : r.lane = false) (hcell : cell (t r.b) x = .fit [])
    (hsame : ∀ p ∈ r.positions, ∀ j < F.words, word (val (t p) p) j = word (val (t r.b) r.b) j) :
    F.GivesU i val cell uni t r x := by
  obtain ⟨fs, hfit, hu⟩ := fitWords_of_same hsame
  rw [ValueForm.GivesU, if_neg (by simp [hl])]
  exact ⟨fs, by simp [hcell, Iss.plan, hfit, ho, Iss.partialPlan, Iss.vDst, hd], hu⟩

end

/-! Values of the collectives -/

theorem getLsbD_word (x : BitVec 64) {j b : Nat} (hb : b < 32) : (word x j).getLsbD b = x.getLsbD (32 * j + b) := by
  simp [word, hb]

theorem word_zero (x : BitVec 64) : word x 0 = x.setWidth 32 := by simp [word]

/-- A ballot has the bit of each participant below its width whose predicate is true (R154). -/
theorem word_ballot (i : Iss) (a : Opnd) {words j : Nat} (hj : j < words) : word (ballot i a (32 * words)) j =
    BitVec.ofFnLE fun b : Fin 32 => i.isPart (32 * j + b.val) && predAt a i (32 * j + b.val) := by
  refine BitVec.eq_of_getLsbD_eq fun b hb => ?_
  rw [getLsbD_word _ hb, BitVec.getLsbD_ofFnLE, dif_pos hb, ballot, getLsbD_maskOf, Bool.eq_iff_iff]
  have hlt : 32 * j + b < 32 * words := by omega
  simp only [decide_eq_true_eq, List.mem_filter, Bool.and_eq_true, Iss.isPart, List.contains_iff_mem]
  constructor
  · rintro ⟨h64, hon, -, hm⟩
    exact ⟨hon, getLsbD_pmask_predNum i a h64 ▸ hm⟩
  · rintro ⟨hon, hp⟩
    exact ⟨Iss.lt_of_mem_on hon, hon, hlt, (getLsbD_pmask_predNum i a (Iss.lt_of_mem_on hon)).trans hp⟩

/-- `shfl` takes the value of the position that its mode selects (R153). -/
theorem word_shflValue (i : Iss) (ty : Ty) (a b : Opnd) (mode : BitVec 2) (p j : Nat) :
    word (shflValue i i.g ty.wide a b mode.toNat p) j = shflSpec ty a b mode i p j := by
  have htake : ∀ q : Nat, (if q < i.g.width ∧ i.on.contains q = true then i.g.src ty.wide (.op a) q else i.g.src ty.wide (.op a) p) =
      i.g.src ty.wide (.op a) (if 0 ≤ (q : Int) ∧ (q : Int) < i.g.width ∧ i.isPart (q : Int).toNat = true then (q : Int).toNat else p) :=
    fun q => by
      simp only [Iss.isPart, Int.toNat_natCast, Int.natCast_nonneg, true_and, Nat.cast_lt]
      split_ifs <;> rfl
  have hmode : mode = 0#2 ∨ mode = 1#2 ∨ mode = 2#2 ∨ mode = 3#2 := by revert mode; decide
  unfold shflValue shflSpec
  rcases hmode with rfl | rfl | rfl | rfl
  · exact congrArg (word · j) (htake _)
  · by_cases hu : (i.g.word b p).toNat ≤ p
    · have hsub : (p : Int) - (i.g.word b p).toNat = ((p - (i.g.word b p).toNat : Nat) : Int) := by omega
      simp only [shflFrom, BitVec.toNat_ofNat, hu, if_true]
      rw [hsub]
      exact congrArg (word · j) (htake _)
    · have hneg : ¬ 0 ≤ (p : Int) - (i.g.word b p).toNat := by omega
      simp [shflFrom, hu]
  · exact congrArg (word · j) (htake _)
  · exact congrArg (word · j) (htake _)

/-- One step of a reduction is one combination of the low words (R156). -/
theorem redStep_setWidth {ty : Ty} (hw : ty.wide = false) (op : RedOp) (x y : BitVec 64) :
    (redStep op ty x y).setWidth 32 = combine op (tySigned ty) (x.setWidth 32) (y.setWidth 32) := by
  have hle : decide (intOf ty x ≤ intOf ty y) =
      if tySigned ty then (x.setWidth 32).sle (y.setWidth 32) else (x.setWidth 32).ule (y.setWidth 32) := by
    rw [intOf, intOf, tyBits, hw, if_neg (by simp), asInt_eq (by decide) (by decide), asInt_eq (by decide) (by decide)]
    cases tySigned ty <;> simp only [BitVec.sle, BitVec.ule, Nat.cast_le, if_true, if_false, Bool.false_eq_true]
  cases op with
  | add => exact BitVec.setWidth_add _ _ (by decide)
  | min => simp only [redStep, valMin, combine, opMin, ← hle, decide_eq_true_eq]; split <;> rfl
  | max => simp only [redStep, valMax, combine, opMax, ← hle, decide_eq_true_eq]; split <;> rfl
  | and => exact BitVec.setWidth_and
  | or => exact BitVec.setWidth_or
  | xor => exact BitVec.setWidth_xor

theorem redUnit_setWidth (op : RedOp) (ty : Ty) : (redUnit op ty).setWidth 32 = neutral op (tySigned ty) := by
  cases op <;> cases h : tySigned ty <;> simp [redUnit, neutral, h]

/-- A reduction over some positions combines their words (R156, R157). -/
theorem word_reduceOver {ty : Ty} (hw : ty.wide = false) (op : RedOp) (g : Group) (a : Opnd) (ps : List Nat) :
    word (reduceOver g op ty a ps) 0 = combineAll op (tySigned ty) g a ps := by
  rw [word_zero, reduceOver, combineAll, ← redUnit_setWidth op ty]
  generalize redUnit op ty = x
  induction ps generalizing x with
  | nil => rfl
  | cons p ps ih =>
    rw [List.foldl_cons, List.foldl_cons, ih, redStep_setWidth hw]
    simp [Group.src]

/-! The collectives -/

section
variable {k : Ctl} {F : ValueForm} {d a b : Opnd} {ty : Ty}

/-- Two classes of which none is D have no worse class D. -/
theorem Cls.worse_ne_d {x y : Cls} (hx : x ≠ .d) (hy : y ≠ .d) : x.worse y ≠ .d := by
  cases x <;> cases y <;> simp_all [Cls.worse]

theorem tyWords_pos (ty : Ty) : 0 < tyWords ty := by unfold tyWords; split <;> decide

/-- `shfl` completes (R153). -/
theorem shfl_completes {mode : BitVec 2} (h : collective (.shfl k ty d a b mode) = some F) : F.Completes (.shfl k ty d a b mode) := by
  obtain rfl := Option.some.inj h
  refine ValueForm.completes_of_valueWith _ (val := fun i p => shflValue i i.g ty.wide a b mode.toNat p)
    (cell := fun i r => if (i.worst ty.wide [.op a] r).worse (i.worst false [.op b] r) == .d then .skip else .fit [])
    (uni := fun _ _ => false) (fun _ => rfl) (fun i t p j _ => word_shflValue (t p) ty a b mode p j) (tyWords_pos ty)
    (fun _ _ => rfl) (fun j x => by split <;> simp) fun n hd i t r x ho hu => ?_
  simp only [sameIn, Bool.and_eq_true, Bool.not_eq_true', bne_iff_ne, List.all_eq_true, beq_iff_eq, List.mem_range] at hu
  obtain ⟨⟨⟨hl, hsame⟩, ha⟩, hb⟩ := hu
  refine ValueForm.givesU_of_fit hd ho hl ?_ fun p hp j hj => ?_
  · have hd := Cls.worse_ne_d ha hb
    simp only [beq_iff_eq, hd, if_false]
  · rw [word_shflValue, word_shflValue]
    exact hsame p hp j hj

/-- A vote that takes a ballot of some words completes (R154). -/
theorem ballot_completes {m : VoteMode} {words : Nat} {val : Iss → Nat → Nat → Word} (hw : 0 < words)
    (hval : ∀ i p j, j < words → word (ballot i a (32 * words)) j = val i p j)
    (hexec : ∀ s, exec (.vote k m d a) s = s.valueWith true k [dstVS d words, predS a] d words 3 3
      (fun i _ => ballot i a (32 * words)) (fun i _ => .form (uniformForms (ballot i a (32 * words)) words)) (fun _ _ => true)) :
    (collForm k [dstVS d words, predS a] d words [] val).Completes (.vote k m d a) :=
  ValueForm.completes_of_valueWith _ hexec (fun _ t p j hj => hval (t p) p j hj) hw (fun _ _ => rfl) (fun _ _ => by simp)
    fun _ hd _ _ _ _ ho _ => ValueForm.givesU_of_uniform hd ho rfl rfl

theorem vote_completes {m : VoteMode} (h : collective (.vote k m d a) = some F) : F.Completes (.vote k m d a) := by
  cases m with
  | ballot32 =>
    obtain rfl := Option.some.inj h
    refine ballot_completes (by decide) (fun i p j hj => ?_) fun _ => rfl
    rw [word_ballot i a hj]
    obtain rfl : j = 0 := by omega
    simp
  | ballot64 =>
    obtain rfl := Option.some.inj h
    exact ballot_completes (by decide) (fun i p j hj => word_ballot i a hj) fun _ => rfl
  | any => cases h
  | all => cases h

/-- `gred` completes (R156). -/
theorem gred_completes {op : RedOp} (h : collective (.gred k op ty d a) = some F) : F.Completes (.gred k op ty d a) := by
  unfold collective at h
  dsimp only at h
  split_ifs at h with hwide
  obtain rfl := Option.some.inj h
  have hty : ty.wide = false := by simpa using hwide
  refine ValueForm.completes_of_valueWith _ (val := fun i _ => reduceOver i.g op ty a i.on)
    (cell := fun i r => if i.worst false [.op a] r == .d then .skip else .form (uniformForms (reduceOver i.g op ty a i.on) 1))
    (uni := fun _ _ => true) (fun _ => rfl) (fun i t p j hj => ?_) Nat.one_pos (fun _ _ => rfl) (fun j x => by split <;> simp)
    fun n hd i t r x ho hu => ?_
  · obtain rfl := Nat.lt_one_iff.mp hj
    exact word_reduceOver hty op _ a _
  · have hd' : (t r.b).worst false [.op a] x ≠ .d := by simpa [collForm, ownCls] using hu
    exact ValueForm.givesU_of_uniform hd ho (by simp only [beq_iff_eq, hd', if_false]; rfl) rfl

/-- `gscan` completes (R157). -/
theorem gscan_completes {op : RedOp} {excl : Bool} (h : collective (.gscan k op ty excl d a) = some F) :
    F.Completes (.gscan k op ty excl d a) := by
  unfold collective at h
  dsimp only at h
  split_ifs at h with hwide
  obtain rfl := Option.some.inj h
  have hty : ty.wide = false := by simpa using hwide
  refine ValueForm.completes_of_valueWith _
    (val := fun i p => reduceOver i.g op ty a (i.on.filter fun j => if excl then decide (j < p) else decide (j ≤ p)))
    (cell := fun _ _ => .x) (uni := fun _ _ => false) (fun _ => rfl) (fun i t p j hj => ?_) Nat.one_pos (fun _ _ => rfl)
    (fun _ _ => by simp) fun n hd i t r x ho hu => by cases hu
  obtain rfl := Nat.lt_one_iff.mp hj
  rw [word_reduceOver hty]
  refine congrArg (combineAll op (tySigned ty) _ a) (List.filter_congr fun q _ => ?_)
  cases excl with
  | true => simp
  | false => simp [Nat.le_iff_lt_or_eq, beq_eq_decide]

end

end Sys2Proof.Machine

namespace Sys2Proof
open Sys2Proof.Machine

/-- Settles O3: the model's value at a position is the form's over the participants, and a record whose result the form calls U takes
U forms. -/
theorem collectiveResults : Obligations.CollectiveResults := by
  unfold Obligations.CollectiveResults
  intro x F h
  cases x with
  | shfl => exact shfl_completes h
  | vote => exact vote_completes h
  | gred => exact gred_completes h
  | gscan => exact gscan_completes h
  | _ => cases h

end Sys2Proof
end

section
/-!
SUPPORT. Float instructions (R184, R185): what a value instruction delivers where its cells depend on the draws of SR mode (R174), the
arithmetic that rounds once (R189, R190): the statement O4.
-/

namespace Sys2Proof.Machine

/-! What a value instruction delivers -/

/-- What is delivered depends on a value at the guarded positions and the words asked for. -/
theorem ValueForm.Delivers.of_val {F : ValueForm} {val : Iss → Times → Nat → Nat → Word} {i : Iss} {v : Values}
    (h : ValueForm.Delivers { F with val := val } i v) (hw : 0 < F.words)
    (hv : ∀ p ∈ i.onByAge, ∀ j < F.words, val i (F.times i v.gc) p j = F.val i (F.times i v.gc) p j) : F.Delivers i v where
  only w hmem := by
    have hok := h.only w hmem
    cases w with
    | v r vs f =>
      obtain ⟨n, j, hd, hj, hr, hn, hvs⟩ := hok
      exact ⟨n, j, hd, hj, hr, hn, fun p hp => ⟨(hvs p hp).1, (hvs p hp).2.trans (hv _ (hvs p hp).1 j hj)⟩⟩
    | s r x =>
      obtain ⟨n, j, hd, hj, hr, hn, p, hp, hx⟩ := hok
      exact ⟨n, j, hd, hj, hr, hn, p, hp, hx.trans (hv p hp j hj)⟩
    | hl l vs f =>
      obtain ⟨j, hl, hvs⟩ := hok
      exact ⟨j, hl, fun p hp => ⟨(hvs p hp).1, (hvs p hp).2.trans (hv _ (hvs p hp).1 j (heldLatches_lt hl hw))⟩⟩
    | _ => exact hok
  vreg n hd hn p hp j hj := by
    rw [← hv p hp j hj]
    exact h.vreg n hd hn p hp j hj
  sreg := h.sreg
  latch j l hl p hp := by
    rw [← hv p hp j (heldLatches_lt hl hw)]
    exact h.latch j l hl p hp
  passes := h.passes
  group := h.group
  counts := h.counts

section
variable {F : ValueForm} {i : Iss} {val : Times → Nat → BitVec 64} {cell : Times → Rec → Rec → Cell} {uni : Times → Rec → Rec → Bool}

/-- The range records that expand before the passes are spent, where a cell may depend on every position's issue. -/
def ValueForm.expandsFirstIn (F : ValueForm) (i : Iss) (val : Times → Nat → BitVec 64) (cell : Times → Rec → Rec → Cell) (r : Rec) : Bool :=
  !r.lane && i.inRun r && i.plan F.d F.words (fun p => word (val (F.times i i.g) p)) r
    (cellAt (cell (F.times i i.g) r) (F.times i i.g r.b) r) == .expand

theorem ValueForm.inRun_of_expandsFirstIn {r : Rec} (h : F.expandsFirstIn i val cell r = true) : i.inRun r = true := by
  simp only [ValueForm.expandsFirstIn, Bool.and_eq_true] at h
  exact h.1.2

/-- Cells that serve every record do so at each pass. -/
theorem cellAt_ne_later {c : Rec → Cell} (h : ∀ x, c x ≠ .later) (j : Iss) (r : Rec) : cellAt c j r ≠ .later := by
  unfold cellAt
  split
  · exact h _
  · simp

section
variable (hu : ∀ n, F.d = .s n → ∀ t r x, i.onIn r ≠ [] → F.uni i t r x = true →
    F.GivesU i (fun _ => val t) (fun _ => cell t r) (fun _ => uni t r) t r x)
  (hs : F.sOk i)
include hu hs

/-- For an s destination an acting record is given a U result and does not expand. -/
theorem ValueForm.expandsFirstIn_of_s {n : Fin 56} (hd : F.d = .s n) {r : Rec} (hr : r ∈ i.run) (ho : i.onIn r ≠ []) :
    F.expandsFirstIn i val cell r = false := by
  obtain ⟨x, hx, hux⟩ := hs.resolve_left (fun h => h n hd) (fun _ => false) (by simp) r hr ho
  rw [Group.expand_none] at hx hux
  cases hl : r.lane with
  | true => simp [ValueForm.expandsFirstIn, hl]
  | false =>
    obtain ⟨fs, hp, -⟩ := (hu n hd _ r x ho hux).planAt hl hx
    rw [ValueForm.planAt] at hp
    simp [ValueForm.expandsFirstIn, hp]

/-- A value instruction delivers its values where its cells serve every acting range record and a record whose result is said to be
U is given one. -/
theorem ValueForm.timedValues_delivers (hk : F.k = i.k) (hval : ∀ t, F.val i t = fun p => word (val t p))
    (hcell : ∀ t r x, cell t r x ≠ .later) :
    ∃ v, i.timedValues F.coll (readRegs F.ns) F.d F.words (fun t p => word (val t p)) cell uni = .ok v ∧
      F.Delivers i { v with g := { v.g with sr := F.sr i (F.times i v.gc) } } := by
  set first := F.expandsFirstIn i val cell with hfirst
  set gc := i.g.expand first
  set t := F.times i gc
  have hsel : ∀ r, first r = true → i.inRun r = true := fun r => ValueForm.inRun_of_expandsFirstIn
  have hsf : (∀ n, F.d ≠ .s n) ∨ ∀ r ∈ i.run, i.onIn r ≠ [] → i.sFails F.words (F.val i t) F.d
      (fun r => if first r then .x else cellAt (cell t r) (t r.b) r)
      (fun r => (((t r.b).recNow r).map (uni t r)).getD (uni t r r)) r = false := by
    by_cases hd : ∃ n, F.d = .s n
    · obtain ⟨n, hd⟩ := hd
      refine .inr fun r hr ho => ?_
      obtain ⟨x, hx, hux⟩ := hs.resolve_left (fun h => h n hd) first hsel r hr ho
      have hstays : ¬ first r = true := by simp [hfirst, ValueForm.expandsFirstIn_of_s hu hs hd hr ho]
      rw [hval]
      exact (hu n hd t r x ho hux).not_sFails (c := fun r => if first r then .x else cellAt (cell t r) (t r.b) r) hx (if_neg hstays)
    · exact .inl fun n hn => hd ⟨n, hn⟩
  obtain ⟨v, hv, -, hd⟩ := F.values_ok hk gc _ _ (fun r _ _ _ => by
    split
    · simp
    · exact cellAt_ne_later (hcell t r) _ _) hsf ⟨first, hsel, rfl⟩
  rw [hval] at hv
  have htimed : i.timedValues F.coll (readRegs F.ns) F.d F.words (fun t p => word (val t p)) cell uni =
      .ok ({ v with gc := gc } : Values) :=
    congrArg (Except.map fun v : Values => ({ v with gc := gc } : Values)) hv
  exact ⟨_, htimed, hd⟩

end

end

/-! Stochastic draws (R174) -/

/-- The result that a position draws, where some positions draw in turn. -/
def drawnAt (f : FloatFn) (args : Nat → List (BitVec 64)) (ps : List Nat) (sr : Word) (p : Nat) : BitVec 64 :=
  (((drawAll f args ps sr).1.find? fun x => x.1 == p).map fun x => x.2).getD 0#64

/-- Draws in turn leave the state of the last. -/
theorem drawAll_snd (f : FloatFn) (args : Nat → List (BitVec 64)) (ps : List Nat) (sr : Word) :
    (drawAll f args ps sr).2 = ps.foldl (fun sr p => (f (args p) sr).2) sr := by
  induction ps generalizing sr with
  | nil => rfl
  | cons k ps ih => exact ih _

/-- A position of an ascending list draws from the state that the positions below it leave. -/
theorem drawnAt_eq (f : FloatFn) (args : Nat → List (BitVec 64)) {ps : List Nat} (hps : ps.Pairwise (· ≤ ·)) {p : Nat} (hp : p ∈ ps)
    (sr : Word) : drawnAt f args ps sr p =
      (f (args p) ((ps.filter fun q => decide (q < p)).foldl (fun sr q => (f (args q) sr).2) sr)).1 := by
  induction ps generalizing sr with
  | nil => cases hp
  | cons k ps ih =>
    obtain ⟨hk, hps⟩ := List.pairwise_cons.mp hps
    by_cases hkp : k = p
    · subst hkp
      have hnone : (k :: ps).filter (fun q => decide (q < k)) = [] :=
        List.filter_eq_nil_iff.mpr <| List.forall_mem_cons.mpr ⟨by simp, fun q hq => by simpa using hk q hq⟩
      rw [hnone]
      simp [drawnAt, drawAll]
    · have hp : p ∈ ps := (List.mem_cons.mp hp).resolve_left (Ne.symm hkp)
      have hlt : k < p := Nat.lt_of_le_of_ne (hk p hp) hkp
      rw [List.filter_cons_of_pos (by simpa using hlt), List.foldl_cons, ← ih hps hp]
      simp [drawnAt, drawAll, hkp]

/-! A float instruction whole (R184, R185) -/

/-- The cell of a float instruction (R121, R185): it skips dead sources, takes the form of U ones and expands for the others. -/
def floatCell (form : Cell) : Cls → Cell
  | .d => .skip
  | .u => form
  | _ => .x

theorem floatCell_ne_later {form : Cell} (h : form ≠ .later) (c : Cls) : floatCell form c ≠ .later := by
  cases c <;> simp [floatCell, h]

/-- The source words of a float instruction at a position. -/
def floatArgs (xs : List (Bool × Opnd)) (t : Times) (p : Nat) : List (BitVec 64) := xs.map fun x => (t p).g.src x.1 (.op x.2) p

/-- The result of a float instruction at a position: in SR mode what the position draws. -/
def floatValue (i : Iss) (sr : Bool) (xs : List (Bool × Opnd)) (f : FloatFn) (t : Times) (p : Nat) : BitVec 64 :=
  if sr then drawnAt f (floatArgs xs t) i.on i.g.sr p else (f (floatArgs xs t p) i.g.sr).1

section
variable {s : State} {i : Iss} {k : Ctl} {ns : List Need} {d : Opnd} {words lat : Nat} {sr : Bool} {xs : List (Bool × Opnd)} {f : FloatFn}

/-- At a guarded position the model's result is the form's. -/
theorem word_floatValue (t : Times) {p : Nat} (hp : p ∈ i.on) (j : Nat) :
    word (floatValue i sr xs f t p) j = (floatForm k ns d words lat sr xs f).val i t p j := by
  cases sr with
  | false => rfl
  | true => exact congrArg (word · j) (drawnAt_eq f _ Iss.on_sorted hp _)

/-- A float instruction finishes its values with SR as its draws leave it. -/
theorem State.floatOp_ok {v : Values} (hi : s.iss k = some i) (hc : i.check ns = .ok ())
    (hv : i.timedValues false (readRegs ns) d words (fun t p => word (floatValue i sr xs f t p))
      (fun t r x => floatCell (if sr then .x else .form (uniformForms (floatValue i sr xs f t r.b) words)) ((t r.b).worstF xs x))
      (fun t r x => (t r.b).worstF xs x == .u && !sr) = .ok v) :
    s.floatOp k ns d words lat sr xs f = .next (s.finishValues i ns lat lat
      { v with g := { v.g with sr := (floatForm k ns d words lat sr xs f).sr i (i.timed false (readRegs ns) v.gc) } }) := by
  unfold State.floatOp State.floatWith
  refine State.issue_ok hi ?_ (Iss.check_ok hc).2.2.2
  simp only [hc]
  generalize hm : i.timedValues _ _ _ _ _ _ _ = m
  cases sr with
  | false =>
    obtain rfl : m = .ok v := hm.symm.trans hv
    rfl
  | true =>
    obtain rfl : m = .ok v := hm.symm.trans hv
    have hsr : (drawAll f (floatArgs xs (i.timed false (readRegs ns) v.gc)) i.on i.g.sr).2 =
        (floatForm k ns d words lat true xs f).sr i (i.timed false (readRegs ns) v.gc) := drawAll_snd ..
    rw [← hsr]
    rfl

end

/-- A float instruction whose function is its form's completes with the form's values. -/
theorem floatForm_completes {x : Instr} {k : Ctl} {ns : List Need} {d : Opnd} {words lat : Nat} {sr : Bool} {xs : List (Bool × Opnd)}
    {f g : FloatFn} (hexec : ∀ s, exec x s = s.floatOp k ns d words lat sr xs f) (hw : 0 < words) (hf : f = g) :
    (floatForm k ns d words lat sr xs g).Completes x := by
  subst hf
  intro s i hi hc hs
  obtain ⟨v, hv, hd⟩ := ValueForm.timedValues_delivers
    (F := { floatForm k ns d words lat sr xs f with val := fun i t p j => word (floatValue i sr xs f t p) j })
    (val := floatValue i sr xs f)
    (cell := fun t r x => floatCell (if sr then .x else .form (uniformForms (floatValue i sr xs f t r.b) words)) ((t r.b).worstF xs x))
    (uni := fun t r x => (t r.b).worstF xs x == .u && !sr) (fun n hd t r x ho hu => by
      -- a U result is that of U sources without a draw, whose cell is a U form
      have hu : sr = false ∧ (t r.b).worstF xs x = .u := by simpa [floatForm, ownCls] using hu
      obtain ⟨rfl, hcls⟩ := hu
      exact ValueForm.givesU_of_uniform hd ho (by simp only [hcls]; rfl) (by simp [hcls]))
    hs (State.iss_k hi).symm (fun _ => rfl) (fun _ _ _ => floatCell_ne_later (by split <;> simp) _)
  exact ⟨_, hd.of_val hw fun p hp j _ => word_floatValue _ (Iss.mem_onByAge_iff.mp hp).2 j, (hexec s).trans (State.floatOp_ok hi hc hv)⟩

/-- One on 32-bit sources. -/
theorem floatForm1_completes {x : Instr} {k : Ctl} {d : Opnd} {lat : Nat} {sr : Bool} {xs : List Opnd} {f g : FloatFn}
    (hexec : ∀ s, exec x s = s.float32 k d lat sr xs f) (hf : f = g) : (floatForm1 k d lat sr xs g).Completes x :=
  floatForm_completes hexec Nat.one_pos hf

/-! Arithmetic (R189, R190) -/

theorem exactOf_add : exactOf .add = exactAdd := by
  funext z xs
  match xs with
  | [] | [_] | [_, _] | _ :: _ :: _ :: _ => rfl

theorem exactOf_sub : exactOf .sub = exactSub := by
  funext z xs
  match xs with
  | [] | [_] | [_, _] | _ :: _ :: _ :: _ => rfl

theorem exactOf_mul : exactOf .mul = exactMul := by
  funext z xs
  match xs with
  | [] | [_] | [_, _] | _ :: _ :: _ :: _ => rfl

theorem exactOf_fma : exactOf .fma = exactFma := by
  funext z xs
  match xs with
  | [] | [_] | [_, _] | [_, _, _] | _ :: _ :: _ :: _ :: _ => rfl

section
variable {op : FArith} {f : Bool → List FVal → FVal} (h : exactOf op = f) (ty : Ty) (rm : Rm) (sat : Bool)
include h

/-- An exact operation rounded once. -/
theorem roundFn_eq_farith : roundFn ty rm sat f = farith op ty rm sat := by
  subst h
  rfl

/-- The same on two elements. -/
theorem pairFn_eq_farith2 : pairFn (roundFn ty rm sat f) = farith2 op ty rm sat := by
  rw [roundFn_eq_farith h]
  rfl

end

theorem floatArith_completes {x : Instr} {F : ValueForm} (h : floatArith x = some F) : F.Completes x := by
  cases x with
  | fadd k ty rm sat d a b =>
    obtain rfl := Option.some.inj h
    exact floatForm1_completes (fun _ => rfl) (roundFn_eq_farith exactOf_add ty rm sat)
  | fsub k ty rm sat d a b =>
    obtain rfl := Option.some.inj h
    exact floatForm1_completes (fun _ => rfl) (roundFn_eq_farith exactOf_sub ty rm sat)
  | fmul k ty rm sat d a b =>
    obtain rfl := Option.some.inj h
    exact floatForm1_completes (fun _ => rfl) (roundFn_eq_farith exactOf_mul ty rm sat)
  | ffma k ty rm sat d a b c =>
    obtain rfl := Option.some.inj h
    exact floatForm1_completes (fun _ => rfl) (roundFn_eq_farith exactOf_fma ty rm sat)
  | hadd2 k ty rm sat d a b =>
    obtain rfl := Option.some.inj h
    exact floatForm1_completes (fun _ => rfl) (pairFn_eq_farith2 exactOf_add ty rm sat)
  | hmul2 k ty rm sat d a b =>
    obtain rfl := Option.some.inj h
    exact floatForm1_completes (fun _ => rfl) (pairFn_eq_farith2 exactOf_mul ty rm sat)
  | hfma2 k ty rm sat d a b c =>
    obtain rfl := Option.some.inj h
    exact floatForm1_completes (fun _ => rfl) (pairFn_eq_farith2 exactOf_fma ty rm sat)
  | _ => cases h

end Sys2Proof.Machine

namespace Sys2Proof
open Sys2Proof.Machine

/-- Settles O4: the model's draws are those of the form's positions in ascending order, and its functions round the form's exact
result once. -/
theorem floatArithmeticResults : Obligations.FloatArithmeticResults := by
  unfold Obligations.FloatArithmeticResults
  exact fun x F h => floatArith_completes h

end Sys2Proof
end

section
/-!
SUPPORT. Comparisons, conversions, classes and planes of floats (R191, R195 to R200): the statement O5.
-/

namespace Sys2Proof.Machine

/-! Encodings -/

/-- A type's value depends on the bits of its format. -/
theorem tyVal_fbits (ty : Ty) (x : BitVec 64) : tyVal ty (fbits ty x) = tyVal ty x.toNat := by
  unfold fbits
  cases ty <;> simp [tyVal, fmtBits, fmtOf, fmtF32, fmtF16, fmtBf16, fmtE4m3, fmtE5m2, fmtE3m2, fmtE2m3, kq4Val, asInt]

/-- A scaled number is finite. -/
theorem FVal.scaled_ne_inf (s t : Bool) (m : Nat) (k : Int) : FVal.scaled s m k ≠ .inf t := by
  unfold FVal.scaled
  split <;> simp

/-- An infinity has the sign bit of its encoding. -/
theorem sign_of_decodeF_inf {f : Fmt} {n : Nat} {s : Bool} (h : decodeF f n = .inf s) : s = nbit n (f.m + f.e) := by
  unfold decodeF at h
  dsimp only at h
  split_ifs at h
  · exact (FVal.inf.inj h).symm
  · exact absurd h (FVal.scaled_ne_inf _ _ _ _)
  · exact absurd h (FVal.scaled_ne_inf _ _ _ _)

/-- The top bit of a mantissa. -/
theorem nbit_top {m n : Nat} (hm : 1 ≤ m) (hn : n < 2 ^ m) : nbit n (m - 1) = decide (2 ^ (m - 1) ≤ n) := by
  obtain ⟨k, rfl⟩ := Nat.exists_eq_add_of_le' hm
  rw [Nat.add_sub_cancel, nbit, Bool.eq_iff_iff, beq_iff_eq, decide_eq_true_eq]
  have hk := Nat.two_pow_pos k
  by_cases h : 2 ^ k ≤ n
  · have h1 : n / 2 ^ k = 1 := Nat.div_eq_of_lt_le (by omega) (by rw [pow_succ] at hn; omega)
    simp [h1, h]
  · simp [h, Nat.div_eq_of_lt (Nat.lt_of_not_le h)]

/-- The class of R199 is that of the encoding's fields. -/
theorem ofNat_classBit (ty : Ty) (a : BitVec 64) : BitVec.ofNat 64 (2 ^ classBit (fmtOf ty) (fbits ty a)) = fclassSpec ty [a] := by
  have hm : 1 ≤ (fmtOf ty).m := by cases ty <;> decide
  unfold fclassSpec classBit
  dsimp only
  generalize fbits ty a = n
  generalize fmtOf ty = f at hm
  cases hv : decodeF f n with
  | nan =>
    rw [nbit_top hm (Nat.mod_lt _ (Nat.two_pow_pos _))]
    by_cases h : f.sp = .e4m3 ∨ 2 ^ (f.m - 1) ≤ n % 2 ^ f.m
    · simp [h]
    · simp [h]
  | inf s =>
    rw [← sign_of_decodeF_inf hv]
    cases s <;> rfl
  | fin s x y =>
    have hsign : nbit n (f.m + f.e) = decide (n / 2 ^ (f.m + f.e) % 2 = 1) := rfl
    rw [hsign]
    by_cases hex : n / 2 ^ f.m % 2 ^ f.e = 0
    · by_cases hmn : n % 2 ^ f.m = 0
      · by_cases hneg : n / 2 ^ (f.m + f.e) % 2 = 1 <;> simp [hex, hmn, hneg]
      · by_cases hneg : n / 2 ^ (f.m + f.e) % 2 = 1 <;> simp [hex, hmn, hneg]
    · by_cases hneg : n / 2 ^ (f.m + f.e) % 2 = 1 <;> simp [hex, hneg]

/-! Minimum and maximum (R191) -/

/-- The two comparisons of R191 look at the values of both encodings. -/
theorem minMaxFn_eq (ty : Ty) (mx : Bool) : minMaxFn ty mx = noDraw (minMaxSpec ty mx) := by
  funext xs sr
  match xs with
  | [a, b] =>
    refine Prod.ext (congrArg (BitVec.ofNat 64) ?_) rfl
    simp only [minMaxBits, minLess, tyVal_fbits]
    cases (tyVal ty a.toNat).isNan with
    | false => cases (tyVal ty b.toNat).isNan <;> rfl
    | true => cases (tyVal ty b.toNat).isNan <;> rfl
  | [] | [_] | _ :: _ :: _ :: _ => rfl

/-! Conversions (R195 to R198) -/

/-- Only a NaN is one. -/
theorem FVal.isNan_iff {v : FVal} : v.isNan = true ↔ v = .nan := by
  cases v <;> simp [FVal.isNan]

/-- A conversion to the same type makes a NaN canonical, an exact one takes no mode, any other rounds once (R195). -/
theorem convFn_eq (dt st : Ty) (rm : Rm) (sat : Bool) : convFn dt st rm sat = fcvtSpec dt st rm sat := by
  funext xs sr
  match xs with
  | [a] =>
    unfold convFn fcvtSpec
    by_cases hs : dt = st
    · subst hs
      cases hn : (tyVal dt a.toNat).isNan with
      | false => simp [hn]
      | true => simp [FVal.isNan_iff.mp hn, roundTo, FVal.isNan]
    · cases he : exactConv dt st with
      | false => simp [hs, narrow]
      | true => simp [hs]
  | [] | _ :: _ :: _ => rfl

/-- The ends of a type are its least and greatest values (R158). -/
theorem clampInt_eq (ty : Ty) (x : Int) : clampInt ty x = max (intMin ty) (min (intMax ty) x) := by
  have hle : intMin ty ≤ intMax ty := by cases ty <;> decide
  have h : clampInt ty x = if x < intMin ty then intMin ty else if intMax ty < x then intMax ty else x := by
    unfold clampInt intMin intMax intBits
    cases tySigned ty <;> rfl
  rw [h]
  split_ifs <;> omega

/-- An infinity gives the end of its side, as a number beyond every type's ends does (R196). -/
theorem f2iFn_eq (it ft : Ty) (rm : Rm) : f2iFn it ft rm = f2iSpec it ft rm := by
  have hends : intMin it ≤ intMax it ∧ -2 ^ 64 ≤ intMin it ∧ intMax it ≤ 2 ^ 64 := by cases it <;> decide
  funext xs sr
  match xs with
  | [a] =>
    have hclamp : ∀ x, clampBits it x = BitVec.ofNat 64 (clampInt it x % (2 ^ (if it = .i8 then 8 else tyBits it) : Int)).toNat :=
      fun x => by rw [clampInt_eq]; rfl
    unfold f2iFn f2iSpec
    simp only [hclamp]
    cases tyVal ft a.toNat with
    | nan => rfl
    | inf s =>
      cases s with
      | false =>
        have hmax : clampInt it (intMax it) = clampInt it (2 ^ 64) := by simp only [clampInt_eq]; omega
        simp only [Bool.false_eq_true, if_false, hmax]
      | true =>
        have hmin : clampInt it (intMin it) = clampInt it (-2 ^ 64) := by simp only [clampInt_eq]; omega
        simp only [if_true, hmin]
    | fin s n d => rfl
  | [] | _ :: _ :: _ => rfl

/-- A source is the integer of its type's width and sign (R197). -/
theorem i2fFn_eq (ft it : Ty) (rm : Rm) (sat : Bool) : i2fFn ft it rm sat = i2fSpec ft it rm sat := by
  funext xs sr
  match xs with
  | [a] =>
    unfold i2fFn i2fSpec
    cases it <;> simp [asInt_eq, tySigned, intBits, tyBits, Ty.wide, narrow]
  | [] | _ :: _ :: _ => rfl

theorem frndFn_eq (ty : Ty) (rm : Rm) : frndFn ty rm = frndSpec ty rm := rfl

/-! Six-bit planes (R200) -/

/-- Digits of some bits, least first, laid side by side. -/
def packed (w : Nat) (a : Nat → Nat) (n : Nat) : Nat := ((List.range n).map fun j => a j * 2 ^ (w * j)).sum

/-- Each bit of digits laid side by side is a bit of one digit. -/
theorem testBit_packed {w : Nat} (hw : 0 < w) {a : Nat → Nat} (ha : ∀ j, a j < 2 ^ w) (n b : Nat) :
    (packed w a n).testBit b = (decide (b < w * n) && (a (b / w)).testBit (b % w)) := by
  induction n generalizing a b with
  | zero => simp [packed]
  | succ n ih =>
    have hstep : packed w a (n + 1) = 2 ^ w * packed w (fun j => a (j + 1)) n + a 0 := by
      rw [packed, List.range_succ_eq_map, List.map_cons, List.map_map, List.sum_cons, packed, ← List.sum_map_mul_left, Nat.add_comm]
      simp only [Nat.mul_zero, pow_zero, Nat.mul_one]
      congr 2
      refine List.map_congr_left fun j _ => ?_
      simp only [Function.comp, Nat.mul_succ, pow_add]
      ring
    rw [hstep, Nat.testBit_two_pow_mul_add _ (ha 0)]
    split
    · rename_i hb
      rw [Nat.div_eq_of_lt hb, Nat.mod_eq_of_lt hb, Nat.mul_succ]
      simp [show b < w * n + w by omega]
    · rename_i hb
      obtain ⟨c, rfl⟩ := Nat.exists_eq_add_of_le (Nat.le_of_not_lt hb)
      rw [Nat.add_sub_cancel_left, ih fun j => ha (j + 1), Nat.add_div_left _ hw, Nat.add_mod_left, Nat.mul_succ]
      simp [Nat.add_comm w]

theorem packed_lt {w : Nat} (hw : 0 < w) {a : Nat → Nat} (ha : ∀ j, a j < 2 ^ w) (n : Nat) : packed w a n < 2 ^ (w * n) :=
  Nat.lt_pow_two_of_testBit _ fun b hb => by simp [testBit_packed hw ha, Nat.not_lt.mpr hb]

/-- The bits of a field of a word. -/
theorem testBit_field (x : BitVec 64) (lo n m : Nat) : (x.toNat / 2 ^ lo % 2 ^ n).testBit m = (decide (m < n) && x.getLsbD (lo + m)) := by
  rw [Nat.testBit_mod_two_pow, Nat.testBit_div_two_pow, BitVec.getLsbD, Nat.add_comm]

/-- Planes of eight elements are their bits apart (R200). -/
theorem splitPlanes_eq (x : BitVec 64) : splitPlanes x = plsplitSpec [x] := by
  have hhi : ∀ j, x.toNat / 2 ^ (8 * j) % 2 ^ 6 / 2 ^ 2 < 2 ^ 4 := fun j => by omega
  have hlo : ∀ j, x.toNat / 2 ^ (8 * j) % 2 ^ 6 % 2 ^ 2 < 2 ^ 2 := fun j => by omega
  have hplanes : splitPlanes x = BitVec.ofNat 64 (2 ^ 32 * packed 2 (fun j => x.toNat / 2 ^ (8 * j) % 2 ^ 6 % 2 ^ 2) 8 +
      packed 4 (fun j => x.toNat / 2 ^ (8 * j) % 2 ^ 6 / 2 ^ 2) 8) := by
    unfold splitPlanes packed
    rw [← List.sum_map_mul_left, Nat.add_comm, ← List.sum_map_add]
    refine congrArg (fun l => BitVec.ofNat 64 (List.sum l)) (List.map_congr_left fun j _ => ?_)
    rw [pow_add, Nat.mul_left_comm]
    rfl
  refine BitVec.eq_of_getLsbD_eq fun b hb => ?_
  rw [hplanes, plsplitSpec, BitVec.getLsbD_ofFnLE, dif_pos hb, BitVec.getLsbD_ofNat, Nat.testBit_two_pow_mul_add _ (packed_lt (by decide) hhi 8),
    testBit_packed (by decide) hhi, testBit_packed (by decide) hlo, Nat.testBit_div_two_pow, testBit_field, Nat.testBit_mod_two_pow, testBit_field]
  have h4 : b % 4 < 4 := Nat.mod_lt _ (by decide)
  have h2 : (b - 32) % 2 < 2 := Nat.mod_lt _ (by decide)
  split
  · simp [hb, show b < 4 * 8 by omega, show b % 4 + 2 < 6 by omega, Nat.add_assoc, Nat.add_comm 2]
  · simp [hb, show (b - 32) % 2 < 6 by omega, h2, show b - 32 < 2 * 8 ↔ b < 48 by omega]

/-- An element that its planes join has the low plane's bits below the high plane's (R200). -/
theorem joinPlanes_eq (h l : BitVec 64) : joinPlanes h l = pljoinSpec [h, l] := by
  have hel : ∀ j, 2 ^ 2 * (h.toNat / 2 ^ (4 * j) % 2 ^ 4) + l.toNat / 2 ^ (2 * j) % 2 ^ 2 < 2 ^ 8 := fun j => by omega
  have hjoin : joinPlanes h l =
      BitVec.ofNat 64 (packed 8 (fun j => 2 ^ 2 * (h.toNat / 2 ^ (4 * j) % 2 ^ 4) + l.toNat / 2 ^ (2 * j) % 2 ^ 2) 8) := by
    unfold joinPlanes packed
    refine congrArg (fun l => BitVec.ofNat 64 (List.sum l)) (List.map_congr_left fun j _ => ?_)
    rw [Nat.mul_comm _ 4]
    rfl
  refine BitVec.eq_of_getLsbD_eq fun b hb => ?_
  rw [hjoin, pljoinSpec, BitVec.getLsbD_ofFnLE, dif_pos hb, BitVec.getLsbD_ofNat, testBit_packed (by decide) hel,
    Nat.testBit_two_pow_mul_add _ (Nat.mod_lt _ (by decide)), testBit_field, testBit_field]
  simp only [hb, decide_true, Bool.true_and]
  by_cases h2 : b % 8 < 2
  · simp [h2, show ¬ 6 ≤ b % 8 by omega]
  · rw [if_neg h2, if_neg h2, ← Nat.add_sub_assoc (by omega)]
    by_cases h6 : 6 ≤ b % 8
    · simp [h6, show ¬ b % 8 - 2 < 4 by omega]
    · simp [h6, show b % 8 - 2 < 4 by omega]

/-! The instructions -/

theorem floatOther_completes {x : Instr} {F : ValueForm} (h : floatOther x = some F) : F.Completes x := by
  cases x with
  | fmin k ty d a b =>
    obtain rfl := Option.some.inj h
    exact floatForm1_completes (fun _ => rfl) (minMaxFn_eq ty false)
  | fmax k ty d a b =>
    obtain rfl := Option.some.inj h
    exact floatForm1_completes (fun _ => rfl) (minMaxFn_eq ty true)
  | fcvt k dt st rm sat d a =>
    obtain rfl := Option.some.inj h
    exact floatForm1_completes (fun _ => rfl) (convFn_eq dt st rm sat)
  | f2i k it ft rm d a =>
    obtain rfl := Option.some.inj h
    exact floatForm_completes (fun _ => rfl) (tyWords_pos it) (f2iFn_eq it ft rm)
  | i2f k ft it rm sat d a =>
    obtain rfl := Option.some.inj h
    exact floatForm_completes (fun _ => rfl) Nat.one_pos (i2fFn_eq ft it rm sat)
  | frnd k ty rm d a =>
    obtain rfl := Option.some.inj h
    exact floatForm1_completes (fun _ => rfl) (frndFn_eq ty rm)
  | fclass k ty d a =>
    obtain rfl := Option.some.inj h
    refine floatForm1_completes (fun _ => rfl) (funext₂ fun xs sr => ?_)
    match xs with
    | [x] => exact Prod.ext (ofNat_classBit ty x) rfl
    | [] | _ :: _ :: _ => rfl
  | plsplit k ty d a =>
    obtain rfl := Option.some.inj h
    refine floatForm_completes (fun _ => rfl) Nat.two_pos (funext₂ fun xs sr => ?_)
    match xs with
    | [x] => exact Prod.ext (splitPlanes_eq x) rfl
    | [] | _ :: _ :: _ => rfl
  | pljoin k ty d a b =>
    obtain rfl := Option.some.inj h
    refine floatForm_completes (fun _ => rfl) Nat.two_pos (funext₂ fun xs sr => ?_)
    match xs with
    | [x, y] => exact Prod.ext (joinPlanes_eq x y) rfl
    | [] | [_] | _ :: _ :: _ :: _ => rfl
  | _ => cases h

end Sys2Proof.Machine

namespace Sys2Proof
open Sys2Proof.Machine

/-- Settles O5: each function of the model is the form's on every list of sources. -/
theorem floatConversionResults : Obligations.FloatConversionResults := by
  unfold Obligations.FloatConversionResults
  exact fun x F h => floatOther_completes h

end Sys2Proof
end

section
/-!
SUPPORT. The transcendental functions (R193, R194): fields of an f32 word, roots of 1, special and large operands: the statement O6.
-/

namespace Sys2Proof.Machine

/-! Roots -/

/-- Bit by bit, a root that lies below the next candidate is found. -/
theorem isqrt_eq_sqrt {n r x : Nat} (hr : r * r ≤ x) (hx : x < (r + 2 ^ n) * (r + 2 ^ n)) : isqrt n r x = Nat.sqrt x := by
  induction n generalizing r with
  | zero => exact Nat.eq_sqrt.mpr ⟨hr, hx⟩
  | succ n ih =>
    unfold isqrt
    split
    · rename_i h
      exact ih h (by rwa [Nat.add_assoc, ← Nat.two_mul, ← Nat.pow_succ'])
    · rename_i h
      exact ih hr (Nat.lt_of_not_le h)

/-- The root of an even power of two. -/
theorem isqrt_two_pow {n k x : Nat} (h : 2 * k < n) (hx : x = 2 ^ (2 * k)) : isqrt n 0 x = 2 ^ k := by
  subst hx
  have hlt : 2 ^ (2 * k) < 0 + 2 ^ n := by
    rw [Nat.zero_add]
    exact Nat.pow_lt_pow_right Nat.one_lt_two h
  rw [isqrt_eq_sqrt (Nat.zero_le _) (hlt.trans_le (Nat.le_mul_self _)), Nat.mul_comm, Nat.pow_mul, Nat.sqrt_eq']

/-- The root of 1. -/
theorem sqrtVal_self {n : Nat} (hn : 0 < n) : sqrtVal n n = .fin false (2 ^ 128) (2 ^ 128) := by
  have hroot : isqrt 260 0 (2 ^ 256) = 2 ^ 128 := isqrt_two_pow (by decide) rfl
  have hsq : 2 ^ 128 * 2 ^ 128 * n = n * 2 ^ 256 := by rw [← Nat.pow_add, Nat.mul_comm]
  unfold sqrtVal
  rw [Nat.mul_div_cancel_left _ hn]
  simp only [hroot, hsq, if_true]

theorem f32Val_one : f32Val 0x3F800000#32 = .fin false (2 ^ 23) (2 ^ 23) := by decide

theorem f32Rne_one : f32Rne (.fin false (2 ^ 128) (2 ^ 128)) = 0x3F800000#32 := by decide

theorem fsqrtWord_one : fsqrtWord 0x3F800000#32 = 0x3F800000#32 := by
  unfold fsqrtWord
  rw [f32Val_one]
  simp only [sqrtVal_self (Nat.two_pow_pos 23), f32Rne_one]
  rfl

theorem frsqWord_one : frsqWord 0x3F800000#32 = 0x3F800000#32 := by
  have hexp : pow2Exp (2 ^ 23) (2 ^ 23) = some 0 := by decide
  unfold frsqWord
  rw [f32Val_one]
  simp only [sqrtVal_self (Nat.two_pow_pos 23), f32Rne_one, hexp]
  rfl

/-! Fields of an f32 word -/

/-- The value of an f32 word by the fields of its magnitude (R160). -/
theorem f32Val_eq (x : Word) {e m : Nat} (hm : m < 2 ^ 23) (h : (x &&& 0x7FFFFFFF#32).toNat = 2 ^ 23 * e + m) : f32Val x =
    if e = 255 then (if m = 0 then .inf x.msb else .nan)
    else if e = 0 then .scaled x.msb m (-149) else .scaled x.msb (2 ^ 23 + m) (e - 150) := by
  have hmag : (x &&& 0x7FFFFFFF#32).toNat = x.toNat % 2 ^ 31 := by
    rw [BitVec.toNat_and]
    exact Nat.and_two_pow_sub_one_eq_mod _ 31
  rw [hmag] at h
  have hlt := x.isLt
  have hs : nbit x.toNat 31 = x.msb := by
    rw [BitVec.msb_eq_decide, Bool.eq_iff_iff, nbit, beq_iff_eq, decide_eq_true_eq]
    omega
  have hex : x.toNat / 2 ^ 23 % 2 ^ 8 = e := by omega
  have hmn : x.toNat % 2 ^ 23 = m := by omega
  have h1 : (1 : Int) - (127 : Nat) - (23 : Nat) = -149 := by decide
  have h2 : (e : Int) - (127 : Nat) - (23 : Nat) = e - 150 := by omega
  unfold f32Val decodeF
  simp only [fmtF32, hs, hex, hmn, h1, h2]
  by_cases he : e = 255
  · simp [he]
  · simp [he]

section
variable {x : Word}

/-- A magnitude above infinity's is a NaN. -/
theorem f32Val_of_nan (h : 0x7F800000#32 < (x &&& 0x7FFFFFFF#32)) : f32Val x = .nan := by
  have hle : (x &&& 0x7FFFFFFF#32).toNat ≤ 0x7FFFFFFF := by rw [BitVec.toNat_and]; exact Nat.and_le_right
  rw [BitVec.lt_def] at h
  generalize hM : (x &&& 0x7FFFFFFF#32).toNat = M at h hle
  have h : 0x7F800000 < M := h
  rw [f32Val_eq x (e := 255) (m := M - 2 ^ 23 * 255) (by omega) (by omega), if_pos rfl, if_neg (by omega)]

/-- A value with its sign set that is neither zero nor a NaN. -/
def FVal.isNegative : FVal → Prop
  | .inf s => s = true
  | .fin s n _ => s = true ∧ n ≠ 0
  | .nan => False

theorem FVal.isNegative_scaled {m : Nat} (hm : m ≠ 0) (k : Int) : (FVal.scaled true m k).isNegative := by
  unfold FVal.scaled
  split
  · exact ⟨rfl, Nat.mul_ne_zero hm (Nat.two_pow_pos _).ne'⟩
  · exact ⟨rfl, hm⟩

theorem f32Val_isNegative (hs : x.msb = true) (h0 : (x &&& 0x7FFFFFFF#32) ≠ 0#32) (hle : (x &&& 0x7FFFFFFF#32) ≤ 0x7F800000#32) :
    (f32Val x).isNegative := by
  have h0 : (x &&& 0x7FFFFFFF#32).toNat ≠ 0 := fun h => h0 (BitVec.eq_of_toNat_eq h)
  rw [BitVec.le_def] at hle
  generalize hM : (x &&& 0x7FFFFFFF#32).toNat = M at h0 hle
  have hle : M ≤ 0x7F800000 := hle
  have hmod : M % 2 ^ 23 < 2 ^ 23 := Nat.mod_lt _ (by decide)
  have hsplit : M = 2 ^ 23 * (M / 2 ^ 23) + M % 2 ^ 23 := (Nat.div_add_mod _ _).symm
  rw [f32Val_eq x hmod (hM.trans hsplit), hs]
  split
  · rw [if_pos (by omega)]
    rfl
  · split
    · exact FVal.isNegative_scaled (by omega) _
    · exact FVal.isNegative_scaled (by omega) _

/-- A finite magnitude above 2^20 has a value above 2^20. -/
theorem f32Val_of_large (hlo : 0x49800000#32 < (x &&& 0x7FFFFFFF#32)) (hhi : (x &&& 0x7FFFFFFF#32) < 0x7F800000#32) :
    ∃ s n d, f32Val x = .fin s n d ∧ 2 ^ 20 * d < n := by
  rw [BitVec.lt_def] at hlo hhi
  generalize hM : (x &&& 0x7FFFFFFF#32).toNat = M at hlo hhi
  have hlo : 0x49800000 < M := hlo
  have hhi : M < 0x7F800000 := hhi
  obtain ⟨e, m, hm, rfl⟩ : ∃ e m, m < 2 ^ 23 ∧ M = 2 ^ 23 * e + m :=
    ⟨M / 2 ^ 23, M % 2 ^ 23, Nat.mod_lt _ (by decide), (Nat.div_add_mod _ _).symm⟩
  rw [f32Val_eq x hm hM, if_neg (by omega), if_neg (by omega), FVal.scaled]
  split
  · rename_i hk
    refine ⟨_, _, _, rfl, ?_⟩
    have := Nat.le_mul_of_pos_right (2 ^ 23 + m) (Nat.two_pow_pos ((e : Int) - 150).toNat)
    omega
  · rename_i hk
    refine ⟨_, _, _, rfl, ?_⟩
    -- the denominator is 8, 4 or 2
    obtain rfl | rfl | rfl : e = 147 ∨ e = 148 ∨ e = 149 := by omega
    all_goals (simp; omega)

end

/-! Special operands (R194) -/

/-- Every transcendental of a NaN is the canonical NaN. -/
theorem transc_of_nan {x : Word} (h : f32Val x = .nan) :
    ∀ f ∈ [frcpWord, frsqWord, fsqrtWord, fexp2Word, flog2Word, fsinWord, fcosWord], f x = nanF32 := by
  simp [frcpWord, frsqWord, fsqrtWord, fexp2Word, flog2Word, fsinWord, fcosWord, h]

/-- Roots and the logarithm of a negative operand are the canonical NaN. -/
theorem transc_of_isNegative {x : Word} (h : (f32Val x).isNegative) : ∀ f ∈ [frsqWord, fsqrtWord, flog2Word], f x = nanF32 := by
  cases hx : f32Val x with
  | nan => simp [hx, FVal.isNegative] at h
  | inf s =>
    rw [hx] at h
    obtain rfl : s = true := h
    simp [frsqWord, fsqrtWord, flog2Word, hx]
  | fin s n d =>
    rw [hx] at h
    obtain ⟨rfl, hn⟩ := h
    simp [frsqWord, fsqrtWord, flog2Word, hx, hn]

/-- A word kept in range has a value in [-1, 1]. -/
theorem f32Val_unitRange (r : Word) : ∃ s n d, f32Val (unitRange r) = .fin s n d ∧ n ≤ d := by
  have hzero : f32Val (zeroF32 false) = .fin false 0 (2 ^ 149) := by decide
  unfold unitRange
  cases hr : f32Val r with
  | nan => exact ⟨_, _, _, hzero, Nat.zero_le _⟩
  | inf => exact ⟨_, _, _, hzero, Nat.zero_le _⟩
  | fin s n d =>
    dsimp only
    split
    · rename_i h
      exact ⟨_, _, _, hr, h⟩
    · exact ⟨_, _, _, hzero, Nat.zero_le _⟩

/-- Above 2^20 the raw result of sine and cosine stands where it lies in range. -/
theorem trigWord_of_large {raw : Word} {n d : Nat} {v : FVal} (h : 2 ^ 20 * d < n) : trigWord raw n d v = unitRange raw :=
  if_pos h

/-- Sine and cosine above 2^20 lie in [-1, 1]. -/
theorem trig_of_large {x : Word} {s : Bool} {n d : Nat} (hx : f32Val x = .fin s n d) (hlarge : 2 ^ 20 * d < n) :
    ∀ f ∈ [fsinWord, fcosWord], ∃ s n d, f32Val (f x) = .fin s n d ∧ n ≤ d := by
  have hn : n ≠ 0 := by omega
  have hsin : fsinWord x = unitRange (Config.fsinRaw x) := by simp only [fsinWord, hx, hn, if_false, trigWord_of_large hlarge]
  have hcos : fcosWord x = unitRange (Config.fcosRaw x) := by simp only [fcosWord, hx, hn, if_false, trigWord_of_large hlarge]
  simp only [List.forall_mem_cons, hsin, hcos]
  exact ⟨f32Val_unitRange _, f32Val_unitRange _, by simp⟩

/-! The instructions -/

/-- A function of one f32 word completes at latency 12. -/
theorem wordFn_completes {x : Instr} {k : Ctl} {d a : Opnd} {f : Word → Word}
    (hexec : ∀ s, exec x s = s.float32 k d 12 false [a] (wordFn f)) :
    (floatForm1 k d 12 false [a] (noDraw fun xs => (f ((xs.headD 0#64).setWidth 32)).setWidth 64)).Completes x :=
  (floatForm1_completes hexec rfl : (floatForm1 k d 12 false [a] (wordFn f)).Completes x)

theorem transc_completes {x : Instr} {F : ValueForm} (h : transc x = some F) : F.Completes x := by
  cases x with
  | frcp | frsq | fsqrt | fexp2 | flog2 | fsin | fcos =>
    obtain rfl := Option.some.inj h
    exact wordFn_completes fun _ => rfl
  | _ => cases h

end Sys2Proof.Machine

namespace Sys2Proof
open Sys2Proof.Machine

/-- Settles O6: each transcendental is a float instruction of one word; the special operands by the value of the word, of which
only the roots of 1 need a computation, and the large ones by what stands of a raw result out of range. -/
theorem transcendentalFunctions : Obligations.TranscendentalFunctions := by
  unfold Obligations.TranscendentalFunctions
  refine ⟨fun x F h => transc_completes h, fun x h => transc_of_nan (f32Val_of_nan h),
    fun x hs h0 hle => transc_of_isNegative (f32Val_isNegative hs h0 hle), by decide, by decide, by decide, ?_, by decide, ?_⟩
  · simp only [List.map_cons, List.map_nil, frsqWord_one, fsqrtWord_one]
    decide
  · intro x hlo hhi
    obtain ⟨s, n, d, hx, hlarge⟩ := f32Val_of_large hlo hhi
    exact trig_of_large hx hlarge

end Sys2Proof
end

section
/-!
SUPPORT. Physical memory byte by byte: how a unit stands and what memory holds after a write and in a zeroed frame (R215); the
statement O49.
-/

namespace Sys2Proof.Machine

/-! Filters of sparse lists -/

/-- A filter by the key reads the default at the keys that it drops. -/
theorem spGet_filter {α : Type} [DecidableEq α] {d : α} (p : Nat → Bool) {m : Sparse α} {lo : Nat}
    (hm : sparseWf d lo m = true) (i : Nat) :
    spGet d (m.filter fun e => p e.1) i = if p i then spGet d m i else d := by
  induction m generalizing lo with
  | nil => simp [spGet]
  | cons e rest ih =>
    obtain ⟨k, v⟩ := e
    simp only [sparseWf, Bool.and_eq_true, decide_eq_true_eq] at hm
    obtain ⟨_, hrest⟩ := hm
    have hbelow : i ≤ k → spGet d rest i = d := fun h => spGet_below (by omega) hrest
    rw [List.filter_cons]
    rcases Nat.lt_trichotomy i k with hlt | rfl | hgt
    · split <;> simp [spGet, hlt, ih hrest, hbelow hlt.le]
    · split <;> simp [spGet, ih hrest, *]
    · split <;> simp [spGet, ih hrest, hgt.not_gt, hgt.ne']

/-- Of the bytes that are left those outside the range read as before. -/
theorem spGet_without {m : Memory} (hm : m.wf = true) (lo hi x : Nat) :
    spGet 0#8 (m.without lo hi) x = if lo ≤ x ∧ x < hi then 0#8 else spGet 0#8 m x := by
  refine (spGet_filter (fun k => decide (k < lo) || decide (hi ≤ k)) hm x).trans ?_
  by_cases h : lo ≤ x ∧ x < hi
  · rw [if_pos h, if_neg (by simp; omega)]
  · rw [if_neg h, if_pos (by simp; omega)]

/-! A byte written -/

/-- How a unit stands after a write of byte `i` under a key. -/
def Unit64.written (u : Unit64) (key i : Nat) : Unit64 :=
  if u.key = 0 then ⟨key, 0#64⟩
  else if u.key = key then ⟨key, u.noise &&& ~~~(BitVec.twoPow 64 i)⟩
  else ⟨key, ~~~(BitVec.twoPow 64 i)⟩

@[simp] theorem Unit64.written_key (u : Unit64) (key i : Nat) : (u.written key i).key = key := by
  unfold written
  split
  · rfl
  · split <;> rfl

/-- The byte written is none of the noise. -/
theorem Unit64.written_noise_self (u : Unit64) (key i : Nat) : (u.written key i).noise.getLsbD i = false := by
  unfold written
  split
  · simp
  · split <;> by_cases hi : i < 64 <;> simp [hi]

theorem Unit64.written_noise_of_zero {u : Unit64} (h : u.key = 0) (key i j : Nat) :
    (u.written key i).noise.getLsbD j = false := by simp [written, h]

/-- The other bytes of a unit under the same key stay noise or stay none. -/
theorem Unit64.written_noise_of_same {u : Unit64} {key i j : Nat} (h : u.key = key) (hk : key ≠ 0) (hj : j < 64) (hij : j ≠ i) :
    (u.written key i).noise.getLsbD j = u.noise.getLsbD j := by
  have hbit : (BitVec.twoPow 64 i).getLsbD j = false := by simp [BitVec.getLsbD_twoPow, hij.symm]
  simp only [written, h, hk, if_false, if_true, BitVec.getLsbD_and, BitVec.getLsbD_not, hbit, hj, decide_true, Bool.not_false,
    Bool.and_true]

theorem State.pmWrite_units {s : State} (key : Nat) {a : Nat} (b : Byte) (ha : a < linkBase) :
    (s.pmWrite key a b).units = spSet ⟨0, 0#64⟩ s.units (a / 64) ((s.unit a).written key (a % 64)) := by
  rw [pmWrite, if_neg ha.not_ge]
  rfl

/-- A write touches how its own unit stands. -/
theorem State.pmWrite_unit {s : State} (hu : sparseWf ⟨0, 0#64⟩ 0 s.units = true) (key : Nat) {a : Nat} (b : Byte)
    (ha : a < linkBase) (x : Nat) :
    (s.pmWrite key a b).unit x = if x / 64 = a / 64 then (s.unit a).written key (a % 64) else s.unit x := by
  rw [unit, pmWrite_units key b ha, spGet_spSet hu]
  rfl

/-- What memory holds after a write: a unit whose zero bit was set loses what it held. -/
theorem State.spGet_pmWrite_mem {s : State} (hm : s.mem.wf = true) (key : Nat) {a : Nat} (b : Byte) (ha : a < linkBase) (x : Nat) :
    spGet 0#8 (s.pmWrite key a b).mem x =
      if x = a then b else if (s.unit a).key = 0 ∧ x / 64 = a / 64 then 0#8 else spGet 0#8 s.mem x := by
  have hin : (a / 64 * 64 ≤ x ∧ x < a / 64 * 64 + 64) ↔ x / 64 = a / 64 := by omega
  rw [pmWrite_mem]
  by_cases hzero : (s.unit a).key = 0
  · rw [if_pos ⟨ha, hzero⟩, spGet_spSet (Memory.without_wf _ _ hm), spGet_without hm]
    simp only [hin, hzero, true_and]
  · rw [if_neg (fun h => hzero h.2), spGet_spSet hm]
    simp only [hzero, false_and, if_false]

/-! A byte read -/

/-- What a read below the link aperture gives depends on the unit and on the byte that memory holds. -/
theorem State.pmRead_of_lt {s : State} (key : Nat) {x : Nat} (hx : x < linkBase) :
    s.pmRead key x = if (s.unit x).key = 0 then 0#8
      else if (s.unit x).key = key then (if (s.unit x).noise.getLsbD (x % 64) then Config.noise key x else spGet 0#8 s.mem x)
      else Config.noise key x := by
  rw [pmRead, if_neg hx.not_ge]

/-- A unit whose zero bit is set reads zeros under every key. -/
theorem State.pmRead_of_zero {s : State} (key : Nat) {x : Nat} (hx : x < linkBase) (h : (s.unit x).key = 0) :
    s.pmRead key x = 0#8 := by rw [pmRead_of_lt key hx, if_pos h]

/-- States that agree on a unit and a byte, and on what the peers' bytes depend on, read alike. -/
theorem State.pmRead_congr {s t : State} {key x : Nat} (hu : t.unit x = s.unit x)
    (hm : spGet 0#8 t.mem x = spGet 0#8 s.mem x) (hfree : t.freeCtr = s.freeCtr) (hord : t.ord = s.ord) (hnow : t.now = s.now) :
    t.pmRead key x = s.pmRead key x := by
  rw [pmRead, pmRead, hu, hm, hfree, hord, hnow]

theorem lt_linkBase_of_unit {a x : Nat} (ha : a < linkBase) (h : x / 64 = a / 64) : x < linkBase := by
  unfold linkBase at *
  omega

/-- The byte written under a key reads back under it. -/
theorem State.pmRead_pmWrite_self {s : State} (hm : s.mem.wf = true) (hu : sparseWf ⟨0, 0#64⟩ 0 s.units = true) {key a : Nat}
    (b : Byte) (ha : a < linkBase) (hk : key ≠ 0) : (s.pmWrite key a b).pmRead key a = b := by
  rw [pmRead_of_lt key ha, pmWrite_unit hu key b ha, spGet_pmWrite_mem hm key b ha]
  simp [hk, Unit64.written_noise_self]

/-- The other bytes of a unit under the key, or with its zero bit set, read as before under the key. -/
theorem State.pmRead_pmWrite_same_unit {s : State} (hm : s.mem.wf = true) (hu : sparseWf ⟨0, 0#64⟩ 0 s.units = true)
    {key a x : Nat} (b : Byte) (ha : a < linkBase) (hk : key ≠ 0) (hx : x / 64 = a / 64) (hne : x ≠ a)
    (hkey : (s.unit a).key = key ∨ (s.unit a).key = 0) : (s.pmWrite key a b).pmRead key x = s.pmRead key x := by
  have hxl := lt_linkBase_of_unit ha hx
  have hunit : s.unit x = s.unit a := by rw [unit, unit, hx]
  have hij : x % 64 ≠ a % 64 := by omega
  rw [pmRead_of_lt key hxl, pmRead_of_lt key hxl, pmWrite_unit hu key b ha, spGet_pmWrite_mem hm key b ha, hunit]
  rcases hkey with hkey | hzero
  · simp [hx, hne, hkey, hk, Unit64.written_noise_of_same hkey hk (Nat.mod_lt x (by decide)) hij]
  · simp [hx, hne, hzero, hk, Unit64.written_noise_of_zero hzero]

/-- Another key than the one written under reads whatever it reads. -/
theorem State.pmRead_pmWrite_other_key {s : State} (hu : sparseWf ⟨0, 0#64⟩ 0 s.units = true)
    {key a x k : Nat} (b : Byte) (ha : a < linkBase) (hk : key ≠ 0) (hx : x / 64 = a / 64) (hne : k ≠ key) :
    (s.pmWrite key a b).pmRead k x = Config.noise k x := by
  simp [pmRead_of_lt k (lt_linkBase_of_unit ha hx), pmWrite_unit hu key b ha, hx, hk, hne.symm]

/-- Every byte of other units reads as before under any key. -/
theorem State.pmRead_pmWrite_other_unit {s : State} (hm : s.mem.wf = true) (hu : sparseWf ⟨0, 0#64⟩ 0 s.units = true)
    {key a x : Nat} (k : Nat) (b : Byte) (ha : a < linkBase) (hx : x / 64 ≠ a / 64) :
    (s.pmWrite key a b).pmRead k x = s.pmRead k x := by
  have hne : x ≠ a := fun h => hx (h ▸ rfl)
  refine pmRead_congr ?_ ?_ (by simp) (by simp) (by simp)
  · rw [pmWrite_unit hu key b ha, if_neg hx]
  · rw [spGet_pmWrite_mem hm key b ha, if_neg hne, if_neg fun h => hx h.2]

/-! A frame that enters the pool -/

theorem State.zeroFrame_unit {s : State} (hu : sparseWf ⟨0, 0#64⟩ 0 s.units = true) (f x : Nat) :
    (s.zeroFrame f).unit x = if x / 65536 = f then ⟨0, 0#64⟩ else s.unit x := by
  refine (spGet_filter (fun k => !(decide (f * 1024 ≤ k) && decide (k < (f + 1) * 1024))) hu (x / 64)).trans ?_
  by_cases h : x / 65536 = f
  · rw [if_pos h, if_neg (by simp; omega)]
  · rw [if_neg h, if_pos (by simp; omega)]
    rfl

/-- A frame that enters the pool reads zeros. -/
theorem State.pmRead_zeroFrame_self {s : State} (hu : sparseWf ⟨0, 0#64⟩ 0 s.units = true) (k : Nat) {f x : Nat}
    (hx : x < linkBase) (hf : x / 65536 = f) : (s.zeroFrame f).pmRead k x = 0#8 :=
  pmRead_of_zero k hx (by rw [zeroFrame_unit hu, if_pos hf])

/-- Other frames read as before. -/
theorem State.pmRead_zeroFrame_other {s : State} (hm : s.mem.wf = true) (hu : sparseWf ⟨0, 0#64⟩ 0 s.units = true) (k : Nat)
    {f x : Nat} (hf : x / 65536 ≠ f) : (s.zeroFrame f).pmRead k x = s.pmRead k x := by
  refine pmRead_congr ?_ ?_ rfl rfl rfl
  · rw [zeroFrame_unit hu, if_neg hf]
  · exact (spGet_without hm _ _ x).trans (if_neg (by omega))

end Sys2Proof.Machine

namespace Sys2Proof
open Sys2Proof.Machine

/-- Settles O49: what a read gives depends on the unit and on the byte held, and a write and a zeroed frame change both for
their own addresses only. -/
theorem memoryReadsWhatWasWritten : Obligations.MemoryReadsWhatWasWritten := by
  unfold Obligations.MemoryReadsWhatWasWritten
  intro s key a b hm hu ha hk
  exact ⟨State.pmRead_pmWrite_self hm hu b ha hk,
    fun x hx hne hkey => State.pmRead_pmWrite_same_unit hm hu b ha hk hx hne hkey,
    fun x k hx => State.pmRead_pmWrite_other_unit hm hu k b ha hx,
    fun k x hx hzero => State.pmRead_of_zero k hx hzero,
    fun k x hx hne => State.pmRead_pmWrite_other_key hu b ha hk hx hne,
    fun k f x hx hf => State.pmRead_zeroFrame_self hu k hx hf,
    fun k f x hf => State.pmRead_zeroFrame_other hm hu k hf⟩

end Sys2Proof
end

section
/-!
SUPPORT. The ledger of a state, its memory and the counters of the device, and the operations that leave it as it is. Each is
proved from the operations that it is put together from, so that later proofs unfold none of them.
-/

namespace Sys2Proof.Machine

/-- Memory, its units and the counters of the device: what `State.Quiet` says of two states, of one. -/
structure Ledger where
  mem : Memory
  units : Sparse Unit64
  now : Nat
  devTime : Nat
  minVersion : Word
  keyIndex : Nat

def State.ledger (s : State) : Ledger := ⟨s.mem, s.units, s.now, s.devTime, s.minVersion, s.keyIndex⟩

/-- A state written out field by field: its ledger reads six of the fields. With `State.ledger_eta` it takes the ledger of a
record update to that of the state updated. -/
@[simp] theorem State.ledger_mk (now : Nat) (agenda : List Turn) (issuer : Option Issuer) (freeCtr ord : Nat) (delays : Sparse Nat)
    (mem : Memory) (units : Sparse Unit64) (creamery : Sparse (Option Owned)) (calendar : Sparse Nat)
    (tlb : Sparse (List TlbEnt)) (pool nextFrame : Nat) (freeFrames : List Nat) (oldFrames : List OldFrame)
    (bindings : List Binding) (cores : Sparse Core) (contexts : List Context) (tasks : List Task) (teams : List Team)
    (groups : List Group) (pails : List Pail) (turn : Sparse Nat) (trapSeq : Nat)
    (reqTail reqHead rspTail rspHead winState : BitVec 64) (reqRing rspRing : Sparse Byte) (outbox : List (List Byte))
    (hostWins : List HostWindow) (hostData : List Byte) (stepCfg : Word) (devTime : Nat) (islands : Sparse Island)
    (peers : Sparse (Option Peer)) (devWrites : List (Nat × BitVec 32)) (ckpts : List Ckpt) (snaps : List Snapshot)
    (running : Option Firmware) (minVersion : Word) (keyIndex : Nat) (drives : List (List Byte)) (booted : Bool)
    (harts : List Hart) (sram : Sparse Byte) :
    State.ledger ⟨now, agenda, issuer, freeCtr, ord, delays, mem, units, creamery, calendar, tlb, pool, nextFrame, freeFrames,
      oldFrames, bindings, cores, contexts, tasks, teams, groups, pails, turn, trapSeq, reqTail, reqHead, rspTail, rspHead,
      winState, reqRing, rspRing, outbox, hostWins, hostData, stepCfg, devTime, islands, peers, devWrites, ckpts, snaps,
      running, minVersion, keyIndex, drives, booted, harts, sram⟩ = ⟨mem, units, now, devTime, minVersion, keyIndex⟩ := by
  simp only [State.ledger]

@[simp] theorem State.ledger_eta (s : State) : (⟨s.mem, s.units, s.now, s.devTime, s.minVersion, s.keyIndex⟩ : Ledger) = s.ledger := by
  simp only [State.ledger]

theorem State.Quiet.ledger {s t : State} (h : s.Quiet t) : t.ledger = s.ledger := by
  obtain ⟨hm, hu, hn, hd, hv, hk⟩ := h
  simp only [State.ledger, hm, hu, hn, hd, hv, hk]

@[simp] theorem State.ledger_foldl {α : Type} {f : State → α → State} (hf : ∀ s a, (f s a).ledger = s.ledger) (l : List α) (s : State) :
    (l.foldl f s).ledger = s.ledger := by
  induction l generalizing s with
  | nil => simp only [List.foldl_nil]
  | cons a l ih => rw [List.foldl_cons, ih, hf]

/-- The ledger of a choice of states that stand alike. -/
theorem State.ledger_ite {p : Prop} [Decidable p] {s t u : State} (hs : s.ledger = u.ledger) (ht : t.ledger = u.ledger) :
    (if p then s else t).ledger = u.ledger := by
  split
  · exact hs
  · exact ht

/-! Operations of `Machine/Base.lean` -/

variable (s : State)

@[simp] theorem State.modGroup_ledger (gi : Nat) (f : Group → Group) : (s.modGroup gi f).ledger = s.ledger := (s.modGroup_quiet gi f).ledger
@[simp] theorem State.modTeam_ledger (ti : Nat) (f : Team → Team) : (s.modTeam ti f).ledger = s.ledger := (s.modTeam_quiet ti f).ledger
@[simp] theorem State.modCtx_ledger (ci : Nat) (f : Context → Context) : (s.modCtx ci f).ledger = s.ledger := (s.modCtx_quiet ci f).ledger
@[simp] theorem State.modPail_ledger (pi : Nat) (f : Pail → Pail) : (s.modPail pi f).ledger = s.ledger := (s.modPail_quiet pi f).ledger
@[simp] theorem State.modCore_ledger (c : Nat) (f : Core → Core) : (s.modCore c f).ledger = s.ledger := (s.modCore_quiet c f).ledger
@[simp] theorem State.flushBox_ledger (l : List (List Byte)) : (s.flushBox l).ledger = s.ledger := (s.flushBox_quiet l).ledger
@[simp] theorem State.send_ledger (m : List Byte) : (s.send m).ledger = s.ledger := (s.send_quiet m).ledger
@[simp] theorem State.respond_ledger (kind status : Nat) (seq : Word) (ctx : Nat) (p : List Byte) :
    (s.respond kind status seq ctx p).ledger = s.ledger := (s.respond_quiet ..).ledger
@[simp] theorem State.stopContext_ledger (ci : Nat) (why : String) : (s.stopContext ci why).ledger = s.ledger :=
  (s.stopContext_quiet ..).ledger
@[simp] theorem State.takeTrap_ledger (gi : Nat) (t : Trap) (pc : Addr) : (s.takeTrap gi t pc).ledger = s.ledger :=
  (s.takeTrap_quiet ..).ledger
@[simp] theorem State.landAll_ledger (gi ord : Nat) (ws : List RegWrite) : (s.landAll gi ord ws).ledger = s.ledger :=
  (s.landAll_quiet ..).ledger
@[simp] theorem State.finish_ledger (i : Iss) (gc g : Group) (regs : List Nat) (extra pend : Nat) (res : List Res)
    (move : Group → Group) : (s.finish i gc g regs extra pend res move).ledger = s.ledger := (s.finish_quiet ..).ledger
@[simp] theorem State.passRun_ledger (i : Iss) (ws : List RegWrite) : (s.passRun i ws).ledger = s.ledger := (s.passRun_quiet ..).ledger
@[simp] theorem State.blockRun_ledger (i : Iss) (c : Cond) (dst : Option Nat) (v : Word) : (s.blockRun i c dst v).ledger = s.ledger :=
  (s.blockRun_quiet ..).ledger
@[simp] theorem State.passAt_ledger (i : Iss) (c : Cond) (ws : List RegWrite) : (s.passAt i c ws).ledger = s.ledger :=
  (s.passAt_quiet ..).ledger
@[simp] theorem State.autoArrive_ledger (gi : Nat) : (s.autoArrive gi).ledger = s.ledger := (s.autoArrive_quiet gi).ledger
@[simp] theorem State.finishValues_ledger (i : Iss) (ns : List Need) (lr ll : Nat) (v : Values) :
    (s.finishValues i ns lr ll v).ledger = s.ledger := (s.finishValues_quiet ..).ledger
@[simp] theorem State.finishWork_ledger (i : Iss) (g : Group) (regs : List Nat) (n : Nat) (ws : List Work) :
    (s.finishWork i g regs n ws).ledger = s.ledger := (s.finishWork_quiet ..).ledger
@[simp] theorem State.settle_ledger (i : Iss) (e : Stop) : (s.settle i e).ledger = s.ledger := (s.settle_quiet i e).ledger
@[simp] theorem State.sweepBarriers_ledger (ti : Nat) : (s.sweepBarriers ti).ledger = s.ledger := (s.sweepBarriers_quiet ti).ledger
@[simp] theorem State.afterExit_ledger (gi : Nat) : (s.afterExit gi).ledger = s.ledger := (s.afterExit_quiet gi).ledger

@[simp] theorem State.freeVal_ledger : s.freeVal.2.ledger = s.ledger := by simp [freeVal]
@[simp] theorem State.sramWrite_ledger (a : Nat) (b : Byte) : (s.sramWrite a b).ledger = s.ledger := by
  fun_cases sramWrite s a b <;> simp
@[simp] theorem State.setHart_ledger (n : Nat) (h : Hart) : (s.setHart n h).ledger = s.ledger := by simp [setHart]
@[simp] theorem State.arrWriteAll_ledger (ci : Nat) (ws : List (Place × Byte)) : (s.arrWriteAll ci ws).ledger = s.ledger := by
  simp [arrWriteAll, arrWrite]
@[simp] theorem State.tileWrite_ledger (ci core t e : Nat) (w : Word) : (s.tileWrite ci core t e w).ledger = s.ledger := by
  simp [tileWrite]
@[simp] theorem State.creamWrite_ledger (ci die off : Nat) (b : Byte) : (s.creamWrite ci die off b).ledger = s.ledger := by
  simp [creamWrite]
@[simp] theorem State.thawGroup_ledger (gi : Nat) : (s.thawGroup gi).ledger = s.ledger := by simp [thawGroup]
@[simp] theorem State.resumeGroup_ledger (gi : Nat) (pass : Bool) : (s.resumeGroup gi pass).ledger = s.ledger := by simp [resumeGroup]
@[simp] theorem State.pushEntry_ledger (ti q : Nat) (ws : List Word) : (s.pushEntry ti q ws).ledger = s.ledger := by simp [pushEntry]
@[simp] theorem State.arrive_ledger (ti n g scope ord : Nat) : (s.arrive ti n g scope ord).ledger = s.ledger := by simp [arrive]
@[simp] theorem State.sawShape_ledger (gi n idx : Nat) : (s.sawShape gi n idx).ledger = s.ledger := by simp [sawShape]
@[simp] theorem State.modQueue_ledger (ti n : Nat) (f : Queue → Queue) : (s.modQueue ti n f).ledger = s.ledger := by simp [modQueue]
@[simp] theorem State.popQueue_ledger (ti n : Nat) : (s.popQueue ti n).ledger = s.ledger := by simp [popQueue]
@[simp] theorem State.claim_ledger (ti n : Nat) : (s.claim ti n).ledger = s.ledger := by simp [claim]
@[simp] theorem State.spendFree_ledger (n : Nat) : (s.spendFree n).ledger = s.ledger := by simp [spendFree]
@[simp] theorem State.mapCores_ledger (f : Core → Core) : (s.mapCores f).ledger = s.ledger := by simp [mapCores]
@[simp] theorem State.dropTlb_ledger (out : TlbEnt → Bool) : (s.dropTlb out).ledger = s.ledger := by simp [dropTlb]
@[simp] theorem State.fillL2_ledger (cluster : Nat) (es : List TlbEnt) : (s.fillL2 cluster es).ledger = s.ledger := by
  fun_cases fillL2 s cluster es <;> simp
@[simp] theorem State.fillTlb_ledger (ti core va) : (s.fillTlb ti core va).ledger = s.ledger := by
  fun_cases fillTlb s ti core va <;> simp
@[simp] theorem State.pushFault_ledger (ci : Nat) (r : FaultRec) : (s.pushFault ci r).ledger = s.ledger := by
  fun_cases pushFault s ci r <;> simp
@[simp] theorem State.countRounds_ledger (gi r : Nat) : (s.countRounds gi r).ledger = s.ledger := by
  fun_cases countRounds s gi r <;> simp
@[simp] theorem State.reread_ledger (gi : Nat) (g : Group) : (s.reread gi g).ledger = s.ledger := by
  fun_cases reread s gi g <;> simp

/-! Barriers, tasks, teams and groups -/

@[simp] theorem State.wakeRecord_ledger (gi r : Nat) : (s.wakeRecord gi r).ledger = s.ledger := by
  fun_cases wakeRecord s gi r <;> simp
@[simp] theorem State.openPhase_ledger (gi onset len i : Nat) : (s.openPhase gi onset len i).ledger = s.ledger := by
  fun_cases openPhase s gi onset len i <;> simp
@[simp] theorem State.enterTask_ledger (ci serial : Nat) (r : TaskRec) (k : Kernel) (es : List RangeEnt) :
    (s.enterTask ci serial r k es).ledger = s.ledger := by simp [enterTask]
@[simp] theorem State.insertTask_ledger (ci : Nat) (r : TaskRec) (k : Kernel) (es : List RangeEnt) :
    (s.insertTask ci r k es).1.ledger = s.ledger := by fun_cases insertTask s ci r k es <;> simp
@[simp] theorem State.insertHostTask_ledger (ci : Nat) (r : TaskRec) (k : Kernel) (es : List RangeEnt) :
    (s.insertHostTask ci r k es).1.ledger = s.ledger := by fun_cases insertHostTask s ci r k es <;> simp
@[simp] theorem State.accept_ledger (c : Context) (g : Group) (t : Team) (va : Addr) : (s.accept c g t va).1.ledger = s.ledger := by
  fun_cases accept s c g t va <;> simp
@[simp] theorem State.idleCheck_ledger (ci : Nat) : (s.idleCheck ci).ledger = s.ledger := by
  fun_cases idleCheck s ci <;> simp
@[simp] theorem State.commitTask_ledger (n : Nat) : (s.commitTask n).ledger = s.ledger := by
  fun_cases commitTask s n <;> simp
@[simp] theorem State.returnFrames_ledger (fs : List Nat) : (s.returnFrames fs).ledger = s.ledger := by simp [returnFrames]
@[simp] theorem State.sweepFrames_ledger : s.sweepFrames.ledger = s.ledger := by simp [sweepFrames]
@[simp] theorem State.retireFrame_ledger (ci : Nat) (old : Option Nat) : (s.retireFrame ci old).ledger = s.ledger := by
  fun_cases retireFrame s ci old <;> simp
@[simp] theorem State.stopPails_ledger (t : Team) : (s.stopPails t).ledger = s.ledger := by simp [stopPails]
@[simp] theorem State.endHandlers_ledger (t : Team) : (s.endHandlers t).ledger = s.ledger := by
  refine ledger_foldl (fun s a => ?_) _ _
  split <;> simp
@[simp] theorem State.endTeam_ledger (t : Team) : (s.endTeam t).ledger = s.ledger := by simp [endTeam]
@[simp] theorem State.abortTeam_ledger (ti : Nat) : (s.abortTeam ti).ledger = s.ledger := by
  unfold abortTeam
  split
  · rfl
  · split <;> simp
@[simp] theorem State.askAbort_ledger (ti : Nat) : (s.askAbort ti).ledger = s.ledger := by
  fun_cases askAbort s ti <;> simp
@[simp] theorem State.putBytes_ledger (t : Team) (k : Kernel) (core : Nat) (bs : List (Arr × Nat × Owned)) :
    (s.putBytes t k core bs).ledger = s.ledger := by simp [putBytes]
@[simp] theorem State.moveTeam_ledger (ti core : Nat) (l : Layout) (stat : TStat) : (s.moveTeam ti core l stat).ledger = s.ledger := by
  unfold moveTeam
  split
  · rfl
  · split <;> simp
@[simp] theorem State.reopenPhases_ledger (ti : Nat) : (s.reopenPhases ti).ledger = s.ledger := by
  unfold reopenPhases
  split
  · rfl
  · refine ledger_foldl (fun s a => ?_) _ _
    split <;> simp
@[simp] theorem State.closePhases_ledger (t : Team) : (s.closePhases t).ledger = s.ledger := by simp [closePhases]
@[simp] theorem State.settleGroup_ledger (gi : Nat) : (s.settleGroup gi).ledger = s.ledger := by
  fun_cases settleGroup s gi <;> simp
@[simp] theorem State.freeSlots_ledger (gi : Nat) : (s.freeSlots gi).ledger = s.ledger := by
  fun_cases freeSlots s gi <;> simp
@[simp] theorem State.putElem_ledger (gi : Nat) (l : Slot) (e : Nat) (x : Elem) : (s.putElem gi l e x).ledger = s.ledger := by
  simp [putElem]
@[simp] theorem State.faultElems_ledger (i : Iss) (l : Slot) (fs : List (Nat × TKind)) : (s.faultElems i l fs).ledger = s.ledger := by
  simp [faultElems]
@[simp] theorem State.performDevice_ledger (i : Iss) (l : Slot) (e : Nat) (x : Elem) (pa : Nat) :
    (s.performDevice i l e x pa).ledger = s.ledger := by fun_cases performDevice s i l e x pa <;> simp
@[simp] theorem State.performChip_ledger (i : Iss) (l : Slot) (e : Nat) (x : Elem) :
    (s.performChip i l e x).ledger = s.ledger := by fun_cases performChip s i l e x <;> simp
@[simp] theorem State.performRemote_ledger (i : Iss) (l : Slot) (e core : Nat) (x : Elem) :
    (s.performRemote i l e core x).ledger = s.ledger := by fun_cases performRemote s i l e core x <;> simp
@[simp] theorem State.landElem_ledger (gi : Nat) (l : Slot) (e : Nat) : (s.landElem gi l e).ledger = s.ledger := by
  unfold landElem
  split
  · rfl
  · split <;> simp
@[simp] theorem State.runAtoms_ledger (ci : Nat) (op : AtomOp) (ty : Ty) (es : List (Elem × Place)) :
    (s.runAtoms ci op ty es).1.ledger = s.ledger := by
  induction es generalizing s with
  | nil => rfl
  | cons x rest ih => simp [runAtoms, ih]
@[simp] theorem State.chipElemsDone_ledger (i : Iss) (ord : Nat) : (s.chipElemsDone i ord).ledger = s.ledger := by
  fun_cases chipElemsDone s i ord <;> simp
@[simp] theorem State.performHead_ledger (i : Iss) (ent : StoreEnt) : (s.performHead i ent).ledger = s.ledger := by
  unfold performHead
  split
  · split <;> simp
  · split
    · simp
    · dsimp only
      split <;> simp
  · split <;> simp
@[simp] theorem State.pieceFaults_ledger (i : Iss) (l : Slot) (fs : List (Nat × EndFault)) : (s.pieceFaults i l fs).ledger = s.ledger := by
  unfold pieceFaults
  split <;> simp
@[simp] theorem State.endCommand_ledger (gi num : Nat) : (s.endCommand gi num).ledger = s.ledger := by
  unfold endCommand
  split
  · rfl
  · split
    · rfl
    · split <;> simp
@[simp] theorem State.noteLanded_ledger (gi num ck : Nat) : (s.noteLanded gi num ck).ledger = s.ledger := by simp [noteLanded]
@[simp] theorem State.replay_ledger (page : Nat) (r : FaultRec) : (s.replay page r).ledger = s.ledger := by
  fun_cases replay s page r <;> simp
@[simp] theorem State.reopen_ledger (gi : Nat) (p : Option (Nat × Nat)) : (s.reopen gi p).ledger = s.ledger := by
  fun_cases reopen s gi p <;> simp
@[simp] theorem State.goOn_ledger (gi : Nat) (pass : Bool) : (s.goOn gi pass).ledger = s.ledger := by simp [goOn]
@[simp] theorem State.letGo_ledger (gi : Nat) : (s.letGo gi).ledger = s.ledger := by
  fun_cases letGo s gi <;> simp
@[simp] theorem State.releaseBound_ledger (ci entry : Nat) (target : Addr) : (s.releaseBound ci entry target).ledger = s.ledger := by
  simp [releaseBound]
@[simp] theorem State.startHandler_ledger (gi : Nat) (g : Group) (c : Context) (t : TrapState) (slot : Nat) :
    (s.startHandler gi g c t slot).ledger = s.ledger := by simp [startHandler]
@[simp] theorem State.endHandler_ledger (hi core : Nat) : (s.endHandler hi core).ledger = s.ledger := by simp [endHandler]
@[simp] theorem State.tretAct_ledger (gi action : Nat) : (s.tretAct gi action).ledger = s.ledger := by
  fun_cases tretAct s gi action <;> simp
@[simp] theorem State.queueWatch_ledger (i : Iss) (n : Nat) (w : Option Watch) : (s.queueWatch i n w).ledger = s.ledger := by
  simp [queueWatch]
@[simp] theorem State.remoteStop_ledger (i : Iss) (q : Quad) (r : Rec) : (s.remoteStop i q r).ledger = s.ledger := by simp [remoteStop]
@[simp] theorem State.finishLater_ledger (i : Iss) (ns : List Need) (v : Values) : (s.finishLater i ns v).ledger = s.ledger := by
  simp [finishLater]
@[simp] theorem State.matrixCk_ledger (core : Nat) : (s.matrixCk core).ledger = s.ledger := by
  fun_cases matrixCk s core <;> simp
@[simp] theorem State.putIteration_ledger (i : Iss) (l : Loop) (out : Block × Block × Block × Word) (m : Mls) :
    (s.putIteration i l out m).ledger = s.ledger := by simp [putIteration]
@[simp] theorem State.suspendLoop_ledger (gi : Nat) (m : Mls) (status : Nat) : (s.suspendLoop gi m status).ledger = s.ledger := by
  simp [suspendLoop]
@[simp] theorem State.afterIteration_ledger (i : Iss) (l : Loop) (m : Mls) : (s.afterIteration i l m).ledger = s.ledger := by
  unfold afterIteration
  dsimp only
  split
  · split <;> simp
  · simp
  · split
    · simp
    · split
      · simp
      · split <;> simp
@[simp] theorem State.completeWork_ledger (g : Group) (gi : Nat) (w : Work) : (s.completeWork g gi w).ledger = s.ledger := by
  simp [completeWork]
@[simp] theorem State.storeShape_ledger (i : Iss) (n : Nat) (x : BitVec 640) : (s.storeShape i n x).ledger = s.ledger := by
  simp [storeShape]
@[simp] theorem State.answerFetch_ledger (gi : Nat) (g : Group) (c : Context) : (s.answerFetch gi g c).ledger = s.ledger := by
  fun_cases answerFetch s gi g c <;> simp
@[simp] theorem State.upsetCopy_ledger (core n : Nat) : (s.upsetCopy core n).ledger = s.ledger := by
  fun_cases upsetCopy s core n <;> simp
@[simp] theorem State.modIsland_ledger (n : Nat) (f : Island → Island) : (s.modIsland n f).ledger = s.ledger := by simp [modIsland]
@[simp] theorem State.faultPeer_ledger (slot : Nat) : (s.faultPeer slot).ledger = s.ledger := by
  refine ledger_foldl (fun s gi => ?_) _ _
  split
  · rfl
  · refine ledger_foldl (fun s l => ?_) _ _
    split <;> simp

/-! Pails -/

@[simp] theorem State.haltPail_ledger (i : PIss) (fault : Bool) : (s.haltPail i fault).ledger = s.ledger := by simp [haltPail]
@[simp] theorem State.stallPail_ledger (i : PIss) (va : Nat) (write : Bool) (k : TKind) : (s.stallPail i va write k).ledger = s.ledger := by
  simp [stallPail]
@[simp] theorem State.pailWait_ledger (i : PIss) : (s.pailWait i).ledger = s.ledger := by simp [pailWait]
@[simp] theorem State.pailDone_ledger (i : PIss) (pc : Word) (f : Pail → Pail) : (s.pailDone i pc f).ledger = s.ledger := by
  simp [pailDone]
@[simp] theorem State.pailCsr_ledger (i : PIss) (next : Word) (op : RvCsr) (rd : BitVec 5) (v : Word) (num : BitVec 12) :
    (s.pailCsr i next op rd v num).ledger = s.ledger := by fun_cases pailCsr s i next op rd v num <;> simp

/-! The host -/

@[simp] theorem State.consume_ledger : s.consume.ledger = s.ledger := by simp [consume]
@[simp] theorem State.windowPut_ledger (off : Nat) (b : Byte) : (s.windowPut off b).ledger = s.ledger := by
  fun_cases windowPut s off b <;> simp
@[simp] theorem State.readWindow_ledger (off n : Nat) : (s.readWindow off n).ledger = s.ledger := by simp [readWindow]
@[simp] theorem State.submitFrom_ledger (ci : Nat) (c : Context) (va : Nat) : (s.submitFrom ci c va).1.ledger = s.ledger := by
  fun_cases submitFrom s ci c va <;> simp
@[simp] theorem State.cutGroup_ledger (gi : Nat) : (s.cutGroup gi).ledger = s.ledger := by
  fun_cases cutGroup s gi <;> simp
@[simp] theorem State.finishKill_ledger (ci : Nat) (seq : Word) : (s.finishKill ci seq).ledger = s.ledger := by simp [finishKill]
@[simp] theorem State.cutDying_ledger (ci : Nat) (force : Bool) : (s.cutDying ci force).ledger = s.ledger := by
  unfold cutDying
  split
  · rfl
  · dsimp only
    split <;> simp [apply_ite State.ledger]
@[simp] theorem State.debugDo_ledger (gi : Nat) (act : DebugAct) : (s.debugDo gi act).1.ledger = s.ledger := by
  fun_cases debugDo s gi act <;> simp
@[simp] theorem State.setDebugger_ledger (ci : Nat) (on : Bool) : (s.setDebugger ci on).ledger = s.ledger := by simp [setDebugger]
@[simp] theorem State.askAll_ledger (ci : Nat) : (s.askAll ci).ledger = s.ledger := by simp [askAll]
@[simp] theorem State.fence_ledger (device : Nat) : (s.fence device).ledger = s.ledger := by simp [fence]
@[simp] theorem State.bindSpare_ledger (device spare : Nat) : (s.bindSpare device spare).ledger = s.ledger := by simp [bindSpare]
@[simp] theorem State.makeRoom_ledger (n : Snapshot) : (s.makeRoom n).ledger = s.ledger := by simp [makeRoom]
@[simp] theorem State.freeStatus_ledger : s.freeStatus.2.ledger = s.ledger := by simp [freeStatus]
/-! The schedule -/

@[simp] theorem State.touchTrace_ledger (who : Issuer) : (s.touchTrace who).ledger = s.ledger := by
  fun_cases touchTrace s who <;> simp
@[simp] theorem State.issuing_ledger (who : Issuer) : (s.issuing who).ledger = s.ledger := by simp [issuing]
@[simp] theorem State.beforeIssue_ledger (core : Nat) : (s.beforeIssue core).ledger = s.ledger := by
  fun_cases beforeIssue s core <;> simp
@[simp] theorem State.countLate_ledger (gi : Nat) : (s.countLate gi).ledger = s.ledger := by
  fun_cases countLate s gi <;> simp
@[simp] theorem State.rereadGroup_ledger (gi : Nat) : (s.rereadGroup gi).ledger = s.ledger := by
  fun_cases rereadGroup s gi <;> simp
@[simp] theorem State.coreCk_ledger (core : Nat) : (s.coreCk core).ledger = s.ledger := by simp [coreCk]
@[simp] theorem State.mapWindow_ledger (w : HostWindow) : (s.mapWindow w).ledger = s.ledger := by
  exact ledger_ite (by simp) rfl

end Sys2Proof.Machine
end

section
/-!
SUPPORT. The operations that write memory, unit by unit or frame by frame (R68, R210-R212, R215, R379, R396): each keeps memory
and the unit table canonical and lowers no counter of the device.
-/

namespace Sys2Proof.Machine

/-! Sparse lists written several times -/

/-- Writes at keys of one's own choice keep the canonical form. -/
theorem sparseWf_foldl_spSet {α β : Type} [DecidableEq α] {d : α} (key : β → Nat) (val : β → α) (ws : List β) {m : Sparse α}
    (hm : sparseWf d 0 m = true) : sparseWf d 0 (ws.foldl (fun m w => spSet d m (key w) (val w)) m) = true := by
  induction ws generalizing m with
  | nil => exact hm
  | cons w ws ih => exact ih (spSet_wf m (val w) (Nat.zero_le _) hm)

/-! What memory and the counters of the device can come to -/

/-- Canonical memory and a canonical unit table stay canonical, and no counter of the device falls. -/
structure Ledger.Leads (a b : Ledger) : Prop where
  mem : a.mem.wf = true → b.mem.wf = true
  units : sparseWf ⟨0, 0#64⟩ 0 a.units = true → sparseWf ⟨0, 0#64⟩ 0 b.units = true
  now : a.now ≤ b.now
  devTime : a.devTime ≤ b.devTime
  minVersion : a.minVersion.toNat ≤ b.minVersion.toNat
  keyIndex : a.keyIndex ≤ b.keyIndex

@[simp] theorem Ledger.leads_refl (a : Ledger) : a.Leads a := by constructor <;> simp

theorem Ledger.Leads.trans {a b c : Ledger} (h : a.Leads b) (h' : b.Leads c) : a.Leads c :=
  ⟨h'.mem ∘ h.mem, h'.units ∘ h.units, h.now.trans h'.now, h.devTime.trans h'.devTime, h.minVersion.trans h'.minVersion,
    h.keyIndex.trans h'.keyIndex⟩

/-- Where memory alone changes, and canonically. -/
theorem Ledger.leads_of_mem {a : Ledger} {m : Memory} {u : Sparse Unit64} (hm : a.mem.wf = true → m.wf = true)
    (hu : sparseWf ⟨0, 0#64⟩ 0 a.units = true → sparseWf ⟨0, 0#64⟩ 0 u = true) :
    a.Leads ⟨m, u, a.now, a.devTime, a.minVersion, a.keyIndex⟩ :=
  ⟨hm, hu, le_rfl, le_rfl, le_rfl, le_rfl⟩

section
variable {a : Ledger} {s : State}

/-- Equal ledgers lead alike. -/
theorem Ledger.leads_of_eq {t : State} (h : t.ledger = s.ledger) : s.ledger.Leads t.ledger := h ▸ leads_refl _

theorem State.leads_foldl {α : Type} {f : State → α → State} (hf : ∀ (t : State) x, t.ledger.Leads (f t x).ledger) (l : List α)
    (h : a.Leads s.ledger) : a.Leads (l.foldl f s).ledger := by
  induction l generalizing s with
  | nil => exact h
  | cons x l ih => exact ih (h.trans (hf s x))

theorem Ledger.Leads.ite {p : Prop} [Decidable p] {t : State} (h : a.Leads s.ledger) (h' : a.Leads t.ledger) :
    a.Leads (if p then s else t).ledger := by
  split
  · exact h
  · exact h'

@[simp] theorem Ledger.leads_ite {p : Prop} [Decidable p] {t : State} :
    a.Leads (if p then s else t).ledger ↔ if p then a.Leads s.ledger else a.Leads t.ledger := by split <;> rfl

/-- The state of a pair, where the pair is known. -/
theorem Ledger.Leads.of_pair {α : Type} {p : α × State} {r : α} {t : State} (h : a.Leads p.2.ledger) (e : p = (r, t)) :
    a.Leads t.ledger := by subst e; exact h

theorem Ledger.Leads.of_pair_left {α : Type} {p : State × α} {r : α} {t : State} (h : a.Leads p.1.ledger) (e : p = (t, r)) :
    a.Leads t.ledger := by subst e; exact h

/-! Physical memory -/

@[simp] theorem State.pmWrite_leads (h : a.Leads s.ledger) (key x : Nat) (b : Byte) : a.Leads (s.pmWrite key x b).ledger := by
  have hu : sparseWf ⟨0, 0#64⟩ 0 s.units = true → sparseWf ⟨0, 0#64⟩ 0 (s.pmWrite key x b).units = true := by
    intro hu
    unfold pmWrite
    split
    · exact hu
    · exact spSet_wf _ _ (Nat.zero_le _) hu
  refine h.trans ⟨State.pmWrite_wf key x b, hu, ?_, ?_, ?_, ?_⟩ <;> simp only [ledger, pmWrite_now, pmWrite_devTime,
    pmWrite_minVersion, pmWrite_keyIndex, le_refl]

@[simp] theorem State.pmWriteN_leads (h : a.Leads s.ledger) (key x : Nat) (bs : List Byte) : a.Leads (s.pmWriteN key x bs).ledger :=
  leads_foldl (fun _ _ => pmWrite_leads (Ledger.leads_refl _) _ _ _) _ h

@[simp] theorem State.zeroFrame_leads (h : a.Leads s.ledger) (f : Nat) : a.Leads (s.zeroFrame f).ledger :=
  h.trans (Ledger.leads_of_mem (State.zeroFrame_wf f) (sparseWf_filter _))

@[simp] theorem State.moveFrame_leads (h : a.Leads s.ledger) (f f' : Nat) : a.Leads (s.moveFrame f f').ledger := by
  unfold moveFrame
  split
  · exact h
  · have hz : s.ledger.Leads ((s.zeroFrame f).zeroFrame f').ledger := zeroFrame_leads (zeroFrame_leads (Ledger.leads_refl _) _) _
    exact h.trans (hz.trans (Ledger.leads_of_mem (sparseWf_foldl_spSet _ _ _) (sparseWf_foldl_spSet _ _ _)))

@[simp] theorem State.takeFrame_leads (h : a.Leads s.ledger) : a.Leads s.takeFrame.2.ledger := by
  fun_cases takeFrame s <;> simp [h]

/-! Tables and translation -/

@[simp] theorem State.setPte_leads (h : a.Leads s.ledger) (x e : Nat) : a.Leads (s.setPte x e).ledger := pmWriteN_leads h _ _ _

@[simp] theorem State.tablesFor_leads (h : a.Leads s.ledger) (va : Nat) (ls : List (Nat × Nat × Bool)) (tbl : Nat) :
    a.Leads (s.tablesFor va ls tbl).1.ledger := by
  fun_induction State.tablesFor s va ls tbl with
  | case1 | case2 | case3 => exact h
  | case4 => rename_i ih; exact ih h
  | case5 => rename_i ih; exact ih (setPte_leads (by simpa using h) _ _)

@[simp] theorem State.mapAt_leads (h : a.Leads s.ledger) (root va level e : Nat) : a.Leads (s.mapAt root va level e).ledger :=
  setPte_leads (tablesFor_leads h _ _ _) _ _

@[simp] theorem State.mapPage_leads (h : a.Leads s.ledger) (root va e : Nat) : a.Leads (s.mapPage root va e).ledger := mapAt_leads h _ _ _ _

@[simp] theorem State.touch_leads (h : a.Leads s.ledger) (x e : Nat) (acc : Acc) : a.Leads (s.touch x e acc).ledger := by
  exact Ledger.Leads.ite h (setPte_leads h _ _)

@[simp] theorem State.touchLeaf_leads (h : a.Leads s.ledger) (root va : Nat) (acc : Acc) : a.Leads (s.touchLeaf root va acc).ledger := by
  fun_cases touchLeaf s root va acc <;> simp [h]

theorem State.skim_leads {t : State} {x : Nat} (h : a.Leads s.ledger) (e : s.skim x = some t) : a.Leads t.ledger := by
  unfold skim at e
  split at e
  · cases e
  · obtain rfl := Option.some.inj e
    exact setPte_leads (takeFrame_leads h) _ _

theorem State.tableAccess_leads (h : a.Leads s.ledger) (ci root va : Nat) (acc : Acc) (dev mapped : Bool) :
    a.Leads (s.tableAccess ci root va acc dev mapped).2.ledger := by
  unfold tableAccess
  extract_lets leaf
  have hleaf {s : State} (h : a.Leads s.ledger) (x e sh : Nat) : a.Leads (leaf s x e sh).2.ledger := by
    dsimp only [leaf]
    split
    · exact h
    · split
      · exact h
      · split
        · exact h
        · exact touch_leads h _ _ _
  split
  · exact hleaf h _ _ _
  · exact h
  · split
    · rename_i hs
      exact hleaf (skim_leads h hs) _ _ _
    · exact h

theorem State.access_leads (h : a.Leads s.ledger) (ci : Nat) (ti : Option Nat) (va : Nat) (acc : Acc) (dev : Bool) :
    a.Leads (s.access ci ti va acc dev).2.ledger := by
  unfold access
  split
  · exact h
  · extract_lets tile reach
    have hreach (mapped : Bool) : a.Leads (reach mapped).2.ledger := by
      dsimp only [reach]
      split
      · split
        · exact touchLeaf_leads h _ _ _
        · exact h
      · exact tableAccess_leads h _ _ _ _ _ _
    split
    · exact hreach _
    · split
      · exact hreach _
      · exact h
    · exact hreach _
    · split
      · exact h
      · exact hreach _

@[simp] theorem State.writePa_leads (h : a.Leads s.ledger) (ci pa n x : Nat) : a.Leads (s.writePa ci pa n x).ledger := pmWriteN_leads h _ _ _

/-! Teams that start and elements that are performed -/

@[simp] theorem State.giveVersion_leads (h : a.Leads s.ledger) (ti : Nat) (t : Team) (tile : Nat) (part : Bool) :
    a.Leads (s.giveVersion ti t tile part).ledger := by
  have hf := takeFrame_leads h
  unfold giveVersion
  simp only [modTeam_ledger]
  split
  · split
    · exact pmWriteN_leads hf _ _ _
    · exact hf
  · exact hf

@[simp] theorem State.startTeam_leads (h : a.Leads s.ledger) (ti core : Nat) (l : Layout) : a.Leads (s.startTeam ti core l).ledger := by
  unfold startTeam
  split
  · exact h
  · split
    · simp only [modTeam_ledger, ledger_mk, ledger_eta]
      exact leads_foldl (fun s e => giveVersion_leads (Ledger.leads_refl _) _ _ _ _) _ h
    · exact h

@[simp] theorem State.performAt_leads (h : a.Leads s.ledger) (i : Iss) (l : Slot) (e : Nat) (x : Elem) (pa : Nat) :
    a.Leads (s.performAt i l e x pa).ledger := by
  unfold performAt
  dsimp only
  split
  case h_6 | h_7 =>
    rw [putElem_ledger]
    refine Ledger.Leads.ite ?_ (writePa_leads h _ _ _ _)
    simpa using writePa_leads h _ _ _ _
  all_goals simp [h]

@[simp] theorem State.performGlobal_leads (h : a.Leads s.ledger) (i : Iss) (l : Slot) (e : Nat) (x : Elem) :
    a.Leads (s.performGlobal i l e x).ledger := by
  unfold performGlobal
  dsimp only
  split
  · exact h
  · split
    · rename_i he
      simpa using (access_leads h _ _ _ _ _).of_pair he
    · rename_i he
      have hs := (access_leads h _ _ _ _ _).of_pair he
      split
      · split
        · simpa using hs
        · exact h
      · exact performAt_leads (by simpa using hs) _ _ _ _ _

/-! Commands of the engine -/

theorem State.endOf_leads (h : a.Leads s.ledger) (i : Iss) (va : Addr) (acc : Acc) : a.Leads (s.endOf i va acc).2.ledger := by
  unfold endOf
  split
  · split
    · rename_i he
      simpa using (access_leads h _ _ _ _ _).of_pair he
    · rename_i he
      exact (access_leads h _ _ _ _ _).of_pair he
  · split
    · split
      · exact h
      · simp [h]
    · exact h
    · exact h
  · exact h

theorem State.endWrite_leads (h : a.Leads s.ledger) (i : Iss) (bs : List Byte) (e : End) : a.Leads (s.endWrite i bs e).ledger := by
  fun_cases endWrite s i bs e <;> simp [h]

theorem State.endsOf_leads (h : a.Leads s.ledger) (i : Iss) (acc : Acc) (ps : List (Addr × Nat)) :
    a.Leads (s.endsOf i acc ps).2.ledger := by
  induction ps generalizing s with
  | nil => exact h
  | cons p rest ih => exact ih (endOf_leads h _ _ _)

theorem State.movePiece_leads (h : a.Leads s.ledger) (i : Iss) (l : Slot) (e : Nat) (x : Elem) :
    a.Leads (s.movePiece i l e x).2.ledger := by
  have hends := endOf_leads (endsOf_leads h i .read (pageParts x.src x.len)) i x.va .write
  unfold movePiece
  dsimp only
  split
  · split
    · exact h
    · simpa using endWrite_leads hends _ _ _
  · exact hends

theorem State.movePieces_leads (h : a.Leads s.ledger) (i : Iss) (l : Slot) (xs : List (Nat × Elem)) :
    a.Leads (s.movePieces i l xs).2.ledger := by
  induction xs generalizing s with
  | nil => exact h
  | cons x rest ih => exact ih (movePiece_leads h _ _ _ _)

/-! Faults, the binder and fetches -/

@[simp] theorem State.makeResident_leads (h : a.Leads s.ledger) (ci : Nat) (c : Context) (page frame : Nat) :
    a.Leads (s.makeResident ci c page frame).ledger := by
  unfold makeResident
  split
  · split <;> simpa using h
  · have ht := tablesFor_leads h (page * 65536) walkLevels c.root
    refine setPte_leads ?_ _ _
    simp only [ledger_mk, ledger_eta]
    split
    · simpa using moveFrame_leads ht _ _
    · exact zeroFrame_leads ht _

@[simp] theorem State.genWrite_leads (h : a.Leads s.ledger) (ci root va n x : Nat) : a.Leads (s.genWrite ci root va n x).ledger := by
  fun_cases genWrite s ci root va n x <;> simp [h]

theorem State.bindEntry_leads (h : a.Leads s.ledger) (gi : Nat) (ps : List Nat) (c : Context) (ci : Nat) (o : Obj) (n : Nat) :
    a.Leads (s.bindEntry gi ps c ci o n).ledger := by
  unfold bindEntry
  dsimp only
  split <;> simp [h]

theorem State.bindStep_leads (h : a.Leads s.ledger) (n : Nat) : a.Leads (s.bindStep n).ledger := by
  unfold bindStep
  split
  · exact h
  · dsimp only
    split
    · rw [stopContext_ledger]
      exact Ledger.Leads.ite (by simp [h]) (by simp [h])
    · split
      · rw [releaseBound_ledger]
        exact Ledger.Leads.ite (by simp [h]) (by simp [h])
      · simp [h]

theorem State.runBinder_leads (h : a.Leads s.ledger) (gi : Nat) (ps : List Nat) (pc : Addr) (n : Nat) :
    a.Leads (s.runBinder gi ps pc n).ledger := by
  unfold runBinder
  split
  · exact h
  · split
    · exact h
    · split
      · exact h
      · split
        · exact bindEntry_leads h _ _ _ _ _ _
        · simpa using h

theorem State.placeBkpt_leads (h : a.Leads s.ledger) (ci : Nat) (pc : Addr) (n : BitVec 16) : a.Leads (s.placeBkpt ci pc n).ledger := by
  unfold placeBkpt
  split
  · exact h
  · split
    · exact Ledger.Leads.ite (by simp [h]) h
    · exact h

theorem State.touchOperands_leads (h : a.Leads s.ledger) (i : Iss) (xs : List Stretch) : a.Leads (s.touchOperands i xs).ledger := by
  refine leads_foldl (fun s p => ?_) _ h
  split <;> simp

theorem State.fetchWalk_leads (h : a.Leads s.ledger) (c : Context) (line : Nat) : a.Leads (s.fetchWalk c line).1.ledger := by
  unfold fetchWalk
  split
  · split
    · rename_i hs
      exact skim_leads h hs
    · exact h
  · exact h

@[simp] theorem State.holdPage_leads (h : a.Leads s.ledger) (ci va frame : Nat) : a.Leads (s.holdPage ci va frame).ledger := by
  unfold holdPage
  split
  · split <;> simp [h]
  · exact h

/-! Pails -/

theorem State.pailAccess_leads (h : a.Leads s.ledger) (i : PIss) (tgt : PTarget) (size : Nat) (data : Option Word) (word : Bool) :
    a.Leads (s.pailAccess i tgt size data word).2.ledger := by
  unfold pailAccess
  dsimp only
  split
  · split <;> simp [h]
  · split <;> simp [h]
  · split
    · simp [h]
    · split
      · rename_i he
        simpa using (access_leads h _ _ _ _ _).of_pair he
      · rename_i he
        have hs := (access_leads h _ _ _ _ _).of_pair he
        split
        · split <;> simp [hs]
        · split <;> simp [hs]

theorem State.pailLoad_leads (h : a.Leads s.ledger) (i : PIss) (next : Word) (wd : RvMem) (rd : BitVec 5) (x : Word) :
    a.Leads (s.pailLoad i next wd rd x).ledger := by
  unfold pailLoad
  split
  · simp [h]
  · split
    · rename_i he
      exact (pailAccess_leads h _ _ _ _ _).of_pair he
    · rename_i he
      simpa using (pailAccess_leads h _ _ _ _ _).of_pair he

theorem State.pailStore_leads (h : a.Leads s.ledger) (i : PIss) (next : Word) (wd : RvMem) (x data : Word) :
    a.Leads (s.pailStore i next wd x data).ledger := by
  unfold pailStore
  split
  · simp [h]
  · split
    · rename_i he
      exact (pailAccess_leads h _ _ _ _ _).of_pair he
    · rename_i he
      simpa using (pailAccess_leads h _ _ _ _ _).of_pair he

theorem State.pailRun_leads (h : a.Leads s.ledger) (i : PIss) (r : RvInstr) (short : Bool) : a.Leads (s.pailRun i r short).ledger := by
  unfold pailRun
  dsimp only
  split
  case h_6 => exact pailLoad_leads h _ _ _ _ _
  case h_7 => exact pailStore_leads h _ _ _ _ _
  all_goals simpa using h

theorem State.readRow_leads (h : a.Leads s.ledger) (i : PIss) (ts : List PTarget) : a.Leads (s.readRow i ts).2.ledger := by
  fun_induction State.readRow s i ts with
  | case1 => exact h
  | case2 s t rest s1 he => exact (pailAccess_leads h _ _ _ _ _).of_pair he
  | case3 s t rest v s1 he ih => exact ih (by simpa using (pailAccess_leads h _ _ _ _ _).of_pair he)

theorem State.writeRow_leads (h : a.Leads s.ledger) (i : PIss) (ts : List (PTarget × Word)) : a.Leads (s.writeRow i ts).2.ledger := by
  fun_induction State.writeRow s i ts with
  | case1 => exact h
  | case2 s t v rest s1 he => exact (pailAccess_leads h _ _ _ _ _).of_pair he
  | case3 s t v rest x s1 he ih => exact ih (by simpa using (pailAccess_leads h _ _ _ _ _).of_pair he)

theorem State.putRow_leads (h : a.Leads s.ledger) (i : PIss) (ts : List PTarget) (row : List Word) : a.Leads (s.putRow i ts row).ledger := by
  unfold putRow
  split
  · rename_i he
    exact (writeRow_leads h _ _).of_pair he
  · rename_i he
    simpa using (writeRow_leads h _ _).of_pair he

theorem State.pqPushWith_leads (h : a.Leads s.ledger) (i : PIss) (q : BitVec 5) {go : State → Nat → State}
    (hgo : ∀ (s : State) n, a.Leads s.ledger → a.Leads (go s n).ledger) : a.Leads (s.pqPushWith i q go).ledger := by
  unfold pqPushWith
  split
  · simpa using h
  · dsimp only
    split
    · exact hgo _ _ (by simpa using h)
    · split <;> simpa using h

theorem State.pqPopWith_leads (h : a.Leads s.ledger) (i : PIss) (q : BitVec 5) {go : State → Nat → List Word → State}
    (hgo : ∀ (s : State) n e, a.Leads s.ledger → a.Leads (go s n e).ledger) : a.Leads (s.pqPopWith i q go).ledger := by
  unfold pqPopWith
  split
  · simpa using h
  · dsimp only
    split
    · exact hgo _ _ _ (by simpa using h)
    · simpa using h

/-! Objects, checkpoints and the identity -/

theorem State.mapFresh_leads (h : a.Leads s.ledger) (root page perms : Nat) : a.Leads (s.mapFresh root page perms).ledger :=
  mapPage_leads (zeroFrame_leads (by simpa using h) _) _ _ _

theorem State.pokeByte_leads (h : a.Leads s.ledger) (ci root va : Nat) (b : Byte) : a.Leads (s.pokeByte ci root va b).ledger := by
  fun_cases pokeByte s ci root va b <;> simp [h]

theorem LoadCtx.install_leads (h : a.Leads s.ledger) (l : LoadCtx) (ci stub : Nat) (p : Patch) (trans : Nat × List Byte) :
    a.Leads (l.install ci stub p trans s).ledger := by
  have hput {b : Ledger} {s : State} (h : b.Leads s.ledger) (ws : List (Nat × Byte)) :
      b.Leads (ws.foldl (fun s w => s.pokeByte ci l.c.root w.1 w.2) s).ledger :=
    State.leads_foldl (fun s w => State.pokeByte_leads (Ledger.leads_refl _) _ _ _ _) _ h
  exact hput (State.leads_foldl (fun s n => hput (Ledger.leads_refl _) _) _ (State.leads_foldl
    (fun s x => hput (Ledger.leads_refl _) _) _
    (State.leads_foldl (fun s q => State.mapFresh_leads (Ledger.leads_refl _) _ _ _) _ h))) _

theorem State.writeCopies_leads (h : a.Leads s.ledger) (k : Ckpt) (c : Context) : a.Leads (s.writeCopies k c).ledger := by
  simp only [writeCopies, ledger_mk, ledger_eta, spendFree_ledger]
  exact pmWriteN_leads (pmWriteN_leads h _ _ _) _ _ _

theorem State.restore_leads (h : a.Leads s.ledger) (n : Snapshot) : a.Leads (s.restore n).ledger :=
  h.trans (Ledger.leads_of_mem (fun hm => sparseWf_foldl_spSet _ _ _ (sparseWf_filter _ hm))
    (fun hu => sparseWf_foldl_spSet _ _ _ (sparseWf_filter _ hu)))

theorem State.restoreAll_leads (h : a.Leads s.ledger) : a.Leads s.restoreAll.ledger :=
  leads_foldl (fun _ n => restore_leads (Ledger.leads_refl _) n) _ h

theorem State.adopt_leads (h : a.Leads s.ledger) (n : Snapshot) : a.Leads (s.adopt n).ledger :=
  Ledger.Leads.ite (restore_leads (by simpa using h) n) h

/-- The minimum version only rises (R396). -/
theorem State.runFirmware_leads (h : a.Leads s.ledger) (f : Firmware) : a.Leads (s.runFirmware f).ledger := by
  refine h.trans ⟨id, id, le_rfl, le_rfl, ?_, le_rfl⟩
  show s.minVersion.toNat ≤ (if s.minVersion.ult f.version then f.version else s.minVersion).toNat
  split
  · rename_i hlt
    simp only [BitVec.ult, decide_eq_true_eq] at hlt
    exact hlt.le
  · exact le_rfl

/-! Time -/

/-- A state like another in its ledger, one ns later. -/
theorem State.later_leads {t : State} (h : t.ledger = s.ledger) (islands : Sparse Island) :
    s.ledger.Leads ({ t with now := t.now + 1, devTime := t.devTime + 1, islands := islands } : State).ledger := by
  rw [← h]
  exact ⟨id, id, Nat.le_succ _, Nat.le_succ _, le_rfl, le_rfl⟩

theorem State.tick_leads (s : State) : s.ledger.Leads s.tick.ledger :=
  later_leads (ledger_foldl coreCk_ledger _ _) _

end
end Sys2Proof.Machine
end

section
/-!
SUPPORT. What the shared shapes of an instruction do to the ledger: an issue comes to what its body comes to.
-/

namespace Sys2Proof.Machine

/-! What a body and an outcome come to -/

/-- Every value that a body answers has a property. -/
def Gives {ε α : Type} (P : α → Prop) (x : Except ε α) : Prop := ∀ v, x = .ok v → P v

section
variable {ε α β : Type} {P : α → Prop} {Q : β → Prop} {x y : Except ε α}

@[simp] theorem gives_ok {v : α} : Gives P (.ok v : Except ε α) ↔ P v := by simp [Gives]
@[simp] theorem gives_pure {v : α} : Gives P (pure v : Except ε α) ↔ P v := by simp [Gives, pure, Except.pure]
@[simp] theorem gives_error {e : ε} : Gives P (.error e) := by simp [Gives]
@[simp] theorem gives_bind {f : α → Except ε β} : Gives Q (x >>= f) ↔ ∀ v, x = .ok v → Gives Q (f v) := by
  cases x <;> simp [Gives, bind, Except.bind]
@[simp] theorem gives_map {f : α → β} : Gives Q (x.map f) ↔ Gives (fun v => Q (f v)) x := by
  cases x <;> simp [Gives, Except.map]
@[simp] theorem gives_ite {p : Prop} [Decidable p] : Gives P (if p then x else y) ↔ if p then Gives P x else Gives P y := by
  split <;> rfl
theorem gives_of_forall (h : ∀ v, P v) : Gives P x := fun v _ => h v

end

/-- Every next state that an outcome answers is led to. -/
def Ledger.Admits (a : Ledger) (o : Host.Outcome State Fault Refusal) : Prop := ∀ t, o = .next t → a.Leads t.ledger

@[simp] theorem Ledger.admits_next {a : Ledger} {t : State} : a.Admits (.next t) ↔ a.Leads t.ledger := by simp [Admits]
@[simp] theorem Ledger.admits_fault {a : Ledger} {f : Fault} : a.Admits (.fault f) := by simp [Admits]

theorem Ledger.admits_of_quiet {s : State} {o : Host.Outcome State Fault Refusal} (h : ∀ t, o = .next t → s.Quiet t) :
    s.ledger.Admits o := fun t ht => leads_of_eq (h t ht).ledger

section
variable {s : State} {k : Ctl}

/-- An issue comes to what its body comes to: a stop settles quietly. -/
theorem State.issue_admits {body : Iss → Except Stop State} (h : ∀ i, Gives (fun t => s.ledger.Leads t.ledger) (body i)) :
    s.ledger.Admits (s.issue k body) := by
  intro t ht
  obtain ⟨i, -, ⟨u, hu, rfl⟩ | ⟨e, -, rfl⟩⟩ := State.issue_cases ht
  · exact Ledger.Leads.ite (Ledger.leads_refl _) (h i u hu)
  · exact Ledger.leads_of_eq (s.settle_ledger i e)

theorem State.valueWith_admits {coll : Bool} {ns : List Need} {d : Opnd} {words lr ll : Nat} {val : Iss → Nat → BitVec 64}
    {cell : Iss → Rec → Cell} {uni : Iss → Rec → Bool} : s.ledger.Admits (s.valueWith coll k ns d words lr ll val cell uni) :=
  Ledger.admits_of_quiet fun _ => State.valueWith_quiet

theorem State.predWith_admits {coll : Bool} {ns : List Need} {p lr ll : Nat} {bit : Iss → Nat → Bool} :
    s.ledger.Admits (s.predWith coll k ns p lr ll bit) := Ledger.admits_of_quiet fun _ => State.predWith_quiet

section
variable {ty : Ty} {d a : Opnd} {b : Src} {xs : List Src} {ns : List Need} {words lr ll p : Nat} {aff : List Form → Option Form}

theorem State.valueOp_admits {val : Iss → Nat → BitVec 64} {cell : Iss → Rec → Cell} {uni : Iss → Rec → Bool} :
    s.ledger.Admits (s.valueOp k ns d words lr ll val cell uni) := valueWith_admits

theorem State.predOp_admits {bit : Iss → Nat → Bool} : s.ledger.Admits (s.predOp k ns p lr ll bit) := predWith_admits

theorem State.recordOp_admits {f : Iss → Rec → Word} : s.ledger.Admits (s.recordOp k ns d f) := valueOp_admits

theorem State.intOp_admits {f : List (BitVec 64) → BitVec 64} : s.ledger.Admits (s.intOp k ty d xs f aff) := valueOp_admits

theorem State.binOp_admits {f : BitVec 64 → BitVec 64 → BitVec 64} : s.ledger.Admits (s.binOp k ty d a b f aff) := intOp_admits

theorem State.unOp_admits {f : BitVec 64 → BitVec 64} : s.ledger.Admits (s.unOp k ty d a f aff) := intOp_admits

theorem State.countOp_admits {f : BitVec 64 → BitVec 64} : s.ledger.Admits (s.countOp k ty d a f) := valueOp_admits

end

theorem State.waitOp_admits {d : Opnd} {chk : Iss → Except Stop Unit} {now : Iss → Option Word} {c : Iss → Cond} :
    s.ledger.Admits (s.waitOp k d chk now c) := Ledger.admits_of_quiet fun _ => State.waitOp_quiet

theorem State.tileOp_admits {ns : List Need} {pre : Iss → Except Stop Unit} {slices : BitVec 4}
    {watch : Iss → List (Nat × Nat × Addr × Nat)}
    {body : Iss → Except Stop (List (Nat × Nat × Word) × List (Place × Byte) × List RegWrite)} {ops early : Iss → Except Stop Unit} :
    s.ledger.Admits (s.tileOp k ns pre slices watch body ops early) := Ledger.admits_of_quiet fun _ => State.tileOp_quiet

theorem State.transferOp_admits {ns : List Need} {pre : Iss → (Nat → Iss) → Except Stop Unit} {indirect always leaves : Bool}
    {tgt : Iss → Nat → Option Addr} {link : Opnd} : s.ledger.Admits (s.transferOp k ns pre indirect always leaves tgt link) :=
  Ledger.admits_of_quiet fun _ => State.transferOp_quiet

theorem State.reshape_admits {chk : Iss → Except Stop Unit} {f : Iss → Group → Group} : s.ledger.Admits (s.reshape k chk f) := by
  refine issue_admits fun i => ?_
  split <;> simp

theorem State.floatWith_admits {ns : List Need} {d : Opnd} {words : Nat} {sr : Bool} {xs : List (Bool × Opnd)} {f : FloatFn}
    {fin : Iss → Values → State} (hfin : ∀ i v, (fin i v).ledger = s.ledger) :
    s.ledger.Admits (s.floatWith k ns d words sr xs f fin) := by
  refine issue_admits fun i => ?_
  split
  · simp
  · dsimp only
    split
    · simp
    · simp [hfin]

theorem State.floatOp_admits {ns : List Need} {d : Opnd} {words lat : Nat} {sr : Bool} {xs : List (Bool × Opnd)} {f : FloatFn} :
    s.ledger.Admits (s.floatOp k ns d words lat sr xs f) := floatWith_admits fun i v => by simp

theorem State.float32_admits {d : Opnd} {lat : Nat} {sr : Bool} {xs : List Opnd} {f : FloatFn} :
    s.ledger.Admits (s.float32 k d lat sr xs f) := floatOp_admits

theorem State.quantOp_admits {ns : List Need} {d : Opnd} {sr : Bool} {xs : List (Bool × Opnd)} {f : FloatFn} :
    s.ledger.Admits (s.quantOp k ns d sr xs f) := floatWith_admits fun i v => by simp

theorem State.loadOp_admits {ins : Instr} {d a : Opnd} {m : Mem} {size words : Nat} {queue : Bool} :
    s.ledger.Admits (s.loadOp k ins d a m size words queue) := by
  refine issue_admits fun i => ?_
  simp only [gives_bind, gives_ite, gives_error, gives_ok, finish_ledger, countRounds_ledger]
  intros
  split
  · trivial
  · exact Ledger.Leads.ite (by simp) (Ledger.leads_refl _)

theorem State.storeOp_admits {ins : Instr} {a b : Opnd} {m : Mem} {size words : Nat} {queue : Bool} :
    s.ledger.Admits (s.storeOp k ins a b m size words queue) := by
  refine issue_admits fun i => ?_
  simp only [gives_bind, gives_ok, finish_ledger, countRounds_ledger]
  intros
  split
  · split <;> simp
  · simp

theorem State.engineOp_gives {i : Iss} {ins : Instr} {op : SlotOp} {els : List Elem} {size words cq : Nat} {d : Opnd} {qord : Bool}
    {g : Group} {regs : List Nat} {ents : List StoreEnt} :
    Gives (fun t => s.ledger.Leads t.ledger) (s.engineOp i ins op els size words cq d qord g regs ents) := by
  simp [engineOp]

theorem State.engineCmd_admits {ins : Instr} {op : SlotOp} {gran : Nat} {a b : Opnd} {third : Need} {tag : Nat} {qord : Bool}
    {body : Iss → Except Stop (List (Addr × Addr × Nat) × (State → State))}
    (hbody : ∀ i, Gives (fun r => ∀ t : State, (r.2 t).ledger = t.ledger) (body i)) :
    s.ledger.Admits (s.engineCmd k ins op gran a b third tag qord body) := by
  refine issue_admits fun i => ?_
  simp only [gives_bind, gives_ite, gives_error, gives_ok, finish_ledger, Ledger.leads_refl]
  intros
  split
  · trivial
  · split
    · trivial
    · rintro ⟨moves, next⟩ hr -
      split
      · simp
      · simp [hbody i _ hr]

theorem State.quadOp_admits {q : Quad} : s.ledger.Admits (s.quadOp k q) := by
  refine issue_admits fun i => ?_
  simp only [gives_bind]
  intros
  split
  · simp
  · rw [gives_ok]
    split <;> simp [touchOperands_leads]

theorem State.fenceOp_admits {kind scope : Nat} {f : Group → Group} : s.ledger.Admits (s.fenceOp k kind scope f) := by
  exact issue_admits fun i => by simp

theorem State.trapAfter_admits {cls n : Nat} {bind : Bool} : s.ledger.Admits (s.trapAfter k cls n bind) := by
  refine issue_admits fun i => ?_
  simp only [gives_bind, gives_ite, gives_ok, passRun_ledger, Ledger.leads_refl]
  intros
  split
  · trivial
  · exact Ledger.Leads.ite (runBinder_leads (by simp) _ _ _ _) (by simp)

theorem State.sysOp_gives {i : Iss} {ns : List Need} {d : Opnd} {words : Nat} {v : BitVec 64} :
    Gives (fun t => s.ledger.Leads t.ledger) (s.sysOp i ns d words v) := by simp [sysOp]

theorem State.hintDefault_gives {i : Iss} {d : Opnd} {dflt : BitVec 16} :
    Gives (fun t => s.ledger.Leads t.ledger) (s.hintDefault i d dflt) := by
  rw [hintDefault, gives_map]
  exact gives_of_forall fun v => by simp

theorem State.onPail_admits {f : PIss → State} (h : ∀ i, s.ledger.Leads (f i).ledger) : s.ledger.Admits (s.onPail f) := by
  unfold onPail
  split
  · exact Ledger.admits_next.mpr (h _)
  · exact Ledger.admits_fault

end
end Sys2Proof.Machine
end

section
/-!
SUPPORT. What the instructions and events with a body of their own do to the ledger.
-/

namespace Sys2Proof.Machine

section
variable {s : State}

/-! Instructions with a body of their own -/

theorem execPmov_admits {k : Ctl} {d a : Opnd} : s.ledger.Admits (execPmov k d a s) := by
  unfold execPmov
  split
  · exact State.predOp_admits
  · exact State.predOp_admits
  · exact State.valueOp_admits

theorem execVote_admits {k : Ctl} {m : VoteMode} {d a : Opnd} : s.ledger.Admits (execVote k m d a s) := by
  cases m with dsimp only [execVote]
  | ballot32 | ballot64 => exact State.valueWith_admits
  | any | all => exact State.predWith_admits

theorem execAtoms_admits {k : Ctl} {op : AtomOp} {ty : Ty} {d a b c : Opnd} {sc : BitVec 3} {off : BitVec 12} :
    s.ledger.Admits (execAtoms k op ty d a b c sc off s) := by
  exact State.issue_admits fun i => by simp

theorem execGatom_admits {k : Ctl} {op : AtomOp} {ty : Ty} {d a b c : Opnd} {sc : BitVec 3} {m : Mem} :
    s.ledger.Admits (execGatom k op ty d a b c sc m s) :=
  State.issue_admits fun i => by simp [State.engineOp_gives]

theorem execAmaxrd_admits {k : Ctl} {ty : Ty} {d a : Opnd} {sc : BitVec 3} {m : Mem} :
    s.ledger.Admits (execAmaxrd k ty d a sc m s) :=
  State.issue_admits fun i => by simp [State.engineOp_gives]

theorem execGather_admits {k : Ctl} {ty : Ty} {d a b : Opnd} {sh : BitVec 5} {m : Mem} :
    s.ledger.Admits (execGather k ty d a b sh m s) :=
  State.issue_admits fun i => by simp [State.engineOp_gives]

theorem execScatter_admits {k : Ctl} {ty : Ty} {d a b : Opnd} {sh : BitVec 5} {m : Mem} :
    s.ledger.Admits (execScatter k ty d a b sh m s) :=
  State.issue_admits fun i => by simp [State.engineOp_gives]

theorem execRemld_admits {k : Ctl} {ty : Ty} {d a : Opnd} {coord : BitVec 11} {cq : BitVec 3} :
    s.ledger.Admits (execRemld k ty d a coord cq s) :=
  State.issue_admits fun i => by simp [State.engineOp_gives]

theorem execCopy_admits {k : Ctl} {a b c : Opnd} {tag : BitVec 6} {qord : Bool} {off : BitVec 12} :
    s.ledger.Admits (execCopy k a b c tag qord off s) :=
  State.engineCmd_admits fun i => by simp

theorem execCopyw_admits {k : Ctl} {a b c : Opnd} {tag : BitVec 6} {qord : Bool} {off : BitVec 12} :
    s.ledger.Admits (execCopyw k a b c tag qord off s) :=
  State.engineCmd_admits fun i => by simp

theorem execRload_admits {k : Ctl} {a b c : Opnd} {tag : BitVec 6} {qord : Bool} {off : BitVec 12} :
    s.ledger.Admits (execRload k a b c tag qord off s) :=
  State.engineCmd_admits fun i => by simp

theorem execQpeek_admits {k : Ctl} {d a : Opnd} {pop : Bool} : s.ledger.Admits (execQpeek k d a pop s) := by
  refine State.issue_admits fun i => ?_
  simp only [gives_bind, gives_ok, State.finishValues_ledger]
  intros
  exact Ledger.Leads.ite (by simp) (by simp)

theorem execQbind_admits {k : Ctl} {a : Opnd} {mode : BitVec 2} : s.ledger.Admits (execQbind k a mode s) := by
  refine State.issue_admits fun i => ?_
  simp only [gives_bind, gives_ite, gives_ok, State.finish_ledger, Ledger.leads_refl]
  intros
  split
  · trivial
  · split <;> simp

theorem execPref_admits {k : Ctl} {f : HintFields} : s.ledger.Admits (execPref k f s) :=
  State.issue_admits fun i => by simp

theorem execPhase_admits {k : Ctl} {f : HintFields} : s.ledger.Admits (execPhase k f s) :=
  State.issue_admits fun i => by simp [State.hintDefault_gives]

theorem execPhend_admits {k : Ctl} {f : HintFields} : s.ledger.Admits (execPhend k f s) :=
  State.issue_admits fun i => by simp

theorem execUnassignedOpcode_admits {w : IWord} : s.ledger.Admits (execUnassignedOpcode w s) :=
  State.issue_admits fun i => by simp [State.hintDefault_gives]

theorem execBar_admits {k : Ctl} {n scope : BitVec 3} : s.ledger.Admits (execBar k n scope s) :=
  State.issue_admits fun i => by simp

theorem execBararr_admits {k : Ctl} {d : Opnd} {n scope : BitVec 3} : s.ledger.Admits (execBararr k d n scope s) :=
  State.issue_admits fun i => by simp

theorem execQfence_admits {k : Ctl} {scope : BitVec 3} : s.ledger.Admits (execQfence k scope s) :=
  State.issue_admits fun i => by simp

theorem execTask_admits {k : Ctl} {d a : Opnd} : s.ledger.Admits (execTask k d a s) :=
  State.issue_admits fun i => by simp

theorem execTaskwait_admits {k : Ctl} {d a : Opnd} {all : Bool} : s.ledger.Admits (execTaskwait k d a all s) := by
  refine State.issue_admits fun i => ?_
  simp only [gives_bind, gives_ite, gives_ok, State.passRun_ledger, Ledger.leads_refl]
  intros
  split
  · trivial
  · split <;> simp

theorem execStepwait_admits {k : Ctl} {d : Opnd} : s.ledger.Admits (execStepwait k d s) :=
  State.issue_admits fun i => by simp

theorem execAccpeek_admits {k : Ctl} {d a b : Opnd} : s.ledger.Admits (execAccpeek k d a b s) :=
  State.issue_admits fun i => by simp

theorem execMloopget_admits {k : Ctl} {d : Opnd} : s.ledger.Admits (execMloopget k d s) :=
  State.issue_admits fun i => by simp

theorem execMloopset_admits {k : Ctl} {a : Opnd} : s.ledger.Admits (execMloopset k a s) :=
  State.issue_admits fun i => by simp

theorem execMiter_admits {k : Ctl} {size : BitVec 2} {cap : BitVec 8} {d a b c : Opnd} :
    s.ledger.Admits (execMiter k size cap d a b c s) :=
  State.issue_admits fun i => by simp

theorem execShpset_admits {k : Ctl} {d a : Opnd} : s.ledger.Admits (execShpset k d a s) :=
  State.issue_admits fun i => by simp

theorem execShpget_admits {k : Ctl} {a b : Opnd} : s.ledger.Admits (execShpget k a b s) :=
  State.issue_admits fun i => by simp

theorem execShpfence_admits {k : Ctl} : s.ledger.Admits (execShpfence k s) :=
  State.issue_admits fun i => by simp

theorem execRred_admits {k : Ctl} {op : BitVec 3} {win : Bool} {d a b c : Opnd} : s.ledger.Admits (execRred k op win d a b c s) :=
  State.issue_admits fun i => by simp

theorem execRnorm_admits {k : Ctl} {mode : BitVec 3} {fs : BitVec 11} {a b c : Opnd} :
    s.ledger.Admits (execRnorm k mode fs a b c s) := by
  refine State.issue_admits fun i => ?_
  simp only [gives_bind, gives_ite, gives_ok, State.passRun_ledger, Ledger.leads_refl]
  split
  · intro _ h
    cases h
  · intros
    split
    · trivial
    · intros
      split <;> simp

theorem execTret_admits {k : Ctl} {d : Opnd} {action : BitVec 2} : s.ledger.Admits (execTret k d action s) := by
  refine State.issue_admits fun i => ?_
  simp only [gives_bind, gives_ite, gives_ok, State.passRun_ledger, Ledger.leads_refl]
  intros
  split
  · trivial
  · split <;> simp

theorem execWpset_admits {k : Ctl} {n : BitVec 3} {a : Opnd} : s.ledger.Admits (execWpset k n a s) := by
  refine State.issue_admits fun i => ?_
  simp only [gives_bind, gives_ite, gives_ok, gives_error, State.passRun_ledger, Ledger.leads_refl]
  intros
  split
  · trivial
  · intros
    split
    · trivial
    · split <;> simp

theorem execWpclr_admits {k : Ctl} {n : BitVec 3} : s.ledger.Admits (execWpclr k n s) :=
  State.issue_admits fun i => by simp

theorem execSysrd_admits {k : Ctl} {d : Opnd} {num : BitVec 12} : s.ledger.Admits (execSysrd k d num s) := by
  refine State.issue_admits fun i => ?_
  split <;> simp [State.sysOp_gives]

theorem execSyswr_admits {k : Ctl} {a : Opnd} {num : BitVec 12} : s.ledger.Admits (execSyswr k a num s) := by
  refine State.issue_admits fun i => ?_
  split <;> simp

theorem execTraprd_admits {k : Ctl} {d a : Opnd} : s.ledger.Admits (execTraprd k d a s) :=
  State.issue_admits fun i => by simp [State.sysOp_gives]

theorem execTrapwr_admits {k : Ctl} {a b : Opnd} : s.ledger.Admits (execTrapwr k a b s) :=
  State.issue_admits fun i => by simp

/-! Events -/

theorem execGlobalBytesLand_admits {gi num e : Nat} : s.ledger.Admits (execGlobalBytesLand gi num e s) := by
  rw [execGlobalBytesLand, Ledger.admits_next]
  split
  · simp
  · split
    · simp
    · split
      · simp
      · split
        · simp
        · simp
        · simp
        · split
          · simp
          · split <;> simp

theorem execEngineCommandComplete_admits {gi num : Nat} : s.ledger.Admits (execEngineCommandComplete gi num s) := by
  rw [execEngineCommandComplete, Ledger.admits_next]
  split
  · simp
  · split
    · simp
    · simp [State.movePieces_leads]

theorem execFaultResolution_admits {ci : Nat} {frame : Option Nat} : s.ledger.Admits (execFaultResolution ci frame s) := by
  rw [execFaultResolution, Ledger.admits_next]
  split
  · simp
  · split
    · simp
    · dsimp only
      split <;> simp

theorem execPlaceTeam_admits {ti core : Nat} : s.ledger.Admits (execPlaceTeam ti core s) := by
  rw [execPlaceTeam, Ledger.admits_next]
  split
  · simp
  · split
    · split <;> simp
    · simp

theorem execDemandFetch_admits {gi : Nat} : s.ledger.Admits (execDemandFetch gi s) := by
  rw [execDemandFetch, Ledger.admits_next]
  split
  · simp
  · split
    · simp
    · split
      · simp
      · simp
      · split
        · simp
        · split
          · simp
          · split
            · rename_i he
              simpa using State.touch_leads ((State.fetchWalk_leads (Ledger.leads_refl _) _ _).of_pair_left he) _ _ _
            · rename_i he
              simpa using (State.fetchWalk_leads (Ledger.leads_refl _) _ _).of_pair_left he

theorem execTlbInvalidation_admits {ci : Nat} {va : Addr} {entry : TableEntry} :
    s.ledger.Admits (execTlbInvalidation ci va entry s) := by
  rw [execTlbInvalidation, Ledger.admits_next]
  split
  · simp
  · have hhold : s.ledger.Leads ((entry.hold.map (s.holdPage ci (va56 va))).getD s).ledger := by cases entry.hold <;> simp
    simpa using State.mapAt_leads hhold _ _ _ _

theorem execHostMemoryAccess_admits {win : Nat} {off : Addr} {acc : HostAcc} : s.ledger.Admits (execHostMemoryAccess win off acc s) := by
  rw [execHostMemoryAccess, Ledger.admits_next]
  split
  · simp
  · split
    · split <;> simp
    · split
      · exact State.leads_foldl (fun _ _ => State.pmWrite_leads (Ledger.leads_refl _) _ _ _) _ (Ledger.leads_refl _)
      · simp

theorem execPeerAccess_admits {ci pa : Nat} {w : PeerWidth} {op : Option AtomOp} {wr : Option (BitVec 128)} {repl : BitVec 64} :
    s.ledger.Admits (execPeerAccess ci pa w op wr repl s) := by
  unfold execPeerAccess
  rw [Ledger.admits_next]
  split
  · simp
  · split <;> simp

theorem execPqPush_admits {q rs : BitVec 5} : s.ledger.Admits (execPqPush q rs s) :=
  State.onPail_admits fun i => State.pqPushWith_leads (Ledger.leads_refl _) i q fun s n h => by simpa using h

theorem execPqPop_admits {q rd : BitVec 5} : s.ledger.Admits (execPqPop q rd s) :=
  State.onPail_admits fun i => State.pqPopWith_leads (Ledger.leads_refl _) i q fun s n e h => by simpa using h

theorem execPqRowin_admits {q rs : BitVec 5} : s.ledger.Admits (execPqRowin q rs s) := by
  refine State.onPail_admits fun i => State.pqPushWith_leads (Ledger.leads_refl _) i q fun s n h => ?_
  split
  · simpa using h
  · split
    · rename_i he
      exact (State.readRow_leads h _ _).of_pair he
    · rename_i he
      simpa using (State.readRow_leads h _ _).of_pair he

theorem execPqRowout_admits {q rs : BitVec 5} : s.ledger.Admits (execPqRowout q rs s) := by
  refine State.onPail_admits fun i => ?_
  split
  · simp
  · refine Ledger.Leads.ite (State.pqPopWith_leads (Ledger.leads_refl _) i q fun s n e h => ?_)
      (State.putRow_leads (Ledger.leads_refl _) _ _ _)
    exact State.putRow_leads (by simpa using h) _ _ _

theorem execPqStat_admits {q rd : BitVec 5} : s.ledger.Admits (execPqStat q rd s) := by
  refine State.onPail_admits fun i => ?_
  split <;> simp

/-! Requests of the host -/

@[simp] theorem State.onRequest_leads {f : State → State} (hf : ∀ t : State, t.ledger.Leads (f t).ledger) (kind : Nat) (seq : Word) (ci : Nat) :
    s.ledger.Leads (s.onRequest kind seq ci f).ledger := by
  unfold onRequest
  split
  · split
    · simpa using hf s.consume
    · simp
  · simp

theorem State.load_gives {ci : Nat} {img : List Byte} : Gives (fun t => s.ledger.Leads t.ledger) (s.load ci img) := by
  unfold load
  split
  · exact gives_error
  · simp only [gives_bind]
    intros
    split
    · exact gives_error
    · split
      · exact gives_error
      · simp [LoadCtx.install_leads]

theorem execLoadObject_admits {seq : Word} {ctx addr len : Nat} : s.ledger.Admits (execLoadObject seq ctx addr len s) := by
  rw [execLoadObject, Ledger.admits_next]
  refine State.onRequest_leads (fun s => ?_) _ _ _
  split
  · rename_i he
    simpa using State.load_gives _ he
  · simp

theorem execAttest_admits {seq : Word} {nonce : BitVec 256} {dst : Nat} : s.ledger.Admits (execAttest seq nonce dst s) := by
  rw [execAttest, Ledger.admits_next]
  refine State.onRequest_leads (fun s => ?_) _ _ _
  split
  · simp
  · dsimp only
    split
    · simp
    · have hkey : s.ledger.Leads ({ s with keyIndex := s.keyIndex + 1 } : State).ledger :=
        ⟨id, id, le_rfl, le_rfl, le_rfl, Nat.le_succ _⟩
      simpa using State.pmWriteN_leads hkey _ _ _

theorem execPushFirmware_admits {seq : Word} {addr len : Nat} : s.ledger.Admits (execPushFirmware seq addr len s) := by
  rw [execPushFirmware, Ledger.admits_next]
  dsimp only
  split
  · simp
  · split
    · simp
    · split
      · simpa using State.runFirmware_leads (by simp) _
      · simp

theorem execBoot_admits {drive0 drive1 : List Byte} {cfg : Word} {pool : Nat} :
    s.ledger.Admits (execBoot drive0 drive1 cfg pool s) := by
  rw [execBoot, Ledger.admits_next]
  split
  · simp
  · dsimp only
    split
    · exact State.runFirmware_leads (by simp) _
    · split
      · exact State.runFirmware_leads (by simp) _
      · simp

theorem execCheckpoint_admits {seq : Word} {ctx own neighbour : Nat} : s.ledger.Admits (execCheckpoint seq ctx own neighbour s) := by
  rw [execCheckpoint, Ledger.admits_next]
  split
  · split
    · split
      · simp
      · simp [State.writeCopies_leads]
    · simp
  · exact State.onRequest_leads (fun t => by simp) _ _ _

theorem execHeartbeatMiss_admits {slot spare : Nat} : s.ledger.Admits (execHeartbeatMiss slot spare s) := by
  rw [execHeartbeatMiss, Ledger.admits_next]
  split
  · simp
  · split
    · exact State.restoreAll_leads (by simp)
    · split <;> simp

end
end Sys2Proof.Machine
end

section
/-!
SUPPORT. What every instruction, event and step does to the ledger; the statement O50.
-/

namespace Sys2Proof.Machine
section
variable {s : State}

/-! Events that leave memory and the counters alone -/

theorem execCreateContext_admits {seq : Word} {priority quota : Nat} {dieMap : List Nat} {bounded : Bool} {root : Nat} : s.ledger.Admits (execCreateContext seq priority quota dieMap bounded root s) := by
  simp [execCreateContext]

theorem execStartGroup_admits {seq : Word} {ctx : Nat} {addr : Addr} : s.ledger.Admits (execStartGroup seq ctx addr s) := by
  rw [execStartGroup, Ledger.admits_next]
  split
  · split
    · simp
    · simp
  · simp

theorem execKillContext_admits {seq : Word} {ctx : Nat} : s.ledger.Admits (execKillContext seq ctx s) := by
  simp [execKillContext]

theorem execDebugAct_admits {seq : Word} {ctx group : Nat} {act : DebugAct} : s.ledger.Admits (execDebugAct seq ctx group act s) := by
  simp [execDebugAct]

theorem execRegisterWrite_admits {off : Nat} {w : WinWrite} : s.ledger.Admits (execRegisterWrite off w s) := by
  simp [execRegisterWrite]

theorem execResultWriteback_admits {gi : Nat} : s.ledger.Admits (execResultWriteback gi s) := by
  rw [execResultWriteback, Ledger.admits_next]
  split
  · simp
  · split <;> simp

theorem execStorePerformed_admits {gi : Nat} : s.ledger.Admits (execStorePerformed gi s) := by
  rw [execStorePerformed, Ledger.admits_next]
  split
  · simp
  · split <;> simp

theorem execMatrixPassComplete_admits {gi n : Nat} : s.ledger.Admits (execMatrixPassComplete gi n s) := by
  rw [execMatrixPassComplete, Ledger.admits_next]
  split
  · simp
  · split <;> simp

theorem execIterationBoundary_admits {gi : Nat} : s.ledger.Admits (execIterationBoundary gi s) := by
  rw [execIterationBoundary, Ledger.admits_next]
  split
  · simp
  · split <;> simp

theorem execIssueHoldRelease_admits {gi : Nat} : s.ledger.Admits (execIssueHoldRelease gi s) := by
  rw [execIssueHoldRelease, Ledger.admits_next]
  split <;> simp

theorem execChurnAccept_admits {gi : Nat} : s.ledger.Admits (execChurnAccept gi s) := by
  rw [execChurnAccept, Ledger.admits_next]
  split
  · simp
  · split <;> simp

theorem execTeamRetirement_admits {ti : Nat} : s.ledger.Admits (execTeamRetirement ti s) := by
  rw [execTeamRetirement, Ledger.admits_next]
  split <;> simp

theorem execVersionCommit_admits {ti tile : Nat} : s.ledger.Admits (execVersionCommit ti tile s) := by
  rw [execVersionCommit, Ledger.admits_next]
  split
  · simp
  · split <;> simp

theorem execPreemptionRequest_admits {ti : Nat} : s.ledger.Admits (execPreemptionRequest ti s) := by
  rw [execPreemptionRequest, Ledger.admits_next]
  split <;> simp

theorem execEviction_admits {ti : Nat} : s.ledger.Admits (execEviction ti s) := by
  rw [execEviction, Ledger.admits_next]
  split <;> simp

theorem execResumption_admits {ti core : Nat} : s.ledger.Admits (execResumption ti core s) := by
  rw [execResumption, Ledger.admits_next]
  split
  · split
    · split
      · split <;> simp
      · simp
    · simp
  · simp

theorem execMigration_admits {ti core : Nat} : s.ledger.Admits (execMigration ti core s) := by
  rw [execMigration, Ledger.admits_next]
  split
  · split
    · split
      · split <;> simp
      · simp
    · simp
  · simp

theorem execForwardedMessage_admits {core n : Nat} : s.ledger.Admits (execForwardedMessage core n s) := by
  rw [execForwardedMessage, Ledger.admits_next]
  split <;> simp

theorem execPageWalk_admits {ci cluster : Nat} {va : Addr} {kind : Acc} : s.ledger.Admits (execPageWalk ci cluster va kind s) := by
  rw [execPageWalk, Ledger.admits_next]
  split
  · simp
  · split <;> simp

theorem execFaultBudgetExpiry_admits {ci : Nat} : s.ledger.Admits (execFaultBudgetExpiry ci s) := by
  rw [execFaultBudgetExpiry, Ledger.admits_next]
  split
  · simp
  · split
    · simp
    · split
      · split <;> simp
      · simp

theorem execAbortCutTimeout_admits {ti : Nat} : s.ledger.Admits (execAbortCutTimeout ti s) := by
  rw [execAbortCutTimeout, Ledger.admits_next]
  split
  · split <;> simp
  · simp

theorem execWaitCycleTrap_admits {gi : Nat} : s.ledger.Admits (execWaitCycleTrap gi s) := by
  rw [execWaitCycleTrap, Ledger.admits_next]
  split
  · simp
  · split
    · split <;> simp
    · simp

theorem execHandlerStart_admits {gi : Nat} : s.ledger.Admits (execHandlerStart gi s) := by
  rw [execHandlerStart, Ledger.admits_next]
  split
  · simp
  · split
    · dsimp only
      split <;> simp
    · simp

theorem execWatchpointApply_admits {ci : Nat} : s.ledger.Admits (execWatchpointApply ci s) := by
  rw [execWatchpointApply, Ledger.admits_next]
  split
  · simp
  · split <;> simp

theorem execSpeculativeFetch_admits {gi : Nat} {line : Addr} : s.ledger.Admits (execSpeculativeFetch gi line s) := by
  rw [execSpeculativeFetch, Ledger.admits_next]
  split
  · simp
  · split
    · split
      · simp
      · split <;> simp
    · simp

theorem execTraceCacheFill_admits {gi : Nat} {lane : Bool} : s.ledger.Admits (execTraceCacheFill gi lane s) := by
  rw [execTraceCacheFill, Ledger.admits_next]
  split
  · simp
  · split
    · split <;> simp
    · simp

theorem execStepRelease_admits {gi : Nat} : s.ledger.Admits (execStepRelease gi s) := by
  rw [execStepRelease, Ledger.admits_next]
  split <;> simp

theorem execPeerLost_admits {slot : Nat} : s.ledger.Admits (execPeerLost slot s) := by
  rw [execPeerLost, Ledger.admits_next]
  split <;> simp

theorem execCheckpointTimeout_admits : s.ledger.Admits (execCheckpointTimeout s) := by
  rw [execCheckpointTimeout, Ledger.admits_next]
  split <;> simp

theorem execCoreAvoidance_admits {core temp : Nat} : s.ledger.Admits (execCoreAvoidance core temp s) := by
  simp [execCoreAvoidance]

theorem execAvoidanceEnd_admits {core : Nat} : s.ledger.Admits (execAvoidanceEnd core s) := by
  simp [execAvoidanceEnd]

theorem execDroopEvent_admits {core : Nat} : s.ledger.Admits (execDroopEvent core s) := by
  simp [execDroopEvent]

theorem execIslandFrequencyChange_admits {island mhz : Nat} : s.ledger.Admits (execIslandFrequencyChange island mhz s) := by
  simp [execIslandFrequencyChange]

theorem execClockHop_admits {island : Nat} : s.ledger.Admits (execClockHop island s) := by
  simp [execClockHop]

theorem execUnknownKindRequest_admits {kind : BitVec 16} {seq : Word} {ctx : Nat} : s.ledger.Admits (execUnknownKindRequest kind seq ctx s) := by
  simp [execUnknownKindRequest]

/-! Every instruction and every step -/

/-- Whatever is carried out, memory and the unit table stay canonical and no counter falls; a time lock alone sets device time
(R350). -/
theorem exec_admits (i : Instr) (hi : ∀ lock, i ≠ .deviceTimeLock lock) : s.ledger.Admits (exec i s) := by
  cases i with dsimp only [exec]
  | deviceTimeLock lock => exact absurd rfl (hi lock)
  | add | addI | sub | subI | mul | mulI | mulhi | mulhiI | div | divI | rem | remI | min | minI | max | maxI | shl | shlI | shr
  | shrI | sar | sarI | andb | andbI | orb | orbI | xorb | xorbI | andn | andnI | bfi => exact State.binOp_admits
  | neg | abs | notb | brev | bfx => exact State.unOp_admits
  | clz | popc => exact State.countOp_admits
  | mad | movi => exact State.intOp_admits
  | mov | sel | addpc | idx | qstat | tinfo => exact State.valueOp_admits
  | rngget | formget => exact State.recordOp_admits
  | shfl | gred | gscan => exact State.valueWith_admits
  | cmp | cmpI | pand | por | pxor | pnot | fcmp => exact State.predOp_admits
  | elect => exact State.predWith_admits
  | pmov => exact execPmov_admits
  | vote => exact execVote_admits
  | expand | rerange | dead | nop => exact State.reshape_admits
  | bra | brx | call | callx | ret | exit => exact State.transferOp_admits
  | fadd | fsub | fmul | ffma | fmin | fmax | frcp | frsq | fsqrt | fexp2 | flog2 | fsin | fcos | fcvt | frnd | fclass | hadd2
  | hmul2 | hfma2 => exact State.float32_admits
  | f2i | i2f | plsplit | pljoin => exact State.floatOp_admits
  | qenc | qdec | kqsc => exact State.quantOp_admits
  | ld | ldp => exact State.loadOp_admits
  | st | stp => exact State.storeOp_admits
  | atoms => exact execAtoms_admits
  | gather => exact execGather_admits
  | scatter => exact execScatter_admits
  | gatom => exact execGatom_admits
  | amaxrd => exact execAmaxrd_admits
  | remld => exact execRemld_admits
  | copy => exact execCopy_admits
  | copyw => exact execCopyw_admits
  | rload => exact execRload_admits
  | qpeek => exact execQpeek_admits
  | qbind => exact execQbind_admits
  | pref => exact execPref_admits
  | phase => exact execPhase_admits
  | phend => exact execPhend_admits
  | unassignedOpcode => exact execUnassignedOpcode_admits
  | bar => exact execBar_admits
  | bararr => exact execBararr_admits
  | barwait | twait | tfirst | bcwait | yield => exact State.waitOp_admits
  | fence | aliasfence => exact State.fenceOp_admits
  | qfence => exact execQfence_admits
  | task => exact execTask_admits
  | taskwait => exact execTaskwait_admits
  | stepwait => exact execStepwait_admits
  | mma | mmasp => exact State.quadOp_admits
  | scacc | bscale | accz | accld | accst | accmov | accpatch | accnorm | mcoef | mpoly => exact State.tileOp_admits
  | accpeek => exact execAccpeek_admits
  | miter => exact execMiter_admits
  | mloopget => exact execMloopget_admits
  | mloopset => exact execMloopset_admits
  | shpset => exact execShpset_admits
  | shpget => exact execShpget_admits
  | shpfence => exact execShpfence_admits
  | rred => exact execRred_admits
  | rnorm => exact execRnorm_admits
  | trap | bkpt => exact State.trapAfter_admits
  | tret => exact execTret_admits
  | wpset => exact execWpset_admits
  | wpclr => exact execWpclr_admits
  | sysrd => exact execSysrd_admits
  | syswr => exact execSyswr_admits
  | traprd => exact execTraprd_admits
  | trapwr => exact execTrapwr_admits
  | pqPush => exact execPqPush_admits
  | pqPop => exact execPqPop_admits
  | pqRowin => exact execPqRowin_admits
  | pqRowout => exact execPqRowout_admits
  | pqStat => exact execPqStat_admits
  | pailStop => exact State.onPail_admits fun i => by simp
  | pailInstruction => exact State.onPail_admits fun i => State.pailRun_leads (Ledger.leads_refl _) _ _ _
  | createContext => exact execCreateContext_admits
  | loadObject => exact execLoadObject_admits
  | startGroup => exact execStartGroup_admits
  | killContext => exact execKillContext_admits
  | attest => exact execAttest_admits
  | pushFirmware => exact execPushFirmware_admits
  | checkpoint => exact execCheckpoint_admits
  | debugAct => exact execDebugAct_admits
  | registerWrite => exact execRegisterWrite_admits
  | unknownKindRequest => exact execUnknownKindRequest_admits
  | resultWriteback => exact execResultWriteback_admits
  | globalBytesLand => exact execGlobalBytesLand_admits
  | storePerformed => exact execStorePerformed_admits
  | engineCommandComplete => exact execEngineCommandComplete_admits
  | matrixPassComplete => exact execMatrixPassComplete_admits
  | iterationBoundary => exact execIterationBoundary_admits
  | issueHoldRelease => exact execIssueHoldRelease_admits
  | churnAccept => exact execChurnAccept_admits
  | placeTeam => exact execPlaceTeam_admits
  | teamRetirement => exact execTeamRetirement_admits
  | versionCommit => exact execVersionCommit_admits
  | preemptionRequest => exact execPreemptionRequest_admits
  | eviction => exact execEviction_admits
  | resumption => exact execResumption_admits
  | migration => exact execMigration_admits
  | forwardedMessage => exact execForwardedMessage_admits
  | pageWalk => exact execPageWalk_admits
  | faultResolution => exact execFaultResolution_admits
  | faultBudgetExpiry => exact execFaultBudgetExpiry_admits
  | abortCutTimeout => exact execAbortCutTimeout_admits
  | waitCycleTrap => exact execWaitCycleTrap_admits
  | handlerStart => exact execHandlerStart_admits
  | watchpointApply => exact execWatchpointApply_admits
  | demandFetch => exact execDemandFetch_admits
  | speculativeFetch => exact execSpeculativeFetch_admits
  | traceCacheFill => exact execTraceCacheFill_admits
  | tlbInvalidation => exact execTlbInvalidation_admits
  | stepRelease => exact execStepRelease_admits
  | coreAvoidance => exact execCoreAvoidance_admits
  | avoidanceEnd => exact execAvoidanceEnd_admits
  | droopEvent => exact execDroopEvent_admits
  | islandFrequencyChange => exact execIslandFrequencyChange_admits
  | clockHop => exact execClockHop_admits
  | hostMemoryAccess => exact execHostMemoryAccess_admits
  | peerAccess => exact execPeerAccess_admits
  | peerLost => exact execPeerLost_admits
  | heartbeatMiss => exact execHeartbeatMiss_admits
  | checkpointTimeout => exact execCheckpointTimeout_admits
  | boot => exact execBoot_admits
  | recordWake | stragglerForcedRun | preemptionWithdrawal | killCutTimeout | phaseStart | phaseExpiry | refreshWindow =>
    exact Ledger.admits_next.mpr (by simp)

/-- What every step keeps of memory and of the unit table. -/
def State.Canonical (s : State) : Prop := s.mem.wf = true ∧ sparseWf ⟨0, 0#64⟩ 0 s.units = true

theorem State.Canonical.of_leads {s t : State} (hs : s.Canonical) (h : s.ledger.Leads t.ledger) : t.Canonical :=
  ⟨h.mem hs.1, h.units hs.2⟩

/-- Every instruction and event keeps the canonical form, a time lock as well: it touches no memory. -/
theorem exec_canonical {s t : State} {i : Instr} (hs : s.Canonical) (h : exec i s = .next t) : t.Canonical := by
  by_cases hi : ∃ lock, i = .deviceTimeLock lock
  · obtain ⟨lock, rfl⟩ := hi
    obtain rfl := Host.Outcome.next.inj h
    cases lock <;> exact hs
  · exact hs.of_leads (exec_admits i (fun lock he => hi ⟨lock, he⟩) t h)

theorem endStep_canonical {t : State} {o : Host.Outcome State Fault Refusal} (ho : ∀ u, o = .next u → u.Canonical)
    (h : endStep o = .next t) : t.Canonical := by
  cases o with
  | next u =>
    obtain rfl := Host.Outcome.next.inj h
    exact ho u rfl
  | fault | refused => cases h

theorem State.perform_canonical {s t : State} {who : Issuer} {o : Offer} (hs : s.Canonical) (h : s.perform who o = .next t) :
    t.Canonical := by
  cases o with
  | issue i =>
    exact endStep_canonical (fun u hu => exec_canonical (hs.of_leads (Ledger.leads_of_eq (s.issuing_ledger who))) hu) h
  | trap cause pc =>
    cases who with
    | group gi =>
      obtain rfl := Host.Outcome.next.inj h
      exact hs.of_leads (by simp)
    | pail | trial =>
      obtain rfl := Host.Outcome.next.inj h
      exact hs
  | fetch e => exact endStep_canonical (fun u hu => exec_canonical hs hu) h
  | late =>
    obtain rfl := Host.Outcome.next.inj h
    exact hs

theorem State.firstEvent_canonical {s t : State} {es : List Instr} (hs : s.Canonical) (h : s.firstEvent es = some t) :
    t.Canonical := by
  fun_induction State.firstEvent s es with
  | case1 => cases h
  | case2 e rest he ih => exact ih h
  | case3 e rest u he hne =>
    obtain rfl := Option.some.inj h
    exact exec_canonical hs he
  | case4 e rest _ ih => exact ih h

theorem State.ownTurn_canonical {s t : State} (hs : s.Canonical) (h : s.ownTurn = .next t) : t.Canonical := by
  unfold ownTurn at h
  split at h
  · rename_i he
    obtain rfl := Host.Outcome.next.inj h
    exact firstEvent_canonical hs he
  · split at h
    · obtain rfl := Host.Outcome.next.inj h
      exact hs.of_leads (bindStep_leads (Ledger.leads_refl _) _)
    · split at h
      · exact endStep_canonical (fun u hu => exec_canonical hs hu) h
      · split at h
        · exact perform_canonical hs h
        · split at h
          · rename_i he
            obtain rfl := Host.Outcome.next.inj h
            exact firstEvent_canonical hs he
          · obtain rfl := Host.Outcome.next.inj h
            exact hs.of_leads s.tick_leads

theorem State.takeTurn_canonical {s t : State} {u : Turn} (hs : s.Canonical) (h : s.takeTurn u = .next t) : t.Canonical := by
  have hnext {v : State} (hv : s.ledger.Leads v.ledger) (h : (.next v : Host.Outcome State Fault Refusal) = .next t) : t.Canonical := by
    obtain rfl := Host.Outcome.next.inj h
    exact hs.of_leads hv
  cases u with
  | event i =>
    simp only [takeTurn] at h
    split at h
    · exact endStep_canonical (fun u hu => exec_canonical hs hu) h
    · exact hnext (Ledger.leads_refl _) h
  | issue who =>
    simp only [takeTurn] at h
    split at h
    · exact perform_canonical hs h
    · exact hnext (Ledger.leads_refl _) h
  | own => exact ownTurn_canonical hs h
  | bind n => exact hnext (bindStep_leads (Ledger.leads_refl _) n) h
  | bkpt ci pc n => exact hnext (placeBkpt_leads (Ledger.leads_refl _) ci pc n) h
  | adopt n => exact hnext (adopt_leads (Ledger.leads_refl _) n) h
  | upset | hart | sram | window | unwindow | windowRead | debugger => exact hnext (by simp) h

theorem step_canonical {s t : State} (hs : s.Canonical) (h : step s = .next t) : t.Canonical := by
  unfold step State.nextTurn at h
  split at h
  · exact State.perform_canonical hs h
  · dsimp only at h
    split at h
    · exact State.ownTurn_canonical (s := { s with issuer := none }) hs h
    · exact State.takeTurn_canonical (s := { s with issuer := none, agenda := _ }) hs h

end
end Sys2Proof.Machine

namespace Sys2Proof
open Sys2Proof.Machine

/-- Settles O50: every operation of the model is led to a canonical memory and unit table from canonical ones. -/
theorem memoryStaysCanonical : Obligations.MemoryStaysCanonical := by
  unfold Obligations.MemoryStaysCanonical
  exact fun s t hm hu h => step_canonical ⟨hm, hu⟩ h

end Sys2Proof
end

section
/-!
SUPPORT. What an access is checked for, and the trap of a load or store that fails it (R30, R201, R202, R353); the
statement O20.
-/

namespace Sys2Proof.Machine

/-! What an access is checked for (R30, R201, R202) -/

/-- The checks of an access in their order: bound, aperture, alignment, and what is left of them, the room. -/
theorem Iss.accessFault_of_bound {i : Iss} {perm : Nat} {admits : List Aper} {size : Nat} {va : Addr}
    (h : i.ctx.boundOk perm va size = false) : i.accessFault perm admits size va = some causeBound := by
  simp [accessFault, h]

theorem Iss.accessFault_of_aperture {i : Iss} {perm : Nat} {admits : List Aper} {size : Nat} {va : Addr}
    (hb : i.ctx.boundOk perm va size = true) (ha : (i.aper va).1 ∉ admits) :
    i.accessFault perm admits size va = some causeAperture := by
  simp [accessFault, hb, ha]

theorem Iss.accessFault_of_align {i : Iss} {perm : Nat} {admits : List Aper} {size : Nat} {va : Addr}
    (hb : i.ctx.boundOk perm va size = true) (ha : (i.aper va).1 ∈ admits) (hd : ¬size ∣ va.toNat) :
    i.accessFault perm admits size va = some causeAlign := by
  simp [accessFault, hb, ha, ← Nat.dvd_iff_mod_eq_zero, hd]

/-- Bytes of an aperture from an offset on lie within its room. -/
def Iss.roomFor (i : Iss) (size : Nat) : Aper × Nat → Bool
  | (.spad, o) => decide (o + size ≤ i.seat.footLen)
  | (.partner, o) => i.kern.paired && decide (o + size ≤ (i.t.seat (corePartner i.g.core)).footLen)
  | (.stack, o) => decide (o + size ≤ i.stackBytes)
  | (.acc, o) => decide (o + size ≤ 4096 * i.kern.acc)
  | _ => true

theorem Iss.accessFault_of_room {i : Iss} {perm : Nat} {admits : List Aper} {size : Nat} {va : Addr}
    (hb : i.ctx.boundOk perm va size = true) (ha : (i.aper va).1 ∈ admits) (hd : size ∣ va.toNat) :
    i.accessFault perm admits size va = if i.roomFor size (i.aper va) then none else some causeAperture := by
  have hmod : va.toNat % size = 0 := Nat.mod_eq_zero_of_dvd hd
  generalize hap : i.aper va = x at *
  obtain ⟨ap, o⟩ := x
  cases ap <;> simp [accessFault, roomFor, hap, hb, ha, hmod]

/-! The trap of an access -/

/-- The guarded positions with their addresses that fail a test are those whose address fails it. -/
theorem Iss.withAddr_filter (i : Iss) (A : Nat → Addr) (f : Addr → Bool) :
    (i.withAddr A).filter (fun a => f a.2) = (i.onByAge.filter fun q => f (A q)).map fun q => (q, A q) := by
  rw [withAddr, List.filter_map]
  rfl

/-- An access that fails at a position stops the instruction with the cause of the eldest record that fails; a range record
has AUX 0xFF, lane records the lowest failing position. -/
theorem Iss.checkAccess_error {i : Iss} {perm : Nat} {admits : List Aper} {size : Nat} {A : Nat → Addr} {p : Nat}
    (hp : (i.onByAge.find? fun q => (i.accessFault perm admits size (A q)).isSome) = some p) :
    i.checkAccess perm admits size (i.withAddr A) = .error (.trap 0x04 ((i.accessFault perm admits size (A p)).getD 0)
      (if i.run.any (fun r => !r.lane && r.covers p) then 0xFF#32
        else w32 ((leastBy id (i.onByAge.filter fun q => (i.accessFault perm admits size (A q)).isSome)).getD p)) (some p)) := by
  obtain ⟨l, hl⟩ := List.head?_eq_some_iff.mp (List.head?_filter.trans hp)
  obtain ⟨m, -, hm⟩ := leastBy_spec id (l := p :: l) (by simp)
  unfold checkAccess
  rw [i.withAddr_filter A fun va => (i.accessFault perm admits size va).isSome, hl]
  simp only [List.map_cons, failAccess, List.map_map, Function.comp_def, List.map_id']
  split
  · rfl
  · simp only [failAt, hm, Option.getD_some]

/-- The settled state of such a stop is that of the access trap. -/
theorem State.settle_accessTrap (s : State) (i : Iss) (cause p : Nat) (bad : List Nat) :
    s.settle i (.trap 0x04 cause (if i.run.any (fun r => !r.lane && r.covers p) then 0xFF#32 else w32 ((leastBy id bad).getD p))
      (some p)) = s.accessTrap i cause p bad := rfl

/-! Checks 6 and 7 where more kinds are admitted -/

/-- Operands that pass checks 6 and 7 pass them where one position admits more kinds. -/
theorem Iss.check_of_more_kinds {i : Iss} {pre post : List Need} {n : Need} {ks : List Kind}
    (h : i.check (pre ++ n :: post) = .ok ()) (hk : n.kinds ⊆ ks) : i.check (pre ++ { n with kinds := ks } :: post) = .ok () := by
  obtain ⟨hq, hok, hd, hl, ht⟩ := Iss.check_iff.mp h
  refine Iss.check_iff.mpr ⟨by simpa using hq, ?_, by simpa [Need.vregs] using hd, ?_, ht⟩
  · have hn : ({ n with kinds := ks } : Need).ok i.kern = true := by
      have := hok n (by simp)
      simp only [Need.ok, Bool.and_eq_true, List.contains_iff_mem] at this ⊢
      exact ⟨⟨hk this.1.1, this.1.2⟩, this.2⟩
    intro m hm
    simp only [List.mem_append, List.mem_cons] at hm
    rcases hm with hm | rfl | hm
    · exact hok m (by simp [hm])
    · exact hn
    · exact hok m (by simp [hm])
  · simpa [staleLatch] using hl

/-! Loads and stores that stop -/

/-- A body goes on past a step that answers. -/
theorem bind_of_ok {α β : Type} {x : Except Stop α} {v : α} {f : α → Except Stop β} (h : x = .ok v) : (x >>= f) = f v := by
  rw [h]; rfl

/-- A body ends at a step that stops. -/
theorem bind_of_error {α β : Type} {x : Except Stop α} {e : Stop} {f : α → Except Stop β} (h : x = .error e) :
    (x >>= f) = .error e := by rw [h]; rfl

section
variable {s : State} {k : Ctl} {i : Iss} {ins : Instr} {a : Opnd} {m : Mem} {size words p : Nat} {queue : Bool} (hi : s.iss k = some i)
include hi

/-- A load that reaches no queue and fails at a position takes the bound violation. -/
theorem State.loadOp_accessTrap {d : Opnd} (hq : queueOf d = none) (hc : i.check [dstVS d words, pairN a] = .ok ())
    (hp : (i.onByAge.find? fun q => (i.accessFault permR (plainApers false) size
      (i.memAddr (readRegs [pairN a]) a m.off size q)).isSome) = some p) :
    s.loadOp k ins d a m size words queue = .next (s.accessTrap i ((i.accessFault permR (plainApers false) size
      (i.memAddr (readRegs [pairN a]) a m.off size p)).getD 0) p (i.onByAge.filter fun q =>
        (i.accessFault permR (plainApers false) size (i.memAddr (readRegs [pairN a]) a m.off size q)).isSome)) := by
  have hcheck : i.check [⟨d, if queue then [.v, .s, .dq, .zr] else [.v, .s, .zr], words, 0⟩, pairN a] = .ok () :=
    Iss.check_of_more_kinds (pre := []) hc (by cases queue <;> simp [dstVS])
  have hfail := Iss.checkAccess_error hp
  refine (State.issue_error hi ?_).trans (congrArg _ (s.settle_accessTrap i _ _ _))
  have hqueue : i.onQueue (if k.nwb then none else queueOf d) () i.prodCheck = .ok () := by
    simp only [hq, ite_self, Iss.onQueue]
  refine (bind_of_ok hcheck).trans ((bind_of_ok hqueue).trans (bind_of_error ?_))
  rw [hq]
  exact hfail

/-- A store from no queue that fails at a position takes the bound violation. -/
theorem State.storeOp_accessTrap {b : Opnd} (hc : i.check [pairN a, storeSrc b words false] = .ok ())
    (hp : (i.onByAge.find? fun q => (i.accessFault permW (plainApers false) size
      (i.memAddr (readRegs [pairN a, storeSrc b words false]) a m.off size q)).isSome) = some p) :
    s.storeOp k ins a b m size words queue = .next (s.accessTrap i ((i.accessFault permW (plainApers false) size
      (i.memAddr (readRegs [pairN a, storeSrc b words false]) a m.off size p)).getD 0) p (i.onByAge.filter fun q =>
        (i.accessFault permW (plainApers false) size (i.memAddr (readRegs [pairN a, storeSrc b words false]) a m.off size q)).isSome)) := by
  have hmore : (storeSrc b words false).kinds ⊆ (storeSrc b words queue).kinds := by
    simp only [storeSrc, Bool.false_eq_true, if_false, List.append_nil]
    exact List.subset_append_left _ _
  have hcheck : i.check [pairN a, storeSrc b words queue] = .ok () := Iss.check_of_more_kinds (pre := [pairN a]) hc hmore
  have hq : queueOf b = none := by
    obtain ⟨-, hok, -⟩ := Iss.check_iff.mp hc
    have hb := hok (storeSrc b words false) (by simp)
    cases b with
    | dq n => simp [storeSrc, Need.ok, opKind, apply_ite] at hb
    | _ => rfl
  have hfail := Iss.checkAccess_error hp
  refine (State.issue_error hi ?_).trans (congrArg _ (s.settle_accessTrap i _ _ _))
  have hqueue : i.onQueue (queueOf b) () i.consCheck = .ok () := by simp only [hq, Iss.onQueue]
  exact (bind_of_ok hcheck).trans ((bind_of_ok hqueue).trans (bind_of_error hfail))

end

end Sys2Proof.Machine

namespace Sys2Proof
open Sys2Proof.Machine

/-- Settles O20: the causes are the checks of an access in their order; a load or store that no check before stops comes to
the access check with the addresses of the statement. -/
theorem accessTraps : Obligations.AccessTraps := by
  unfold Obligations.AccessTraps
  refine ⟨fun i perm admits size va _ => ⟨Iss.accessFault_of_bound, Iss.accessFault_of_aperture, Iss.accessFault_of_align, ?_⟩,
    ?_, ?_⟩
  · intro hb ha hd
    rw [Iss.accessFault_of_room hb ha hd]
    generalize i.aper va = x
    obtain ⟨ap, o⟩ := x
    refine ⟨?_, ?_, ?_, ?_, ?_⟩ <;> rintro rfl <;> simp [Iss.roomFor, causeAperture]
  · rintro k d a m s i x ty size words hx hi hq hc A rfl p hp
    obtain ⟨rfl, rfl, rfl⟩ | ⟨rfl, rfl, rfl⟩ := hx
    · exact State.loadOp_accessTrap hi hq hc hp
    · exact State.loadOp_accessTrap hi hq hc hp
  · rintro k a b m s i x ty size words hx hi hc A rfl p hp
    obtain ⟨rfl, rfl, rfl⟩ | ⟨rfl, rfl, rfl⟩ := hx
    · exact State.storeOp_accessTrap hi hc hp
    · exact State.storeOp_accessTrap hi hc hp

end Sys2Proof
end

section
/-!
SUPPORT. The calendar, avoided cores, island clocks and device time (R78, R208, R348, R350); the statement O58.
-/

namespace Sys2Proof.Machine

/-! Reads of a core and of an island after a change -/

/-- In canonical cores a change to one core is read there and nowhere else. -/
theorem State.core_modCore {s : State} (hs : sparseWf Core.reset 0 s.cores = true) (core : Nat) (f : Core → Core)
    (c : Nat) : (s.modCore core f).core c = if c = core then f (s.core core) else s.core c :=
  spGet_spSet hs core c _

/-- In canonical islands a change to one island is read there and nowhere else. -/
theorem State.island_modIsland {s : State} (hs : sparseWf Island.reset 0 s.islands = true) (n : Nat)
    (f : Island → Island) (m : Nat) :
    (s.modIsland n f).island m = if m = n then f (s.island n) else s.island m :=
  spGet_spSet hs n m _

@[simp] theorem State.core_modIsland (s : State) (n : Nat) (f : Island → Island) (c : Nat) :
    (s.modIsland n f).core c = s.core c := rfl

@[simp] theorem State.island_modCore (s : State) (c : Nat) (f : Core → Core) (n : Nat) :
    (s.modCore c f).island n = s.island n := rfl

/-! The calendar (R208) -/

/-- A ck more of the cluster's clock moves its calendar on by one. -/
theorem State.calendarPos_succ {s t : State} {cluster : Nat} (hc : t.calendar = s.calendar)
    (hk : (t.island cluster).ckAt t.now = (s.island cluster).ckAt s.now + 1) :
    t.calendarPos cluster = (s.calendarPos cluster + 1) % 65536 := by
  unfold State.calendarPos
  rw [hc, hk]
  omega

/-! Avoided cores (R78) -/

/-- The sensor's reading is kept, and with heat or eight droops in 1 ms the core is avoided. -/
theorem coreAvoidance_completes {s : State} {core temp : Nat} (hs : sparseWf Core.reset 0 s.cores = true)
    (hc : core < 2048) :
    ∃ u, exec (.coreAvoidance core temp) s = .next u ∧ ((u.core core).avoided = true ↔ (s.core core).avoided = true ∨ 95 ≤ temp ∨
        8 ≤ ((s.core core).droops.filter fun d => decide (s.now < d + 1000000)).length) ∧ (u.core core).spad = (s.core core).spad ∧
        ((u.core core).hot = true ↔ 88 < temp) ∧
        (u.core core).lastHot = (if 88 < temp ∨ (s.core core).hot = true then s.now else (s.core core).lastHot) ∧
        { u with cores := s.cores } = s ∧ ∀ c, c ≠ core → u.core c = s.core c := by
  dsimp only [exec, execCoreAvoidance]
  rw [if_neg (by omega)]
  refine ⟨_, rfl, ?_, ?_, ?_, ?_, rfl, fun c hne => by rw [State.core_modCore hs, if_neg hne]⟩ <;>
    rw [State.core_modCore hs, if_pos rfl]
  · simp only [Bool.or_eq_true, decide_eq_true_eq, or_assoc]
    rfl
  · simp
  · simp [or_comm]

/-- A quiet 50 ms ends the avoidance. -/
theorem avoidanceEnd_completes {s : State} {core : Nat} (hs : sparseWf Core.reset 0 s.cores = true)
    (hc : core < 2048) :
    ∃ u, exec (.avoidanceEnd core) s = .next u ∧ ((u.core core).avoided = true ↔ (s.core core).avoided = true ∧
        ¬((s.core core).hot = false ∧ (s.core core).lastHot + 50000000 ≤ s.now ∧ ∀ d ∈ (s.core core).droops, d + 50000000 ≤ s.now)) ∧
        { u with cores := s.cores } = s ∧ ∀ c, c ≠ core → u.core c = s.core c := by
  dsimp only [exec, execAvoidanceEnd]
  rw [if_neg (by omega)]
  refine ⟨_, rfl, ?_, rfl, fun c hne => by rw [State.core_modCore hs, if_neg hne]⟩
  rw [State.core_modCore hs, if_pos rfl]
  split
  case isTrue hq =>
    simp only [Bool.and_eq_true, Bool.not_eq_true', decide_eq_true_eq, List.all_eq_true, and_assoc] at hq
    exact iff_of_false Bool.false_ne_true fun h => h.2 hq
  case isFalse hq =>
    simp only [Bool.and_eq_true, Bool.not_eq_true', decide_eq_true_eq, List.all_eq_true, and_assoc] at hq
    exact (and_iff_left hq).symm

/-- A droop is counted on its core, and the eighth in 1 ms makes it avoided. -/
theorem droopEvent_counts {s : State} {core : Nat} (hs : sparseWf Core.reset 0 s.cores = true) (hc : core < 2048) :
    ∃ u, exec (.droopEvent core) s = .next u ∧
        (u.core core).droops = s.now :: (s.core core).droops.filter (fun d => decide (s.now < d + 50000000)) ∧
        ((u.core core).avoided = true ↔ (s.core core).avoided = true ∨ 8 ≤ ((u.core core).droops.filter fun d => decide (s.now < d + 1000000)).length) ∧
        { u with cores := s.cores, islands := s.islands } = s ∧ ∀ c, c ≠ core → u.core c = s.core c := by
  dsimp only [exec, execDroopEvent]
  rw [if_neg (by omega)]
  refine ⟨_, rfl, ?_, ?_, rfl, fun c hne => by rw [State.core_modIsland, State.core_modCore hs, if_neg hne]⟩ <;>
    rw [State.core_modIsland, State.core_modCore hs, if_pos rfl]
  · rfl
  · simp only [Bool.or_eq_true, decide_eq_true_eq]
    rfl

/-! Island clocks (R348) -/

/-- A droop stretches an edge, or, during a hop, is latched for the new source. -/
theorem droopEvent_stretches {s : State} {core : Nat} {x : Island} (hs : sparseWf Island.reset 0 s.islands = true)
    (hc : core < 2048) (hx : x = s.island (coreCluster core)) :
    ∃ u, exec (.droopEvent core) s = .next u ∧ (x.hop = none → u.island (coreCluster core) = x.stretched s.now) ∧
        (x.hop ≠ none → u.island (coreCluster core) = { x with droop := true }) := by
  subst hx
  dsimp only [exec, execDroopEvent]
  rw [if_neg (by omega)]
  refine ⟨_, rfl, fun h => ?_, fun h => ?_⟩ <;>
    rw [State.island_modIsland (by exact hs), if_pos rfl, State.island_modCore]
  · rw [if_neg (by simp [h])]
  · rw [if_pos (Option.isSome_iff_ne_none.mpr h)]

/-- A stretched island stands at the ck where it stood. -/
theorem Island.ckAt_stretched (x : Island) (now : Nat) : (x.stretched now).ckAt now = x.ckAt now := by
  simp [Island.stretched, Island.ckAt]

/-- A stretched island is never ahead of the island that was not. -/
theorem Island.ckAt_stretched_le {x : Island} {now later : Nat} (h : x.since ≤ now) (hl : now ≤ later) :
    (x.stretched now).ckAt later ≤ x.ckAt later := by
  have hsum : x.mhz * (later - x.since) = x.mhz * (now - x.since) + x.mhz * (later - now) := by
    rw [← Nat.mul_add]
    congr 1
    omega
  simp only [Island.stretched, Island.ckAt, hsum]
  omega

/-- A step of the ramp adds no ck and takes none. -/
theorem Island.ckAt_tick (x : Island) (now : Nat) : (x.tick now).ckAt now = x.ckAt now := by
  unfold Island.tick
  cases x.hop with
  | none => rfl
  | some f =>
    dsimp only
    split
    · rw [Island.ckAt_stretched]
      simp [Island.ckAt]
    · simp [Island.ckAt]

/-- A hop under way is over after a step, with its latched droop. -/
theorem Island.tick_of_hop {x : Island} {f : Nat} (now : Nat) (h : x.hop = some f) :
    (x.tick now).mhz = f ∧ (x.tick now).hop = none ∧ (x.tick now).droop = false := by
  simp only [Island.tick, h]
  split <;> exact ⟨rfl, rfl, rfl⟩

/-- With no hop under way a step moves the voltage alone. -/
theorem Island.tick_of_no_hop {x : Island} (now : Nat) (h : x.hop = none) :
    (x.tick now).mhz = x.mhz ∧ (x.tick now).droop = x.droop ∧ (x.tick now).target = x.target := by
  simp [Island.tick, h]

/-- The voltage's step towards the goal of the ramp. -/
theorem Island.tick_safe (x : Island) (now : Nat) : (x.tick now).safe =
    if x.safe < Nat.max (Nat.max x.target x.mhz) (x.hop.getD 0) then
      Nat.min (Nat.max (Nat.max x.target x.mhz) (x.hop.getD 0)) (x.safe + 25)
    else Nat.max (Nat.max (Nat.max x.target x.mhz) (x.hop.getD 0)) (x.safe - 25) := by
  unfold Island.tick
  cases x.hop with
  | none => rfl
  | some f =>
    dsimp only
    split <;> rfl

/-- What lies under the goal and was safe stays safe. -/
theorem Island.le_tick_safe {x : Island} {f : Nat} (now : Nat) (hs : f ≤ x.safe)
    (hg : f ≤ Nat.max (Nat.max x.target x.mhz) (x.hop.getD 0)) : f ≤ (x.tick now).safe := by
  rw [Island.tick_safe]
  split
  · exact Nat.le_min.mpr ⟨hg, by omega⟩
  · exact hg.trans (Nat.le_max_left _ _)

/-- The frequency does not outrun the voltage. -/
theorem Island.tick_mhz_le_safe {x : Island} {now : Nat} (hm : x.mhz ≤ x.safe)
    (hf : ∀ f, x.hop = some f → f ≤ x.safe) : (x.tick now).mhz ≤ (x.tick now).safe := by
  cases h : x.hop with
  | none =>
    rw [(Island.tick_of_no_hop now h).1]
    exact Island.le_tick_safe now hm ((Nat.le_max_right _ _).trans (Nat.le_max_left _ _))
  | some f =>
    rw [(Island.tick_of_hop now h).1]
    exact Island.le_tick_safe now (hf f h) (by rw [h]; exact Nat.le_max_right _ _)

/-- A target in steps of 25 from 400 to 1,000 MHz is set. -/
theorem islandFrequencyChange_sets {s : State} {n mhz : Nat} (hs : sparseWf Island.reset 0 s.islands = true)
    (hn : n < 128) (hlo : 400 ≤ mhz) (hhi : mhz ≤ 1000) (hstep : mhz % 25 = 0) :
    ∃ u, exec (.islandFrequencyChange n mhz) s = .next u ∧ u.island n = { s.island n with target := mhz } ∧
      { u with islands := s.islands } = s ∧ ∀ m, m ≠ n → u.island m = s.island m := by
  dsimp only [exec, execIslandFrequencyChange]
  rw [if_pos ⟨hn, hlo, hhi, hstep⟩]
  exact ⟨_, rfl, by rw [State.island_modIsland hs, if_pos rfl], rfl,
    fun m hne => by rw [State.island_modIsland hs, if_neg hne]⟩

/-- Any other target changes nothing. -/
theorem islandFrequencyChange_ignores {s : State} {n mhz : Nat} (h : ¬(400 ≤ mhz ∧ mhz ≤ 1000 ∧ mhz % 25 = 0)) :
    exec (.islandFrequencyChange n mhz) s = .next s := by
  dsimp only [exec, execIslandFrequencyChange]
  rw [if_neg fun hall => h hall.2]

/-- A hop to a new target begins once the voltage is safe for it. -/
theorem clockHop_begins {s : State} {n : Nat} (hs : sparseWf Island.reset 0 s.islands = true) (hn : n < 128)
    (hh : (s.island n).hop = none) (ht : (s.island n).target ≠ (s.island n).mhz)
    (hsafe : (s.island n).target ≤ (s.island n).safe) :
    ∃ u, exec (.clockHop n) s = .next u ∧ u.island n = { s.island n with hop := some (s.island n).target } ∧
      ∀ m, m ≠ n → u.island m = s.island m := by
  dsimp only [exec, execClockHop]
  rw [if_pos ⟨hn, hh, ht, hsafe⟩]
  exact ⟨_, rfl, by rw [State.island_modIsland hs, if_pos rfl],
    fun m hne => by rw [State.island_modIsland hs, if_neg hne]⟩

/-- No hop begins where the voltage is not safe for the target. -/
theorem clockHop_waits {s : State} {n : Nat} (h : (s.island n).safe < (s.island n).target) :
    exec (.clockHop n) s = .next s := by
  dsimp only [exec, execClockHop]
  rw [if_neg (by omega)]

/-! Device time (R350) -/

/-- LOCK follows the lock, alone of its word, and device time takes over the time it locks to. -/
theorem deviceTimeLock_completes (s : State) (lock : Option Nat) :
    ∃ u, exec (.deviceTimeLock lock) s = .next u ∧ u.stepCfg.getLsbD 21 = lock.isSome ∧
      u.devTime = lock.getD s.devTime ∧ { u with stepCfg := s.stepCfg, devTime := s.devTime } = s ∧
      ∀ j < 32, j ≠ 21 → u.stepCfg.getLsbD j = s.stepCfg.getLsbD j := by
  dsimp only [exec, execDeviceTimeLock]
  cases lock with
  | some t =>
    refine ⟨_, rfl, by simp, rfl, rfl, fun j _ hne => ?_⟩
    simp [BitVec.getLsbD_twoPow, Ne.symm hne]
  | none =>
    refine ⟨_, rfl, by simp, rfl, rfl, fun j hj hne => ?_⟩
    simp [hj, hne]

end Sys2Proof.Machine

namespace Sys2Proof
open Sys2Proof.Machine

/-- Settles O58, one lemma for each event and each rule of the ramp. -/
theorem powerAndClockEventsComplete : Obligations.PowerAndClockEventsComplete := by
  unfold Obligations.PowerAndClockEventsComplete
  exact ⟨fun _ _ => rfl, fun _ _ _ => State.calendarPos_succ, Island.ckAt_tick,
    fun _ _ _ hs hc => ⟨coreAvoidance_completes hs hc, avoidanceEnd_completes hs hc, droopEvent_counts hs hc⟩,
    fun _ _ _ => droopEvent_stretches,
    fun x now h => ⟨x.ckAt_stretched now, fun _ => Island.ckAt_stretched_le h⟩,
    fun _ _ _ hs hn => ⟨islandFrequencyChange_sets hs hn, islandFrequencyChange_ignores, clockHop_begins hs hn,
      clockHop_waits⟩,
    fun _ now _ => Island.tick_of_hop now, fun _ now => Island.tick_of_no_hop now,
    fun _ _ => Island.tick_mhz_le_safe, deviceTimeLock_completes⟩

end Sys2Proof
end

section
/-!
SUPPORT. The run that is offered: each of its positions is one of a record of the run (R94, R103).
-/

namespace Sys2Proof.Machine

/-! The run that is offered (R94, R103) -/

/-- The offered positions are those of ready records that lie within them. -/
theorem Group.mem_pick {g : Group} {pc : Addr} {ps : List Nat} {q : Nat} (h : g.pick = some (pc, ps)) (hq : q ∈ ps) :
    ∃ r ∈ g.recs, r.ready = true ∧ (∀ k ∈ r.positions, k ∈ ps) ∧ q ∈ r.positions := by
  have hall : ∀ sel : Rec → Bool, (∀ r ∈ g.recs, sel r = true → r.ready = true) → ps = allPositions (g.recs.filter sel) →
      ∃ r ∈ g.recs, r.ready = true ∧ (∀ k ∈ r.positions, k ∈ ps) ∧ q ∈ r.positions := by
    rintro sel hsel rfl
    obtain ⟨r, hr, hqr⟩ := mem_allPositions.mp hq
    obtain ⟨hmem, hs⟩ := List.mem_filter.mp hr
    exact ⟨r, hmem, hsel r hmem hs, fun k hk => mem_allPositions.mpr ⟨r, hr, hk⟩, hqr⟩
  have hready : ∀ a, ps = g.readyAt a → ∃ r ∈ g.recs, r.ready = true ∧ (∀ k ∈ r.positions, k ∈ ps) ∧ q ∈ r.positions :=
    fun a => hall _ fun r _ hr => by simp_all
  unfold Group.pick at h
  split at h
  · split at h
    · next r hr =>
      split at h
      · next hrdy =>
        simp only [Option.some.injEq, Prod.mk.injEq] at h
        obtain ⟨-, rfl⟩ := h
        exact ⟨r, List.mem_of_getElem? hr, hrdy, fun k hk => hk, hq⟩
      · cases h
    · cases h
  · dsimp only at h
    split at h
    · simp only [Option.some.injEq, Prod.mk.injEq] at h
      obtain ⟨-, hps⟩ := h
      refine hall _ (fun r _ hr => ?_) (hps.symm.trans (by rw [List.filter_filter]))
      simp only [Bool.and_eq_true] at hr
      exact hr.2.1
    · split at h
      · cases h
      · split at h <;> simp only [Option.some.injEq, Prod.mk.injEq] at h <;> exact hready _ h.2.symm

/-- Positions of selected records stay positions of selected records: a merge is of two of them, and is one. -/
def KeepsSelected (sel : Rec → Bool) (rs rs' : List Rec) : Prop :=
  ∀ q, (∃ r ∈ rs, sel r = true ∧ q ∈ r.positions) → ∃ r ∈ rs', sel r = true ∧ q ∈ r.positions

theorem KeepsSelected.refl (sel : Rec → Bool) (rs : List Rec) : KeepsSelected sel rs rs := fun _ h => h

theorem KeepsSelected.trans {sel : Rec → Bool} {rs rs' rs'' : List Rec} (h : KeepsSelected sel rs rs')
    (h' : KeepsSelected sel rs' rs'') : KeepsSelected sel rs rs'' := fun q hq => h' q (h q hq)

theorem KeepsSelected.cons {sel : Rec → Bool} {rs rs' : List Rec} (x : Rec) (h : KeepsSelected sel rs rs') :
    KeepsSelected sel (x :: rs) (x :: rs') := by
  rintro q ⟨r, hr, hs, hq⟩
  rcases List.mem_cons.mp hr with rfl | hr
  · exact ⟨r, List.mem_cons_self, hs, hq⟩
  · obtain ⟨r', hr', hrest⟩ := h q ⟨r, hr, hs, hq⟩
    exact ⟨r', List.mem_cons_of_mem _ hr', hrest⟩

section
variable {sel : Rec → Bool} (hsel : ∀ x y m, sel x = true → sel y = true → mergeRecs x y = some m → sel m = true)
include hsel

theorem keepsSelected_mergeWith {x m : Rec} {l rest : List Rec} (hx : sel x = true) (h : mergeWith sel x l = some (m, rest)) :
    KeepsSelected sel (x :: l) (m :: rest) ∧ sel m = true := by
  induction l generalizing rest with
  | nil => cases h
  | cons y l ih =>
    unfold mergeWith at h
    split at h
    · next m' hm =>
      simp only [Option.some.injEq, Prod.mk.injEq] at h
      obtain ⟨rfl, rfl⟩ := h
      split_ifs at hm with hy
      simp only [Bool.and_eq_true] at hy
      have hpos := (mergeRecs_spec hm).2.1
      have hselm := hsel x y m' hx hy.2 hm
      refine ⟨fun q hq => ?_, hselm⟩
      obtain ⟨r, hr, hs, hqr⟩ := hq
      rcases List.mem_cons.mp hr with rfl | hr
      · exact ⟨m', by simp, hselm, hpos.mem_iff.mpr (by simp [hqr])⟩
      · rcases List.mem_cons.mp hr with rfl | hr
        · exact ⟨m', by simp, hselm, hpos.mem_iff.mpr (by simp [hqr])⟩
        · exact ⟨r, by simp [hr], hs, hqr⟩
    · obtain ⟨⟨m', rest'⟩, hw, hp⟩ := Option.map_eq_some_iff.mp h
      obtain ⟨rfl, rfl⟩ := Prod.mk.inj hp
      obtain ⟨ih, hm⟩ := ih hw
      refine ⟨fun q hq => ?_, hm⟩
      obtain ⟨r, hr, hrest⟩ := ih.cons y q (by simpa [or_left_comm, or_and_right, exists_or] using hq)
      exact ⟨r, by simpa [or_left_comm] using hr, hrest⟩

theorem keepsSelected_mergeOnce {rs rs' : List Rec} (h : mergeOnce sel rs = some rs') : KeepsSelected sel rs rs' := by
  induction rs generalizing rs' with
  | nil => cases h
  | cons x rs ih =>
    unfold mergeOnce at h
    split at h
    · next m rest hw =>
      obtain rfl := Option.some.inj h
      split_ifs at hw with hx
      simp only [Bool.and_eq_true] at hx
      exact (keepsSelected_mergeWith hsel hx.2 hw).1
    · obtain ⟨rest, hr, rfl⟩ := Option.map_eq_some_iff.mp h
      exact (ih hr).cons x

theorem keepsSelected_mergeAll (fuel : Nat) (rs : List Rec) : KeepsSelected sel rs (mergeAll sel fuel rs) := by
  induction fuel generalizing rs with
  | zero => exact .refl sel rs
  | succ n ih =>
    unfold mergeAll
    split
    · next rs' h => exact (keepsSelected_mergeOnce hsel h).trans (ih rs')
    · exact .refl sel rs

end

/-- The record of a merge is ready as the first of the two. -/
theorem mergeRecs_ready {x y m : Rec} (h : mergeRecs x y = some m) : m.ready = x.ready := by
  unfold mergeRecs at h
  dsimp only at h
  split at h
  · split_ifs at h
    obtain rfl := Option.some.inj h
    rfl
  · cases h

/-- Every position that is offered is one of a record of the run. -/
theorem State.iss_covers {s : State} {k : Ctl} {i : Iss} (hi : s.iss k = some i) {q : Nat} (hq : q ∈ i.sel) :
    ∃ r ∈ i.run, q ∈ r.positions := by
  unfold State.iss at hi
  split at hi
  · simp only [Option.bind_eq_some_iff, Option.map_eq_some_iff] at hi
    obtain ⟨g, -, ⟨pc, ps⟩, hpick, c, -, t, -, task, -, rfl⟩ := hi
    obtain ⟨r, hr, hready, hsub, hqr⟩ := Group.mem_pick hpick hq
    have hin : (r.ready && r.positions.all ps.contains) = true := by
      simpa [hready] using hsub
    simp only [Iss.mem_run, Iss.inRun, and_assoc]
    split
    · exact ⟨r, hr, hin, hqr⟩
    · have hmerge : ∀ x y m : Rec, (x.ready && x.positions.all ps.contains) = true →
          (y.ready && y.positions.all ps.contains) = true → mergeRecs x y = some m →
          (m.ready && m.positions.all ps.contains) = true := fun x y m hx hy hm => by
        have hpos := (mergeRecs_spec hm).2.1
        simp only [Bool.and_eq_true, List.all_eq_true] at hx hy ⊢
        exact ⟨(mergeRecs_ready hm).trans hx.1, fun k hk =>
          (List.mem_append.mp (hpos.mem_iff.mp hk)).elim (hx.2 k) (hy.2 k)⟩
      exact keepsSelected_mergeAll hmerge _ _ q ⟨r, hr, hin, hqr⟩
  · cases hi

/-- The guarded positions by record are the guarded positions that are offered. -/
theorem State.mem_onByAge {s : State} {k : Ctl} {i : Iss} (hi : s.iss k = some i) {p : Nat} : p ∈ i.onByAge ↔ p ∈ i.on := by
  rw [Iss.mem_onByAge_iff, Iss.allByAge, mem_allPositions]
  exact ⟨fun h => h.2, fun h => ⟨State.iss_covers hi (Iss.mem_on.mp h).1, h⟩⟩

end Sys2Proof.Machine
end

section
/-!
SUPPORT. Range records while results land, and the address of a range record whose pair is U at its pass (R112, R226, R416).
-/

namespace Sys2Proof.Machine

/-! Range records as results land (R416) -/

/-- What results leave of a record: one record of its kind at its positions, or a lane record for each of them. -/
def Rec.WholeOrLanes (r : Rec) (out : List Rec) : Prop :=
  (∃ x, out = [x] ∧ x.lane = r.lane ∧ x.positions = r.positions) ∨
    ∃ f : Nat → Rec, out = r.positions.map f ∧ ∀ k, (f k).lane = true ∧ (f k).positions = [k]

/-- No position comes to stand twice, and a range record that stands later is one that stood before. -/
structure KeepsRanges (rs rs' : List Rec) : Prop where
  nodup : (allPositions rs).Nodup → (allPositions rs').Nodup
  whole : ∀ x ∈ rs', x.lane = false → ∃ r ∈ rs, r.lane = false ∧ x.positions = r.positions

theorem KeepsRanges.refl (rs : List Rec) : KeepsRanges rs rs := ⟨id, fun x hx hl => ⟨x, hx, hl, rfl⟩⟩

theorem KeepsRanges.trans {rs rs' rs'' : List Rec} (h : KeepsRanges rs rs') (h' : KeepsRanges rs' rs'') : KeepsRanges rs rs'' where
  nodup hn := h'.nodup (h.nodup hn)
  whole x hx hl := by
    obtain ⟨y, hy, hyl, hxy⟩ := h'.whole x hx hl
    obtain ⟨r, hr, hrl, hyr⟩ := h.whole y hy hyl
    exact ⟨r, hr, hrl, hxy.trans hyr⟩

theorem Rec.WholeOrLanes.allPositions_eq {r : Rec} {out : List Rec} (h : r.WholeOrLanes out) : allPositions out = r.positions := by
  rcases h with ⟨x, rfl, -, hx⟩ | ⟨f, rfl, hf⟩
  · simp [hx]
  · simp [allPositions, List.flatMap_map, hf]

/-- Where each record leaves a whole record or lanes, range records are kept. -/
theorem keepsRanges_flatMap {f : Rec → List Rec} (h : ∀ r : Rec, r.WholeOrLanes (f r)) (rs : List Rec) : KeepsRanges rs (rs.flatMap f) where
  nodup hn := by
    have hsame : allPositions (rs.flatMap f) = allPositions rs := by
      rw [allPositions, List.flatMap_assoc]
      exact List.flatMap_congr fun r _ => (h r).allPositions_eq
    rwa [hsame]
  whole x hx hl := by
    obtain ⟨r, hr, hx⟩ := List.mem_flatMap.mp hx
    rcases h r with ⟨y, hy, hlane, hpos⟩ | ⟨lanes, hlanes, hspec⟩
    · obtain rfl := List.mem_singleton.mp (hy ▸ hx)
      exact ⟨r, hr, hlane ▸ hl, hpos⟩
    · obtain ⟨k, -, rfl⟩ := List.mem_map.mp (hlanes ▸ hx)
      exact absurd hl (by simp [(hspec k).1])

theorem wholeOrLanes_landRec (reg : Nat) (vals : List (Nat × Word)) (form : Option Form) (r : Rec) :
    r.WholeOrLanes (landRec reg vals form r).1 := by
  have hset : ∀ f, r.WholeOrLanes [r.setForm reg f] := fun f => .inl ⟨_, rfl, rfl, rfl⟩
  unfold landRec
  dsimp only
  split
  · exact .inl ⟨r, rfl, rfl, rfl⟩
  · split
    · split <;> exact hset _
    · split
      · exact hset _
      · refine .inr ⟨_, rfl, fun k => ?_⟩
        split <;> exact ⟨rfl, by simp⟩

theorem Group.keepsRanges_landV (g : Group) (reg : Nat) (vals : List (Nat × Word)) (form : Option Form) :
    KeepsRanges g.recs (g.landV reg vals form).recs := by
  by_cases hreg : reg < 64
  · rw [Group.landV_recs g hreg]
    exact keepsRanges_flatMap (wholeOrLanes_landRec reg vals form) _
  · rw [Group.landV, if_pos (by omega)]
    exact .refl _

theorem Group.keepsRanges_apply (g : Group) (w : RegWrite) : KeepsRanges g.recs (g.apply w).recs := by
  cases w with
  | v r vs f => exact g.keepsRanges_landV r vs f
  | p n m b =>
    unfold Group.apply Group.setP
    dsimp only
    split <;> exact .refl _
  | s | push | hl | c | count => exact .refl _

theorem Group.keepsRanges_dropOlder (g : Group) (ord : Nat) (w : RegWrite) : KeepsRanges g.recs (g.dropOlder ord w).recs := by
  have hmap : (g.dropOlder ord w).recs = g.recs.flatMap fun r => [r.dropDst ord w] := by
    rw [← List.map_eq_flatMap]
    rfl
  rw [hmap]
  exact keepsRanges_flatMap (fun r => .inl ⟨r.dropDst ord w, rfl, rfl, rfl⟩) _

theorem Group.keepsRanges_withResults (g : Group) (es : List Inflight) : KeepsRanges g.recs (g.withResults es).recs := by
  refine List.foldlRecOn es _ (motive := fun h : Group => KeepsRanges g.recs h.recs) (.refl _) fun h hh e _ => ?_
  exact List.foldlRecOn e.ws _ (motive := fun h : Group => KeepsRanges g.recs h.recs) hh fun h hh w _ =>
    hh.trans ((h.keepsRanges_dropOlder e.ord w).trans (Group.keepsRanges_apply _ w))

theorem Group.keepsRanges_viewAt (g : Group) (ck : Nat) : KeepsRanges g.recs (g.viewAt ck).recs :=
  (g.keepsRanges_withResults _).trans
    (Group.keepsRanges_withResults { g.withResults (g.byDue.filter fun e => decide (e.due < ck)) with bcDrop := [] } _)

/-! The issue as a position of a range record finds it (R112, R226) -/

section
variable {i : Iss}

theorem Iss.at_eq (i : Iss) (ck : Nat) : i.at ck = { i with g := (i.at ck).g } := by
  unfold Iss.at
  split <;> rfl

theorem Iss.keepsRanges_at (i : Iss) (ck : Nat) : KeepsRanges i.g.recs (i.at ck).g.recs := by
  unfold Iss.at
  split
  · exact .refl _
  · exact i.g.keepsRanges_viewAt ck

theorem Iss.timedBy_eq_at (i : Iss) (sch : List (List Rec × Nat)) (p : Nat) :
    i.timedBy sch p = i.at (if i.g.wb.isEmpty then i.now else ckOf sch i.now p) := by
  unfold Iss.timedBy
  split
  · simp [Iss.at]
  · rfl

theorem mem_chunks {α : Type} {n fuel : Nat} {l u : List α} (h : u ∈ chunks n fuel l) : ∀ x ∈ u, x ∈ l := by
  induction fuel generalizing l with
  | zero => simp [chunks] at h
  | succ fuel ih =>
    unfold chunks at h
    split at h
    · simp at h
    · rcases List.mem_cons.mp h with rfl | h
      · exact fun x hx => List.mem_of_mem_take hx
      · exact fun x hx => List.mem_of_mem_drop (ih h x hx)

/-- The units of an issue are of the records of its group. -/
theorem Iss.mem_units {gc : Group} {u : List Rec} (h : u ∈ i.units gc) : ∀ r ∈ u, r ∈ gc.recs := by
  intro r hr
  rcases List.mem_append.mp h with h | h
  · obtain ⟨x, hx, rfl⟩ := List.mem_map.mp h
    rw [List.mem_singleton.mp hr]
    exact (List.mem_filter.mp hx).1
  · exact (List.mem_filter.mp (mem_foldr_insertRec.mp (mem_chunks h r hr))).1

theorem mem_unitTimes {rounds : Nat → List Rec → Nat} {ready : Nat → Nat} {regs : List Nat} {t : Nat} {us : List (List Rec)}
    {u : List Rec × Nat} (h : u ∈ unitTimes rounds ready regs t us) : u.1 ∈ us := by
  induction us generalizing t with
  | nil => simp [unitTimes] at h
  | cons v us ih =>
    rcases List.mem_cons.mp h with rfl | h
    · exact List.mem_cons_self
    · exact List.mem_cons_of_mem _ (ih h)

/-- Positions of one record issue in one ck. -/
theorem Iss.ckOf_sched_eq {gc : Group} (hn : (allPositions gc.recs).Nodup) {r : Rec} (hr : r ∈ gc.recs) {p q : Nat}
    (hp : p ∈ r.positions) (hq : q ∈ r.positions) (regs : List Nat) (rounds : Nat → List Rec → Nat) :
    ckOf (i.sched gc regs rounds) i.now p = ckOf (i.sched gc regs rounds) i.now q := by
  have hcov : ∀ x ∈ gc.recs, x.covers p = x.covers q := fun x hx => by
    rw [Bool.eq_iff_iff, Rec.covers_iff, Rec.covers_iff]
    exact ⟨fun h => eq_of_mem_positions hn hr hx hp h ▸ hq, fun h => eq_of_mem_positions hn hr hx hq h ▸ hp⟩
  have hunit : ∀ u ∈ i.sched gc regs rounds, (u.1.any fun x => x.covers p) = u.1.any fun x => x.covers q := fun u hu => by
    rw [Bool.eq_iff_iff, List.any_eq_true, List.any_eq_true]
    exact exists_congr fun x => and_congr_right fun hx => by rw [hcov x (Iss.mem_units (mem_unitTimes hu) x hx)]
  unfold ckOf
  rw [List.find?_congr hunit]

/-- Positions of one record find one issue. -/
theorem Iss.memTimes_eq (hn : (allPositions i.g.recs).Nodup) {r : Rec} (hr : r ∈ i.g.recs) {p q : Nat} (hp : p ∈ r.positions)
    (hq : q ∈ r.positions) (regs : List Nat) (a : Opnd) (off : BitVec 12) (size : Nat) :
    i.memTimes regs a off size p = i.memTimes regs a off size q := by
  unfold Iss.memTimes Iss.memSched
  rw [Iss.timedBy_eq_at, Iss.timedBy_eq_at, Iss.ckOf_sched_eq hn hr hp hq]

/-- A range record at its pass stands at the positions where it stood. -/
theorem Iss.recNow_at (hn : (allPositions i.g.recs).Nodup) {r y : Rec} (hr : r ∈ i.g.recs) (hl : r.lane = false)
    (hb : r.b ∈ r.positions) {ck : Nat} (h : (i.at ck).recNow r = some y) :
    (allPositions (i.at ck).g.recs).Nodup ∧ y ∈ (i.at ck).g.recs ∧ y.positions = r.positions := by
  obtain ⟨x, hx, hxy⟩ := Option.bind_eq_some_iff.mp h
  split_ifs at hxy with hlane
  obtain rfl := Option.some.inj hxy
  have hkeep := i.keepsRanges_at ck
  obtain ⟨hmem, hcov⟩ := Group.recAt_mem hx
  obtain ⟨r', hr', -, hpos⟩ := hkeep.whole x hmem ((beq_iff_eq.mp hlane).trans hl)
  obtain rfl := eq_of_mem_positions hn hr hr' hb (hpos ▸ hcov)
  exact ⟨hkeep.nodup hn, hmem, hpos⟩

theorem Cls.worse_eq_u {x y : Cls} : x.worse y = .u ↔ x = .u ∧ y = .u := by cases x <;> cases y <;> decide

/-- A pair that a record holds as U is one value at all its positions. -/
theorem Group.pair_of_u {g : Group} (hn : (allPositions g.recs).Nodup) {y : Rec} (hy : y ∈ g.recs) {a : Opnd}
    (hk : opKind a ∈ [Kind.v, .s, .zr]) (hu : g.srcCls true y (.op a) = .u) {p q : Nat} (hp : p ∈ y.positions)
    (hq : q ∈ y.positions) : g.pair a p = g.pair a q := by
  cases a with
  | v n =>
    obtain ⟨h0, h1⟩ := Cls.worse_eq_u.mp hu
    have hat : ∀ m, (y.form m).cls = .u → g.vAt m p = g.vAt m q := fun m hm => by
      rw [Group.vAt_of_mem hn hy hp, Group.vAt_of_mem hn hy hq]
      simp [Group.valueIn, hm]
    simp only [Group.pair, Group.word2, Nat.add_zero, hat _ h0, hat _ h1]
  | s n => rfl
  | zr => rfl
  | _ => simp [opKind] at hk

/-- A range record whose address pair is U at its pass has one address at all its positions (R226). -/
theorem Iss.memAddr_of_u (hn : (allPositions i.g.recs).Nodup) {r : Rec} (hr : r ∈ i.g.recs) (hl : r.lane = false) {a : Opnd}
    (hk : opKind a ∈ [Kind.v, .s, .zr]) {regs : List Nat} {off : BitVec 12} {size : Nat}
    (hu : classAt (i.memTimes regs a off size) true (.op a) r = .u) {p q : Nat} (hp : p ∈ r.positions) (hq : q ∈ r.positions) :
    i.memAddr regs a off size p = i.memAddr regs a off size q := by
  have hb : r.b ∈ r.positions := by
    obtain ⟨j, hj, -⟩ := Rec.mem_positions.mp hp
    exact Rec.mem_positions.mpr ⟨0, by omega, by simp⟩
  have hpair : (i.memTimes regs a off size r.b).g.pair a p = (i.memTimes regs a off size r.b).g.pair a q := by
    unfold classAt at hu
    split at hu
    · next y hy =>
      rw [Iss.memTimes, Iss.timedBy_eq_at] at hy hu ⊢
      obtain ⟨hnd, hmem, hpos⟩ := Iss.recNow_at hn hr hl hb hy
      exact Group.pair_of_u hnd hmem hk hu (hpos ▸ hp) (hpos ▸ hq)
    · cases hu
  unfold Iss.memAddr Iss.addr
  rw [Iss.memTimes_eq hn hr hp hb, Iss.memTimes_eq hn hr hq hb, hpair]

end

end Sys2Proof.Machine
end

section
/-!
SUPPORT. What passes the checks of an access, of a watchpoint and of a queue (R201, R219 to R221, R369), and a load into a queue
(R220, R230).
-/

namespace Sys2Proof.Machine

section
variable {s : State} {i : Iss} {A : Nat → Addr} {perm size n : Nat} {admits : List Aper}

/-! Addresses that pass their checks -/

/-- What the access check admits lies in an admitted aperture. -/
theorem Iss.aper_mem_of_admitted {va : Addr} (h : i.accessFault perm admits size va = none) : (i.aper va).1 ∈ admits := by
  by_contra ha
  cases hb : i.ctx.boundOk perm va size with
  | false => rw [Iss.accessFault_of_bound hb] at h; cases h
  | true => rw [Iss.accessFault_of_aperture hb ha] at h; cases h

theorem Iss.isGlobal_iff {va : Addr} : i.isGlobal va = true ↔ (i.aper va).1 = .global := beq_iff_eq

/-- On chip an access has one of the three latencies (R112). -/
theorem Iss.accLat_mem {va : Addr} (h : i.isGlobal va = false) : i.accLat va ∈ chipLats := by
  rw [Iss.accLat, if_neg (by simp [h])]
  cases (i.aper va).1 <;> decide

theorem le_of_mem_chipLats {l : Nat} (h : l ∈ chipLats) : 6 ≤ l := by
  simp only [chipLats, List.mem_cons, List.not_mem_nil, or_false] at h
  omega

theorem Iss.mem_withAddr {x : Nat × Addr} : x ∈ i.withAddr A ↔ x.1 ∈ i.onByAge ∧ x.2 = A x.1 := by
  obtain ⟨p, va⟩ := x
  simp only [Iss.withAddr, List.mem_map, Prod.mk.injEq]
  constructor
  · rintro ⟨q, hq, rfl, rfl⟩
    exact ⟨hq, rfl⟩
  · rintro ⟨hp, rfl⟩
    exact ⟨p, hp, rfl, rfl⟩

/-- Accesses that are all admitted pass. -/
theorem Iss.checkAccess_ok (h : ∀ p ∈ i.onByAge, i.accessFault perm admits size (A p) = none) :
    i.checkAccess perm admits size (i.withAddr A) = .ok () := by
  have hnone : ((i.withAddr A).filter fun a => (i.accessFault perm admits size a.2).isSome) = [] :=
    List.filter_eq_nil_iff.mpr fun x hx => by
      obtain ⟨hp, hva⟩ := Iss.mem_withAddr.mp hx
      simp [hva, h _ hp]
  simp only [Iss.checkAccess, hnone]

theorem mem_insertBy {α : Type} {f : α → Nat} {x y : α} {l : List α} : y ∈ insertBy f x l ↔ y = x ∨ y ∈ l := by
  induction l with
  | nil => simp [insertBy]
  | cons z l ih => simp only [insertBy]; split <;> simp [ih, or_left_comm]

theorem mem_sortBy {α : Type} {f : α → Nat} {y : α} {l : List α} : y ∈ sortBy f l ↔ y ∈ l := by
  induction l with
  | nil => simp [sortBy]
  | cons z l ih =>
    have : sortBy f (z :: l) = insertBy f z (sortBy f l) := rfl
    rw [this, mem_insertBy, ih, List.mem_cons]

/-- Accesses that no watchpoint hits pass the watchpoint check (R369). -/
theorem State.watchCheck_ok {kinds : Addr → List Nat} (h : s.unwatched i kinds size A) :
    s.watchCheck i (watchList kinds size (i.withAddr A)) = .ok () := by
  unfold State.watchCheck
  split
  · rfl
  · next hopen =>
    dsimp only
    rw [List.filter_eq_nil_iff.mpr]
    intro x hx
    obtain ⟨hx, hwatch⟩ := List.mem_filter.mp hx
    obtain ⟨⟨p, va⟩, hy, hx⟩ := List.mem_flatMap.mp hx
    obtain ⟨kd, hkd, rfl⟩ := List.mem_map.mp hx
    obtain ⟨hp, hva⟩ := Iss.mem_withAddr.mp (mem_sortBy.mp hy)
    have hserve : i.g.serves.isSome ≠ true := fun hs => hopen (by simp [hs])
    rcases (h.resolve_left hserve) p hp kd (hva ▸ hkd) with hno | hno
    · simp [hno] at hwatch
    · dsimp only at hva ⊢
      simp [hva, hno]

/-- Records that reach no global address complete on chip. -/
theorem Iss.globalRecs_of_chip (h : ∀ p ∈ i.onByAge, i.isGlobal (A p) = false) : i.globalRecs A = 0 := by
  rw [Iss.globalRecs, List.length_eq_zero_iff, List.filter_eq_nil_iff]
  intro r hr hnone
  have hlat : 0 ∉ (i.onIn r).map fun k => i.accLat (A k) := fun hmem => by
    obtain ⟨k, hk, hk0⟩ := List.mem_map.mp hmem
    have := le_of_mem_chipLats (Iss.accLat_mem (h k (Iss.mem_onByAge.mpr ⟨r, hr, hk⟩)))
    omega
  simp [Iss.recLat, hlat] at hnone

/-- Addresses on chip have no element in the operand log. -/
theorem Iss.loadElems_of_chip (h : ∀ p ∈ i.onByAge, i.isGlobal (A p) = false) (cls : Rec → Cls) :
    i.loadElems A cls size = [] := by
  refine List.flatMap_eq_nil_iff.mpr fun r hr => ?_
  have hks : (i.onIn r).filter (fun k => i.isGlobal (A k)) = [] := List.filter_eq_nil_iff.mpr fun k hk => by
    simp [h k (Iss.mem_onByAge.mpr ⟨r, Iss.mem_inOrder.mp hr, hk⟩)]
  simp only [hks]

/-- The largest of some numbers is one of them. -/
theorem maxNat_mem {l : List Nat} (h : l ≠ []) : maxNat l ∈ l := by
  have hfold : ∀ (l : List Nat) a, l.foldl Nat.max a = a ∨ l.foldl Nat.max a ∈ l := fun l => by
    induction l with
    | nil => simp
    | cons b l ih =>
      intro a
      rw [List.foldl_cons]
      rcases ih (Nat.max a b) with heq | hmem
      · rw [heq]
        rcases Nat.le_total a b with hab | hab
        · exact .inr (by rw [show Nat.max a b = b from Nat.max_eq_right hab]; exact List.mem_cons_self)
        · exact .inl (Nat.max_eq_left hab)
      · exact .inr (List.mem_cons_of_mem _ hmem)
  obtain ⟨b, l, rfl⟩ := List.exists_cons_of_ne_nil h
  have hb : maxNat (b :: l) = l.foldl Nat.max b := by simp [maxNat]
  rw [hb]
  rcases hfold l b with heq | hmem
  · rw [heq]; exact List.mem_cons_self
  · exact List.mem_cons_of_mem _ hmem

/-! Queues of the run (R219 to R221) -/

/-- An acting run makes the check of the queue that it names. -/
theorem Iss.onQueue_acts {α : Type} (ho : i.on ≠ []) (d : α) (f : Nat → Except Stop α) : i.onQueue (some n) d f = f n := by
  rw [Iss.onQueue, if_pos (acts_iff.mpr ho)]

theorem endOk_iff {e : QEnd} {g : Nat} : endOk e g = true ↔ e = .unbound ∨ e = .group g := by simp [endOk]

theorem Iss.prodCheck_ok {q : Queue} (hq : i.queue n = some q) (he : q.prod = .unbound ∨ q.prod = .group i.g.g) :
    i.prodCheck n = .ok () := by
  simp [Iss.prodCheck, hq, endOk_iff.mpr he]

theorem Iss.pushCheck_ok {q : Queue} (hq : i.queue n = some q) (he : q.prod = .unbound ∨ q.prod = .group i.g.g)
    (hroom : q.held i.now < 16) : i.pushCheck n = .ok () := by
  simp [Iss.pushCheck, hq, endOk_iff.mpr he, hroom]

theorem Iss.consCheck_ok {e : List Word} (h : i.headIs n e) : i.consCheck n = .ok () := by
  obtain ⟨q, rest, hq, he, -⟩ := h
  simp [Iss.consCheck, hq, endOk_iff.mpr he]

theorem Iss.popCheck_ok {e : List Word} (h : i.headIs n e) : i.popCheck n = .ok e := by
  obtain ⟨q, rest, hq, he, hent, hhere⟩ := h
  have hhead : q.head i.now = some e := by
    rw [Queue.head, if_neg (by rw [Queue.here]; omega), hent]
    rfl
  simp [Iss.popCheck, hq, endOk_iff.mpr he, hhead]

/-- An entry has each position's word in its place. -/
theorem entryWords_getElem? {ps : List Nat} {f : Nat → Word} {p : Nat} (hp : p ∈ ps) (hlt : p < 64) :
    (entryWords (ps.map fun k => (k, f k)))[p]? = some (f p) := by
  have hfind : ((ps.map fun k => (k, f k)).find? fun v => v.1 == p) = some (p, f p) := by
    obtain ⟨k, hk⟩ := Option.isSome_iff_exists.mp
      (List.find?_isSome (p := fun k => k == p).mpr ⟨p, hp, beq_self_eq_true p⟩)
    have hkp : k = p := by simpa using List.find?_some hk
    rw [List.find?_map]
    exact (congrArg _ hk).trans (by simp [hkp])
  rw [entryWords, List.getElem?_map, List.getElem?_range hlt, Option.map_some, hfind]
  rfl

theorem entryWords_length (vs : List (Nat × Word)) : (entryWords vs).length = 64 := by simp [entryWords]

/-- A value that goes to no s register is delivered with the expansions that its plan asks for. -/
theorem Iss.values_of_not_s {d : Opnd} (hd : isSDst d = false) (words : Nat) (val : Nat → Nat → Word) (cell : Rec → Cell)
    (uni : Rec → Bool) : ∃ v sel, i.values d words val cell uni = .ok v ∧ v.g = i.g.expand sel := by
  simp only [Iss.values, hd, Bool.false_eq_true, if_false, failAt_nil]
  exact ⟨_, _, rfl, rfl⟩

end

/-! A load into a queue (R220, R230) -/

/-- What a load into a queue finds: it may issue, its accesses are on chip and pass, and the queue has room for its group. -/
structure State.QueueLoad (s : State) (i : Iss) (n : Fin 16) (a : Opnd) (m : Mem) (size : Nat) (q : Queue) (A : Nat → Addr) : Prop where
  acts : i.on ≠ []
  nwb : i.k.nwb = false
  check : i.check [⟨.dq n, [.v, .s, .dq, .zr], 1, 0⟩, pairN a] = .ok ()
  queue : i.queue n.val = some q
  bound : q.prod = .unbound ∨ q.prod = .group i.g.g
  room : q.held i.now < 16
  addr : A = i.memAddr (readRegs [pairN a]) a m.off size
  admitted : ∀ p ∈ i.onByAge, i.accessFault permR (plainApers true) size (A p) = none
  unwatched : s.unwatched i (fun _ => [watchRead]) size A
  unheld : i.readHeld (i.withAddr A) size = false

/-! The addresses of an access, as the body of its instruction writes them -/

theorem Iss.sched_eq_memSched (i : Iss) (regs : List Nat) (a : Opnd) (off : BitVec 12) (size : Nat) :
    i.sched i.g regs (i.rounds (memWords a off size)) = i.memSched regs a off size := rfl

theorem Iss.timedBy_eq_memTimes (i : Iss) (regs : List Nat) (a : Opnd) (off : BitVec 12) (size : Nat) :
    i.timedBy (i.memSched regs a off size) = i.memTimes regs a off size := rfl

theorem Iss.addr_eq (i : Iss) {regs : List Nat} {a : Opnd} {off : BitVec 12} {size : Nat} {A : Nat → Addr}
    (h : A = i.memAddr regs a off size) : (fun p => (i.memTimes regs a off size p).addr a off p) = A := h.symm

/-- What the case table asks of a record where a load of one word goes to a queue. -/
def State.queueCell (s : State) (i : Iss) (n : Fin 16) (a : Opnd) (size : Nat) (T : Times) (A : Nat → Addr) (r : Rec) : Cell :=
  cellAt (fun _ => i.loadCell A (classAt T true (.op a) r) 1 (i.hasRes (.dq n)) (s.chipLoad i A size) r) (T r.b) r

/-- The words of such a load are read once for a record of U address off the stack. -/
def Iss.queueUni (i : Iss) (a : Opnd) (T : Times) (A : Nat → Addr) (r : Rec) : Bool :=
  classAt T true (.op a) r == .u && !i.stackOnly A r

/-- Results of such a load at an on-chip latency: the latches', and the push at that of its slowest access. -/
def State.queueRes (s : State) (i : Iss) (n : Fin 16) (a : Opnd) (cq size : Nat) (T : Times) (A : Nat → Addr) (l : Nat) : Res :=
  ⟨l, i.countLat A l,
    i.loadRes (.dq n) 1 (s.chipLoad i A size) A (i.queueUni a T A)
      (fun r => i.plan (.dq n) 1 (s.chipLoad i A size) r (s.queueCell i n a size T A r)) l ++ i.chipCount A cq size l ++
      if i.acts && l = maxNat ((i.withAddr A).map fun x => i.accLat x.2) then
        [.push (i.queueIx n.val) (entryWords ((i.withAddr A).map fun x => (x.1, s.chipLoad i A size x.1 0)))]
      else []⟩

section
variable {s : State} {k : Ctl} {i : Iss} {ins : Instr} {n : Fin 16} {a : Opnd} {m : Mem} {size : Nat} {q : Queue} {A : Nat → Addr}
  (h : s.QueueLoad i n a m size q A)
include h

theorem State.QueueLoad.chip : ∀ p ∈ i.onByAge, i.isGlobal (A p) = false := fun p hp => by
  have := Iss.aper_mem_of_admitted (h.admitted p hp)
  rw [Bool.eq_false_iff, Ne, Iss.isGlobal_iff]
  intro hg
  simp [hg, plainApers] at this

/-- Such a load claims the room and finishes with its results and its expansions. -/
theorem State.QueueLoad.loadOp_eq (hi : s.iss k = some i) : ∃ extra, ∃ sel : Rec → Bool,
    s.loadOp k ins (.dq n) a m size 1 true = .next (((s.claim i.ti (i.queueIx n.val)).countRounds i.ci extra).finish i i.g
      { i.g.expand sel with
        rereads := i.g.rereads ++ i.laterReads A (i.memSched (readRegs [pairN a]) a m.off size) (.dq n) size (s.ord + 1) }
      (readRegs [pairN a]) extra 0
      (chipLats.map (s.queueRes i n a m.cq.toNat size (i.memTimes (readRegs [pairN a]) a m.off size) A)) i.advance) := by
  have hnwb : k.nwb = false := State.iss_k hi ▸ h.nwb
  have hq : (if k.nwb then none else queueOf (.dq n)) = some n.val := by simp [hnwb, queueOf]
  have hels := Iss.loadElems_of_chip (size := size) h.chip (classAt (i.memTimes (readRegs [pairN a]) a m.off size) true (.op a))
  obtain ⟨v, sel, hv, hvg⟩ := Iss.values_of_not_s (i := i) (d := .dq n) rfl 1 (s.chipLoad i A size)
    (s.queueCell i n a size (i.memTimes (readRegs [pairN a]) a m.off size) A)
    (i.queueUni a (i.memTimes (readRegs [pairN a]) a m.off size) A)
  refine ⟨extraOf (i.rounds (memWords a m.off size)) (i.memSched (readRegs [pairN a]) a m.off size), sel,
    State.issue_ok hi ?_ (Iss.check_trial h.check)⟩
  dsimp only
  rw [hq, i.sched_eq_memSched, i.timedBy_eq_memTimes, i.addr_eq h.addr]
  refine (bind_of_ok h.check).trans ?_
  refine (bind_of_ok ((Iss.onQueue_acts h.acts () _).trans (Iss.prodCheck_ok h.queue h.bound))).trans ?_
  refine (bind_of_ok (Iss.checkAccess_ok h.admitted)).trans ?_
  refine (bind_of_ok hv).trans ?_
  refine (bind_of_ok (State.watchCheck_ok h.unwatched)).trans ?_
  refine (bind_of_ok ((Iss.onQueue_acts h.acts () _).trans (Iss.pushCheck_ok h.queue h.bound h.room))).trans ?_
  rw [hels]
  refine (bind_of_ok (v := 0) rfl).trans ?_
  rw [if_neg (by simp [h.unheld]), Iss.globalRecs_of_chip h.chip, if_pos (show ([] : List Elem).isEmpty = true from rfl),
    if_pos (by simpa using acts_iff.mpr h.acts), hvg]
  rfl

/-- The words that it pushes are those that the guarded positions read. -/
theorem State.QueueLoad.push_mem {cq : Nat} {T : Times} (hn : i.onByAge ≠ []) :
    ∃ R ∈ chipLats.map (s.queueRes i n a cq size T A),
      RegWrite.push (i.queueIx n.val) (entryWords (i.onByAge.map fun p => (p, s.loaded i A size p 0))) ∈ R.ws := by
  have htop : maxNat ((i.withAddr A).map fun x => i.accLat x.2) ∈ chipLats := by
    have hne : (i.withAddr A).map (fun x => i.accLat x.2) ≠ [] := fun hnil =>
      hn (List.map_eq_nil_iff.mp (List.map_eq_nil_iff.mp hnil))
    obtain ⟨x, hx, heq⟩ := List.mem_map.mp (maxNat_mem hne)
    obtain ⟨hp, hva⟩ := Iss.mem_withAddr.mp hx
    rw [← heq, hva]
    exact Iss.accLat_mem (h.chip _ hp)
  refine ⟨_, List.mem_map_of_mem htop, List.mem_append_right _ ?_⟩
  rw [if_pos (by simpa using acts_iff.mpr h.acts), Iss.withAddr, List.map_map]
  exact List.mem_singleton_self _

end

end Sys2Proof.Machine
end

section
/-!
SUPPORT. The writes of a store in their order, and its issue (R226, R230, R302); the statement O24.
-/

namespace Sys2Proof.Machine

section
variable {i : Iss} {A : Nat → Addr} {cls : Rec → Cls} {data : Nat → Nat} {size : Nat}

/-! Guarded positions of a sound group -/

/-- Positions of a record ascend (R85). -/
theorem Rec.positions_sorted (r : Rec) : r.positions.Pairwise (· ≤ ·) :=
  List.pairwise_map.mpr (List.pairwise_lt_range.imp fun h => by
    have := Nat.mul_le_mul_left r.s (Nat.le_of_lt h)
    omega)

theorem Iss.onIn_sorted (i : Iss) (r : Rec) : (i.onIn r).Pairwise (· ≤ ·) := r.positions_sorted.filter _

/-- The last of ascending numbers is the largest. -/
theorem le_of_getLast? {l : List Nat} {k p : Nat} (hs : l.Pairwise (· ≤ ·)) (hk : l.getLast? = some k) (hp : p ∈ l) : p ≤ k := by
  obtain ⟨init, rfl⟩ := List.getLast?_eq_some_iff.mp hk
  rcases List.mem_append.mp hp with hp | hp
  · exact (List.pairwise_append.mp hs).2.2 p hp k (List.mem_singleton_self k)
  · exact (List.mem_singleton.mp hp).le

theorem Iss.mem_positions_of_onIn {r : Rec} {p : Nat} (h : p ∈ i.onIn r) : p ∈ r.positions := (Iss.mem_onIn.mp h).1

theorem Iss.mem_recs_of_run {r : Rec} (h : r ∈ i.run) : r ∈ i.g.recs := (Iss.mem_run.mp h).1

/-- A sound group has 64 guarded positions at most. -/
theorem Iss.onByAge_length (hn : (allPositions i.g.recs).Nodup) : i.onByAge.length ≤ 64 := by
  have hsub : i.onByAge.Sublist (allPositions i.g.recs) :=
    (List.Sublist.flatMap_right i.run fun _ _ => List.filter_sublist).trans (List.filter_sublist.flatMap _)
  have hlt : i.onByAge ⊆ List.range 64 := fun p hp => List.mem_range.mpr (Iss.lt_of_mem_on (Iss.mem_onByAge_iff.mp hp).2)
  simpa using ((hn.sublist hsub).subperm hlt).length_le

/-- The records of the run in the order in which they issue are those of the run. -/
theorem Iss.inOrder_perm (i : Iss) : i.inOrder.Perm i.run := by
  have hr : i.ranges i.g = i.run.filter fun r => !r.lane := by
    rw [Iss.ranges, Iss.run, List.filter_filter]
  have hl : i.lanes i.g = i.run.filter fun r => !(!r.lane) := by
    rw [Iss.lanes, Iss.run, List.filter_filter]
    simp
  rw [Iss.inOrder, Iss.orderIn, hr, hl]
  exact ((foldr_insertRec_perm _).append_left _).trans (List.filter_append_perm _ _)

/-! The writes of a store (R226, R230) -/

/-- The positions of a record at which a store writes: of a range record with one location, the last guarded one alone. -/
def Iss.storesAt (i : Iss) (A : Nat → Addr) (cls : Rec → Cls) (r : Rec) : List Nat :=
  if !r.lane && cls r == .u && !i.stackOnly A r then (i.onIn r).getLast?.toList else i.onIn r

theorem Iss.storeWrites_eq : i.storeWrites A cls data = (i.inOrder.flatMap (i.storesAt A cls)).map fun k => ⟨k, A k, data k⟩ := by
  rw [List.map_flatMap, Iss.storeWrites]
  refine List.flatMap_congr fun r _ => ?_
  unfold Iss.storesAt
  split
  · dsimp only
    cases (i.onIn r).getLast? <;> rfl
  · rfl

theorem Iss.storesAt_sublist (i : Iss) (A : Nat → Addr) (cls : Rec → Cls) (r : Rec) : (i.storesAt A cls r).Sublist (i.onIn r) := by
  unfold Iss.storesAt
  split
  · cases h : (i.onIn r).getLast? with
    | none => exact List.nil_sublist _
    | some k => exact List.singleton_sublist.mpr (List.mem_of_getLast? h)
  · exact .refl _

theorem Iss.mem_storeWrites {w : StoreW} : w ∈ i.storeWrites A cls data ↔
    w.va = A w.k ∧ w.data = data w.k ∧ ∃ r ∈ i.run, w.k ∈ i.storesAt A cls r := by
  obtain ⟨k, va, d⟩ := w
  simp only [Iss.storeWrites_eq, List.mem_map, List.mem_flatMap, Iss.mem_inOrder, StoreW.mk.injEq]
  constructor
  · rintro ⟨k, hk, rfl, rfl, rfl⟩
    exact ⟨rfl, rfl, hk⟩
  · rintro ⟨rfl, rfl, hk⟩
    exact ⟨k, hk, rfl, rfl, rfl⟩

/-- A record that reaches more than the stack is at the place of its address, whatever the position. -/
theorem Iss.placeOf_eq {va : Addr} (h : (i.aper va).1 ≠ .stack) (k k' : Nat) : i.placeOf va k = i.placeOf va k' := by
  unfold Iss.placeOf Iss.place
  split <;> simp_all

/-- The writes of a store are those of its guarded positions in order, one for a location that a range record shares. -/
theorem Iss.storeWrites_spec (hn : (allPositions i.g.recs).Nodup) {a : Opnd} (hk : opKind a ∈ [Kind.v, .s, .zr]) {regs : List Nat}
    {off : BitVec 12} {T : Times} (hT : T = i.memTimes regs a off size) (hA : A = i.memAddr regs a off size) :
    StoreWrites i T a A data (i.storeWrites A (classAt T true (.op a)) data) where
  each w hw := by
    obtain ⟨hva, hdata, r, hr, hwk⟩ := Iss.mem_storeWrites.mp hw
    exact ⟨Iss.mem_onByAge.mpr ⟨r, hr, (i.storesAt_sublist A _ r).subset hwk⟩, hva, hdata⟩
  all p hp := by
    obtain ⟨r, hr, hpr⟩ := Iss.mem_onByAge.mp hp
    by_cases hone : (!r.lane && classAt T true (.op a) r == .u && !i.stackOnly A r) = true
    · obtain ⟨k, hlast⟩ := Option.ne_none_iff_exists'.mp (mt List.getLast?_eq_none_iff.mp (List.ne_nil_of_mem hpr))
      have hwk : k ∈ i.storesAt A (classAt T true (.op a)) r := by
        rw [Iss.storesAt, if_pos hone, hlast]
        exact List.mem_singleton_self k
      simp only [Bool.and_eq_true, Bool.not_eq_true', beq_iff_eq] at hone
      obtain ⟨⟨hlane, hu⟩, hstack⟩ := hone
      have hsame : ∀ q ∈ i.onIn r, A q = A p := fun q hq => by
        rw [hT] at hu
        rw [hA]
        exact Iss.memAddr_of_u hn (Iss.mem_recs_of_run hr) hlane hk hu (Iss.mem_positions_of_onIn hq) (Iss.mem_positions_of_onIn hpr)
      refine ⟨⟨k, A k, data k⟩, Iss.mem_storeWrites.mpr ⟨rfl, rfl, r, hr, hwk⟩, hsame k (List.mem_of_getLast? hlast), .inr ?_⟩
      obtain ⟨q, hq, hqs⟩ := List.all_eq_false.mp hstack
      rw [beq_iff_eq, hsame q hq] at hqs
      rw [hsame k (List.mem_of_getLast? hlast)]
      exact Iss.placeOf_eq hqs k p
    · refine ⟨⟨p, A p, data p⟩, Iss.mem_storeWrites.mpr ⟨rfl, rfl, r, hr, ?_⟩, rfl, .inr rfl⟩
      rwa [Iss.storesAt, if_neg hone]
  last r hr hlane hu hstack w hw hwr p hp := by
    obtain ⟨-, -, r', hr', hwk⟩ := Iss.mem_storeWrites.mp hw
    obtain rfl := eq_of_mem_positions hn (Iss.mem_recs_of_run hr) (Iss.mem_recs_of_run hr') hwr
      (Iss.mem_positions_of_onIn ((i.storesAt_sublist A _ r').subset hwk))
    rw [Iss.storesAt, if_pos (by simp [hlane, hu, hstack])] at hwk
    exact le_of_getLast? (i.onIn_sorted r) (Option.mem_toList.mp hwk) hp

/-! Room for a store (R218, R228, R230) -/

/-- The global writes of a store and the on-chip positions that are counted with them are guarded positions. -/
theorem Iss.storeBytes_le (hn : (allPositions i.g.recs).Nodup) :
    ((i.storeWrites A cls data).filter fun w => i.isGlobal w.va).length + (i.mixedChip A).length ≤ 64 := by
  have hglob : ((i.storeWrites A cls data).filter fun w => i.isGlobal w.va).length ≤
      (i.onByAge.filter fun k => i.isGlobal (A k)).length := by
    rw [Iss.storeWrites_eq, List.filter_map, List.length_map]
    have hsub := List.Sublist.flatMap_right i.inOrder fun r _ => i.storesAt_sublist A cls r
    exact (hsub.filter _).length_le.trans ((i.inOrder_perm.flatMap_right _).filter _).length_eq.le
  have hmixed : (i.mixedChip A).length ≤ (i.onByAge.filter fun k => !i.isGlobal (A k)).length := by
    rw [Iss.onByAge, List.filter_flatMap]
    refine (List.Sublist.flatMap_right i.run fun r _ => ?_).length_le
    split
    · exact .refl _
    · exact List.nil_sublist _
  have htotal := List.length_eq_length_filter_add (l := i.onByAge) fun k => i.isGlobal (A k)
  have := i.onByAge_length hn
  omega

/-- A slot and byte count with room for more have room for less. -/
theorem Iss.slotFree.mono {cq bytes bytes' num : Nat} (h : i.slotFree cq bytes num) (hle : bytes' ≤ bytes) :
    i.slotFree cq bytes' num := ⟨h.1, h.2.1, h.2.2.1, by have := h.2.2.2; omega⟩

/-- A free slot and room in the byte count are found (R218, R228). -/
theorem Iss.slotRoom_ok {cq bytes num : Nat} (h : i.slotFree cq bytes num) : i.slotRoom true cq bytes = .ok num := by
  obtain ⟨hlt, hfree, hlow, hroom⟩ := h
  have hslot : i.g.freeSlot = some num := by
    refine List.find?_range_eq_some.mpr ⟨by simpa using hfree, List.mem_range.mpr hlt, fun m hm => ?_⟩
    simpa using hlow m hm
  have hcount : i.g.countRoom cq bytes = true := decide_eq_true hroom
  simp [Iss.slotRoom, hslot, hcount]

/-! Store-queue entries (R302) -/

/-- The entries of on-chip writes hold the writes in their order. -/
theorem groupLat_flatten (lat : StoreW → Nat) (ws : List StoreW) : (groupLat lat ws).flatMap Prod.snd = ws := by
  induction ws with
  | nil => rfl
  | cons w ws ih =>
    unfold groupLat
    split
    · next l vs more h =>
      rw [h] at ih
      split <;> simpa using ih
    · next h =>
      rw [h] at ih
      simpa using ih

/-- The latency of an entry is that of a write. -/
theorem mem_groupLat {lat : StoreW → Nat} {ws : List StoreW} {e : Nat × List StoreW} (h : e ∈ groupLat lat ws) :
    ∃ w ∈ ws, lat w = e.1 := by
  induction ws generalizing e with
  | nil => cases h
  | cons w ws ih =>
    have htail : e ∈ groupLat lat ws → ∃ v ∈ w :: ws, lat v = e.1 := fun h => by
      obtain ⟨v, hv, heq⟩ := ih h
      exact ⟨v, List.mem_cons_of_mem _ hv, heq⟩
    unfold groupLat at h
    split at h
    · next l vs more hmore =>
      split at h <;> rcases List.mem_cons.mp h with rfl | h
      · exact ⟨w, List.mem_cons_self, by assumption⟩
      · exact htail (by rw [hmore]; exact List.mem_cons_of_mem _ h)
      · exact ⟨w, List.mem_cons_self, rfl⟩
      · exact htail (by rwa [hmore])
    · rw [List.mem_singleton.mp h]
      exact ⟨w, List.mem_cons_self, rfl⟩

/-- The store-queue entries of a store's on-chip writes, of which the last issues in a ck. -/
def Iss.storeEnts (i : Iss) (last ord cq size : Nat) (A : Nat → Addr) (ws : List StoreW) : List StoreEnt :=
  (groupLat (fun w => i.accLat w.va) (ws.filter fun w => !i.isGlobal w.va)).map fun e =>
    StoreEnt.chip (last + e.1) ord (e.2.flatMap (i.writeBytes size)) cq ((e.2.filter fun w => (i.mixedChip A).contains w.k).length * size)

theorem Iss.chipBytes_storeEnts (i : Iss) (last ord cq size : Nat) (A : Nat → Addr) (ws : List StoreW) :
    chipBytes (i.storeEnts last ord cq size A ws) = (ws.filter fun w => !i.isGlobal w.va).flatMap (i.writeBytes size) := by
  conv_rhs => rw [← groupLat_flatten (fun w => i.accLat w.va) (ws.filter fun w => !i.isGlobal w.va), List.flatMap_assoc]
  exact List.flatMap_map ..

theorem Iss.mem_storeEnts {last ord cq : Nat} {ws : List StoreW} (hlast : i.now ≤ last + 1) {e : StoreEnt}
    (he : e ∈ i.storeEnts last ord cq size A ws) : ∃ due bs n, e = .chip due ord bs cq n ∧ i.now ≤ due := by
  obtain ⟨x, hx, rfl⟩ := List.mem_map.mp he
  obtain ⟨w, hw, hlat⟩ := mem_groupLat hx
  have hsix : 6 ≤ x.1 := hlat ▸ le_of_mem_chipLats (Iss.accLat_mem (by simpa using (List.mem_filter.mp hw).2))
  exact ⟨_, _, _, rfl, by omega⟩

/-- The group of a store that has issued: its on-chip writes in the store queue, its global ones in the operand log. -/
def Iss.storedGroup (i : Iss) (ins : Instr) (m : Mem) (size words num ord : Nat) (A : Nat → Addr) (ents : List StoreEnt)
    (glob : List StoreW) : Group :=
  if (glob.map fun w => mkElem [w.k] w.va size (BitVec.ofNat 128 w.data)).isEmpty then { i.g with storeq := i.g.storeq ++ ents }
  else (({ i.g with storeq := i.g.storeq ++ ents } : Group).countUp m.cq.toNat ((glob.length + (i.mixedChip A).length) * size)).addSlot
    { i.newSlot num ord ins .store (glob.map fun w => mkElem [w.k] w.va size (BitVec.ofNat 128 w.data)) size
        (some m.cq.toNat) (i.globalRecs A) .none words m.qord with hold := 0 }

end

/-- What a store finds: it may issue, its accesses pass, its queue entry is there, and a slot has room for its global writes. -/
structure State.StoreReady (s : State) (i : Iss) (a b : Opnd) (m : Mem) (size words : Nat) (queue : Bool) (entry : List Word)
    (A : Nat → Addr) : Prop where
  sound : i.g.sound = true
  check : i.check [pairN a, storeSrc b words queue] = .ok ()
  cons : i.onQueue (queueOf b) () i.consCheck = .ok ()
  pop : i.onQueue (queueOf b) [] i.popCheck = .ok entry
  addr : A = i.memAddr (readRegs [pairN a, storeSrc b words queue]) a m.off size
  admitted : ∀ p ∈ i.onByAge, i.accessFault permW (plainApers false) size (A p) = none
  unwatched : s.unwatched i i.storeKinds size A
  slot : (∃ p ∈ i.onByAge, i.isGlobal (A p) = true) → ∃ num, i.slotFree m.cq.toNat (64 * size) num

section
variable {s : State} {k : Ctl} {i : Iss} {ins : Instr} {a b : Opnd} {m : Mem} {size words : Nat} {queue : Bool} {entry : List Word}
  {A : Nat → Addr} (h : s.StoreReady i a b m size words queue entry A)
include h

/-- The global writes of such a store find a slot with room for them. -/
theorem State.StoreReady.slotFree {cls : Rec → Cls} {data : Nat → Nat}
    (hg : (i.storeWrites A cls data).filter (fun w => i.isGlobal w.va) ≠ []) : ∃ num, i.slotFree m.cq.toNat
      ((((i.storeWrites A cls data).filter fun w => i.isGlobal w.va).length + (i.mixedChip A).length) * size) num := by
  obtain ⟨w, hw⟩ := List.exists_mem_of_ne_nil _ hg
  obtain ⟨hw, hglob⟩ := List.mem_filter.mp hw
  obtain ⟨hva, -, r, hr, hwk⟩ := Iss.mem_storeWrites.mp hw
  obtain ⟨num, hnum⟩ := h.slot ⟨w.k, Iss.mem_onByAge.mpr ⟨r, hr, (i.storesAt_sublist A cls r).subset hwk⟩, hva ▸ hglob⟩
  exact ⟨num, hnum.mono (Nat.mul_le_mul_right _ (Iss.storeBytes_le (Group.sound_iff.mp h.sound).2.2.nodup))⟩

/-- The slot of such a store, where it needs one. -/
theorem State.StoreReady.slotRoom {ws glob : List StoreW} {cls : Rec → Cls} {data : Nat → Nat} (hws : ws = i.storeWrites A cls data)
    (hglob : glob = ws.filter fun w => i.isGlobal w.va) : ∃ num,
      i.slotRoom (!glob.isEmpty) m.cq.toNat ((glob.length + (i.mixedChip A).length) * size) = .ok num ∧
      (glob ≠ [] → i.slotFree m.cq.toNat ((glob.length + (i.mixedChip A).length) * size) num) := by
  subst hws hglob
  by_cases hg : (i.storeWrites A cls data).filter (fun w => i.isGlobal w.va) = []
  · exact ⟨0, by rw [hg]; rfl, fun hne => absurd hg hne⟩
  · obtain ⟨num, hnum⟩ := h.slotFree hg
    exact ⟨num, by rw [List.isEmpty_eq_false_iff.mpr hg]; exact Iss.slotRoom_ok hnum, fun _ => hnum⟩

omit h in
/-- The group that such a store leaves is that of a store that issues. -/
theorem Iss.storeIssue_storedGroup {last num : Nat} {ws glob : List StoreW} (hlast : i.now ≤ last + 1)
    (hglob : glob = ws.filter fun w => i.isGlobal w.va)
    (hnum : glob ≠ [] → i.slotFree m.cq.toNat ((glob.length + (i.mixedChip A).length) * size) num) :
    StoreIssue s i ins m size words A ws
      (i.storedGroup ins m size words num (s.ord + 1) A (i.storeEnts last (s.ord + 1) m.cq.toNat size A ws) glob) := by
  refine ⟨i.storeEnts last (s.ord + 1) m.cq.toNat size A ws, fun e he => Iss.mem_storeEnts hlast he,
    i.chipBytes_storeEnts last (s.ord + 1) m.cq.toNat size A ws, ?_⟩
  rw [← hglob]
  by_cases hg : glob = []
  · refine .inl ⟨fun w hw => ?_, by rw [Iss.storedGroup, hg]; rfl⟩
    simpa using List.filter_eq_nil_iff.mp (hglob ▸ hg) w hw
  · refine .inr ⟨num, hg, hnum hg, ?_⟩
    rw [Iss.storedGroup, if_neg (by simpa using hg)]

/-- Such a store takes its queue entry and issues its writes. -/
theorem State.StoreReady.storeOp_eq (hi : s.iss k = some i) {T : Times}
    (hT : T = i.memTimes (readRegs [pairN a, storeSrc b words queue]) a m.off size) :
    ∃ ws g extra, StoreWrites i T a A (fun p => (T p).storeData b words entry p) ws ∧ StoreIssue s i ins m size words A ws g ∧
      s.storeOp k ins a b m size words queue = .next (((match queueOf b with
        | some n => if i.acts then s.popQueue i.ti (i.queueIx n) else s
        | none => s).countRounds i.ci extra).finish i i.g g (readRegs [pairN a, storeSrc b words queue]) extra (i.globalRecs A)
          (chipLats.map fun l => ⟨l, i.countLat A l, []⟩) i.advance) := by
  obtain ⟨-, -, hrecs⟩ := Group.sound_iff.mp h.sound
  have hkind : opKind a ∈ [Kind.v, .s, .zr] := by
    have := (Iss.check_ok h.check).1 (pairN a) (by simp)
    simp only [Need.ok, Bool.and_eq_true, List.contains_iff_mem] at this
    exact this.1.1
  obtain ⟨num, hroom, hfree⟩ := h.slotRoom (cls := classAt T true (.op a)) (data := fun p => (T p).storeData b words entry p) rfl rfl
  obtain ⟨extra, hextra⟩ : ∃ extra, extra = extraOf (i.rounds (memWords a m.off size))
    (i.memSched (readRegs [pairN a, storeSrc b words queue]) a m.off size) := ⟨_, rfl⟩
  refine ⟨_, _, extra, Iss.storeWrites_spec hrecs.nodup hkind hT h.addr,
    Iss.storeIssue_storedGroup (last := i.now + i.cost i.g (readRegs [pairN a, storeSrc b words queue]) extra - 1) (by omega) rfl hfree,
    State.issue_ok hi ?_ (Iss.check_trial h.check)⟩
  dsimp only
  rw [i.sched_eq_memSched, i.timedBy_eq_memTimes, i.addr_eq h.addr, ← hT, ← hextra]
  refine (bind_of_ok h.check).trans ?_
  refine (bind_of_ok h.cons).trans ?_
  refine (bind_of_ok (Iss.checkAccess_ok h.admitted)).trans ?_
  refine (bind_of_ok (State.watchCheck_ok h.unwatched)).trans ?_
  refine (bind_of_ok h.pop).trans ?_
  exact bind_of_ok hroom

end

/-! The instructions of a 32-bit type -/

theorem exec_ld_narrow {s : State} {k : Ctl} {ty : Ty} {d a : Opnd} {m : Mem} (h : ty.wide = false) :
    exec (.ld k ty d a m) s = s.loadOp k (.ld k ty d a m) d a m (memBytes ty) 1 true := by
  simp only [exec, execLd, tyWords, h, Bool.false_eq_true, if_false, Bool.not_false]

theorem exec_st_narrow {s : State} {k : Ctl} {ty : Ty} {a b : Opnd} {m : Mem} (h : ty.wide = false) :
    exec (.st k ty a b m) s = s.storeOp k (.st k ty a b m) a b m (memBytes ty) 1 true := by
  simp only [exec, execSt, tyWords, h, Bool.false_eq_true, if_false, Bool.not_false]

end Sys2Proof.Machine

namespace Sys2Proof
open Sys2Proof.Machine

/-- Settles O24: a load whose accesses are on chip and whose queue has room comes to the push of what its positions read; a store
from a queue is a store of the head entry's words, which its writes carry. -/
theorem queueLoadsPushAndStoresPop : Obligations.QueueLoadsPushAndStoresPop := by
  unfold Obligations.QueueLoadsPushAndStoresPop
  constructor
  · intro k ty n a m s i q hi _ hty hnwb ho hc hq hb hroom A hA hadm hwatch hheld
    have h : s.QueueLoad i n a m (memBytes ty) q A :=
      ⟨ho, (State.iss_k hi).symm ▸ hnwb, hc, hq, hb, hroom, hA, hadm, hwatch, hheld⟩
    have hne : i.onByAge ≠ [] := fun hnil => ho (List.eq_nil_iff_forall_not_mem.mpr fun p hp => by
      simpa [hnil] using (State.mem_onByAge hi).mpr hp)
    obtain ⟨extra, sel, heq⟩ := h.loadOp_eq (ins := .ld k ty (.dq n) a m) hi
    obtain ⟨R, hR, hpush⟩ := h.push_mem (cq := m.cq.toNat) (T := i.memTimes (readRegs [pairN a]) a m.off (memBytes ty)) hne
    refine ⟨_, extra, R, _, sel, hR, hpush, entryWords_length _, fun p hp => ?_, ?_⟩
    · exact entryWords_getElem? hp (Iss.lt_of_mem_on ((State.mem_onByAge hi).mp hp))
    · rintro later rfl
      rw [exec_ld_narrow hty, heq]
  · intro k ty n a m s i e hi hs hty ho hc he T A hT hA hadm hwatch hslot
    have h : s.StoreReady i a (.dq n) m (memBytes ty) 1 true e A :=
      ⟨hs, hc, (Iss.onQueue_acts ho () _).trans (Iss.consCheck_ok he), (Iss.onQueue_acts ho [] _).trans (Iss.popCheck_ok he), hA, hadm,
        hwatch, hslot⟩
    obtain ⟨ws, g, extra, hws, hg, heq⟩ := h.storeOp_eq (ins := .st k ty a (.dq n) m) hi hT
    refine ⟨ws, g, extra, hws, hg, ?_⟩
    rw [exec_st_narrow hty, heq]
    dsimp only [queueOf]
    rw [if_pos (acts_iff.mpr ho)]
    rfl

end Sys2Proof
end

section
/-!
SUPPORT. Stores whose source is no queue (R226, R230, R302): the statement O18.
-/

namespace Sys2Proof.Machine

/-! A store from no queue -/

/-- What the checks admit as the source of a store from no queue is no queue. -/
theorem queueOf_storeSrc {i : Iss} {a b : Opnd} {words : Nat} (hc : i.check [pairN a, storeSrc b words false] = .ok ()) :
    queueOf b = none := by
  have hb := (Iss.check_ok hc).1 (storeSrc b words false) (by simp)
  cases b with
  | dq n => simp [storeSrc, Need.ok, opKind, apply_ite] at hb
  | _ => rfl

/-- Operands of a store from no queue pass where a queue is admitted too. -/
theorem Iss.check_storeSrc {i : Iss} {a b : Opnd} {words : Nat} (queue : Bool)
    (hc : i.check [pairN a, storeSrc b words false] = .ok ()) : i.check [pairN a, storeSrc b words queue] = .ok () := by
  refine Iss.check_of_more_kinds (pre := [pairN a]) hc ?_
  simp only [storeSrc, Bool.false_eq_true, if_false, List.append_nil]
  exact List.subset_append_left _ _

/-- A store from no queue issues its writes, whether or not its type admits a queue. -/
theorem State.StoreReady.storeOp_eq_of_no_queue {s : State} {k : Ctl} {i : Iss} {ins : Instr} {a b : Opnd} {m : Mem}
    {size words : Nat} {queue : Bool} {A : Nat → Addr} {T : Times} (h : s.StoreReady i a b m size words queue [] A)
    (hb : queueOf b = none) (hi : s.iss k = some i) (hT : T = i.memTimes (readRegs [pairN a, storeSrc b words false]) a m.off size) :
    ∃ ws g extra, StoreWrites i T a A (fun p => (T p).storeData b words [] p) ws ∧ StoreIssue s i ins m size words A ws g ∧
      s.storeOp k ins a b m size words queue = .next ((s.countRounds i.ci extra).finish i i.g g
        (readRegs [pairN a, storeSrc b words false]) extra (i.globalRecs A) (chipLats.map fun l => ⟨l, i.countLat A l, []⟩)
        i.advance) := by
  obtain ⟨ws, g, extra, hws, hg, heq⟩ := h.storeOp_eq (ins := ins) hi hT
  rw [hb] at heq
  exact ⟨ws, g, extra, hws, hg, heq⟩

end Sys2Proof.Machine

namespace Sys2Proof
open Sys2Proof.Machine

/-- Settles O18: the store finds what O24 asks of a store, with no queue to take its data from. -/
theorem storesComplete : Obligations.StoresComplete := by
  unfold Obligations.StoresComplete
  intro k a b m s i x ty size words hx hi hs hc T A hT hA hadm hwatch hslot
  have hb := queueOf_storeSrc hc
  have hready : ∀ queue, s.StoreReady i a b m size words queue [] A := fun queue =>
    ⟨hs, Iss.check_storeSrc queue hc, by rw [hb]; rfl, by rw [hb]; rfl, hA, hadm, hwatch, hslot⟩
  obtain ⟨rfl, rfl, rfl⟩ | ⟨rfl, rfl, rfl⟩ := hx
  · exact (hready _).storeOp_eq_of_no_queue hb hi hT
  · exact (hready _).storeOp_eq_of_no_queue hb hi hT

end Sys2Proof
end

section
/-!
SUPPORT. Atomics in the scratchpads (R226, R232, R233, R302): the new value that each operation leaves, and the elements of an
issue; the statement O21.
-/

namespace Sys2Proof.Machine

/-! The new value at the location (R232) -/

/-- One word is less than another, as signed or unsigned integers. -/
def lessWord {w : Nat} (sg : Bool) (x y : BitVec w) : Bool := if sg then x.slt y else x.ult y

section
variable (ty : Ty) {w : Nat} (hw : tyBits ty = w) (m b c : BitVec 64)
include hw

theorem asInt_lt_iff (sg : Bool) : asInt sg w m < asInt sg w b ↔ lessWord sg (m.setWidth w) (b.setWidth w) = true := by
  have hpos : 0 < w ∧ w ≤ 64 := by rw [← hw, tyBits]; split <;> omega
  rw [asInt_eq hpos.1 hpos.2, asInt_eq hpos.1 hpos.2]
  cases sg with
  | false => simp only [lessWord, Bool.false_eq_true, if_false, BitVec.ult, decide_eq_true_eq, Nat.cast_lt]
  | true => simp [lessWord, BitVec.slt]

/-- Minimum and maximum compare the words of the type's width. -/
theorem atomNew_min : atomNew .min ty m b c = if lessWord (tySigned ty) (b.setWidth w) (m.setWidth w) then b else m := by
  simp only [atomNew, pickInt, hw, asInt_lt_iff ty hw, Bool.false_eq_true, if_false]

theorem atomNew_max : atomNew .max ty m b c = if lessWord (tySigned ty) (m.setWidth w) (b.setWidth w) then b else m := by
  simp only [atomNew, pickInt, hw, asInt_lt_iff ty hw, if_true]

/-- A compare-and-swap compares the words of the type's width. -/
theorem atomNew_cas : atomNew .cas ty m b c = if m.setWidth w = b.setWidth w then c else m := by
  simp only [atomNew, hw, ← BitVec.toNat_setWidth, BitVec.toNat_inj]

end

section
variable (m b c : BitVec 64)

/-- What each operation leaves of a 64-bit location. -/
theorem atomNew_wide :
    (∀ ty ∈ [Ty.i64, Ty.n64], atomNew .add ty m b c = m + b) ∧
      atomNew .min .i64 m b c = (if b.slt m then b else m) ∧ atomNew .max .i64 m b c = (if m.slt b then b else m) ∧
      atomNew .min .n64 m b c = (if b.ult m then b else m) ∧ atomNew .max .n64 m b c = (if m.ult b then b else m) ∧
      atomNew .and .b64 m b c = m &&& b ∧ atomNew .or .b64 m b c = m ||| b ∧ atomNew .xor .b64 m b c = m ^^^ b ∧
      atomNew .exch .b64 m b c = b ∧ atomNew .cas .n64 m b c = (if m = b then c else m) := by
  refine ⟨fun _ _ => rfl, ?_, ?_, ?_, ?_, rfl, rfl, rfl, rfl, ?_⟩
  · rw [atomNew_min .i64 (w := 64) rfl]; simp [lessWord, tySigned]
  · rw [atomNew_max .i64 (w := 64) rfl]; simp [lessWord, tySigned]
  · rw [atomNew_min .n64 (w := 64) rfl]; simp [lessWord, tySigned]
  · rw [atomNew_max .n64 (w := 64) rfl]; simp [lessWord, tySigned]
  · rw [atomNew_cas .n64 (w := 64) rfl]; simp

end

/-- The low word of what an operation leaves of a 32-bit location. -/
def atomNew32 (m b c : Word) (op : AtomOp) (ty : Ty) : Word :=
  (atomNew op ty (m.setWidth 64) (b.setWidth 64) (c.setWidth 64)).setWidth 32

section
variable (m b c : Word)

theorem setWidth_setWidth_word (x : Word) : (x.setWidth 64).setWidth 32 = x := by simp

/-- The integer operations on a 32-bit location. -/
theorem atomNew32_integer :
    (∀ ty ∈ [Ty.i32, Ty.n32], atomNew32 m b c .add ty = m + b) ∧
      atomNew32 m b c .min .i32 = (if b.slt m then b else m) ∧ atomNew32 m b c .max .i32 = (if m.slt b then b else m) ∧
      atomNew32 m b c .min .n32 = (if b.ult m then b else m) ∧ atomNew32 m b c .max .n32 = (if m.ult b then b else m) ∧
      atomNew32 m b c .and .b32 = m &&& b ∧ atomNew32 m b c .or .b32 = m ||| b ∧ atomNew32 m b c .xor .b32 = m ^^^ b ∧
      atomNew32 m b c .exch .b32 = b ∧ atomNew32 m b c .cas .n32 = (if m = b then c else m) := by
  unfold atomNew32
  refine ⟨fun _ _ => ?_, ?_, ?_, ?_, ?_, ?_, ?_, ?_, ?_, ?_⟩
  · simp [atomNew, BitVec.setWidth_add]
  · rw [atomNew_min .i32 (w := 32) rfl]; simp [lessWord, tySigned, apply_ite (BitVec.setWidth 32)]
  · rw [atomNew_max .i32 (w := 32) rfl]; simp [lessWord, tySigned, apply_ite (BitVec.setWidth 32)]
  · rw [atomNew_min .n32 (w := 32) rfl]; simp [lessWord, tySigned, apply_ite (BitVec.setWidth 32)]
  · rw [atomNew_max .n32 (w := 32) rfl]; simp [lessWord, tySigned, apply_ite (BitVec.setWidth 32)]
  · simp [atomNew, BitVec.setWidth_and]
  · simp [atomNew, BitVec.setWidth_or]
  · simp [atomNew, BitVec.setWidth_xor]
  · simp [atomNew]
  · rw [atomNew_cas .n32 (w := 32) rfl]; simp [apply_ite (BitVec.setWidth 32)]

/-- A word is its f32 value where it is read from a 64-bit value. -/
theorem tyVal_setWidth (x : Word) : tyVal .f32 (x.setWidth 64).toNat = f32Val x := by
  have hlt := x.isLt
  simp only [tyVal, f32Val, BitVec.toNat_setWidth]
  congr 1
  omega

/-- The sum of an atomic is the correctly rounded one (R190). -/
theorem atomNew32_fadd : atomNew32 m b c .fadd .f32 =
    (farith .add .f32 .rne false [m.setWidth 64, b.setWidth 64] 0#32).1.setWidth 32 := by
  have hexact : exactOf .add (Rm.rne == Rm.rd) ([m.setWidth 64, b.setWidth 64].map fun x => tyVal .f32 x.toNat) =
      (f32Val m).add false (f32Val b) := by
    simp only [List.map_cons, List.map_nil, tyVal_setWidth]
    rfl
  simp only [atomNew32, atomNew, setWidth_setWidth_word, farith, hexact]
  simp [f32Add, f32Rne, roundRne, w32, fmtOf]

/-- Minimum and maximum of floats make the choices of R191. -/
theorem ofNat_minMaxBits (mx : Bool) (x y : BitVec 64) :
    BitVec.ofNat 64 (minMaxBits .f32 mx (x.toNat % 2 ^ 32) (y.toNat % 2 ^ 32)) = minMaxSpec .f32 mx [x, y] :=
  congrArg Prod.fst (congrFun (congrFun (minMaxFn_eq .f32 mx) [x, y]) 0#32)

theorem atomNew32_fmin : atomNew32 m b c .fmin .f32 = (minMaxSpec .f32 false [m.setWidth 64, b.setWidth 64]).setWidth 32 :=
  congrArg (BitVec.setWidth 32) (ofNat_minMaxBits false _ _)

theorem atomNew32_fmax : atomNew32 m b c .fmax .f32 = (minMaxSpec .f32 true [m.setWidth 64, b.setWidth 64]).setWidth 32 :=
  congrArg (BitVec.setWidth 32) (ofNat_minMaxBits true _ _)

end

/-! The elements of an issue (R226, R233) -/

section
variable {s : State} {i : Iss} {d : Opnd} {T : Times} {op : AtomOp} {ty : Ty} {a b c : Opnd} {off : BitVec 12}

/-- A record of single positions of a record of the run is one of the run. -/
theorem Iss.inRun_laneOf {r : Rec} (h : i.inRun r = true) {p : Nat} (hp : p ∈ r.positions) : i.inRun (r.laneOf p) = true := by
  simp only [Iss.inRun, Bool.and_eq_true, List.all_eq_true] at h ⊢
  exact ⟨h.1, by simpa using h.2 p hp⟩

theorem Iss.mem_orderIn {g : Group} {r : Rec} : r ∈ i.orderIn g ↔ r ∈ g.recs ∧ i.inRun r = true := by
  simp only [Iss.orderIn, List.mem_append, mem_foldr_insertRec, Iss.ranges, Iss.lanes, List.mem_filter, Bool.and_eq_true]
  cases r.lane <;> simp

/-- The positions that issue are the guarded ones, whichever records of the run have expanded. -/
theorem Iss.mem_orderIn_expand {sel : Rec → Bool} (hsel : ∀ r, sel r = true → i.inRun r = true) {p : Nat} :
    p ∈ (i.orderIn (i.g.expand sel)).flatMap i.onIn ↔ p ∈ i.onByAge := by
  simp only [List.mem_flatMap, Iss.mem_orderIn, Iss.mem_onByAge, Iss.mem_run]
  constructor
  · rintro ⟨x, ⟨hx, hin⟩, hp⟩
    obtain ⟨r, hr, hx⟩ := List.mem_flatMap.mp hx
    split_ifs at hx with hexp
    · obtain ⟨k, hk, rfl⟩ := List.mem_map.mp hx
      obtain ⟨hpk, hg⟩ := Iss.mem_onIn.mp hp
      obtain rfl : p = k := by simpa using hpk
      simp only [Bool.and_eq_true] at hexp
      exact ⟨r, ⟨hr, hsel r hexp.2⟩, Iss.mem_onIn.mpr ⟨hk, hg⟩⟩
    · obtain rfl := List.mem_singleton.mp hx
      exact ⟨x, ⟨hr, hin⟩, hp⟩
  · rintro ⟨r, ⟨hr, hin⟩, hp⟩
    by_cases hexp : (!r.lane && sel r) = true
    · obtain ⟨hpr, hg⟩ := Iss.mem_onIn.mp hp
      refine ⟨r.laneOf p, ⟨List.mem_flatMap.mpr ⟨r, hr, ?_⟩, Iss.inRun_laneOf hin hpr⟩, Iss.mem_onIn.mpr ⟨by simp, hg⟩⟩
      rw [if_pos hexp]
      exact List.mem_map_of_mem hpr
    · refine ⟨r, ⟨List.mem_flatMap.mpr ⟨r, hr, ?_⟩, hin⟩, hp⟩
      rw [if_neg hexp]
      exact List.mem_singleton_self r

theorem Iss.mem_orderIn_expandMany {p : Nat} : p ∈ (i.orderIn (i.expandMany d)).flatMap i.onIn ↔ p ∈ i.onByAge :=
  Iss.mem_orderIn_expand fun r hr => by
    simp only [Bool.and_eq_true] at hr
    exact hr.1.1.1

/-- The element of an atomic at a position. -/
def Iss.atomElem (T : Times) (op : AtomOp) (ty : Ty) (a b c : Opnd) (off : BitVec 12) (p : Nat) : Elem :=
  { mkElem [p] ((T p).addr a off p) (memBytes ty) (((T p).g.src ty.wide (.op b) p).setWidth 128) with
      repl := if op = .cas then (T p).g.src ty.wide (.op c) p else 0#64 }

theorem Iss.mem_atomElems {e : Elem} : e ∈ i.atomElems (i.expandMany d) T op ty a b c off ↔
    ∃ p ∈ i.onByAge, e = Iss.atomElem T op ty a b c off p := by
  simp only [Iss.atomElems, List.mem_map, Iss.mem_orderIn_expandMany]
  exact exists_congr fun p => and_congr_right fun _ => eq_comm

/-- The elements of an atomic serve the guarded positions, each with an element of its own. -/
theorem Iss.elemsServe_atomElems : ElemsServe (i.atomElems (i.expandMany d) T op ty a b c off) i.onByAge
    (fun p => (T p).addr a off p) (memBytes ty) where
  each e he := by
    obtain ⟨p, hp, rfl⟩ := Iss.mem_atomElems.mp he
    exact ⟨⟨p, List.mem_singleton_self p, rfl⟩, fun q hq => List.mem_singleton.mp hq ▸ hp, rfl, rfl⟩
  all p hp := ⟨_, Iss.mem_atomElems.mpr ⟨p, hp, rfl⟩, List.mem_singleton_self p, rfl⟩

theorem Iss.atomElems_eq_nil : i.atomElems (i.expandMany d) T op ty a b c off = [] ↔ i.onByAge = [] := by
  simp only [List.eq_nil_iff_forall_not_mem, Iss.mem_atomElems]
  exact ⟨fun h p hp => h _ ⟨p, hp, rfl⟩, fun h e ⟨p, hp, _⟩ => h p hp⟩

/-- An s destination that takes one old value passes (R90, R233). -/
theorem Iss.manyValues_ok (h : i.sTakesOne d) : i.manyValues d = .ok () := by
  unfold Iss.manyValues
  split
  · next n =>
    split
    · rfl
    · next hnwb =>
      have hrun := (h.resolve_left fun hd => hd n rfl).resolve_left hnwb
      have hbad : (i.run.filter fun r => r.lane || decide (2 ≤ r.n)).flatMap i.onIn = [] :=
        List.flatMap_eq_nil_iff.mpr fun r hr => by
          obtain ⟨hr, hmany⟩ := List.mem_filter.mp hr
          by_contra ho
          obtain ⟨hl, hn⟩ := hrun r hr ho
          simp [hl, Nat.not_le.mpr hn] at hmany
      rw [hbad, failAt_nil]
  · rfl

end

/-! The issue of an atomic in the scratchpads (R233) -/

/-- When each unit of an `atoms` issues. -/
def Iss.atomSched (i : Iss) (d : Opnd) (ns : List Need) (ty : Ty) (a : Opnd) (off : BitVec 12) : List (List Rec × Nat) :=
  i.sched (i.expandMany d) (readRegs ns) (i.rounds (atomWords a off (memBytes ty)))

section
variable {s : State} {k : Ctl} {i : Iss} {op : AtomOp} {ty : Ty} {d a b c : Opnd} {scope : BitVec 3} {off : BitVec 12} {T : Times}
  {sch : List (List Rec × Nat)} (hi : s.iss k = some i) (hc : i.check (atomNeeds op ty d a b c) = .ok ()) (hd : i.sTakesOne d)
  (hsch : sch = i.atomSched d (atomNeeds op ty d a b c) ty a off) (hT : T = i.timedBy sch)
  (hadm : ∀ p ∈ i.onByAge, i.accessFault permA [.spad, .partner] (memBytes ty) ((T p).addr a off p) = none)
  (hwatch : s.unwatched i atomKinds (memBytes ty) fun p => (T p).addr a off p)
include hi hc hd hsch hT hadm hwatch

/-- With no guarded position `atoms` queues nothing. -/
theorem execAtoms_none (ho : i.onByAge = []) : execAtoms k op ty d a b c scope off s =
    .next (s.finish i i.g i.g (readRegs (atomNeeds op ty d a b c)) 0 0 [⟨6, i.issues (i.expandMany d), []⟩] i.advance) := by
  subst hT hsch
  refine State.issue_ok hi ?_ (Iss.check_trial hc)
  refine (bind_of_ok hc).trans ((bind_of_ok (Iss.checkAccess_ok hadm)).trans ((bind_of_ok (Iss.manyValues_ok hd)).trans
    ((bind_of_ok (State.watchCheck_ok hwatch)).trans (if_pos ?_))))
  exact List.isEmpty_iff.mpr (Iss.atomElems_eq_nil.mpr ho)

/-- With a guarded position `atoms` queues its elements in one entry. -/
theorem execAtoms_some (ho : i.onByAge ≠ []) : execAtoms k op ty d a b c scope off s =
    .next ((s.countRounds i.ci (extraOf (i.rounds (atomWords a off (memBytes ty))) sch)).finish i (i.expandMany d)
      { i.expandMany d with storeq := (i.expandMany d).storeq ++ [.atom (s.ord + 1) k.sig.toNat (i.issues (i.expandMany d)) op ty
          ((i.atomElems (i.expandMany d) T op ty a b c off).map fun e => (e, i.placeOf e.va (e.ps.headD 0))) (i.slotDst d)
          k.hold.toNat []] }
      (readRegs (atomNeeds op ty d a b c)) (extraOf (i.rounds (atomWords a off (memBytes ty))) sch) (i.issues (i.expandMany d)) []
      i.advance) := by
  subst hT hsch
  refine State.issue_ok hi ?_ (Iss.check_trial hc)
  refine (bind_of_ok hc).trans ((bind_of_ok (Iss.checkAccess_ok hadm)).trans ((bind_of_ok (Iss.manyValues_ok hd)).trans
    ((bind_of_ok (State.watchCheck_ok hwatch)).trans (if_neg ?_))))
  exact fun h => ho (Iss.atomElems_eq_nil.mp (List.isEmpty_iff.mp h))

end

end Sys2Proof.Machine

namespace Sys2Proof
open Sys2Proof.Machine

/-- Settles O21: an element for each guarded position enters the store queue; the new values go by the operation, on the words of the
type's width. -/
theorem scratchpadAtomics : Obligations.ScratchpadAtomics := by
  unfold Obligations.ScratchpadAtomics
  refine ⟨?_, atomNew_wide, ?_⟩
  · intro k op ty d a b c scope off s i hi _ hc hd g sch T hg hsch hT hadm hwatch
    subst hg
    refine ⟨fun ho => execAtoms_none (scope := scope) hi hc hd hsch hT hadm hwatch ho, fun ho =>
      ⟨_, ?_, ?_, execAtoms_some (scope := scope) hi hc hd hsch hT hadm hwatch ho⟩⟩
    · rw [List.map_map]
      exact (List.map_id _).symm ▸ Iss.elemsServe_atomElems
    · intro x hx
      obtain ⟨e, he, rfl⟩ := List.mem_map.mp hx
      obtain ⟨p, -, rfl⟩ := Iss.mem_atomElems.mp he
      exact ⟨p, ⟨rfl, rfl, rfl⟩, rfl⟩
  · rintro m b c N rfl
    obtain ⟨hadd, hmin, hmax, hminu, hmaxu, hand, hor, hxor, hexch, hcas⟩ := atomNew32_integer m b c
    exact ⟨hadd, hmin, hmax, hminu, hmaxu, hand, hor, hxor, hexch, hcas, atomNew32_fadd m b c, atomNew32_fmin m b c,
      atomNew32_fmax m b c⟩

end Sys2Proof
end

section
/-!
SUPPORT. Queue instructions (R219, R221, R243, R245, R374): an entry as a value, the ends that `qbind` leaves, and an empty queue;
the statement O23.
-/

namespace Sys2Proof.Machine

theorem Iss.notInHandler_ok {i : Iss} (h : i.g.serves = none) : i.notInHandler = .ok () := by simp [Iss.notInHandler, h]

/-! What the values of an instruction leave of the group -/

/-- The group of some values is that of the issue with range records of the run expanded, and its records spend the passes. -/
theorem Iss.values_group {i : Iss} {d : Opnd} {words : Nat} {val : Nat → Nat → Word} {cell : Rec → Cell} {uni : Rec → Bool}
    {v : Values} (h : i.values d words val cell uni = .ok v) :
    v.gc = v.g ∧ ∃ sel : Rec → Bool, (∀ r, sel r = true → i.inRun r = true) ∧ v.g = i.g.expand sel := by
  unfold Iss.values at h
  dsimp only at h
  split at h
  · cases h
  · obtain rfl := Except.ok.inj h
    refine ⟨rfl, _, fun r hr => ?_, rfl⟩
    simp only [Bool.and_eq_true] at hr
    exact hr.1.2

/-! `qpeek` as a value instruction (R243) -/

/-- What the case table asks of a range record of `qpeek`: a U form of word 0 for an s register, else forms that fit. -/
def peekCell (d : Opnd) (e : List Word) : Cell := if isSDst d then .form [⟨.u, e.getD 0 0#32, 0#32⟩] else .fit []

/-- The result of `qpeek` at a position. -/
def peekWord (d : Opnd) (e : List Word) (p _j : Nat) : Word := e.getD (if isSDst d then 0 else p) 0#32

theorem peekCell_ne_later (d : Opnd) (e : List Word) : peekCell d e ≠ .later := by
  unfold peekCell
  split <;> simp

theorem eq_s_of_isSDst {d : Opnd} (h : isSDst d = true) : ∃ n, d = .s n := by
  cases d with
  | s n => exact ⟨n, rfl⟩
  | _ => cases h

section
variable {s : State} {k : Ctl} {i : Iss} {d a : Opnd} {e : List Word} {n : Nat}

/-- A `qpeek` to an s register has one result. -/
theorem Iss.sFails_peek (hd : isSDst d = true) {r : Rec} (ho : i.onIn r ≠ []) :
    i.sFails 1 (peekWord d e) d (fun _ => peekCell d e) (fun _ => isSDst d) r = false := by
  obtain ⟨n, rfl⟩ := eq_s_of_isSDst hd
  have hplan : i.plan (.s n) 1 (peekWord (.s n) e) r (peekCell (.s n) e) = .forms [⟨.u, e.getD 0 0#32, 0#32⟩] := by
    simp [Iss.plan, peekCell, isSDst, ho, Iss.partialPlan, Iss.vDst, Form.norm]
  simp [Iss.sFails, ho, hplan, isSDst]

/-- The entry's words are delivered as those of a value instruction. -/
theorem Iss.values_peek (hk : i.k = k) : ∃ v, (peekForm k d a e).Delivers i v ∧
    i.values d 1 (peekWord d e) (fun _ => peekCell d e) (fun _ => isSDst d) = .ok v := by
  have hs : (∀ n, d ≠ .s n) ∨ ∀ r ∈ i.run, i.onIn r ≠ [] →
      i.sFails 1 (peekWord d e) d (fun _ => peekCell d e) (fun _ => isSDst d) r = false := by
    cases hd : isSDst d with
    | true => exact .inr fun r _ ho => hd ▸ Iss.sFails_peek hd ho
    | false => exact .inl fun n hn => by rw [hn] at hd; cases hd
  have hvalues := fun gc hgc => (peekForm k d a e).values_ok (i := i) hk.symm gc (fun _ => peekCell d e) (fun _ => isSDst d)
    (fun _ _ _ _ => peekCell_ne_later d e) hs hgc
  -- the values do not depend on the passes, so the group that they leave may stand for the one that spends them
  obtain ⟨v, hv, hsr, -⟩ := hvalues i.g ⟨fun _ => false, by simp, (Group.expand_none _).symm⟩
  obtain ⟨hgc, hg⟩ := Iss.values_group hv
  obtain ⟨v', hv', -, hdel⟩ := hvalues v.g hg
  obtain rfl : v = v' := Except.ok.inj (hv.symm.trans hv')
  refine ⟨v, ?_, hv⟩
  have hsame : ({ v.g with sr := i.g.sr } : Group) = v.g := by rw [← hsr]
  have heq : ({ v with gc := v.g, g := { v.g with sr := i.g.sr } } : Values) = v := by
    rw [hsame]
    nth_rewrite 1 [← hgc]
    rfl
  exact heq ▸ hdel

/-- The body of `qpeek` once its queue has given an entry. -/
theorem execQpeek_ok {pop : Bool} (hi : s.iss k = some i) (hh : i.g.serves = none)
    (hc : i.check [dstVS d, ⟨a, [.dq], 1, 0⟩] = .ok ()) (he : (if i.acts then i.popCheck (opNum a) else .ok []) = .ok e) :
    ∃ v, (peekForm k d a e).Delivers i v ∧ execQpeek k d a pop s =
      .next ((if i.acts && pop then s.popQueue i.ti (i.queueIx (opNum a)) else s).finishValues i [] 2 2 v) := by
  obtain ⟨v, hdel, hv⟩ := Iss.values_peek (d := d) (a := a) (e := e) (State.iss_k hi)
  refine ⟨v, hdel, State.issue_ok hi ?_ (Iss.check_trial hc)⟩
  exact (bind_of_ok (Iss.notInHandler_ok hh)).trans ((bind_of_ok hc).trans ((bind_of_ok he).trans (bind_of_ok hv)))

/-- `qpeek` stops where its queue gives no entry. -/
theorem execQpeek_error {pop : Bool} {stop : Stop} (hi : s.iss k = some i) (hh : i.g.serves = none)
    (hc : i.check [dstVS d, ⟨a, [.dq], 1, 0⟩] = .ok ()) (ho : i.on ≠ []) (he : i.popCheck (opNum a) = .error stop) :
    execQpeek k d a pop s = .next (s.settle i stop) := by
  have hentry : (if i.acts then i.popCheck (opNum a) else .ok []) = .error stop := by rw [if_pos (acts_iff.mpr ho), he]
  refine State.issue_error hi ?_
  exact (bind_of_ok (Iss.notInHandler_ok hh)).trans ((bind_of_ok hc).trans (bind_of_error hentry))

/-! An empty queue (R374) -/

/-- An empty queue into which nothing is in flight gives no entry: poison first, then a producer that is gone, then the wait. -/
theorem Iss.popCheck_empty {q : Queue} (hq : i.queue n = some q) (he : q.cons = .unbound ∨ q.cons = .group i.g.g)
    (hent : q.entries = []) (hfl : q.flight = 0) : i.popCheck n = .error
      (if q.pois then .trap 0x0A 0 (w32 n) none else if q.gone then .trap 0x09 0 (w32 n) none else .block (.qEntry (i.queueIx n))) := by
  have hhead : q.head i.now = none := by simp [Queue.head, hent]
  simp only [Iss.popCheck, hq, endOk_iff.mpr he, hhead, hent, hfl]
  cases q.pois <;> cases q.gone <;> rfl

/-! The ends of a queue (R219, R245) -/

/-- A queue of the kernel passes checks 6 and 7. -/
theorem Iss.check_queue {n : Fin 16} (hh : i.g.serves = none) (hn : n.val < i.kern.queues) (ht : i.trial = false) :
    i.check [⟨.dq n, [.dq], 1, 0⟩] = .ok () := by
  refine Iss.check_iff.mpr ⟨by simp [hh], ?_, by simp [Need.vregs, Iss.deadAt], by simp [Iss.staleLatch], ht⟩
  simp [Need.ok, opKind, inAllot, hn]

/-- The end that a mode of `qbind` is about. -/
def Queue.endFor (q : Queue) (mode : BitVec 2) : QEnd := if mode = 0#2 ∨ mode = 2#2 then q.prod else q.cons

/-- An end that another holds is not bound (R245). -/
theorem Queue.bind_other {q : Queue} {mode : BitVec 2} {g : Nat} (hu : q.endFor mode ≠ .unbound) (hg : q.endFor mode ≠ .group g) :
    q.bind mode.toNat g = none := by
  obtain rfl | rfl | rfl | rfl : mode = 0#2 ∨ mode = 1#2 ∨ mode = 2#2 ∨ mode = 3#2 := by
    clear hu hg; revert mode; decide
  all_goals simp_all [Queue.endFor, Queue.bind]

section
variable {q : Queue} {m : Fin 16} {mode : BitVec 2} (hi : s.iss k = some i) (ht : i.trial = false) (hh : i.g.serves = none)
  (hn : m.val < i.kern.queues) (ho : i.on ≠ []) (hq : i.queue m.val = some q)
include hi ht hh hn ho hq

/-- `qbind` leaves the queue as its mode asks. -/
theorem execQbind_ok {q' : Queue} (hb : q.bind mode.toNat i.g.g = some q') : execQbind k (.dq m) mode s =
    .next ((s.modQueue i.ti (i.queueIx m.val) fun _ => q').finish i i.g i.g [] 0 0 [⟨1, i.run.length, []⟩] i.advance) := by
  refine State.issue_ok hi ?_ ht
  refine (bind_of_ok (Iss.notInHandler_ok hh)).trans ((bind_of_ok (Iss.check_queue hh hn ht)).trans ?_)
  simp [acts_iff.mpr ho, opNum, hq, hb]

/-- `qbind` on an end that another holds takes the illegal-operand trap. -/
theorem execQbind_error (hb : q.bind mode.toNat i.g.g = none) :
    execQbind k (.dq m) mode s = .next (s.takeTrap i.gi ⟨0x02, 4, 0xFF#32, i.trapRecord none, false⟩ i.pc) := by
  refine (State.issue_error (e := badOperand 4) hi ?_).trans rfl
  refine (bind_of_ok (Iss.notInHandler_ok hh)).trans ((bind_of_ok (Iss.check_queue hh hn ht)).trans ?_)
  simp [acts_iff.mpr ho, opNum, hq, hb]

end

end

end Sys2Proof.Machine

namespace Sys2Proof
open Sys2Proof.Machine

/-- Settles O23: `qpeek` delivers the head entry, or stops as the empty queue says; `qbind` leaves the end that its mode names. -/
theorem queueInstructions : Obligations.QueueInstructions := by
  unfold Obligations.QueueInstructions
  refine ⟨⟨?_, ?_⟩, ?_⟩
  · intro k d a pop s i hi hh hc
    constructor
    · intro ho
      have hacts : i.acts = false := by simp [Iss.acts, ho]
      obtain ⟨v, hdel, heq⟩ := execQpeek_ok (pop := pop) (e := []) hi hh hc (by simp [hacts])
      refine ⟨v, hdel, heq.trans ?_⟩
      simp [hacts]
    · intro e ho he
      have hacts := acts_iff.mpr ho
      obtain ⟨v, hdel, heq⟩ := execQpeek_ok (pop := pop) (e := e) hi hh hc (by rw [if_pos hacts, Iss.popCheck_ok he])
      refine ⟨v, hdel, heq.trans ?_⟩
      simp [hacts]
  · intro k n mode s i q hi ht hh hn ho hq
    refine ⟨?_, ?_, ?_, ?_, fun hu hg => execQbind_error hi ht hh hn ho hq (Queue.bind_other hu hg)⟩
    all_goals
      rintro rfl he
      refine execQbind_ok hi ht hh hn ho hq ?_
      simp [Queue.bind, he]
  · intro k d n pop s i q hi hh hc ho hq he hent hfl
    have hstop := Iss.popCheck_empty hq he hent hfl
    refine ⟨fun hp => ?_, fun hp hgone => ?_, fun hp hgone => ?_⟩
    all_goals
      refine (execQpeek_error hi hh hc ho hstop).trans ?_
      simp [*, State.settle]

end Sys2Proof
end

section
/-!
SUPPORT. Loads into registers (R226, R229, R230, R301): which register writes a load makes, where its elements in the operand log
stand, and its issue; the statement O17.
-/

namespace Sys2Proof.Machine

/-! Writes of a record's results (R87, R90, R124) -/

section
variable {i : Iss} {d : Opnd} {words : Nat} {val : Nat → Nat → Word} {ps : List Nat} {fs : List Form} {w : RegWrite}

theorem Iss.mem_dstWrites : w ∈ i.dstWrites d words val ps fs ↔ i.k.nwb = false ∧ ps ≠ [] ∧ ∃ j < words,
    (∃ n, d = .v n ∧ w = .v (n.val + j) (wordsAt val ps j) fs[j]?) ∨ ∃ n, d = .s n ∧ w = .s (n.val + j) (val (ps.headD 0) j) := by
  unfold Iss.dstWrites
  cases hn : i.k.nwb with
  | true => simp
  | false =>
    cases ps with
    | nil => simp
    | cons p ps => cases d <;> simp [eq_comm]

theorem Iss.mem_latchWrites : w ∈ i.latchWrites words val ps fs ↔
    ps ≠ [] ∧ ∃ j l, (heldLatches i.k.hold.toNat words)[j]? = some l ∧ w = .hl l (wordsAt val ps j) fs[j]? := by
  unfold Iss.latchWrites
  cases ps with
  | nil => simp
  | cons p ps =>
    simp only [List.isEmpty_cons, Bool.false_eq_true, if_false, List.mem_mapIdx, List.getElem?_eq_some_iff]
    constructor
    · rintro ⟨j, hj, rfl⟩
      exact ⟨by simp, j, _, ⟨hj, rfl⟩, rfl⟩
    · rintro ⟨-, j, l, ⟨hj, rfl⟩, rfl⟩
      exact ⟨j, hj, rfl⟩

/-- A record writes nothing, or its destination and its latches with the same forms. -/
theorem Iss.recWrites_eq (i : Iss) (d : Opnd) (words : Nat) (val : Nat → Nat → Word) (uni : Bool) (p : Plan) (r : Rec) (ps : List Nat) :
    (r.lane = false ∧ p = .nothing ∧ i.recWrites d words val uni p r ps = []) ∨
      ∃ fs, i.recWrites d words val uni p r ps = i.dstWrites d words val ps fs ++ i.latchWrites words val ps fs := by
  unfold Iss.recWrites
  cases r.lane with
  | true => exact .inr ⟨_, rfl⟩
  | false =>
    cases p with
    | nothing => exact .inl ⟨rfl, rfl, rfl⟩
    | forms fs => exact .inr ⟨fs, rfl⟩
    | expand => exact .inr ⟨[], rfl⟩

theorem Iss.hasRes_v (hn : i.k.nwb = false) (n : Fin 64) : i.hasRes (.v n) = true := by simp [Iss.hasRes, Iss.slotDst, hn]

theorem Iss.hasRes_s (hn : i.k.nwb = false) (n : Fin 56) : i.hasRes (.s n) = true := by simp [Iss.hasRes, Iss.slotDst, hn]

theorem isSDst_eq_false (h : ∀ n, d ≠ .s n) : isSDst d = false := by
  cases d with
  | s n => exact absurd rfl (h n)
  | _ => rfl

/-- Where no acting record fails an s destination, there are values. -/
theorem Iss.exists_values {cell : Rec → Cell} {uni : Rec → Bool}
    (h : (∀ n, d ≠ .s n) ∨ ∀ r ∈ i.run, i.onIn r ≠ [] → i.sFails words val d cell uni r = false) :
    ∃ v, i.values d words val cell uni = .ok v := by
  rcases h with h | h
  · obtain ⟨v, -, hv, -⟩ := Iss.values_of_not_s (isSDst_eq_false h) words val cell uni
    exact ⟨v, hv⟩
  · have hbad : (i.run.filter (i.sFails words val d cell uni)).flatMap i.onIn = [] := List.flatMap_eq_nil_iff.mpr fun r hr => by
      obtain ⟨hr, hf⟩ := List.mem_filter.mp hr
      by_contra ho
      exact absurd hf (by simp [h r hr ho])
    simp only [Iss.values, hbad, ite_self, failAt_nil]
    exact ⟨_, rfl⟩

end

/-! The results of a load at one latency (R112, R230) -/

/-- What the case table asks of a record of a load. -/
def State.loadCellAt (s : State) (i : Iss) (d a : Opnd) (size words : Nat) (T : Times) (A : Nat → Addr) (r : Rec) : Cell :=
  cellAt (fun _ => i.loadCell A (classAt T true (.op a) r) words (i.hasRes d) (s.chipLoad i A size) r) (T r.b) r

/-- What becomes of a record of a load. -/
def State.loadPlan (s : State) (i : Iss) (d a : Opnd) (size words : Nat) (T : Times) (A : Nat → Addr) (r : Rec) : Plan :=
  i.plan d words (s.chipLoad i A size) r (s.loadCellAt i d a size words T A r)

/-- The results of a load at an on-chip latency. -/
def State.loadResAt (s : State) (i : Iss) (d a : Opnd) (cq size words : Nat) (T : Times) (A : Nat → Addr) (l : Nat) : Res :=
  ⟨l, i.countLat A l, i.loadRes d words (s.chipLoad i A size) A (i.queueUni a T A) (s.loadPlan i d a size words T A) l ++
    i.chipCount A cq size l⟩

section
variable {i : Iss} {d : Opnd} {words : Nat} {val : Nat → Nat → Word} {A : Nat → Addr} {uni : Rec → Bool} {plan : Rec → Plan}
  {l cq size : Nat} {w : RegWrite}

/-- The guarded positions of a record whose access completes at a latency. -/
def Iss.onAt (i : Iss) (A : Nat → Addr) (l : Nat) (r : Rec) : List Nat := (i.onIn r).filter fun k => i.accLat (A k) == l

theorem Iss.mem_onAt {r : Rec} {p : Nat} : p ∈ i.onAt A l r ↔ p ∈ i.onIn r ∧ i.accLat (A p) = l := by simp [Iss.onAt]

/-- A write of a load's results is one of a record of the run, of its register or of its latches. -/
theorem Iss.mem_loadRes : w ∈ i.loadRes d words val A uni plan l ↔ ∃ r ∈ i.run,
    w ∈ if i.hasRes d && !i.overtaken d A l r then i.recWrites d words val (uni r) (plan r) r (i.onAt A l r)
      else i.latchWrites words val (i.onAt A l r) (if uni r then wordForms (val ((i.onAt A l r).headD 0)) words else []) := by
  simp only [Iss.loadRes, List.mem_flatMap, Iss.mem_inOrder]
  rfl

/-- Each such write is of the destination or of a latch, at the positions of the record that complete at the latency. -/
theorem Iss.of_mem_loadRes (h : w ∈ i.loadRes d words val A uni plan l) : ∃ r ∈ i.run, ∃ fs,
    w ∈ i.dstWrites d words val (i.onAt A l r) fs ∨ w ∈ i.latchWrites words val (i.onAt A l r) fs := by
  obtain ⟨r, hr, hw⟩ := Iss.mem_loadRes.mp h
  refine ⟨r, hr, ?_⟩
  by_cases hreg : (i.hasRes d && !i.overtaken d A l r) = true
  · rw [if_pos hreg] at hw
    rcases i.recWrites_eq d words val (uni r) (plan r) r (i.onAt A l r) with ⟨-, -, hnil⟩ | ⟨fs, heq⟩
    · rw [hnil] at hw
      cases hw
    · rw [heq] at hw
      exact ⟨fs, List.mem_append.mp hw⟩
  · rw [if_neg hreg] at hw
    exact ⟨_, .inr hw⟩

/-- An access that is not on chip has no latency of its own. -/
theorem Iss.accLat_eq_zero {va : Addr} : i.accLat va = 0 ↔ i.isGlobal va = true := by
  constructor
  · intro h
    by_contra hg
    have := le_of_mem_chipLats (Iss.accLat_mem (i := i) (va := va) (by simpa using hg))
    omega
  · intro h
    rw [Iss.accLat, if_pos h]

/-- Bytes that count out with on-chip accesses are those of records that also reach the global window (R218, R230). -/
theorem Iss.mem_chipCount (h : w ∈ i.chipCount A cq size l) :
    w = .count cq (((i.mixedChip A).filter fun p => i.accLat (A p) == l).length * size) ∧ ∃ p ∈ i.onByAge, i.isGlobal (A p) = true := by
  unfold Iss.chipCount at h
  dsimp only at h
  split_ifs at h with hlen
  · cases h
  · refine ⟨List.mem_singleton.mp h, ?_⟩
    obtain ⟨q, hq⟩ := List.exists_mem_of_length_pos (Nat.pos_of_ne_zero hlen)
    obtain ⟨r, hr, hq⟩ := List.mem_flatMap.mp (List.mem_filter.mp hq).1
    split_ifs at hq with hnone
    · have hzero : 0 ∈ (i.onIn r).map fun k => i.accLat (A k) := by
        by_contra hno
        simp [Iss.recLat, hno] at hnone
      obtain ⟨p, hp, hp0⟩ := List.mem_map.mp hzero
      exact ⟨p, Iss.mem_onByAge.mpr ⟨r, hr, hp⟩, Iss.accLat_eq_zero.mp hp0⟩
    · cases hq

/-! Elements of a load in the operand log (R226, R230) -/

/-- The guarded positions of a record that reach the global window. -/
def Iss.globalIn (i : Iss) (A : Nat → Addr) (r : Rec) : List Nat := (i.onIn r).filter fun k => i.isGlobal (A k)

theorem Iss.mem_globalIn {r : Rec} {p : Nat} : p ∈ i.globalIn A r ↔ p ∈ i.onIn r ∧ i.isGlobal (A p) = true := by simp [Iss.globalIn]

/-- The elements of one record: one where a range record has a U address, else one for each position. -/
def Iss.recElems (i : Iss) (A : Nat → Addr) (cls : Rec → Cls) (size : Nat) (r : Rec) : List Elem :=
  if !r.lane && cls r == .u then ((i.globalIn A r).head?.map fun k => mkElem (i.globalIn A r) (A k) size 0#128 true).toList
  else (i.globalIn A r).map fun k => mkElem [k] (A k) size 0#128 (cls r == .u)

theorem Iss.loadElems_eq (i : Iss) (A : Nat → Addr) (cls : Rec → Cls) (size : Nat) :
    i.loadElems A cls size = i.inOrder.flatMap (i.recElems A cls size) := by
  refine List.flatMap_congr fun r _ => ?_
  unfold Iss.recElems Iss.globalIn
  dsimp only
  cases (i.onIn r).filter fun k => i.isGlobal (A k) with
  | nil => simp
  | cons k ks => rfl

theorem Iss.length_recElems_le (r : Rec) (cls : Rec → Cls) : (i.recElems A cls size r).length ≤ (i.globalIn A r).length := by
  unfold Iss.recElems
  split
  · cases i.globalIn A r <;> simp
  · simp

/-- The elements of a load and the on-chip positions that are counted with them are no more than the guarded positions. -/
theorem Iss.loadBytes_le (hn : (allPositions i.g.recs).Nodup) (cls : Rec → Cls) :
    (i.loadElems A cls size).length + (i.mixedChip A).length ≤ 64 := by
  -- where no record shares a location, a store writes at every guarded position
  have hstore := i.storeBytes_le (A := A) (cls := fun _ => .l) (data := fun _ => 0) hn
  have hall : ((i.storeWrites A (fun _ => .l) fun _ => 0).filter fun w => i.isGlobal w.va).length =
      (i.inOrder.flatMap (i.globalIn A)).length := by
    have hsame : i.storesAt A (fun _ => .l) = i.onIn := funext fun r => if_neg (by simp [show (Cls.l == Cls.u) = false from rfl])
    rw [Iss.storeWrites_eq, hsame, List.filter_map, List.length_map, List.filter_flatMap]
    rfl
  have hle : (i.loadElems A cls size).length ≤ (i.inOrder.flatMap (i.globalIn A)).length := by
    rw [Iss.loadElems_eq, List.length_flatMap, List.length_flatMap]
    exact List.sum_le_sum fun r _ => Iss.length_recElems_le r cls
  omega

end

/-! A load that may issue -/

/-- What a load into registers finds: its operands pass, its accesses are admitted and not watched, an s destination has one
address off the stack, a slot has room for its global accesses, and nothing earlier holds its reads. -/
structure State.LoadReady (s : State) (i : Iss) (d a : Opnd) (m : Mem) (size words : Nat) (A : Nat → Addr) : Prop where
  sound : i.g.sound = true
  queue : queueOf d = none
  check : i.check [dstVS d words, pairN a] = .ok ()
  addr : A = i.memAddr (readRegs [pairN a]) a m.off size
  admitted : ∀ p ∈ i.onByAge, i.accessFault permR (plainApers false) size (A p) = none
  uniform : (∀ n, d ≠ .s n) ∨ ∀ r ∈ i.run, i.onIn r ≠ [] →
    classAt (i.memTimes (readRegs [pairN a]) a m.off size) true (.op a) r = .u ∧ i.stackOnly A r = false
  unwatched : s.unwatched i (fun _ => [watchRead]) size A
  slot : (∃ p ∈ i.onByAge, i.isGlobal (A p) = true) → ∃ num, i.slotFree m.cq.toNat (64 * size) num
  unheld : i.readHeld (i.withAddr A) size = false

section
variable {s : State} {k : Ctl} {i : Iss} {ins : Instr} {d a : Opnd} {m : Mem} {size words : Nat} {A : Nat → Addr} {T : Times}
  (h : s.LoadReady i d a m size words A) (hT : T = i.memTimes (readRegs [pairN a]) a m.off size)
include h

theorem State.LoadReady.nodup : (allPositions i.g.recs).Nodup := (Group.sound_iff.mp h.sound).2.2.nodup

include hT

/-- A range record whose address is U at its pass has one address. -/
theorem State.LoadReady.addr_eq {r : Rec} (hr : r ∈ i.run) (hl : r.lane = false) (hu : classAt T true (.op a) r = .u) {p q : Nat}
    (hp : p ∈ i.onIn r) (hq : q ∈ i.onIn r) : A p = A q := by
  have hkind : opKind a ∈ [Kind.v, .s, .zr] := by
    have := (Iss.check_ok h.check).1 (pairN a) (by simp)
    simp only [Need.ok, Bool.and_eq_true, List.contains_iff_mem] at this
    exact this.1.1
  rw [hT] at hu
  rw [h.addr]
  exact Iss.memAddr_of_u h.nodup (Iss.mem_recs_of_run hr) hl hkind hu (Iss.mem_positions_of_onIn hp) (Iss.mem_positions_of_onIn hq)

/-- A record that reads on chip is given its values at once where a register takes them. -/
theorem State.LoadReady.plan_ne_nothing (hres : i.hasRes d = true) {r : Rec} (hr : r ∈ i.run) (hl : r.lane = false) {p : Nat}
    (hp : p ∈ i.onIn r) (hchip : i.isGlobal (A p) = false) : s.loadPlan i d a size words T A r ≠ .nothing := by
  have ho : i.onIn r ≠ [] := List.ne_nil_of_mem hp
  refine Iss.plan_ne_nothing ?_ ho
  unfold State.loadCellAt cellAt
  split
  · unfold Iss.loadCell
    rw [if_neg (by simp [hres, ho])]
    split
    · simp
    · split
      · next hu =>
        have hhead : (i.onIn r).headD r.b ∈ i.onIn r := by
          obtain ⟨x, l, hx⟩ := List.exists_cons_of_ne_nil ho
          simp [hx]
        dsimp only
        rw [← h.addr_eq hT hr hl hu hp hhead, if_neg (by simp [hchip])]
        simp
      · simp
  · simp

/-- An s destination of such a load is given one value. -/
theorem State.LoadReady.not_sFails {n : Fin 56} (hd : d = .s n) {r : Rec} (hr : r ∈ i.run) (ho : i.onIn r ≠ []) :
    i.sFails words (s.chipLoad i A size) d (s.loadCellAt i d a size words T A) (i.queueUni a T A) r = false := by
  obtain ⟨hu, hstack⟩ := h.uniform.resolve_left (fun hno => hno n hd) r hr ho
  rw [← hT] at hu
  unfold Iss.sFails
  rw [if_neg (by simp [ho])]
  cases r.lane with
  | true => simp [Iss.queueUni, hu, hstack]
  | false =>
    obtain ⟨y, hy⟩ : ∃ y, (T r.b).recNow r = some y := by
      unfold classAt at hu
      split at hu
      · next y hy => exact ⟨y, hy⟩
      · cases hu
    have hcell : s.loadCellAt i d a size words T A r = .later ∨
        ∃ x, s.loadCellAt i d a size words T A r = .form (wordForms x words) := by
      unfold State.loadCellAt cellAt Iss.loadCell
      rw [hy]
      dsimp only
      simp only [hu, hstack, Bool.false_eq_true, if_false]
      split_ifs
      · exact .inl rfl
      · exact .inl rfl
      · exact .inr ⟨_, rfl⟩
    rcases hcell with hcell | ⟨x, hcell⟩
    · simp [hcell, Iss.plan]
    · subst hd
      simp [hcell, Iss.plan, ho, Iss.partialPlan, Iss.vDst, wordForms, Form.norm]

/-! Its elements and its slot -/

/-- The elements of such a load serve the guarded positions that reach the global window. -/
theorem State.LoadReady.elemsServe : ElemsServe (i.loadElems A (classAt T true (.op a)) size)
    (i.onByAge.filter fun p => i.isGlobal (A p)) A size where
  each e he := by
    rw [Iss.loadElems_eq] at he
    obtain ⟨r, hr, he⟩ := List.mem_flatMap.mp he
    rw [Iss.mem_inOrder] at hr
    have hmem : ∀ p ∈ i.globalIn A r, p ∈ i.onByAge.filter fun p => i.isGlobal (A p) := fun p hp => by
      obtain ⟨hp, hg⟩ := Iss.mem_globalIn.mp hp
      exact List.mem_filter.mpr ⟨Iss.mem_onByAge.mpr ⟨r, hr, hp⟩, hg⟩
    unfold Iss.recElems at he
    split at he
    · obtain ⟨k, hk, rfl⟩ := Option.map_eq_some_iff.mp (Option.mem_toList.mp he)
      exact ⟨⟨k, List.mem_of_head? hk, rfl⟩, hmem, rfl, rfl⟩
    · obtain ⟨k, hk, rfl⟩ := List.mem_map.mp he
      exact ⟨⟨k, List.mem_singleton_self k, rfl⟩, fun p hp => List.mem_singleton.mp hp ▸ hmem k hk, rfl, rfl⟩
  all p hp := by
    obtain ⟨hp, hg⟩ := List.mem_filter.mp hp
    obtain ⟨r, hr, hp⟩ := Iss.mem_onByAge.mp hp
    have hpr : p ∈ i.globalIn A r := Iss.mem_globalIn.mpr ⟨hp, hg⟩
    simp only [Iss.loadElems_eq, List.mem_flatMap, Iss.mem_inOrder]
    by_cases hone : (!r.lane && classAt T true (.op a) r == .u) = true
    · obtain ⟨k, l, hks⟩ := List.exists_cons_of_ne_nil (List.ne_nil_of_mem hpr)
      have hk : k ∈ i.onIn r := (Iss.mem_globalIn.mp (hks ▸ List.mem_cons_self)).1
      refine ⟨mkElem (i.globalIn A r) (A k) size 0#128 true, ⟨r, hr, ?_⟩, hpr, ?_⟩
      · rw [Iss.recElems, if_pos hone, hks]
        exact List.mem_singleton_self _
      · simp only [Bool.and_eq_true, Bool.not_eq_true', beq_iff_eq] at hone
        exact h.addr_eq hT hr hone.1 hone.2 hk hp
    · refine ⟨mkElem [p] (A p) size 0#128 (classAt T true (.op a) r == .u), ⟨r, hr, ?_⟩, List.mem_singleton_self p, rfl⟩
      rw [Iss.recElems, if_neg hone]
      exact List.mem_map_of_mem hpr

/-- It needs a slot where it reaches the global window. -/
theorem State.LoadReady.loadElems_eq_nil : i.loadElems A (classAt T true (.op a)) size = [] ↔
    ∀ p ∈ i.onByAge, i.isGlobal (A p) = false := by
  refine ⟨fun hnil p hp => ?_, fun hno => Iss.loadElems_of_chip hno _⟩
  rw [Bool.eq_false_iff]
  intro hg
  obtain ⟨e, he, -⟩ := (h.elemsServe hT).all p (List.mem_filter.mpr ⟨hp, hg⟩)
  simp [hnil] at he

/-- The slot of such a load, where it needs one. -/
theorem State.LoadReady.slotRoom {els : List Elem} (hels : els = i.loadElems A (classAt T true (.op a)) size) : ∃ num,
    i.slotRoom (!els.isEmpty) m.cq.toNat ((els.length + (i.mixedChip A).length) * size) = .ok num ∧
    (els ≠ [] → i.slotFree m.cq.toNat ((els.length + (i.mixedChip A).length) * size) num) := by
  by_cases hnil : els = []
  · exact ⟨0, by rw [hnil]; rfl, fun hne => absurd hnil hne⟩
  · have hglob : ∃ p ∈ i.onByAge, i.isGlobal (A p) = true := by
      by_contra hno
      exact hnil (hels.trans ((h.loadElems_eq_nil hT).mpr fun p hp => by simpa using fun hg => hno ⟨p, hp, hg⟩))
    obtain ⟨num, hnum⟩ := h.slot hglob
    have hfree := hnum.mono (Nat.mul_le_mul_right size (hels ▸ Iss.loadBytes_le h.nodup (classAt T true (.op a))))
    exact ⟨num, by rw [List.isEmpty_eq_false_iff.mpr hnil]; exact Iss.slotRoom_ok hfree, fun _ => hfree⟩

/-! Its results -/

omit h hT in
/-- Each write of such a load is of its destination, of a latch, or of its byte count. -/
theorem State.of_mem_loadResAt {l : Nat} {w : RegWrite} (hw : w ∈ (s.loadResAt i d a m.cq.toNat size words T A l).ws) :
    (∃ r ∈ i.run, ∃ fs, w ∈ i.dstWrites d words (s.chipLoad i A size) (i.onAt A l r) fs ∨
      w ∈ i.latchWrites words (s.chipLoad i A size) (i.onAt A l r) fs) ∨ w ∈ i.chipCount A m.cq.toNat size l :=
  (List.mem_append.mp hw).imp_left Iss.of_mem_loadRes

/-- A position that reads on chip has its register written, unless a younger record has written it. -/
theorem State.LoadReady.dst_mem {p : Nat} {r : Rec} (hr : r ∈ i.run) (hp : p ∈ i.onIn r) (hchip : i.isGlobal (A p) = false)
    (hres : i.hasRes d = true) (hover : i.overtaken d A (i.accLat (A p)) r = false) : ∃ fs,
    (∀ w ∈ i.dstWrites d words (s.chipLoad i A size) (i.onAt A (i.accLat (A p)) r) fs ++
      i.latchWrites words (s.chipLoad i A size) (i.onAt A (i.accLat (A p)) r) fs,
      w ∈ (s.loadResAt i d a m.cq.toNat size words T A (i.accLat (A p))).ws) := by
  obtain ⟨fs, heq⟩ := (i.recWrites_eq d words (s.chipLoad i A size) (i.queueUni a T A r) (s.loadPlan i d a size words T A r) r
    (i.onAt A (i.accLat (A p)) r)).resolve_left fun ⟨hl, hno, _⟩ => h.plan_ne_nothing hT hres hr hl hp hchip hno
  refine ⟨fs, fun w hw => List.mem_append_left _ (Iss.mem_loadRes.mpr ⟨r, hr, ?_⟩)⟩
  rw [if_pos (by simp [hres, hover]), heq]
  exact hw

/-- Its latches are written in any case. -/
theorem State.LoadReady.latch_mem {p : Nat} {r : Rec} (hr : r ∈ i.run) (hp : p ∈ i.onIn r) (hchip : i.isGlobal (A p) = false) :
    ∃ fs, ∀ w ∈ i.latchWrites words (s.chipLoad i A size) (i.onAt A (i.accLat (A p)) r) fs,
      w ∈ (s.loadResAt i d a m.cq.toNat size words T A (i.accLat (A p))).ws := by
  by_cases hreg : (i.hasRes d && !i.overtaken d A (i.accLat (A p)) r) = true
  · simp only [Bool.and_eq_true, Bool.not_eq_true'] at hreg
    obtain ⟨fs, hw⟩ := h.dst_mem hT hr hp hchip hreg.1 hreg.2
    exact ⟨fs, fun w hl => hw w (List.mem_append_right _ hl)⟩
  · refine ⟨if i.queueUni a T A r then wordForms (s.chipLoad i A size ((i.onAt A (i.accLat (A p)) r).headD 0)) words else [],
      fun w hw => List.mem_append_left _ (Iss.mem_loadRes.mpr ⟨r, hr, ?_⟩)⟩
    rw [if_neg hreg]
    exact hw

/-- The group that such a load leaves. -/
def Iss.loadedGroup (i : Iss) (ins : Instr) (d : Opnd) (m : Mem) (size words num ord : Nat) (A : Nat → Addr) (g0 : Group)
    (els : List Elem) : Group :=
  if els.isEmpty then g0
  else (g0.countUp m.cq.toNat ((els.length + (i.mixedChip A).length) * size)).addSlot
    (i.newSlot num ord ins .load els size (some m.cq.toNat) (i.globalRecs A) (i.loadDst d A) words m.qord)

/-- Results and group of such a load are those of a load that issues. -/
theorem State.LoadReady.loadIssue {v : Values} {num : Nat} {els : List Elem}
    (hv : i.values d words (s.chipLoad i A size) (s.loadCellAt i d a size words T A) (i.queueUni a T A) = .ok v)
    (hels : els = i.loadElems A (classAt T true (.op a)) size)
    (hnum : els ≠ [] → i.slotFree m.cq.toNat ((els.length + (i.mixedChip A).length) * size) num) :
    LoadIssue s i ins d a m size words A (i.memSched (readRegs [pairN a]) a m.off size)
      (chipLats.map (s.loadResAt i d a m.cq.toNat size words T A))
      (i.loadedGroup ins d m size words num (s.ord + 1) A { v.g with
        rereads := v.g.rereads ++ i.laterReads A (i.memSched (readRegs [pairN a]) a m.off size) d size (s.ord + 1) } els) where
  only R hR w hw := by
    obtain ⟨l, -, rfl⟩ := List.mem_map.mp hR
    have hpos : ∀ r ∈ i.run, ∀ p ∈ i.onAt A l r, p ∈ i.onByAge ∧ i.accLat (A p) = l := fun r hr p hp => by
      obtain ⟨hp, hl⟩ := Iss.mem_onAt.mp hp
      exact ⟨Iss.mem_onByAge.mpr ⟨r, hr, hp⟩, hl⟩
    have hvals : ∀ r ∈ i.run, ∀ j, ∀ q ∈ wordsAt (s.chipLoad i A size) (i.onAt A l r) j,
        q.1 ∈ i.onByAge ∧ i.accLat (A q.1) = l ∧ q.2 = s.loaded i A size q.1 j := fun r hr j q hq => by
      obtain ⟨hq, hval⟩ := mem_wordsAt.mp hq
      exact ⟨(hpos r hr _ hq).1, (hpos r hr _ hq).2, hval⟩
    rcases State.of_mem_loadResAt hw with ⟨r, hr, fs, hw | hw⟩ | hw
    · obtain ⟨hn, hne, j, hj, ⟨n, hd, rfl⟩ | ⟨n, hd, rfl⟩⟩ := Iss.mem_dstWrites.mp hw
      · exact ⟨n, j, hd, hj, rfl, hn, hvals r hr j⟩
      · obtain ⟨hp, hl⟩ := hpos r hr _ (headD_mem hne)
        exact ⟨n, j, hd, hj, rfl, hn, _, hp, hl, rfl⟩
    · obtain ⟨-, j, l', hj, rfl⟩ := Iss.mem_latchWrites.mp hw
      exact ⟨j, hj, hvals r hr j⟩
    · obtain ⟨rfl, hg⟩ := Iss.mem_chipCount hw
      exact ⟨rfl, rfl, hg⟩
  chip p hp hchip := by
    obtain ⟨r, hr, hpr⟩ := Iss.mem_onByAge.mp hp
    have hon : p ∈ i.onAt A (i.accLat (A p)) r := Iss.mem_onAt.mpr ⟨hpr, rfl⟩
    have hne := List.ne_nil_of_mem hon
    have hval : ∀ j, (p, s.loaded i A size p j) ∈ wordsAt (s.chipLoad i A size) (i.onAt A (i.accLat (A p)) r) j :=
      fun j => mem_wordsAt.mpr ⟨hon, rfl⟩
    refine ⟨_, List.mem_map_of_mem (Iss.accLat_mem hchip), rfl, ?_, ?_, ?_⟩
    · rintro n rfl hn j hj
      obtain ⟨fs, hw⟩ := h.dst_mem hT hr hpr hchip (Iss.hasRes_v hn n) (by simp [Iss.overtaken, isSDst])
      exact ⟨_, _, hw _ (List.mem_append_left _ (Iss.mem_dstWrites.mpr ⟨hn, hne, j, hj, .inl ⟨n, rfl, rfl⟩⟩)), hval j⟩
    · rintro n rfl hn hover j hj
      obtain ⟨fs, hw⟩ := h.dst_mem hT hr hpr hchip (Iss.hasRes_s hn n) (hover r hr hpr)
      exact ⟨_, hw _ (List.mem_append_left _ (Iss.mem_dstWrites.mpr ⟨hn, hne, j, hj, .inr ⟨n, rfl, rfl⟩⟩))⟩
    · intro j l hl
      obtain ⟨fs, hw⟩ := h.latch_mem hT hr hpr hchip
      exact ⟨_, _, hw _ (Iss.mem_latchWrites.mpr ⟨hne, j, l, hl, rfl⟩), hval j⟩
  group := by
    obtain ⟨-, sel, hsel, hg⟩ := Iss.values_group hv
    refine ⟨sel, _, hsel, rfl, ?_⟩
    rw [hg]
    by_cases hnil : els = []
    · exact .inl ⟨(h.loadElems_eq_nil hT).mp (hels ▸ hnil), by rw [Iss.loadedGroup, hnil]; rfl⟩
    · refine .inr ⟨els, num, ?_, hels ▸ h.elemsServe hT, hnum hnil, by rw [Iss.loadedGroup, if_neg (by simpa using hnil)]; rfl⟩
      by_contra hno
      exact hnil (hels.trans ((h.loadElems_eq_nil hT).mpr fun p hp => by simpa using fun hg => hno ⟨p, hp, hg⟩))

omit hT in
/-- Such a load issues. -/
theorem State.LoadReady.loadOp_eq (hi : s.iss k = some i) (queue : Bool) : ∃ res g extra,
    LoadIssue s i ins d a m size words A (i.memSched (readRegs [pairN a]) a m.off size) res g ∧
    s.loadOp k ins d a m size words queue = .next ((s.countRounds i.ci extra).finish i i.g g (readRegs [pairN a]) extra
      (i.globalRecs A) res i.advance) := by
  obtain ⟨T, hT⟩ : ∃ T, T = i.memTimes (readRegs [pairN a]) a m.off size := ⟨_, rfl⟩
  obtain ⟨v, hv⟩ := Iss.exists_values (d := d) (words := words) (val := s.chipLoad i A size)
    (cell := s.loadCellAt i d a size words T A) (uni := i.queueUni a T A) (by
      by_cases hd : ∃ n, d = .s n
      · obtain ⟨n, hd⟩ := hd
        exact .inr fun r hr ho => h.not_sFails hT hd hr ho
      · exact .inl fun n hn => hd ⟨n, hn⟩)
  obtain ⟨num, hroom, hfree⟩ := h.slotRoom hT rfl
  refine ⟨_, _, extraOf (i.rounds (memWords a m.off size)) (i.memSched (readRegs [pairN a]) a m.off size),
    h.loadIssue hT hv rfl hfree, State.issue_ok hi ?_ (Iss.check_trial h.check)⟩
  have hcheck : i.check [⟨d, if queue then [.v, .s, .dq, .zr] else [.v, .s, .zr], words, 0⟩, pairN a] = .ok () :=
    Iss.check_of_more_kinds (pre := []) h.check (by cases queue <;> simp [dstVS])
  dsimp only
  rw [i.sched_eq_memSched, i.timedBy_eq_memTimes, i.addr_eq h.addr, ← hT, h.queue, ite_self]
  refine (bind_of_ok hcheck).trans ?_
  refine (bind_of_ok (v := ()) rfl).trans ?_
  refine (bind_of_ok (Iss.checkAccess_ok h.admitted)).trans ?_
  refine (bind_of_ok hv).trans ?_
  refine (bind_of_ok (State.watchCheck_ok h.unwatched)).trans ?_
  refine (bind_of_ok (v := ()) rfl).trans ?_
  refine (bind_of_ok hroom).trans ?_
  rw [if_neg (by simp [h.unheld])]
  simp only [List.append_nil, Option.isSome_none, Bool.false_and, Bool.false_eq_true, if_false]
  rfl

end

end Sys2Proof.Machine

namespace Sys2Proof
open Sys2Proof.Machine

/-- Settles O17: what a load finds by the statement is that it may issue; its results and its elements are then those of its
guarded positions. -/
theorem loadsComplete : Obligations.LoadsComplete := by
  unfold Obligations.LoadsComplete
  intro k d a m s i x ty size words hx hi hs hq hc A hA hadm huni hwatch hslot hheld
  have h : s.LoadReady i d a m size words A := ⟨hs, hq, hc, hA, hadm, huni, hwatch, hslot, hheld⟩
  obtain ⟨rfl, rfl, rfl⟩ | ⟨rfl, rfl, rfl⟩ := hx
  · exact h.loadOp_eq hi _
  · exact h.loadOp_eq hi _

end Sys2Proof
end

section
/-!
SUPPORT. Engine commands (R237 to R241): the pieces of a move, and what a command does once its operands, its tag and its addresses
pass; the statement O22.
-/

namespace Sys2Proof.Machine

/-! Pieces of a move (R228, R240) -/

/-- The bytes that a piece may take of the source: whole units up to the end of its page, and one unit at least. -/
def sourceRoom (gran : Nat) (sa : Addr) : Nat := max gran ((65536 - sa.toNat % 65536) / gran * gran)

/-- The length of the first piece of a move. -/
def pieceLen (gran : Nat) (d sa : Addr) (n : Nat) : Nat := min n (min (65536 - d.toNat % 65536) (sourceRoom gran sa))

/-- A bound on the pieces of a move: the page ends that either end still meets; at each one of the source up to two pieces end, a
shorter one before the unit that crosses it. -/
def piecesLeft (gran : Nat) (d sa : Addr) (n : Nat) : Nat :=
  (d.toNat % 65536 + n) / 65536 + 2 * ((sa.toNat % 65536 + n) / 65536) + if gran ≤ 65536 - sa.toNat % 65536 then 1 else 0

section
variable {gran fuel n : Nat} {d sa : Addr}

theorem movePieces_zero (gran fuel : Nat) (d sa : Addr) : movePieces gran fuel d sa 0 = [] := by cases fuel <;> rfl

theorem movePieces_succ (hn : n ≠ 0) : movePieces gran (fuel + 1) d sa n =
    { mkElem [] d (pieceLen gran d sa n) 0#128 with src := sa } ::
      movePieces gran fuel (d + BitVec.ofNat 64 (pieceLen gran d sa n)) (sa + BitVec.ofNat 64 (pieceLen gran d sa n))
        (n - pieceLen gran d sa n) := by
  rw [movePieces, if_neg hn]
  rfl

theorem toNat_add_mod_page (x : Addr) (l : Nat) : (x + BitVec.ofNat 64 l).toNat % 65536 = (x.toNat % 65536 + l) % 65536 := by
  simp only [BitVec.toNat_add, BitVec.toNat_ofNat]
  omega

/-- The page ends of n bytes are those of the first l and of the rest. -/
theorem pages_add (x : Nat) {l : Nat} (h : l ≤ n) : ((x + l) % 65536 + (n - l)) / 65536 + (x + l) / 65536 = (x + n) / 65536 := by
  rw [← Nat.add_mul_div_left _ _ (by omega : 0 < 65536)]
  congr 1
  have := Nat.mod_add_div (x + l) 65536
  omega

/-- A piece ends within a unit of the end of the source's page, or is the one unit that crosses it. -/
theorem sourceRoom_cases (hg : 0 < gran) (sa : Addr) :
    gran ≤ 65536 - sa.toNat % 65536 ∧ gran ≤ sourceRoom gran sa ∧ sa.toNat % 65536 + sourceRoom gran sa ≤ 65536 ∧
        65536 < sa.toNat % 65536 + sourceRoom gran sa + gran ∨
      65536 - sa.toNat % 65536 < gran ∧ sourceRoom gran sa = gran := by
  have hdiv := Nat.div_add_mod' (65536 - sa.toNat % 65536) gran
  have hmod := Nat.mod_lt (65536 - sa.toNat % 65536) hg
  have hlt : sa.toNat % 65536 < 65536 := Nat.mod_lt _ (by omega)
  unfold sourceRoom
  rcases Nat.lt_or_ge (65536 - sa.toNat % 65536) gran with hunit | hunit
  · exact .inr ⟨hunit, by rw [Nat.div_eq_of_lt hunit, Nat.zero_mul]; exact Nat.max_eq_left (Nat.zero_le gran)⟩
  · have hle : gran ≤ (65536 - sa.toNat % 65536) / gran * gran := Nat.le_mul_of_pos_left _ (Nat.div_pos hunit hg)
    rw [Nat.max_eq_right hle]
    exact .inl ⟨hunit, hle, by omega, by omega⟩

theorem pieceLen_le : pieceLen gran d sa n ≤ n ∧ d.toNat % 65536 + pieceLen gran d sa n ≤ 65536 ∧
    pieceLen gran d sa n ≤ sourceRoom gran sa := by
  have hlt : d.toNat % 65536 < 65536 := Nat.mod_lt _ (by omega)
  unfold pieceLen
  omega

/-- A piece stops for the end of the move, for a page of the destination, or for one of the source. -/
theorem pieceLen_cases : pieceLen gran d sa n = n ∨ d.toNat % 65536 + pieceLen gran d sa n = 65536 ∨
    pieceLen gran d sa n = sourceRoom gran sa := by
  have hlt : d.toNat % 65536 < 65536 := Nat.mod_lt _ (by omega)
  unfold pieceLen
  omega

theorem pieceLen_pos (hg : 0 < gran) (hn : n ≠ 0) : 0 < pieceLen gran d sa n := by
  have hlt : d.toNat % 65536 < 65536 := Nat.mod_lt _ (by omega)
  have hroom := sourceRoom_cases hg sa
  rcases pieceLen_cases (gran := gran) (d := d) (sa := sa) (n := n) with h | h | h <;> omega

theorem dvd_pieceLen (hpage : gran ∣ 65536) (hd : gran ∣ d.toNat) (hn : gran ∣ n) : gran ∣ pieceLen gran d sa n := by
  have hdst : gran ∣ 65536 - d.toNat % 65536 := Nat.dvd_sub hpage ((Nat.dvd_mod_iff hpage).mpr hd)
  have hroom : gran ∣ sourceRoom gran sa := by
    unfold sourceRoom
    rcases max_choice gran ((65536 - sa.toNat % 65536) / gran * gran) with h | h
    · rw [h]
    · rw [h]
      exact Nat.dvd_mul_left _ _
  simp only [pieceLen, Nat.min_def]
  split_ifs <;> assumption

/-- Each piece but the last is one fewer that is left. -/
theorem piecesLeft_lt (hg : 0 < gran) (hle : gran ≤ pieceLen gran d sa n) (hn : pieceLen gran d sa n ≠ n) :
    piecesLeft gran (d + BitVec.ofNat 64 (pieceLen gran d sa n)) (sa + BitVec.ofNat 64 (pieceLen gran d sa n))
      (n - pieceLen gran d sa n) < piecesLeft gran d sa n := by
  have hd : d.toNat % 65536 < 65536 := Nat.mod_lt _ (by omega)
  have hsa : sa.toNat % 65536 < 65536 := Nat.mod_lt _ (by omega)
  have hroom := sourceRoom_cases hg sa
  obtain ⟨hn', hdst, hsrc⟩ := pieceLen_le (gran := gran) (d := d) (sa := sa) (n := n)
  have hstop := pieceLen_cases (gran := gran) (d := d) (sa := sa) (n := n) |>.resolve_left hn
  unfold piecesLeft
  rw [toNat_add_mod_page, toNat_add_mod_page, ← pages_add (d.toNat % 65536) hn', ← pages_add (sa.toNat % 65536) hn']
  -- a piece that stays in the source's page has the unit at its end no longer, if that is where it stops
  have hsame : sa.toNat % 65536 + pieceLen gran d sa n < 65536 →
      (sa.toNat % 65536 + pieceLen gran d sa n) % 65536 = sa.toNat % 65536 + pieceLen gran d sa n := Nat.mod_eq_of_lt
  have hdpage : d.toNat % 65536 + pieceLen gran d sa n = 65536 → (d.toNat % 65536 + pieceLen gran d sa n) / 65536 = 1 := by
    intro h
    rw [h]
  by_cases hcross : sa.toNat % 65536 + pieceLen gran d sa n < 65536
  · rw [hsame hcross]
    rcases hstop with hstop | hstop
    · rw [hdpage hstop]
      split_ifs <;> omega
    · rw [if_neg (by omega), if_pos (by omega)]
      omega
  · have hspage : 1 ≤ (sa.toNat % 65536 + pieceLen gran d sa n) / 65536 := Nat.div_pos (by omega) (by omega)
    split_ifs <;> omega

/-- With fuel for the pieces that are left, the pieces are those of the whole move. -/
theorem movePieces_piecesFrom (hg : 0 < gran) (hpage : gran ∣ 65536) (hd : gran ∣ d.toNat) (hn : gran ∣ n)
    (hfuel : n = 0 ∨ piecesLeft gran d sa n < fuel) : piecesFrom gran (movePieces gran fuel d sa n) d sa n := by
  induction fuel generalizing d sa n with
  | zero =>
    obtain rfl : n = 0 := hfuel.resolve_right (by omega)
    rfl
  | succ fuel ih =>
    by_cases hzero : n = 0
    · rw [hzero, movePieces_zero]
      rfl
    · have hpos := pieceLen_pos (d := d) (sa := sa) hg hzero
      have hdvd := dvd_pieceLen (sa := sa) hpage hd hn
      have hunit := Nat.le_of_dvd hpos hdvd
      obtain ⟨hlen, hdst, hsrc⟩ := pieceLen_le (gran := gran) (d := d) (sa := sa) (n := n)
      have hnext : gran ∣ (d + BitVec.ofNat 64 (pieceLen gran d sa n)).toNat := by
        rw [← Nat.dvd_mod_iff hpage, toNat_add_mod_page, Nat.dvd_mod_iff hpage]
        exact Nat.dvd_add ((Nat.dvd_mod_iff hpage).mpr hd) hdvd
      rw [movePieces_succ hzero]
      refine ⟨rfl, rfl, rfl, hpos, hlen, hdvd, hdst, ?_, ih hnext (Nat.dvd_sub hn hdvd) ?_⟩
      · show sa.toNat % 65536 + pieceLen gran d sa n ≤ 65536 ∨ pieceLen gran d sa n = gran
        rcases sourceRoom_cases hg sa with ⟨-, -, hroom, -⟩ | ⟨-, hroom⟩ <;> omega
      · by_cases hlast : pieceLen gran d sa n = n
        · exact .inl (by omega)
        · have hleft := piecesLeft_lt hg hunit hlast
          exact .inr (by omega)

/-- The pieces of a command of the largest size are no more than those that it may have (R239). -/
theorem piecesLeft_of_maxMove (gran : Nat) (d sa : Addr) (h : n ≤ 0x400000) : piecesLeft gran d sa n < 256 := by
  unfold piecesLeft
  split_ifs <;> omega

end

/-- The elements of a command's moves (R238). -/
def commandElems (gran : Nat) (moves : List (Addr × Addr × Nat)) : List Elem :=
  moves.flatMap fun mv => movePieces gran 256 mv.1 mv.2.1 mv.2.2

theorem commandElems_one (gran : Nat) (d sa : Addr) (n : Nat) : commandElems gran [(d, sa, n)] = movePieces gran 256 d sa n := by
  simp [commandElems]

/-! Checks of a command -/

section
variable {s : State} {i : Iss} {k : Ctl} {ins : Instr} {op : SlotOp} {gran tag num n : Nat} {a b : Opnd} {third : Need} {qord : Bool}
  {body : Iss → Except Stop (List (Addr × Addr × Nat) × (State → State))}

/-- A source that is uniform in every acting record passes (R361). -/
theorem Iss.uniform_ok {wide : Bool} {o : Opnd} (h : i.uniformRun wide o) : i.uniform wide o = .ok () := by
  have hbad : (i.run.filter fun r => i.g.srcCls wide r (.op o) != .u).flatMap i.onIn = [] := List.flatMap_eq_nil_iff.mpr fun r hr => by
    obtain ⟨hr, hcls⟩ := List.mem_filter.mp hr
    by_contra ho
    simp [h r hr ho] at hcls
  rw [Iss.uniform, hbad, failAt_nil]

/-- Accesses that no watchpoint hits pass the watchpoint check (R369). -/
theorem State.watchCheck_ok_of_miss {as : List (Nat × Nat × Addr × Nat)}
    (h : ∀ x ∈ as, i.ctx.watchHit (s.shape i.g i.t) x.2.1 x.2.2.1 x.2.2.2 = none) : s.watchCheck i as = .ok () := by
  unfold State.watchCheck
  split
  · rfl
  · dsimp only
    rw [List.filter_eq_nil_iff.mpr]
    intro x hx
    simp [h x (List.mem_filter.mp hx).1]

/-- Bytes within their bound and an aperture have no fault (R201, R239). -/
theorem Iss.rangeFault_none {perm : Nat} {admits : List Aper} {va : Addr} (h : i.spanOk perm admits n va) :
    i.rangeFault perm admits n va = none := by
  obtain ⟨hbound, haper, hend⟩ := h
  simp [Iss.rangeFault, hbound, haper, Nat.not_lt.mpr hend]

theorem Iss.rowsFault_none {rows : List (Addr × Addr × Nat)}
    (h : ∀ mv ∈ rows, i.spanOk permR [.global] mv.2.2 mv.2.1 ∧ i.spanOk permW [.spad] mv.2.2 mv.1) : i.rowsFault rows = none := by
  refine List.findSome?_eq_none_iff.mpr fun mv hmv => ?_
  obtain ⟨hsrc, hdst⟩ := h mv hmv
  rw [Iss.rangeFault_none hsrc]
  exact Iss.rangeFault_none hdst

/-! The outcomes of a command (R237, R238) -/

/-- What an issue makes of the outcome of its body. -/
def State.ended (s : State) (i : Iss) : Except Stop State → Host.Outcome State Fault Refusal
  | .ok t => .next t
  | .error e => .next (s.settle i e)

theorem State.ended_ok (s t : State) (i : Iss) : s.ended i (.ok t) = .next t := rfl

theorem State.ended_error (s : State) (i : Iss) (e : Stop) : s.ended i (.error e) = .next (s.settle i e) := rfl

theorem State.issue_eq_ended {f : Iss → Except Stop State} (hi : s.iss k = some i) (ht : i.trial = false) :
    s.issue k f = s.ended i (f i) := by
  cases hf : f i with
  | ok t => exact State.issue_ok hi hf ht
  | error e => exact State.issue_error hi hf

/-- What a command does once its operands pass. -/
def State.cmdRest (s : State) (i : Iss) (ins : Instr) (op : SlotOp) (gran : Nat) (ns : List Need) (tag : Nat) (qord : Bool)
    (body : Iss → Except Stop (List (Addr × Addr × Nat) × (State → State))) : Except Stop State :=
  if !i.acts then .ok (s.finish i i.g i.g (readRegs ns) 0 0 [⟨1, i.run.length, []⟩] i.advance)
  else if !i.t.tagBit (i.tagIx tag) then .error (.block (.tag (i.tagIx tag)))
  else do
    let (moves, then_) ← body i
    s.watchCheck i ((moves.map fun mv => (i.actPos, watchRead, mv.2.1, mv.2.2)) ++
      moves.map fun mv => (i.actPos, watchWrite, mv.1, mv.2.2))
    match i.g.freeSlot with
    | none => .error .hold
    | some num => .ok (then_ ((s.clearTag i tag).commandNext i ins op ns tag num qord
        (commandElems gran moves)))

variable (hi : s.iss k = some i) (h : i.cmdOk a b third tag)
include hi h

/-- A command whose operands pass ends as the rest of it says. -/
theorem State.engineCmd_eq : s.engineCmd k ins op gran a b third tag qord body =
    s.ended i (s.cmdRest i ins op gran [pairN a, pairN b, third] tag qord body) := by
  obtain ⟨hh, hc, htag, ha, hb, hthird⟩ := h
  have hns : [pairN a, pairN b, third] ++ (if i.kern.tags ≤ tag then [badNeed] else []) = [pairN a, pairN b, third] := by
    rw [if_neg (by omega), List.append_nil]
  refine (State.issue_eq_ended hi (Iss.check_trial hc)).trans (congrArg (s.ended i) ?_)
  dsimp only
  rw [hns]
  refine (bind_of_ok (Iss.notInHandler_ok hh)).trans ((bind_of_ok hc).trans ((bind_of_ok (Iss.uniform_ok ha)).trans
    ((bind_of_ok (Iss.uniform_ok hb)).trans ((bind_of_ok (Iss.uniform_ok hthird)).trans ?_))))
  rfl

/-- With no guarded position a command moves nothing. -/
theorem State.engineCmd_idle (ho : i.on = []) : s.engineCmd k ins op gran a b third tag qord body =
    .next (s.finish i i.g i.g (readRegs [pairN a, pairN b, third]) 0 0 [⟨1, i.run.length, []⟩] i.advance) := by
  rw [State.engineCmd_eq hi h, State.cmdRest, if_pos (by simp [Iss.acts, ho]), State.ended_ok]

variable (ho : i.on ≠ [])
include ho

/-- A command waits for its tag. -/
theorem State.engineCmd_blocks (ht : i.t.tagBit (i.tagIx tag) = false) : s.engineCmd k ins op gran a b third tag qord body =
    .next { s with groups := s.groups.set i.gi (i.block (.tag (i.tagIx tag)) (s.ord + 1)), ord := s.ord + 1 } := by
  rw [State.engineCmd_eq hi h, State.cmdRest, if_neg (by simp [acts_iff.mpr ho]), if_pos (by simp [ht]), State.ended_error]
  rfl

/-- A command with its tag set issues with its moves. -/
theorem State.engineCmd_moves {moves : List (Addr × Addr × Nat)} {then_ : State → State} (ht : i.t.tagBit (i.tagIx tag) = true)
    (hbody : body i = .ok (moves, then_)) (hwatch : ∀ mv ∈ moves, i.ctx.watchHit (s.shape i.g i.t) watchRead mv.2.1 mv.2.2 = none ∧
      i.ctx.watchHit (s.shape i.g i.t) watchWrite mv.1 mv.2.2 = none) (hslot : i.g.freeSlot = some num) :
    s.engineCmd k ins op gran a b third tag qord body = .next (then_ ((s.clearTag i tag).commandNext i ins op
      [pairN a, pairN b, third] tag num qord (commandElems gran moves))) := by
  have hmiss : s.watchCheck i ((moves.map fun mv => (i.actPos, watchRead, mv.2.1, mv.2.2)) ++
      moves.map fun mv => (i.actPos, watchWrite, mv.1, mv.2.2)) = .ok () := by
    refine State.watchCheck_ok_of_miss fun x hx => ?_
    rcases List.mem_append.mp hx with hx | hx
    · obtain ⟨mv, hmv, rfl⟩ := List.mem_map.mp hx
      exact (hwatch mv hmv).1
    · obtain ⟨mv, hmv, rfl⟩ := List.mem_map.mp hx
      exact (hwatch mv hmv).2
  have hrest : s.cmdRest i ins op gran [pairN a, pairN b, third] tag qord body = .ok (then_ ((s.clearTag i tag).commandNext i ins op
      [pairN a, pairN b, third] tag num qord (commandElems gran moves))) := by
    rw [State.cmdRest, if_neg (by simp [acts_iff.mpr ho]), if_neg (by simp [ht])]
    refine (bind_of_ok hbody).trans ((bind_of_ok hmiss).trans ?_)
    rw [hslot]
  rw [State.engineCmd_eq hi h, hrest, State.ended_ok]

end

/-! `copy` and `copyw` (R239, R240) -/

section
variable {s : State} {i : Iss} {k : Ctl} {a b c : Opnd} {tag : BitVec 6} {qord : Bool} {off : BitVec 12} {num : Nat}
  {admits : List Aper} {d sa : Addr} {n : Nat}

/-- What `copy` and `copyw` ask of their ends and their length, for an alignment of the destination. -/
structure Iss.CopyReady (i : Iss) (a b c : Opnd) (off : BitVec 12) (admits : List Aper) (al : Nat) (d sa : Addr) (n : Nat) : Prop where
  dst : d = i.upair a + off.signExtend 64
  src : sa = i.upair b
  len : n = (i.uword c).toNat
  dstAligned : al ∣ d.toNat
  srcAligned : 4 ∣ sa.toNat
  lenAligned : al ∣ n
  lenMax : n ≤ 0x400000
  write : i.spanOk permW admits n d
  read : i.spanOk permR [.spad, .partner, .global] n sa

/-- The body that `copy` and `copyw` share. -/
def Iss.copyMoves (i : Iss) (a b c : Opnd) (off : BitVec 12) (admits : List Aper) (al : Nat) :
    Except Stop (List (Addr × Addr × Nat) × (State → State)) := do
  let (d, sa) := i.cmdEnds a b off
  let n := (i.uword c).toNat
  if d.toNat % al != 0 || sa.toNat % 4 != 0 then .error (badBound causeAlign)
  else if n % al != 0 || decide (maxMove < n) then .error (badBound causeLength)
  else
    boundStop (i.rangeFault permW admits n d)
    boundStop (i.rangeFault permR [.spad, .partner, .global] n sa)
    .ok ([(d, sa, n)], id)

theorem Iss.CopyReady.copyMoves_ok {al : Nat} (h : i.CopyReady a b c off admits al d sa n) :
    i.copyMoves a b c off admits al = .ok ([(d, sa, n)], id) := by
  obtain ⟨rfl, rfl, rfl, hd, hsa, hn, hmax, hw, hr⟩ := h
  unfold Iss.copyMoves Iss.cmdEnds maxMove
  dsimp only
  rw [if_neg (by rw [Nat.mod_eq_zero_of_dvd hd, Nat.mod_eq_zero_of_dvd hsa]; simp),
    if_neg (by simp [Nat.mod_eq_zero_of_dvd hn, hmax]), Iss.rangeFault_none hw, Iss.rangeFault_none hr]
  rfl

/-- A `copy` or `copyw` that may move logs its pieces. -/
theorem State.engineCmd_copies {ins : Instr} {op : SlotOp} {gran al : Nat} (hi : s.iss k = some i)
    (hc : i.cmdOk a b ⟨c, [.v, .s, .zr], 1, 1⟩ tag.toNat) (ho : i.on ≠ []) (ht : i.t.tagBit (i.tagIx tag.toNat) = true)
    (h : i.CopyReady a b c off admits al d sa n) (hg : 0 < gran) (hpage : gran ∣ 65536) (hal : gran ∣ al)
    (hwatch : i.ctx.watchHit (s.shape i.g i.t) watchRead sa n = none ∧ i.ctx.watchHit (s.shape i.g i.t) watchWrite d n = none)
    (hslot : i.g.freeSlot = some num) : ∃ els, piecesFrom gran els d sa n ∧
    s.engineCmd k ins op gran a b ⟨c, [.v, .s, .zr], 1, 1⟩ tag.toNat qord (fun i => i.copyMoves a b c off admits al) =
      .next ((s.clearTag i tag.toNat).commandNext i ins op [pairN a, pairN b, ⟨c, [.v, .s, .zr], 1, 1⟩] tag.toNat num qord els) := by
  refine ⟨commandElems gran [(d, sa, n)], ?_, State.engineCmd_moves (then_ := id) hi hc ho ht h.copyMoves_ok ?_ hslot⟩
  · rw [commandElems_one]
    exact movePieces_piecesFrom hg hpage (hal.trans h.dstAligned) (hal.trans h.lenAligned)
      (.inr (piecesLeft_of_maxMove gran d sa h.lenMax))
  · rintro mv hmv
    obtain rfl := List.mem_singleton.mp hmv
    exact hwatch

end

/-! `rload` (R241) -/

section
variable {s : State} {i : Iss} {a b c : Opnd} {off : BitVec 12} {d sa : Addr} {tbl : Nat → Nat → Nat} {rows : List (Addr × Addr × Nat)}

/-- What `rload` asks of its shape, its table at the source and its rows. -/
structure State.RloadReady (s : State) (i : Iss) (a b c : Opnd) (off : BitVec 12) (d sa : Addr) (tbl : Nat → Nat → Nat)
    (rows : List (Addr × Addr × Nat)) : Prop where
  dst : d = i.upair a + off.signExtend 64
  src : sa = i.upair b
  srcAligned : 8 ∣ sa.toNat
  rowsTile : shpCols (s.shape i.g i.t (opNum c)) = false
  table : i.spanOk permR [.spad] (8 + 8 * shpNc (s.shape i.g i.t (opNum c))) sa
  noAtomic : i.g.atomPending (i.placeOf sa 0) (8 + 8 * shpNc (s.shape i.g i.t (opNum c))) (s.ord + 1) = false
  tbl_eq : tbl = fun o w => s.readPlace i.g (i.placeOf (sa + BitVec.ofNat 64 o) 0) w (s.ord + 1)
  rows_eq : rows = rloadRows (s.shape i.g i.t (opNum c)) d (tbl 0 4) (tbl 4 4) (fun j => BitVec.ofNat 64 (tbl (8 + 8 * j) 8))
  rowMin : 4 ≤ tbl 0 4
  rowMax : tbl 0 4 ≤ shpPitch (s.shape i.g i.t (opNum c))
  rowAligned : 4 ∣ tbl 0 4
  pitchMin : tbl 0 4 ≤ tbl 4 4
  pitchAligned : 4 ∣ tbl 4 4
  lenMax : rows.length * tbl 0 4 ≤ 0x400000
  curdAligned : ∀ j < shpNc (s.shape i.g i.t (opNum c)), shpBd (s.shape i.g i.t (opNum c)) j < shpBd (s.shape i.g i.t (opNum c)) (j + 1) →
    4 ∣ (BitVec.ofNat 64 (tbl (8 + 8 * j) 8)).toNat
  spans : ∀ mv ∈ rows, i.spanOk permR [.global] mv.2.2 mv.2.1 ∧ i.spanOk permW [.spad] mv.2.2 mv.1

/-- Such rows have no length at fault (R241). -/
theorem rloadLength_ok {x : BitVec 640} {rb sp len : Nat} {src : Nat → Addr} (hmin : 4 ≤ rb) (hmax : rb ≤ shpPitch x) (hrb : 4 ∣ rb)
    (hpitch : rb ≤ sp) (hsp : 4 ∣ sp) (hlen : len * rb ≤ 0x400000)
    (hcurd : ∀ j < shpNc x, shpBd x j < shpBd x (j + 1) → 4 ∣ (src j).toNat) :
    (decide (rb < 4) || decide (shpPitch x < rb) || rb % 4 != 0 || decide (sp < rb) || sp % 4 != 0 || decide (maxMove < len * rb) ||
      ((List.range (shpNc x)).filter fun j => decide (shpBd x j < shpBd x (j + 1))).any fun j => (src j).toNat % 4 != 0) = false := by
  have hlive : (((List.range (shpNc x)).filter fun j => decide (shpBd x j < shpBd x (j + 1))).any fun j =>
      (src j).toNat % 4 != 0) = false := by
    refine List.any_eq_false.mpr fun j hj => ?_
    obtain ⟨hj, hl⟩ := List.mem_filter.mp hj
    simpa using Nat.mod_eq_zero_of_dvd (hcurd j (List.mem_range.mp hj) (of_decide_eq_true hl))
  rw [hlive, decide_eq_false (Nat.not_lt.mpr (show len * rb ≤ maxMove from hlen))]
  simp [Nat.mod_eq_zero_of_dvd hrb, Nat.mod_eq_zero_of_dvd hsp, hmin, hmax, hpitch]

/-- A `rload` that may move logs its rows, and has seen the shape that it read (R262). -/
theorem State.RloadReady.execRload_eq (h : s.RloadReady i a b c off d sa tbl rows) {k : Ctl} {tag : BitVec 6} {qord : Bool} {num : Nat}
    (hi : s.iss k = some i) (hc : i.cmdOk a b ⟨c, [.shp], 1, 0⟩ tag.toNat) (ho : i.on ≠ [])
    (ht : i.t.tagBit (i.tagIx tag.toNat) = true) (hwatch : ∀ mv ∈ rows, i.ctx.watchHit (s.shape i.g i.t) watchRead mv.2.1 mv.2.2 = none ∧
      i.ctx.watchHit (s.shape i.g i.t) watchWrite mv.1 mv.2.2 = none) (hslot : i.g.freeSlot = some num) :
    execRload k a b c tag qord off s = .next (((s.clearTag i tag.toNat).commandNext i (.rload k a b c tag qord off) .rload
      [pairN a, pairN b, ⟨c, [.shp], 1, 0⟩] tag.toNat num qord
      (commandElems 1 rows)).sawShape i.gi (opNum c) (s.shapeIdx i.g i.t (opNum c))) := by
  refine State.engineCmd_moves (moves := rows) (then_ := fun t => t.sawShape i.gi (opNum c) (s.shapeIdx i.g i.t (opNum c)))
    hi hc ho ht ?_ hwatch hslot
  obtain ⟨rfl, rfl, hsa, hcols, htable, hatom, rfl, hrows, hmin, hmax, h4, hpitch, hp4, hlen, hcurd, hspans⟩ := h
  dsimp only at *
  unfold Iss.cmdEnds
  dsimp only
  rw [← hrows, if_neg (by simp [hcols]), if_neg (by simp [Nat.mod_eq_zero_of_dvd hsa]), Iss.rangeFault_none htable]
  refine (bind_of_ok (v := ()) rfl).trans ?_
  rw [if_neg (by simp [hatom]), if_neg (Bool.eq_false_iff.mp (rloadLength_ok hmin hmax h4 hpitch hp4 hlen hcurd)),
    Iss.rowsFault_none hspans]
  rfl

end

end Sys2Proof.Machine

namespace Sys2Proof
open Sys2Proof.Machine

/-- Settles O22: a command is settled by its guard, its tag and its moves in turn; the pieces of a move are those of the fuel that the
largest command needs. -/
theorem engineCommandsComplete : Obligations.EngineCommandsComplete := by
  unfold Obligations.EngineCommandsComplete
  intro k a b c tag qord off s i hi
  refine ⟨fun x third hx hc => ?_, fun x op admits al gran hx hc ho ht d sa n num hd hsa hn hda hsaa hna hmax hw hr hwatch hslot => ?_,
    fun hc ho ht d sa num tbl rows hd hsa hsaa hcols htable hatom htbl hrows hmin hrmax h4 hpitch hp4 hlen hcurd hspans hwatch hslot => ?_⟩
  · obtain ⟨rfl, rfl⟩ | ⟨rfl, rfl⟩ | ⟨rfl, rfl⟩ := hx <;>
      exact ⟨fun ho => State.engineCmd_idle hi hc ho, fun ho ht => State.engineCmd_blocks hi hc ho ht⟩
  · have h : i.CopyReady a b c off admits al d sa n := ⟨hd, hsa, hn, hda, hsaa, hna, hmax, hw, hr⟩
    obtain ⟨rfl, rfl, rfl, rfl, rfl⟩ | ⟨rfl, rfl, rfl, rfl, rfl⟩ := hx
    · exact State.engineCmd_copies hi hc ho ht h (by decide) (by decide) (by decide) hwatch hslot
    · exact State.engineCmd_copies hi hc ho ht h (by decide) (by decide) (by decide) hwatch hslot
  · have h : s.RloadReady i a b c off d sa tbl rows := ⟨hd, hsa, hsaa, hcols, htable, hatom, htbl, hrows, hmin, hrmax, h4, hpitch, hp4,
      hlen, hcurd, hspans⟩
    exact h.execRload_eq hi hc ho ht hwatch hslot

end Sys2Proof
end

section
/-!
SUPPORT. The operand log at the end of an issue, and a gather whose base changes while its run issues (R112, R236): the statement O19,
which fails where a result that lands between two passes leaves the base pair no longer uniform.
-/

namespace Sys2Proof.Machine

/-! The operand log at the end of an issue -/

theorem Group.sigUp_oplog (g : Group) (sig n : Nat) : (g.sigUp sig n).oplog = g.oplog := by
  unfold Group.sigUp; split <;> rfl

theorem Group.restStrag_oplog (g : Group) : g.restStrag.oplog = g.oplog := by
  unfold Group.restStrag; split <;> rfl

theorem Group.countStrag_oplog (g : Group) (pc : Addr) : (g.countStrag pc).oplog = g.oplog := by
  unfold Group.countStrag; split_ifs <;> rfl

/-- A group that goes on to the next slot keeps its log. -/
theorem Iss.close_advance_oplog (i : Iss) (g : Group) (passes lost ck : Nat) : (i.close g passes lost ck i.advance).oplog = g.oplog := by
  rw [Iss.close_eq, Group.restStrag_oplog]
  exact Group.countStrag_oplog { g with recs := i.seen g } i.pc

/-- An issue with no result at once leaves the log that it was given. -/
theorem State.finish_oplog {s : State} {i : Iss} {gc g : Group} {regs : List Nat} {extra pend : Nat} (hgi : i.gi < s.groups.length)
    (hstep : i.g0.step = none) : ((s.finish i gc g regs extra pend [] i.advance).groups[i.gi]?).map Group.oplog = some g.oplog := by
  unfold State.finish State.stepped
  simp only [hstep, List.foldl_nil, State.countPair_groups]
  split
  all_goals
    simp only [State.loseLatches, State.modCore, State.modCtx, List.getElem?_mapIdx, List.getElem?_set_self hgi, Option.map_some,
      ne_eq, not_true_eq_false, false_and, if_false, Group.sigUp_oplog, Iss.close_advance_oplog]

end Sys2Proof.Machine

namespace Sys2Proof
open Sys2Proof.Machine

/-! A gather of two records, where a write of the base lands between their passes -/

/-- The base pair v2:v3 of a record: 0x20000, a global address, at every position. -/
def uniformBase : Sparse Form := [(2, ⟨.u, 0x20000#32, 0#32⟩), (3, ⟨.u, 0#32, 0#32⟩)]

/-- A write in flight of v2 at the positions 2 and 3, due in ck 1: 0x20000 and 0x20004, a form of class A. -/
def splitBase : Inflight := ⟨1, 1, 0, 0, 0, [.v 2 [(2, 0x20000#32), (3, 0x20004#32)] (some ⟨.a, 0x1FFF8#32, 4#32⟩)]⟩

/-- A group of the positions 0 and, in a record of their own, 2 and 3, with that write in flight. -/
def landingGroup : Group :=
  { Group.start 0 0 0 0 0 16 0#64 [] 1#32 with
    recs := [⟨false, 0, 1, 1, 0#64, none, false, uniformBase⟩, ⟨false, 2, 1, 2, 0#64, none, false, uniformBase⟩],
    wb := [splitBase] }

/-- The device with that group alone, which issues in ck 0. -/
def landingState : State := { unorderedState with groups := [landingGroup] }

/-- The issue of its run: the record of position 0 passes in ck 0, the other one in ck 1. -/
def landingIss : Iss := { unorderedIss with g0 := landingGroup, g := landingGroup, sel := [0, 2, 3] }

/-- `gather` to v8 from the base v2:v3 with index 0. -/
def gatherV8 : Instr := .gather plainCtl .b32 (.v 8) (.v 2) .zr 0#5 ⟨0#12, 0#3, false⟩

/-- What O19 says of it. -/
def gatherV8Form : EngineForm where
  k := plainCtl
  ns := [dstT .b32 (.v 8), pairN (.v 2), ⟨.zr, [.v, .s, .zr], 1, 1⟩]
  size := 4
  words := 1
  cq := 0
  qord := false
  op := .gather
  d := .v 8
  addr i p := i.addr (.v 2) 0#12 p + (i.g.word .zr p).setWidth 64 <<< (0#5).toNat
  fault i va := i.accessFault permR [.spad, .partner, .global] 4 va
  kinds := [watchRead]
  pre i := i.uniformRun true (.v 2) ∧ i.sTakesUniform (.v 8) .zr
  grp i := i.expandIdx (.v 8) .zr

theorem engineForm_gatherV8 : engineForm gatherV8 = some gatherV8Form := rfl

/-- The issuing run is both records. -/
theorem iss_landing : landingState.iss plainCtl = some landingIss := rfl

/-- They are sound. -/
theorem sound_landing : landingIss.g.sound = true := rfl

/-- The operands pass their checks. -/
theorem check_landing : landingIss.check gatherV8Form.ns = .ok () := rfl

/-- The base is U in both records when the run issues. -/
theorem pre_landing : gatherV8Form.pre landingIss := by
  refine ⟨?_, .inl (by simp)⟩
  show ∀ r ∈ landingIss.run, landingIss.onIn r ≠ [] → landingIss.g.srcCls true r (.op (.v 2)) = .u
  decide

theorem onByAge_landing : landingIss.onByAge = [0, 2, 3] := rfl

/-- The addresses at the passes: the positions 2 and 3 pass when the write has landed, so that theirs differ. -/
theorem at_landing : gatherV8Form.at_ landingIss 0 = 0x20000#64 ∧ gatherV8Form.at_ landingIss 2 = 0x20000#64 ∧
    gatherV8Form.at_ landingIss 3 = 0x20004#64 := ⟨rfl, rfl, rfl⟩

/-- Every address passes its checks. -/
theorem fault_landing : ∀ p ∈ landingIss.onByAge, gatherV8Form.fault landingIss (gatherV8Form.at_ landingIss p) = none := by
  obtain ⟨h0, h2, h3⟩ := at_landing
  simp only [onByAge_landing, List.forall_mem_cons, h0, h2, h3]
  exact ⟨rfl, rfl, rfl, by simp⟩

/-- No watchpoint is set. -/
theorem unwatched_landing :
    landingState.unwatched landingIss (fun _ => gatherV8Form.kinds) gatherV8Form.size (gatherV8Form.at_ landingIss) := by
  obtain ⟨h0, h2, h3⟩ := at_landing
  refine .inr ?_
  simp only [onByAge_landing, List.forall_mem_cons, h0, h2, h3]
  exact ⟨by decide, by decide, by decide, by simp⟩

/-- The log is empty. -/
theorem slotFree_landing : landingIss.slotFree gatherV8Form.cq (64 * gatherV8Form.size) 0 :=
  ⟨by decide, fun _ hl => absurd hl List.not_mem_nil, fun m hm => absurd hm (Nat.not_lt_zero m), by decide⟩

/-- The index is U, so that the model reads once for the record of the positions 2 and 3, at the address of position 2. -/
theorem exec_landing : ∃ t, exec gatherV8 landingState = .next t ∧
    ((t.groups[landingIss.gi]?).map Group.oplog).map (List.map Slot.elems) =
      some [[mkElem [0] 0x20000#64 4 0#128 true, mkElem [2, 3] 0x20000#64 4 0#128 true]] := ⟨_, rfl, rfl⟩

/-- Refutes O19: the base pair of a `gather` is asked to be uniform only where the run begins to issue (`uniformRun`), while each
record's addresses are those of its own pass (R112). Where a write of the base lands between two passes, a range record with a U
index has two addresses and one element, so that position 3 has none at its own. (The statement wants a base that is uniform in each
record at its pass.) -/
theorem not_engineAccesses : ¬ Obligations.EngineAccesses := by
  unfold Obligations.EngineAccesses
  rintro ⟨h, -⟩
  obtain ⟨-, hnext⟩ := h gatherV8 gatherV8Form engineForm_gatherV8 landingState landingIss iss_landing sound_landing check_landing
    pre_landing fault_landing unwatched_landing
  obtain ⟨els, num, hserve, -, -, hexec⟩ := hnext (by simp [onByAge_landing]) ⟨0, slotFree_landing⟩
  obtain ⟨t, ht, hlog⟩ := exec_landing
  obtain rfl := Host.Outcome.next.inj (hexec.symm.trans ht)
  -- the elements of the statement are those that the model logs
  have hels : els = [mkElem [0] 0x20000#64 4 0#128 true, mkElem [2, 3] 0x20000#64 4 0#128 true] := by
    rw [State.finish_oplog (by decide) rfl] at hlog
    exact (List.cons.inj (Option.some.inj hlog)).1
  -- and the one that serves position 3 is not at its address
  obtain ⟨e, he, h3, hva⟩ := hserve.all 3 (by simp [onByAge_landing])
  rw [at_landing.2.2] at hva
  rw [hels] at he
  rcases List.mem_pair.mp he with rfl | rfl
  · exact absurd h3 (by decide)
  · exact absurd hva (by decide)

end Sys2Proof
end
